-- ==== Sys2Proof/Word.lean ====
section
/-! DEFINITION. The word types of the ZH96 (00 R5: little-endian bytes, bit 0 least significant). -/

namespace Sys2Proof

/-- A 64-bit scalar value or address (06 R102). -/
abbrev Word := BitVec 64

/-- One byte of memory. -/
abbrev Byte := BitVec 8

/-- One 32-bit lane of a window register (09 R171). -/
abbrev Lane := BitVec 32

/-- A window register: 128 lanes of 32 bits, lane 0 in the lowest bits (06 R102). -/
abbrev VWord := BitVec 4096

/-- A vector mask, one bit per lane (06 R102). -/
abbrev LaneMask := BitVec 128

end Sys2Proof
end

