-- ==== Sys2Proof/Config.lean ====
section
/-! DEFINITION. What the manual leaves open and an implementation fixes: free values.
None of these constants has a body, so no proof can rest on a number chosen for them. -/

namespace Sys2Proof.Config

/-- Cycles beyond the first that an asynchronous operation takes, drawn with the free counter (11 R218 gives only typical figures; log 6). -/
opaque asyncLatency : Nat → Nat

/-- Which level serves a global access in deterministic mode: 0 for 600 cycles, 1 for 1100, 2 for 2400 (15 R306; log 6). -/
opaque servedBy : Nat → Fin 3

/-- Cycles that a walk, a pull, a scrub, a save unit or another device activity takes beyond the first (log 6). -/
opaque deviceLatency : Nat → Nat

/-- Whether an L1 has let go of a copy it held, drawn with the free counter (11 R220 gives a capacity and no rule of replacement; log 13). -/
opaque evicted : Nat → Bool

/-- The line that an L1 of 2048 lines lets go of to take another, drawn with the free counter (11 R220; log 13). -/
opaque victim : Nat → Nat

/-- The HBM stack of a die, 0 to 3, that holds a 64 KiB frame (08 R162 names the stack of an address and no rule maps one; log 16). -/
opaque stackOf : Fin 2 → Nat → Fin 4

/-- The tag that a transport packet carries, at a place that the manual leaves to the transport, drawn with the free counter (11 R239, R242; log 25). -/
opaque messageTag : Nat → BitVec 64

/-- A byte of a save slot that the manual gives no content: the fields of a trap in the slot of a stop of another kind (16 R321; log 11). -/
opaque saveByte : Nat → Nat → BitVec 8

/-- The implementation's reading of a save slot area whose packing the manual does not give (16 R321; log 11): from the area's bytes as one number and a field's number, the field. -/
opaque savedField : Nat → Nat → Nat

/-- The bytes of the Assay ROM that measurement block 1 covers (18 R364; log 9). -/
opaque romBytes : Unit → List (BitVec 8)

/-- What an SPDM response carries that the manual leaves to the implementation: a nonce, sizes, times, by the request's code and the request (18 R364; log 10). -/
opaque spdmFree : Nat → List (BitVec 8) → Nat

/-- The certificate chain that an identity image carries (18 R364; log 10). -/
opaque certChain : List (BitVec 8) → List (BitVec 8)

/-- The signature of 96 bytes over a message under the identity key that an identity image unlocks (18 R364; log 10). -/
opaque spdmSign : List (BitVec 8) → List (BitVec 8) → List (BitVec 8)

/-- The die that a monitor senses, fixed by the part (18 R367; log 15). -/
opaque monitorDie : Fin 64 → Fin 3

/-- Whether a voltage reading lies outside its rail's window of 5 percent, the rail's level being the part's (18 R368; log 15). -/
opaque voltageOutside : Fin 64 → BitVec 32 → Bool

end Sys2Proof.Config
end

