-- ==== Sys2Proof/Syntax.lean ====
section
/-! DEFINITION. The instruction set: operand kinds, slot forms, device events, and the one inductive `Instr` with a constructor for every row of the opcode table. -/

namespace Sys2Proof

/-! ## Operands -/

/-- A scalar operand (05 R87): n0 to n31, q0 to q15, g0 to g15. -/
inductive SOp where
  | n (i : Fin 32)
  | q (i : Fin 16)
  | g (i : Fin 16)
deriving DecidableEq, Repr

/-- A vector operand (05 R88): v0 to v231 relative to the window base, z0 to z7, vq0 to vq15. -/
inductive VOp where
  | v (i : Fin 232)
  | z (i : Fin 8)
  | vq (i : Fin 16)
deriving DecidableEq, Repr

/-- The guard of a scalar slot: a predicate and the negate bit (05 R86). -/
structure Guard where
  p : Fin 8
  neg : Bool
deriving DecidableEq, Repr

/-- The special registers by name (06 R106). -/
inductive SReg where
  | flg | rnd | jord | jflg | vwb | cmk | wid | bead | rodid | skew | pword | svm | det | dl | occ | dlen
  | tick | time | slip
  | blc (i : Fin 8)
  | mprec
  | gang (i : Fin 16)
deriving DecidableEq, Repr

/-- The type codes of the vector map (05 R91). -/
inductive VTy where
  | f32 | bf16 | f16 | i32 | i16 | i8 | u32 | b32
deriving DecidableEq, Repr

/-- VLOGIC variants (05 R93). -/
inductive LogicOp where | and | or | xor | andn | not
deriving DecidableEq, Repr

/-- VCVT variants (09 R183). -/
inductive CvtOp where | f32i32 | i32f32 | f32bf16 | f32f16 | bf16f32 | f16f32 | f32u32 | u32f32
deriving DecidableEq, Repr

/-- The narrow formats of VCVTN and VCVTW (09 R184). -/
inductive NarrowFmt where | e4m3 | e5m2 | e3m2 | e2m3 | e2m1
deriving DecidableEq, Repr

/-- VPACK variants (09 R185). -/
inductive PackOp where | i32i16 | i32i8 | i16i8 | f32bf16 | f32f16
deriving DecidableEq, Repr

/-- VUNPKL and VUNPKH variants (09 R186); the i8 variant carries the immediate s. -/
inductive UnpkOp where
  | i16
  | i8 (s : Bool)
  | bf16
  | f16
deriving DecidableEq, Repr

/-- VRED, VXRED and VSCAN variants (09 R189). -/
inductive RedOp where | addf32 | maxf32 | minf32 | addi32 | maxi32 | mini32
deriving DecidableEq, Repr

/-- The types of the special-function slot (05 R94). -/
inductive FTy where | f32 | bf16 | f16
deriving DecidableEq, Repr

/-- The rounding field of the special-function modifier (05 R94). -/
inductive FRnd where | dyn | rne | rtz
deriving DecidableEq, Repr

/-! ## Scalar slot forms (05 R89) -/

structure SR where
  g : Guard
  dst : Fin 32
  a : SOp
  b : SOp
deriving DecidableEq, Repr

structure SU where
  g : Guard
  dst : Fin 32
  a : SOp
deriving DecidableEq, Repr

structure SI where
  g : Guard
  dst : Fin 32
  a : SOp
  imm : BitVec 16
deriving DecidableEq, Repr

/-- SHLI, SHRI, SARI: the immediate is 0 to 63. -/
structure SSh where
  g : Guard
  dst : Fin 32
  a : SOp
  sh : Fin 64
deriving DecidableEq, Repr

/-- BFX, BFXU, BFI: lsb and length minus one (07 R123). -/
structure SBf where
  g : Guard
  dst : Fin 32
  a : SOp
  lsb : Fin 64
  lenM1 : Fin 64
deriving DecidableEq, Repr

structure SMovi where
  g : Guard
  dst : Fin 32
  imm : BitVec 16
deriving DecidableEq, Repr

structure SK where
  g : Guard
  dst : Fin 32
  h : Fin 4
  imm : BitVec 16
deriving DecidableEq, Repr

structure SP where
  g : Guard
  pd : Fin 8
  a : SOp
  b : SOp
deriving DecidableEq, Repr

structure SPI where
  g : Guard
  pd : Fin 8
  a : SOp
  imm : BitVec 16
deriving DecidableEq, Repr

structure SQ where
  g : Guard
  pd : Fin 8
  pa : Fin 8
  pb : Fin 8
deriving DecidableEq, Repr

structure SMfs where
  g : Guard
  dst : Fin 32
  reg : SReg
deriving DecidableEq, Repr

structure SMts where
  g : Guard
  a : SOp
  reg : SReg
deriving DecidableEq, Repr

/-- WIDF: a level, 0 to 5. -/
structure SLevel where
  g : Guard
  dst : Fin 32
  level : Fin 6
deriving DecidableEq, Repr

/-- A Rod-wide test: the predicate field and negate (05 R90). -/
structure CTest where
  t : Guard
  imm : BitVec 16
deriving DecidableEq, Repr

/-- BRGZ, BRGNZ and CALL: a gang register and a relative target. -/
structure CGang where
  g : Fin 16
  imm : BitVec 16
deriving DecidableEq, Repr

structure CLoop where
  p : Bool
  a : SOp
deriving DecidableEq, Repr

structure CLoopI where
  p : Bool
  count : BitVec 16
deriving DecidableEq, Repr

structure CLidx where
  dst : Fin 32
  level : Fin 6
deriving DecidableEq, Repr

/-- WAIT: six limits (05 R89, form CW). -/
structure CWait where
  ld : Fin 16
  st : Fin 16
  cp : Fin 16
  mx : Fin 16
  en : Fin 16
  nw : Fin 16
deriving DecidableEq, Repr

/-- TRAP and SVC: a guard and imm16. -/
structure CT where
  g : Guard
  imm : BitVec 16
deriving DecidableEq, Repr

structure CSavem where
  g : Guard
  a : SOp
deriving DecidableEq, Repr

structure CSlack where
  g : Guard
  region : Fin 16
deriving DecidableEq, Repr

/-! ## Vector slot forms (05 R91 to R93) -/

structure VB where
  m : Fin 8
  ty : VTy
  j : Bool
  dst : VOp
  a : VOp
  b : VOp
deriving DecidableEq, Repr

structure VU where
  m : Fin 8
  ty : VTy
  j : Bool
  dst : VOp
  a : VOp
deriving DecidableEq, Repr

structure VCmp where
  m : Fin 8
  ty : VTy
  md : Fin 8
  a : VOp
  b : VOp
deriving DecidableEq, Repr

structure VLogicF where
  m : Fin 8
  op : LogicOp
  dst : VOp
  a : VOp
  b : VOp
deriving DecidableEq, Repr

structure VCvtF where
  m : Fin 8
  op : CvtOp
  dst : VOp
  a : VOp
deriving DecidableEq, Repr

structure VNarrowF where
  m : Fin 8
  fmt : NarrowFmt
  dst : VOp
  a : VOp
deriving DecidableEq, Repr

structure VPackF where
  m : Fin 8
  op : PackOp
  dst : VOp
  a : VOp
  b : VOp
deriving DecidableEq, Repr

structure VUnpkF where
  m : Fin 8
  op : UnpkOp
  dst : VOp
  a : VOp
deriving DecidableEq, Repr

structure VBcstF where
  m : Fin 8
  dst : VOp
  a : SOp
deriving DecidableEq, Repr

structure VExtF where
  dst : Fin 32
  a : VOp
  lane : Fin 128
deriving DecidableEq, Repr

structure VInsF where
  dst : Fin 232
  a : SOp
  lane : Fin 128
deriving DecidableEq, Repr

structure VPermF where
  m : Fin 8
  dst : VOp
  a : VOp
  b : VOp
deriving DecidableEq, Repr

structure VRedF where
  m : Fin 8
  op : RedOp
  dst : VOp
  a : VOp
deriving DecidableEq, Repr

structure VHistF where
  m : Fin 8
  d : Fin 232
  a : VOp
  b : VOp
deriving DecidableEq, Repr

structure VBmrgF where
  m : Fin 8
  dst : VOp
  a : Fin 232
deriving DecidableEq, Repr

/-- VBCX and VBCXX: keys as f32 or i32 (09 R193). -/
structure VBcxF where
  int : Bool
  dst : Fin 232
  a : Fin 232
  j : Fin 8
  k : Fin 8
  desc : Bool
deriving DecidableEq, Repr

structure VArgF where
  m : Fin 8
  int : Bool
  dst : Fin 232
  a : VOp
  b : VOp
deriving DecidableEq, Repr

/-- Jet-only forms (10 R210): window registers throughout. -/
structure JBin where
  m : Fin 8
  dst : Fin 232
  a : Fin 232
  b : Fin 232
deriving DecidableEq, Repr

structure JUn where
  m : Fin 8
  dst : Fin 232
  a : Fin 232
deriving DecidableEq, Repr

structure JIdx where
  m : Fin 8
  dst : Fin 232
  a : Fin 232
  i : Fin 8
deriving DecidableEq, Repr

structure JDerF where
  m : Fin 8
  dst : Fin 232
  a : Fin 232
  inv : Bool
deriving DecidableEq, Repr

structure JShiftF where
  m : Fin 8
  dst : Fin 232
  a : Fin 232
  up : Bool
  s : Fin 8
deriving DecidableEq, Repr

structure JPowF where
  m : Fin 8
  dst : Fin 232
  a : Fin 232
  p : BitVec 8
deriving DecidableEq, Repr

/-! ## Special-function slot form (05 R94) -/

structure FForm where
  m : Fin 8
  ty : FTy
  level : Fin 3
  rnd : FRnd
  j : Bool
  dst : VOp
  src : VOp
deriving DecidableEq, Repr

/-! ## Memory/engine slot forms (05 R95, R96) -/

structure MLd where
  p : Fin 8
  dst : Fin 32
  base : SOp
  imm : BitVec 24
  na : Bool
deriving DecidableEq, Repr

structure MSt where
  p : Fin 8
  data : SOp
  base : SOp
  imm : BitVec 24
  na : Bool
deriving DecidableEq, Repr

/-- VLD, VST, VGATH, VSCAT. -/
structure MVec where
  m : Fin 8
  reg : Fin 232
  base : SOp
  imm : BitVec 24
  na : Bool
deriving DecidableEq, Repr

/-- A predicated address: PRF, CFLUSH, CINV, CCLEAN, FENCE.FAR. -/
structure MAddr where
  p : Fin 8
  base : SOp
  imm : BitVec 24
deriving DecidableEq, Repr

structure MBind where
  z : Fin 8
  base : SOp
  imm : BitVec 24
deriving DecidableEq, Repr

structure MSpos where
  p : Fin 8
  dst : Fin 32
  z : Fin 8
deriving DecidableEq, Repr

/-- A status destination and a descriptor address. -/
structure MDesc where
  p : Fin 8
  dst : Fin 32
  base : SOp
  imm : BitVec 24
deriving DecidableEq, Repr

structure MMigr where
  p : Fin 8
  t : SOp
  base : SOp
  imm : BitVec 24
deriving DecidableEq, Repr

structure MFence where
  p : Fin 8
  first : Fin 6
  later : Fin 6
deriving DecidableEq, Repr

structure MPred where
  p : Fin 8
deriving DecidableEq, Repr

structure MDrain where
  p : Fin 8
  scope : Fin 5
deriving DecidableEq, Repr

/-- Reductions: the data operand's low bytes are combined at the address. -/
structure MRed where
  p : Fin 8
  data : SOp
  base : SOp
  imm : BitVec 24
deriving DecidableEq, Repr

/-- Returning atomics: the data register is read and written. -/
structure MAtom where
  p : Fin 8
  d : Fin 32
  base : SOp
  imm : BitVec 24
deriving DecidableEq, Repr

structure MSync where
  b : Fin 48
deriving DecidableEq, Repr

structure MBarcfg where
  p : Fin 8
  b : Fin 48
  base : SOp
deriving DecidableEq, Repr

structure MTaintRdS where
  p : Fin 8
  src : SOp
  dst : Fin 32
deriving DecidableEq, Repr

structure MTaintRdV where
  m : Fin 8
  src : VOp
  md : Fin 8
deriving DecidableEq, Repr

structure MTaintClrS where
  p : Fin 8
  r : Fin 32
deriving DecidableEq, Repr

structure MTaintClrV where
  m : Fin 8
  r : Fin 232
deriving DecidableEq, Repr

structure MCallF where
  p : Fin 8
  routine : Fin 256
deriving DecidableEq, Repr

structure MLatF where
  p : Fin 8
  l : Fin 4
  base : SOp
  imm : BitVec 24
deriving DecidableEq, Repr

structure MSetpF where
  p : Fin 8
  planes : Fin 17
deriving DecidableEq, Repr

structure MParmF where
  p : Fin 8
  i : Fin 8
  base : SOp
deriving DecidableEq, Repr

/-- ACCZ and NORM. -/
structure MAcc where
  m : Fin 8
  base : SOp
  imm : BitVec 24
deriving DecidableEq, Repr

/-- ACCRD and ACCWR. -/
structure MAccR where
  m : Fin 8
  reg : Fin 232
  base : SOp
  imm : BitVec 24
deriving DecidableEq, Repr

/-- DRAW, KVALLOC, KVFREE: an even register pair. -/
structure MPair where
  p : Fin 8
  dst : Fin 32
  base : Fin 32
deriving DecidableEq, Repr

structure MKvcount where
  p : Fin 8
  dst : Fin 32
deriving DecidableEq, Repr

/-- RELEASE by a device program (02 R34): the delay is 0 to 0x7F_FFFF ns. -/
structure MRelease where
  p : Fin 8
  dst : Fin 32
  task : SOp
  delay : BitVec 23
deriving DecidableEq, Repr

/-! ## Microwords (13 R268, R269) -/

structure UKs where
  ra : Fin 8
  rb : Fin 8
  rc : Fin 8
  rd : Fin 8
  re : Fin 8
deriving DecidableEq, Repr

structure UImm where
  ra : Fin 8
  rb : Fin 8
  imm : BitVec 32
deriving DecidableEq, Repr

structure U3 where
  ra : Fin 8
  rb : Fin 8
  rc : Fin 8
deriving DecidableEq, Repr

structure U2 where
  ra : Fin 8
  rb : Fin 8
deriving DecidableEq, Repr

structure ULoopF where
  ra : Fin 8
  target : Fin 2048
deriving DecidableEq, Repr

structure UMoviF where
  ra : Fin 8
  imm : BitVec 32
deriving DecidableEq, Repr

/-! ## Operands of device events -/

/-- A VF of the host link, 0 to 95. -/
abbrev Vf := Fin 96
/-- A partition, 0 to 39 (04 R63). -/
abbrev Part := Fin 40
/-- A C-die. -/
abbrev Die := Fin 2
/-- A Rod-unit by its `%RODID`: 2 times the logical Rod plus the half (02 R38). -/
abbrev RodUnit := Fin 48
/-- A physical core: 104 times the die plus 8 times the physical Rod plus the core (04 R67). -/
abbrev CoreId := Fin 208
/-- A task-table index. -/
abbrev TaskId := Fin 8192
/-- A 64-byte command, byte 0 lowest (02 R23). -/
abbrev Command := BitVec 512

/-- The path on which a request reached the Reckoner (02 R21). -/
inductive ReqSrc where
  | device (c : CoreId) (op : Nat)
  | firmware (cp : Fin 4) (entry : Fin 64)
  | host (v : Vf) (entry : Fin 4096)
deriving DecidableEq, Repr

/-- One register access of the PF's Reckoner block or of a VF's BAR0 (03 R41): byte offset, width in bytes and value. -/
inductive RegSpace where
  | pf
  | vf (v : Vf)
  | ring (v : Vf)
  | cpRing (cp : Fin 4)
  | cpPf (cp : Fin 4)
deriving DecidableEq, Repr

/-- The host's answer to a Translation Request (12 R258). -/
structure AtsAnswer where
  page : BitVec 64
  sizeLog2 : Fin 64
  target : BitVec 64
  read : Bool
  write : Bool
deriving DecidableEq, Repr

/-- An array or link error (16 R327, R328). -/
structure ErrorInfo where
  kind : Fin 12
  die : Fin 4
  unit : BitVec 32
  addr : BitVec 64
  lasting : Bool
deriving DecidableEq, Repr

/-- An access of a peer chip (12 R247): which bytes, and what is stored. -/
structure PeerReq where
  chip : BitVec 9
  part : Fin 64
  die : Die
  va : BitVec 47
  bytes : Fin 65
  data : Option (List (BitVec 8))
deriving DecidableEq, Repr

/-- The operands of the device event that runs. An event is a step the device itself takes (95); which bytes, unit or value it concerns stands in State.ev while it runs. -/
inductive EvArg where
  | none
  | req (src : ReqSrc) (part : Part) (cmd : Command)
  | vf (v : Vf)
  | vfVal (v : Vf) (val : BitVec 32)
  | cp (cp : Fin 4)
  | packet (port : Fin 4) (ctx : BitVec 16) (stamp : BitVec 64) (payload : List (BitVec 8))
  | netRelease (entry : Fin 4096) (stamp : BitVec 64)
  | task (t : TaskId)
  | unit (q : RodUnit)
  | unitBead (q : RodUnit) (bead : Fin 8)
  | val (val : BitVec 64)
  | part (p : Part) (val : BitVec 64)
  | taskRange (p : Part) (off : Fin 64) (size : Fin 9) (val : BitVec 64)
  | rod (n : Fin 24) (val : BitVec 64)
  | coreVal (c : CoreId) (val : BitVec 64)
  | l2 (d : Die) (t : Fin 41) (val : BitVec 32)
  | dieVal (d : Die) (val : BitVec 64)
  | reg (sp : RegSpace) (off : Nat) (size : Nat) (val : BitVec 64)
  | core (c : CoreId)
  | op (c : CoreId) (op : Nat)
  | line (c : CoreId) (line : Nat)
  | stream (c : CoreId) (z : Fin 8)
  | ctx (i : Fin 1024)
  | message (i : Fin 1024) (tag : BitVec 64) (payload : List (BitVec 8))
  | contribution (i : Fin 1024) (n : Nat) (op : BitVec 8) (m : BitVec 8) (count : BitVec 32) (root : BitVec 8) (data : List (BitVec 32))
  | page (d : Die) (p : Part) (va : BitVec 47) (isStore : Bool)
  | ats (p : Part) (ans : AtsAnswer)
  | prg (p : Part) (page : BitVec 64) (success : Bool)
  | inval (ident : BitVec 28) (page : BitVec 64) (sizeLog2 : Fin 64) (tag : BitVec 8)
  | tag (tag : BitVec 8)
  | peer (r : PeerReq)
  | target (n : Nat)
  | chip (c : BitVec 9)
  | pfence (j : Fin 8) (val : BitVec 64)
  | window (d : Die) (c : Fin 4) (w : Fin 16) (val : BitVec 64)
  | error (e : ErrorInfo)
  | die (d : Die)
  | startUnit (i : Fin 26)
  | function (fn : Fin 97)
  | spdm (req : List (BitVec 8))
  | monitor (i : Fin 64)
  | threshold (crit : Bool) (val : BitVec 32)
  | peerShootdown (chip : BitVec 9) (sdaddr : BitVec 64) (sdctl : BitVec 32)
deriving DecidableEq, Repr

/-- Every row of spec/opcode_table.json: the slot forms and microwords with their operands, then the steps of the device, whose operands stand in State.ev. -/
inductive Instr where
  -- rows 111 to 190: scalar slot
  | nop
  | add (f : SR) | sub (f : SR) | and (f : SR) | or (f : SR) | xor (f : SR) | andn (f : SR)
  | shl (f : SR) | shr (f : SR) | sar (f : SR) | rol (f : SR)
  | min (f : SR) | max (f : SR) | minu (f : SR) | maxu (f : SR)
  | mul (f : SR) | mulh (f : SR) | mulhu (f : SR)
  | div (f : SR) | divu (f : SR) | rem (f : SR) | remu (f : SR)
  | sel (f : SR)
  | bfx (f : SBf) | bfxu (f : SBf) | bfi (f : SBf)
  | clz (f : SU) | ctz (f : SU) | popc (f : SU) | brev (f : SU)
  | cmpeq (f : SP) | cmpne (f : SP) | cmplt (f : SP) | cmple (f : SP) | cmpltu (f : SP) | cmpleu (f : SP)
  | cmpeqi (f : SPI) | cmpnei (f : SPI) | cmplti (f : SPI) | cmplei (f : SPI) | cmpltui (f : SPI) | cmpleui (f : SPI)
  | pand (f : SQ) | por (f : SQ) | pxor (f : SQ)
  | addi (f : SI) | subi (f : SI) | andi (f : SI) | ori (f : SI) | xori (f : SI)
  | shli (f : SSh) | shri (f : SSh) | sari (f : SSh)
  | mini (f : SI) | maxi (f : SI) | muli (f : SI)
  | movi (f : SMovi) | movk (f : SK)
  | mfs (f : SMfs) | mts (f : SMts) | widf (f : SLevel)
  | br (imm : BitVec 16) | brany (f : CTest) | brall (f : CTest) | brgz (f : CGang) | brgnz (f : CGang)
  | call (f : CGang) | ret (g : Fin 16)
  | loop (f : CLoop) | loopi (f : CLoopI) | lbrk (t : Guard) | lidx (f : CLidx)
  | wait (f : CWait) | schsel | endK
  | trap (f : CT) | brk (g : Guard) | svc (f : CT) | savem (f : CSavem) | slack (f : CSlack)
  -- rows 191 to 240: vector slot
  | vadd (f : VB) | vsub (f : VB) | vmul (f : VB) | vfma (f : VB) | vfnma (f : VB)
  | vmin (f : VB) | vmax (f : VB) | vabs (f : VU) | vneg (f : VU)
  | vcmpeq (f : VCmp) | vcmpne (f : VCmp) | vcmplt (f : VCmp) | vcmple (f : VCmp)
  | vsel (f : VB) | vmov (f : VU) | vlogic (f : VLogicF)
  | vshl (f : VB) | vshr (f : VB) | vsar (f : VB)
  | vcvt (f : VCvtF) | vcvtn (f : VNarrowF) | vcvtw (f : VNarrowF) | vpack (f : VPackF)
  | vunpkl (f : VUnpkF) | vunpkh (f : VUnpkF)
  | vbcst (f : VBcstF) | vext (f : VExtF) | vins (f : VInsF) | vperm (f : VPermF) | vxcopy (f : VPermF)
  | vred (f : VRedF) | vxred (f : VRedF) | vscan (f : VRedF)
  | vhist (f : VHistF) | vbmrg (f : VBmrgF) | vbcx (f : VBcxF) | vbcxx (f : VBcxF) | vargmax (f : VArgF) | vclamp (f : VB)
  | jseed (f : JBin) | jconst (f : JUn) | jget (f : JIdx) | jput (f : JIdx) | jder (f : JDerF) | jshift (f : JShiftF)
  | jscale (f : JBin) | jdiv (f : JBin) | jpowi (f : JPowF) | jflagClear (a : SOp) | jflagGet (d : Fin 232)
  -- rows 241 to 255: special-function slot
  | fnop
  | rcp (f : FForm) | rsq (f : FForm) | sqrt (f : FForm) | exp2 (f : FForm) | log2 (f : FForm) | exp (f : FForm)
  | log (f : FForm) | sin (f : FForm) | cos (f : FForm) | tanh (f : FForm) | sigm (f : FForm)
  | rcpstep (f : FForm) | rsqstep (f : FForm) | jsincos (f : FForm)
  -- rows 256 to 327: memory and engine slot
  | mnop
  | ld8u (f : MLd) | ld16u (f : MLd) | ld32u (f : MLd) | ld64 (f : MLd) | ld8s (f : MLd) | ld16s (f : MLd) | ld32s (f : MLd)
  | st8 (f : MSt) | st16 (f : MSt) | st32 (f : MSt) | st64 (f : MSt)
  | vld (f : MVec) | vst (f : MVec) | vgath (f : MVec) | vscat (f : MVec)
  | prf (f : MAddr) | sbind (f : MBind) | sunbind (z : Fin 8) | spos (f : MSpos)
  | copy (f : MDesc) | copyp (f : MDesc) | fill (f : MDesc)
  | cflush (f : MAddr) | cinv (f : MAddr) | cclean (f : MAddr) | migr (f : MMigr)
  | fenceX (f : MFence) | fenceOwn (f : MPred) | fenceFar (f : MAddr) | drain (f : MDrain)
  | ldacq (f : MAtom) | strel (f : MRed)
  | redaddI32 (f : MRed) | redaddq (f : MRed) | redminI32 (f : MRed) | redmaxI32 (f : MRed)
  | redand (f : MRed) | redor (f : MRed) | redxor (f : MRed) | redaddF32 (f : MRed)
  | atomadd (f : MAtom) | atomswp (f : MAtom) | atomcas (f : MAtom)
  | sync (f : MSync) | barcfg (f : MBarcfg) | sstep
  | taintrdScalar (f : MTaintRdS) | taintrdVector (f : MTaintRdV) | taintclrScalar (f : MTaintClrS) | taintclrVector (f : MTaintClrV)
  | mcall (f : MCallF) | mlat (f : MLatF) | msetp (f : MSetpF) | mparm (f : MParmF)
  | accz (f : MAcc) | accrd (f : MAccR) | accwr (f : MAccR) | norm (f : MAcc)
  | nsend (f : MDesc) | nrecv (f : MDesc) | ncoll (f : MDesc)
  | selacc (f : MDesc) | draw (f : MPair) | kvalloc (f : MPair) | kvfree (f : MPair) | kvcount (f : MKvcount)
  | tithe (f : MDesc) | tmap (f : MDesc) | tclrd (f : MDesc)
  | launch (f : MDesc) | release (f : MRelease)
  -- rows 328 to 335: microwords
  | uend | ukstep (f : UKs) | uaddi (f : UImm) | uadd (f : U3) | uloop (f : ULoopF) | unorm (f : U2) | uzero (f : U2) | umovi (f : UMoviF)
  -- rows 0 to 110, 336, 337: steps of the device
  | submit | releaseCommand | nopCommand | qcfgWrite | qtailWrite | ringEntryRead | firmwareRingEntry | packetMatch
  | networkRelease | taskReleaseTime | passDispatch | dictionaryCopy | preemptRequestArrive | deadlineExpiry | budgetOverrun | mirrorMarginExpiry
  | chunkSend | tretireWrite | tadjWrite | tsetWrite | dlctlWrite | taskRangeWrite | rownWrite | cplaceWrite
  | l2srWrite | l2srChangeDone | cgplaceWrite | registerWrite | bundleIssue | stallEnd | fetchLineArrive | kernelEndRetire
  | completionSignalWrite | cqcfgWrite | cqCoalesceTimer | heldOpEnter | loadComplete | storePerform | lineMerge | atomicComplete
  | migrComplete | streamDescriptorArrive | streamElementArrive | streamElementStore | copyCommandComplete | engineOpComplete | enCommandComplete | nsendComplete
  | messageDelivery | ncollContribution | ncollComplete | connectionAbandon | mtlbWalk | pagePullComplete | pagePullFail | atsTranslationCompletion
  | prgResponse | atsInvalidationRequest | atsInvalidationCompletion | peerRequest | shootdown | shootdownAck | shootdownFenceTimeout | pfenceWrite
  | frameAssign | frameRelease | frameScrub | frameQuery | scrubComplete | fmwctlWrite | fmwDiscardDone | serialiseReceive
  | fenceFarDone | barrierRelease | superstepRelease | stopDrainComplete | saveComplete | saveDrainTimeout | restoreComplete | tractResume
  | tractAbort | functionLevelReset | errorDetected | dieLost | migrationRound | migrationStop | migrationExport | migrationImport
  | migrationResume | svcbaseWrite | kvpctlWrite | powerGood | unitReady | configRequest | vfEnable | svncommitWrite
  | getVersion | getCapabilities | negotiateAlgorithms | getDigests | getCertificate | challenge | getMeasurements | keyExchange
  | pskExchange | cpHeartbeat | watchdogExpiry | temperatureWarn | dieTrip | tripclrWrite | tempThresholdWrite | peerShootdownReceive
  | functionLevelResetEnd
deriving DecidableEq, Repr

/-- A device event with its operands. -/
structure Event where
  instr : Instr
  arg : EvArg
deriving DecidableEq, Repr

end Sys2Proof
end

