-- ==== Sys2Proof/WellFormed.lean ====
section
/-! DEFINITION. Which instructions are well formed: the limits of check 4 of 05 R79 that the operand types do not already hold. -/

namespace Sys2Proof

/-- A vector operand that names a window register. -/
def VOp.isWindow : VOp → Bool
  | .v _ => true
  | .z _ => false
  | .vq _ => false

/-- A vector operand that may be a destination: not a queue register (05 R88). -/
def VOp.isDest : VOp → Bool
  | .v _ => true
  | .z _ => true
  | .vq _ => false

/-- Special registers that an MTS may write: the RW rows of 06 R106. -/
def SReg.writable : SReg → Bool
  | .flg | .rnd | .jord | .jflg | .vwb | .cmk | .occ | .dlen | .gang _ => true
  | .wid | .bead | .rodid | .skew | .pword | .svm | .det | .dl | .tick | .time | .slip | .blc _ | .mprec => false

/-- The type codes 0 to 5 of the arithmetic rows (05 R93). -/
def VTy.arith : VTy → Bool
  | .f32 | .bf16 | .f16 | .i32 | .i16 | .i8 => true
  | .u32 | .b32 => false

/-- The type codes 0 to 6. -/
def VTy.ordered : VTy → Bool
  | .b32 => false
  | _ => true

/-- The floating-point type codes 0 to 2. -/
def VTy.isFloat : VTy → Bool
  | .f32 | .bf16 | .f16 => true
  | _ => false

/-- The signed integer type codes 3 to 5. -/
def VTy.isInt : VTy → Bool
  | .i32 | .i16 | .i8 => true
  | _ => false

/-- The J bit of a three-operand row: only with the row's jet code, and only over window registers (05 R88, R92). -/
def VB.jOk (f : VB) (code : VTy) : Bool :=
  !f.j || (f.ty == code && f.dst.isWindow && f.a.isWindow && f.b.isWindow)

def VU.jOk (f : VU) (code : VTy) : Bool :=
  !f.j || (f.ty == code && f.dst.isWindow && f.a.isWindow)

/-- A row with arithmetic codes, a destination and the J bit. -/
def VB.ok (f : VB) (codes : VTy → Bool) : Bool := codes f.ty && f.dst.isDest && f.jOk .f32

def VU.ok (f : VU) (codes : VTy → Bool) : Bool := codes f.ty && f.dst.isDest && f.jOk .f32

/-- A bin group: a multiple of 8, at most 224 (09 R191, R192). -/
def binBase (d : Fin 232) : Bool := d.val % 8 == 0 && d.val ≤ 224

/-- A register pair: even, at most 230 (09 R193, R194; 11 R225). -/
def pairBase (d : Fin 232) : Bool := d.val % 2 == 0 && d.val ≤ 230

/-- An F-slot function: J only with f32 and window registers (05 R94). -/
def FForm.fnOk (f : FForm) : Bool :=
  f.dst.isDest && (!f.j || (f.ty == .f32 && f.dst.isWindow && f.src.isWindow))

/-- RCPSTEP and RSQSTEP: no J, level 0, a window destination (09 R200). -/
def FForm.stepOk (f : FForm) : Bool := !f.j && f.level == 0 && f.dst.isWindow

/-- The well-formed instructions. Device events carry no encoding; their operand types hold their limits. -/
def Instr.wf : Instr → Bool
  | .bfx f | .bfxu f | .bfi f => f.lsb.val + f.lenM1.val + 1 ≤ 64
  | .mts f => f.reg.writable
  | .vadd f | .vsub f | .vmul f => f.ok VTy.arith
  | .vfma f => f.ok VTy.arith && f.dst.isWindow
  | .vfnma f => f.ok VTy.isFloat && f.dst.isWindow
  | .vmin f | .vmax f => f.ok VTy.ordered
  | .vabs f | .vneg f => f.ok VTy.arith
  | .vcmpeq f | .vcmpne f => f.ty.arith
  | .vcmplt f | .vcmple f => f.ty.ordered
  | .vsel f => f.ty == .b32 && f.dst.isDest && f.jOk .b32
  | .vmov f => f.ty == .b32 && f.dst.isDest && f.jOk .b32
  | .vlogic f => f.dst.isDest && (f.op != .not || f.b == .v 0)
  | .vshl f | .vshr f | .vsar f => f.ty.isInt && f.dst.isDest && !f.j
  | .vcvt f => f.dst.isDest
  | .vcvtn f | .vcvtw f => f.dst.isDest
  | .vpack f => f.dst.isDest
  | .vunpkl f | .vunpkh f => f.dst.isDest
  | .vbcst f => f.dst.isDest
  | .vperm f | .vxcopy f => f.dst.isDest
  | .vred f | .vxred f => f.dst.isDest
  | .vscan f => f.dst.isDest && (f.op == .addf32 || f.op == .maxf32 || f.op == .addi32 || f.op == .maxi32)
  | .vhist f => binBase f.d
  | .vbmrg f => f.dst.isDest && binBase f.a
  | .vbcx f => pairBase f.dst && pairBase f.a && f.j.val ≤ 3 && f.j.val < f.k.val
  | .vbcxx f => pairBase f.dst && pairBase f.a && 4 ≤ f.j.val && f.j.val ≤ 6 && f.j.val < f.k.val
  | .vargmax f => pairBase f.dst
  | .vclamp f => (f.ty.isFloat || f.ty == .i32) && f.dst.isDest && !f.j
  | .rcp f | .rsq f | .sqrt f | .exp2 f | .log2 f | .exp f | .log f | .sin f | .cos f | .tanh f | .sigm f => f.fnOk
  | .rcpstep f | .rsqstep f => f.stepOk
  | .jsincos f => f.j && f.fnOk
  | .vscat f => pairBase f.reg
  | .atomcas f => f.d.val % 2 == 0
  | .taintrdVector f => match f.src with
    | .z _ => false
    | _ => true
  | .msetp f => 1 ≤ f.planes.val
  | .draw f | .kvalloc f | .kvfree f => f.base.val % 2 == 0
  | _ => true

end Sys2Proof
end

