-- ==== Sys2Proof/Decode.lean ====
section
/-! DEFINITION. From bits to instructions and back: slot words, bundles' fields, microwords, and the register writes that are device events.
The decoders are total and refuse by name; the encoder is written from the same tables of 05. -/

namespace Sys2Proof

/-- Why a slot word is refused (check 4 of 05 R79). -/
inductive DecodeError where
  /-- the opcode, type or variant code is not assigned in its slot -/
  | unassigned
  /-- a reserved or must-be-zero field is not zero -/
  | reserved
  /-- a register field names a kind the form does not take -/
  | operand
  /-- an immediate is outside its limits -/
  | immediate
  /-- the scalar-data flag or the path or scope code is not the form's -/
  | flag
  /-- the fields are each legal but the form forbids them together -/
  | illFormed
deriving DecidableEq, Repr

/-- The slot kinds (05 R86) and the microword of the matrix engine (13 R268). -/
inductive SlotKind where | scalar | vector | special | memory | micro
deriving DecidableEq, Repr

/-- Take a result only when a check holds. -/
def need (c : Bool) (e : DecodeError) (r : Except DecodeError Instr) : Except DecodeError Instr :=
  if c then r else .error e

/-! ## Fields -/

def f3 (w lo : Nat) : Fin 8 := Fin.ofNat 8 (w / 2^lo)
def f4 (w lo : Nat) : Fin 16 := Fin.ofNat 16 (w / 2^lo)
def f5 (w lo : Nat) : Fin 32 := Fin.ofNat 32 (w / 2^lo)
def f6 (w lo : Nat) : Fin 64 := Fin.ofNat 64 (w / 2^lo)
def b1 (w lo : Nat) : Bool := w / 2^lo % 2 == 1
def imm16 (w : Nat) : BitVec 16 := BitVec.ofNat 16 w
def imm24 (w : Nat) : BitVec 24 := BitVec.ofNat 24 (w / 2^7)

/-- A scalar operand field (05 R87). -/
def decSOp (c : Nat) : SOp :=
  if c % 64 < 32 then .n (Fin.ofNat 32 c) else if c % 64 < 48 then .q (Fin.ofNat 16 c) else .g (Fin.ofNat 16 c)

def encSOp : SOp → Nat
  | .n i => i.val
  | .q i => 32 + i.val
  | .g i => 48 + i.val

/-- A vector operand field (05 R88). -/
def decVOp (c : Nat) : VOp :=
  if h : c % 256 < 232 then .v ⟨c % 256, h⟩
  else if c % 256 < 240 then .z (Fin.ofNat 8 (c % 256)) else .vq (Fin.ofNat 16 (c % 256))

def encVOp : VOp → Nat
  | .v i => i.val
  | .z i => 232 + i.val
  | .vq i => 240 + i.val

/-- A field that must name a window register. -/
def decWin (c : Nat) (k : Fin 232 → Except DecodeError Instr) : Except DecodeError Instr :=
  if h : c % 256 < 232 then k ⟨c % 256, h⟩ else .error .operand

def decVTy (c : Nat) : VTy :=
  match c % 8 with
  | 0 => .f32 | 1 => .bf16 | 2 => .f16 | 3 => .i32 | 4 => .i16 | 5 => .i8 | 6 => .u32 | _ => .b32

def encVTy : VTy → Nat
  | .f32 => 0 | .bf16 => 1 | .f16 => 2 | .i32 => 3 | .i16 => 4 | .i8 => 5 | .u32 => 6 | .b32 => 7

/-- The numbers of the special registers (06 R106). -/
def decSReg (c : Nat) : Option SReg :=
  match c with
  | 0x000 => some .flg | 0x001 => some .rnd | 0x002 => some .jord | 0x003 => some .jflg | 0x004 => some .vwb | 0x005 => some .cmk
  | 0x008 => some .wid | 0x009 => some .bead | 0x00A => some .rodid | 0x00B => some .skew
  | 0x010 => some .pword | 0x011 => some .svm | 0x012 => some .det | 0x014 => some .dl | 0x015 => some .occ | 0x016 => some .dlen
  | 0x018 => some .tick | 0x019 => some .time | 0x01A => some .slip | 0x030 => some .mprec
  | c => if 0x020 ≤ c ∧ c < 0x028 then some (.blc (Fin.ofNat 8 c)) else if 0x040 ≤ c ∧ c < 0x050 then some (.gang (Fin.ofNat 16 c)) else none

def encSReg : SReg → Nat
  | .flg => 0x000 | .rnd => 0x001 | .jord => 0x002 | .jflg => 0x003 | .vwb => 0x004 | .cmk => 0x005
  | .wid => 0x008 | .bead => 0x009 | .rodid => 0x00A | .skew => 0x00B
  | .pword => 0x010 | .svm => 0x011 | .det => 0x012 | .dl => 0x014 | .occ => 0x015 | .dlen => 0x016
  | .tick => 0x018 | .time => 0x019 | .slip => 0x01A
  | .blc i => 0x020 + i.val
  | .mprec => 0x030
  | .gang i => 0x040 + i.val

def decGuard (w : Nat) : Guard := ⟨f3 w 29, b1 w 28⟩
def encGuard (g : Guard) : Nat := g.p.val * 2^29 + (if g.neg then 2^28 else 0)

/-- A scalar destination field: n0 to n31 (05 R87). -/
def dstOk (w : Nat) : Bool := w / 2^22 % 64 < 32

/-! ## Scalar forms (05 R89) -/

def decSR (k : SR → Instr) (w : Nat) : Except DecodeError Instr :=
  need (w % 1024 == 0) .reserved (need (dstOk w) .operand (.ok (k ⟨decGuard w, f5 w 22, decSOp (w / 2^16), decSOp (w / 2^10)⟩)))
def encSR (f : SR) : Nat := encGuard f.g + f.dst.val * 2^22 + encSOp f.a * 2^16 + encSOp f.b * 2^10

def decSU (k : SU → Instr) (w : Nat) : Except DecodeError Instr :=
  need (w % 65536 == 0) .reserved (need (dstOk w) .operand (.ok (k ⟨decGuard w, f5 w 22, decSOp (w / 2^16)⟩)))
def encSU (f : SU) : Nat := encGuard f.g + f.dst.val * 2^22 + encSOp f.a * 2^16

def decSI (k : SI → Instr) (w : Nat) : Except DecodeError Instr :=
  need (dstOk w) .operand (.ok (k ⟨decGuard w, f5 w 22, decSOp (w / 2^16), imm16 w⟩))
def encSI (f : SI) : Nat := encGuard f.g + f.dst.val * 2^22 + encSOp f.a * 2^16 + f.imm.toNat

def decSSh (k : SSh → Instr) (w : Nat) : Except DecodeError Instr :=
  need (dstOk w) .operand (need (w % 65536 < 64) .immediate (.ok (k ⟨decGuard w, f5 w 22, decSOp (w / 2^16), f6 w 0⟩)))
def encSSh (f : SSh) : Nat := encGuard f.g + f.dst.val * 2^22 + encSOp f.a * 2^16 + f.sh.val

def decSBf (k : SBf → Instr) (w : Nat) : Except DecodeError Instr :=
  need (dstOk w) .operand (need (w / 2^14 % 4 == 0 && w / 2^6 % 4 == 0) .reserved
    (.ok (k ⟨decGuard w, f5 w 22, decSOp (w / 2^16), f6 w 8, f6 w 0⟩)))
def encSBf (f : SBf) : Nat :=
  encGuard f.g + f.dst.val * 2^22 + encSOp f.a * 2^16 + f.lsb.val * 2^8 + f.lenM1.val

def decSMovi (k : SMovi → Instr) (w : Nat) : Except DecodeError Instr :=
  need (dstOk w) .operand (need (w / 2^16 % 64 == 0) .reserved (.ok (k ⟨decGuard w, f5 w 22, imm16 w⟩)))
def encSMovi (f : SMovi) : Nat := encGuard f.g + f.dst.val * 2^22 + f.imm.toNat

def decSK (k : SK → Instr) (w : Nat) : Except DecodeError Instr :=
  need (dstOk w) .operand (need (w / 2^18 % 16 == 0) .reserved
    (.ok (k ⟨decGuard w, f5 w 22, Fin.ofNat 4 (w / 2^16), imm16 w⟩)))
def encSK (f : SK) : Nat := encGuard f.g + f.dst.val * 2^22 + f.h.val * 2^16 + f.imm.toNat

def decSP (k : SP → Instr) (w : Nat) : Except DecodeError Instr :=
  need (w % 1024 == 0 && w / 2^25 % 8 == 0) .reserved
    (.ok (k ⟨decGuard w, f3 w 22, decSOp (w / 2^16), decSOp (w / 2^10)⟩))
def encSP (f : SP) : Nat := encGuard f.g + f.pd.val * 2^22 + encSOp f.a * 2^16 + encSOp f.b * 2^10

def decSPI (k : SPI → Instr) (w : Nat) : Except DecodeError Instr :=
  need (w / 2^25 % 8 == 0) .reserved (.ok (k ⟨decGuard w, f3 w 22, decSOp (w / 2^16), imm16 w⟩))
def encSPI (f : SPI) : Nat := encGuard f.g + f.pd.val * 2^22 + encSOp f.a * 2^16 + f.imm.toNat

def decSQ (k : SQ → Instr) (w : Nat) : Except DecodeError Instr :=
  need (w % 1024 == 0 && w / 2^13 % 8 == 0 && w / 2^19 % 8 == 0 && w / 2^25 % 8 == 0) .reserved
    (.ok (k ⟨decGuard w, f3 w 22, f3 w 16, f3 w 10⟩))
def encSQ (f : SQ) : Nat := encGuard f.g + f.pd.val * 2^22 + f.pa.val * 2^16 + f.pb.val * 2^10

def decSMfs (k : SMfs → Instr) (w : Nat) : Except DecodeError Instr :=
  need (dstOk w) .operand (need (w / 2^16 % 64 == 0 && w / 2^10 % 64 == 0) .reserved
    (match decSReg (w % 1024) with
     | some r => .ok (k ⟨decGuard w, f5 w 22, r⟩)
     | none => .error .unassigned))
def encSMfs (f : SMfs) : Nat := encGuard f.g + f.dst.val * 2^22 + encSReg f.reg

def decSMts (k : SMts → Instr) (w : Nat) : Except DecodeError Instr :=
  need (w / 2^22 % 64 == 0 && w / 2^10 % 64 == 0) .reserved
    (match decSReg (w % 1024) with
     | some r => .ok (k ⟨decGuard w, decSOp (w / 2^16), r⟩)
     | none => .error .unassigned)
def encSMts (f : SMts) : Nat := encGuard f.g + encSOp f.a * 2^16 + encSReg f.reg

/-- A loop or identifier level, 0 to 5. -/
def decLevel (w : Nat) (k : Fin 6 → Except DecodeError Instr) : Except DecodeError Instr :=
  if h : w % 65536 < 6 then k ⟨w % 65536, h⟩ else .error .immediate

def decSLevel (k : SLevel → Instr) (w : Nat) : Except DecodeError Instr :=
  need (dstOk w) .operand (need (w / 2^16 % 64 == 0) .reserved (decLevel w fun l => .ok (k ⟨decGuard w, f5 w 22, l⟩)))
def encSLevel (f : SLevel) : Nat := encGuard f.g + f.dst.val * 2^22 + f.level.val

/-- Control opcodes other than the Rod-wide tests carry p0 with negate 0 (05 R90). -/
def unguarded (w : Nat) : Bool := w / 2^28 % 16 == 0

def decBr (w : Nat) : Except DecodeError Instr :=
  need (unguarded w && w / 2^16 % 4096 == 0) .reserved (.ok (.br (imm16 w)))

def decCTest (k : CTest → Instr) (w : Nat) : Except DecodeError Instr :=
  need (w / 2^16 % 4096 == 0) .reserved (.ok (k ⟨decGuard w, imm16 w⟩))
def encCTest (f : CTest) : Nat := encGuard f.t + f.imm.toNat

def decCGangA (k : CGang → Instr) (w : Nat) : Except DecodeError Instr :=
  need (unguarded w && w / 2^22 % 64 == 0) .reserved (need (48 ≤ w / 2^16 % 64) .operand (.ok (k ⟨f4 w 16, imm16 w⟩)))
def encCGangA (f : CGang) : Nat := (48 + f.g.val) * 2^16 + f.imm.toNat

def decCGangD (k : CGang → Instr) (w : Nat) : Except DecodeError Instr :=
  need (unguarded w && w / 2^16 % 64 == 0) .reserved (need (48 ≤ w / 2^22 % 64) .operand (.ok (k ⟨f4 w 22, imm16 w⟩)))
def encCGangD (f : CGang) : Nat := (48 + f.g.val) * 2^22 + f.imm.toNat

def decRet (w : Nat) : Except DecodeError Instr :=
  need (unguarded w && w / 2^22 % 64 == 0 && w % 65536 == 0) .reserved
    (need (48 ≤ w / 2^16 % 64) .operand (.ok (.ret (f4 w 16))))

def decCLoop (k : CLoop → Instr) (w : Nat) : Except DecodeError Instr :=
  need (unguarded w && w / 2^23 % 32 == 0 && w % 65536 == 0) .reserved (.ok (k ⟨b1 w 22, decSOp (w / 2^16)⟩))
def encCLoop (f : CLoop) : Nat := (if f.p then 2^22 else 0) + encSOp f.a * 2^16

def decCLoopI (k : CLoopI → Instr) (w : Nat) : Except DecodeError Instr :=
  need (unguarded w && w / 2^23 % 32 == 0 && w / 2^16 % 64 == 0) .reserved (.ok (k ⟨b1 w 22, imm16 w⟩))
def encCLoopI (f : CLoopI) : Nat := (if f.p then 2^22 else 0) + f.count.toNat

def decLbrk (w : Nat) : Except DecodeError Instr := need (w % 2^28 == 0) .reserved (.ok (.lbrk (decGuard w)))

def decCLidx (k : CLidx → Instr) (w : Nat) : Except DecodeError Instr :=
  need (dstOk w) .operand (need (unguarded w && w / 2^16 % 64 == 0) .reserved (decLevel w fun l => .ok (k ⟨f5 w 22, l⟩)))
def encCLidx (f : CLidx) : Nat := f.dst.val * 2^22 + f.level.val

def decCWait (k : CWait → Instr) (w : Nat) : Except DecodeError Instr :=
  need (unguarded w && w % 16 == 0) .reserved (.ok (k ⟨f4 w 24, f4 w 20, f4 w 16, f4 w 12, f4 w 8, f4 w 4⟩))
def encCWait (f : CWait) : Nat :=
  f.ld.val * 2^24 + f.st.val * 2^20 + f.cp.val * 2^16 + f.mx.val * 2^12 + f.en.val * 2^8 + f.nw.val * 2^4

def decCT (k : CT → Instr) (w : Nat) : Except DecodeError Instr :=
  need (w / 2^16 % 4096 == 0) .reserved (.ok (k ⟨decGuard w, imm16 w⟩))
def encCT (f : CT) : Nat := encGuard f.g + f.imm.toNat

def decBrk (w : Nat) : Except DecodeError Instr := need (w % 2^28 == 0) .reserved (.ok (.brk (decGuard w)))

def decCSavem (k : CSavem → Instr) (w : Nat) : Except DecodeError Instr :=
  need (w % 65536 == 0 && w / 2^22 % 64 == 0) .reserved (.ok (k ⟨decGuard w, decSOp (w / 2^16)⟩))
def encCSavem (f : CSavem) : Nat := encGuard f.g + encSOp f.a * 2^16

def decCSlack (k : CSlack → Instr) (w : Nat) : Except DecodeError Instr :=
  need (w / 2^16 % 4096 == 0) .reserved (need (w % 65536 < 16) .immediate (.ok (k ⟨decGuard w, f4 w 0⟩)))
def encCSlack (f : CSlack) : Nat := encGuard f.g + f.region.val

/-! ## Vector forms (05 R91 to R93): code [30:28], mask [27:25], dst [24:17], a [16:9], b [8:1], J [0] -/

def vcode (w : Nat) : Nat := w / 2^28 % 8
def vj (w : Nat) : Bool := w % 2 == 1
def vdst (w : Nat) : Nat := w / 2^17 % 256
def va (w : Nat) : Nat := w / 2^9 % 256
def vb (w : Nat) : Nat := w / 2 % 256

def decVB (k : VB → Instr) (w : Nat) : Except DecodeError Instr :=
  .ok (k ⟨f3 w 25, decVTy (vcode w), vj w, decVOp (vdst w), decVOp (va w), decVOp (vb w)⟩)
def encVB (f : VB) : Nat :=
  encVTy f.ty * 2^28 + f.m.val * 2^25 + encVOp f.dst * 2^17 + encVOp f.a * 2^9 + encVOp f.b * 2 + (if f.j then 1 else 0)

def decVU (k : VU → Instr) (w : Nat) : Except DecodeError Instr :=
  need (vb w == 0) .reserved (.ok (k ⟨f3 w 25, decVTy (vcode w), vj w, decVOp (vdst w), decVOp (va w)⟩))
def encVU (f : VU) : Nat :=
  encVTy f.ty * 2^28 + f.m.val * 2^25 + encVOp f.dst * 2^17 + encVOp f.a * 2^9 + (if f.j then 1 else 0)

def decVCmp (k : VCmp → Instr) (w : Nat) : Except DecodeError Instr :=
  need (!vj w && vdst w / 8 == 0) .reserved (.ok (k ⟨f3 w 25, decVTy (vcode w), f3 w 17, decVOp (va w), decVOp (vb w)⟩))
def encVCmp (f : VCmp) : Nat :=
  encVTy f.ty * 2^28 + f.m.val * 2^25 + f.md.val * 2^17 + encVOp f.a * 2^9 + encVOp f.b * 2

def decVLogicF (k : VLogicF → Instr) (w : Nat) : Except DecodeError Instr :=
  need (!vj w) .reserved
    (match vcode w with
     | 0 => .ok (k ⟨f3 w 25, .and, decVOp (vdst w), decVOp (va w), decVOp (vb w)⟩)
     | 1 => .ok (k ⟨f3 w 25, .or, decVOp (vdst w), decVOp (va w), decVOp (vb w)⟩)
     | 2 => .ok (k ⟨f3 w 25, .xor, decVOp (vdst w), decVOp (va w), decVOp (vb w)⟩)
     | 3 => .ok (k ⟨f3 w 25, .andn, decVOp (vdst w), decVOp (va w), decVOp (vb w)⟩)
     | 4 => .ok (k ⟨f3 w 25, .not, decVOp (vdst w), decVOp (va w), decVOp (vb w)⟩)
     | _ => .error .unassigned)
def encLogicOp : LogicOp → Nat
  | .and => 0 | .or => 1 | .xor => 2 | .andn => 3 | .not => 4
def encVLogicF (f : VLogicF) : Nat :=
  encLogicOp f.op * 2^28 + f.m.val * 2^25 + encVOp f.dst * 2^17 + encVOp f.a * 2^9 + encVOp f.b * 2

def decCvt (c : Nat) : CvtOp :=
  match c with
  | 0 => .f32i32 | 1 => .i32f32 | 2 => .f32bf16 | 3 => .f32f16 | 4 => .bf16f32 | 5 => .f16f32 | 6 => .f32u32 | _ => .u32f32
def encCvt : CvtOp → Nat
  | .f32i32 => 0 | .i32f32 => 1 | .f32bf16 => 2 | .f32f16 => 3 | .bf16f32 => 4 | .f16f32 => 5 | .f32u32 => 6 | .u32f32 => 7
def decVCvtF (k : VCvtF → Instr) (w : Nat) : Except DecodeError Instr :=
  need (!vj w && vb w == 0) .reserved (.ok (k ⟨f3 w 25, decCvt (vcode w), decVOp (vdst w), decVOp (va w)⟩))
def encVCvtF (f : VCvtF) : Nat := encCvt f.op * 2^28 + f.m.val * 2^25 + encVOp f.dst * 2^17 + encVOp f.a * 2^9

def decNarrow (c : Nat) : Option NarrowFmt :=
  match c with
  | 0 => some .e4m3 | 1 => some .e5m2 | 2 => some .e3m2 | 3 => some .e2m3 | 4 => some .e2m1 | _ => none
def encNarrow : NarrowFmt → Nat
  | .e4m3 => 0 | .e5m2 => 1 | .e3m2 => 2 | .e2m3 => 3 | .e2m1 => 4
def decVNarrowF (k : VNarrowF → Instr) (w : Nat) : Except DecodeError Instr :=
  need (!vj w && vb w == 0) .reserved
    (match decNarrow (vcode w) with
     | some n => .ok (k ⟨f3 w 25, n, decVOp (vdst w), decVOp (va w)⟩)
     | none => .error .unassigned)
def encVNarrowF (f : VNarrowF) : Nat := encNarrow f.fmt * 2^28 + f.m.val * 2^25 + encVOp f.dst * 2^17 + encVOp f.a * 2^9

def decPack (c : Nat) : Option PackOp :=
  match c with
  | 0 => some .i32i16 | 1 => some .i32i8 | 2 => some .i16i8 | 3 => some .f32bf16 | 4 => some .f32f16 | _ => none
def encPack : PackOp → Nat
  | .i32i16 => 0 | .i32i8 => 1 | .i16i8 => 2 | .f32bf16 => 3 | .f32f16 => 4
def decVPackF (k : VPackF → Instr) (w : Nat) : Except DecodeError Instr :=
  need (!vj w) .reserved
    (match decPack (vcode w) with
     | some o => .ok (k ⟨f3 w 25, o, decVOp (vdst w), decVOp (va w), decVOp (vb w)⟩)
     | none => .error .unassigned)
def encVPackF (f : VPackF) : Nat :=
  encPack f.op * 2^28 + f.m.val * 2^25 + encVOp f.dst * 2^17 + encVOp f.a * 2^9 + encVOp f.b * 2

def decVUnpkF (k : VUnpkF → Instr) (w : Nat) : Except DecodeError Instr :=
  need (!vj w) .reserved
    (match vcode w with
     | 0 => need (vb w == 0) .reserved (.ok (k ⟨f3 w 25, .i16, decVOp (vdst w), decVOp (va w)⟩))
     | 1 => need (vb w < 2) .immediate (.ok (k ⟨f3 w 25, .i8 (b1 w 1), decVOp (vdst w), decVOp (va w)⟩))
     | 2 => need (vb w == 0) .reserved (.ok (k ⟨f3 w 25, .bf16, decVOp (vdst w), decVOp (va w)⟩))
     | 3 => need (vb w == 0) .reserved (.ok (k ⟨f3 w 25, .f16, decVOp (vdst w), decVOp (va w)⟩))
     | _ => .error .unassigned)
def encVUnpkF (f : VUnpkF) : Nat :=
  (match f.op with
   | .i16 => 0
   | .i8 s => 2^28 + (if s then 2 else 0)
   | .bf16 => 2 * 2^28
   | .f16 => 3 * 2^28) + f.m.val * 2^25 + encVOp f.dst * 2^17 + encVOp f.a * 2^9

/-- Rows whose only code is 7, without J (05 R93). -/
def only7 (w : Nat) : Bool := vcode w == 7 && !vj w

def decVBcstF (k : VBcstF → Instr) (w : Nat) : Except DecodeError Instr :=
  need (only7 w) .unassigned (need (va w < 64 && vb w == 0) .reserved (.ok (k ⟨f3 w 25, decVOp (vdst w), decSOp (va w)⟩)))
def encVBcstF (f : VBcstF) : Nat := 7 * 2^28 + f.m.val * 2^25 + encVOp f.dst * 2^17 + encSOp f.a * 2^9

def decVExtF (k : VExtF → Instr) (w : Nat) : Except DecodeError Instr :=
  need (only7 w) .unassigned (need (w / 2^25 % 8 == 0) .reserved (need (vdst w < 32) .operand (need (vb w < 128) .immediate
    (.ok (k ⟨f5 w 17, decVOp (va w), Fin.ofNat 128 (w / 2)⟩)))))
def encVExtF (f : VExtF) : Nat := 7 * 2^28 + f.dst.val * 2^17 + encVOp f.a * 2^9 + f.lane.val * 2

def decVInsF (k : VInsF → Instr) (w : Nat) : Except DecodeError Instr :=
  need (only7 w) .unassigned (need (w / 2^25 % 8 == 0 && va w < 64) .reserved (need (vb w < 128) .immediate
    (decWin (vdst w) fun d => .ok (k ⟨d, decSOp (va w), Fin.ofNat 128 (w / 2)⟩))))
def encVInsF (f : VInsF) : Nat := 7 * 2^28 + f.dst.val * 2^17 + encSOp f.a * 2^9 + f.lane.val * 2

def decVPermF (k : VPermF → Instr) (w : Nat) : Except DecodeError Instr :=
  need (only7 w) .unassigned (.ok (k ⟨f3 w 25, decVOp (vdst w), decVOp (va w), decVOp (vb w)⟩))
def encVPermF (f : VPermF) : Nat :=
  7 * 2^28 + f.m.val * 2^25 + encVOp f.dst * 2^17 + encVOp f.a * 2^9 + encVOp f.b * 2

def decRed (c : Nat) : Option RedOp :=
  match c with
  | 0 => some .addf32 | 1 => some .maxf32 | 2 => some .minf32 | 3 => some .addi32 | 4 => some .maxi32 | 5 => some .mini32 | _ => none
def encRed : RedOp → Nat
  | .addf32 => 0 | .maxf32 => 1 | .minf32 => 2 | .addi32 => 3 | .maxi32 => 4 | .mini32 => 5
def decVRedF (k : VRedF → Instr) (w : Nat) : Except DecodeError Instr :=
  need (!vj w && vb w == 0) .reserved
    (match decRed (vcode w) with
     | some o => .ok (k ⟨f3 w 25, o, decVOp (vdst w), decVOp (va w)⟩)
     | none => .error .unassigned)
def encVRedF (f : VRedF) : Nat := encRed f.op * 2^28 + f.m.val * 2^25 + encVOp f.dst * 2^17 + encVOp f.a * 2^9

def decVHistF (k : VHistF → Instr) (w : Nat) : Except DecodeError Instr :=
  need (vcode w == 3 && !vj w) .unassigned (decWin (vdst w) fun d => .ok (k ⟨f3 w 25, d, decVOp (va w), decVOp (vb w)⟩))
def encVHistF (f : VHistF) : Nat :=
  3 * 2^28 + f.m.val * 2^25 + f.d.val * 2^17 + encVOp f.a * 2^9 + encVOp f.b * 2

def decVBmrgF (k : VBmrgF → Instr) (w : Nat) : Except DecodeError Instr :=
  need (vcode w == 3 && !vj w) .unassigned (need (vb w == 0) .reserved
    (decWin (va w) fun a => .ok (k ⟨f3 w 25, decVOp (vdst w), a⟩)))
def encVBmrgF (f : VBmrgF) : Nat := 3 * 2^28 + f.m.val * 2^25 + encVOp f.dst * 2^17 + f.a.val * 2^9

/-- Rows with codes 0 (.f32) and 3 (.i32) only. -/
def code03 (w : Nat) : Bool := (vcode w == 0 || vcode w == 3) && !vj w

def decVBcxF (k : VBcxF → Instr) (w : Nat) : Except DecodeError Instr :=
  need (code03 w) .unassigned (need (w / 2^25 % 8 == 0 && vb w / 8 % 2 == 0) .reserved (need (vb w / 16 % 8 != 7) .immediate
    (decWin (vdst w) fun d => decWin (va w) fun a =>
      .ok (k ⟨vcode w == 3, d, a, f3 w 1, Fin.ofNat 8 (vb w / 16 % 8 + 1), vb w / 128 == 1⟩))))
def encVBcxF (f : VBcxF) : Nat :=
  (if f.int then 3 * 2^28 else 0) + f.dst.val * 2^17 + f.a.val * 2^9
    + ((if f.desc then 128 else 0) + (f.k.val - 1) * 16 + f.j.val) * 2

def decVArgF (k : VArgF → Instr) (w : Nat) : Except DecodeError Instr :=
  need (code03 w) .unassigned (decWin (vdst w) fun d => .ok (k ⟨f3 w 25, vcode w == 3, d, decVOp (va w), decVOp (vb w)⟩))
def encVArgF (f : VArgF) : Nat :=
  (if f.int then 3 * 2^28 else 0) + f.m.val * 2^25 + f.dst.val * 2^17 + encVOp f.a * 2^9 + encVOp f.b * 2

/-- Jet-only rows: J = 1 and code 0 (05 R92, 10 R210). -/
def jetOnly (w : Nat) : Bool := vcode w == 0 && vj w

def decJBin (k : JBin → Instr) (w : Nat) : Except DecodeError Instr :=
  need (jetOnly w) .unassigned (decWin (vdst w) fun d => decWin (va w) fun a => decWin (vb w) fun b => .ok (k ⟨f3 w 25, d, a, b⟩))
def encJBin (f : JBin) : Nat := f.m.val * 2^25 + f.dst.val * 2^17 + f.a.val * 2^9 + f.b.val * 2 + 1

def decJUn (k : JUn → Instr) (w : Nat) : Except DecodeError Instr :=
  need (jetOnly w) .unassigned (need (vb w == 0) .reserved (decWin (vdst w) fun d => decWin (va w) fun a => .ok (k ⟨f3 w 25, d, a⟩)))
def encJUn (f : JUn) : Nat := f.m.val * 2^25 + f.dst.val * 2^17 + f.a.val * 2^9 + 1

def decJIdx (k : JIdx → Instr) (w : Nat) : Except DecodeError Instr :=
  need (jetOnly w) .unassigned (need (vb w < 8) .immediate (decWin (vdst w) fun d => decWin (va w) fun a => .ok (k ⟨f3 w 25, d, a, f3 w 1⟩)))
def encJIdx (f : JIdx) : Nat := f.m.val * 2^25 + f.dst.val * 2^17 + f.a.val * 2^9 + f.i.val * 2 + 1

def decJDerF (k : JDerF → Instr) (w : Nat) : Except DecodeError Instr :=
  need (jetOnly w) .unassigned (need (vb w < 2) .immediate (decWin (vdst w) fun d => decWin (va w) fun a => .ok (k ⟨f3 w 25, d, a, b1 w 1⟩)))
def encJDerF (f : JDerF) : Nat :=
  f.m.val * 2^25 + f.dst.val * 2^17 + f.a.val * 2^9 + (if f.inv then 2 else 0) + 1

def decJShiftF (k : JShiftF → Instr) (w : Nat) : Except DecodeError Instr :=
  need (jetOnly w) .unassigned (need (vb w / 8 % 16 == 0) .immediate
    (decWin (vdst w) fun d => decWin (va w) fun a => .ok (k ⟨f3 w 25, d, a, vb w / 128 == 1, f3 w 1⟩)))
def encJShiftF (f : JShiftF) : Nat :=
  f.m.val * 2^25 + f.dst.val * 2^17 + f.a.val * 2^9 + ((if f.up then 128 else 0) + f.s.val) * 2 + 1

def decJPowF (k : JPowF → Instr) (w : Nat) : Except DecodeError Instr :=
  need (jetOnly w) .unassigned (decWin (vdst w) fun d => decWin (va w) fun a => .ok (k ⟨f3 w 25, d, a, BitVec.ofNat 8 (vb w)⟩))
def encJPowF (f : JPowF) : Nat := f.m.val * 2^25 + f.dst.val * 2^17 + f.a.val * 2^9 + f.p.toNat * 2 + 1

/-- JFLAG (10 R210): code 0 clears, code 1 gets; the mask field is zero. -/
def decJflag (w : Nat) : Except DecodeError Instr :=
  need (vj w) .unassigned (need (w / 2^25 % 8 == 0 && vb w == 0) .reserved
    (match vcode w with
     | 0 => need (vdst w == 0 && va w < 64) .reserved (.ok (.jflagClear (decSOp (va w))))
     | 1 => need (va w == 0) .reserved (decWin (vdst w) fun d => .ok (.jflagGet d))
     | _ => .error .unassigned))

/-! ## Special-function form (05 R94) -/

def decFForm (k : FForm → Instr) (w : Nat) : Except DecodeError Instr :=
  need (w / 16 % 4 != 3 && w / 4 % 4 != 3 && w % 4 != 3) .immediate
    (.ok (k ⟨f3 w 23,
      (match w / 16 % 4 with
       | 0 => .f32
       | 1 => .bf16
       | _ => .f16),
      Fin.ofNat 3 (w / 4 % 4),
      (match w % 4 with
       | 0 => .dyn
       | 1 => .rne
       | _ => .rtz),
      b1 w 6, decVOp (w / 2^15), decVOp (w / 2^7)⟩))
def encFTy : FTy → Nat
  | .f32 => 0 | .bf16 => 1 | .f16 => 2
def encFRnd : FRnd → Nat
  | .dyn => 0 | .rne => 1 | .rtz => 2
def encFForm (f : FForm) : Nat :=
  f.m.val * 2^23 + encVOp f.dst * 2^15 + encVOp f.src * 2^7 + (if f.j then 64 else 0) + encFTy f.ty * 16 + f.level.val * 4 + encFRnd f.rnd

/-! ## Memory/engine forms (05 R86, R95, R96): guard [47:45], data [44:37], base [36:31], imm24 [30:7], path [6:4], flag [3], zero [2:0] -/

def mdata (w : Nat) : Nat := w / 2^37 % 256
def mimm (w : Nat) : Nat := w / 2^7 % 2^24
def mbase (w : Nat) : Nat := w / 2^31 % 64
/-- The flag [3] is 1, the path code 0 and [2:0] zero. -/
def mflag1 (w : Nat) : Bool := w % 128 == 8
/-- The flag [3] is 0, the path code 0 and [2:0] zero. -/
def mflag0 (w : Nat) : Bool := w % 128 == 0
/-- Loads and stores: path code 0 or 1 (05 R95). -/
def mflag1na (w : Nat) : Bool := w % 128 == 8 || w % 128 == 24
def mflag0na (w : Nat) : Bool := w % 128 == 0 || w % 128 == 16

def decMLd (k : MLd → Instr) (w : Nat) : Except DecodeError Instr :=
  need (mflag1na w) .flag (need (mdata w < 32) .operand (.ok (k ⟨f3 w 45, f5 w 37, decSOp (mbase w), imm24 w, b1 w 4⟩)))
def encMLd (f : MLd) : Nat :=
  f.p.val * 2^45 + f.dst.val * 2^37 + encSOp f.base * 2^31 + f.imm.toNat * 2^7 + (if f.na then 16 else 0) + 8

def decMSt (k : MSt → Instr) (w : Nat) : Except DecodeError Instr :=
  need (mflag1na w) .flag (need (mdata w < 64) .operand (.ok (k ⟨f3 w 45, decSOp (mdata w), decSOp (mbase w), imm24 w, b1 w 4⟩)))
def encMSt (f : MSt) : Nat :=
  f.p.val * 2^45 + encSOp f.data * 2^37 + encSOp f.base * 2^31 + f.imm.toNat * 2^7 + (if f.na then 16 else 0) + 8

def decMVec (k : MVec → Instr) (w : Nat) : Except DecodeError Instr :=
  need (mflag0na w) .flag (decWin (mdata w) fun r => .ok (k ⟨f3 w 45, r, decSOp (mbase w), imm24 w, b1 w 4⟩))
def encMVec (f : MVec) : Nat :=
  f.m.val * 2^45 + f.reg.val * 2^37 + encSOp f.base * 2^31 + f.imm.toNat * 2^7 + (if f.na then 16 else 0)

def decMAddr (k : MAddr → Instr) (w : Nat) : Except DecodeError Instr :=
  need (mflag1 w) .flag (need (mdata w == 0) .reserved (.ok (k ⟨f3 w 45, decSOp (mbase w), imm24 w⟩)))
def encMAddr (f : MAddr) : Nat := f.p.val * 2^45 + encSOp f.base * 2^31 + f.imm.toNat * 2^7 + 8

def decMBind (k : MBind → Instr) (w : Nat) : Except DecodeError Instr :=
  need (mflag0 w) .flag (need (w / 2^45 % 8 == 0) .reserved (need (232 ≤ mdata w && mdata w < 240) .operand
    (.ok (k ⟨f3 w 37, decSOp (mbase w), imm24 w⟩))))
def encMBind (f : MBind) : Nat := (232 + f.z.val) * 2^37 + encSOp f.base * 2^31 + f.imm.toNat * 2^7

def decSunbind (w : Nat) : Except DecodeError Instr :=
  need (mflag0 w) .flag (need (w / 2^45 % 8 == 0 && mbase w == 0 && mimm w == 0) .reserved
    (need (232 ≤ mdata w && mdata w < 240) .operand (.ok (.sunbind (f3 w 37)))))

def decMSpos (k : MSpos → Instr) (w : Nat) : Except DecodeError Instr :=
  need (mflag1 w) .flag (need (mbase w == 0) .reserved (need (mdata w < 32) .operand (need (mimm w < 8) .immediate
    (.ok (k ⟨f3 w 45, f5 w 37, f3 w 7⟩)))))
def encMSpos (f : MSpos) : Nat := f.p.val * 2^45 + f.dst.val * 2^37 + f.z.val * 2^7 + 8

def decMDesc (k : MDesc → Instr) (w : Nat) : Except DecodeError Instr :=
  need (mflag1 w) .flag (need (mdata w < 32) .operand (.ok (k ⟨f3 w 45, f5 w 37, decSOp (mbase w), imm24 w⟩)))
def encMDesc (f : MDesc) : Nat := f.p.val * 2^45 + f.dst.val * 2^37 + encSOp f.base * 2^31 + f.imm.toNat * 2^7 + 8

def decMMigr (k : MMigr → Instr) (w : Nat) : Except DecodeError Instr :=
  need (mflag1 w) .flag (need (mdata w < 64) .operand (.ok (k ⟨f3 w 45, decSOp (mdata w), decSOp (mbase w), imm24 w⟩)))
def encMMigr (f : MMigr) : Nat := f.p.val * 2^45 + encSOp f.t * 2^37 + encSOp f.base * 2^31 + f.imm.toNat * 2^7 + 8

/-- A path code, 0 to 5 (05 R96). -/
def decPath (c : Nat) (k : Fin 6 → Except DecodeError Instr) : Except DecodeError Instr :=
  if h : c < 6 then k ⟨c, h⟩ else .error .flag

def decMFence (k : MFence → Instr) (w : Nat) : Except DecodeError Instr :=
  need (mflag1 w) .flag (need (mdata w % 4 == 0 && mbase w == 0 && mimm w == 0) .reserved
    (decPath (mdata w / 32) fun a => decPath (mdata w / 4 % 8) fun b => .ok (k ⟨f3 w 45, a, b⟩)))
def encMFence (f : MFence) : Nat := f.p.val * 2^45 + (f.first.val * 32 + f.later.val * 4) * 2^37 + 8

def decMPred (k : MPred → Instr) (w : Nat) : Except DecodeError Instr :=
  need (mflag1 w) .flag (need (mdata w == 0 && mbase w == 0 && mimm w == 0) .reserved (.ok (k ⟨f3 w 45⟩)))
def encMPred (f : MPred) : Nat := f.p.val * 2^45 + 8

def decMDrain (k : MDrain → Instr) (w : Nat) : Except DecodeError Instr :=
  need (w % 16 == 8 && w / 16 % 8 < 5) .flag (need (mdata w == 0 && mbase w == 0 && mimm w == 0) .reserved
    (.ok (k ⟨f3 w 45, Fin.ofNat 5 (w / 16 % 8)⟩)))
def encMDrain (f : MDrain) : Nat := f.p.val * 2^45 + f.scope.val * 16 + 8

def decMRed (k : MRed → Instr) (w : Nat) : Except DecodeError Instr :=
  need (mflag1 w) .flag (need (mdata w < 64) .operand (.ok (k ⟨f3 w 45, decSOp (mdata w), decSOp (mbase w), imm24 w⟩)))
def encMRed (f : MRed) : Nat := f.p.val * 2^45 + encSOp f.data * 2^37 + encSOp f.base * 2^31 + f.imm.toNat * 2^7 + 8

def decMAtom (k : MAtom → Instr) (w : Nat) : Except DecodeError Instr :=
  need (mflag1 w) .flag (need (mdata w < 32) .operand (.ok (k ⟨f3 w 45, f5 w 37, decSOp (mbase w), imm24 w⟩)))
def encMAtom (f : MAtom) : Nat := f.p.val * 2^45 + f.d.val * 2^37 + encSOp f.base * 2^31 + f.imm.toNat * 2^7 + 8

/-- A barrier number, 0 to 47 (15 R305). -/
def decBar (c : Nat) (k : Fin 48 → Except DecodeError Instr) : Except DecodeError Instr :=
  if h : c < 48 then k ⟨c, h⟩ else .error .immediate

def decMSync (k : MSync → Instr) (w : Nat) : Except DecodeError Instr :=
  need (mflag1 w) .flag (need (w / 2^45 % 8 == 0 && mbase w == 0 && mimm w == 0) .reserved (decBar (mdata w) fun b => .ok (k ⟨b⟩)))
def encMSync (f : MSync) : Nat := f.b.val * 2^37 + 8

def decMBarcfg (k : MBarcfg → Instr) (w : Nat) : Except DecodeError Instr :=
  need (mflag1 w) .flag (need (mimm w == 0) .reserved (decBar (mdata w) fun b => .ok (k ⟨f3 w 45, b, decSOp (mbase w)⟩)))
def encMBarcfg (f : MBarcfg) : Nat := f.p.val * 2^45 + f.b.val * 2^37 + encSOp f.base * 2^31 + 8

def decSstep (w : Nat) : Except DecodeError Instr :=
  need (mflag1 w) .flag (need (w / 2^45 % 8 == 0 && mdata w == 0 && mbase w == 0 && mimm w == 0) .reserved (.ok .sstep))

/-- TAINTRD (15 R305): the flag tells the scalar form from the vector form. -/
def decTaintRd (w : Nat) : Except DecodeError Instr :=
  need (mimm w == 0) .reserved
    (if mflag1 w then need (mdata w < 64 && mbase w < 32) .operand (.ok (.taintrdScalar ⟨f3 w 45, decSOp (mdata w), f5 w 31⟩))
     else need (mflag0 w) .flag (need (mbase w < 8) .reserved (.ok (.taintrdVector ⟨f3 w 45, decVOp (mdata w), f3 w 31⟩))))
def encMTaintRdS (f : MTaintRdS) : Nat := f.p.val * 2^45 + encSOp f.src * 2^37 + f.dst.val * 2^31 + 8
def encMTaintRdV (f : MTaintRdV) : Nat := f.m.val * 2^45 + encVOp f.src * 2^37 + f.md.val * 2^31

def decTaintClr (w : Nat) : Except DecodeError Instr :=
  need (mimm w == 0 && mbase w == 0) .reserved
    (if mflag1 w then need (mdata w < 32) .operand (.ok (.taintclrScalar ⟨f3 w 45, f5 w 37⟩))
     else need (mflag0 w) .flag (decWin (mdata w) fun r => .ok (.taintclrVector ⟨f3 w 45, r⟩)))
def encMTaintClrS (f : MTaintClrS) : Nat := f.p.val * 2^45 + f.r.val * 2^37 + 8
def encMTaintClrV (f : MTaintClrV) : Nat := f.m.val * 2^45 + f.r.val * 2^37

def decMCallF (k : MCallF → Instr) (w : Nat) : Except DecodeError Instr :=
  need (mflag1 w) .flag (need (mbase w == 0 && mimm w == 0) .reserved (.ok (k ⟨f3 w 45, Fin.ofNat 256 (mdata w)⟩)))
def encMCallF (f : MCallF) : Nat := f.p.val * 2^45 + f.routine.val * 2^37 + 8

def decMLatF (k : MLatF → Instr) (w : Nat) : Except DecodeError Instr :=
  need (mflag1 w) .flag (need (mdata w < 4) .reserved (.ok (k ⟨f3 w 45, Fin.ofNat 4 (mdata w), decSOp (mbase w), imm24 w⟩)))
def encMLatF (f : MLatF) : Nat := f.p.val * 2^45 + f.l.val * 2^37 + encSOp f.base * 2^31 + f.imm.toNat * 2^7 + 8

def decMSetpF (k : MSetpF → Instr) (w : Nat) : Except DecodeError Instr :=
  need (mflag1 w) .flag (need (mbase w == 0 && mimm w == 0) .reserved (need (mdata w < 17) .immediate
    (.ok (k ⟨f3 w 45, Fin.ofNat 17 (mdata w)⟩))))
def encMSetpF (f : MSetpF) : Nat := f.p.val * 2^45 + f.planes.val * 2^37 + 8

def decMParmF (k : MParmF → Instr) (w : Nat) : Except DecodeError Instr :=
  need (mflag1 w) .flag (need (mdata w < 8 && mimm w == 0) .reserved (.ok (k ⟨f3 w 45, f3 w 37, decSOp (mbase w)⟩)))
def encMParmF (f : MParmF) : Nat := f.p.val * 2^45 + f.i.val * 2^37 + encSOp f.base * 2^31 + 8

def decMAcc (k : MAcc → Instr) (w : Nat) : Except DecodeError Instr :=
  need (mflag0 w) .flag (need (mdata w == 0) .reserved (.ok (k ⟨f3 w 45, decSOp (mbase w), imm24 w⟩)))
def encMAcc (f : MAcc) : Nat := f.m.val * 2^45 + encSOp f.base * 2^31 + f.imm.toNat * 2^7

def decMAccR (k : MAccR → Instr) (w : Nat) : Except DecodeError Instr :=
  need (mflag0 w) .flag (decWin (mdata w) fun r => .ok (k ⟨f3 w 45, r, decSOp (mbase w), imm24 w⟩))
def encMAccR (f : MAccR) : Nat := f.m.val * 2^45 + f.reg.val * 2^37 + encSOp f.base * 2^31 + f.imm.toNat * 2^7

def decMPair (k : MPair → Instr) (w : Nat) : Except DecodeError Instr :=
  need (mflag1 w) .flag (need (mimm w == 0) .reserved (need (mdata w < 32 && mbase w < 32) .operand
    (.ok (k ⟨f3 w 45, f5 w 37, f5 w 31⟩))))
def encMPair (f : MPair) : Nat := f.p.val * 2^45 + f.dst.val * 2^37 + f.base.val * 2^31 + 8

def decMKvcount (k : MKvcount → Instr) (w : Nat) : Except DecodeError Instr :=
  need (mflag1 w) .flag (need (mimm w == 0 && mbase w == 0) .reserved (need (mdata w < 32) .operand (.ok (k ⟨f3 w 45, f5 w 37⟩))))
def encMKvcount (f : MKvcount) : Nat := f.p.val * 2^45 + f.dst.val * 2^37 + 8

/-- RELEASE (02 R34, R35): the delay is imm24 and a negative one is illegal. -/
def decMRelease (k : MRelease → Instr) (w : Nat) : Except DecodeError Instr :=
  need (mflag1 w) .flag (need (mdata w < 32) .operand (need (mimm w < 2^23) .immediate
    (.ok (k ⟨f3 w 45, f5 w 37, decSOp (mbase w), BitVec.ofNat 23 (mimm w)⟩))))
def encMRelease (f : MRelease) : Nat :=
  f.p.val * 2^45 + f.dst.val * 2^37 + encSOp f.task * 2^31 + f.delay.toNat * 2^7 + 8

/-! ## Slot words -/

/-- The scalar slot (05 R86, R89, R90): 40 bits, opcode in [39:32]. -/
def decodeScalarRaw (w : Nat) : Except DecodeError Instr :=
  match w / 2^32 with
  | 0x00 => if w == 0 then .ok .nop else .error .reserved
  | 0x01 => decSR .add w
  | 0x02 => decSR .sub w
  | 0x03 => decSR .and w
  | 0x04 => decSR .or w
  | 0x05 => decSR .xor w
  | 0x06 => decSR .andn w
  | 0x07 => decSR .shl w
  | 0x08 => decSR .shr w
  | 0x09 => decSR .sar w
  | 0x0A => decSR .rol w
  | 0x0B => decSR .min w
  | 0x0C => decSR .max w
  | 0x0D => decSR .minu w
  | 0x0E => decSR .maxu w
  | 0x0F => decSR .mul w
  | 0x10 => decSR .mulh w
  | 0x11 => decSR .mulhu w
  | 0x12 => decSR .div w
  | 0x13 => decSR .divu w
  | 0x14 => decSR .rem w
  | 0x15 => decSR .remu w
  | 0x16 => decSR .sel w
  | 0x18 => decSBf .bfx w
  | 0x19 => decSBf .bfxu w
  | 0x1A => decSBf .bfi w
  | 0x1B => decSU .clz w
  | 0x1C => decSU .ctz w
  | 0x1D => decSU .popc w
  | 0x1E => decSU .brev w
  | 0x20 => decSP .cmpeq w
  | 0x21 => decSP .cmpne w
  | 0x22 => decSP .cmplt w
  | 0x23 => decSP .cmple w
  | 0x24 => decSP .cmpltu w
  | 0x25 => decSP .cmpleu w
  | 0x26 => decSQ .pand w
  | 0x27 => decSQ .por w
  | 0x28 => decSQ .pxor w
  | 0x30 => decSPI .cmpeqi w
  | 0x31 => decSPI .cmpnei w
  | 0x32 => decSPI .cmplti w
  | 0x33 => decSPI .cmplei w
  | 0x34 => decSPI .cmpltui w
  | 0x35 => decSPI .cmpleui w
  | 0x41 => decSI .addi w
  | 0x42 => decSI .subi w
  | 0x43 => decSI .andi w
  | 0x44 => decSI .ori w
  | 0x45 => decSI .xori w
  | 0x47 => decSSh .shli w
  | 0x48 => decSSh .shri w
  | 0x49 => decSSh .sari w
  | 0x4B => decSI .mini w
  | 0x4C => decSI .maxi w
  | 0x4F => decSI .muli w
  | 0x50 => decSMovi .movi w
  | 0x51 => decSK .movk w
  | 0x60 => decSMfs .mfs w
  | 0x61 => decSMts .mts w
  | 0x62 => decSLevel .widf w
  | 0x80 => decBr w
  | 0x81 => decCTest .brany w
  | 0x82 => decCTest .brall w
  | 0x83 => decCGangA .brgz w
  | 0x84 => decCGangA .brgnz w
  | 0x85 => decCGangD .call w
  | 0x86 => decRet w
  | 0x88 => decCLoop .loop w
  | 0x89 => decCLoopI .loopi w
  | 0x8A => decLbrk w
  | 0x8B => decCLidx .lidx w
  | 0x8C => decCWait .wait w
  | 0x8D => if w % 2^32 == 0 then .ok .schsel else .error .reserved
  | 0x8E => if w % 2^32 == 0 then .ok .endK else .error .reserved
  | 0x90 => decCT .trap w
  | 0x91 => decBrk w
  | 0x92 => decCT .svc w
  | 0x93 => decCSavem .savem w
  | 0x94 => decCSlack .slack w
  | _ => .error .unassigned

/-- The vector slot (05 R91 to R93): 37 bits, opcode row times 8 plus code in [36:28]. -/
def decodeVectorRaw (w : Nat) : Except DecodeError Instr :=
  match w / 2^31 with
  | 0x01 => decVB .vadd w
  | 0x02 => decVB .vsub w
  | 0x03 => decVB .vmul w
  | 0x04 => decVB .vfma w
  | 0x05 => decVB .vfnma w
  | 0x06 => decVB .vmin w
  | 0x07 => decVB .vmax w
  | 0x08 => decVU .vabs w
  | 0x09 => decVU .vneg w
  | 0x0A => decVCmp .vcmpeq w
  | 0x0B => decVCmp .vcmpne w
  | 0x0C => decVCmp .vcmplt w
  | 0x0D => decVCmp .vcmple w
  | 0x0E => decVB .vsel w
  | 0x0F => decVU .vmov w
  | 0x10 => decVLogicF .vlogic w
  | 0x11 => decVB .vshl w
  | 0x12 => decVB .vshr w
  | 0x13 => decVB .vsar w
  | 0x14 => decVCvtF .vcvt w
  | 0x15 => decVNarrowF .vcvtn w
  | 0x16 => decVNarrowF .vcvtw w
  | 0x17 => decVPackF .vpack w
  | 0x18 => decVUnpkF .vunpkl w
  | 0x19 => decVUnpkF .vunpkh w
  | 0x1A => decVBcstF .vbcst w
  | 0x1B => decVExtF .vext w
  | 0x1C => decVInsF .vins w
  | 0x1D => decVPermF .vperm w
  | 0x1E => decVPermF .vxcopy w
  | 0x1F => decVRedF .vred w
  | 0x20 => decVRedF .vxred w
  | 0x21 => decVRedF .vscan w
  | 0x22 => decVHistF .vhist w
  | 0x23 => decVBmrgF .vbmrg w
  | 0x24 => decVBcxF .vbcx w
  | 0x25 => decVBcxF .vbcxx w
  | 0x26 => decVArgF .vargmax w
  | 0x27 => decVB .vclamp w
  | 0x30 => decJBin .jseed w
  | 0x31 => decJUn .jconst w
  | 0x32 => decJIdx .jget w
  | 0x33 => decJIdx .jput w
  | 0x34 => decJDerF .jder w
  | 0x35 => decJShiftF .jshift w
  | 0x36 => decJBin .jscale w
  | 0x37 => decJBin .jdiv w
  | 0x38 => decJPowF .jpowi w
  | 0x39 => decJflag w
  | _ => .error .unassigned

/-- The special-function slot (05 R94): 32 bits, opcode in [31:26]. -/
def decodeSpecialRaw (w : Nat) : Except DecodeError Instr :=
  match w / 2^26 with
  | 0x00 => if w == 0 then .ok .fnop else .error .reserved
  | 0x01 => decFForm .rcp w
  | 0x02 => decFForm .rsq w
  | 0x03 => decFForm .sqrt w
  | 0x04 => decFForm .exp2 w
  | 0x05 => decFForm .log2 w
  | 0x06 => decFForm .exp w
  | 0x07 => decFForm .log w
  | 0x08 => decFForm .sin w
  | 0x09 => decFForm .cos w
  | 0x0A => decFForm .tanh w
  | 0x0B => decFForm .sigm w
  | 0x0C => decFForm .rcpstep w
  | 0x0D => decFForm .rsqstep w
  | 0x10 => decFForm .jsincos w
  | _ => .error .unassigned

/-- The memory/engine slot (05 R86, R95, R96; 02 R34): 56 bits, opcode in [55:48]. -/
def decodeMemoryRaw (w : Nat) : Except DecodeError Instr :=
  match w / 2^48 with
  | 0x00 => if w == 0 then .ok .mnop else .error .reserved
  | 0x01 => decMLd .ld8u w
  | 0x02 => decMLd .ld16u w
  | 0x03 => decMLd .ld32u w
  | 0x04 => decMLd .ld64 w
  | 0x05 => decMLd .ld8s w
  | 0x06 => decMLd .ld16s w
  | 0x07 => decMLd .ld32s w
  | 0x08 => decMSt .st8 w
  | 0x09 => decMSt .st16 w
  | 0x0A => decMSt .st32 w
  | 0x0B => decMSt .st64 w
  | 0x10 => decMVec .vld w
  | 0x11 => decMVec .vst w
  | 0x12 => decMVec .vgath w
  | 0x13 => decMVec .vscat w
  | 0x14 => decMAddr .prf w
  | 0x20 => decMBind .sbind w
  | 0x21 => decSunbind w
  | 0x22 => decMSpos .spos w
  | 0x28 => decMDesc .copy w
  | 0x29 => decMDesc .copyp w
  | 0x2A => decMDesc .fill w
  | 0x30 => decMAddr .cflush w
  | 0x31 => decMAddr .cinv w
  | 0x32 => decMAddr .cclean w
  | 0x34 => decMMigr .migr w
  | 0x40 => decMFence .fenceX w
  | 0x41 => decMPred .fenceOwn w
  | 0x42 => decMAddr .fenceFar w
  | 0x43 => decMDrain .drain w
  | 0x44 => decMAtom .ldacq w
  | 0x45 => decMRed .strel w
  | 0x48 => decMRed .redaddI32 w
  | 0x49 => decMRed .redaddq w
  | 0x4A => decMRed .redminI32 w
  | 0x4B => decMRed .redmaxI32 w
  | 0x4C => decMRed .redand w
  | 0x4D => decMRed .redor w
  | 0x4E => decMRed .redxor w
  | 0x4F => decMRed .redaddF32 w
  | 0x50 => decMAtom .atomadd w
  | 0x51 => decMAtom .atomswp w
  | 0x52 => decMAtom .atomcas w
  | 0x60 => decMSync .sync w
  | 0x61 => decMBarcfg .barcfg w
  | 0x62 => decSstep w
  | 0x70 => decMCallF .mcall w
  | 0x71 => decMLatF .mlat w
  | 0x72 => decMSetpF .msetp w
  | 0x73 => decMParmF .mparm w
  | 0x74 => decMAcc .accz w
  | 0x75 => decMAccR .accrd w
  | 0x76 => decMAccR .accwr w
  | 0x77 => decMAcc .norm w
  | 0xA0 => decMDesc .nsend w
  | 0xA1 => decMDesc .nrecv w
  | 0xA2 => decMDesc .ncoll w
  | 0xC0 => decMDesc .selacc w
  | 0xC1 => decMPair .draw w
  | 0xC2 => decMPair .kvalloc w
  | 0xC3 => decMPair .kvfree w
  | 0xC4 => decMKvcount .kvcount w
  | 0xC8 => decMDesc .tithe w
  | 0xC9 => decMDesc .tmap w
  | 0xCA => decMDesc .tclrd w
  | 0xE0 => decMDesc .launch w
  | 0xE1 => decMRelease .release w
  | 0x63 => decTaintRd w
  | 0x64 => decTaintClr w
  | _ => .error .unassigned
/-- A microword (13 R268, R269): uop in [63:58], registers in [57:43], zero in [42:32], imm in [31:0]. -/
def decodeMicroRaw (w : Nat) : Except DecodeError Instr :=
  let ra := f3 w 55
  let rb := f3 w 52
  let rc := f3 w 49
  let rd := f3 w 46
  let re := f3 w 43
  let im := BitVec.ofNat 32 w
  need (w / 2^32 % 2^11 == 0) .reserved
    (match w / 2^58 with
     | 0 => need (w == 0) .reserved (.ok .uend)
     | 1 => need (w % 2^32 == 0) .reserved (.ok (.ukstep ⟨ra, rb, rc, rd, re⟩))
     | 2 => need (w / 2^43 % 2^9 == 0) .reserved (.ok (.uaddi ⟨ra, rb, im⟩))
     | 3 => need (w % 2^49 == 0) .reserved (.ok (.uadd ⟨ra, rb, rc⟩))
     | 4 => need (w / 2^43 % 2^12 == 0 && w % 2^32 < 2048) .reserved (.ok (.uloop ⟨ra, Fin.ofNat 2048 w⟩))
     | 5 => need (w % 2^52 == 0) .reserved (.ok (.unorm ⟨ra, rb⟩))
     | 6 => need (w % 2^52 == 0) .reserved (.ok (.uzero ⟨ra, rb⟩))
     | 7 => need (w / 2^43 % 2^12 == 0) .reserved (.ok (.umovi ⟨ra, im⟩))
     | _ => .error .unassigned)
def encUKs (f : UKs) : Nat := f.ra.val * 2^55 + f.rb.val * 2^52 + f.rc.val * 2^49 + f.rd.val * 2^46 + f.re.val * 2^43
def encUImm (f : UImm) : Nat := f.ra.val * 2^55 + f.rb.val * 2^52 + f.imm.toNat
def encU3 (f : U3) : Nat := f.ra.val * 2^55 + f.rb.val * 2^52 + f.rc.val * 2^49
def encULoopF (f : ULoopF) : Nat := f.ra.val * 2^55 + f.target.val
def encU2 (f : U2) : Nat := f.ra.val * 2^55 + f.rb.val * 2^52
def encUMoviF (f : UMoviF) : Nat := f.ra.val * 2^55 + f.imm.toNat

/-- The width of a slot in bits (05 R86, 13 R267). -/
def SlotKind.width : SlotKind → Nat
  | .scalar => 40
  | .vector => 37
  | .special => 32
  | .memory => 56
  | .micro => 64

/-- Keep a decoded instruction only if it is well formed. -/
def keepWf (r : Except DecodeError Instr) : Except DecodeError Instr :=
  match r with
  | .ok i => if i.wf then .ok i else .error .illFormed
  | .error e => .error e

/-- Decode one slot word or microword: total, refusing by name. -/
def decode (k : SlotKind) (w : Nat) : Except DecodeError Instr :=
  if w < 2 ^ k.width then
    keepWf (match k with
      | .scalar => decodeScalarRaw w
      | .vector => decodeVectorRaw w
      | .special => decodeSpecialRaw w
      | .memory => decodeMemoryRaw w
      | .micro => decodeMicroRaw w)
  else .error .reserved

/-- The instruction the decoder reads from bits numbered as spec/opcode_table.json numbers them: the rows with bits are the
special-function slot's 32-bit words; 40, 56 and 64 bits read as a scalar word, a memory word and a microword. -/
def decodeTableWord (nbits w : Nat) : Option Instr :=
  let r := match nbits with
    | 32 => decode .special w
    | 40 => decode .scalar w
    | 56 => decode .memory w
    | 64 => decode .micro w
    | _ => .error .unassigned
  match r with
  | .ok i => some i
  | .error _ => none

/-! ## Register writes that are device events (03 R41, 02 R28, R29, 17 R338) -/

/-- The event that a write to the PF's Reckoner block is: the registers with behaviour of their own, else a plain register write. -/
def decodePfWrite (off size : Nat) (val : BitVec 64) : Event :=
  let plain := Event.mk .registerWrite (.reg .pf off size val)
  let v32 := val.truncate 32
  if size == 4 && off == 0x10 then ⟨.tadjWrite, .val val⟩
  else if size == 8 && off == 0x18 then ⟨.tsetWrite, .val val⟩
  else if (size == 4 || size == 8) && off == 0x100 then ⟨.tretireWrite, .val val⟩
  else if size == 4 && off == 0x108 then
    match val.toNat / 2^14 % 4 with
    | 1 => ⟨.tractResume, .task (Fin.ofNat 8192 val.toNat)⟩
    | 2 => ⟨.tractAbort, .task (Fin.ofNat 8192 val.toNat)⟩
    | _ => plain
  else if 0x10000 ≤ off && off < 0x10A00 then
    let p : Part := Fin.ofNat 40 ((off - 0x10000) / 64)
    let o := (off - 0x10000) % 64
    let sized : Bool := (size == 1 || size == 2 || size == 4 || size == 8) && off % size == 0
    if sized && o ≤ 51 && 48 < o + size then ⟨.dlctlWrite, .taskRange p (Fin.ofNat 64 o) (Fin.ofNat 9 size) val⟩
    else if sized && o ≤ 43 && 40 < o + size then ⟨.taskRangeWrite, .taskRange p (Fin.ofNat 64 o) (Fin.ofNat 9 size) val⟩
    else plain
  else if size == 8 && 0x80000 ≤ off && off < 0x800C0 && off % 8 == 0 then ⟨.rownWrite, .rod (Fin.ofNat 24 ((off - 0x80000) / 8)) val⟩
  else if size == 8 && 0x81000 ≤ off && off < 0x81680 && off % 8 == 0 then ⟨.cplaceWrite, .coreVal (Fin.ofNat 208 ((off - 0x81000) / 8)) val⟩
  else if size == 4 && 0x82000 ≤ off && off < 0x82200 && off % 4 == 0 && (off - 0x82000) % 256 < 164 then
    ⟨.l2srWrite, .l2 (Fin.ofNat 2 ((off - 0x82000) / 256)) (Fin.ofNat 41 ((off - 0x82000) % 256 / 4)) v32⟩
  else if (size == 4 || size == 8) && (off == 0x82200 || off == 0x82208) then ⟨.cgplaceWrite, .dieVal (Fin.ofNat 2 ((off - 0x82200) / 8)) val⟩
  else if size == 8 && 0xC0000 ≤ off && off < 0xC4000 && off % 64 == 16 then
    ⟨.fmwctlWrite, .window (Fin.ofNat 2 ((off - 0xC0000) / 0x2000)) (Fin.ofNat 4 ((off - 0xC0000) / 0x800 % 4))
      (Fin.ofNat 16 ((off - 0xC0000) % 0x800 / 64)) val⟩
  else if size == 4 && off == 0xE1008 then ⟨.shootdown, .val val⟩
  else if size == 8 && 0xE1100 ≤ off && off < 0xE1140 && off % 8 == 0 then ⟨.pfenceWrite, .pfence (Fin.ofNat 8 ((off - 0xE1100) / 8)) val⟩
  else if size == 4 && (off == 0xE2010 || off == 0xE2050) then
    let d : Die := Fin.ofNat 2 ((off - 0xE2000) / 0x40)
    match v32.toNat % 8 with
    | 1 => ⟨.frameAssign, .dieVal d val⟩
    | 2 => ⟨.frameRelease, .dieVal d val⟩
    | 3 => ⟨.frameScrub, .dieVal d val⟩
    | 4 => ⟨.frameQuery, .dieVal d val⟩
    | _ => plain
  else if size == 8 && 0xF0400 ≤ off && off < 0xF0680 && off % 16 == 0 then ⟨.svcbaseWrite, .part (Fin.ofNat 40 ((off - 0xF0400) / 16)) val⟩
  else if size == 4 && 0xF3000 ≤ off && off < 0xF4800 && off % 64 == 0 then
    let v : Vf := Fin.ofNat 96 ((off - 0xF3000) / 64)
    match v32.toNat % 8 with
    | 1 => ⟨.migrationRound, .vfVal v v32⟩
    | 2 => ⟨.migrationStop, .vfVal v v32⟩
    | 3 => ⟨.migrationExport, .vfVal v v32⟩
    | 4 => ⟨.migrationImport, .vfVal v v32⟩
    | 5 => ⟨.migrationResume, .vfVal v v32⟩
    | _ => plain
  else if size == 8 && 0xF5000 ≤ off && off < 0xF5500 && off % 32 == 8 then ⟨.kvpctlWrite, .part (Fin.ofNat 40 ((off - 0xF5000) / 32)) val⟩
  else if size == 4 && off == 0xF8008 then ⟨.svncommitWrite, .val val⟩
  else if (size == 4 || size == 8) && off == 0xF8300 then ⟨.tempThresholdWrite, .threshold false v32⟩
  else if (size == 4 || size == 8) && off == 0xF8308 then ⟨.tempThresholdWrite, .threshold true v32⟩
  else if (size == 4 || size == 8) && off == 0xF8310 then ⟨.tripclrWrite, .val val⟩
  else plain

/-- The event that a write to a VF's BAR0 is. -/
def decodeVfWrite (v : Vf) (off size : Nat) (val : BitVec 64) : Event :=
  if size == 4 && off == 0x00 then ⟨.qcfgWrite, .vfVal v (val.truncate 32)⟩
  else if size == 4 && off == 0x08 then ⟨.qtailWrite, .vfVal v (val.truncate 32)⟩
  else if size == 4 && off == 0x28 then ⟨.cqcfgWrite, .vfVal v (val.truncate 32)⟩
  else ⟨.registerWrite, .reg (.vf v) off size val⟩

/-! ## The encoder -/

def sw (op rest : Nat) : Option (SlotKind × Nat) := some (.scalar, op * 2^32 + rest)
def vw (row rest : Nat) : Option (SlotKind × Nat) := some (.vector, row * 2^31 + rest)
def fw (op rest : Nat) : Option (SlotKind × Nat) := some (.special, op * 2^26 + rest)
def mw (op rest : Nat) : Option (SlotKind × Nat) := some (.memory, op * 2^48 + rest)
def uw (op rest : Nat) : Option (SlotKind × Nat) := some (.micro, op * 2^58 + rest)

/-- The slot word of an instruction, from the same tables (05 R86 to R96, 13 R268); a device event has none. -/
def encode : Instr → Option (SlotKind × Nat)
  | .nop => sw 0 0
  | .add f => sw 0x01 (encSR f)
  | .sub f => sw 0x02 (encSR f)
  | .and f => sw 0x03 (encSR f)
  | .or f => sw 0x04 (encSR f)
  | .xor f => sw 0x05 (encSR f)
  | .andn f => sw 0x06 (encSR f)
  | .shl f => sw 0x07 (encSR f)
  | .shr f => sw 0x08 (encSR f)
  | .sar f => sw 0x09 (encSR f)
  | .rol f => sw 0x0A (encSR f)
  | .min f => sw 0x0B (encSR f)
  | .max f => sw 0x0C (encSR f)
  | .minu f => sw 0x0D (encSR f)
  | .maxu f => sw 0x0E (encSR f)
  | .mul f => sw 0x0F (encSR f)
  | .mulh f => sw 0x10 (encSR f)
  | .mulhu f => sw 0x11 (encSR f)
  | .div f => sw 0x12 (encSR f)
  | .divu f => sw 0x13 (encSR f)
  | .rem f => sw 0x14 (encSR f)
  | .remu f => sw 0x15 (encSR f)
  | .sel f => sw 0x16 (encSR f)
  | .bfx f => sw 0x18 (encSBf f)
  | .bfxu f => sw 0x19 (encSBf f)
  | .bfi f => sw 0x1A (encSBf f)
  | .clz f => sw 0x1B (encSU f)
  | .ctz f => sw 0x1C (encSU f)
  | .popc f => sw 0x1D (encSU f)
  | .brev f => sw 0x1E (encSU f)
  | .cmpeq f => sw 0x20 (encSP f)
  | .cmpne f => sw 0x21 (encSP f)
  | .cmplt f => sw 0x22 (encSP f)
  | .cmple f => sw 0x23 (encSP f)
  | .cmpltu f => sw 0x24 (encSP f)
  | .cmpleu f => sw 0x25 (encSP f)
  | .pand f => sw 0x26 (encSQ f)
  | .por f => sw 0x27 (encSQ f)
  | .pxor f => sw 0x28 (encSQ f)
  | .cmpeqi f => sw 0x30 (encSPI f)
  | .cmpnei f => sw 0x31 (encSPI f)
  | .cmplti f => sw 0x32 (encSPI f)
  | .cmplei f => sw 0x33 (encSPI f)
  | .cmpltui f => sw 0x34 (encSPI f)
  | .cmpleui f => sw 0x35 (encSPI f)
  | .addi f => sw 0x41 (encSI f)
  | .subi f => sw 0x42 (encSI f)
  | .andi f => sw 0x43 (encSI f)
  | .ori f => sw 0x44 (encSI f)
  | .xori f => sw 0x45 (encSI f)
  | .shli f => sw 0x47 (encSSh f)
  | .shri f => sw 0x48 (encSSh f)
  | .sari f => sw 0x49 (encSSh f)
  | .mini f => sw 0x4B (encSI f)
  | .maxi f => sw 0x4C (encSI f)
  | .muli f => sw 0x4F (encSI f)
  | .movi f => sw 0x50 (encSMovi f)
  | .movk f => sw 0x51 (encSK f)
  | .mfs f => sw 0x60 (encSMfs f)
  | .mts f => sw 0x61 (encSMts f)
  | .widf f => sw 0x62 (encSLevel f)
  | .br imm => sw 0x80 (imm.toNat)
  | .brany f => sw 0x81 (encCTest f)
  | .brall f => sw 0x82 (encCTest f)
  | .brgz f => sw 0x83 (encCGangA f)
  | .brgnz f => sw 0x84 (encCGangA f)
  | .call f => sw 0x85 (encCGangD f)
  | .ret g => sw 0x86 ((48 + g.val) * 2^16)
  | .loop f => sw 0x88 (encCLoop f)
  | .loopi f => sw 0x89 (encCLoopI f)
  | .lbrk t => sw 0x8A (encGuard t)
  | .lidx f => sw 0x8B (encCLidx f)
  | .wait f => sw 0x8C (encCWait f)
  | .schsel => sw 0x8D 0
  | .endK => sw 0x8E 0
  | .trap f => sw 0x90 (encCT f)
  | .brk g => sw 0x91 (encGuard g)
  | .svc f => sw 0x92 (encCT f)
  | .savem f => sw 0x93 (encCSavem f)
  | .slack f => sw 0x94 (encCSlack f)
  | .vadd f => vw 0x01 (encVB f)
  | .vsub f => vw 0x02 (encVB f)
  | .vmul f => vw 0x03 (encVB f)
  | .vfma f => vw 0x04 (encVB f)
  | .vfnma f => vw 0x05 (encVB f)
  | .vmin f => vw 0x06 (encVB f)
  | .vmax f => vw 0x07 (encVB f)
  | .vabs f => vw 0x08 (encVU f)
  | .vneg f => vw 0x09 (encVU f)
  | .vcmpeq f => vw 0x0A (encVCmp f)
  | .vcmpne f => vw 0x0B (encVCmp f)
  | .vcmplt f => vw 0x0C (encVCmp f)
  | .vcmple f => vw 0x0D (encVCmp f)
  | .vsel f => vw 0x0E (encVB f)
  | .vmov f => vw 0x0F (encVU f)
  | .vlogic f => vw 0x10 (encVLogicF f)
  | .vshl f => vw 0x11 (encVB f)
  | .vshr f => vw 0x12 (encVB f)
  | .vsar f => vw 0x13 (encVB f)
  | .vcvt f => vw 0x14 (encVCvtF f)
  | .vcvtn f => vw 0x15 (encVNarrowF f)
  | .vcvtw f => vw 0x16 (encVNarrowF f)
  | .vpack f => vw 0x17 (encVPackF f)
  | .vunpkl f => vw 0x18 (encVUnpkF f)
  | .vunpkh f => vw 0x19 (encVUnpkF f)
  | .vbcst f => vw 0x1A (encVBcstF f)
  | .vext f => vw 0x1B (encVExtF f)
  | .vins f => vw 0x1C (encVInsF f)
  | .vperm f => vw 0x1D (encVPermF f)
  | .vxcopy f => vw 0x1E (encVPermF f)
  | .vred f => vw 0x1F (encVRedF f)
  | .vxred f => vw 0x20 (encVRedF f)
  | .vscan f => vw 0x21 (encVRedF f)
  | .vhist f => vw 0x22 (encVHistF f)
  | .vbmrg f => vw 0x23 (encVBmrgF f)
  | .vbcx f => vw 0x24 (encVBcxF f)
  | .vbcxx f => vw 0x25 (encVBcxF f)
  | .vargmax f => vw 0x26 (encVArgF f)
  | .vclamp f => vw 0x27 (encVB f)
  | .jseed f => vw 0x30 (encJBin f)
  | .jconst f => vw 0x31 (encJUn f)
  | .jget f => vw 0x32 (encJIdx f)
  | .jput f => vw 0x33 (encJIdx f)
  | .jder f => vw 0x34 (encJDerF f)
  | .jshift f => vw 0x35 (encJShiftF f)
  | .jscale f => vw 0x36 (encJBin f)
  | .jdiv f => vw 0x37 (encJBin f)
  | .jpowi f => vw 0x38 (encJPowF f)
  | .jflagClear a => vw 0x39 (encSOp a * 512 + 1)
  | .jflagGet d => vw 0x39 (2^28 + d.val * 2^17 + 1)
  | .fnop => fw 0 0
  | .rcp f => fw 0x01 (encFForm f)
  | .rsq f => fw 0x02 (encFForm f)
  | .sqrt f => fw 0x03 (encFForm f)
  | .exp2 f => fw 0x04 (encFForm f)
  | .log2 f => fw 0x05 (encFForm f)
  | .exp f => fw 0x06 (encFForm f)
  | .log f => fw 0x07 (encFForm f)
  | .sin f => fw 0x08 (encFForm f)
  | .cos f => fw 0x09 (encFForm f)
  | .tanh f => fw 0x0A (encFForm f)
  | .sigm f => fw 0x0B (encFForm f)
  | .rcpstep f => fw 0x0C (encFForm f)
  | .rsqstep f => fw 0x0D (encFForm f)
  | .jsincos f => fw 0x10 (encFForm f)
  | .mnop => mw 0 0
  | .ld8u f => mw 0x01 (encMLd f)
  | .ld16u f => mw 0x02 (encMLd f)
  | .ld32u f => mw 0x03 (encMLd f)
  | .ld64 f => mw 0x04 (encMLd f)
  | .ld8s f => mw 0x05 (encMLd f)
  | .ld16s f => mw 0x06 (encMLd f)
  | .ld32s f => mw 0x07 (encMLd f)
  | .st8 f => mw 0x08 (encMSt f)
  | .st16 f => mw 0x09 (encMSt f)
  | .st32 f => mw 0x0A (encMSt f)
  | .st64 f => mw 0x0B (encMSt f)
  | .vld f => mw 0x10 (encMVec f)
  | .vst f => mw 0x11 (encMVec f)
  | .vgath f => mw 0x12 (encMVec f)
  | .vscat f => mw 0x13 (encMVec f)
  | .prf f => mw 0x14 (encMAddr f)
  | .sbind f => mw 0x20 (encMBind f)
  | .sunbind z => mw 0x21 ((232 + z.val) * 2^37)
  | .spos f => mw 0x22 (encMSpos f)
  | .copy f => mw 0x28 (encMDesc f)
  | .copyp f => mw 0x29 (encMDesc f)
  | .fill f => mw 0x2A (encMDesc f)
  | .cflush f => mw 0x30 (encMAddr f)
  | .cinv f => mw 0x31 (encMAddr f)
  | .cclean f => mw 0x32 (encMAddr f)
  | .migr f => mw 0x34 (encMMigr f)
  | .fenceX f => mw 0x40 (encMFence f)
  | .fenceOwn f => mw 0x41 (encMPred f)
  | .fenceFar f => mw 0x42 (encMAddr f)
  | .drain f => mw 0x43 (encMDrain f)
  | .ldacq f => mw 0x44 (encMAtom f)
  | .strel f => mw 0x45 (encMRed f)
  | .redaddI32 f => mw 0x48 (encMRed f)
  | .redaddq f => mw 0x49 (encMRed f)
  | .redminI32 f => mw 0x4A (encMRed f)
  | .redmaxI32 f => mw 0x4B (encMRed f)
  | .redand f => mw 0x4C (encMRed f)
  | .redor f => mw 0x4D (encMRed f)
  | .redxor f => mw 0x4E (encMRed f)
  | .redaddF32 f => mw 0x4F (encMRed f)
  | .atomadd f => mw 0x50 (encMAtom f)
  | .atomswp f => mw 0x51 (encMAtom f)
  | .atomcas f => mw 0x52 (encMAtom f)
  | .sync f => mw 0x60 (encMSync f)
  | .barcfg f => mw 0x61 (encMBarcfg f)
  | .sstep => mw 0x62 (8)
  | .mcall f => mw 0x70 (encMCallF f)
  | .mlat f => mw 0x71 (encMLatF f)
  | .msetp f => mw 0x72 (encMSetpF f)
  | .mparm f => mw 0x73 (encMParmF f)
  | .accz f => mw 0x74 (encMAcc f)
  | .accrd f => mw 0x75 (encMAccR f)
  | .accwr f => mw 0x76 (encMAccR f)
  | .norm f => mw 0x77 (encMAcc f)
  | .nsend f => mw 0xA0 (encMDesc f)
  | .nrecv f => mw 0xA1 (encMDesc f)
  | .ncoll f => mw 0xA2 (encMDesc f)
  | .selacc f => mw 0xC0 (encMDesc f)
  | .draw f => mw 0xC1 (encMPair f)
  | .kvalloc f => mw 0xC2 (encMPair f)
  | .kvfree f => mw 0xC3 (encMPair f)
  | .kvcount f => mw 0xC4 (encMKvcount f)
  | .tithe f => mw 0xC8 (encMDesc f)
  | .tmap f => mw 0xC9 (encMDesc f)
  | .tclrd f => mw 0xCA (encMDesc f)
  | .launch f => mw 0xE0 (encMDesc f)
  | .release f => mw 0xE1 (encMRelease f)
  | .taintrdScalar f => mw 0x63 (encMTaintRdS f)
  | .taintrdVector f => mw 0x63 (encMTaintRdV f)
  | .taintclrScalar f => mw 0x64 (encMTaintClrS f)
  | .taintclrVector f => mw 0x64 (encMTaintClrV f)
  | .uend => uw 0 0
  | .ukstep f => uw 1 (encUKs f)
  | .uaddi f => uw 2 (encUImm f)
  | .uadd f => uw 3 (encU3 f)
  | .uloop f => uw 4 (encULoopF f)
  | .unorm f => uw 5 (encU2 f)
  | .uzero f => uw 6 (encU2 f)
  | .umovi f => uw 7 (encUMoviF f)
  | _ => none

end Sys2Proof
end

