-- ==== Sys2Proof/Machine/State.lean ====
section
/-! DEFINITION. The state of the machine as plain data, the reasons a step can stop, and the state after reset. -/

namespace Sys2Proof.Machine

open Sys2Proof

/-! ## Stops -/

/-- Faults of the model. The spec's own faults and traps are next states; these stop the model's run. -/
inductive Fault where
  /-- A slot word waiting on `issue` does not decode. Raised by `step` only for a word placed from outside the sequencer, which checks every bundle first (05 R79). Safe: the spec traps such a bundle before any slot of it performs. -/
  | undecodedWord
deriving DecidableEq, Repr

/-- Refusals of the model. -/
inductive Refusal where
  /-- The instruction has no meaning yet. Raised by `exec` alone. Safe: the run stops. -/
  | notModelled (mnemonic : String)
deriving DecidableEq, Repr

/-! ## Tables and values -/

/-- A sparse table: keys strictly rising, no entry equal to the table's default. -/
abbrev Tbl (α : Type) := List (Nat × α)

/-- Byte memory: addresses strictly rising, no byte equal to what an unlisted address reads as. -/
abbrev Memory := List Host.Cell

/-- A 64-bit value with its taint bit (15 R308). -/
structure TWord where
  v : Word
  t : Bool
deriving DecidableEq, Repr

/-- A window register value with a taint bit per lane. -/
structure TVec where
  v : VWord
  t : LaneMask
deriving DecidableEq, Repr

/-- A mask with a taint bit per lane. -/
structure TMask where
  v : LaneMask
  t : LaneMask
deriving DecidableEq, Repr

/-- A predicate with its taint bit. -/
structure TBit where
  v : Bool
  t : Bool
deriving DecidableEq, Repr

/-! ## Issue -/

/-- Where a slot word runs: Rod-unit, bead, slot 0 to 7 (S0 S1 V0 V1 V2 F M0 M1), bundle position, its wait counter, whether its bundle has the loop-end bit. -/
structure Ctx where
  unit : RodUnit
  bead : Fin 8
  slot : Fin 8
  pos : Nat
  ctr : Fin 7
  lend : Bool
deriving DecidableEq, Repr

/-- A slot word or microword handed to execution. -/
structure Pending where
  kind : SlotKind
  word : Nat
  ctx : Ctx
deriving DecidableEq, Repr

/-- One cycle of a sequencer's broadcast (16 R318): a bundle position with the gang values of bead 0's issue (06 R104; keys 16 to 21 hold the loop indices, innermost first, 07 R138, and key 22 bead 0's `%JORD`, 06 R115) and the honoured reuse bits (06 R116), or a stall cycle. -/
inductive Entry where
  | bundle (pos : Nat) (gang : Tbl TWord) (reuse : List Bool)
  | stall
deriving DecidableEq, Repr

/-- What an exposed-latency result writes when it lands (06 R109 to R111). -/
inductive LandKind where
  /-- a named register, and the scalar result queue -/
  | scalar (r : Fin 32) (x : TWord)
  | pred (r : Fin 8) (x : TBit)
  | mask (r : Fin 8) (x : TMask) (lanes : LaneMask)
  /-- lanes of a physical window register, and the vector result queue -/
  | vec (reg : Nat) (x : TVec) (lanes : LaneMask)
  /-- an element of an output stream with its address and its place in program order, and the vector result queue -/
  | out (z : Fin 8) (x : TVec) (write : Bool) (va : Nat) (id : Nat)
  /-- a named register, with no queue entry (11 R230, 15 R305) -/
  | reg (r : Fin 32) (x : TWord)
  /-- lane-private bins (09 R191): for each of 8 physical registers the lanes that add -/
  | hist (reg : Nat) (idx : VWord) (add : VWord) (lanes : LaneMask) (t : LaneMask)
  | flags (f : BitVec 7)
  /-- flags of jet coefficients, one field set per cluster (10 R204) -/
  | jflags (f : List (BitVec 40))
  | jclear (bits : BitVec 40) (cmk : BitVec 8)
  | special (r : SReg) (x : Word)
  | param (i : Fin 8) (x : Word)
  | planes (x : BitVec 5)
  | savemask (x : BitVec 48)
  /-- a bank-loss counter: cleared by a read, raised by losses (06 R115, 07 R128) -/
  | blcClear (i : Fin 8)
  | blcAdd (i : Nat) (by_ : Nat)
  /-- an access of a stream by its bundle: the position rises (11 R228, R230) -/
  | advance (z : Fin 8)
  | taintClear (r : Fin 32)
  | taintClearV (reg : Nat) (lanes : LaneMask)
  /-- the control taint of the bead, set by a tainted Rod-wide test (15 R309) -/
  | control
deriving DecidableEq, Repr

/-- A result in flight with its remaining distance in bundles (06 R117). -/
structure Landing where
  dist : Nat
  slot : Fin 8
  bundle : Nat
  kind : LandKind
deriving DecidableEq, Repr

/-! ## Sequencers -/

structure LoopEntry where
  index : BitVec 32
  count : BitVec 32
  start : Nat
  stop : Option Nat
  p : Bool
deriving DecidableEq, Repr

/-- The pass a Rod-unit runs (01 R18, 02 R38). -/
structure PassRun where
  task : Nat
  launch : Nat
  copy : Nat
  k : Nat
  w : Nat
  skew : Nat
  level : BitVec 2
  part : Nat
deriving DecidableEq, Repr

/-- A SYNC wait (15 R302): barrier, bead 0's cycle, members arrived with the last arrival's cycle. -/
structure SyncWait where
  barrier : Nat
  cycle : Nat
  arrived : List Nat
  last : Nat
deriving DecidableEq, Repr

/-- Why a Rod-unit stops (16 R317). -/
inductive StopCause where
  | abort
  | hold
  | preempt
  | migration
  | flr
deriving DecidableEq, Repr

/-- Progress of a stop: requested, draining, saving, kept in place (16 R316 to R322). -/
inductive StopPhase where
  | requested
  | draining
  | saving
  | kept
deriving DecidableEq, Repr

structure StopState where
  cause : StopCause
  phase : StopPhase
  cycle : Nat
  kind : Nat
  code : Nat
  detail : Nat
  bead : Nat
  pos : Nat
  slot : Option Nat
  due : Nat
  atOnce : Bool
deriving DecidableEq, Repr

/-- A dictionary store and schedule table (position, occ_max, dlen_max) with the launch they record (01 R10, R12). -/
structure Store where
  launch : Nat
  bundles : List (BitVec 384)
  scheds : List (Nat × Nat × Nat)
deriving DecidableEq, Repr

structure Seq where
  run : Option PassRun
  pc : Word
  target : Option (Word × Nat)
  loops : List LoopEntry
  gang : Tbl TWord
  stall : Nat
  replay : Nat
  cycles : Nat
  bars : Tbl (BitVec 8)
  barNext : List (Nat × BitVec 8)
  sync : Option SyncWait
  steps : Nat
  stepWait : Option Nat
  release : Option Nat
  dict : Option Store
  copying : Option Nat
  lines : Tbl (BitVec 512)
  lineDue : Option (Nat × Nat)
  lineBad : Tbl Nat
  preempt : Option Nat
  ended : Bool
  point : Bool
  stop : Option StopState
  latch : List (Option Nat)
  restoring : Option (Nat × Nat)
  /-- every bead has retired its kernel end: the pass is complete, and what it issued still performs (02 R38, 07 R141) -/
  complete : Bool
deriving DecidableEq, Repr

/-! ## Cores -/

/-- A stream register (11 R227, R228). -/
structure Stream where
  bound : Bool
  addr : Word
  desc : Option (BitVec 512)
  position : Nat
  fetched : Nat
  stored : Nat
  slack : Nat
  region : Nat
  buf : List TVec
  /-- elements requested and not yet in the buffer, in walk order: the cycle each is due in, and its place in program order (15 R306, 14 R290) -/
  reqs : List (Nat × Nat)
  code : Nat
  /-- the bundle that bound or unbound the stream last, and the position it found (11 R230) -/
  prior : Option (Nat × Nat)
  /-- cycles in which a bundle has waited for the binding's descriptor and every other stream it waited for had slack (11 R229) -/
  waited : Nat
deriving DecidableEq, Repr

/-- An operand latch of the matrix engine (13 R261, R262). -/
structure OpLatch where
  cls : Nat
  cols : Nat
  w : Nat
  blk : Nat
  tile : Nat
  filled : Bool
  mant : Tbl Int
  scale : Tbl (Int × Int)
  taint : Bool
deriving DecidableEq, Repr

/-- A running microprogram call (13 R277, R281). -/
structure Call where
  op : Nat
  routine : Nat
  upc : Nat
  regs : Tbl Word
  budget : Nat
  flags : BitVec 7
  done : Bool
deriving DecidableEq, Repr

/-- Engine operations (13 R273). -/
inductive EngOp where
  | call (routine : Nat) (regs : Tbl Word) (budget : Nat)
  | mlat (l : Fin 4) (off : Nat)
  | accz (off : Nat) (lanes t : LaneMask)
  | accrd (reg : Nat) (off : Nat) (lanes t : LaneMask) (rnd : BitVec 2)
  | accwr (off : Nat) (lanes : LaneMask) (x : TVec)
  | norm (off : Nat) (lanes t : LaneMask)
deriving DecidableEq, Repr

/-- What an asynchronous operation does. Addresses are virtual. -/
inductive AKind where
  | load (dst : Fin 32) (va : Nat) (bytes : Nat) (signed : Bool) (acq : Bool) (na : Bool)
  | store (va : Nat) (bytes : Nat) (x : TWord) (rel : Bool)
  | vload (reg : Nat) (lanes : List (Nat × Nat × Bool)) (na : Bool)
  | vstore (lanes : List (Nat × Lane × Bool))
  | red (opc : Nat) (va : Nat) (x : TWord)
  | atomic (opc : Nat) (dst : Fin 32) (va : Nat) (x : Word) (y : Word)
  | cache (opc : Nat) (va : Nat)
  | migr (va : Nat) (deadline : Nat)
  | far (va : Nat)
  | copy (opc : Nat) (dst : Fin 32) (va : Nat)
  | net (opc : Nat) (dst : Fin 32) (va : Nat)
  | sel (dst : Fin 32) (va : Nat)
  | draw (dst : Fin 32) (x : Word) (y : Word) (k0 : Word) (k1 : Word)
  | kv (opc : Nat) (dst : Fin 32) (x : Word) (y : Word)
  | tithe (opc : Nat) (dst : Fin 32) (va : Nat)
  | launch (dst : Fin 32) (va : Nat)
  | release (dst : Fin 32) (t : Word) (time : Word)
  /-- network commands that have started (11 R241 to R243): a message sent on an entry, a buffer posted on an entry, a collective with its contexts and number -/
  | sent (dst : Fin 32) (ctx len : Nat)
  | posted (dst : Fin 32) (va ctx size buf : Nat)
  | coll (dst : Fin 32) (desc : BitVec 512) (ctxs : List Nat) (n : Nat)
  /-- a LAUNCH or RELEASE presented to the Reckoner (02 R21, R35) -/
  | asked (dst : Fin 32) (cmd : Command)
  | eng (e : EngOp)
  /-- the descriptor read of SBIND, or of a binding of the launch header (11 R230) -/
  | bind (z : Fin 8) (va : Nat) (start : Bool)
  /-- performed; the status lands at the next superstep release (15 R307): the command's class (11 R221), and the trap's code and detail of one that failed -/
  | landAt (dst : Fin 32) (x : TWord) (cls : Nat) (fail : Option (Nat × Nat))
deriving DecidableEq, Repr

/-- An asynchronous operation outstanding on a core. Its number is its place in program order, `at_` the cycle in which it entered; `acks` is 1 once a command or a call has begun, and for FENCE.FAR the cores that received the serialise, a bit each. -/
structure AOp where
  id : Nat
  slot : Fin 8
  path : Nat
  ctr : Nat
  taint : Bool
  kind : AKind
  due : Nat
  pages : List (Nat × Nat)
  waiting : Bool
  accepted : Bool
  suspended : Bool
  acks : Nat
  at_ : Nat
deriving DecidableEq, Repr

/-- A FENCE.X in force: later-path operations numbered from `bound` wait for first-path operations below it (14 R290). -/
structure Fence where
  bound : Nat
  first : Nat
  later : Nat
deriving DecidableEq, Repr

/-- An element written to an output stream and not yet stored (11 R228). -/
structure OutElem where
  z : Nat
  id : Nat
  va : Nat
  x : TVec
  due : Nat
  slot : Nat
deriving DecidableEq, Repr

/-- An update-only line (14 R295): form, partial words, partition, and when it is evicted. -/
structure UpdLine where
  opc : Nat
  words : Tbl Word
  part : Nat
  due : Nat
deriving DecidableEq, Repr

structure Core where
  n : Tbl TWord
  q : List TWord
  p : Tbl TBit
  m : Tbl TMask
  mp : Tbl Word
  win : Tbl TVec
  vq : List TVec
  scratch : Memory
  scrTaint : Tbl Bool
  acc : Tbl Word
  accTaint : Tbl Bool
  flg : BitVec 7
  rnd : BitVec 2
  jord : BitVec 3
  jflg : Tbl (BitVec 40)
  vwb : BitVec 12
  cmk : BitVec 8
  svm : BitVec 48
  occ : BitVec 16
  dlen : BitVec 8
  slip : BitVec 8
  blc : Tbl (BitVec 32)
  mprec : BitVec 5
  ctrs : Tbl Nat
  /-- counted core-local loads whose value has not landed: the counter, the cycle six after the issue, and the bundle and slot of the load (11 R221, R222) -/
  counting : List (Nat × Nat × Nat × Nat)
  streams : Tbl Stream
  inflight : List Landing
  series : Nat
  latches : Tbl OpLatch
  ustore : Tbl Word
  ulen : Tbl (Nat × Nat)
  ulaunch : Nat
  call : Option Call
  ops : List AOp
  fences : List Fence
  /-- serialises received: the issuing core, its FENCE.FAR, and the operations to perform before the acknowledgement (14 R292) -/
  serial : List (Nat × Nat × List Nat)
  held : List AOp
  drain : Option (Nat × Nat)
  bundleNo : Nat
  l1 : Tbl (BitVec 512)
  upd : Tbl UpdLine
  outq : List OutElem
  bq : List Entry
  cur : Tbl TWord
  /-- service records of the bundle that the bead issued last, not yet posted (07 R143) -/
  svc : List (List Byte)
  ctlTaint : Bool
  failure : Option (Nat × Nat)
  parked : Bool
  limits : Option (List Nat)
  ending : Bool
  retired : Bool
  wid : Word
  ordinal : Nat
  unit : Nat
  bead : Nat
  launch : Nat
  /-- the partition of the last pass, and the launches that have been placed on this core (01 R20; 14 R289) -/
  part : Nat
  placed : List Nat
deriving DecidableEq, Repr

end Sys2Proof.Machine

namespace Sys2Proof.Config

/-- The implementation's packing of a sequencer's resumable state into the 192 bytes of a slot's header that hold it (16 R321; log 11). -/
opaque packSeq : Machine.Seq → Nat → BitVec 8

/-- The implementation's packing of a core's state into the areas of its region, by the byte's offset: what the area holds, and the barrier masks (16 R321; log 11). -/
opaque packCore : Machine.Core → Machine.Tbl (BitVec 8) → Nat → BitVec 8

end Sys2Proof.Config

namespace Sys2Proof.Machine

open Sys2Proof

/-! ## The Reckoner -/

inductive TaskState where
  | free
  | pending
  | ready
  | running
  | suspended
deriving DecidableEq, Repr

/-- One copy of a launch: next pass, passes complete, slip sum, whether ended, aborted or held, its trap, and whether that trap came before the other copy's. -/
structure CopyState where
  next : Nat
  done : Nat
  slip : Nat
  ready : Option Nat
  aborted : Bool
  held : Bool
  trap : Option (Nat × Nat)
  first : Bool
deriving DecidableEq, Repr

structure Task where
  st : TaskState
  cmd : Command
  part : Nat
  vf : Option Nat
  relTaken : Bool
  relField : Word
  taken : Word
  eff : Option Word
  hdr : BitVec 1024
  img : BitVec 512
  routines : List (Nat × Nat)
  scheds : List (Nat × Nat × Nat)
  util : Nat
  slots : Nat
  ends : Nat
  launch : Nat
  copies : List CopyState
  start : Option Word
  taintSeen : Bool
  hold : Option (Nat × Nat × Nat × Nat)
  retire : Bool
  ending : Option (Nat × Nat × Bool)
  struck : Bool
  /-- the time D minus mirror_margin has come: either copy's chunk may be sent (03 R60) -/
  margin : Bool
  /-- the cycle in which that time came -/
  marginAt : Nat
  trapAt : Option (Nat × Nat × Nat)
deriving DecidableEq, Repr

/-- Per partition: completion runs of 03 R57, last level change, since when be_target stands, stopped for migration. -/
structure PartDyn where
  low : Nat
  high : Nat
  change : Word
  beSince : Word
  stopped : Bool
deriving DecidableEq, Repr

/-- Per session: whether a chunk was sent since the record became valid, and from which die. -/
structure SessDyn where
  sent : Bool
  die : Nat
deriving DecidableEq, Repr

/-- A saved context: slot state, header fields, sequencer and cores (16 R320 to R323). -/
structure Saved where
  state : Nat
  part : Nat
  vf : Option Nat
  kind : Nat
  seq : Seq
  cores : List Core
deriving DecidableEq, Repr

/-! ## Translation -/

inductive FrameState where
  | free
  | queued
  | scrubbing
  | clean
  | owned (o : Nat)
deriving DecidableEq, Repr

/-- A cached leaf translation (12 R251). -/
structure MtlbEntry where
  die : Nat
  part : Nat
  va : Nat
  size : Nat
  frame : Nat
  w : Bool
  d : Bool
deriving DecidableEq, Repr

/-- An ATC entry (12 R258): its identity, and the partition that asked for it. -/
structure AtcEntry where
  ident : Nat
  part : Nat
  page : Nat
  size : Nat
  target : Nat
  read : Bool
  write : Bool
deriving DecidableEq, Repr

/-- An outstanding Translation Request, or Page Request when `pri`, under an identity (12 R258, 19 R370): whether a load and whether a store wants the page, and the ranges that
invalidations have covered since it was sent (12 R259). -/
structure AtsReq where
  part : Nat
  ident : Nat
  page : Nat
  read : Bool
  write : Bool
  pri : Bool
  covered : List (Nat × Nat)
deriving DecidableEq, Repr

/-- A page pull in progress (12 R257). -/
structure Pull where
  die : Nat
  part : Nat
  va : Nat
  size : Nat
  entry : Nat
  frame : Nat
  back : Nat
  due : Nat
  /-- the device time of its start, and the bytes that are in the frame -/
  since : Nat
  done : Nat
deriving DecidableEq, Repr

/-- A shoot-down in progress (12 R253): what it covers, targets still to acknowledge (0 and 1 the MTLBs, 2 the ATC, 3 the L1s, 1000 + c chip c), when sent, whether it releases a frame,
and the operations (target, core, number) that a target's acknowledgement waits for. -/
structure Shoot where
  scope : Nat
  addr : Nat
  size : Nat
  part : Nat
  targets : List Nat
  sent : Word
  release : Bool
  ops : List (Nat × Nat × Nat)
deriving DecidableEq, Repr

/-! ## Network, outputs, inputs -/

/-- A message held by the endpoint. -/
structure Message where
  tag : Word
  payload : List Byte
deriving DecidableEq, Repr

/-- A contribution of another member to a collective (11 R243). -/
structure Contribution where
  ctx : Nat
  n : Nat
  op : BitVec 8
  m : BitVec 8
  count : BitVec 32
  root : BitVec 8
  data : List Lane
deriving DecidableEq, Repr

/-- What leaves the device. -/
inductive OutMsg where
  | msixPf (vector : Nat)
  | msixVf (v : Nat)
  | chunk (session context port : Nat) (time : Word) (bytes : List Byte)
  | message (ctx : Nat) (tag : Word) (bytes : List Byte)
  | contribution (c : Contribution)
  | atsRequest (part : Nat) (ident : Nat) (page : Nat) (write : Bool)
  | pageRequest (part : Nat) (ident : Nat) (page : Nat) (write : Bool)
  | invalidationDone (tag : BitVec 8)
  | shootdown (target : Nat)
  | shootdownAck (chip : Nat)
  | peerAnswer (chip : Nat) (ok : Bool) (data : List Byte)
  | readAnswer (val : Word)
  | configRetry (fn : Nat)
  | configDone (fn : Nat)
  | spdm (bytes : List Byte)
deriving DecidableEq, Repr

/-- What reaches the device from outside. -/
inductive Input where
  | event (e : Event)
  | write (sp : RegSpace) (off : Nat) (size : Nat) (val : Word)
  | read (sp : RegSpace) (off : Nat) (size : Nat)
  | memory (addr : Nat) (bytes : List Byte)
  | sendAck (ctx : Fin 1024) (n : Nat)
  | monitor (i : Fin 64) (val : BitVec 32)
  /-- a peer answers an access of a core with a permission error (12 R247): an operation, or the elements of a stream -/
  | peerDenied (core : Fin 208) (id : Nat)
  | peerDeniedStream (core : Fin 208) (z : Fin 8)
  /-- a peer begins, or ceases, to answer a partition's loads or stores of a page with a permission error (12 R247) -/
  | peerPage (part : Fin 40) (page : BitVec 52) (store denies : Bool)
  /-- the host masks or unmasks an MSI-X vector of the PF (function 0) or of VF v (function v + 1) (17 R340) -/
  | msixMask (fn : Fin 97) (vec : Fin 2048) (on : Bool)
deriving DecidableEq, Repr

/-- A completion whose write has been issued and has not performed (17 R337): the launch whose passes must drain first, the partition whose contexts translate its
address, the VF whose completion queue takes it, its task, the signal address, the 30 bytes. -/
structure SigWrite where
  wait : Option Nat
  part : Nat
  vf : Option Nat
  task : Nat
  addr : Nat
  bytes : List Byte
deriving DecidableEq, Repr

/-- The Reckoner, its queues and the retirement state. -/
structure Reckoner where
  tasks : Tbl Task
  parts : Tbl PartDyn
  sess : Tbl SessDyn
  saved : Tbl Saved
  netQ : List (Nat × Word)
  devQ : List (Nat × Nat)
  nextFree : Nat
  rr : Nat
  launches : Nat
  cpRead : Tbl Nat
  cqPending : Tbl Nat
  cqOldest : Tbl Word
  retired : List (Nat × Nat)
  lost : List Nat
  migStop : List Nat
  /-- the cycle from which a Rod-unit may be dispatched to, its pool having been zeroed (03 R62, 04 R66) -/
  notBefore : Tbl Nat
  /-- completions issued, oldest first -/
  sigQ : List SigWrite
  /-- a request taken whose decision waits for a translation, with the time it was taken -/
  busy : Option (Event × Nat)
  /-- pre-emption requests on their way: Rod-unit and arrival cycle (03 R52); and the Rods that a request covers whole (03 R51) -/
  asks : Tbl Nat
  joint : List Nat
  /-- for a Rod-unit that a request names, the launch and the copy it was made for (03 R51, 20 R372) -/
  askFor : Tbl (Nat × Nat)
deriving DecidableEq, Repr

/-- Translation, frames, migration and shoot-down state beside the registers. -/
structure Xlat where
  mtlb : List MtlbEntry
  atc : List AtcEntry
  reqs : List AtsReq
  invals : List (Nat × BitVec 8 × List (Nat × Nat))
  pulls : List Pull
  frames : Tbl FrameState
  left : List Nat
  scrub : List (Nat × Nat × Nat)
  shoot : Option Shoot
  shootQ : List Shoot
  l2change : List (Nat × Nat × Nat × Nat)
  discard : List (Nat × Nat)
  /-- host pages that a Page Request failed for, with the cycle up to which waiting requests take the failure -/
  failed : List (Nat × Nat × Nat)
  /-- accesses that peers deny: partition, virtual page of 4 KiB, whether a store (12 R247) -/
  denied : List (Nat × Nat × Bool)
  /-- writes of the device that wait while an L2 changes the range that serves it: address, bytes, whether the PF's vector 4 follows (04 R69) -/
  devWrites : List (Nat × List Byte × Bool)
deriving DecidableEq, Repr

structure Network where
  posted : Tbl (List (Nat × Nat))
  held : Tbl (List Message)
  collNo : Tbl Nat
  contribs : List Contribution
  sentQ : Tbl (List (Nat × Nat))
  abandoned : List Nat
  /-- matched packets whose payload waits for a translation, oldest first: port, context, ingress stamp, payload (02 R33) -/
  packets : List (Nat × Nat × Word × List Byte)
  /-- the last reading of each Ethernet port's timestamp unit: the cycle in which it was taken, and the reading (03 R39) -/
  stamps : Tbl (Nat × Nat)
deriving DecidableEq, Repr

/-- Bring-up, trust and monitors beside the registers (18). -/
structure Platform where
  power : Bool
  started : Nat
  unitDue : Nat
  recovery : Bool
  pfReady : Bool
  vfEnabled : Tbl Nat
  vfReady : List Nat
  flr : List Nat
  ecdsaHash : BitVec 384
  lmsHash : BitVec 384
  minSvn : Tbl Nat
  flash : Tbl (List Byte)
  image : Tbl (Nat × Nat)
  debug : Byte
  heartbeat : Tbl Nat
  cpReset : List Nat
  crossed : List Nat
  tripped : List (Nat × Nat)
  /-- monitors that have sensed a value since power-good (18 R367) -/
  sensed : List Nat
  /-- MSI-X vectors that are masked, and those of them that are pending (17 R340): function 0 is the PF, v + 1 is VF v -/
  msixMask : List (Nat × Nat)
  msixPend : List (Nat × Nat)
deriving DecidableEq, Repr

/-- The machine. -/
structure State where
  /-- cycles since reset (00 R1) -/
  cycle : Nat
  /-- device time in units of 2^-32 ns, and the remainder of the division by 3 (03 R39) -/
  devTime : Nat
  devRem : Nat
  /-- byte memory over physical addresses, the owner code in [63:60] -/
  mem : Memory
  /-- taint bit of a 32-byte sector, and its launch, superstep and ordinal tags (15 R308, R310) -/
  secTaint : Tbl Bool
  secTag : Tbl (Nat × Nat × Nat)
  /-- the PF's Reckoner block by byte offset (03 R41) -/
  pf : Memory
  /-- BAR0 of VF v at 256 v, its ring window at 2^18 v, the CP rings at 4096 cp -/
  bar0 : Memory
  bar2 : Memory
  cpRing : Memory
  seqs : Tbl Seq
  cores : Tbl Core
  rk : Reckoner
  xl : Xlat
  net : Network
  plat : Platform
  /-- slot words handed to execution, the events due in this cycle, the context and the operands of what runs -/
  issue : List Pending
  agenda : List Event
  cur : Ctx
  ev : EvArg
  inputs : List (Nat × Input)
  out : List OutMsg
  /-- the counter that free values are drawn with -/
  freeCtr : Nat
deriving DecidableEq, Repr

/-! ## Reset -/

/-- A sequencer that runs nothing. -/
def Seq.idle : Seq :=
  { run := none, pc := 0, target := none, loops := [], gang := [], stall := 0, replay := 0, cycles := 0, bars := [], barNext := [],
    sync := none, steps := 0, stepWait := none, release := none, dict := none, copying := none, lines := [], lineDue := none, lineBad := [],
    preempt := none, ended := false, point := false, stop := none, latch := [], restoring := none, complete := false }

/-- A core whose every register holds its pass-start value and whose pool is zero (01 R20, 06 R102, R106). -/
def Core.blank : Core :=
  { n := [], q := [], p := [], m := [], mp := [], win := [], vq := [], scratch := [], scrTaint := [], acc := [], accTaint := [],
    flg := 0, rnd := 0, jord := 0, jflg := [], vwb := 0, cmk := 0xFF, svm := 0, occ := 0, dlen := 0, slip := 0, blc := [], mprec := 16,
    ctrs := [], counting := [], streams := [], inflight := [], series := 0, latches := [], ustore := [], ulen := [], ulaunch := 0, call := none,
    ops := [], fences := [], serial := [], held := [], drain := none, bundleNo := 0, l1 := [], upd := [], outq := [], bq := [], cur := [], svc := [],
    ctlTaint := false, failure := none, parked := false, limits := none, ending := false, retired := false, wid := 0, ordinal := 0, unit := 0, bead := 0, launch := 0, part := 0, placed := [] }

def CopyState.fresh : CopyState := ⟨0, 0, 0, none, false, false, none, false⟩

/-- An entry without a task. Its partition word is what `%PWORD` holds at reset: 14, 28 and 6 granules (04 R71). -/
def Task.empty : Task :=
  { st := .free, cmd := 0, part := 0, vf := none, relTaken := false, relField := 0, taken := 0, eff := none, hdr := 0xE706 <<< 320, img := 0,
    routines := [], scheds := [], util := 0, slots := 0, ends := 0, launch := 0, copies := [], start := none, taintSeen := false,
    hold := none, retire := false, ending := none, struck := false, margin := false, marginAt := 0, trapAt := none }

def Reckoner.reset : Reckoner :=
  { tasks := [], parts := [], sess := [], saved := [], netQ := [], devQ := [], nextFree := 0, rr := 0, launches := 0, cpRead := [],
    cqPending := [], cqOldest := [], retired := [], lost := [], migStop := [], notBefore := [], sigQ := [], busy := none, asks := [], joint := [], askFor := [] }

def Xlat.reset : Xlat :=
  { mtlb := [], atc := [], reqs := [], invals := [], pulls := [], frames := [], left := [], scrub := [], shoot := none, shootQ := [],
    l2change := [], discard := [], failed := [], denied := [], devWrites := [] }

def Network.reset : Network := { posted := [], held := [], collNo := [], contribs := [], sentQ := [], abandoned := [], packets := [], stamps := [] }

def Platform.reset : Platform :=
  { power := false, started := 0, unitDue := 0, recovery := false, pfReady := false, vfEnabled := [], vfReady := [], flr := [],
    ecdsaHash := 0, lmsHash := 0, minSvn := [], flash := [], image := [], debug := 0, heartbeat := [], cpReset := [], crossed := [],
    tripped := [], sensed := [], msixMask := [], msixPend := [] }

/-- The machine right after reset: before power-good, every register at its reset value, nothing listed in any table. -/
def State.reset : State :=
  { cycle := 0, devTime := 0, devRem := 0, mem := [], secTaint := [], secTag := [], pf := [], bar0 := [], bar2 := [], cpRing := [],
    seqs := [], cores := [], rk := Reckoner.reset, xl := Xlat.reset, net := Network.reset, plat := Platform.reset, issue := [],
    agenda := [], cur := ⟨0, 0, 0, 0, 0, false⟩, ev := .none, inputs := [], out := [], freeCtr := 0 }

end Sys2Proof.Machine
end

