-- ==== Sys2Proof/Machine/Ops.lean ====
section
/-! DEFINITION. The named operations over tables, memory, registers, place and cores; results in flight and their landing; taking a trap and returning from it. -/

namespace Sys2Proof.Machine

open Sys2Proof

/-! ## Tables -/

/-- The entry at a key. -/
def Tbl.find? {α : Type} : Tbl α → Nat → Option α
  | [], _ => none
  | (k', v) :: r, k => if k' = k then some v else Tbl.find? r k

/-- The entry at a key, or the table's default. -/
def Tbl.get {α : Type} (d : α) (t : Tbl α) (k : Nat) : α := (Tbl.find? t k).getD d

/-- Remove a key. -/
def Tbl.erase {α : Type} : Tbl α → Nat → Tbl α
  | [], _ => []
  | (k', v) :: r, k => if k' = k then Tbl.erase r k else (k', v) :: Tbl.erase r k

/-- Insert at the key's place in rising order. -/
def Tbl.insert {α : Type} : Tbl α → Nat → α → Tbl α
  | [], k, v => [(k, v)]
  | (k', v') :: r, k, v => if k < k' then (k, v) :: (k', v') :: r else (k', v') :: Tbl.insert r k v

/-- Write an entry, keeping the canonical form: an entry equal to the default is not listed. -/
def Tbl.set {α : Type} [DecidableEq α] (d : α) (t : Tbl α) (k : Nat) (v : α) : Tbl α :=
  if v = d then Tbl.erase t k else Tbl.insert (Tbl.erase t k) k v

/-- Keys strictly rising, all above a bound. -/
def Tbl.sortedFrom {α : Type} : Nat → Tbl α → Bool
  | _, [] => true
  | b, (k, _) :: r => decide (b ≤ k) && Tbl.sortedFrom (k + 1) r

/-- The canonical form of a table with a default. -/
def Tbl.wf {α : Type} [DecidableEq α] (d : α) (t : Tbl α) : Bool :=
  Tbl.sortedFrom 0 t && t.all fun e => decide (e.2 ≠ d)

/-- The canonical form of byte memory: unlisted addresses read 0 (log 3). -/
def Memory.wf (m : Memory) : Bool := Tbl.wf (0 : Byte) m

/-! ## Bits and bytes -/

/-- The field of `len` bits from bit `lo`. -/
def bitsAt (x lo len : Nat) : Nat := x / 2^lo % 2^len

/-- Little-endian value of `n` bytes (00 R5). -/
def leVal (f : Nat → Byte) (a : Nat) : Nat → Nat
  | 0 => 0
  | n + 1 => (f a).toNat + 256 * leVal f (a + 1) n

/-- The `n` little-endian bytes of a value. -/
def leBytes (v : Nat) : Nat → List Byte
  | 0 => []
  | n + 1 => BitVec.ofNat 8 v :: leBytes (v / 256) n

/-- Little-endian value of a byte list. -/
def leOf : List Byte → Nat
  | [] => 0
  | b :: r => b.toNat + 256 * leOf r

/-- Sign-extended value of the low `n` bits. -/
def sextNat (v n : Nat) : Int := if v % 2^n < 2^(n - 1) then (v % 2^n : Nat) else (v % 2^n : Nat) - (2^n : Nat)

/-- The i-th 32-bit lane of a window value. -/
def laneOf (v : VWord) (i : Nat) : Lane := BitVec.ofNat 32 (v.toNat / 2^(32 * i))

/-- Bit i of a lane mask. -/
def bitOf (m : LaneMask) (i : Nat) : Bool := m.getLsbD i

/-- Sum of f i * 2^(w i) for i < n: packs n fields of w bits. -/
def packFrom (w : Nat) (f : Nat → Nat) : Nat → Nat
  | 0 => 0
  | n + 1 => packFrom w f n + f n % 2^w * 2^(w * n)

/-- A window value from its lanes. -/
def ofLanes (f : Nat → Lane) : VWord := BitVec.ofNat 4096 (packFrom 32 (fun i => (f i).toNat) 128)

/-- A mask from its bits. -/
def ofBits (f : Nat → Bool) : LaneMask := BitVec.ofNat 128 (packFrom 1 (fun i => if f i then 1 else 0) 128)

/-- Lane-wise choice: the lanes of `new` where the mask has a bit, else those of `old`. -/
def mergeLanes (lanes : LaneMask) (new old : VWord) : VWord := ofLanes fun i => if bitOf lanes i then laneOf new i else laneOf old i

/-! ## Memory -/

/-- The byte at a physical address. -/
def memByte (s : State) (a : Nat) : Byte := Tbl.get 0 s.mem a

/-- Write one byte of memory. -/
def putByte (s : State) (a : Nat) (b : Byte) : State := { s with mem := Tbl.set 0 s.mem a b }

/-- Write bytes at ascending addresses. -/
def putBytes (s : State) (a : Nat) : List Byte → State
  | [] => s
  | b :: r => putBytes (putByte s a b) (a + 1) r

/-- The little-endian value of `n` bytes of memory. -/
def memVal (s : State) (a n : Nat) : Nat := leVal (memByte s) a n

/-! ## The register windows -/

/-- The byte an unlisted offset of the PF's Reckoner block reads as: the reset values of its registers. -/
def pfDefault (off : Nat) : Byte :=
  if 0x80000 ≤ off ∧ off < 0x800C0 then
    BitVec.ofNat 8 ((0xFAC688 * 2^24 + (off - 0x80000) / 8 % 12 * 2^16) / 256^(off % 8))
  else if 0x81000 ≤ off ∧ off < 0x81680 then BitVec.ofNat 8 ((0x888888888 * 16 + 8) / 256^(off % 8))
  else if 0x82000 ≤ off ∧ off < 0x82200 ∧ (off - 0x82000) % 256 < 164 then BitVec.ofNat 8 (0x600 / 256^(off % 4))
  else if 0x82200 ≤ off ∧ off < 0x82210 then BitVec.ofNat 8 (0xFAC688 / 256^(off % 8))
  else if 0xC0000 ≤ off ∧ off < 0xC4000 ∧ off % 64 / 8 = 2 then BitVec.ofNat 8 (0x720 / 256^(off % 8))
  else if off = 0xE2008 ∨ off = 0xE2048 then 1
  else if off = 0xF8300 then 0xF8
  else if off = 0xF8301 then 0x02
  else if off = 0xF8308 then 0x48
  else if off = 0xF8309 then 0x03
  else 0

def pfByte (s : State) (off : Nat) : Byte := Tbl.get (pfDefault off) s.pf off

/-- The value of an `n`-byte register at an offset of the Reckoner block. -/
def pfGet (s : State) (off n : Nat) : Nat := leVal (pfByte s) off n

/-- Set bytes of the Reckoner block. -/
def pfPutBytes (s : State) (off : Nat) : List Byte → State
  | [] => s
  | b :: r => pfPutBytes { s with pf := Tbl.set (pfDefault off) s.pf off b } (off + 1) r

/-- Set an `n`-byte register of the Reckoner block. -/
def pfSet (s : State) (off n v : Nat) : State := pfPutBytes s off (leBytes v n)

/-- Set bits of a register. -/
def pfOr (s : State) (off n v : Nat) : State := pfSet s off n (pfGet s off n ||| v)

/-- The reset bytes of a VF's BAR0 (02 R28, 17 R338). -/
def bar0Default (off : Nat) : Byte :=
  if off % 256 = 0 then 4 else if off % 256 = 0x28 then 6 else if off % 256 = 0x3A then 1 else 0

def bar0Get (s : State) (v off n : Nat) : Nat := leVal (fun a => Tbl.get (bar0Default a) s.bar0 a) (256 * v + off) n

def bar0PutBytes (s : State) (a : Nat) : List Byte → State
  | [] => s
  | b :: r => bar0PutBytes { s with bar0 := Tbl.set (bar0Default a) s.bar0 a b } (a + 1) r

def bar0Set (s : State) (v off n x : Nat) : State := bar0PutBytes s (256 * v + off) (leBytes x n)

def bar2Get (s : State) (v off n : Nat) : Nat := leVal (fun a => Tbl.get 0 s.bar2 a) (2^18 * v + off) n

def bar2PutBytes (s : State) (a : Nat) : List Byte → State
  | [] => s
  | b :: r => bar2PutBytes { s with bar2 := Tbl.set 0 s.bar2 a b } (a + 1) r

def cpRingGet (s : State) (cp off n : Nat) : Nat := leVal (fun a => Tbl.get 0 s.cpRing a) (4096 * cp + off) n

def cpRingPutBytes (s : State) (a : Nat) : List Byte → State
  | [] => s
  | b :: r => cpRingPutBytes { s with cpRing := Tbl.set 0 s.cpRing a b } (a + 1) r

/-! ## Device time and place -/

/-- Device time in whole nanoseconds (03 R39). -/
def now (s : State) : Nat := s.devTime / 2^32 % 2^64

/-- ROWN of a logical Rod (04 R64). -/
def rown (s : State) (n : Nat) : Nat := pfGet s (0x80000 + 8 * n) 8

/-- The owner of half `h` of Rod `n`, if valid. -/
def rodOwner (s : State) (n h : Nat) : Option Nat :=
  if bitsAt (rown s n) (6 + 8 * h) 1 = 1 then some (bitsAt (rown s n) (8 * h) 6) else none

/-- The physical core of logical bead `b` of Rod `n` (04 R64, R67). -/
def coreAt (s : State) (n b : Nat) : Nat :=
  104 * (n / 12) + 8 * bitsAt (rown s n) 16 4 + bitsAt (rown s n) (24 + 3 * b) 3

/-- The physical core of bead `p` of Rod-unit `q`. -/
def coreOf (s : State) (q p : Nat) : Nat := coreAt s (q / 2) (p + 4 * (q % 2))

/-- The C-die of a Rod-unit. -/
def dieOf (q : Nat) : Nat := q / 24

/-- The partition that VF `v` acts for (04 R63). -/
def vfOwner (s : State) (v : Nat) : Option Nat :=
  let b := (pfByte s (0x82400 + v)).toNat
  if bitsAt b 7 1 = 1 then some (bitsAt b 0 6) else none

def seqOf (s : State) (q : Nat) : Seq := Tbl.get Seq.idle s.seqs q
def setSeq (s : State) (q : Nat) (x : Seq) : State := { s with seqs := Tbl.set Seq.idle s.seqs q x }
def modSeq (s : State) (q : Nat) (f : Seq → Seq) : State := setSeq s q (f (seqOf s q))

def coreGet (s : State) (c : Nat) : Core := Tbl.get Core.blank s.cores c
def setCore (s : State) (c : Nat) (x : Core) : State := { s with cores := Tbl.set Core.blank s.cores c x }
def modCore (s : State) (c : Nat) (f : Core → Core) : State := setCore s c (f (coreGet s c))

/-- The physical core, the core and the sequencer that the running slot acts on. -/
def curId (s : State) : Nat := coreOf s s.cur.unit s.cur.bead
def curCore (s : State) : Core := coreGet s (curId s)
def curSeq (s : State) : Seq := seqOf s s.cur.unit
def modCur (s : State) (f : Core → Core) : State := modCore s (curId s) f
def modCurSeq (s : State) (f : Seq → Seq) : State := modSeq s s.cur.unit f

/-- The width in beads of the pass on a unit. -/
def widthOf (u : Seq) : Nat := (u.run.map (·.w)).getD 0

/-- The physical cores of a unit's pass, bead 0 first. -/
def coresOf (s : State) (q : Nat) : List Nat := (List.range (widthOf (seqOf s q))).map (coreOf s q)

/-! ## Tasks and partitions -/

def taskOf (s : State) (t : Nat) : Task := Tbl.get Task.empty s.rk.tasks t
def setTask (s : State) (t : Nat) (x : Task) : State := { s with rk := { s.rk with tasks := Tbl.set Task.empty s.rk.tasks t x } }
def modTask (s : State) (t : Nat) (f : Task → Task) : State := setTask s t (f (taskOf s t))

/-- A field of a 128-byte launch header (01 R13): little-endian bytes `off` to `off + n - 1`. -/
def hdrField (h : BitVec 1024) (off n : Nat) : Nat := bitsAt h.toNat (8 * off) (8 * n)
/-- A field of the 64-byte image header (01 R8). -/
def imgField (h : BitVec 512) (off n : Nat) : Nat := bitsAt h.toNat (8 * off) (8 * n)
/-- A field of a 64-byte command or descriptor. -/
def cmdField (c : BitVec 512) (off n : Nat) : Nat := bitsAt c.toNat (8 * off) (8 * n)

def Task.flagsWord (t : Task) : Nat := hdrField t.hdr 4 4
/-- Rod width, skew, determinism, class, mirrored (01 R14). -/
def Task.w (t : Task) : Nat := if t.flagsWord % 2 = 1 then 4 else 8
def Task.skew (t : Task) : Nat := bitsAt t.flagsWord 1 4
def Task.det (t : Task) : Bool := bitsAt t.flagsWord 5 1 = 1
def Task.cls (t : Task) : Nat := bitsAt t.flagsWord 6 2
def Task.mirrored (t : Task) : Bool := bitsAt t.flagsWord 8 1 = 1
def Task.pword (t : Task) : Nat := hdrField t.hdr 40 4
def Task.budget (t : Task) : Nat := hdrField t.hdr 44 4
/-- Field width and extent of a level of the work identifier (01 R16, R17). -/
def Task.wid (t : Task) (i : Nat) : Nat := bitsAt (hdrField t.hdr 8 8) (6 * i) 6
def Task.extent (t : Task) (i : Nat) : Nat := hdrField t.hdr (16 + 4 * i) 4 + 1
/-- The number of work identifiers of a launch. -/
def Task.total (t : Task) : Nat := (List.range 6).foldl (fun a i => a * t.extent i) 1
/-- The number of passes (01 R18). -/
def Task.passes (t : Task) : Nat := (t.total + t.w - 1) / t.w
def Task.session (t : Task) : Nat := cmdField t.cmd 2 2
def Task.period (t : Task) : Nat := cmdField t.cmd 56 4
def Task.relDeadline (t : Task) : Nat := cmdField t.cmd 48 8
/-- The absolute deadline, once released (02 R24). -/
def Task.deadline (t : Task) : Option Nat := t.eff.map fun e => e.toNat + t.relDeadline
/-- Submitted with hold (02 R23). -/
def Task.holdFlag (t : Task) : Bool := cmdField t.cmd 1 1 % 2 = 1

/-- The work identifier of ordinal `o` (01 R17): mixed radix, L0 innermost. -/
def widOf (t : Task) (o : Nat) : Nat :=
  ((List.range 6).foldl (fun (a : Nat × Nat × Nat) i =>
    (a.1 + o / a.2.1 % t.extent i * 2^a.2.2, a.2.1 * t.extent i, a.2.2 + t.wid i)) (0, 1, 0)).1

/-- Partition records and their fields (03 R42). -/
def partField (s : State) (p off n : Nat) : Nat := pfGet s (0x10000 + 64 * p + off) n
def setPartField (s : State) (p off n v : Nat) : State := pfSet s (0x10000 + 64 * p + off) n v
def sessField (s : State) (x off n : Nat) : Nat := pfGet s (0x20000 + 64 * x + off) n
/-- The level of a partition (03 R58). -/
def levelOf (s : State) (p : Nat) : Nat := bitsAt (partField s p 48 4) 0 2

/-- The task that the pass of a unit belongs to. -/
def runTask (s : State) (q : Nat) : Task := match (seqOf s q).run with
  | some r => taskOf s r.task
  | none => Task.empty

/-- The partition of the running slot's pass. -/
def curPart (s : State) : Nat := ((curSeq s).run.map (·.part)).getD 0

/-- Pool shape from the partition word (04 R71). -/
def vwfOf (pw : Nat) : Nat := bitsAt pw 0 6
def scrOf (pw : Nat) : Nat := bitsAt pw 6 6
def accOf (pw : Nat) : Nat := bitsAt pw 12 5
def curPword (s : State) : Nat := (runTask s s.cur.unit).pword

/-- The Ethernet endpoint is running: its start unit is ready (18 R358, R365). -/
def endpointRuns (s : State) : Bool := bitsAt (pfGet s 0xF8000 8) 23 1 == 1

/-- Queue something that leaves the device. -/
def send (s : State) (m : OutMsg) : State := { s with out := s.out ++ [m] }

/-- Raise an MSI-X vector of a function: the PF, or VF v as function v + 1. A masked one stays pending (17 R340). -/
def raiseMsix (s : State) (fn vec : Nat) : State :=
  if s.plat.msixMask.contains (fn, vec) then { s with plat := { s.plat with msixPend := (fn, vec) :: s.plat.msixPend.filter (· ≠ (fn, vec)) } }
  else send s (if fn = 0 then .msixPf vec else .msixVf (fn - 1))

/-- Mask or unmask a vector; one that is pending is sent as its mask is lifted. -/
def setMsixMask (s : State) (fn vec : Nat) (on : Bool) : State :=
  let l := s.plat.msixMask.filter (· ≠ (fn, vec))
  let s1 := { s with plat := { s.plat with msixMask := if on then (fn, vec) :: l else l } }
  if !on && s.plat.msixPend.contains (fn, vec) then
    raiseMsix { s1 with plat := { s1.plat with msixPend := s1.plat.msixPend.filter (· ≠ (fn, vec)) } } fn vec
  else s1

/-- Draw a free latency: one cycle and a free number more (log 6). -/
def drawLatency (s : State) : Nat × State := (1 + Config.asyncLatency s.freeCtr, { s with freeCtr := s.freeCtr + 1 })
def drawDevice (s : State) : Nat × State := (1 + Config.deviceLatency s.freeCtr, { s with freeCtr := s.freeCtr + 1 })

/-! ## Frames and the write that performs -/

/-- Owner nibble of a physical or virtual address. -/
def ownerOf (a : Nat) : Nat := a / 2^60 % 16

/-- The state of the 64 KiB frame that holds a physical address of a die (12 R255). -/
def frameState (s : State) (d pa : Nat) : FrameState := Tbl.get .free s.xl.frames (d * 2^24 + pa % 2^60 / 65536)
def setFrame (s : State) (d frame : Nat) (f : FrameState) : State :=
  { s with xl := { s.xl with frames := Tbl.set .free s.xl.frames (d * 2^24 + frame) f,
                              left := if s.xl.left.contains d then s.xl.left else d :: s.xl.left } }

/-- A frame beyond the die's HBM does not exist (12 R255: 3 145 728 frames). -/
def frameOwner (s : State) (d pa : Nat) : Option Nat :=
  if pa % 2^60 / 65536 < 3145728 then
    match frameState s d pa with
    | .owned o => some o
    | _ => none
  else none

/-- A device structure in frames owned by the hypervisor (62). -/
def inHyp (s : State) (pa : Nat) : Bool := ownerOf pa < 2 && frameOwner s (ownerOf pa) pa == some 62

/-- Set the dirty bit of a frame while its partition's VF is logged (16 R332). -/
def logDirty (s : State) (pa : Nat) : State :=
  if ownerOf pa < 2 then
    match frameOwner s (ownerOf pa) pa with
    | some p =>
      (List.range 96).foldl (fun s v =>
        let ctl := pfGet s (0xF3000 + 64 * v) 4
        if vfOwner s v = some p ∧ bitsAt ctl 8 1 = 1 then
          let b := pfGet s (0xF3010 + 64 * v + 16 * ownerOf pa + 8 * bitsAt ctl 7 1) 8
          let fr := pa % 2^60 / 65536
          putByte s (b + fr / 8) (memByte s (b + fr / 8) ||| BitVec.ofNat 8 (2^(fr % 8)))
        else s) s
    | none => s
  else s

/-- Drop every L1 copy of the 64-byte line of an address, save on core `keep` (14 R289). -/
def dropCopies (s : State) (line : Nat) : State :=
  { s with cores := s.cores.map fun e =>
      (e.1, if (Tbl.find? e.2.l1 line).isSome then { e.2 with l1 := Tbl.erase e.2.l1 line } else e.2) }

/-- A write performs at memory: logged, then the bytes change. -/
def performBytes (s : State) (pa : Nat) (bs : List Byte) : State := putBytes (logDirty s pa) pa bs

/-! ## Results in flight -/

/-- Put a result of the running slot in flight, to be first seen `dist` bundles on (06 R109). -/
def emit (s : State) (dist : Nat) (k : LandKind) : State :=
  modCur s fun c => { c with inflight := c.inflight ++ [⟨dist, s.cur.slot, c.bundleNo, k⟩] }

def emitAll (s : State) (dist : Nat) (ks : List LandKind) : State := ks.foldl (fun s k => emit s dist k) s

/-- Push a scalar result on the queue (06 R103): the last to enter is q0. -/
def pushQ (c : Core) (x : TWord) : Core := { c with q := (x :: c.q).take 16 }
def pushVq (c : Core) (x : TVec) : Core := { c with vq := (x :: c.vq).take 16 }

/-- Write a named register; n0 discards. -/
def Core.setN (c : Core) (r : Nat) (x : TWord) : Core := if r = 0 then c else { c with n := Tbl.set ⟨0, false⟩ c.n r x }
def Core.getN (c : Core) (r : Nat) : TWord := if r = 0 then ⟨0, false⟩ else Tbl.get ⟨0, false⟩ c.n r
/-- Write a predicate; p0 discards and reads 1. -/
def Core.setP (c : Core) (r : Nat) (x : TBit) : Core := if r = 0 then c else { c with p := Tbl.set ⟨false, false⟩ c.p r x }
def Core.getP (c : Core) (r : Nat) : TBit := if r = 0 then ⟨true, false⟩ else Tbl.get ⟨false, false⟩ c.p r
/-- Write a mask; m0 discards and reads all ones. -/
def Core.setM (c : Core) (r : Nat) (x : TMask) : Core := if r = 0 then c else { c with m := Tbl.set ⟨0, 0⟩ c.m r x }
def Core.getM (c : Core) (r : Nat) : TMask := if r = 0 then ⟨BitVec.allOnes 128, 0⟩ else Tbl.get ⟨0, 0⟩ c.m r

def Core.getW (c : Core) (reg : Nat) : TVec := Tbl.get ⟨0, 0⟩ c.win reg
def Core.setW (c : Core) (reg : Nat) (x : TVec) : Core := { c with win := Tbl.set ⟨0, 0⟩ c.win reg x }
/-- Write the lanes of a window register that a mask selects. -/
def Core.writeLanes (c : Core) (reg : Nat) (x : TVec) (lanes : LaneMask) : Core :=
  c.setW reg ⟨mergeLanes lanes x.v (c.getW reg).v, (x.t &&& lanes) ||| ((c.getW reg).t &&& ~~~lanes)⟩

/-- A wait counter. -/
def Core.ctr (c : Core) (i : Nat) : Nat := Tbl.get 0 c.ctrs i
def Core.incCtr (c : Core) (i : Nat) : Core := if i = 0 then c else { c with ctrs := Tbl.set 0 c.ctrs i (c.ctr i + 1) }
def Core.decCtr (c : Core) (i : Nat) : Core := if i = 0 then c else { c with ctrs := Tbl.set 0 c.ctrs i (c.ctr i - 1) }

/-- The counters of the counted core-local loads that a test picks fall. -/
def Core.countFall (c : Core) (f : Nat × Nat × Nat × Nat → Bool) : Core :=
  (c.counting.filter f).foldl (fun c e => c.decCtr e.1) { c with counting := c.counting.filter fun e => !f e }

/-- A counted core-local load completes when its value has landed (11 R221, R222, R224). -/
def Core.countLanded (c : Core) : Core :=
  c.countFall fun e => !c.inflight.any fun l => l.bundle == e.2.2.1 && l.slot.val == e.2.2.2

/-- DEDUCED (log 17): the bead waits in this cycle for its counters, in WAIT or at its kernel end, and no bundle comes to let its results land; the counter of a core-local load then falls six
cycles after the issue, since the wait would otherwise never end. -/
def Core.countDown (c : Core) (cycle : Nat) : Core :=
  if c.limits.isSome || c.ending then c.countFall fun e => decide (e.2.1 ≤ cycle) else c

/-- An unbound stream that nothing has touched. -/
def Stream.unset : Stream :=
  { bound := false, addr := 0, desc := .none, position := 0, fetched := 0, stored := 0, slack := 0, region := 0, buf := [], reqs := [], code := 0, prior := .none, waited := 0 }
def streamOf (c : Core) (z : Nat) : Stream := Tbl.get Stream.unset c.streams z
def setStream (c : Core) (z : Nat) (x : Stream) : Core := { c with streams := Tbl.set Stream.unset c.streams z x }

/-- The address of element n of a stream for a bead's ordinal (11 R227). -/
def elemVa (d : BitVec 512) (ordinal n : Nat) : Nat :=
  let f (o k : Nat) := bitsAt d.toNat (8 * o) (8 * k)
  let walk := (List.range 4).foldl (fun (a : Int × Nat) i =>
    (a.1 + (a.2 % f (24 + 4 * i) 4 : Nat) * sextNat (f (40 + 4 * i) 4) 32 * 64, a.2 / f (24 + 4 * i) 4)) (0, n)
  (((f 0 8 : Int) + ordinal * sextNat (f 8 8) 64 + walk.1) % (2^64 : Nat)).toNat

/-- The number of elements of a walk. -/
def walkLen (d : BitVec 512) : Nat := (List.range 4).foldl (fun a i => a * bitsAt d.toNat (8 * (24 + 4 * i)) 32) 1

/-- The direction of a bound stream whose descriptor has been read: output when bit 0 of ctl is 1 (11 R227). -/
def Stream.isOut (x : Stream) : Bool :=
  match x.desc with
  | some d => bitsAt d.toNat 128 1 == 1
  | none => false

/-- One access has been made: the position rises, and an input buffer lets go of what lies before it. -/
def advanceStream (c : Core) (z : Nat) : Core :=
  let st := streamOf c z
  let pos := st.position + 1
  if st.isOut then setStream c z { st with position := pos }
  else setStream c z { st with position := pos, buf := st.buf.drop (pos - (st.fetched - st.buf.length)) }

/-- Write a special register, as an MTS lands (06 R106): only the field's low bits. -/
def Core.setSpecial (c : Core) (r : SReg) (x : Word) : Core :=
  match r with
  | .flg => { c with flg := x.truncate 7 }
  | .rnd => { c with rnd := x.truncate 2 }
  | .jord => { c with jord := x.truncate 3 }
  | .jflg => { c with jflg := (List.range 8).foldl (fun t i => Tbl.set 0 t i (x.truncate 40)) c.jflg }
  | .vwb => { c with vwb := x.truncate 12 }
  | .cmk => { c with cmk := x.truncate 8 }
  | .occ => { c with occ := x.truncate 16 }
  | .dlen => { c with dlen := x.truncate 8 }
  | _ => c

/-- Insertion by (slot, bundle), the order in which results of one landing are applied (06 R103, R111). -/
def insertLanding (x : Landing) : List Landing → List Landing
  | [] => [x]
  | y :: r => if x.slot.val < y.slot.val ∨ (x.slot = y.slot ∧ x.bundle < y.bundle) then x :: y :: r else y :: insertLanding x r

def sortLandings : List Landing → List Landing
  | l => l.foldl (fun acc x => insertLanding x acc) []

/-- Apply one result. `pre` is the core before the landing, whose bins VHIST takes (09 R191). -/
def applyLanding (pre c : Core) (l : Landing) : Core :=
  match l.kind with
  | .scalar r x => pushQ (c.setN r.val x) x
  | .pred r x => c.setP r.val x
  | .mask r x lanes =>
    c.setM r.val ⟨(x.v &&& lanes) ||| ((c.getM r.val).v &&& ~~~lanes), (x.t &&& lanes) ||| ((c.getM r.val).t &&& ~~~lanes)⟩
  | .vec reg x lanes => let c' := c.writeLanes reg x lanes; pushVq c' (c'.getW reg)
  | .out z x write va id =>
    if write then pushVq { c with outq := c.outq ++ [⟨z.val, id, va, x, 0, l.slot.val⟩] } x
    else pushVq c ⟨0, 0⟩
  | .reg r x => c.setN r.val x
  | .hist reg idx add lanes t =>
    (List.range 8).foldl (fun c b =>
      let old := pre.getW (reg + b)
      let hit := ofBits fun i => bitOf lanes i && (laneOf idx i).toNat == b
      let c' := c.writeLanes (reg + b) ⟨ofLanes fun i => laneOf old.v i + laneOf add i, old.t ||| t⟩ hit
      pushVq c' (c'.getW (reg + b))) c
  | .param i x => { c with mp := Tbl.set 0 c.mp i.val x }
  | .planes x => { c with mprec := x }
  | .savemask x => { c with svm := x }
  | .flags _ | .jflags _ | .jclear _ _ | .special _ _ | .blcClear _ | .blcAdd _ _ | .advance _ | .taintClear _ | .taintClearV _ _ | .control => c

/-- Writes to special registers and clears, which later ORs of the same landing come on top of (07 R128, 10 R212, 15 R305). -/
def applyEarly (c : Core) (l : Landing) : Core :=
  match l.kind with
  | .special r x => c.setSpecial r x
  | .jclear bits cmk =>
    { c with jflg := (List.range 8).foldl (fun t i => if cmk.getLsbD i then Tbl.set 0 t i (Tbl.get 0 t i &&& ~~~bits) else t) c.jflg }
  | .blcClear i => { c with blc := Tbl.set 0 c.blc i.val 0 }
  | .advance z => advanceStream c z.val
  | .control => { c with ctlTaint := true }
  | .taintClear r => c.setN r.val ⟨(c.getN r.val).v, false⟩
  | .taintClearV reg lanes => c.setW reg ⟨(c.getW reg).v, (c.getW reg).t &&& ~~~lanes⟩
  | _ => c

/-- Flags ORed and losses added (06 R107, R115, 10 R204). -/
def applyLate (c : Core) (l : Landing) : Core :=
  match l.kind with
  | .flags f => { c with flg := c.flg ||| f }
  | .jflags f =>
    { c with jflg := (List.range 8).foldl (fun t i => Tbl.set 0 t i (Tbl.get 0 t i ||| f.getD i 0)) c.jflg }
  | .blcAdd i n =>
    { c with blc := Tbl.set 0 c.blc i (BitVec.ofNat 32 (Nat.min 0xFFFFFFFF ((Tbl.get 0 c.blc i).toNat + n))) }
  | _ => c

/-- The destinations a result names (05 R81), as a key and the lanes: named registers, predicates, masks, window registers (all eight bins of VHIST, 09 R191), output streams,
parameters, special registers with `%JFLG` for JFLAG.clear (10 R212), and what TAINTCLR clears (15 R305). -/
def landDests : LandKind → List (Nat × LaneMask)
  | .scalar r _ | .reg r _ => if r.val = 0 then [] else [(r.val, 1)]
  | .pred r _ => if r.val = 0 then [] else [(100 + r.val, 1)]
  | .mask r _ lanes => if r.val = 0 then [] else [(200 + r.val, lanes)]
  | .vec reg _ lanes => [(10000 + reg, lanes)]
  | .hist reg _ _ lanes _ => (List.range 8).map fun b => (10000 + reg + b, lanes)
  | .param i _ => [(300 + i.val, 1)]
  | .planes _ => [(310, 1)]
  | .special r _ => [(400 + encSReg r, 1)]
  | .jclear _ _ => [(400 + encSReg .jflg, 1)]
  | .out z _ write _ _ => if write then [(500 + z.val, 1)] else []
  | .taintClear r => if r.val = 0 then [] else [(r.val, 1)]
  | .taintClearV reg lanes => [(10000 + reg, lanes)]
  | .savemask _ => [(311, 1)]
  | _ => []

/-- Two results of different bundles meet on one destination (06 R107, R110, R111). DESIGN CHOICE (log 68): the destination is the register, so two results that each write some lane of it
collide also where the lanes differ; which value remains is decided lane by lane. -/
def landsMeet (x y : Landing) : Bool :=
  x.bundle != y.bundle &&
    (landDests x.kind).any fun a => (landDests y.kind).any fun b => a.1 == b.1 && a.2 != 0 && b.2 != 0

def anyMeet : List Landing → Bool
  | [] => false
  | x :: r => r.any (landsMeet x) || anyMeet r

/-- Land every result in a list on a core, clears and values in the priority of 06 R111. DEDUCED (log 45): where two elements of one output stream land together,
coll is set and both are stored, each at its own place of the walk; where JFLAG.clear lands with an MTS of `%JFLG`, the clear's bits are cleared in what the MTS wrote. -/
def landAll (c : Core) (due : List Landing) : Core :=
  let c1 := (sortLandings due).foldl applyEarly c
  let c2 := (sortLandings due).foldl (applyLanding c) c1
  let c3 := due.foldl applyLate c2
  if anyMeet due then { c3 with flg := c3.flg ||| 0x20 } else c3

/-- The core meets its next bundle: distances fall by one and what is due lands (06 R109, R110). -/
def advanceCore (c : Core) : Core :=
  let moved := c.inflight.map fun l => { l with dist := l.dist - 1 }
  let c' := landAll { c with inflight := moved.filter fun l => l.dist ≠ 0 } (moved.filter fun l => l.dist = 0)
  { c' with bundleNo := c'.bundleNo + 1, series := c'.series - 1 }

/-- At kernel end everything in flight lands as if idle bundles followed (07 R141). `fuel` bounds the longest distance. -/
def landRest : Nat → Core → Core
  | 0, c => c
  | n + 1, c => if c.inflight.isEmpty then c else landRest n (advanceCore c)

/-! ## Traps: taking one and returning -/

/-- Codes whose Reckoner action is Hold (16 R314). -/
def isHold (code : Nat) : Bool := code == 0x0401 || code == 0x0402

/-- Whether a unit runs a pass of a launch copy. A task that is not mirrored has the one copy 0. -/
def runsLaunch (s : State) (q task launch : Nat) (copy : Option Nat) : Bool :=
  match (seqOf s q).run with
  | some r => r.task == task && r.launch == launch && (copy == none || copy == some r.copy)
  | none => false

/-- Request the stop of a unit (16 R317): the cause, code and place stand until the stop is done. An abort takes the place of any other cause,
any cause that of a pre-emption, and of two traps of one cycle the one reported stands. `now`: the unit trapped, and stops in this cycle.
A pre-emption save that is writing its slot goes on when the victim's deadline passes (03 R53), and for a migration stop. A pass that has retired its kernel end is not saved (07 R141). -/
def requestStop (s : State) (q : Nat) (cause : StopCause) (kind code detail bead pos : Nat) (now : Bool) : State :=
  modSeq s q fun u =>
    match u.run, u.stop with
    | none, _ => u
    | some _, none => if u.complete && cause ≠ .abort && cause ≠ .flr then u else { u with stop := some ⟨cause, .requested, s.cycle, kind, code, detail, bead, pos, none, 0, now⟩ }
    | some _, some st =>
      if st.cause = .preempt ∧ st.phase = .saving ∧ (cause = .migration ∨ (cause = .abort ∧ code = 0x0101)) then u
      else if st.cause = .preempt ∨ (st.cycle = s.cycle ∧ st.phase = .requested) then
        { u with stop := some { st with cause := cause, kind := kind, code := code, detail := detail, bead := bead, pos := pos, atOnce := st.atOnce || now } }
      else if cause = .abort ∨ cause = .flr then { u with stop := some { st with cause := cause, code := code, detail := detail } }
      else u

/-- Request the stop of every unit that runs the launch (or one copy of it). -/
def stopLaunch (s : State) (task launch : Nat) (copy : Option Nat) (cause : StopCause) (kind code detail : Nat) (trapUnit bead pos : Nat) : State :=
  (List.range 48).foldl (fun s q =>
    if runsLaunch s q task launch copy then
      if q = trapUnit then requestStop s q cause kind code detail bead pos true else requestStop s q cause kind code detail 0xFF 0xFFFFFF false
    else s) s

/-- The address of save slot `j` of a Rod-unit for a partition (16 R320). -/
def slotAddr (s : State) (p q j : Nat) : Nat :=
  (pfGet s (0xF1000 + 16 * p) 8 + (q * bitsAt (pfGet s (0xF1008 + 16 * p) 8) 0 4 + j) * 0x03300000) % 2^64

/-- The L2 of die d is changing the set range that serves tenant t, whose requests to that die wait: a partition, or 40 for the device (04 R68, R69). -/
def l2Changing (s : State) (d t : Nat) : Bool := s.xl.l2change.any fun e => e.1 == d && e.2.1 == t

/-- A write of the device's own, which waits while the L2 of its die changes the range that serves the device (04 R69); an alarm follows it as the PF's MSI-X vector 4. -/
def deviceWrite (s : State) (a : Nat) (bs : List Byte) (alarm : Bool) : State :=
  if ownerOf a < 2 ∧ l2Changing s (ownerOf a) 40 = true then { s with xl := { s.xl with devWrites := s.xl.devWrites ++ [(a, bs, alarm)] } }
  else
    let s1 := performBytes s a bs
    if alarm then raiseMsix s1 0 4 else s1

/-- The writes of the device that have waited are made, in their order. -/
def releaseWrites (s : State) : State := s.xl.devWrites.foldl (fun s e => deviceWrite s e.1 e.2.1 e.2.2) { s with xl := { s.xl with devWrites := [] } }

/-- Write the state of a slot's header (16 R321). -/
def markSlot (s : State) (p q j st : Nat) : State :=
  let a := slotAddr s p q j
  if ownerOf a < 2 then deviceWrite s a (leBytes st 4) false else s

/-- A saved context belongs to a task, or to one copy of it. -/
def savedOf (task : Nat) (copy : Option Nat) (x : Saved) : Bool :=
  match x.seq.run with
  | some r => r.task == task && (copy == none || copy == some r.copy)
  | none => false

/-- The buffers that a saved context's network commands have posted go with it: context `key` names its bead p's commands 1024 + 8 key + p. -/
def dropNames (s : State) (key : Nat) : State :=
  { s with net := { s.net with posted := s.net.posted.map fun e => (e.1, e.2.filter fun x => x.1 / 8 ≠ 128 + key) } }

/-- The slips of a suspended pass, whose context goes, count to its launch copy (17 R336). -/
def addSavedSlip (s : State) (x : Saved) : State :=
  match x.seq.run with
  | some r => modTask s r.task fun t => { t with copies := t.copies.mapIdx fun i y =>
      if i = r.copy then { y with slip := x.cores.foldl (fun a c => a + c.slip.toNat) y.slip } else y }
  | none => s

/-- Free the save slots of the suspended passes of a task, or of one copy of it (16 R315). A context is keyed by 8 times its Rod-unit plus its slot. -/
def freeSlots (s : State) (task : Nat) (copy : Option Nat) : State :=
  let s1 := s.rk.saved.foldl (fun s e => if savedOf task copy e.2 then addSavedSlip (dropNames (markSlot s e.2.part (e.1 / 8) (e.1 % 8) 0) e.1) e.2 else s) s
  { s1 with rk := { s1.rk with saved := s1.rk.saved.filter fun e => !savedOf task copy e.2 } }

/-- Record a trap of a copy: its code and detail, and whether it is the first of the task; in one cycle the primary's is first (03 R379). -/
def noteTrap (t : Task) (cycle copy primary code detail : Nat) : Task :=
  let other := t.copies.any fun x => x.trap.isSome
  let same : Bool := match t.trapAt with
    | some e => e.1 == cycle
    | none => false
  let first : Bool := !other || (t.copies.getD copy CopyState.fresh).first || (same && copy == primary)
  { t with copies := t.copies.mapIdx fun i x =>
      if i = copy then { x with trap := some (code, detail), first := first } else if first then { x with first := false } else x }

/-- Abort a launch, or one copy of a mirrored one, with a code (16 R315, 03 R379). -/
def abortLaunch (s : State) (task : Nat) (copy : Option Nat) (code detail trapUnit bead pos : Nat) : State :=
  let t := taskOf s task
  let s1 := stopLaunch s task t.launch copy .abort 0 code detail trapUnit bead pos
  match copy with
  | none => freeSlots (modTask s1 task fun t => { t with ending := some (code, detail, false), hold := none }) task none
  | some c => freeSlots (modTask s1 task fun t => { t with copies := t.copies.mapIdx fun i x => if i = c then { x with aborted := true } else x }) task (some c)

/-- Whether a trap of a pass changes nothing, the launch or the copy having trapped before (16 R315, R319; 03 R379). Of two traps of one cycle the lowest Rod-unit,
then the lowest bead, is reported; a fault that converts while a hold drains makes it an abort. -/
def trapIgnored (t : Task) (cycle q bead code copy : Nat) : Bool :=
  let mirrored : Bool := t.copies.length = 2
  let x := t.copies.getD copy CopyState.fresh
  let held := if mirrored then x.held && !x.aborted else t.hold.isSome
  let stands := if mirrored then x.aborted || x.held else t.hold.isSome || t.ending.isSome
  let here : Option (Nat × Nat × Nat) := t.trapAt.filter fun e => !mirrored || e.2.1 / 24 == q / 24
  stands && match here with
    | some (c, q', b') => if c = cycle then !(q < q' || (q == q' && bead < b')) else !(held && !isHold code)
    | none => true

/-- TAKING A TRAP (16 R314, R315, R317): the trapping unit stops in this cycle with its code and detail, every other pass of the launch is asked to stop,
and the Reckoner's action is taken: Abort ends the launch with the code, Hold saves every pass with kind 1 and holds the task; once the passes are saved the PF's MSI-X vector 3 is raised.
For a mirrored task the trap acts on its copy alone and strikes a primary (03 R379). -/
def takeTrap (s : State) (q bead pos code detail : Nat) : State :=
  match (seqOf s q).run with
  | none => s
  | some r =>
    let t := taskOf s r.task
    if trapIgnored t s.cycle q bead code r.copy || t.launch != r.launch then s else
    let primary := bitsAt (sessField s t.session 0 1) 1 1
    let s1 := modTask s r.task fun t => { noteTrap t s.cycle r.copy primary code detail with trapAt := some (s.cycle, q, bead) }
    if t.copies.length = 2 then
      let s2 := modTask s1 r.task fun t => { t with struck := t.struck || r.copy == primary }
      if isHold code then
        let s3 := modTask s2 r.task fun t =>
          { t with copies := t.copies.mapIdx fun i x => if i = r.copy then { x with held := true, aborted := false } else x,
                   hold := some (code, detail, bead, pos) }
        stopLaunch s3 r.task r.launch (some r.copy) .hold 1 code detail q bead pos
      else abortLaunch s2 r.task (some r.copy) code detail q bead pos
    else if isHold code then
      let s2 := modTask s1 r.task fun t => { t with hold := some (code, detail, bead, pos), ending := none }
      stopLaunch s2 r.task r.launch none .hold 1 code detail q bead pos
    else abortLaunch s1 r.task none code detail q bead pos

/-- A trap of the running slot. -/
def trapHere (s : State) (code detail : Nat) : State := takeTrap s s.cur.unit s.cur.bead s.cur.pos code detail

/-- RETURNING FROM A HOLD (16 R316, R324): the hold is cleared; passes held in place start again from their kept state, saved ones wait for dispatch.
DESIGN CHOICE (log 60): a copy of a mirrored task that is resumed counts as not having trapped. -/
def clearHold (s : State) (task : Nat) : State :=
  let s1 := modTask s task fun t =>
    { t with hold := none, trapAt := none,
             copies := t.copies.map fun x => if x.held && !x.aborted then { x with held := false, trap := none, first := false } else x }
  (List.range 48).foldl (fun s q =>
    match (seqOf s q).run, (seqOf s q).stop with
    | some r, some st =>
      if r.task = task ∧ st.phase = .kept ∧ st.cause = .hold then
        let s' := (coresOf s q).foldl (fun s i => modCore s i fun c =>
          { c with ops := c.ops.map fun o => if o.suspended then { o with suspended := false, due := s.cycle + 1 } else o }) s
        modSeq s' q fun u => { u with stop := none, sync := u.sync.map fun w => { w with cycle := s.cycle } }
      else s
    | _, _ => s) s1

end Sys2Proof.Machine
end

