-- ==== Sys2Proof/Machine/Operands.lean ====
section
/-! DEFINITION. Every operand form: scalar, gang, queue, predicate, window, stream and mask operands, guards, jet groups, addresses; with their taint (15 R309). -/

namespace Sys2Proof.Machine

open Sys2Proof

/-- An asynchronous operation of an earlier bundle is outstanding on a named register (06 R112); the slots of a bundle read before any of them issues one (06 R109). -/
def pendingN (c : Core) (r : Nat) : Bool :=
  r ≠ 0 && c.ops.any fun o => decide (o.id < 4 * c.bundleNo) && match o.kind with
    | .load d _ _ _ _ _ | .atomic _ d _ _ _ | .copy _ d _ | .net _ d _ | .sel d _ | .draw d _ _ _ _ | .kv _ d _ _ | .tithe _ d _
    | .launch d _ | .release d _ _ | .sent d _ _ | .posted d _ _ _ _ | .coll d _ _ _ | .asked d _ | .landAt d _ _ _ => d.val == r
    | _ => false

/-- The lanes of a physical window register with an asynchronous write of an earlier bundle outstanding. -/
def pendingLanes (c : Core) (reg : Nat) : LaneMask :=
  (c.ops.filter fun o => decide (o.id < 4 * c.bundleNo)).foldl (fun a o => match o.kind with
    | .vload r lanes _ => if r = reg then a ||| ofBits fun i => lanes.any fun e => e.1 == i else a
    | .eng (.accrd r _ lanes _ _) => if r = reg then a ||| lanes else a
    | _ => a) 0

/-- Read a scalar operand as it stands at issue (05 R87, 06 R104, R109): the gang registers are those of bead 0's issue of this bundle. -/
def readS (c : Core) : SOp → TWord
  | .n i => let x := c.getN i.val; ⟨x.v, x.t || pendingN c i.val⟩
  | .q i => c.q.getD i.val ⟨0, false⟩
  | .g i => Tbl.get ⟨0, false⟩ c.cur i.val

/-- A scalar operand as a plain value. -/
def readV64 (c : Core) (o : SOp) : Word := (readS c o).v

/-- The guard of a scalar slot (07 R119): met when the predicate XOR negate is 1 and the bead is not parked. -/
def guardMet (c : Core) (g : Guard) : Bool := !c.parked && ((c.getP g.p.val).v != g.neg)
/-- The taint that a guard and the bead's control taint lend to what the slot writes. -/
def guardTaint (c : Core) (g : Guard) : Bool := (c.getP g.p.val).t || c.ctlTaint

/-- The guard of a memory slot with the scalar-data flag: a predicate without negate (05 R98). -/
def predMet (c : Core) (p : Fin 8) : Bool := !c.parked && (c.getP p.val).v
def predTaint (c : Core) (p : Fin 8) : Bool := (c.getP p.val).t || c.ctlTaint

/-- The lanes of the clusters that %CMK enables (09 R171). -/
def cmkLanes (cmk : BitVec 8) : LaneMask := ofBits fun i => cmk.getLsbD (i / 16)

/-- The active lanes under a mask register (09 R171). A parked bead has none. -/
def active (c : Core) (m : Fin 8) : LaneMask := if c.parked then 0 else cmkLanes c.cmk &&& (c.getM m.val).v
/-- Every lane of every enabled cluster. -/
def enabled (c : Core) : LaneMask := if c.parked then 0 else cmkLanes c.cmk

/-- The taint of guarding lanes and of control (15 R309). -/
def laneGuardTaint (c : Core) (m : Fin 8) : LaneMask := (c.getM m.val).t ||| (if c.ctlTaint then BitVec.allOnes 128 else 0)
def ctlLanes (c : Core) : LaneMask := if c.ctlTaint then BitVec.allOnes 128 else 0

/-- The physical window register of a name (06 R108): the window base as it stands at issue. -/
def physW (c : Core) (i : Nat) : Nat := c.vwb.toNat + i

/-- Read a window register with the taint of outstanding writes. -/
def readW (c : Core) (i : Nat) : TVec :=
  let x := c.getW (physW c i)
  ⟨x.v, x.t ||| pendingLanes c (physW c i)⟩

/-- The element at the head of an input stream (11 R228). -/
def streamHead (st : Stream) : TVec := st.buf.getD (st.position - (st.fetched - st.buf.length)) ⟨0, 0⟩

/-- Read a vector operand (05 R88). -/
def readVec (c : Core) : VOp → TVec
  | .v i => readW c i.val
  | .z i => streamHead (streamOf c i.val)
  | .vq i => c.vq.getD i.val ⟨0, 0⟩

/-- The jet order and the group alignment A(k) (10 R202). -/
def jetAlign (k : Nat) : Nat := if k = 0 then 1 else if k = 1 then 2 else if k ≤ 3 then 4 else 8

/-- Read a jet group: coefficient n in register base + n. -/
def readGroup (c : Core) (base : Nat) : List TVec := (List.range (c.jord.toNat + 1)).map fun n => readW c (base + n)

/-- The window name of an operand that a form limits to window registers. -/
def winName : VOp → Nat
  | .v i => i.val
  | .z i => i.val
  | .vq i => i.val

/-- The address of a memory operand (05 R95). -/
def memAddr (c : Core) (base : SOp) (imm : BitVec 24) (scale : Nat) : Nat :=
  (readV64 c base + (imm.signExtend 64) * BitVec.ofNat 64 scale).toNat

/-- A result for a vector destination: lanes of a window register, or a whole element of an output stream whose inactive lanes are zero (09 R174). -/
def vecResult (c : Core) (dst : VOp) (x : TVec) (lanes : LaneMask) : LandKind :=
  match dst with
  | .v i => .vec (physW c i.val) x lanes
  | .z i =>
    let st := streamOf c i.val
    .out i ⟨mergeLanes lanes x.v 0, x.t &&& lanes⟩ (c.cmk != 0) ((st.desc.map fun d => elemVa d c.ordinal st.position).getD 0) (4 * c.bundleNo)
  | .vq _ => .vec (physW c 0) x 0

/-- Taint of a result all of whose active lanes come from one source: a bit per lane. -/
def spreadTaint (t : Bool) : LaneMask := if t then BitVec.allOnes 128 else 0

/-- A cross-lane form's taint: the OR over every lane read (15 R309). -/
def anyTaint (x : TVec) (lanes : LaneMask) : Bool := (x.t &&& lanes) != 0

end Sys2Proof.Machine
end

