-- ==== Sys2Proof/Machine/Scalar.lean ====
section
/-! DEFINITION. The scalar slots' arithmetic, logic, bit fields, moves, compares, predicate logic and special registers (07 R119 to R129). -/

namespace Sys2Proof.Machine

open Sys2Proof

/-- The outcome of every meaning. -/
abbrev Out := Host.Outcome State Fault Refusal

/-! ## Shared forms -/

/-- Deliver a scalar result under a guard, tainted by its inputs, its guard and control (07 R119, 15 R309). -/
def writeN (s : State) (g : Guard) (lat : Nat) (dst : Fin 32) (x : TWord) : State :=
  if guardMet (curCore s) g then emit s lat (.scalar dst ⟨x.v, x.t || guardTaint (curCore s) g⟩) else s

/-- Deliver a predicate under a guard. -/
def writeP (s : State) (g : Guard) (dst : Fin 8) (x : TBit) : State :=
  if guardMet (curCore s) g then emit s 1 (.pred dst ⟨x.v, x.t || guardTaint (curCore s) g⟩) else s

/-- An operation on two values carries the taint of both. -/
def map2 (op : Word → Word → Word) (x y : TWord) : TWord := ⟨op x.v y.v, x.t || y.t⟩

/-- The SR form: dst ← op(read(a), read(b)) (07 R121). -/
def runSR (op : Word → Word → Word) (lat : Nat) (f : SR) (s : State) : State :=
  writeN s f.g lat f.dst (map2 op (readS (curCore s) f.a) (readS (curCore s) f.b))

/-- The SI form: dst ← op(read(a), sext(imm16)) (07 R121). -/
def runSI (op : Word → Word → Word) (lat : Nat) (f : SI) (s : State) : State :=
  writeN s f.g lat f.dst (map2 op (readS (curCore s) f.a) ⟨f.imm.signExtend 64, false⟩)

/-- The immediate shifts (07 R121). -/
def runSSh (op : Word → Word → Word) (f : SSh) (s : State) : State :=
  writeN s f.g 1 f.dst (map2 op (readS (curCore s) f.a) ⟨BitVec.ofNat 64 f.sh.val, false⟩)

/-- The SU form: dst ← op(read(a)) (07 R124). -/
def runSU (op : Word → Word) (f : SU) (s : State) : State :=
  writeN s f.g 1 f.dst ⟨op (readS (curCore s) f.a).v, (readS (curCore s) f.a).t⟩

/-- The SP form: pD ← rel(read(a), read(b)) (07 R126). -/
def runSP (rel : Word → Word → Bool) (f : SP) (s : State) : State :=
  writeP s f.g f.pd ⟨rel (readS (curCore s) f.a).v (readS (curCore s) f.b).v, (readS (curCore s) f.a).t || (readS (curCore s) f.b).t⟩

/-- The SPI form; `zx` zero-extends the immediate (07 R126). -/
def runSPI (rel : Word → Word → Bool) (zx : Bool) (f : SPI) (s : State) : State :=
  writeP s f.g f.pd ⟨rel (readS (curCore s) f.a).v (if zx then f.imm.zeroExtend 64 else f.imm.signExtend 64), (readS (curCore s) f.a).t⟩

/-- The SQ form: pD ← pA op pB (07 R127). -/
def runSQ (op : Bool → Bool → Bool) (f : SQ) (s : State) : State :=
  let x := (curCore s).getP f.pa.val
  let y := (curCore s).getP f.pb.val
  writeP s f.g f.pd ⟨op x.v y.v, x.t || y.t⟩

/-! ## Operations -/

def opShl (x y : Word) : Word := x <<< (y.toNat % 64)
def opShr (x y : Word) : Word := x >>> (y.toNat % 64)
def opSar (x y : Word) : Word := x.sshiftRight (y.toNat % 64)
def opRol (x y : Word) : Word := (x <<< (y.toNat % 64)) ||| (x >>> (64 - y.toNat % 64))
def opMin (x y : Word) : Word := if x.slt y then x else y
def opMax (x y : Word) : Word := if x.slt y then y else x
def opMinu (x y : Word) : Word := if x.ult y then x else y
def opMaxu (x y : Word) : Word := if x.ult y then y else x
/-- Bits [127:64] of the signed and of the unsigned product. -/
def opMulh (x y : Word) : Word := BitVec.ofInt 64 (x.toInt * y.toInt / 2^64)
def opMulhu (x y : Word) : Word := BitVec.ofNat 64 (x.toNat * y.toNat / 2^64)

/-- The divide forms with their two fixed cases (07 R122). -/
def opDiv (x y : Word) : Word :=
  if y = 0 then 0xFFFFFFFFFFFFFFFF
  else if x = 0x8000000000000000 ∧ y = 0xFFFFFFFFFFFFFFFF then x
  else BitVec.ofInt 64 (x.toInt.tdiv y.toInt)
def opDivu (x y : Word) : Word := if y = 0 then 0xFFFFFFFFFFFFFFFF else BitVec.ofNat 64 (x.toNat / y.toNat)
def opRem (x y : Word) : Word :=
  if y = 0 then x
  else if x = 0x8000000000000000 ∧ y = 0xFFFFFFFFFFFFFFFF then 0
  else BitVec.ofInt 64 (x.toInt - y.toInt * x.toInt.tdiv y.toInt)
def opRemu (x y : Word) : Word := if y = 0 then x else BitVec.ofNat 64 (x.toNat % y.toNat)

/-- Counts and the bit reversal (07 R124). -/
def opClz (x : Word) : Word := if x = 0 then 64 else BitVec.ofNat 64 (63 - Nat.log2 x.toNat)
/-- Zeros below the lowest set bit of the bits from `i` on, over `n` places. -/
def ctzFrom (x : Word) (i : Nat) : Nat → Nat
  | 0 => 0
  | n + 1 => if x.getLsbD i then 0 else 1 + ctzFrom x (i + 1) n
def opCtz (x : Word) : Word := BitVec.ofNat 64 (ctzFrom x 0 64)
def opPopc (x : Word) : Word := BitVec.ofNat 64 ((List.range 64).countP fun i => x.getLsbD i)
def opBrev (x : Word) : Word := BitVec.ofNat 64 (packFrom 1 (fun i => if x.getLsbD (63 - i) then 1 else 0) 64)

/-- Bit fields (07 R123). -/
def opBfx (x : Word) (lsb len : Nat) : Word := BitVec.ofInt 64 (sextNat (bitsAt x.toNat lsb len) len)
def opBfxu (x : Word) (lsb len : Nat) : Word := BitVec.ofNat 64 (bitsAt x.toNat lsb len)
def opBfi (d x : Word) (lsb len : Nat) : Word :=
  let m : Word := BitVec.ofNat 64 ((2^len - 1) * 2^lsb)
  (d &&& ~~~m) ||| (BitVec.ofNat 64 (x.toNat % 2^len * 2^lsb))
/-- Replace half-word h (07 R125). -/
def opMovk (d : Word) (h : Nat) (imm : BitVec 16) : Word := opBfi d (imm.zeroExtend 64) (16 * h) 16

/-! ## Meanings -/

def execNop (s : State) : Out := .next s
def execAdd (f : SR) (s : State) : Out := .next (runSR (· + ·) 1 f s)
def execSub (f : SR) (s : State) : Out := .next (runSR (· - ·) 1 f s)
def execAnd (f : SR) (s : State) : Out := .next (runSR (· &&& ·) 1 f s)
def execOr (f : SR) (s : State) : Out := .next (runSR (· ||| ·) 1 f s)
def execXor (f : SR) (s : State) : Out := .next (runSR (· ^^^ ·) 1 f s)
def execAndn (f : SR) (s : State) : Out := .next (runSR (fun x y => x &&& ~~~y) 1 f s)
def execShl (f : SR) (s : State) : Out := .next (runSR opShl 1 f s)
def execShr (f : SR) (s : State) : Out := .next (runSR opShr 1 f s)
def execSar (f : SR) (s : State) : Out := .next (runSR opSar 1 f s)
def execRol (f : SR) (s : State) : Out := .next (runSR opRol 1 f s)
def execMin (f : SR) (s : State) : Out := .next (runSR opMin 1 f s)
def execMax (f : SR) (s : State) : Out := .next (runSR opMax 1 f s)
def execMinu (f : SR) (s : State) : Out := .next (runSR opMinu 1 f s)
def execMaxu (f : SR) (s : State) : Out := .next (runSR opMaxu 1 f s)
def execMul (f : SR) (s : State) : Out := .next (runSR (· * ·) 3 f s)
def execMulh (f : SR) (s : State) : Out := .next (runSR opMulh 3 f s)
def execMulhu (f : SR) (s : State) : Out := .next (runSR opMulhu 3 f s)
def execDiv (f : SR) (s : State) : Out := .next (runSR opDiv 14 f s)
def execDivu (f : SR) (s : State) : Out := .next (runSR opDivu 14 f s)
def execRem (f : SR) (s : State) : Out := .next (runSR opRem 14 f s)
def execRemu (f : SR) (s : State) : Out := .next (runSR opRemu 14 f s)

/-- SEL always executes on a bead that is not parked; the guard field is its selector (07 R125). -/
def execSel (f : SR) (s : State) : Out :=
  let c := curCore s
  let x := readS c f.a
  let y := readS c f.b
  let p := c.getP f.g.p.val
  .next (if c.parked then s
    else emit s 1 (.scalar f.dst ⟨if p.v != f.g.neg then x.v else y.v, x.t || y.t || p.t || c.ctlTaint⟩))

def execBfx (f : SBf) (s : State) : Out :=
  let x := readS (curCore s) f.a
  .next (writeN s f.g 1 f.dst ⟨opBfx x.v f.lsb.val (f.lenM1.val + 1), x.t⟩)
def execBfxu (f : SBf) (s : State) : Out :=
  let x := readS (curCore s) f.a
  .next (writeN s f.g 1 f.dst ⟨opBfxu x.v f.lsb.val (f.lenM1.val + 1), x.t⟩)
def execBfi (f : SBf) (s : State) : Out :=
  let x := readS (curCore s) f.a
  let d := readS (curCore s) (.n f.dst)
  .next (writeN s f.g 1 f.dst ⟨opBfi d.v x.v f.lsb.val (f.lenM1.val + 1), d.t || x.t⟩)

def execClz (f : SU) (s : State) : Out := .next (runSU opClz f s)
def execCtz (f : SU) (s : State) : Out := .next (runSU opCtz f s)
def execPopc (f : SU) (s : State) : Out := .next (runSU opPopc f s)
def execBrev (f : SU) (s : State) : Out := .next (runSU opBrev f s)

def execCmpeq (f : SP) (s : State) : Out := .next (runSP (· == ·) f s)
def execCmpne (f : SP) (s : State) : Out := .next (runSP (· != ·) f s)
def execCmplt (f : SP) (s : State) : Out := .next (runSP BitVec.slt f s)
def execCmple (f : SP) (s : State) : Out := .next (runSP BitVec.sle f s)
def execCmpltu (f : SP) (s : State) : Out := .next (runSP BitVec.ult f s)
def execCmpleu (f : SP) (s : State) : Out := .next (runSP BitVec.ule f s)
def execCmpeqi (f : SPI) (s : State) : Out := .next (runSPI (· == ·) false f s)
def execCmpnei (f : SPI) (s : State) : Out := .next (runSPI (· != ·) false f s)
def execCmplti (f : SPI) (s : State) : Out := .next (runSPI BitVec.slt false f s)
def execCmplei (f : SPI) (s : State) : Out := .next (runSPI BitVec.sle false f s)
def execCmpltui (f : SPI) (s : State) : Out := .next (runSPI BitVec.ult true f s)
def execCmpleui (f : SPI) (s : State) : Out := .next (runSPI BitVec.ule true f s)

def execPand (f : SQ) (s : State) : Out := .next (runSQ (· && ·) f s)
def execPor (f : SQ) (s : State) : Out := .next (runSQ (· || ·) f s)
def execPxor (f : SQ) (s : State) : Out := .next (runSQ (· != ·) f s)

def execAddi (f : SI) (s : State) : Out := .next (runSI (· + ·) 1 f s)
def execSubi (f : SI) (s : State) : Out := .next (runSI (· - ·) 1 f s)
def execAndi (f : SI) (s : State) : Out := .next (runSI (· &&& ·) 1 f s)
def execOri (f : SI) (s : State) : Out := .next (runSI (· ||| ·) 1 f s)
def execXori (f : SI) (s : State) : Out := .next (runSI (· ^^^ ·) 1 f s)
def execShli (f : SSh) (s : State) : Out := .next (runSSh opShl f s)
def execShri (f : SSh) (s : State) : Out := .next (runSSh opShr f s)
def execSari (f : SSh) (s : State) : Out := .next (runSSh opSar f s)
def execMini (f : SI) (s : State) : Out := .next (runSI opMin 1 f s)
def execMaxi (f : SI) (s : State) : Out := .next (runSI opMax 1 f s)
def execMuli (f : SI) (s : State) : Out := .next (runSI (· * ·) 3 f s)

def execMovi (f : SMovi) (s : State) : Out := .next (writeN s f.g 1 f.dst ⟨f.imm.signExtend 64, false⟩)
/-- MOVK reads its destination at issue (07 R125). -/
def execMovk (f : SK) (s : State) : Out :=
  let d := readS (curCore s) (.n f.dst)
  .next (writeN s f.g 1 f.dst ⟨opMovk d.v f.h.val f.imm, d.t⟩)

/-! ## Special registers -/

/-- The 40 jet flags: OR over the eight clusters (06 R106). -/
def jflgAll (c : Core) : BitVec 40 := (List.range 8).foldl (fun a i => a ||| Tbl.get 0 c.jflg i) 0

/-- The value an MFS returns, with its taint (06 R106, 07 R128, 15 R309). -/
def readSpecial (s : State) (r : SReg) : TWord :=
  let c := curCore s
  let t := runTask s s.cur.unit
  let u := curSeq s
  match r with
  | .flg => ⟨c.flg.zeroExtend 64, false⟩
  | .rnd => ⟨c.rnd.zeroExtend 64, false⟩
  | .jord => ⟨c.jord.zeroExtend 64, false⟩
  | .jflg => ⟨(jflgAll c).zeroExtend 64, false⟩
  | .vwb => ⟨c.vwb.zeroExtend 64, false⟩
  | .cmk => ⟨c.cmk.zeroExtend 64, false⟩
  | .wid => ⟨c.wid, false⟩
  | .bead => ⟨BitVec.ofNat 64 s.cur.bead.val, false⟩
  | .rodid => ⟨BitVec.ofNat 64 s.cur.unit.val, true⟩
  | .skew => ⟨BitVec.ofNat 64 ((u.run.map (·.skew)).getD 0), false⟩
  | .pword => ⟨BitVec.ofNat 64 t.pword, false⟩
  | .svm => ⟨c.svm.zeroExtend 64, false⟩
  | .det => ⟨if t.det then 1 else 0, false⟩
  | .dl => ⟨((u.run.map PassRun.level).getD 0).zeroExtend 64, false⟩
  | .occ => ⟨c.occ.zeroExtend 64, false⟩
  | .dlen => ⟨c.dlen.zeroExtend 64, false⟩
  | .tick => ⟨BitVec.ofNat 64 (Nat.min 0xFFFFFFFF (u.cycles / 256)), true⟩
  | .time => ⟨BitVec.ofNat 64 (now s), true⟩
  | .slip => ⟨c.slip.zeroExtend 64, true⟩
  | .blc i => ⟨(Tbl.get 0 c.blc i.val).zeroExtend 64, true⟩
  | .mprec => ⟨c.mprec.zeroExtend 64, false⟩
  | .gang i => readS c (.g i)

/-- MFS, and the clearing of a bank-loss counter that is read (07 R128). -/
def execMfs (f : SMfs) (s : State) : Out :=
  .next (if guardMet (curCore s) f.g then
    let s1 := writeN s f.g 1 f.dst (readSpecial s f.reg)
    match f.reg with
    | .blc i => emit s1 1 (.blcClear i)
    | _ => s1
  else s)

/-- The limit of %VWB, tested on the 12 bits that would be written (06 R106). -/
def vwbOk (pw : Nat) (x : Word) : Bool :=
  let b := x.toNat % 4096
  b % 8 == 0 && decide (b + 232 ≤ 256 * vwfOf pw)

/-- Whether an MTS traps when it issues: its %VWB value breaks the limit. -/
def mtsTraps (s : State) (f : SMts) : Bool :=
  guardMet (curCore s) f.g && f.reg == .vwb && !vwbOk (curPword s) (readV64 (curCore s) f.a)

/-- Write a gang register: the sequencer holds it for the bundles that follow (06 R104). -/
def setGang (s : State) (i : Fin 16) (x : TWord) : State :=
  modCurSeq s fun u => { u with gang := Tbl.set ⟨0, false⟩ u.gang i.val x }

/-- MTS: a special register from the next bundle on; a gang register from bead 0 alone (07 R128). -/
def execMts (f : SMts) (s : State) : Out :=
  let c := curCore s
  .next (if guardMet c f.g then
    if mtsTraps s f then trapHere s 0x0302 s.cur.slot.val
    else match f.reg with
    | .gang i =>
      if s.cur.bead = 0 then setGang s i ⟨readV64 c f.a, (readS c f.a).t || guardTaint c f.g⟩ else s
    | r => emit s 1 (.special r (readV64 c f.a))
  else s)

/-- WIDF: one level of the bead's work identifier (07 R129). -/
def execWidf (f : SLevel) (s : State) : Out :=
  let t := runTask s s.cur.unit
  let shift := (List.range f.level.val).foldl (fun a i => a + t.wid i) 0
  .next (writeN s f.g 1 f.dst ⟨BitVec.ofNat 64 (bitsAt (curCore s).wid.toNat shift (t.wid f.level.val)), false⟩)

end Sys2Proof.Machine
end

