-- ==== Sys2Proof/Machine/Control.lean ====
section
/-! DEFINITION. Sequencer control: the index stream, transfers and delay bundles, Rod-wide tests, loops, waiting, kernel end (05 R74 to R77, 07 R130 to R141); and the system forms (07 R142 to R146). -/

namespace Sys2Proof.Machine

open Sys2Proof

/-! ## The index stream -/

/-- The virtual address of a position of the unit's index stream (01 R8, 05 R76). -/
def positionVa (t : Task) (pos : Nat) : Nat := cmdField t.cmd 16 8 + imgField t.img 16 4 + 2 * pos

/-- The halfword at a position, if its 64-byte line has been fetched (05 R77). -/
def halfAt (u : Seq) (t : Task) (pos : Nat) : Option Nat :=
  (Tbl.find? u.lines (positionVa t pos / 64)).map fun l => bitsAt l.toNat (8 * (positionVa t pos % 64)) 16

/-- The position that follows a position in stream order (05 R74): by 25 after an escape. -/
def succPos (u : Seq) (t : Task) (pos : Nat) : Nat := if halfAt u t pos = some 0xFFFF then pos + 25 else pos + 1

/-! ## Transfers -/

/-- Whether the running slot speaks for the Rod: bead 0's copy of the bundle (07 R120). -/
def speaks (s : State) : Bool := s.cur.bead == 0

/-- A taken transfer: two delay bundles, then the bundle at the target (07 R131). -/
def transfer (s : State) (target : Word) : State := modCurSeq s fun u => { u with target := some (target, 2) }

/-- A relative target. -/
def relTarget (s : State) (imm : BitVec 16) : Word := BitVec.ofNat 64 s.cur.pos + imm.signExtend 64

/-- Put a result in flight on a given core. -/
def emitOn (s : State) (c : Nat) (dist : Nat) (k : LandKind) : State :=
  modCore s c fun x => { x with inflight := x.inflight ++ [⟨dist, s.cur.slot, x.bundleNo, k⟩] }

/-- The bundles that wait in a bead's broadcast queue. -/
def queuedBundles (c : Core) : Nat := (c.bq.filter fun e => match e with
  | .bundle _ _ _ => true
  | .stall => false).length

/-- A tainted test or count sets every bead's control taint for what follows its own copy of the bundle, which is the last of the bead's queue (15 R309, 02 R38). -/
def taintControl (s : State) (t : Bool) : State :=
  if t then (coresOf s s.cur.unit).foldl (fun s c => emitOn s c (1 + queuedBundles (coreGet s c)) .control) s else s

/-- The test value of one bead: a parked bead contributes the neutral value (07 R132). -/
def testValue (neutral : Bool) (g : Guard) (c : Core) : Bool := if c.parked then neutral else (c.getP g.p.val).v != g.neg

/-- The Rod-wide ANY and ALL, in the cycle in which bead 0 issues (07 R134). -/
def rodAny (s : State) (g : Guard) : Bool := (coresOf s s.cur.unit).any fun i => testValue false g (coreGet s i)
def rodAll (s : State) (g : Guard) : Bool := (coresOf s s.cur.unit).all fun i => testValue true g (coreGet s i)
/-- The taint of a Rod-wide test. -/
def rodTaint (s : State) (g : Guard) : Bool :=
  (coresOf s s.cur.unit).any fun i => !(coreGet s i).parked && ((coreGet s i).getP g.p.val).t

def execBr (imm : BitVec 16) (s : State) : Out := .next (if speaks s then transfer s (relTarget s imm) else s)

def execBrany (f : CTest) (s : State) : Out :=
  .next (if speaks s then
    let s1 := taintControl s (rodTaint s f.t)
    if rodAny s f.t then transfer s1 (relTarget s f.imm) else s1
  else s)

def execBrall (f : CTest) (s : State) : Out :=
  .next (if speaks s then
    let s1 := taintControl s (rodTaint s f.t)
    if rodAll s f.t then transfer s1 (relTarget s f.imm) else s1
  else s)

/-- The gang operand of a branch or return, as bead 0's issue sees it. -/
def gangOf (s : State) (g : Fin 16) : TWord := readS (curCore s) (.g g)

def execBrgz (f : CGang) (s : State) : Out :=
  .next (if speaks s then
    let s1 := taintControl s (gangOf s f.g).t
    if (gangOf s f.g).v = 0 then transfer s1 (relTarget s f.imm) else s1
  else s)

def execBrgnz (f : CGang) (s : State) : Out :=
  .next (if speaks s then
    let s1 := taintControl s (gangOf s f.g).t
    if (gangOf s f.g).v ≠ 0 then transfer s1 (relTarget s f.imm) else s1
  else s)

/-- CALL: the return position follows the second delay bundle in stream order (07 R133). -/
def returnPos (s : State) : Nat :=
  let u := curSeq s
  let t := runTask s s.cur.unit
  succPos u t (succPos u t (succPos u t s.cur.pos))

def execCall (f : CGang) (s : State) : Out :=
  .next (if speaks s then
    transfer (setGang s f.g ⟨BitVec.ofNat 64 (returnPos s), (curCore s).ctlTaint⟩) (relTarget s f.imm)
  else s)

def execRet (g : Fin 16) (s : State) : Out := .next (if speaks s then transfer s (gangOf s g).v else s)

/-! ## Loops -/

/-- Close an iteration of the innermost loop at a bundle's position (07 R136): `u.pc` is the bundle's sequential successor, as it stands after the bundle.
A close of a P loop is a pre-emption point, honoured when a request has arrived (03 R52). -/
def closeLoop (cycle : Nat) (pos : Nat) (u : Seq) : Seq :=
  match u.loops with
  | [] => u
  | e :: r =>
    let i := e.index + 1
    let u1 := if i.ult e.count then { u with loops := { e with stop := some pos, index := i } :: r, pc := BitVec.ofNat 64 e.start }
      else { u with loops := r }
    match u.preempt with
    | some at_ => if e.p ∧ at_ < cycle then { u1 with point := true } else u1
    | none => u1

/-- Push a loop whose count has a taint (07 R135), or trap when the depth would exceed six. -/
def pushLoop (s : State) (p : Bool) (count : BitVec 32) (t : Bool) : State :=
  if 6 ≤ (curSeq s).loops.length then trapHere s 0x0302 0
  else modCurSeq (taintControl s t) fun u =>
    { u with loops := ⟨0, if count = 0 then 1 else count, succPos u (runTask s s.cur.unit) s.cur.pos, none, p⟩ :: u.loops }

def execLoop (f : CLoop) (s : State) : Out :=
  .next (if speaks s then pushLoop s f.p ((readV64 (curCore s) f.a).truncate 32) (readS (curCore s) f.a).t else s)

def execLoopi (f : CLoopI) (s : State) : Out := .next (if speaks s then pushLoop s f.p (f.count.zeroExtend 32) false else s)

/-- The iteration in progress becomes the last (07 R137). -/
def breakLoop (u : Seq) : Seq :=
  match u.loops with
  | [] => u
  | e :: r => { u with loops := { e with count := e.index + 1 } :: r }

/-- LBRK acts before the close of its own bundle, which it makes. -/
def execLbrk (g : Guard) (s : State) : Out :=
  .next (if speaks s then
    if (curSeq s).loops.isEmpty then trapHere s 0x0302 0
    else
      let s1 := taintControl s (rodTaint s g)
      let s2 := if rodAny s g then modCurSeq s1 breakLoop else s1
      if s.cur.lend then modCurSeq s2 (closeLoop s.cycle s.cur.pos) else s2
  else s)

/-- LIDX: the loop index of the bundle's iteration, the same on every bead (07 R120, R138). The broadcast holds the indices at keys 16 on. -/
def execLidx (f : CLidx) (s : State) : Out :=
  let c := curCore s
  .next (if c.parked then s
    else match Tbl.find? c.cur (16 + f.level.val) with
      | some x => emit s 1 (.scalar f.dst ⟨x.v, c.ctlTaint⟩)
      | none => trapHere s 0x0302 0)

/-! ## Waiting, schedules and kernel end -/

/-- Whether the wait counters 1 to 6 meet their limits (07 R139): 15 always passes. -/
def limitsMet (c : Core) (l : List Nat) : Bool :=
  (List.range 6).all fun i => l.getD i 15 == 15 || decide (c.ctr (i + 1) ≤ l.getD i 15)

/-- WAIT: the bead's limits stand, and freeze the Rod, until they are met. -/
def execWait (f : CWait) (s : State) : Out :=
  .next (modCur s fun c => { c with limits := some [f.ld.val, f.st.val, f.cp.val, f.mx.val, f.en.val, f.nw.val] })

/-- The schedule SCHSEL selects (01 R10): the first entry that serves both values, else the last. -/
def pickSched (occ dlen : Nat) : List (Nat × Nat × Nat) → Option Nat
  | [] => none
  | [e] => some e.1
  | e :: r => if occ ≤ e.2.1 ∧ dlen ≤ e.2.2 then some e.1 else pickSched occ dlen r

def execSchsel (s : State) : Out :=
  let c := curCore s
  .next (if speaks s then
    match pickSched c.occ.toNat c.dlen.toNat (((curSeq s).dict.map (·.scheds)).getD []) with
    | some p => transfer s (BitVec.ofNat 64 p)
    | none => trapHere s 0x0302 0
  else s)

/-- END: the bead waits for its counters and then retires (07 R141). The unit broadcasts nothing after it. -/
def execEndK (s : State) : Out :=
  .next (modCurSeq (modCur s fun c => { c with ending := true }) fun u => { u with ended := u.ended || speaks s })

/-! ## System forms -/

/-- TRAP (07 R142): the bundle performs, then the launch is held with SOFTWARE_TRAP and the code as detail. -/
def execTrap (f : CT) (s : State) : Out :=
  .next (if guardMet (curCore s) f.g then trapHere s 0x0401 f.imm.toNat else s)

/-- A TRAP of the same bundle that executes in S1. -/
def trapFollows (s : State) : Bool :=
  s.issue.any fun w => w.ctx.unit == s.cur.unit && w.ctx.bead == s.cur.bead && w.ctx.slot == 1 &&
    match decode w.kind w.word with
    | .ok (.trap f) => guardMet (curCore s) f.g
    | _ => false

/-- BREAK (07 R142); a TRAP of the same bundle is reported in its place. -/
def execBrk (g : Guard) (s : State) : Out :=
  .next (if guardMet (curCore s) g ∧ trapFollows s = false then trapHere s 0x0402 0 else s)

/-- The 32 bytes of a service record (07 R143). -/
def serviceRecord (s : State) (service : BitVec 16) : List Byte :=
  let c := curCore s
  leBytes service.toNat 2 ++ leBytes s.cur.bead.val 1 ++ leBytes s.cur.unit.val 1 ++ leBytes s.cur.pos 4 ++ leBytes c.wid.toNat 8 ++
    leBytes (readV64 c (.n 1)).toNat 8 ++ leBytes (readV64 c (.n 2)).toNat 8

/-- Post a service record on a partition's ring (07 R143, R144): the bytes before the tail; a full or disabled ring counts the loss. DESIGN CHOICE (log 72): a base that is no multiple of
8 KiB, or that lies elsewhere than R144 says, is stored as it is written, and records go where it points. -/
def postService (s : State) (p : Nat) (rec_ : List Byte) : State :=
  let base := pfGet s (0xF0400 + 16 * p) 8
  let ptr := 0xF0408 + 16 * p
  let head := pfGet s ptr 1
  let tail := pfGet s (ptr + 1) 1
  if base = 0 ∨ (tail + 1) % 256 = head then pfSet s (ptr + 2) 4 (Nat.min 0xFFFFFFFF (pfGet s (ptr + 2) 4 + 1))
  else pfSet (performBytes s (base + 32 * tail) rec_) (ptr + 1) 1 ((tail + 1) % 256)

/-- SVC: the bead's record is posted at the end of the cycle, or, where an access of the Rod-unit's bundle waits for a fault, once that is resolved: were the fault to convert, the bundle
would have to have performed nothing (16 R317). -/
def execSvc (f : CT) (s : State) : Out :=
  .next (if guardMet (curCore s) f.g then modCur s fun c => { c with svc := c.svc ++ [serviceRecord s f.imm] } else s)

/-- The records of a unit's beads are posted, the lower bead first, unless an access on some bead waits for a fault or in its slot (07 R143, 16 R317). -/
def postServices (s : State) (q : Nat) : State :=
  let l := coresOf s q
  if l.all fun i => (coreGet s i).svc.isEmpty then s
  else if l.any fun i => (coreGet s i).held ≠ [] || (coreGet s i).ops.any fun o => o.waiting then s
  else l.foldl (fun s i =>
    let c := coreGet s i
    modCore (c.svc.foldl (fun s r => postService s (((seqOf s q).run.map (·.part)).getD 0) r) s) i fun c => { c with svc := [] }) s

/-- SAVEM: the bead's %SVM from the next bundle on (07 R145). -/
def execSavem (f : CSavem) (s : State) : Out :=
  .next (if guardMet (curCore s) f.g then emit s 1 (.savemask ((readV64 (curCore s) f.a).truncate 48)) else s)

/-- The slack of a region in the launch header (01 R13). -/
def slackOf (t : Task) (region : Nat) : Nat := hdrField t.hdr (64 + 2 * region) 2

/-- SLACK: every bound stream of the region gets the header's slack again (07 R146). -/
def execSlack (f : CSlack) (s : State) : Out :=
  let t := runTask s s.cur.unit
  .next (if guardMet (curCore s) f.g then
    modCur s fun c => (List.range 8).foldl (fun c z =>
      let st := streamOf c z
      if st.bound && st.desc.isSome && st.region == f.region.val then setStream c z { st with slack := slackOf t f.region.val } else c) c
  else s)

end Sys2Proof.Machine
end

