-- ==== Sys2Proof/Machine/Digest.lean ====
section
/-! DEFINITION. The algorithms that the manual names for trust (18 R360, R364): SHA-384, ECDSA on P-384, LMS with SHA-256/192. PRESUMED (log 9): as their standards give them
(FIPS 180-4, FIPS 186-5, NIST SP 800-208 with RFC 8554). -/

namespace Sys2Proof.Machine

open Sys2Proof

/-! ## SHA-2 -/

/-- The first w bits of the fraction of the k-th root of n, n below 2^10. -/
def rootBits (k w n : Nat) : Nat :=
  ((List.range (w + 5)).reverse.foldl (fun a i => if (a + 2^i)^k ≤ n * 2^(k * w) then a + 2^i else a) 0) % 2^w

/-- The first eighty primes. -/
def primes : List Nat := (List.range 410).filter fun n => decide (2 ≤ n) && (List.range n).all fun d => decide (d < 2) || n % d ≠ 0

/-- A member of the family: word bits, rounds, the rotations of the two message and the two state functions (the last of a message function is a shift), the bytes of the length. -/
structure Sha2 where
  w : Nat
  rounds : Nat
  s0 : Nat × Nat × Nat
  s1 : Nat × Nat × Nat
  e0 : Nat × Nat × Nat
  e1 : Nat × Nat × Nat
deriving DecidableEq, Repr

def sha256p : Sha2 := ⟨32, 64, (7, 18, 3), (17, 19, 10), (2, 13, 22), (6, 11, 25)⟩
def sha512p : Sha2 := ⟨64, 80, (1, 8, 7), (19, 61, 6), (28, 34, 39), (14, 18, 41)⟩

def rotr (w n x : Nat) : Nat := x / 2^n + x % 2^n * 2^(w - n)

/-- A message function and a state function. -/
def Sha2.small (p : Sha2) (r : Nat × Nat × Nat) (x : Nat) : Nat := rotr p.w r.1 x ^^^ rotr p.w r.2.1 x ^^^ x / 2^r.2.2
def Sha2.big (p : Sha2) (r : Nat × Nat × Nat) (x : Nat) : Nat := rotr p.w r.1 x ^^^ rotr p.w r.2.1 x ^^^ rotr p.w r.2.2 x

/-- Extend a schedule, the newest word first. -/
def Sha2.extend (p : Sha2) : Nat → List Nat → List Nat
  | 0, l => l
  | n + 1, l => p.extend n ((p.small p.s1 (l.getD 1 0) + l.getD 6 0 + p.small p.s0 (l.getD 14 0) + l.getD 15 0) % 2^p.w :: l)

/-- One round, from the round's constant and word. -/
def Sha2.round (p : Sha2) (v : List Nat) (k : Nat × Nat) : List Nat :=
  let g (i : Nat) : Nat := v.getD i 0
  let ch := (g 4 &&& g 5) ^^^ ((2^p.w - 1 - g 4) &&& g 6)
  let maj := (g 0 &&& g 1) ^^^ (g 0 &&& g 2) ^^^ (g 1 &&& g 2)
  let t1 := g 7 + p.big p.e1 (g 4) + ch + k.1 + k.2
  [(t1 + p.big p.e0 (g 0) + maj) % 2^p.w, g 0, g 1, g 2, (g 3 + t1) % 2^p.w, g 4, g 5, g 6]

/-- The big-endian value of bytes, and the n big-endian bytes of a value. -/
def beOf (l : List Byte) : Nat := l.foldl (fun a b => 256 * a + b.toNat) 0
def beBytes (v n : Nat) : List Byte := (leBytes v n).reverse

/-- Take one block into the state. -/
def Sha2.block (p : Sha2) (v : List Nat) (b : List Byte) : List Nat :=
  let words := (List.range 16).map fun i => beOf ((b.drop (i * (p.w / 8))).take (p.w / 8))
  let sched := (p.extend (p.rounds - 16) words.reverse).reverse
  let ks := (primes.take p.rounds).map (rootBits 3 p.w)
  ((ks.zip sched).foldl p.round v).zipWith (fun a b => (a + b) % 2^p.w) v

/-- Take every block of a padded message. -/
def Sha2.blocks (p : Sha2) : Nat → List Nat → List Byte → List Nat
  | 0, v, _ => v
  | n + 1, v, l => p.blocks n (p.block v (l.take (2 * p.w))) (l.drop (2 * p.w))

/-- The hash of a message from an initial state, as bytes. -/
def Sha2.hash (p : Sha2) (init : List Nat) (m : List Byte) : List Byte :=
  let n := m.length
  let blk := 2 * p.w
  let zeros := (2 * blk - (n + 1 + p.w / 4) % blk) % blk
  let padded := m ++ [0x80] ++ List.replicate zeros 0 ++ beBytes (8 * n) (p.w / 4)
  (p.blocks (padded.length / blk) init padded).flatMap fun x => beBytes x (p.w / 8)

def sha256 (m : List Byte) : List Byte := sha256p.hash ((primes.take 8).map (rootBits 2 32)) m
/-- SHA-384: 48 bytes. -/
def sha384 (m : List Byte) : List Byte := (sha512p.hash (((primes.drop 8).take 8).map (rootBits 2 64)) m).take 48
/-- SHA-256/192: 24 bytes. -/
def sha192 (m : List Byte) : List Byte := (sha256 m).take 24

/-! ## ECDSA on P-384 -/

def p384 : Nat := 2^384 - 2^128 - 2^96 + 2^32 - 1
def p384b : Nat := 0xb3312fa7e23ee7e4988e056be3f82d19181d9c6efe8141120314088f5013875ac656398d8a2ed19d2a85c8edd3ec2aef
def p384n : Nat := 0xffffffffffffffffffffffffffffffffffffffffffffffffc7634d81f4372ddf581a0db248b0a77aecec196accc52973
def p384g : Nat × Nat :=
  (0xaa87ca22be8b05378eb1c71ef320ad746e1d3b628ba79b9859f741e082542a385502f25dbf55296c3a545e3872760ab7,
   0x3617de4a96262c6f5d9e98bf9292dc29f8f41dbd289a147ce9da3113b5f0b8c00a60b1ce1d7e819d7a431d7c90ea0e5f)

/-- a^e modulo m, e below 2^384. -/
def powMod (m a e : Nat) : Nat := ((List.range 384).reverse.foldl (fun r i => let q := r * r % m; if e / 2^i % 2 = 1 then q * a % m else q) 1)
/-- The inverse modulo a prime. -/
def invMod (m a : Nat) : Nat := powMod m (a % m) (m - 2)

/-- The sum of two points of the curve, none being the point at infinity. -/
def ecAdd : Option (Nat × Nat) → Option (Nat × Nat) → Option (Nat × Nat)
  | none, q => q
  | p, none => p
  | some a, some b =>
    let m := p384
    if a.1 = b.1 ∧ (a.2 + b.2) % m = 0 then none
    else
      let k := if a.1 = b.1 then (3 * a.1 * a.1 + (m - 3)) * invMod m (2 * a.2) % m else (b.2 + m - a.2) * invMod m (b.1 + m - a.1) % m
      let x := (k * k + 2 * m - a.1 - b.1) % m
      some (x, (k * (a.1 + m - x) + m - a.2) % m)

def ecMul (k : Nat) (q : Option (Nat × Nat)) : Option (Nat × Nat) :=
  (List.range 384).reverse.foldl (fun r i => let d := ecAdd r r; if k / 2^i % 2 = 1 then ecAdd d q else d) none

/-- The signature r, s over a digest verifies under the key X, Y (18 R359: big-endian). -/
def ecdsaVerify (key : List Byte) (digest sig : List Byte) : Bool :=
  let x := beOf (key.take 48)
  let y := beOf (key.drop 48)
  let r := beOf (sig.take 48)
  let s := beOf (sig.drop 48)
  let w := invMod p384n s
  let onCurve : Bool := decide (x < p384) && decide (y < p384) && y * y % p384 == (x * x * x + (p384 - 3) * x + p384b) % p384
  onCurve && decide (0 < r) && decide (r < p384n) && decide (0 < s) && decide (s < p384n) &&
    match ecAdd (ecMul (beOf digest * w % p384n) (some p384g)) (ecMul (r * w % p384n) (some (x, y))) with
    | some q => q.1 % p384n == r
    | none => false

/-! ## LMS -/

/-- The height of the tree types LMS_SHA256_M24_H10, _H15 and _H20, the only ones taken. -/
def lmsHeight (t : Nat) : Option Nat := if t = 0x0B then some 10 else if t = 0x0C then some 15 else if t = 0x0D then some 20 else none

/-- Width, chains and checksum shift of the one-time types SHA256_N24_W4 and _W8, the only ones taken. -/
def otsShape (t : Nat) : Option (Nat × Nat × Nat) := if t = 0x07 then some (4, 51, 4) else if t = 0x08 then some (8, 26, 0) else none

/-- Digit i of w bits of a byte string. -/
def otsDigit (w : Nat) (l : List Byte) (i : Nat) : Nat := (l.getD (i * w / 8) 0).toNat / 2^(8 - w - i * w % 8) % 2^w

/-- A hash chain from step a on, n steps. -/
def otsChain (pre : List Byte) : Nat → Nat → List Byte → List Byte
  | 0, _, x => x
  | n + 1, a, x => otsChain pre n (a + 1) (sha192 (pre ++ beBytes a 1 ++ x))

/-- The candidate for the one-time public key. -/
def otsKey (w p ls : Nat) (i q : List Byte) (c y m : List Byte) : List Byte :=
  let d := sha192 (i ++ q ++ [0x81, 0x81] ++ c ++ m)
  let sum := (List.range (192 / w)).foldl (fun a j => a + (2^w - 1 - otsDigit w d j)) 0
  let v := d ++ beBytes (sum * 2^ls) 2
  sha192 (i ++ q ++ [0x80, 0x80] ++ (List.range p).flatMap fun j =>
    let a := otsDigit w v j
    otsChain (i ++ q ++ beBytes j 2) (2^w - 1 - a) a ((y.drop (24 * j)).take 24))

/-- Climb from a node to the root. -/
def lmsClimb (i path : List Byte) : Nat → Nat → List Byte → List Byte
  | 0, _, x => x
  | n + 1, node, x =>
    let sib := path.take 24
    lmsClimb i (path.drop 24) n (node / 2)
      (sha192 (i ++ beBytes (node / 2) 4 ++ [0x83, 0x83] ++ if node % 2 = 1 then sib ++ x else x ++ sib))

/-- The signature over a content verifies under the 48-byte key: type, one-time type, identifier, root. -/
def lmsVerify (key m sig : List Byte) : Bool :=
  match lmsHeight (beOf (key.take 4)), otsShape (beOf ((key.drop 4).take 4)) with
  | some h, some (w, p, ls) =>
    let i := (key.drop 8).take 16
    let q := beOf (sig.take 4)
    let ots := (sig.drop 4).take (28 + 24 * p)
    let rest := sig.drop (32 + 24 * p)
    let k := otsKey w p ls i (sig.take 4) ((ots.drop 4).take 24) (ots.drop 28) m
    sig.length == 36 + 24 * p + 24 * h && beOf (ots.take 4) == beOf ((key.drop 4).take 4) && beOf (rest.take 4) == beOf (key.take 4) && decide (q < 2^h) &&
      lmsClimb i (rest.drop 4) h (2^h + q) (sha192 (i ++ beBytes (2^h + q) 4 ++ [0x82, 0x82] ++ k)) == key.drop 24
  | _, _ => false

end Sys2Proof.Machine
end

