-- ==== Sys2Proof/Machine/Flags.lean ====
section
/-! DEFINITION. The flags of %FLG (06 R107), exact values, and the rounding of an exact value to a type with its flags (08 R148 to R152). -/

namespace Sys2Proof.Machine

open Sys2Proof

/-! ## Flag bits (06 R107) -/

abbrev Flags := BitVec 7

def flNX : Flags := 0x01
def flUF : Flags := 0x02
def flOF : Flags := 0x04
def flDZ : Flags := 0x08
def flNV : Flags := 0x10
def flCOLL : Flags := 0x20
def flGSAT : Flags := 0x40

/-- A flag when a condition holds. -/
def flagIf (b : Bool) (f : Flags) : Flags := if b then f else 0

/-! ## Types and exact values -/

/-- A floating-point layout (08 R148): fraction bits and exponent bits. -/
structure Fmt where
  frac : Nat
  expo : Nat
deriving DecidableEq, Repr

def fmt32 : Fmt := ⟨23, 8⟩
def fmtB16 : Fmt := ⟨7, 8⟩
def fmtF16 : Fmt := ⟨10, 5⟩

def Fmt.bias (f : Fmt) : Nat := 2^(f.expo - 1) - 1
/-- The exponent of the smallest normal value. -/
def Fmt.emin (f : Fmt) : Int := 1 - (f.bias : Int)
def Fmt.emax (f : Fmt) : Int := f.bias
def Fmt.width (f : Fmt) : Nat := 1 + f.expo + f.frac
/-- Sixteen-bit types flush (08 R151). -/
def Fmt.flushes (f : Fmt) : Bool := f.width == 16

def Fmt.signBit (f : Fmt) (neg : Bool) : Nat := if neg then 2^(f.expo + f.frac) else 0
def Fmt.inf (f : Fmt) (neg : Bool) : Nat := f.signBit neg + (2^f.expo - 1) * 2^f.frac
/-- The canonical NaN (08 R148, R150). -/
def Fmt.nan (f : Fmt) : Nat := (2^f.expo - 1) * 2^f.frac + 2^(f.frac - 1)
def Fmt.maxFinite (f : Fmt) (neg : Bool) : Nat := f.signBit neg + (2^f.expo - 1) * 2^f.frac - 1
def Fmt.zero (f : Fmt) (neg : Bool) : Nat := f.signBit neg

/-- An exact rational: numerator over a positive denominator. -/
structure Ex where
  n : Int
  d : Nat
deriving DecidableEq, Repr

def Ex.ofInt (i : Int) : Ex := ⟨i, 1⟩
/-- m times 2^e. -/
def Ex.dyad (m : Int) (e : Int) : Ex := if 0 ≤ e then ⟨m * (2^e.toNat : Nat), 1⟩ else ⟨m, 2^(-e).toNat⟩
def Ex.add (x y : Ex) : Ex :=
  if y.d % x.d = 0 then ⟨x.n * (y.d / x.d : Nat) + y.n, y.d⟩
  else if x.d % y.d = 0 then ⟨x.n + y.n * (x.d / y.d : Nat), x.d⟩
  else ⟨x.n * y.d + y.n * x.d, x.d * y.d⟩
def Ex.neg (x : Ex) : Ex := ⟨-x.n, x.d⟩
def Ex.sub (x y : Ex) : Ex := x.add y.neg
def Ex.mul (x y : Ex) : Ex := ⟨x.n * y.n, x.d * y.d⟩
/-- Quotient by a nonzero value. -/
def Ex.div (x y : Ex) : Ex := if 0 ≤ y.n then ⟨x.n * y.d, x.d * y.n.toNat⟩ else ⟨-(x.n * y.d), x.d * (-y.n).toNat⟩
def Ex.isZero (x : Ex) : Bool := x.n == 0
def Ex.isNeg (x : Ex) : Bool := decide (x.n < 0)
def Ex.lt (x y : Ex) : Bool := decide (x.n * y.d < y.n * x.d)
def Ex.abs (x : Ex) : Ex := ⟨x.n.natAbs, x.d⟩

/-- floor(log2(a/b)) for positive a and b. -/
def floorLog2 (a b : Nat) : Int :=
  let e : Int := (Nat.log2 a : Int) - (Nat.log2 b : Int)
  let ge : Bool := if 0 ≤ e then decide (b * 2^e.toNat ≤ a) else decide (b ≤ a * 2^(-e).toNat)
  if ge then e else e - 1

/-- Rounding modes (06 R106): 0 RNE, 1 RTZ, 2 RDN, 3 RUP. -/
abbrev RMode := Nat

/-- Round num/den (magnitude) to an integer under a mode and a sign (08 R149). -/
def roundMag (mode : RMode) (neg : Bool) (num den : Nat) : Nat :=
  let q := num / den
  let r := num % den
  if r = 0 then q
  else match mode with
    | 0 => if 2 * r < den then q else if den < 2 * r then q + 1 else q + q % 2
    | 1 => q
    | 2 => if neg then q + 1 else q
    | _ => if neg then q else q + 1

/-- A rounded result: its bits and the flags it raises. -/
structure FRes where
  bits : Nat
  fl : Flags
deriving DecidableEq, Repr

/-- What an overflow delivers (08 R152), for values with p fraction bits kept. -/
def overflowBits (f : Fmt) (p : Nat) (mode : RMode) (neg : Bool) : Nat :=
  let big := f.maxFinite neg - (2^(f.frac - p) - 1)
  match mode with
  | 0 => f.inf neg
  | 1 => big
  | 2 => if neg then f.inf neg else big
  | _ => if neg then big else f.inf neg

/-- Round an exact value once to a type with `p` fraction bits kept, with its flags (08 R149, R151, R152; 09 R197).
`zneg` is the sign of an exact zero. -/
def roundTo (f : Fmt) (p : Nat) (mode : RMode) (zneg : Bool) (x : Ex) : FRes :=
  if x.n = 0 then ⟨f.zero zneg, 0⟩
  else
    let neg := x.isNeg
    let a := x.n.natAbs
    let e := floorLog2 a x.d
    let tiny : Bool := decide (e < f.emin)
    if tiny && f.flushes then ⟨f.zero neg, flUF ||| flNX⟩
    else
      let ec : Int := if tiny then f.emin else e
      let u : Int := ec - (p : Int)
      let num := if 0 ≤ u then a else a * 2^(-u).toNat
      let den := if 0 ≤ u then x.d * 2^u.toNat else x.d
      let m := roundMag mode neg num den
      let inexact : Bool := num % den ≠ 0
      let bits := (ec - f.emin).toNat * 2^f.frac + m * 2^(f.frac - p)
      if (2^f.expo - 1) * 2^f.frac ≤ bits then ⟨overflowBits f p mode neg, flOF ||| flNX⟩
      else ⟨f.signBit neg + bits, (flagIf (tiny && inexact) flUF) ||| flagIf inexact flNX⟩

/-! ## Values of a type -/

/-- A floating-point value: a NaN (signalling or quiet), an infinity, or a finite value with its sign. -/
inductive FVal where
  | nan (sig : Bool)
  | inf (neg : Bool)
  | fin (neg : Bool) (x : Ex)
deriving DecidableEq, Repr

/-- Read a value; `flush16` reads a 16-bit subnormal as a signed zero (08 R148, R151). -/
def unpack (f : Fmt) (b : Nat) : FVal :=
  let neg : Bool := bitsAt b (f.expo + f.frac) 1 = 1
  let e := bitsAt b f.frac f.expo
  let m := bitsAt b 0 f.frac
  let sg : Int := if neg then -1 else 1
  if e = 2^f.expo - 1 then (if m = 0 then .inf neg else .nan (bitsAt m (f.frac - 1) 1 = 0))
  else if e = 0 then
    if f.flushes then .fin neg ⟨0, 1⟩ else .fin neg (Ex.dyad (sg * m) (f.emin - f.frac))
  else .fin neg (Ex.dyad (sg * (2^f.frac + m : Nat)) ((e : Int) - f.bias - f.frac))

def FVal.isNan : FVal → Bool
  | .nan _ => true
  | _ => false
def FVal.isSig : FVal → Bool
  | .nan s => s
  | _ => false
def FVal.isNeg : FVal → Bool
  | .nan _ => false
  | .inf n => n
  | .fin n _ => n
def FVal.isInf : FVal → Bool
  | .inf _ => true
  | _ => false
def FVal.isZero : FVal → Bool
  | .fin _ x => x.isZero
  | _ => false
/-- The exact value of a finite operand. -/
def FVal.ex : FVal → Ex
  | .fin _ x => x
  | _ => ⟨0, 1⟩
def FVal.negate : FVal → FVal
  | .nan s => .nan s
  | .inf n => .inf (!n)
  | .fin n x => .fin (!n) x.neg

/-- Total order of numbers for compares, −0 equal to +0: less than. -/
def FVal.lt : FVal → FVal → Bool
  | .nan _, _ | _, .nan _ => false
  | .inf true, .inf true => false
  | .inf true, _ => true
  | _, .inf true => false
  | .inf false, _ => false
  | _, .inf false => true
  | .fin _ x, .fin _ y => x.lt y

/-- Equality of numbers, −0 equal to +0. -/
def FVal.eq : FVal → FVal → Bool
  | .inf a, .inf b => a == b
  | .fin _ x, .fin _ y => x.n * y.d == y.n * x.d
  | _, _ => false

/-- NV for a signalling NaN among the operands (08 R150). -/
def sigFlag (xs : List FVal) : Flags := flagIf (xs.any FVal.isSig) flNV

/-- The sign of an exact zero sum (08 R149): −0 in RDN, else +0. -/
def zeroSum (mode : RMode) : Bool := mode == 2

/-- Sum of two values, rounded once (08 R149, R150). -/
def fsum (f : Fmt) (mode : RMode) (x y : FVal) : FRes :=
  match x, y with
  | .nan _, _ => ⟨f.nan, sigFlag [x, y]⟩
  | _, .nan _ => ⟨f.nan, sigFlag [x, y]⟩
  | .inf a, .inf b => if a == b then ⟨f.inf a, 0⟩ else ⟨f.nan, flNV⟩
  | .inf a, .fin _ _ => ⟨f.inf a, 0⟩
  | .fin _ _, .inf b => ⟨f.inf b, 0⟩
  | .fin a u, .fin b v =>
    if u.isZero && v.isZero && a == b then ⟨f.zero a, 0⟩ else roundTo f f.frac mode (zeroSum mode) (u.add v)

/-- The exact product, or the NaN of 0 × ∞. -/
def fprod (x y : FVal) : FVal :=
  match x, y with
  | .nan s, .nan t => .nan (s || t)
  | .nan s, _ => .nan s
  | _, .nan t => .nan t
  | .inf a, .inf b => .inf (a != b)
  | .inf a, .fin b v => if v.isZero then .nan true else .inf (a != b)
  | .fin a u, .inf b => if u.isZero then .nan true else .inf (a != b)
  | .fin a u, .fin b v => .fin (a != b) (u.mul v)

/-- Product, rounded once. -/
def fmulR (f : Fmt) (mode : RMode) (x y : FVal) : FRes :=
  match fprod x y with
  | .nan s => ⟨f.nan, flagIf s flNV⟩
  | .inf a => ⟨f.inf a, 0⟩
  | .fin a u => if u.isZero then ⟨f.zero a, 0⟩ else roundTo f f.frac mode a u

/-- x × y + z, or z − x × y when `sub`, rounded once; 0 × ∞ raises NV even when z is a quiet NaN (08 R150). -/
def ffma (f : Fmt) (mode : RMode) (sub : Bool) (x y z : FVal) : FRes :=
  let p := fprod x y
  let p := if sub then p.negate else p
  let r := fsum f mode p z
  ⟨r.bits, r.fl ||| flagIf p.isSig flNV ||| sigFlag [z]⟩

end Sys2Proof.Machine
end

