-- ==== Sys2Proof/Machine/Fp.lean ====
section
/-! DEFINITION. Minimum, maximum, sign forms, compares, clamps and conversions of floating-point values (08 R150 to R158, 09 R177 to R186, R195). -/

namespace Sys2Proof.Machine

open Sys2Proof

/-- A 16-bit subnormal read as a zero of its sign (08 R151). -/
def flushBits (f : Fmt) (b : Nat) : Nat := if f.flushes ∧ bitsAt b f.frac f.expo = 0 then f.signBit (bitsAt b (f.expo + f.frac) 1 = 1) else b

/-- The order of numbers in which −0 lies below +0 (09 R177). -/
def ltZ (x y : FVal) : Bool := x.lt y || (x.isZero && y.isZero && x.isNeg && !y.isNeg)

/-- VMIN (09 R177): a NaN gives way to a number; `mx` takes the greater. -/
def fminmax (mx : Bool) (f : Fmt) (a b : Nat) : FRes :=
  let x := unpack f a
  let y := unpack f b
  let fl := sigFlag [x, y]
  match x.isNan, y.isNan with
  | true, true => ⟨f.nan, fl⟩
  | true, false => ⟨flushBits f b, fl⟩
  | false, true => ⟨flushBits f a, fl⟩
  | false, false => ⟨flushBits f (if (if mx then ltZ x y else ltZ y x) then b else a), fl⟩

/-- The sign of a value's bits, as a bit pattern change: cleared, or inverted (09 R178). -/
def fabs (f : Fmt) (a : Nat) : FRes :=
  let x := unpack f a
  if x.isNan then ⟨f.nan, sigFlag [x]⟩ else ⟨flushBits f a % 2^(f.expo + f.frac), 0⟩
def fneg (f : Fmt) (a : Nat) : FRes :=
  let x := unpack f a
  if x.isNan then ⟨f.nan, sigFlag [x]⟩ else ⟨(flushBits f a + 2^(f.expo + f.frac)) % 2^(f.expo + f.frac + 1), 0⟩

/-- The compares: 0 EQ, 1 NE, 2 LT, 3 LE, with their NV rule (09 R179). -/
def fcompare (op : Fin 4) (f : Fmt) (a b : Nat) : Bool × Flags :=
  let x := unpack f a
  let y := unpack f b
  let anyNan := x.isNan || y.isNan
  match op with
  | 0 => (x.eq y, sigFlag [x, y])
  | 1 => (!x.eq y, sigFlag [x, y])
  | 2 => (x.lt y, flagIf anyNan flNV)
  | 3 => (x.lt y || x.eq y, flagIf anyNan flNV)

/-- VCLAMP: min(max(x, −|y|), |y|); any NaN gives the canonical NaN (09 R195). -/
def fclamp (f : Fmt) (a b : Nat) : FRes :=
  let x := unpack f a
  let y := unpack f b
  if x.isNan || y.isNan then ⟨f.nan, sigFlag [x, y]⟩
  else
    let ay := (fabs f b).bits
    ⟨(fminmax false f (fminmax true f a ((fneg f ay).bits)).bits ay).bits, 0⟩

/-- A conversion to FP32, BF16 or FP16 (08 R156). -/
def fconvert (f : Fmt) (mode : RMode) (x : FVal) : FRes :=
  match x with
  | .nan s => ⟨f.nan, flagIf s flNV⟩
  | .inf n => ⟨f.inf n, 0⟩
  | .fin n e => roundTo f f.frac mode n e

/-! ## Narrow formats (08 R154) -/

/-- Fraction bits, exponent bits and bias of a narrow format. -/
def nfFrac : NarrowFmt → Nat
  | .e4m3 => 3 | .e5m2 => 2 | .e3m2 => 2 | .e2m3 => 3 | .e2m1 => 1
def nfExpo : NarrowFmt → Nat
  | .e4m3 => 4 | .e5m2 => 5 | .e3m2 => 3 | .e2m3 => 2 | .e2m1 => 2
def nfBias : NarrowFmt → Nat
  | .e4m3 => 7 | .e5m2 => 15 | .e3m2 => 3 | .e2m3 => 1 | .e2m1 => 1
/-- The code of the largest finite magnitude. -/
def nfMaxCode : NarrowFmt → Nat
  | .e4m3 => 0x7E | .e5m2 => 0x7B | .e3m2 => 0x1F | .e2m3 => 0x1F | .e2m1 => 0x7
def nfSignBit (f : NarrowFmt) (neg : Bool) : Nat := if neg then 2^((nfExpo f) + (nfFrac f)) else 0

/-- A conversion to a narrow format (08 R156, R157). -/
def toNarrow (f : NarrowFmt) (mode : RMode) (x : FVal) : FRes :=
  match x with
  | .nan s =>
    match f with
    | .e4m3 => ⟨0x7F, flagIf s flNV⟩
    | .e5m2 => ⟨0x7E, flagIf s flNV⟩
    | _ => ⟨0, flNV⟩
  | .inf n =>
    match f with
    | .e5m2 => ⟨nfSignBit f n + 0x7C, 0⟩
    | _ => ⟨nfSignBit f n + (nfMaxCode f), flNV⟩
  | .fin n e =>
    if e.n = 0 then ⟨nfSignBit f n, 0⟩
    else
      let a := e.n.natAbs
      let emin : Int := 1 - ((nfBias f) : Int)
      let lg := floorLog2 a e.d
      let tiny : Bool := decide (lg < emin)
      let ec : Int := if tiny then emin else lg
      let u : Int := ec - ((nfFrac f) : Int)
      let num := if 0 ≤ u then a else a * 2^(-u).toNat
      let den := if 0 ≤ u then e.d * 2^u.toNat else e.d
      let m := roundMag mode n num den
      let inexact : Bool := num % den ≠ 0
      let code := (ec - emin).toNat * 2^(nfFrac f) + m
      if (nfMaxCode f) < code then
        let toInf : Bool := f == .e5m2 && (mode == 0 || (mode == 2 && n) || (mode == 3 && !n))
        ⟨nfSignBit f n + (if toInf then 0x7C else (nfMaxCode f)), flOF ||| flNX⟩
      else ⟨nfSignBit f n + code, (flagIf (tiny && inexact) flUF) ||| flagIf inexact flNX⟩

/-- The value of a narrow code (08 R154). -/
def ofNarrow (f : NarrowFmt) (code : Nat) : FVal :=
  let neg : Bool := bitsAt code ((nfExpo f) + (nfFrac f)) 1 = 1
  let e := bitsAt code (nfFrac f) (nfExpo f)
  let m := bitsAt code 0 (nfFrac f)
  let sg : Int := if neg then -1 else 1
  if f = .e4m3 ∧ e = 15 ∧ m = 7 then .nan false
  else if f = .e5m2 ∧ e = 31 then (if m = 0 then .inf neg else .nan (m = 1))
  else if e = 0 then .fin neg (Ex.dyad (sg * m) (1 - ((nfBias f) : Int) - (nfFrac f)))
  else .fin neg (Ex.dyad (sg * (2^(nfFrac f) + m : Nat)) ((e : Int) - (nfBias f) - (nfFrac f)))

/-! ## Integers (08 R158) -/

/-- Round an exact value to an integer in a mode, and whether it was exact. -/
def roundInt (mode : RMode) (x : Ex) : Int × Bool :=
  let m := roundMag mode x.isNeg x.n.natAbs x.d
  (if x.isNeg then -(m : Int) else m, x.n.natAbs % x.d = 0)

/-- FP32 to a two's-complement or unsigned integer with bounds. -/
def ftoint (lo hi : Int) (mode : RMode) (x : FVal) : Int × Flags :=
  match x with
  | .nan _ => (0, flNV)
  | .inf n => (if n then lo else hi, flNV)
  | .fin _ e =>
    let r := roundInt mode e
    if r.1 < lo then (lo, flNV) else if hi < r.1 then (hi, flNV) else (r.1, flagIf (!r.2) flNX)

/-- An integer to FP32. -/
def finttof (mode : RMode) (i : Int) : FRes := roundTo fmt32 23 mode false (Ex.ofInt i)

/-- Saturate to w-bit two's complement. -/
def satInt (w : Nat) (i : Int) : Int := max (-(2^(w - 1) : Nat)) (min i ((2^(w - 1) : Nat) - 1))

/-- The w-bit pattern of an integer. -/
def wrapInt (w : Nat) (i : Int) : Nat := (i % (2^w : Nat)).toNat

end Sys2Proof.Machine
end

