-- ==== Sys2Proof/Machine/Access.lean ====
section
/-! DEFINITION. How an access reaches memory: address checks, translation with its walks, pulls and host requests (12), update-only lines (14 R295), L1 copies, sector taint (15 R310), loads and stores of bytes. -/

namespace Sys2Proof.Machine

open Sys2Proof

/-! ## Address checks (11 R218, R219; 04 R73; 12 R245; 15 R307) -/

/-- The size of the scratchpad in bytes under a partition word. -/
def scrBytes (pw : Nat) : Nat := 131072 * scrOf pw

/-- The code of the trap that an access of `n` bytes, aligned to `al`, raises at issue, if any. `det` forbids host and peer owners. -/
def addrTrap (s : State) (pw : Nat) (det : Bool) (va n al : Nat) : Option Nat :=
  if va % al ≠ 0 then some 0x0207
  else
    let last := va + n - 1
    if 2^64 ≤ last ∨ ownerOf last ≠ ownerOf va then some 0x0203
    else match ownerOf va with
    | 0xF => if bitsAt va 23 37 ≠ 0 ∨ scrBytes pw ≤ last % 2^60 then some 0x0203 else none
    | 0 | 1 => if bitsAt va 47 13 ≠ 0 ∨ bitsAt last 47 13 ≠ 0 then some 0x0203 else none
    | 4 => if bitsAt va 57 3 ≠ 0 ∨ det then some 0x0203 else none
    | 8 => if bitsAt va 57 3 ≠ 0 ∨ det ∨ bitsAt va 48 9 = pfGet s 0xE1020 2 % 512 then some 0x0203 else none
    | _ => some 0x0203

/-- Whether a virtual address is core-local. -/
def isLocal (va : Nat) : Bool := ownerOf va == 0xF

/-! ## Update-only lines (14 R294, R295) -/

/-- Bytes of an element of a reduction form, by opcode minus 0x48. -/
def redBytes (opc : Nat) : Nat := if opc = 0 ∨ opc = 2 ∨ opc = 3 ∨ opc = 7 then 4 else 8

/-- The combining function c(m, x). -/
def redCombine (opc m x : Nat) : Nat :=
  match opc with
  | 0 => (m + x) % 2^32
  | 1 => (m + x) % 2^64
  | 2 => if sextNat x 32 < sextNat m 32 then x % 2^32 else m
  | 3 => if sextNat m 32 < sextNat x 32 then x % 2^32 else m
  | 4 => ((BitVec.ofNat 64 m) &&& (BitVec.ofNat 64 x)).toNat
  | 5 => ((BitVec.ofNat 64 m) ||| (BitVec.ofNat 64 x)).toNat
  | 6 => ((BitVec.ofNat 64 m) ^^^ (BitVec.ofNat 64 x)).toNat
  | _ => (fsum fmt32 0 (unpack fmt32 (m % 2^32)) (unpack fmt32 (x % 2^32))).bits

/-- The identity of a form. -/
def redIdentity (opc : Nat) : Nat :=
  match opc with
  | 2 => 2^31 - 1
  | 3 => 2^31
  | 4 => 2^64 - 1
  | 7 => 2^31
  | _ => 0

/-- Taint the sectors of a range of C-die memory (15 R296, R308). -/
def taintSectors (s : State) (pa n : Nat) (t : Bool) : State :=
  if ownerOf pa < 2 then
    { s with secTaint := (List.range ((pa + n + 31) / 32 - pa / 32)).foldl (fun m i => Tbl.set false m (pa / 32 + i) t) s.secTaint }
  else s

/-- Merge one update-only line of a core at its owner and free it: mem ← c(mem, partial) for each pending word. -/
def mergeLineOf (s : State) (c line : Nat) : State :=
  match Tbl.find? (coreGet s c).upd line with
  | none => s
  | some u =>
    let b := redBytes u.opc
    let s1 := u.words.foldl (fun s e =>
      let a := 64 * line + b * e.1
      let s' := performBytes s a (leBytes (redCombine u.opc (memVal s a b) e.2.toNat) b)
      if u.opc = 7 then taintSectors s' a b true else s') s
    modCore s1 c fun x => { x with upd := Tbl.erase x.upd line }

/-- Merge every core's update-only line at a 64-byte line before the L2 serves an access to it. -/
def mergeLine (s : State) (line : Nat) : State :=
  if s.cores.all fun e => (Tbl.find? e.2.upd line).isNone then s
  else s.cores.foldl (fun s e => mergeLineOf s e.1 line) s

/-- Merge every line that a range touches. -/
def mergeRange (s : State) (pa n : Nat) : State :=
  if ownerOf pa < 2 then (List.range ((pa + n + 63) / 64 - pa / 64)).foldl (fun s i => mergeLine s (pa / 64 + i)) s else s

/-- A read of a physical range by the device: update-only lines merge first. -/
def readPhys (s : State) (pa n : Nat) : Nat × State :=
  let s1 := mergeRange s pa n
  (memVal s1 pa n, s1)

/-- A write of a physical range by the device. -/
def writePhys (s : State) (pa : Nat) (bs : List Byte) : State := performBytes (mergeRange s pa bs.length) pa bs

/-! ## Format windows (08 R161) -/

/-- The offset of window w of controller c on die d. -/
def fmwOff (d c w : Nat) : Nat := 0xC0000 + 0x800 * (4 * d + c) + 64 * w

/-- The enabled or busy window whose range holds a physical address. -/
def windowAt (s : State) (pa : Nat) : Option Nat :=
  (List.range 128).find? fun i =>
    let o := fmwOff (i / 64) (i / 16 % 4) (i % 16)
    let ctl := pfGet s (o + 16) 8
    let base := pfGet s o 8
    bitsAt ctl 31 1 = 1 && decide (base ≤ pa) && decide (pa < base + pfGet s (o + 8) 8)

/-! ## Walks (12 R247 to R251, R257) -/

/-- The outcome of a translation: a physical address, a trap code, or a wait. -/
inductive Xr where
  | ok (pa : Nat)
  | fail (code : Nat)
  | wait
deriving DecidableEq, Repr

/-- Page size of a leaf at level 1, 2, 3. -/
def leafSize (lv : Nat) : Nat := if lv = 1 then 2^30 else if lv = 2 then 2^21 else 2^16
def levelIndex (lv va : Nat) : Nat :=
  if lv = 0 then bitsAt va 39 8 else if lv = 1 then bitsAt va 30 9 else if lv = 2 then bitsAt va 21 9 else bitsAt va 16 5
/-- The address field of an entry. -/
def entryAddr (e : Nat) : Nat := bitsAt e 8 44 * 256
def entryRs (e : Nat) : Nat := bitsAt e 6 2

/-- A malformed entry at a level (12 R248). -/
def malformed (e lv : Nat) : Bool :=
  let leaf := bitsAt e 1 1 == 1
  bitsAt e 52 12 ≠ 0 || bitsAt e 5 1 ≠ 0 || (leaf && lv == 0) || (!leaf && lv == 3) ||
    (if leaf then entryAddr e % leafSize lv ≠ 0
     else entryAddr e % (if lv = 2 then 256 else 4096) ≠ 0 || bitsAt e 2 3 ≠ 0 || entryRs e ≠ 0)

/-- A lasting error has retired the frame of a physical address: accesses through it trap with ECC_UNCORRECTED (16 R330). -/
def frameStruck (s : State) (d pa : Nat) : Bool := s.rk.retired.contains (4, d * 2^24 + pa % 2^60 / 65536)

/-- Descend the tables of die d from level lv: the leaf's entry address, entry and level, or a code. -/
def descend (s : State) (d p va : Nat) : Nat → Nat → Nat → State × (Except Nat (Nat × Nat × Nat))
  | 0, _, _ => (s, .error 0x0201)
  | fuel + 1, lv, a =>
    let ea := d * 2^60 + a + 8 * levelIndex lv va
    let r := readPhys s ea 8
    let e := r.1
    if bitsAt e 0 1 = 0 || malformed e lv then (r.2, .error 0x0201)
    else if bitsAt e 1 1 = 1 then (r.2, .ok (ea, e, lv))
    else
      let o := frameOwner r.2 d (entryAddr e)
      if frameStruck s d (entryAddr e) then (r.2, .error 0x0501)
      else if o = some p ∨ o = some 62 then descend r.2 d p va fuel (lv + 1) (entryAddr e) else (r.2, .error 0x0201)

/-- Cache a leaf translation in die d's MTLB. -/
def cacheLeaf (s : State) (d p va lv e : Nat) : State :=
  let sz := leafSize lv
  let ent : MtlbEntry := ⟨d, p, va / sz * sz, sz, entryAddr e, bitsAt e 2 1 == 1, bitsAt e 4 1 == 1⟩
  { s with xl := { s.xl with mtlb := ent :: s.xl.mtlb.filter fun x => !(x.die == d && x.part == p && x.va == ent.va && x.size == sz) } }

/-- The backing address of an absent page (12 R247, R257), 0 for none. -/
def backing (s : State) (d p : Nat) : Nat := pfGet s (0xE0400 + 0x200 * d + 8 * p) 8

/-- Whether a chip is fenced (12 R254). -/
def fenced (s : State) (chip : Nat) : Bool := bitsAt (pfGet s (0xE1100 + 8 * (chip / 64)) 8) (chip % 64) 1 == 1

/-- The chip of a peer address. -/
def chipOf (va : Nat) : Nat := bitsAt va 48 9

/-- The end of a walk at a leaf entry: its checks, a pull for a page with rs = 2, which fails at once where its source is fenced (16 R335), else the accessed and dirty bits and the cached translation (12 R249, R257). -/
def walkLeaf (s : State) (d p va : Nat) (store : Bool) (ea e lv : Nat) : State × Xr :=
  let sz := leafSize lv
  if frameStruck s d (entryAddr e + va % sz) then (s, .fail 0x0501)
  else if frameOwner s d (entryAddr e) ≠ some p ∨ frameOwner s d (entryAddr e + va % sz) ≠ some p then (s, .fail 0x0202)
  else match entryRs e with
  | 3 => (s, .fail 0x0205)
  | 2 =>
    let back := backing s d p
    if back = 0 then (s, .fail 0x0201)
    else if ownerOf back = 8 ∧ fenced s (chipOf back) = true then (performBytes s ea (leBytes (e + 64) 8), .fail 0x0205)
    else
      let lt := drawDevice s
      let s2 := performBytes lt.2 ea (leBytes (e - 64) 8)
      ({ s2 with xl := { s2.xl with pulls := s2.xl.pulls ++
          [⟨d, p, va / sz * sz, sz, ea, entryAddr e, back + va / sz * sz, s.cycle + lt.1, now s, 0⟩] } }, .wait)
  | 1 => (s, .wait)
  | _ =>
    if store ∧ bitsAt e 2 1 = 0 then (s, .fail 0x0202)
    else
      let n := ((BitVec.ofNat 64 e) ||| (if store then 0x18 else 0x08)).toNat
      let s2 := if n = e then s else performBytes s ea (leBytes n 8)
      (cacheLeaf s2 d p va lv n, .ok (d * 2^60 + entryAddr e + va % sz))

/-- THE WALK (12 R249): the compare-and-swap always finds the entry it read, since a step is one. As device traffic it waits for entry 40 of the L2; a lost die's memory
has failed for good (16 R331). -/
def doWalk (s : State) (d p va : Nat) (store : Bool) : State × Xr :=
  let root := pfGet s (0xE0000 + 0x200 * d + 8 * p) 8
  if s.rk.lost.contains d then (s, .fail 0x0501)
  else if l2Changing s d 40 then (s, .wait)
  else if bitsAt root 63 1 = 0 then (s, .fail 0x0202)
  else
    match descend s d p va 4 0 (bitsAt root 11 41 * 2048) with
    | (s1, .error c) => (s1, .fail c)
    | (s1, .ok (ea, e, lv)) => walkLeaf s1 d p va store ea e lv

/-- A hit in the MTLB: a store needs a writable entry that is already dirty (12 R251). -/
def mtlbHit (s : State) (d p va : Nat) (store : Bool) : Option Nat :=
  (s.xl.mtlb.find? fun e => e.die == d && e.part == p && decide (va / e.size * e.size = e.va) && (!store || (e.w && e.d))).map fun e =>
    d * 2^60 + e.frame + va % e.size

/-! ## Host translations (12 R258, R259; 19 R370) -/

/-- The identity under which a partition reaches the host: VF and PASID. -/
def hostIdent (s : State) (p : Nat) : Option Nat :=
  let h := pfGet s (0xE0800 + 8 * p) 8
  let vf := bitsAt h 21 7
  if bitsAt h 63 1 = 1 ∧ vfOwner s vf = some p then some (2^21 * vf + h % 2^21) else none

/-- A hit in the ATC. -/
def atcHit (s : State) (ident va : Nat) (store : Bool) : Option Nat :=
  (s.xl.atc.find? fun e => e.ident == ident && decide (va / e.size * e.size = e.page) && (if store then e.write else e.read)).map fun e =>
    4 * 2^60 + (e.target + va % e.size) % 2^60

/-- Ask the host for a translation under the partition's identity, or join the request or Page Request of that identity for the page that is outstanding (19 R370). -/
def askHost (s : State) (p va : Nat) (store : Bool) : State :=
  let page := va / 4096 * 4096
  match hostIdent s p with
  | none => s
  | some i =>
    let mine (r : AtsReq) : Bool := r.ident == i && r.page == page
    if s.xl.reqs.any mine then
      { s with xl := { s.xl with reqs := s.xl.reqs.map fun r => if mine r then { r with read := r.read || !store, write := r.write || store } else r } }
    else send { s with xl := { s.xl with reqs := s.xl.reqs ++ [⟨p, i, page, !store, store, false, []⟩] } } (.atsRequest p i page store)

/-- A peer denies a partition an access to a page of its memory: no PEERIN entry of it matches, or its own translation gives no permission (12 R247). -/
def peerDenies (s : State) (p va : Nat) (store : Bool) : Bool := s.xl.denied.contains (p, va / 4096, store)

/-- An address that no owner translates: bits that the address forms of 11 R218 and 12 R245 keep zero, or a peer address that names this device. -/
def addressBad (s : State) (va : Nat) : Bool :=
  match ownerOf va with
  | 0 | 1 => bitsAt va 47 13 ≠ 0
  | 8 => bitsAt va 57 3 ≠ 0 || chipOf va == pfGet s 0xE1020 2 % 512
  | _ => bitsAt va 57 3 ≠ 0

/-- Translate without walking: a hit, a code, or a wait that a walk or a host answer ends. A hit never reaches a frame that the partition does not own (12 R251). -/
def lookup (s : State) (p va : Nat) (store : Bool) : Xr :=
  if addressBad s va then .fail 0x0203
  else match ownerOf va with
  | 0 | 1 =>
    if s.rk.lost.contains (ownerOf va) then .fail 0x0501
    else match mtlbHit s (ownerOf va) p (va % 2^47) store with
    | some pa => if frameStruck s (ownerOf va) pa then .fail 0x0501 else if frameOwner s (ownerOf va) pa = some p then .ok pa else .wait
    | none => .wait
  | 4 => match hostIdent s p with
    | none => .fail 0x0202
    | some i => match atcHit s i (va % 2^60) store with
      | some pa => .ok pa
      | none => .wait
  | 8 => if fenced s (chipOf va) then .fail 0x0502 else if peerDenies s p va store then .fail 0x0202 else .ok va
  | _ => .fail 0x0203

/-- Translate an access of the device or of a command: a miss walks at once, a host miss asks (12 R249, R258); it waits while the L2 changes its partition's range (04 R69). -/
def resolve (s : State) (p va : Nat) (store : Bool) : State × Xr :=
  if ownerOf va < 2 ∧ l2Changing s (ownerOf va) p then (s, .wait)
  else match lookup s p va store with
  | .wait =>
    if ownerOf va = 4 then
      if s.xl.failed.any fun e => e.1 == p && e.2.1 == va % 2^60 / 4096 * 4096 && decide (s.cycle ≤ e.2.2) then (s, .fail 0x0204)
      else (askHost s p (va % 2^60) store, .wait)
    else doWalk s (ownerOf va) p (va % 2^47) store
  | r => (s, r)

/-! ## Bytes by virtual address -/

/-- The next byte position at which a 4 KiB page ends. -/
def pageRest (va n : Nat) : Nat := Nat.min n (4096 - va % 4096)

/-- The L2 of a die is changing the range that merges use, which are device traffic (14 R284), and a core holds an update-only line of the range: an access that would have it merged
waits (04 R69, 14 R295). -/
def mergeHeld (s : State) (pa n : Nat) : Bool :=
  decide (ownerOf pa < 2) && l2Changing s (ownerOf pa) 40 &&
    s.cores.any fun e => e.2.upd.any fun u => decide (pa / 64 ≤ u.1) && decide (64 * u.1 < pa + n)

/-- Translate an address for an access of n bytes that lie in one page. -/
def resolvePiece (s : State) (p va n : Nat) (store : Bool) : State × Xr :=
  match resolve s p va store with
  | (s1, .ok pa) => if mergeHeld s1 pa n then (s1, .wait) else (s1, .ok pa)
  | r => r

/-- Translate every 4 KiB piece of a range: the physical pieces, or the first failure or wait. `fuel` bounds the pieces. -/
def resolveRange (s : State) (p : Nat) (store : Bool) : Nat → Nat → Nat → State × Xr × List (Nat × Nat)
  | 0, _, _ => (s, .ok 0, [])
  | fuel + 1, va, n =>
    if n = 0 then (s, .ok 0, [])
    else
      let m := pageRest va n
      match resolvePiece s p va m store with
      | (s1, .ok pa) =>
        let r := resolveRange s1 p store fuel (va + m) (n - m)
        (r.1, r.2.1, (pa, m) :: r.2.2)
      | (s1, x) => (s1, x, [])

/-- Read physical pieces as one byte list, with the OR of the sector taints. -/
def readPieces (s : State) : List (Nat × Nat) → List Byte × Bool × State
  | [] => ([], false, s)
  | (pa, n) :: r =>
    let s1 := mergeRange s pa n
    let bs := (List.range n).map fun i => memByte s1 (pa + i)
    let t := ownerOf pa < 2 && (List.range ((pa + n + 31) / 32 - pa / 32)).any fun i => Tbl.get false s1.secTaint (pa / 32 + i)
    let q := readPieces s1 r
    (bs ++ q.1, t || q.2.1, q.2.2)

/-! ## Scratchpad -/

def scrRead (c : Core) (off n : Nat) : List Byte := (List.range n).map fun i => Tbl.get 0 c.scratch (off + i)
def scrTainted (c : Core) (off n : Nat) : Bool :=
  (List.range ((off + n + 31) / 32 - off / 32)).any fun i => Tbl.get false c.scrTaint (off / 32 + i)
/-- Write scratchpad bytes; a sector keeps its old taint unless it is covered whole (15 R310). -/
def scrWrite (c : Core) (off : Nat) (bs : List Byte) (t : Bool) : Core :=
  let n := bs.length
  let c1 := { c with scratch := (bs.foldl (fun (a : Memory × Nat) b => (Tbl.set 0 a.1 a.2 b, a.2 + 1)) (c.scratch, off)).1 }
  { c1 with scrTaint := (List.range ((off + n + 31) / 32 - off / 32)).foldl (fun m i =>
      let q := off / 32 + i
      let whole : Bool := decide (off ≤ 32 * q) && decide (32 * q + 32 ≤ off + n)
      Tbl.set false m q (t || (Tbl.get false m q && !whole))) c.scrTaint }

/-! ## The store that performs (15 R310, R311; 16 R332) -/

/-- The launch, superstep and ordinal tags of a core's writes. -/
def tagsOf (s : State) (c : Nat) : Nat × Nat × Nat :=
  let x := coreGet s c
  (x.launch % 8192, (seqOf s x.unit).steps % 16, x.ordinal % 4096)

/-- Taint and tag the sectors of a store of C-die memory. -/
def tagSectors (s : State) (tags : Option (Nat × Nat × Nat)) (pa n : Nat) (t : Bool) : State :=
  if ownerOf pa < 2 then
    (List.range ((pa + n + 31) / 32 - pa / 32)).foldl (fun s i =>
      let q := pa / 32 + i
      let whole : Bool := decide (pa ≤ 32 * q) && decide (32 * q + 32 ≤ pa + n)
      let old := Tbl.get (0, 0, 0) s.secTag q
      let race := match tags with
        | some g => g.1 == old.1 && g.2.1 == old.2.1 && g.2.2 != old.2.2
        | none => false
      { s with secTaint := Tbl.set false s.secTaint q (t || (Tbl.get false s.secTaint q && !whole) || race),
               secTag := match tags with
                 | some g => Tbl.set (0, 0, 0) s.secTag q g
                 | none => s.secTag }) s
  else s

/-- The output region of a partition: base, size, whether tainted stores trap. -/
def outRegion (s : State) (p : Nat) : Nat × Nat × Bool :=
  let ctl := pfGet s (0xF0008 + 16 * p) 8
  (pfGet s (0xF0000 + 16 * p) 8, bitsAt ctl 16 24, bitsAt ctl 63 1 == 1)

/-- A range meets the output region. -/
def inOutput (s : State) (p va n : Nat) : Bool :=
  let r := outRegion s p
  decide (va < r.1 + r.2.1) && decide (r.1 < va + n) && r.2.1 ≠ 0

/-- A tainted store of the range traps (15 R311). -/
def outTrap (s : State) (p va n : Nat) (t : Bool) : Bool := t && inOutput s p va n && (outRegion s p).2.2

/-- A tainted store that performs in the region, or in host or peer memory, is seen by the completion signal. -/
def noteTaint (s : State) (q p va n : Nat) (t : Bool) : State :=
  if t && (inOutput s p va n || ownerOf va == 4 || ownerOf va == 8) then
    match (seqOf s q).run with
    | some r => modTask s r.task fun t => { t with taintSeen := true }
    | none => s
  else s

/-- Update an L1 copy that is present (11 R220). -/
def l1Update (c : Core) (va : Nat) (bs : List Byte) : Core :=
  { c with l1 := (bs.foldl (fun (a : Tbl (BitVec 512) × Nat) b =>
      (match Tbl.find? a.1 (a.2 / 64) with
       | none => a.1
       | some l =>
         let sh := 8 * (a.2 % 64)
         Tbl.insert (Tbl.erase a.1 (a.2 / 64)) (a.2 / 64) ((l &&& ~~~((0xFF : BitVec 512) <<< sh)) ||| (BitVec.ofNat 512 b.toNat <<< sh)),
       a.2 + 1)) (c.l1, va)).1 }

/-- A store of bytes by core c at a virtual address that translates to `pa`: it performs with respect to every party. -/
def storeBytes (s : State) (c p va pa : Nat) (bs : List Byte) (t race : Bool) : State :=
  let s1 := performBytes (mergeRange s pa bs.length) pa bs
  let s2 := tagSectors s1 (if race then some (tagsOf s c) else none) pa bs.length t
  let s3 := noteTaint s2 (coreGet s c).unit p va bs.length t
  if ownerOf va < 2 then s3 else modCore s3 c fun x => l1Update x va bs

/-- An L1 of 2048 lines makes room for one more (11 R220): of its copies and of its update-only lines, one that is free to choose goes, an update-only line by merging (14 R295; log 13).
A line whose merge waits stays (04 R69). -/
def l1Room (s : State) (cid : Nat) : State :=
  let c := coreGet s cid
  let ups := c.upd.filter fun e => !l2Changing s (ownerOf (64 * e.1)) 40
  if c.l1.length + c.upd.length < 2048 ∨ c.l1.length + ups.length = 0 then s
  else
    let v := Config.victim s.freeCtr % (c.l1.length + ups.length)
    let s1 : State := { s with freeCtr := s.freeCtr + 1 }
    match ups[v - c.l1.length]? with
    | some e => if v < c.l1.length then modCore s1 cid fun c => { c with l1 := c.l1.eraseIdx v } else mergeLineOf s1 cid e.1
    | none => modCore s1 cid fun c => { c with l1 := c.l1.eraseIdx v }

/-- An L1 takes a copy of a line, where one of its 2048 lines is free for it (11 R220). -/
def l1Fill (c : Core) (line : Nat) (l : BitVec 512) : Core :=
  let t := Tbl.erase c.l1 line
  { c with l1 := if t.length + c.upd.length < 2048 then Tbl.insert t line l else t }

/-- Whether the copy of a line that an L1 holds has been evicted: free (log 13). -/
def l1Evicted (s : State) : Bool × State := (Config.evicted s.freeCtr, { s with freeCtr := s.freeCtr + 1 })

/-- A load of bytes by core c: C-die memory is coherent; a line of host or peer memory may be served from the core's copy (14 R289). -/
def loadBytes (s : State) (c va pa n : Nat) (na : Bool) : Nat × Bool × State :=
  if ownerOf va < 2 then
    let r := readPieces s [(pa, n)]
    (leOf r.1, r.2.1, r.2.2)
  else
    let line := va / 64
    let copy := Tbl.find? (coreGet s c).l1 line
    let ev := if copy.isSome then l1Evicted s else (false, s)
    match (if ev.1 then none else copy) with
    | some l => (bitsAt l.toNat (8 * (va % 64)) (8 * n), false, ev.2)
    | none =>
      let l := memVal ev.2 (pa - va % 64) 64
      let s1 := if na then modCore ev.2 c fun x => { x with l1 := Tbl.erase x.l1 line }
        else modCore (l1Room (modCore ev.2 c fun x => { x with l1 := Tbl.erase x.l1 line }) c) c fun x => l1Fill x line (BitVec.ofNat 512 l)
      (bitsAt l (8 * (va % 64)) (8 * n), false, s1)

end Sys2Proof.Machine
end

