-- ==== Sys2Proof/Machine/Issue.lean ====
section
/-! DEFINITION. How a memory/engine slot issues an asynchronous operation: the bytes it touches, its checks, its limit, its translation, and when it is due (11 R219, R221, R223; 15 R306). -/

namespace Sys2Proof.Machine

open Sys2Proof

/-! ## What an operation touches -/

/-- The virtual ranges that an operation translates before it is sent. -/
def opSpans : AKind → List (Nat × Nat)
  | .load _ va n _ _ _ => [(va, n)]
  | .store va n _ _ => [(va, n)]
  | .vload _ lanes _ => lanes.map fun e => (e.2.1, 4)
  | .vstore lanes => lanes.map fun e => (e.1, 4)
  | .red opc va _ => [(va, redBytes opc)]
  | .atomic _ _ va _ _ => [(va, 8)]
  | .cache _ va => [(va / 64 * 64, 64)]
  | .far va => [(va, 1)]
  | .copy _ _ va | .bind _ va _ => [(va, 64)]
  | .launch _ va => if va % 64 = 0 then [(va, 64)] else []
  | _ => []

/-- Translated as a store (12 R249, 14 R295, R297). -/
def opWrites : AKind → Bool
  | .store _ _ _ _ | .vstore _ | .red _ _ _ | .atomic _ _ _ _ _ => true
  | _ => false

/-- The 4 KiB pages of the ranges that are translated. -/
def spanPages (l : List (Nat × Nat)) : List Nat :=
  (l.flatMap fun e => if isLocal e.1 then [] else [e.1 / 4096, (e.1 + e.2 - 1) / 4096]).eraseDups

/-- Every range lies in the scratchpad. -/
def allLocal (k : AKind) : Bool := (opSpans k).all fun e => isLocal e.1

/-- The address that a translated operation uses. -/
def paIn (pages : List (Nat × Nat)) (va : Nat) : Nat :=
  if isLocal va then va
  else match pages.find? fun e => e.1 == va / 4096 with
    | some e => e.2 * 4096 + va % 4096
    | none => 0

/-- The partition and the task that a core works for. -/
def partOfCore (s : State) (c : Nat) : Nat := ((seqOf s (coreGet s c).unit).run.map (·.part)).getD 0
def taskOfCore (s : State) (c : Nat) : Task := runTask s (coreGet s c).unit

/-! ## Limits (11 R221, 13 R273, 17 R341) -/

/-- The class of a limit: 0 global requests, 1 copy commands, 2 migrations, 3 cache maintenance, 4 network, 5 engine operations, 6 EN commands, 7 none. -/
def opClass : AKind → Nat
  | .load _ _ _ _ _ _ | .store _ _ _ _ | .vload _ _ _ | .vstore _ | .red _ _ _ | .atomic _ _ _ _ _ => 0
  | .copy _ _ _ => 1
  | .migr _ _ => 2
  | .cache _ _ => 3
  | .net _ _ _ | .sent _ _ _ | .posted _ _ _ _ _ | .coll _ _ _ _ => 4
  | .eng _ => 5
  | .sel _ _ | .draw _ _ _ _ _ | .kv _ _ _ _ | .tithe _ _ _ | .launch _ _ | .release _ _ _ | .asked _ _ => 6
  | .landAt _ _ cl _ => cl
  | .far _ | .bind _ _ _ => 7

def classLimit (k : Nat) : Nat :=
  match k with
  | 0 => 2048
  | 1 => 32
  | 2 | 3 | 4 => 64
  | 5 | 6 => 16
  | _ => 2^64

/-- What an operation counts for: one for each 64-byte line that a global access touches. -/
def opWeight (k : AKind) : Nat :=
  if opClass k = 0 then
    ((opSpans k).filterMap fun e => if isLocal e.1 then none else some (e.1 / 64)).eraseDups.length
  else 1

/-- An operation would exceed its limit. -/
def overLimit (c : Core) (k : AKind) : Bool :=
  let cl := opClass k
  decide (classLimit cl < (c.ops.filter fun o => opClass o.kind == cl).foldl (fun a o => a + opWeight o.kind) 0 + opWeight k)

/-! ## Entering -/

/-- Translate the pages of an operation without walking: the pages, a failure, or a wait. -/
def lookupPages (s : State) (p : Nat) (store : Bool) : List Nat → Except (Option Nat) (List (Nat × Nat))
  | [] => .ok []
  | v :: r =>
    match lookup s p (v * 4096) store with
    | .fail code => .error (some code)
    | .wait => .error none
    | .ok pa =>
      match lookupPages s p store r with
      | .ok l => .ok ((v, pa / 4096) :: l)
      | .error e => .error e

/-- An atomic or reduction may not touch a windowed range (08 R166). -/
def windowTrap (s : State) (k : AKind) (pages : List (Nat × Nat)) : Bool :=
  match k with
  | .red _ va _ | .atomic _ _ va _ _ => ownerOf va < 2 && (windowAt s (paIn pages va)).isSome
  | _ => false

/-- A copy command. -/
def isCopy : AKind → Bool
  | .copy _ _ _ => true
  | _ => false

/-- A load, which changes nothing but its destination. -/
def pureLoad : AKind → Bool
  | .load _ _ _ _ _ _ | .vload _ _ _ => true
  | _ => false

/-- The cycle in which a translated operation is due (15 R306): padded in deterministic mode, else free; the scratchpad answers in the next cycle. -/
def opDue (s : State) (det : Bool) (path : Nat) (k : AKind) : Nat × State :=
  if allLocal k && opSpans k ≠ [] then (s.cycle + 1, s)
  else if det && (path == 0 || path == 3) && !isCopy k then
    let lv := (Config.servedBy s.freeCtr).val
    (s.cycle + (if lv = 0 then 600 else if lv = 1 then 1100 else 2400), { s with freeCtr := s.freeCtr + 1 })
  else let d := drawLatency s; (s.cycle + d.1, d.2)

/-- A fault that cannot be resolved converts to a trap (16 R314): nothing of its bundle performs (16 R317), so what it still has to perform and its results in flight are dropped; its loads that
have been sent go on, for they change no more than registers that are never used (19 R370). The descriptor read of a launch header's stream has detail 9, and a frame that an error retired its structure's kind. -/
def faultTrap (s : State) (c : Nat) (o : AOp) (code : Nat) (detail : Nat) : State :=
  let x := coreGet s c
  let b := o.id / 4
  let s1 := modCore s c fun x =>
    { x with ops := x.ops.filter fun y => y.id ≠ o.id && (y.id / 4 ≠ b || (pureLoad y.kind && !y.waiting)), held := x.held.filter fun y => y.id / 4 ≠ b,
             inflight := x.inflight.filter fun l => l.bundle ≠ b, svc := [] }
  takeTrap s1 x.unit x.bead 0xFFFFFF code (match o.kind with
    | .bind _ _ true => 9
    | _ => if code = 0x0501 then (if (opSpans o.kind).any fun e => s.rk.lost.contains (ownerOf e.1) then 7 else 4) else detail)

/-- The byte that a store of the core which a fence orders before path GA is to leave at an address: the last such store in program order. -/
def storedByte (c : Core) (va : Nat) : Option Nat :=
  (c.ops.filter fun o => c.fences.any fun f => f.first == 0 && f.later == 3 && decide (o.id < f.bound)).foldl (fun a o => match o.kind with
    | .store b n x _ => if b ≤ va ∧ va < b + n then some (x.v.toNat / 256^(va - b) % 256) else a
    | .vstore lanes => match lanes.find? fun e => decide (e.1 ≤ va) && decide (va < e.1 + 4) with
      | some e => some (e.2.1.toNat / 256^(va - e.1) % 256)
      | none => a
    | _ => a) none

/-- The slack region that a descriptor names, as its read would find it. -/
def peekRegion (s : State) (c : Nat) (va : Nat) : Nat × State :=
  let r : Nat × State := match storedByte (coreGet s c) (va + 16) with
    | some b => (b, s)
    | none => if isLocal va then (leOf (scrRead (coreGet s c) (va % 2^60 + 16) 1), s)
    else match lookup s (partOfCore s c) (va + 16) false with
      | .ok pa => readPhys s pa 1
      | _ => (0, s)
  (r.1 / 16 % 16, r.2)

/-- A translated descriptor read of a binding gives the stream its stall budget (11 R229). -/
def translated (s : State) (c : Nat) (k : AKind) : State :=
  match k with
  | .bind z va _ =>
    let r := peekRegion s c va
    let n := slackOf (taskOfCore s c) r.1
    modCore r.2 c fun x => setStream x z.val { streamOf x z.val with slack := n, region := r.1 }
  | _ => s

/-- Ask the host for every page of host memory that misses, in the order of the accesses (12 R258, 19 R370). -/
def askPages (s : State) (p : Nat) (store : Bool) (pages : List Nat) : State :=
  pages.foldl (fun s v =>
    if ownerOf (v * 4096) = 4 then
      match lookup s p (v * 4096) store with
      | .wait => askHost s p (v * 4096 % 2^60) store
      | _ => s
    else s) s

/-- Put an operation in its core's list: its counter rises, and its translation is looked up; a miss leaves it waiting. -/
def enterOp (s : State) (c : Nat) (o : AOp) : State :=
  let s0 := modCore s c fun x => x.incCtr o.ctr
  match lookupPages s (partOfCore s c) (opWrites o.kind) (spanPages (opSpans o.kind)) with
  | .ok pages =>
    if windowTrap s o.kind pages then faultTrap s c o 0x0206 o.slot.val
    else
      let d := opDue s0 (taskOfCore s c).det o.path o.kind
      translated (modCore d.2 c fun x => { x with ops := x.ops ++ [{ o with pages := pages, due := d.1, waiting := false, at_ := s.cycle }] }) c o.kind
  | .error none =>
    let d := drawDevice (askPages s0 (partOfCore s c) (opWrites o.kind) (spanPages (opSpans o.kind)))
    modCore d.2 c fun x => { x with ops := x.ops ++ [{ o with waiting := true, due := s.cycle + d.1, at_ := s.cycle }] }
  | .error (some code) => faultTrap s c o code o.slot.val

/-- The number of an operation of the running slot: loads of a bundle come before its stores, M0 before M1 (14 R284). -/
def opId (s : State) (store : Bool) : Nat := 4 * (curCore s).bundleNo + (if store then 2 else 0) + (s.cur.slot.val - 6)

/-- A command of a class has failed and its status waits for a boundary: those issued behind it are discarded (11 R235, R240). -/
def classFailed (c : Core) (cl : Nat) : Bool := c.ops.any fun e => match e.kind with
  | .landAt _ _ k (some _) => k == cl
  | _ => false

/-- Issue an operation of the running slot; one beyond its limit is held in its slot (11 R221). -/
def issueOp (s : State) (path : Nat) (store t : Bool) (k : AKind) : State :=
  let o : AOp := ⟨opId s store, s.cur.slot, path, s.cur.ctr.val, t, k, 0, [], false, false, false, 0, s.cycle⟩
  if classFailed (curCore s) (opClass k) then s
  else if (curCore s).held ≠ [] || overLimit (curCore s) k then modCur s fun c => { c with held := c.held ++ [o] }
  else enterOp s (curId s) o

/-! ## Checks at issue -/

/-- The running slot traps with a code, or goes on. -/
def orTrap (s : State) (code : Option Nat) (k : State) : State :=
  match code with
  | some x => trapHere s x s.cur.slot.val
  | none => k

/-- The code that the translation of an access raises at issue, one that nothing can resolve. -/
def lookupTrap (s : State) (store : Bool) (va : Nat) : Option Nat :=
  if isLocal va then none
  else match lookup s (curPart s) va store with
    | .fail code => some code
    | _ => none

/-- The code an access raises at issue: its address, or a translation that nothing can resolve. -/
def accessTrap (s : State) (store : Bool) (va n al : Nat) : Option Nat :=
  match addrTrap s (curPword s) (runTask s s.cur.unit).det va n al with
  | some code => some code
  | none => lookupTrap s store va

/-- The same for the descriptor read of a command on path CP or EN, which deterministic mode does not keep from the host and the peers (15 R307). -/
def descTrap (s : State) (va al : Nat) : Option Nat :=
  match addrTrap s (curPword s) false va 64 al with
  | some code => some code
  | none => lookupTrap s false va

/-- A store also traps where it would bring a tainted value into the output region (15 R311). -/
def storeTrap (s : State) (va n al : Nat) (t : Bool) : Option Nat :=
  match accessTrap s true va n al with
  | some code => some code
  | none => if outTrap s (curPart s) va n t then some 0x0403 else none

/-- An atomic or reduction traps in a windowed range whose translation is at hand. -/
def rmwTrap (s : State) (va n : Nat) : Option Nat :=
  match accessTrap s true va n n with
  | some code => some code
  | none =>
    if ownerOf va < 2 then
      match lookup s (curPart s) va true with
      | .ok pa => if (windowAt s pa).isSome then some 0x0206 else none
      | _ => none
    else none

/-- A counted core-local load raises its counter until its value lands (11 R221, R222). -/
def countLocal (s : State) : State :=
  if s.cur.ctr = 0 then s
  else modCur s fun c => let c1 := c.incCtr s.cur.ctr.val; { c1 with counting := c1.counting ++ [(s.cur.ctr.val, s.cycle + 6, c1.bundleNo, s.cur.slot.val)] }

/-- A memory slot's scalar base with its taint. -/
def baseTaint (c : Core) (b : SOp) : Bool := (readS c b).t

/-! ## What has not performed on a path (14 R284, R290) -/

/-- An earlier element of the same stream is still in flight: the walk is stored in order, so this one waits for it (11 R228). -/
def outBlocked (c : Core) (e : OutElem) : Bool :=
  c.inflight.any fun l => match l.kind with
    | .out z _ write _ id => write && z.val == e.z && decide (id < e.id)
    | _ => false

/-- The written elements that can be stored. DEDUCED (log 49): one behind an element still in flight is not yet an access that a stop, a fence or a barrier waits for. -/
def outLive (c : Core) : List OutElem := c.outq.filter fun e => !outBlocked c e

/-- A LAUNCH, whose status is written on path LS (14 R284). -/
def launches : AKind → Bool
  | .launch _ _ => true
  | .asked _ cmd => cmdField cmd 0 1 == 1
  | _ => false

/-- An operation has an access on a path (14 R284): its own, for LAUNCH its status on path LS, for COPYP the read of its descriptor on path CP (11 R232). -/
def onPath (path : Nat) (o : AOp) : Bool := o.path == path || (path == 0 && launches o.kind) || (path == 1 && o.path == 3 && isCopy o.kind)

/-- An element requested for an input stream below a bound is not in its buffer. -/
def reqBelow (c : Core) (bound : Nat) : Bool := c.streams.any fun e => e.2.reqs.any fun r => decide (r.2 < bound)

/-- An access of a path numbered below a bound has not performed: an operation, be it held in its slot, or an element of a stream on path GA. -/
def pathBusy (c : Core) (path bound : Nat) : Bool :=
  ((c.ops ++ c.held).any fun o => onPath path o && decide (o.id < bound)) || (path == 3 && ((outLive c).any (fun e => decide (e.id < bound)) || reqBelow c bound))

/-- Some access of any path numbered below a bound has not performed. -/
def anyBusy (c : Core) (bound : Nat) : Bool :=
  ((c.ops ++ c.held).any fun o => decide (o.path ≤ 5) && decide (o.id < bound)) || (outLive c).any (fun e => decide (e.id < bound)) || reqBelow c bound

end Sys2Proof.Machine
end

