-- ==== Sys2Proof/Machine/Complete.lean ====
section
/-! DEFINITION. Asynchronous operations performing and completing: the orders they keep (14 R284 to R293), loads, stores, atomics, merges, streams (11 R228) and the copy engine (11 R233 to R235). -/

namespace Sys2Proof.Machine

open Sys2Proof

/-! ## Orders -/

/-- Loads, and stores with reductions; an atomic is both. -/
def isLoad : AKind → Bool
  | .load _ _ _ _ _ _ | .vload _ _ _ | .atomic _ _ _ _ _ => true
  | _ => false
def isFar : AKind → Bool
  | .far _ => true
  | _ => false
def isAcq : AKind → Bool
  | .load _ _ _ _ acq _ => acq
  | _ => false
def isRel : AKind → Bool
  | .store _ _ _ rel => rel
  | _ => false
def isSel : AKind → Bool
  | .sel _ _ => true
  | _ => false

/-- Two lists of ranges share a byte. -/
def spansMeet (a b : List (Nat × Nat)) : Bool := a.any fun x => b.any fun y => decide (x.1 < y.1 + y.2) && decide (y.1 < x.1 + x.2)

/-- Every range lies in the memory of a die. -/
def allHome (die : Nat) (k : AKind) : Bool := (opSpans k).all fun e => ownerOf e.1 == die

/-- A FENCE.X or an LDACQ holds an access of a path numbered `id` (14 R290, R293). -/
def fenceHolds (c : Core) (path id : Nat) : Bool :=
  (c.fences.any fun f => f.later == path && decide (f.bound ≤ id) && pathBusy c f.first f.bound) ||
    c.ops.any fun o => isAcq o.kind && decide (o.id < id)

/-- The ranges of an operation by physical address. -/
def physSpans (o : AOp) : List (Nat × Nat) := (opSpans o.kind).map fun e => (paIn o.pages e.1, e.2)

/-- Two operations touch a common byte, by one virtual address or through two mappings of one frame (14 R285). -/
def opsMeet (o e : AOp) : Bool := spansMeet (opSpans o.kind) (opSpans e.kind) || (!e.waiting && spansMeet (physSpans o) (physSpans e))

/-- A command has performed, and its status waits for a boundary. -/
def landWaits : AKind → Bool
  | .landAt _ _ _ none => true
  | _ => false

/-- A serialise received holds the LS accesses issued after it (14 R292). -/
def serialHolds (c : Core) (id : Nat) : Bool :=
  c.serial.any fun e => !e.2.2.contains id && c.ops.any fun o => e.2.2.contains o.id

/-- An L2 set range that the access's partition is served by is changing (04 R69). -/
def l2Busy (s : State) (p : Nat) (k : AKind) : Bool :=
  s.xl.l2change.any fun e => e.2.1 == p && (opSpans k).any fun x => ownerOf x.1 == e.1

/-- Whether an operation keeps the order of an earlier one: it must wait for it. -/
def waitsFor (die : Nat) (o e : AOp) : Bool :=
  decide (e.id < o.id) &&
    ((o.path == 0 && onPath 0 e && !isFar e.kind &&
        (isFar o.kind || opsMeet o e ||
         (allLocal o.kind && allLocal e.kind) ||
         (allHome die o.kind && allHome die e.kind &&
           ((isLoad o.kind && isLoad e.kind) || (opWrites o.kind && opWrites e.kind))))) ||
     (!landWaits e.kind && opClass o.kind == opClass e.kind && (opClass o.kind == 1 || opClass o.kind == 5 || opClass o.kind == 6)) ||
     (isSel o.kind && opClass e.kind == 5) || (opClass o.kind == 5 && isSel e.kind))

/-- KVALLOC and KVFREE. -/
def isKv : AKind → Bool
  | .kv opc _ _ _ => opc ≠ 2
  | _ => false

/-- The pool of a partition serves its operations in order of issue cycle, Rod-unit and bead (17 R348). -/
def kvBehind (s : State) (cid : Nat) (o : AOp) : Bool :=
  isKv o.kind && s.cores.any fun e => e.1 ≠ cid && partOfCore s e.1 == partOfCore s cid && e.2.ops.any fun x =>
    isKv x.kind && !x.suspended && (decide (x.at_ < o.at_) || (x.at_ == o.at_ &&
      (decide (e.2.unit < (coreGet s cid).unit) || (e.2.unit == (coreGet s cid).unit && decide (e.2.bead < (coreGet s cid).bead)))))

/-- An access of an operation's bundle waits for a fault or in its slot. -/
def mateWaits (c : Core) (o : AOp) : Bool :=
  (c.ops.any fun e => e.waiting && e.id / 4 == o.id / 4) || c.held.any fun e => e.id / 4 == o.id / 4

/-- On path GA, the read of a stream's descriptor and a COPYP keep their order where they may meet, in the scratchpad (14 R285). -/
def bindBehind (c : Core) (o : AOp) : Bool :=
  match o.kind with
  | .bind _ va _ => isLocal va && c.ops.any fun e => e.path == 3 && isCopy e.kind && decide (e.id < o.id)
  | .copy _ _ _ => c.ops.any fun e => decide (e.id < o.id) && match e.kind with
    | .bind _ va _ => isLocal va
    | _ => false
  | _ => false

/-- An access that would have an update-only line merged while merges to its die wait (04 R69, 14 R284): any, or a reduction of another form than its core's line. -/
def mergeWaits (s : State) (c : Core) (o : AOp) : Bool :=
  s.xl.l2change ≠ [] && match o.kind with
  | .red opc va _ => decide (ownerOf va < 2) && match Tbl.find? c.upd (paIn o.pages va / 64) with
    | some u => u.opc != opc && l2Changing s (ownerOf va) 40
    | none => decide (2048 ≤ c.upd.length) && c.upd.all fun e => l2Changing s (ownerOf (64 * e.1)) 40
  | _ => (physSpans o).any fun e => mergeHeld s e.1 e.2

/-- Whether an operation of a core may perform now. While an access of its bundle waits for a fault, only a load that has been sent goes on (19 R370); anything else of the bundle does not
perform, for were the fault to convert, the bundle would have to have performed nothing (05 R80, 16 R317). -/
def mayPerform (s : State) (cid : Nat) (o : AOp) : Bool :=
  let c := coreGet s cid
  !o.waiting && !o.suspended && decide (o.due ≤ s.cycle) &&
    !(c.ops.any fun e => waitsFor (cid / 104) o e) &&
    !fenceHolds c o.path o.id && !(launches o.kind && fenceHolds c 0 o.id) && !(isCopy o.kind && fenceHolds c 1 o.id) &&
    !(isRel o.kind && anyBusy c o.id) &&
    !(o.path == 0 && !isFar o.kind && serialHolds c o.id) &&
    (pureLoad o.kind || !mateWaits c o) &&
    !(o.path == 3 && (bindBehind c o || (outLive c).any (fun e => decide (e.id < o.id)) || reqBelow c o.id)) &&
    !kvBehind s cid o &&
    !l2Busy s (partOfCore s cid) o.kind && !mergeWaits s c o

/-- The operation of a number on a core, if it may perform. -/
def readyOp (s : State) (cid id : Nat) : Option AOp := (coreGet s cid).ops.find? fun o => o.id == id && mayPerform s cid o

/-- An operation leaves its core: its counter falls, and fences that hold nothing more go. -/
def removeOp (c : Core) (o : AOp) : Core :=
  let c1 := { c.decCtr o.ctr with ops := c.ops.filter fun x => x.id ≠ o.id }
  { c1 with fences := c1.fences.filter fun f => pathBusy c1 f.first f.bound }

/-- Run an event on the operation it names. -/
def onOp (s : State) (f : Nat → AOp → State) : State :=
  match s.ev with
  | .op c id =>
    match readyOp s c.val id with
    | some o => f c.val o
    | none => s
  | _ => s

/-! ## Loads -/

/-- Bytes of an address as their owner holds them, no L1 copy being looked at: where reductions and atomics are executed (14 R297, R298). -/
def ownerRead (s : State) (cid : Nat) (pages : List (Nat × Nat)) (va n : Nat) : Nat × Bool × State :=
  if isLocal va then
    let c := coreGet s cid
    (leOf (scrRead c (va % 2^60) n), scrTainted c (va % 2^60) n, s)
  else
    let r := readPieces s [(paIn pages va, n)]
    (leOf r.1, r.2.1, r.2.2)

/-- Bytes of an operation's address: of the scratchpad, or of memory. -/
def opRead (s : State) (cid : Nat) (pages : List (Nat × Nat)) (va n : Nat) (na : Bool) : Nat × Bool × State :=
  if isLocal va then
    let c := coreGet s cid
    (leOf (scrRead c (va % 2^60) n), scrTainted c (va % 2^60) n, s)
  else loadBytes s cid va (paIn pages va) n na

/-- A scalar load completes (11 R222, 14 R293): LDACQ drops the core's copies first. -/
def finishLoad (s : State) (cid : Nat) (o : AOp) (dst : Fin 32) (va n : Nat) (signed acq na : Bool) : State :=
  let s0 := if acq then modCore s cid fun c => { c with l1 := [] } else s
  let r := opRead s0 cid o.pages va n na
  let v : Word := if signed then BitVec.ofInt 64 (sextNat r.1 (8 * n)) else BitVec.ofNat 64 r.1
  modCore r.2.2 cid fun c => removeOp (c.setN dst.val ⟨v, r.2.1 || o.taint⟩) o

/-- A vector load or gather completes: every lane is written. -/
def finishVload (s : State) (cid : Nat) (o : AOp) (reg : Nat) (lanes : List (Nat × Nat × Bool)) (na : Bool) : State :=
  let r := lanes.foldl (fun (a : State × TVec × LaneMask) e =>
    let x := opRead a.1 cid o.pages e.2.1 4 na
    (x.2.2, ⟨a.2.1.v ||| (BitVec.ofNat 4096 x.1 <<< (32 * e.1)), if x.2.1 || e.2.2 then a.2.1.t ||| (1 <<< e.1) else a.2.1.t⟩,
      a.2.2 ||| (1 <<< e.1))) (s, ⟨0, 0⟩, 0)
  modCore r.1 cid fun c => removeOp (c.writeLanes reg r.2.1 r.2.2) o

/-- LOAD_COMPLETE. -/
def execLoadComplete (s : State) : Out :=
  .next (onOp s fun c o =>
    match o.kind with
    | .load dst va n signed acq na => finishLoad s c o dst va n signed acq na
    | .vload reg lanes na => finishVload s c o reg lanes na
    | _ => s)

/-! ## Stores, reductions and cache maintenance -/

/-- A store of bytes by an operation: to the scratchpad, or to memory. -/
def opWrite (s : State) (cid : Nat) (pages : List (Nat × Nat)) (va : Nat) (bs : List Byte) (t race : Bool) : State :=
  if isLocal va then modCore s cid fun c => scrWrite c (va % 2^60) bs t
  else storeBytes s cid (partOfCore s cid) va (paIn pages va) bs t race

/-- A shoot-down that runs waits for an operation's request. -/
def inShoot (s : State) (cid id : Nat) : Bool :=
  match s.xl.shoot with
  | some x => x.ops.any fun e => e.2.1 == cid && e.2.2 == id
  | none => false

/-- A reduction performs (14 R295, R298): at the scratchpad, in an update-only line, or at the host or the peer. Under a shoot-down that waits for it (12 R253) its line merges at once. -/
def performRed (s : State) (cid : Nat) (o : AOp) (opc va : Nat) (x : TWord) : State :=
  let n := redBytes opc
  if ownerOf va < 2 then
    let pa := paIn o.pages va
    let line := pa / 64
    let s1 := match Tbl.find? (coreGet s cid).upd line with
      | some u => if u.opc = opc then s else mergeLineOf s cid line
      | none => l1Room s cid
    let d := drawLatency s1
    (fun t => if inShoot s cid o.id then mergeLineOf t cid line else t) <| modCore d.2 cid fun c =>
      let u := (Tbl.find? c.upd line).getD ⟨opc, [], partOfCore s cid, s.cycle + d.1⟩
      let k := pa % 64 / n
      let m := ((Tbl.find? u.words k).map BitVec.toNat).getD (redIdentity opc)
      let u1 : UpdLine := { u with words := Tbl.insert (Tbl.erase u.words k) k (BitVec.ofNat 64 (redCombine opc m x.v.toNat)) }
      { c with upd := Tbl.insert (Tbl.erase c.upd line) line u1 }
  else
    let r := ownerRead s cid o.pages va n
    let bs := leBytes (redCombine opc r.1 x.v.toNat) n
    if isLocal va then modCore r.2.2 cid fun c => scrWrite c (va % 2^60) bs (r.2.1 || opc == 7)
    else storeBytes r.2.2 cid (partOfCore s cid) va (paIn o.pages va) bs x.t false

/-- CFLUSH, CINV and CCLEAN (11 R236): the update-only line merges; the copy is invalidated but for CCLEAN. The L2 is the point of coherence, so its write-back changes nothing that is read. -/
def performCache (s : State) (cid : Nat) (o : AOp) (opc va : Nat) : State :=
  let s1 := mergeLineOf s cid (paIn o.pages va / 64)
  if opc = 2 then s1 else modCore s1 cid fun c => { c with l1 := Tbl.erase c.l1 (va / 64) }

/-- The 32-byte sectors that the lanes of a vector store cover whole. -/
def wholeSectors (lanes : List (Nat × Lane × Bool)) : List Nat :=
  ((lanes.map fun e => e.1 / 32).eraseDups).filter fun q => (List.range 8).all fun i => lanes.any fun e => e.1 == 32 * q + 4 * i

/-- The bytes that a vector store leaves in a sector it covers whole, the later lane remaining, and whether a lane stored there is tainted. -/
def sectorBytes (lanes : List (Nat × Lane × Bool)) (q : Nat) : List Byte × Bool :=
  ((List.range 8).flatMap fun i => leBytes (((lanes.reverse.find? fun e => e.1 == 32 * q + 4 * i).map fun e => e.2.1.toNat).getD 0) 4,
   lanes.any fun e => e.1 / 32 == q && e.2.2)

/-- A vector store performs lane by lane, a sector that it covers whole as one store of 32 bytes (15 R310). -/
def performLanes (s : State) (cid : Nat) (pages : List (Nat × Nat)) (lanes : List (Nat × Lane × Bool)) : State :=
  let w := wholeSectors lanes
  let s1 := (lanes.filter fun e => !w.contains (e.1 / 32)).foldl (fun s e => opWrite s cid pages e.1 (leBytes e.2.1.toNat 4) e.2.2 true) s
  w.foldl (fun s q => opWrite s cid pages (32 * q) (sectorBytes lanes q).1 (sectorBytes lanes q).2 true) s1

/-- STORE_PERFORM. -/
def execStorePerform (s : State) : Out :=
  .next (onOp s fun c o =>
    let done (s : State) : State := modCore s c fun x => removeOp x o
    match o.kind with
    | .store va n x _ => done (opWrite s c o.pages va (leBytes x.v.toNat n) x.t true)
    | .vstore lanes => done (performLanes s c o.pages lanes)
    | .red opc va x => done (performRed s c o opc va x)
    | .cache opc va => done (performCache s c o opc va)
    | _ => s)

/-- LINE_MERGE: an L1 lets go of an update-only line (14 R295). -/
def execLineMerge (s : State) : Out :=
  .next (match s.ev with
    | .line c line =>
      match Tbl.find? (coreGet s c.val).upd line with
      | some u => if u.due ≤ s.cycle ∧ l2Changing s (ownerOf (64 * line)) 40 = false then mergeLineOf s c.val line else s
      | none => s
    | _ => s)

/-! ## Returning atomics (14 R297, R298) -/

/-- Read, change and write 8 bytes with nothing between; the old value lands tainted. -/
def performAtomic (s : State) (cid : Nat) (o : AOp) (opc : Nat) (dst : Fin 32) (va : Nat) (x y : Word) : State :=
  let r := ownerRead s cid o.pages va 8
  let old : Word := BitVec.ofNat 64 r.1
  let new : Option Word := if opc = 0 then some (old + x) else if opc = 1 then some x else if old = x then some y else none
  let s1 := match new with
    | none => r.2.2
    | some w =>
      if opc = 0 ∧ ownerOf va < 2 then performBytes r.2.2 (paIn o.pages va) (leBytes w.toNat 8)
      else opWrite r.2.2 cid o.pages va (leBytes w.toNat 8) (if opc = 0 then r.2.1 else o.taint) (opc ≠ 0)
  modCore s1 cid fun c => removeOp (c.setN dst.val ⟨old, true⟩) o

/-- ATOMIC_COMPLETE. With the operands of a line event it is the host's Unsupported Request or Completer Abort, which traps. -/
def execAtomicComplete (s : State) : Out :=
  .next (match s.ev with
    | .line c id =>
      match readyOp s c.val id with
      | some o =>
        match o.kind with
        | .atomic _ _ va _ _ | .red _ va _ => if ownerOf va = 4 then faultTrap s c.val o 0x0204 o.slot.val else s
        | _ => s
      | none => s
    | _ => onOp s fun c o =>
      match o.kind with
      | .atomic opc dst va x y => performAtomic s c o opc dst va x y
      | _ => s)

/-! ## Migrations (11 R237) -/

/-- Ticks of the pass on a core's unit. -/
def ticksOf (s : State) (cid : Nat) : Nat := Nat.min 0xFFFFFFFF ((seqOf s (coreGet s cid).unit).cycles / 256)

/-- A trap that waits for the bead's next bundle; the first stands. -/
def setFailure (c : Core) (code detail : Nat) : Core := { c with failure := c.failure <|> some (code, detail) }

/-- MIGR_COMPLETE: the page is resident, or its pull goes on, or it cannot be had. -/
def execMigrComplete (s : State) : Out :=
  .next (onOp s fun c o =>
    match o.kind with
    | .migr va deadline =>
      match resolve s (partOfCore s c) va false with
      | (s1, .ok _) =>
        modCore s1 c fun x =>
          let late : Bool := o.acks = 1 ∧ deadline < ticksOf s c
          removeOp (if late && x.slip ≠ 255 then { x with slip := x.slip + 1 } else x) o
      | (s1, .wait) =>
        modCore s1 c fun x => { x with ops := x.ops.map fun e => if e.id = o.id then { e with acks := 1, due := s.cycle + 1 } else e }
      | (s1, .fail code) => modCore s1 c fun x => setFailure (removeOp x o) code o.slot.val
    | _ => s)

/-! ## Commands: reading and writing as they run -/

/-- What a command's step gives: a value, a failure with its code, detail and bytes written, or a translation it waits for. -/
inductive Res (α : Type) where
  | ok (s : State) (x : α)
  | fail (s : State) (code detail n : Nat)
  | wait (va : Nat) (store : Bool)

def Res.bind {α β : Type} (r : Res α) (f : State → α → Res β) : Res β :=
  match r with
  | .ok s x => f s x
  | .fail s code detail n => .fail s code detail n
  | .wait va st => .wait va st

/-- Who runs a command: core, partition, slot, and how many bytes it has written. -/
structure Cmd where
  core : Nat
  part : Nat
  slot : Nat
  pword : Nat
deriving DecidableEq, Repr

def cmdOf (s : State) (cid : Nat) (o : AOp) : Cmd := ⟨cid, partOfCore s cid, o.slot.val, (taskOfCore s cid).pword⟩

/-- A physical range lies in a window that is discarding its decoded blocks: reads by the transfer unit wait (08 R162). -/
def windowBusy (s : State) (pa n : Nat) : Bool :=
  (List.range 128).any fun i =>
    let o := fmwOff (i / 64) (i / 16 % 4) (i % 16)
    bitsAt (pfGet s (o + 16) 8) 30 1 == 1 && decide (pfGet s o 8 < pa + n) && decide (pa < pfGet s o 8 + pfGet s (o + 8) 8)

/-- Read bytes by virtual address, page by page. -/
def cmdRead (m : Cmd) (n0 : Nat) : Nat → State → Nat → Nat → Res (List Byte × Bool)
  | 0, s, _, _ => .ok s ([], false)
  | fuel + 1, s, va, n =>
    if n = 0 then .ok s ([], false)
    else
      let k := pageRest va n
      match addrTrap s m.pword false va k 1 with
      | some code => .fail s code m.slot n0
      | none =>
        if isLocal va then
          let c := coreGet s m.core
          (cmdRead m n0 fuel s (va + k) (n - k)).bind fun s' r =>
            .ok s' (scrRead c (va % 2^60) k ++ r.1, scrTainted c (va % 2^60) k || r.2)
        else match resolvePiece s m.part va k false with
          | (s1, .ok pa) =>
            if windowBusy s1 pa k then .wait va false else
            let x := readPieces s1 [(pa, k)]
            (cmdRead m n0 fuel x.2.2 (va + k) (n - k)).bind fun s' r => .ok s' (x.1 ++ r.1, x.2.1 || r.2)
          | (s1, .fail code) => .fail s1 code m.slot n0
          | (_, .wait) => .wait va false

/-- Write bytes by virtual address, page by page. -/
def cmdWrite (m : Cmd) (n0 : Nat) (t race : Bool) : Nat → State → Nat → List Byte → Res Unit
  | 0, s, _, _ => .ok s ()
  | fuel + 1, s, va, bs =>
    if bs = [] then .ok s ()
    else
      let k := pageRest va bs.length
      match addrTrap s m.pword false va k 1 with
      | some code => .fail s code m.slot n0
      | none =>
        if outTrap s m.part va k t then .fail s 0x0403 m.slot n0
        else if isLocal va then
          cmdWrite m n0 t race fuel (modCore s m.core fun c => scrWrite c (va % 2^60) (bs.take k) t) (va + k) (bs.drop k)
        else match resolvePiece s m.part va k true with
          | (s1, .ok pa) => cmdWrite m n0 t race fuel (storeBytes s1 m.core m.part va pa (bs.take k) t race) (va + k) (bs.drop k)
          | (s1, .fail code) => .fail s1 code m.slot n0
          | (_, .wait) => .wait va true

def readCmd (m : Cmd) (n0 : Nat) (s : State) (va n : Nat) : Res (List Byte × Bool) := cmdRead m n0 (n / 4096 + 2) s va n
def writeCmd (m : Cmd) (n0 : Nat) (t : Bool) (s : State) (va : Nat) (bs : List Byte) : Res Unit :=
  cmdWrite m n0 t true (bs.length / 4096 + 2) s va bs

/-- A field of a descriptor read as bytes. -/
def bfield (d : List Byte) (off n : Nat) : Nat := leOf ((d.drop off).take n)
/-- The first nonzero byte among those listed. -/
def firstNonzero (d : List Byte) (offs : List Nat) : Option Nat := offs.find? fun i => d.getD i 0 ≠ 0
/-- The lowest of the offsets whose limit is broken. -/
def lowest (l : List (Option Nat)) : Option Nat :=
  l.foldl (fun a x => match a, x with
    | none, y => y
    | some i, some j => some (Nat.min i j)
    | some i, none => some i) none
def breaks (b : Bool) (off : Nat) : Option Nat := if b then some off else none

/-- A status word (11 R235). -/
def statusWord (code detail n : Nat) : Word := BitVec.ofNat 64 (code % 65536 + detail % 65536 * 65536 + Nat.min n 0xFFFFFFFF * 2^32)

/-- A command completes: its status lands and its counter falls. -/
def finishCmd (s : State) (cid : Nat) (o : AOp) (dst : Fin 32) (x : TWord) : State :=
  modCore s cid fun c => removeOp (c.setN dst.val x) o

/-- A network command that has started, or one that has performed and whose status waits for a boundary. -/
def netStarted : AKind → Bool
  | .sent _ _ _ | .posted _ _ _ _ _ | .coll _ _ _ _ => true
  | k => landWaits k

/-- The commands of a class queued behind one that has failed are discarded; those that have started go on (11 R235, R240). -/
def dropQueue (c : Core) (cl id : Nat) : Core :=
  let gone := c.ops.filter fun e => opClass e.kind == cl && decide (id < e.id) && !netStarted e.kind
  gone.foldl removeOp { c with held := c.held.filter fun e => opClass e.kind ≠ cl }

/-- A command of a class has failed: the bead traps at its next bundle, and the commands of the class queued behind it are discarded. -/
def dropBehind (c : Core) (cl id code detail : Nat) : Core := setFailure (dropQueue c cl id) code detail

/-- A command fails: its status lands, the bead traps at its next bundle, and the commands of its class behind it are discarded (11 R235, R240, 17 R341). -/
def failCmd (s : State) (cid : Nat) (o : AOp) (dst : Fin 32) (code detail n : Nat) : State :=
  modCore (finishCmd s cid o dst ⟨statusWord code detail n, o.taint⟩) cid fun c => dropBehind c (opClass o.kind) o.id code detail

/-- The status of a command lands at the next superstep release (15 R307); until then it counts against its limit; the commands queued behind one that failed are discarded. -/
def landLater (s : State) (cid : Nat) (o : AOp) (dst : Fin 32) (x : TWord) (fail : Option (Nat × Nat)) : State :=
  modCore s cid fun c0 =>
    let c := if fail.isSome then dropQueue c0 (opClass o.kind) o.id else c0
    { c with ops := c.ops.map fun e =>
    if e.id = o.id then { e with kind := .landAt dst x (opClass o.kind) fail, path := 7 } else e }

/-- The release of a boundary lands a status that waited for it. -/
def landOp (c : Core) (o : AOp) : Core :=
  match o.kind with
  | .landAt dst x cl fail =>
    let c1 := removeOp (c.setN dst.val x) o
    match fail with
    | some f => dropBehind c1 cl o.id f.1 f.2
    | none => c1
  | _ => c

/-- A command that waits for a translation asks for it and tries again later. -/
def retryCmd (s : State) (cid : Nat) (o : AOp) (va : Nat) (store : Bool) : State :=
  modCore (resolve s (partOfCore s cid) va store).1 cid fun c =>
    { c with ops := c.ops.map fun e => if e.id = o.id then { e with due := s.cycle + 1 } else e }

/-- A command begins in deterministic mode: it is due a fixed time later (15 R307, 17 R341). -/
def beginDet (s : State) (cid : Nat) (o : AOp) (n : Nat) : State :=
  modCore s cid fun c =>
    { c with ops := c.ops.map fun e => if e.id = o.id then { e with acks := 1, due := s.cycle + 2400 + 8 * n } else e }

/-! ## The copy engine -/

/-- The lowest offending byte of a copy descriptor: 0 COPY, 1 COPYP, 2 FILL (11 R232). -/
def copyBad (opc : Nat) (d : List Byte) : Option Nat :=
  let f := bfield d
  lowest [
    breaks (opc == 2 && f 0 8 ≠ 0) 0,
    breaks (opc == 1 && (!isLocal (f 8 8) || f 8 8 % 64 ≠ 0)) 8,
    breaks (if opc = 1 then f 16 4 ≠ 0 else f 16 4 = 0 ∨ 2^24 < f 16 4) 16,
    breaks (f 20 4 = 0 ∨ (if opc = 1 then 4096 else 65536) < f 20 4) 20,
    breaks (opc ≠ 0 && f 24 4 ≠ 0) 24,
    breaks (opc == 1 && f 28 4 ≠ 0) 28,
    breaks (opc ≠ 2 && f 32 8 ≠ 0) 32,
    firstNonzero d ((List.range 24).map (· + 40))]

/-- One more stride. -/
def rowAddr (base stride r : Nat) : Nat := (((base : Int) + r * sextNat stride 32) % (2^64 : Nat)).toNat

/-- COPY and FILL (11 R233): rows of chunks that end at 64-byte boundaries of the destination, ascending; a chunk is read before it is written. -/
def copyRows (m : Cmd) (d : List Byte) (fill t : Bool) : Nat → State → Nat → Nat → Nat → Res Nat
  | 0, s, _, _, n => .ok s n
  | fuel + 1, s, r, i, n =>
    if bfield d 20 4 ≤ r then .ok s n
    else
      let rb := bfield d 16 4
      let dst := (rowAddr (bfield d 8 8) (bfield d 28 4) r + i) % 2^64
      let k := Nat.min (rb - i) (64 - dst % 64)
      let src : Res (List Byte × Bool) :=
        if fill then .ok s ((List.range k).map (fun j => BitVec.ofNat 8 (bfield d (32 + (dst + j) % 8) 1)), false)
        else readCmd m n s ((rowAddr (bfield d 0 8) (bfield d 24 4) r + i) % 2^64) k
      src.bind fun s1 x =>
        (writeCmd m n (x.2 || t) s1 dst x.1).bind fun s2 _ =>
          if i + k = rb then copyRows m d fill t fuel s2 (r + 1) 0 (n + k) else copyRows m d fill t fuel s2 r (i + k) (n + k)

/-- Destination chunks of COPY and FILL. -/
def copyChunks (d : List Byte) : Nat :=
  (List.range (bfield d 20 4)).foldl (fun a r =>
    let t := rowAddr (bfield d 8 8) (bfield d 28 4) r
    a + ((t + bfield d 16 4 - 1) / 64 - t / 64 + 1)) 0

/-! ## Format windows (08 R155, R163 to R166; 11 R234) -/

/-- Element bits of a window's format. -/
def fmtBits (fmt : Nat) : Nat :=
  match fmt with
  | 0 | 3 => 4
  | 4 | 5 => 6
  | 2 | 8 | 9 => 16
  | _ => 8

/-- The value of an element code. -/
def elemVal (fmt code : Nat) : FVal :=
  match fmt with
  | 0 => .fin false (Ex.ofInt (sextNat code 4))
  | 1 => .fin false (Ex.ofInt (sextNat code 8))
  | 2 => .fin false (Ex.ofInt (sextNat code 16))
  | 3 => ofNarrow .e2m1 code
  | 4 => ofNarrow .e2m3 code
  | 5 => ofNarrow .e3m2 code
  | 6 => ofNarrow .e4m3 code
  | 7 => ofNarrow .e5m2 code
  | 8 => unpack fmtB16 code
  | _ => unpack fmtF16 code

/-- Exact width and unit exponent of a format that has one (08 R165). -/
def exactUnit (fmt : Nat) : Option (Nat × Int) :=
  match fmt with
  | 0 => some (4, 0)
  | 1 => some (8, 0)
  | 2 => some (16, 0)
  | 3 => some (5, -1)
  | 4 => some (7, -3)
  | 5 => some (10, -4)
  | _ => none

/-- The code of element i of packed bytes (08 R155). -/
def elemCode (fmt : Nat) (d : List Byte) (i : Nat) : Nat := leOf ((d.drop (i * fmtBits fmt / 8)).take 3) / 2^(i * fmtBits fmt % 8) % 2^(fmtBits fmt)

/-- A window's registers. -/
structure Win where
  base : Nat
  size : Nat
  fmt : Nat
  blk : Nat
  w : Nat
  mode : Nat
  row : Nat
  scale : Nat
  band : Nat
  busy : Bool
deriving DecidableEq, Repr

def winOf (s : State) (i : Nat) : Win :=
  let o := fmwOff (i / 64) (i / 16 % 4) (i % 16)
  let c := pfGet s (o + 16) 8
  ⟨pfGet s o 8, pfGet s (o + 8) 8, bitsAt c 0 4, 8 * 2^bitsAt c 4 3, bitsAt c 8 4 + 1, bitsAt c 14 2, bitsAt c 16 4,
   pfGet s (o + 24) 8, pfGet s (o + 32) 8, bitsAt c 30 1 = 1⟩

/-- A block scale byte and a band scale as exact pairs (08 R159, R160). -/
def blockScale (b : Nat) : Int × Int := if b / 32 = 0 then ((b % 32 : Nat), -7) else ((32 + b % 32 : Nat), (b / 32 : Nat) - 8)
def bandScale (b : Nat) : Option (Int × Int) :=
  match unpack fmtB16 b with
  | .fin neg x =>
    if x.n = 0 then some (0, 0)
    else some ((if neg then -1 else 1) * (128 + bitsAt b 0 7 : Nat), (bitsAt b 7 8 : Nat) - 134)
  | _ => none

/-- The aligned form of a block of values (08 R164), without scales: mantissas and exponent. -/
def alignBlock (fmt w : Nat) (xs : List FVal) : Option (List Int × Int) :=
  if xs.any (fun x => x.isNan || x.isInf) then none
  else match (match exactUnit fmt with
      | some u => if u.1 ≤ w then some u.2 else none
      | none => none) with
    | some eu => some (xs.map fun x => rneInt' (x.ex.mul (Ex.dyad 1 (-eu))), eu)
    | none =>
      let mx := xs.foldl (fun (a : Ex) x => if a.lt x.ex.abs then x.ex.abs else a) ⟨0, 1⟩
      if mx.n = 0 then some (xs.map fun _ => 0, 0)
      else
        let eu := floorLog2 mx.n.natAbs mx.d - w + 2
        let lim : Int := 2^(w - 1) - 1
        some (xs.map fun x => max (-lim) (min (rneInt' (x.ex.mul (Ex.dyad 1 (-eu)))) lim), eu)
where
  rneInt' (x : Ex) : Int := (roundInt 0 x).1

/-- The bytes that a tile takes in the scratchpad. -/
def planeTileBytes (w blk : Nat) : Nat := (32 * w + 1024 / blk + 63) / 64 * 64

/-- The bytes of a tile from its mantissas and block scales (11 R234). -/
def tileOf (w blk : Nat) (mant : List Int) (scales : List (Int × Int)) : List Byte :=
  let planes := (List.range w).flatMap fun j => (List.range 32).map fun b =>
    BitVec.ofNat 8 (packFrom 1 (fun i => wrapInt w (mant.getD (8 * b + i) 0) / 2^(w - 1 - j) % 2) 8)
  let sc := scales.flatMap fun e => leBytes (wrapInt 16 e.1 + 65536 * wrapInt 16 e.2) 4
  let body := planes ++ sc
  body ++ List.replicate (planeTileBytes w blk - body.length) 0

/-- A tile of 256 elements of a window from element e on, with the taint of what it is read from; none when a block is undecodable. The bytes are read decoded as they stand,
update-only lines merging first (14 R295). Its elements lie in one band of 64 rows. -/
def decodeTile (s : State) (x : Win) (e : Nat) : Option (List Byte) × Bool × State :=
  let nb := 32 * fmtBits x.fmt
  let raw := readPieces s [(x.base + e / 256 * nb, nb)]
  let sc := if x.mode = 0 then ([], false, raw.2.2) else readPieces raw.2.2 [(x.scale + e / x.blk, 256 / x.blk)]
  let bd := if x.mode = 2 then readPieces sc.2.2 [(x.band + 2 * (e / 2^(x.row + 5) / 64), 2)] else ([], false, sc.2.2)
  let blocks := (List.range (256 / x.blk)).map fun b =>
    let vals := (List.range x.blk).map fun i => elemVal x.fmt (elemCode x.fmt raw.1 (b * x.blk + i))
    let sb := if x.mode = 0 then (1, 0) else blockScale (sc.1.getD b 0).toNat
    let sB := if x.mode = 2 then bandScale (leOf bd.1) else some (1, 0)
    match alignBlock x.fmt x.w vals, sB with
    | some a, some q => some (a.1, (sb.1 * q.1, a.2 + sb.2 + q.2))
    | _, _ => none
  let t := raw.2.1 || sc.2.1 || bd.2.1
  if blocks.any Option.isNone then (none, t, bd.2.2)
  else
    let bl := blocks.filterMap id
    (some (tileOf x.w x.blk (bl.flatMap (·.1)) (bl.map (·.2))), t, bd.2.2)

/-- The window, physical address and element that a virtual address names; the code of a failure. A range whose window is discarding its blocks is waited for (08 R162). -/
def windowElem (m : Cmd) (s : State) (va : Nat) : Res (Nat × Nat) :=
  if isLocal va ∨ 1 < ownerOf va then .fail s 0x0206 m.slot 0
  else match resolve s m.part va false with
    | (s1, .fail code) => .fail s1 code m.slot 0
    | (_, .wait) => .wait va false
    | (s1, .ok pa) =>
      if windowBusy s1 pa 1 || mergeHeld s1 pa 1 then .wait va false else
      match windowAt s1 pa with
      | none => .fail s1 0x0206 m.slot 0
      | some i =>
        let x := winOf s1 i
        if (pa - x.base) * 8 % fmtBits x.fmt = 0 then .ok s1 (i, (pa - x.base) * 8 / fmtBits x.fmt) else .fail s1 0x0206 m.slot 0

/-- A tile of a window, or its scales, lies on a line whose merge waits (04 R69). -/
def tileHeld (s : State) (x : Win) (e : Nat) : Bool :=
  s.xl.l2change ≠ [] && (mergeHeld s (x.base + e / 256 * (32 * fmtBits x.fmt)) (32 * fmtBits x.fmt) || (x.mode ≠ 0 && mergeHeld s (x.scale + e / x.blk) (256 / x.blk)) ||
    (x.mode == 2 && mergeHeld s (x.band + 2 * (e / 2^(x.row + 5) / 64)) 2))

/-- Check that every tile's bytes translate to their place in the window (11 R234). -/
def tilesMapped (m : Cmd) (i e0 src nb : Nat) : Nat → State → Nat → Res Unit
  | 0, s, _ => .ok s ()
  | k + 1, s, t =>
    (windowElem m s ((src + t * nb) % 2^64)).bind fun s1 x =>
      (windowElem m s1 ((src + t * nb + nb - 1 - (nb - 1) % (nb / 32)) % 2^64)).bind fun s2 y =>
        if tileHeld s2 (winOf s2 i) (e0 + 256 * t) then .wait ((src + t * nb) % 2^64) false
        else if x.1 = i ∧ x.2 = e0 + 256 * t ∧ y.1 = i then tilesMapped m i e0 src nb k s2 (t + 1) else .fail s2 0x0206 m.slot 0

/-- Write the tiles in order; an undecodable block stops before its tile. -/
def copyTiles (m : Cmd) (x : Win) (e0 dst : Nat) (t0 : Bool) : Nat → State → Nat → Nat → Res Nat
  | 0, s, _, n => .ok s n
  | k + 1, s, t, n =>
    match decodeTile s x (e0 + 256 * t) with
    | (none, _, s1) => .fail s1 0x0206 m.slot n
    | (some bs, tt, s1) =>
      (writeCmd m n (t0 || tt) s1 (dst + t * bs.length) bs).bind
        fun s2 _ => copyTiles m x e0 dst t0 k s2 (t + 1) (n + bs.length)

/-- COPYP (11 R234). -/
def copyPlanes (m : Cmd) (d : List Byte) (t : Bool) (s : State) : Res Nat :=
  let src := bfield d 0 8
  let n := bfield d 20 4
  (windowElem m s src).bind fun s1 e =>
    let x := winOf s1 e.1
    let nb := 32 * fmtBits x.fmt
    if e.2 % 256 ≠ 0 ∨ x.size < (e.2 / 256 + n) * nb then .fail s1 0x0206 m.slot 0
    else (tilesMapped m e.1 e.2 src nb n s1 0).bind fun s2 _ => copyTiles m x e.2 (bfield d 8 8) t n s2 0 0

/-- The destination chunks of a copy command (15 R307): those of COPYP are the 64-byte chunks of its tiles, none where its source names no window. -/
def destChunks (m : Cmd) (opc : Nat) (d : List Byte) (s : State) : Res Nat :=
  if opc = 1 then
    match windowElem m s (bfield d 0 8) with
    | .ok s1 e => .ok s1 (bfield d 20 4 * (planeTileBytes (winOf s1 e.1).w (winOf s1 e.1).blk / 64))
    | .fail s1 _ _ _ => .ok s1 0
    | .wait a st => .wait a st
  else .ok s (copyChunks d)

/-- A copy command names a host or peer address (15 R307): its descriptor's, its destination's or its source's. -/
def copyFar (opc va : Nat) (d : List Byte) : Bool :=
  let far (a : Nat) : Bool := ownerOf a == 4 || ownerOf a == 8
  far va || far (bfield d 8 8) || (opc ≠ 2 && far (bfield d 0 8))

/-- A copy command's status waits for the next superstep release in deterministic mode: it names a host or peer address, or an earlier copy command's status waits, for statuses land in
issue order (11 R235, 15 R307). -/
def copyLate (s : State) (cid : Nat) (o : AOp) (det : Bool) (va : Nat) (d : List Byte) : Bool :=
  det && (match o.kind with
    | .copy opc _ _ => copyFar opc va d
    | _ => false) || (coreGet s cid).ops.any fun e => landWaits e.kind && opClass e.kind == 1 && decide (e.id < o.id)

/-- A copy command fails, now or, where its status waits, at the next superstep release. -/
def copyFails (s : State) (cid : Nat) (o : AOp) (dst : Fin 32) (late : Bool) (code detail n : Nat) : State :=
  if late then landLater s cid o dst ⟨statusWord code detail n, o.taint⟩ (some (code, detail)) else failCmd s cid o dst code detail n

/-- COPY_COMMAND_COMPLETE (11 R235): the descriptor is read, the command performs, and its status lands; with a host or peer address in deterministic mode
the status lands at the next superstep release (15 R307). -/
def execCopyCommandComplete (s : State) : Out :=
  .next (onOp s fun cid o =>
    match o.kind with
    | .copy opc dst va =>
      let m := cmdOf s cid o
      let det := (taskOfCore s cid).det
      match readCmd m 0 s va 64 with
      | .wait a st => retryCmd s cid o a st
      | .fail s1 code detail _ => copyFails s1 cid o dst (copyLate s1 cid o det va []) code detail 0
      | .ok s1 d =>
        let far : Bool := det && copyFar opc va d.1
        let late : Bool := copyLate s1 cid o det va d.1
        let t := o.taint || d.2
        match copyBad opc d.1 with
        | some off => copyFails s1 cid o dst late 0x0107 off 0
        | none =>
          if det ∧ !far ∧ o.acks = 0 then
            match destChunks m opc d.1 s1 with
            | .ok s2 n => beginDet s2 cid o n
            | .fail s2 _ _ _ => beginDet s2 cid o 0
            | .wait a st => retryCmd s cid o a st
          else
            let fuel := copyChunks d.1 + bfield d.1 20 4 + 1
            match (if opc = 1 then copyPlanes m d.1 t s1 else copyRows m d.1 (opc == 2) t fuel s1 0 0 0) with
            | .wait a st => retryCmd s cid o a st
            | .fail s2 code detail n => copyFails s2 cid o dst late code detail n
            | .ok s2 n =>
              if late then landLater s2 cid o dst ⟨statusWord 0 0 n, t⟩ none
              else finishCmd s2 cid o dst ⟨statusWord 0 0 n, t⟩
    | _ => s)

/-! ## Streams (11 R227, R228, R230) -/

/-- The lowest offending byte of a stream descriptor. -/
def streamBad (d : List Byte) : Option Nat :=
  let f := bfield d
  lowest [breaks (f 0 8 % 64 ≠ 0) 0, breaks (f 8 8 % 64 ≠ 0) 8, breaks (bitsAt (f 16 1) 1 3 ≠ 0) 16,
    firstNonzero d ((List.range 7).map (· + 17)),
    breaks (f 24 4 = 0) 24, breaks (f 28 4 = 0) 28, breaks (f 32 4 = 0) 32, breaks (f 36 4 = 0) 36,
    firstNonzero d ((List.range 8).map (· + 56))]

/-- STREAM_DESCRIPTOR_ARRIVE: the binding takes its descriptor, once the elements written before it are stored. -/
def execStreamDescriptorArrive (s : State) : Out :=
  .next (match s.ev with
    | .stream cid z =>
      let c := coreGet s cid.val
      match c.ops.find? fun o => match o.kind with
          | .bind z' _ _ => z' == z
          | _ => false with
      | none => s
      | some o =>
        let old := c.outq.any (fun e => e.z == z.val) || c.inflight.any fun l => match l.kind with
          | .out z' _ _ _ _ => z' == z
          | _ => false
        match o.kind with
        | .bind _ va _ =>
          if old || !mayPerform s cid.val o then s
          else
            let r := opRead s cid.val o.pages va 64 true
            let d := leBytes r.1 64
            let t := taskOfCore s cid.val
            modCore r.2.2 cid.val fun c =>
              let st := streamOf c z.val
              let region := bfield d 16 1 / 16
              removeOp (setStream c z.val { st with
                desc := some (BitVec.ofNat 512 r.1), region := region,
                slack := slackOf t region - st.waited, waited := 0,
                code := (match streamBad d with
                  | some off => 0x100 + off
                  | none => 0) }) o
        | _ => s
    | _ => s)

/-- The virtual address of element n of a bound stream. -/
def streamVa (c : Core) (st : Stream) (n : Nat) : Nat := (st.desc.map fun d => elemVa d c.ordinal n).getD 0

/-- An input stream wants its next element: bound, well formed, room in the buffer for what is there and asked for, elements left, and no fence in force for new accesses. -/
def wantsElement (c : Core) (z : Nat) : Bool :=
  let st := streamOf c z
  match st.desc with
  | some d => st.bound && st.code == 0 && !st.isOut && decide (st.fetched + st.reqs.length - st.position < 8) &&
      decide (st.fetched + st.reqs.length < walkLen d) && !fenceHolds c 3 (4 * c.bundleNo + 3)
  | none => false

/-- An earlier access of path GA to bytes that an element touches has not performed (14 R285): a written element, an element asked for, a descriptor's read, or a COPYP, whose tiles
may lie anywhere in the scratchpad and their source anywhere in memory. -/
def elemBehind (c : Core) (write : Bool) (va id : Nat) : Bool :=
  (outLive c).any (fun e => decide (e.id < id) && spansMeet [(e.va, 512)] [(va, 512)]) ||
    (write && c.streams.any fun e => e.2.reqs.zipIdx.any fun r => decide (r.1.2 < id) && spansMeet [(streamVa c e.2 (e.2.fetched + r.2), 512)] [(va, 512)]) ||
    c.ops.any fun o => o.path == 3 && decide (o.id < id) &&
      ((isCopy o.kind && (write || isLocal va)) || (write && spansMeet (opSpans o.kind) [(va, 512)]))

/-- The oldest element asked for is due, and nothing holds it. -/
def elementDue (s : State) (c : Core) (z : Nat) : Bool :=
  let st := streamOf c z
  match st.reqs with
  | [] => false
  | (due, id) :: _ => decide (due ≤ s.cycle) && !elemBehind c false (streamVa c st st.fetched) id

/-- The fences that hold nothing more go. -/
def clearFences (c : Core) : Core := { c with fences := c.fences.filter fun f => pathBusy c f.first f.bound }

/-- What a stream cannot read is met by the access that would take it. -/
def stopStream (s : State) (cid z code : Nat) : State :=
  modCore s cid fun c => clearFences (setStream c z { streamOf c z with code := code, reqs := [] })

/-- The elements that are due enter the buffer in walk order. -/
def arriveElements (cid z : Nat) : Nat → State → State
  | 0, s => s
  | n + 1, s =>
    let c := coreGet s cid
    let st := streamOf c z
    if !elementDue s c z then s
    else
      let va := streamVa c st st.fetched
      let m : Cmd := ⟨cid, partOfCore s cid, 0, (taskOfCore s cid).pword⟩
      let r := (List.range 16).foldl (fun (a : Res (List (List Byte × Bool))) i => a.bind fun s l =>
        (readCmd m 0 s (va + 32 * i) 32).bind fun s x => .ok s (l ++ [x])) (.ok s [])
      match r with
      | .wait a b => (resolve s m.part a b).1
      | .fail s1 code _ _ => stopStream s1 cid z code
      | .ok s1 l =>
        let e : TVec := ⟨BitVec.ofNat 4096 (leOf (l.flatMap (·.1))), ofBits fun i => (l.getD (i / 8) ([], false)).2⟩
        arriveElements cid z n (modCore s1 cid fun c =>
          let st := streamOf c z
          clearFences (setStream c z { st with buf := st.buf ++ [e], fetched := st.fetched + 1, reqs := st.reqs.drop 1 }))

/-- The next element is asked for: translated, it is due as any access of path GA (15 R306); what cannot be translated stops the stream behind the elements asked for. -/
def askElement (s : State) (cid z : Nat) : State :=
  let c := coreGet s cid
  let st := streamOf c z
  if !wantsElement c z then s
  else
    let va := streamVa c st (st.fetched + st.reqs.length)
    let t := taskOfCore s cid
    let stop (s : State) (code : Nat) : State := modCore s cid fun c => setStream c z { streamOf c z with code := code }
    match addrTrap s t.pword t.det va 512 64 with
    | some code => stop s code
    | none =>
      match (if isLocal va then (s, Xr.ok va, []) else resolveRange s (partOfCore s cid) false 2 va 512) with
      | (s1, .wait, _) => s1
      | (s1, .fail code, _) => stop s1 code
      | (s1, .ok _, _) =>
        let d := opDue s1 t.det 3 (.load 0 va 8 false false false)
        modCore d.2 cid fun c => setStream c z { streamOf c z with reqs := (streamOf c z).reqs ++ [(d.1, 4 * c.bundleNo + 3)] }

/-- STREAM_ELEMENT_ARRIVE: what is due of an input stream enters its buffer, and the next element of the walk is asked for. -/
def execStreamElementArrive (s : State) : Out :=
  .next (match s.ev with
    | .stream cid z => askElement (arriveElements cid.val z.val 8 s) cid.val z.val
    | _ => s)

/-- The element of an output stream that goes to memory next: the first in program order, once it stands behind none in flight. -/
def nextOut (c : Core) (z : Nat) : Option OutElem :=
  (outLive c).foldl (fun a e => if e.z ≠ z then a else match a with
    | none => some e
    | some x => if e.id < x.id then some e else a) none

/-- STREAM_ELEMENT_STORE: the oldest element written to an output stream is translated, and when it is due goes to memory, its other lanes zero. -/
def execStreamElementStore (s : State) : Out :=
  .next (match s.ev with
    | .stream cid z =>
      let c := coreGet s cid.val
      match nextOut c z.val with
      | none => s
      | some e =>
        let det := (taskOfCore s cid.val).det
        let m : Cmd := ⟨cid.val, partOfCore s cid.val, e.slot, (taskOfCore s cid.val).pword⟩
        let drop (c : Core) : Core :=
          let st := streamOf c z.val
          clearFences (setStream { c with outq := c.outq.filter (· ≠ e) } z.val (if st.desc.isSome then { st with stored := st.stored + 1 } else st))
        let stop (s : State) (code : Nat) : State := modCore s cid.val fun c => setFailure (drop c) code e.slot
        if fenceHolds c 3 e.id || elemBehind c true e.va e.id then s
        else if e.due = 0 then
          match addrTrap s m.pword det e.va 512 64 with
          | some code => stop s code
          | none =>
            match (if isLocal e.va then (s, Xr.ok e.va, []) else resolveRange s m.part true 2 e.va 512) with
            | (s1, .wait, _) => s1
            | (s1, .fail code, _) => stop s1 code
            | (s1, .ok _, _) =>
              let d := opDue s1 det 3 (.load 0 e.va 8 false false false)
              modCore d.2 cid.val fun c => { c with outq := c.outq.map fun x => if x = e then { x with due := d.1 } else x }
        else if s.cycle < e.due then s
        else if outTrap s m.part e.va 512 (e.x.t ≠ 0) then stop s 0x0403
        else
          let bytes := leBytes e.x.v.toNat 512
          let r := (List.range 16).foldl (fun (a : Res Unit) i => a.bind fun s _ =>
            writeCmd m 0 (bitsAt e.x.t.toNat (8 * i) 8 ≠ 0) s (e.va + 32 * i) ((bytes.drop (32 * i)).take 32)) (.ok s ())
          match r with
          | .wait a b => (resolve s m.part a b).1
          | .fail s1 code _ _ => stop s1 code
          | .ok s1 _ => modCore s1 cid.val drop
    | _ => s)

end Sys2Proof.Machine
end

