-- ==== Sys2Proof/Machine/Real.lean ====
section
/-! DEFINITION. The special functions correctly rounded (09 R196 to R200): exact algebra where the value is algebraic, else balls of increasing precision until both ends round alike (log 12). -/

namespace Sys2Proof.Machine

open Sys2Proof

/-! ## Balls: every value within e of m, both in units of 2^-s -/

structure Ball where
  m : Int
  e : Nat
deriving DecidableEq, Repr

def Ball.add (x y : Ball) : Ball := ⟨x.m + y.m, x.e + y.e⟩
def Ball.neg (x : Ball) : Ball := ⟨-x.m, x.e⟩
def Ball.sub (x y : Ball) : Ball := x.add y.neg
def Ball.mul (s : Nat) (x y : Ball) : Ball :=
  ⟨x.m * y.m / (2^s : Nat), (x.m.natAbs * y.e + y.m.natAbs * x.e + x.e * y.e) / 2^s + 2⟩
/-- Divide by a positive number. -/
def Ball.divN (x : Ball) (n : Nat) : Ball := ⟨x.m / n, x.e / n + 2⟩
/-- Divide by a ball that lies above zero. -/
def Ball.div (s : Nat) (x y : Ball) : Ball :=
  let q := x.m * (2^s : Nat) / y.m
  ⟨q, (x.e * 2^s + q.natAbs * y.e + y.m.natAbs) / (y.m.natAbs - y.e) + 2⟩
def Ball.ofEx (s : Nat) (x : Ex) : Ball := ⟨x.n * (2^s : Nat) / x.d, 1⟩
def Ball.one (s : Nat) : Ball := ⟨(2^s : Nat), 0⟩

/-- Sum of r^k/k! from the term t of index k on, n terms; the tail is below the last term. -/
def expSeries (s : Nat) (r : Ball) : Nat → Nat → Ball → Ball → Ball
  | 0, _, t, acc => ⟨acc.m, acc.e + t.m.natAbs + t.e + 1⟩
  | n + 1, k, t, acc =>
    let t' := (Ball.mul s t r).divN k
    expSeries s r n (k + 1) t' (acc.add t')

def squareN (s : Nat) : Nat → Ball → Ball
  | 0, x => x
  | n + 1, x => squareN s n (Ball.mul s x x)

/-- e^x for x of magnitude at most 2^9: the series at x/2^16, squared 16 times. -/
def expBall (s : Nat) (x : Ball) : Ball :=
  let r : Ball := ⟨x.m / 65536, x.e / 65536 + 2⟩
  squareN s 16 (expSeries s r (s / 6 + 4) 1 (Ball.one s) (Ball.one s))

/-- Sum of z^(2k+1)/(2k+1), alternating when `alt`, for |z| ≤ 1/3. -/
def oddSeries (s : Nat) (alt : Bool) (z2 : Ball) : Nat → Nat → Ball → Ball → Ball
  | 0, _, t, acc => ⟨acc.m, acc.e + t.m.natAbs + t.e + 1⟩
  | n + 1, k, t, acc =>
    let t' := Ball.mul s t z2
    let t' := if alt then t'.neg else t'
    oddSeries s alt z2 n (k + 2) t' (acc.add (t'.divN k))

def atanhEx (s : Nat) (z : Ex) : Ball :=
  let b := Ball.ofEx s z
  oddSeries s false (Ball.mul s b b) (s / 3 + 4) 3 b b
def atanInv (s : Nat) (n : Nat) : Ball :=
  let b := Ball.ofEx s ⟨1, n⟩
  oddSeries s true (Ball.mul s b b) (s / 4 + 4) 3 b b

def ln2Ball (s : Nat) : Ball := let a := atanhEx s ⟨1, 3⟩; a.add a
/-- π = 16 atan(1/5) − 4 atan(1/239). -/
def piBall (s : Nat) : Ball :=
  let a := atanInv s 5
  let b := atanInv s 239
  ⟨16 * a.m - 4 * b.m, 16 * a.e + 4 * b.e⟩

/-- ln x for x > 0: x = m 2^e with m from 2/3 to 4/3, ln m = 2 atanh((m − 1)/(m + 1)). -/
def lnBall (s : Nat) (x : Ex) : Ball :=
  let e0 := floorLog2 x.n.toNat x.d
  let m0 := x.mul (Ex.dyad 1 (-e0))
  let big : Bool := decide (4 * (m0.d : Int) < 3 * m0.n)
  let e := if big then e0 + 1 else e0
  let m := if big then m0.mul ⟨1, 2⟩ else m0
  let a := atanhEx s ⟨m.n - m.d, (m.n + m.d).toNat⟩
  let l := ln2Ball s
  (a.add a).add ⟨l.m * e, l.e * e.natAbs⟩

/-- Sum of the terms t·r²/(k(k+1)) with alternating sign. -/
def trigSeries (s : Nat) (r2 : Ball) : Nat → Nat → Ball → Ball → Ball
  | 0, _, t, acc => ⟨acc.m, acc.e + t.m.natAbs + t.e + 1⟩
  | n + 1, k, t, acc =>
    let t' := ((Ball.mul s t r2).divN (k * (k + 1))).neg
    trigSeries s r2 n (k + 2) t' (acc.add t')

/-- sin and cos of x, with exact argument reduction by a quarter turn. -/
def sincosBall (s : Nat) (x : Ex) : Ball × Ball :=
  let h := (piBall s).divN 2
  let a := Ball.ofEx s x.abs
  let k := (a.m / h.m).toNat
  let r : Ball := ⟨a.m - h.m * k, a.e + h.e * k⟩
  let r2 := Ball.mul s r r
  let sn := trigSeries s r2 (s / 4 + 8) 2 r r
  let cs := trigSeries s r2 (s / 4 + 8) 1 (Ball.one s) (Ball.one s)
  let sc := match k % 4 with
    | 0 => (sn, cs)
    | 1 => (cs, sn.neg)
    | 2 => (sn.neg, cs.neg)
    | _ => (cs.neg, sn)
  (if x.isNeg then sc.1.neg else sc.1, sc.2)

/-! ## Rounding a real that is not exactly known -/

/-- The rounding of a ball, when both its ends round alike. -/
def roundBall (f : Fmt) (p : Nat) (mode : RMode) (s : Nat) (b : Ball) : Option FRes :=
  let lo := roundTo f p mode false ⟨b.m - b.e, 2^s⟩
  let hi := roundTo f p mode false ⟨b.m + b.e, 2^s⟩
  if lo = hi ∧ 0 < (b.m - b.e) * (b.m + b.e) then some lo else none

/-- The first precision of the ladder at which the rounding is certain; past the ladder, the rounding of the centre (log 12). -/
def roundReal (f : Fmt) (p : Nat) (mode : RMode) (g : Nat → Ball) : List Nat → FRes
  | [] => ⟨f.nan, 0⟩
  | [s] => (roundBall f p mode s (g s)).getD (roundTo f p mode false ⟨(g s).m, 2^s⟩)
  | s :: r => match roundBall f p mode s (g s) with
    | some x => x
    | none => roundReal f p mode g r

/-- The precisions tried, in bits after the point. -/
def ladder (extra : Nat) : List Nat := [128 + extra, 256 + extra, 512 + extra, 1024 + extra]

/-! ## Square roots -/

/-- floor(sqrt n) by bits from 2^k down. -/
def isqrtFrom (n : Nat) : Nat → Nat → Nat
  | 0, r => if (r + 1) * (r + 1) ≤ n then r + 1 else r
  | k + 1, r => isqrtFrom n k (if (r + 2^(k + 1)) * (r + 2^(k + 1)) ≤ n then r + 2^(k + 1) else r)
def isqrt (n : Nat) : Nat := isqrtFrom n (Nat.log2 n / 2 + 1) 0

/-- A value on the grid 2^-200 if the root is on it, else the middle of the grid interval the root lies in: it rounds as the root does. -/
def sqrtEx (x : Ex) : Ex :=
  let t := isqrt (x.n.toNat * 2^400 / x.d)
  if t * t * x.d = x.n.toNat * 2^400 then ⟨t, 2^200⟩ else ⟨2 * t + 1, 2^201⟩

/-! ## The functions -/

/-- The functions of R197. -/
inductive Fn where
  | rcp | rsq | sqrt | exp2 | log2 | exp | log | sin | cos | tanh | sigm
deriving DecidableEq, Repr

/-- A value just below or above x, that rounds as any value between x and it does. -/
def nudge (x : Ex) (up : Bool) : Ex := x.mul ⟨if up then 2^70 + 1 else 2^70 - 1, 2^70⟩

/-- Keep an argument of an exponential within ±b: beyond, the result rounds as at the bound. -/
def clampEx (b : Nat) (x : Ex) : Ex :=
  if (Ex.ofInt b).lt x then Ex.ofInt b else if x.lt (Ex.ofInt (-(b : Int))) then Ex.ofInt (-(b : Int)) else x

/-- Below 2^-60 in magnitude. -/
def small (x : Ex) : Bool := decide (x.n.natAbs * 2^60 < x.d)

/-- e^x at precision s, x clamped; 1/e^|x| for negative x. -/
def expAt (s : Nat) (x : Ball) : Ball := if 0 ≤ x.m then expBall s x else Ball.div s (Ball.one s) (expBall s x.neg)

/-- Round an irrational given by its balls, or an exact value. -/
def rndIrr (f : Fmt) (p : Nat) (mode : RMode) (extra : Nat) (g : Nat → Ball) : FRes := roundReal f p mode g (ladder extra)

/-- f(x) of a finite nonzero argument that is no special input, rounded once to p fraction bits (09 R197). -/
def applyFn (fn : Fn) (f : Fmt) (p : Nat) (mode : RMode) (x : Ex) : FRes :=
  let rnd := roundTo f p mode false
  match fn with
  | .rcp => rnd ((Ex.ofInt 1).div x)
  | .rsq => rnd (sqrtEx ((Ex.ofInt 1).div x))
  | .sqrt => rnd (sqrtEx x)
  | .exp2 =>
    let y := clampEx 400 x
    if y.n % y.d = 0 then rnd (Ex.dyad 1 (y.n / y.d))
    else if small y then rnd (nudge (Ex.ofInt 1) (!y.isNeg))
    else rndIrr f p mode 450 fun s => expAt s (Ball.mul s (ln2Ball s) (Ball.ofEx s y))
  | .exp =>
    let y := clampEx 250 x
    if small y then rnd (nudge (Ex.ofInt 1) (!y.isNeg)) else rndIrr f p mode 450 fun s => expAt s (Ball.ofEx s y)
  | .log2 =>
    let e := floorLog2 x.n.toNat x.d
    if (Ex.dyad 1 e).sub x |>.isZero then rnd (Ex.ofInt e)
    else rndIrr f p mode 40 fun s => Ball.div s (lnBall s x) (ln2Ball s)
  | .log => rndIrr f p mode 40 fun s => lnBall s x
  | .sin => if small x then rnd (nudge x false) else rndIrr f p mode 320 fun s => (sincosBall s x).1
  | .cos => if small x then rnd (nudge (Ex.ofInt 1) false) else rndIrr f p mode 320 fun s => (sincosBall s x).2
  | .tanh =>
    let y := clampEx 100 x
    if small y then rnd (nudge y false)
    else rndIrr f p mode 450 fun s =>
      let e := expAt s (Ball.ofEx s (y.add y).abs)
      let t := Ball.div s (e.sub (Ball.one s)) (e.add (Ball.one s))
      if y.isNeg then t.neg else t
  | .sigm =>
    let y := clampEx 250 x
    if small y then rnd (nudge ⟨1, 2⟩ (!y.isNeg))
    else rndIrr f p mode 450 fun s =>
      let e := expAt s (Ball.ofEx s y)
      Ball.div s e (e.add (Ball.one s))

/-- The special inputs of R198 and R199: none where R197 computes. -/
def specialFn (fn : Fn) (f : Fmt) (x : FVal) : Option FRes :=
  let one := (roundTo f f.frac 0 false (Ex.ofInt 1)).bits
  let nv : FRes := ⟨f.nan, flNV⟩
  match x with
  | .nan s => some ⟨f.nan, flagIf s flNV⟩
  | .inf n =>
    some (match fn with
    | .rcp => ⟨f.zero n, 0⟩
    | .rsq => if n then nv else ⟨f.zero false, 0⟩
    | .sqrt => if n then nv else ⟨f.inf false, 0⟩
    | .exp2 | .exp => if n then ⟨f.zero false, 0⟩ else ⟨f.inf false, 0⟩
    | .log2 | .log => if n then nv else ⟨f.inf false, 0⟩
    | .sin | .cos => nv
    | .tanh => ⟨one + f.signBit n, 0⟩
    | .sigm => if n then ⟨f.zero false, 0⟩ else ⟨one, 0⟩)
  | .fin n e =>
    if e.n = 0 then
      some (match fn with
      | .rcp | .rsq => ⟨f.inf n, flDZ⟩
      | .sqrt | .sin | .tanh => ⟨f.zero n, 0⟩
      | .exp2 | .exp | .cos => ⟨one, 0⟩
      | .log2 | .log => ⟨f.inf true, flDZ⟩
      | .sigm => ⟨(roundTo f f.frac 0 false ⟨1, 2⟩).bits, 0⟩)
    else match fn with
      | .rsq | .sqrt => if n then some nv else none
      | .log2 | .log => if n then some nv else if e.n = e.d then some ⟨f.zero false, 0⟩ else none
      | _ => none

/-- One function of one element (09 R197). -/
def evalFn (fn : Fn) (f : Fmt) (p : Nat) (mode : RMode) (x : FVal) : FRes :=
  match specialFn fn f x with
  | some r => r
  | none => applyFn fn f p mode x.ex

/-- A refinement step of an estimate y of a function of x (09 R200). -/
def stepFn (rsq : Bool) (f : Fmt) (mode : RMode) (x y : FVal) (ybits : Nat) : FRes :=
  match y with
  | .inf _ => ⟨ybits, 0⟩
  | .nan s => ⟨f.nan, flagIf (s || x.isSig) flNV⟩
  | .fin ny v =>
    if v.isZero then ⟨ybits, 0⟩
    else match x with
      | .nan s => ⟨f.nan, flagIf s flNV⟩
      | .inf nx => ⟨f.inf (if rsq then nx == ny else !nx), 0⟩
      | .fin _ u =>
        if rsq then roundTo f f.frac mode (mode == 2) ((v.mul ((Ex.ofInt 3).sub ((u.mul v).mul v))).mul ⟨1, 2⟩)
        else roundTo f f.frac mode (mode == 2) (v.mul ((Ex.ofInt 2).sub (u.mul v)))

end Sys2Proof.Machine
end

