-- ==== Sys2Proof/Machine/Jet.lean ====
section
/-! DEFINITION. The series rules of jets in one lane (10 R206 to R211): each coefficient is rounded once from the exact value of its expression. -/

namespace Sys2Proof.Machine

open Sys2Proof

/-- The value of an FP32 pattern. -/
def v32 (b : Nat) : FVal := unpack fmt32 b
/-- The exact value of a finite FP32 pattern. -/
def x32 (b : Nat) : Ex := (v32 b).ex
def fin32 (b : Nat) : Bool := match v32 b with
  | .fin _ _ => true
  | _ => false
def nth (l : List Nat) (i : Nat) : Nat := l.getD i 0
def nthEx (l : List Ex) (i : Nat) : Ex := l.getD i ⟨0, 1⟩

/-- Round a jet coefficient: an exact zero is +0, and −0 in RDN (08 R149, 10 R206). -/
def rndCoef (p : Nat) (mode : RMode) (x : Ex) : FRes := roundTo fmt32 p mode (mode == 2) x

/-- Sum of the exact terms f a, …, f (a + n − 1). -/
def sumEx (f : Nat → Ex) (a : Nat) : Nat → Ex
  | 0 => ⟨0, 1⟩
  | n + 1 => (sumEx f a n).add (f (a + n))

/-! ## Products (10 R208, R209) -/

/-- The sum of products and addends when some term is infinite or a NaN: the value R150 gives it. DESIGN CHOICE (log 69): infinities of both signs among the terms raise NV also beside a quiet NaN. -/
def specialSum (ts : List FVal) : FRes :=
  let pos := ts.any fun t => t.isInf && !t.isNeg
  let neg := ts.any fun t => t.isInf && t.isNeg
  let nan := ts.any FVal.isNan
  if nan || (pos && neg) then ⟨fmt32.nan, flagIf (ts.any FVal.isSig || (pos && neg)) flNV⟩ else ⟨fmt32.inf neg, 0⟩

/-- Coefficient n of a·b, of a·b + c, or of c − a·b. -/
def jetProd (mode : RMode) (sub : Bool) (a b : List Nat) (c : Option (List Nat)) (n : Nat) : FRes :=
  if n = 0 then
    match c with
    | none => fmulR fmt32 mode (v32 (nth a 0)) (v32 (nth b 0))
    | some z => ffma fmt32 mode sub (v32 (nth a 0)) (v32 (nth b 0)) (v32 (nth z 0))
  else
    let ps := (List.range (n + 1)).map fun i =>
      let p := fprod (v32 (nth a i)) (v32 (nth b (n - i)))
      if sub then p.negate else p
    let ts := match c with
      | none => ps
      | some z => ps ++ [v32 (nth z n)]
    if ts.any fun t => t.isNan || t.isInf then specialSum ts
    else rndCoef 23 mode (ts.foldl (fun s t => s.add t.ex) ⟨0, 1⟩)

/-! ## Recurrences -/

/-- The NaN that stands for coefficient n when the recurrence does not apply (10 R209): quiet when an input coefficient of index at most n is a quiet NaN and none is signalling. -/
def jetNan (inputs : List (List Nat)) (n : Nat) : FRes :=
  let sig := inputs.any fun l => l.any fun b => (v32 b).isSig
  let quiet := inputs.any fun l => (l.take (n + 1)).any fun b => (v32 b).isNan && !(v32 b).isSig
  ⟨fmt32.nan, flagIf (!(quiet && !sig)) flNV⟩

/-- Coefficients n, n + 1, … of a recurrence from the earlier ones; after an infinite one the canonical NaN with NV. -/
def jetGo (en : List Ex → Nat → FRes) : Nat → Nat → List Ex → List FRes
  | 0, _, _ => []
  | m + 1, n, ys =>
    let r := en ys n
    if fin32 r.bits then r :: jetGo en m (n + 1) (ys ++ [x32 r.bits])
    else r :: (List.range m).map fun _ => ⟨fmt32.nan, flNV⟩

/-- A recurrence with its start y_0 and its divisor's being nonzero (10 R209). -/
def jetRec (k : Nat) (inputs : List (List Nat)) (dOk : Bool) (y0 : FRes) (en : List Ex → Nat → FRes) : List FRes :=
  if fin32 y0.bits && dOk && inputs.all fun l => l.all fin32 then y0 :: jetGo en k 1 [x32 y0.bits]
  else y0 :: (List.range k).map fun i => jetNan inputs (i + 1)

/-- y_0 of JDIV: IEEE division (08 R149, R150), but that an exactly zero quotient is +0, or −0 in RDN, also of a finite coefficient by an infinite one (10 R206, last point). -/
def fdivR (mode : RMode) (x y : FVal) : FRes :=
  match x, y with
  | .nan _, _ => ⟨fmt32.nan, sigFlag [x, y]⟩
  | _, .nan _ => ⟨fmt32.nan, sigFlag [x, y]⟩
  | .inf _, .inf _ => ⟨fmt32.nan, flNV⟩
  | .inf a, .fin b _ => ⟨fmt32.inf (a != b), 0⟩
  | .fin _ _, .inf _ => ⟨fmt32.zero (mode == 2), 0⟩
  | .fin a u, .fin b v =>
    if v.isZero then (if u.isZero then ⟨fmt32.nan, flNV⟩ else ⟨fmt32.inf (a != b), flDZ⟩)
    else if u.isZero then ⟨fmt32.zero (mode == 2), 0⟩ else roundTo fmt32 23 mode (a != b) (u.div v)

def jetDiv (mode : RMode) (k : Nat) (a b : List Nat) : List FRes :=
  let b0 := x32 (nth b 0)
  jetRec k [a, b] (!(v32 (nth b 0)).isZero) (fdivR mode (v32 (nth a 0)) (v32 (nth b 0))) fun y n =>
    rndCoef 23 mode (((x32 (nth a n)).sub (sumEx (fun i => (x32 (nth b i)).mul (nthEx y (n - i))) 1 n)).div b0)

/-- Σ_{i=1}^{n} i x_i g(n − i) / n. -/
def derivSum (x : List Nat) (n : Nat) (g : Nat → Ex) : Ex :=
  (sumEx (fun i => ((Ex.ofInt i).mul (x32 (nth x i))).mul (g (n - i))) 1 n).mul ⟨1, n⟩

/-- w_m of TANH and SIGM, exact, from the rounded y. -/
def wCoef (sigm : Bool) (y : List Ex) (m : Nat) : Ex :=
  let sq := sumEx (fun j => (nthEx y j).mul (nthEx y (m - j))) 0 (m + 1)
  let lead : Ex := if sigm then nthEx y m else if m = 0 then ⟨1, 1⟩ else ⟨0, 1⟩
  lead.sub sq

/-- A nonzero rational times ln 2, or the like: rounded at the precisions of the ladder raised by the value's size. -/
def rndScaled (p : Nat) (mode : RMode) (q : Ex) (g : Nat → Ball) : FRes :=
  roundReal fmt32 p mode g (ladder (40 + (floorLog2 q.n.natAbs q.d).natAbs))

/-- E_n of the one-sequence functions (10 R208). -/
def fnCoef (fn : Fn) (p : Nat) (mode : RMode) (x : List Nat) (y : List Ex) (n : Nat) : FRes :=
  let x0 := x32 (nth x 0)
  let rnd := rndCoef p mode
  match fn with
  | .rcp => rnd ((sumEx (fun i => (x32 (nth x i)).mul (nthEx y (n - i))) 1 n).neg.div x0)
  | .sqrt => rnd (((x32 (nth x n)).sub (sumEx (fun i => (nthEx y i).mul (nthEx y (n - i))) 1 (n - 1))).div ((Ex.ofInt 2).mul (nthEx y 0)))
  | .rsq =>
    rnd ((sumEx (fun i => (Ex.mul ⟨(i : Int) - 2 * n, 2⟩ (x32 (nth x i))).mul (nthEx y (n - i))) 1 n).div ((Ex.ofInt n).mul x0))
  | .exp => rnd (derivSum x n (nthEx y))
  | .exp2 =>
    let q := derivSum x n (nthEx y)
    if q.isZero then rnd q else rndScaled p mode q fun s => Ball.mul s (ln2Ball s) (Ball.ofEx s q)
  | .log => rnd (((x32 (nth x n)).sub ((sumEx (fun i => ((Ex.ofInt i).mul (nthEx y i)).mul (x32 (nth x (n - i)))) 1 (n - 1)).mul ⟨1, n⟩)).div x0)
  | .log2 =>
    let t := ((sumEx (fun i => ((Ex.ofInt i).mul (nthEx y i)).mul (x32 (nth x (n - i)))) 1 (n - 1)).mul ⟨1, n⟩).div x0
    let u := (x32 (nth x n)).div x0
    if u.isZero then rnd t.neg
    else rndScaled p mode u fun s => (Ball.div s (Ball.ofEx s u) (ln2Ball s)).sub (Ball.ofEx s t)
  | .tanh => rnd (derivSum x n (wCoef false y))
  | .sigm => rnd (derivSum x n (wCoef true y))
  | .sin | .cos => ⟨0, 0⟩

/-- Coefficients of sine and cosine from n on; once either is infinite, both are the NaN. -/
def trigGo (p : Nat) (mode : RMode) (x : List Nat) : Nat → Nat → List Ex → List Ex → List (FRes × FRes)
  | 0, _, _, _ => []
  | m + 1, n, ss, cs =>
    let sn := rndCoef p mode (derivSum x n (nthEx cs))
    let cn := rndCoef p mode (derivSum x n (nthEx ss)).neg
    if fin32 sn.bits && fin32 cn.bits then (sn, cn) :: trigGo p mode x m (n + 1) (ss ++ [x32 sn.bits]) (cs ++ [x32 cn.bits])
    else (sn, cn) :: (List.range m).map fun _ => (⟨fmt32.nan, flNV⟩, ⟨fmt32.nan, flNV⟩)

/-- The sine and cosine groups of a jet (10 R208, R213). -/
def jetTrig (p : Nat) (mode : RMode) (k : Nat) (x : List Nat) : List (FRes × FRes) :=
  let s0 := evalFn .sin fmt32 p mode (v32 (nth x 0))
  let c0 := evalFn .cos fmt32 p mode (v32 (nth x 0))
  if fin32 s0.bits && fin32 c0.bits && x.all fin32 then (s0, c0) :: trigGo p mode x k 1 [x32 s0.bits] [x32 c0.bits]
  else (s0, c0) :: (List.range k).map fun i => (jetNan [x] (i + 1), jetNan [x] (i + 1))

/-- A function of a jet in the special-function slot. -/
def jetFn (fn : Fn) (p : Nat) (mode : RMode) (k : Nat) (x : List Nat) : List FRes :=
  match fn with
  | .sin => (jetTrig p mode k x).map (·.1)
  | .cos => (jetTrig p mode k x).map (·.2)
  | _ =>
    let y0 := evalFn fn fmt32 p mode (v32 (nth x 0))
    let dOk := match fn with
      | .rcp | .rsq | .log | .log2 => !(v32 (nth x 0)).isZero
      | .sqrt => !(v32 y0.bits).isZero
      | _ => true
    jetRec k [x] dOk y0 (fnCoef fn p mode x)

/-! ## JPOWI -/

/-- Product of two series of integers, to order k. -/
def convInt (k : Nat) (a b : List Int) : List Int :=
  (List.range (k + 1)).map fun n => (List.range (n + 1)).foldl (fun s i => s + a.getD i 0 * b.getD (n - i) 0) 0

def powInt (k : Nat) (a : List Int) : Nat → List Int
  | 0 => (List.range (k + 1)).map fun i => if i = 0 then 1 else 0
  | n + 1 => convInt k a (powInt k a n)

/-- Numerators of 1/M(t) over M_0^(n+1): N_0 = 1, N_n = −Σ M_i N_{n−i} M_0^(i−1). -/
def recipInt (m : List Int) : Nat → List Int
  | 0 => [1]
  | n + 1 =>
    let r := recipInt m n
    r ++ [-((List.range (n + 1)).foldl (fun s j => s + m.getD (j + 1) 0 * r.getD (n - j) 0 * (m.getD 0 0)^j) 0)]

/-- Coefficient n of x(t)^p, exactly, for finite x: with x_i = m_i/2^149. -/
def powCoef (k : Nat) (x : List Nat) (p : Int) (n : Nat) : Ex :=
  let m := x.map fun b => (x32 b).n * (2^149 / (x32 b).d : Nat)
  let q := p.natAbs
  let mq := powInt k m q
  if 0 ≤ p then ⟨mq.getD n 0, 2^(149 * q)⟩
  else (Ex.ofInt ((recipInt mq k).getD n 0 * (2^(149 * q) : Nat))).div (Ex.ofInt ((mq.getD 0 1)^(n + 1)))

/-- x_0^p (10 R208, R209). -/
def powStart (mode : RMode) (k : Nat) (x : List Nat) (p : Int) : FRes :=
  let odd : Bool := p % 2 ≠ 0
  match v32 (nth x 0) with
  | .nan s => ⟨fmt32.nan, flagIf s flNV⟩
  | .inf n => if 0 < p then ⟨fmt32.inf (n && odd), 0⟩ else ⟨fmt32.zero (mode == 2), 0⟩
  | .fin n e =>
    if e.isZero then (if 0 < p then ⟨fmt32.zero (mode == 2), 0⟩ else ⟨fmt32.inf (n && odd), flDZ⟩)
    else rndCoef 23 mode (powCoef k [nth x 0] p 0)

def jetPow (mode : RMode) (k : Nat) (x : List Nat) (p : Int) : List FRes :=
  if p = 0 then (List.range (k + 1)).map fun i => ⟨if i = 0 then 0x3F800000 else 0, 0⟩
  else jetRec k [x] (decide (0 < p) || !(v32 (nth x 0)).isZero) (powStart mode k x p) fun _ n => rndCoef 23 mode (powCoef k x p n)

/-! ## Coefficientwise rows and the jet-only products (10 R207, R211) -/

/-- VABS of a jet: the lowest coefficient that is nonzero and no NaN decides the sign of all. -/
def jetAbs (x : List Nat) : List FRes :=
  match x.find? fun b => !(v32 b).isNan && !(v32 b).isZero with
  | none => x.map (fabs fmt32)
  | some a =>
    let ys := if (v32 a).isNeg then x.map (fneg fmt32) else x.map fun b => ⟨b, 0⟩
    match ys with
    | [] => []
    | y :: r => ⟨y.bits % 2^31, y.fl⟩ :: r

/-- The sort key of an FP32 pattern: −∞ < … < −0 < +0 < … < +∞ < every NaN, NaNs equal (09 R193). -/
def sortKey (b : Nat) : Nat :=
  if (v32 b).isNan then 2^32 else if bitsAt b 31 1 = 1 then 2^31 - 1 - b % 2^31 else 2^31 + b % 2^31

/-- From coefficient n on: whether jet a is chosen, and the flags of the coefficients examined. -/
def lexPick (mx : Bool) (a b : List Nat) : Nat → Nat → Bool × List Flags
  | 0, _ => (true, [])
  | m + 1, n =>
    let fl := flagIf ((v32 (nth a n)).isSig || (v32 (nth b n)).isSig) flNV
    let ka := sortKey (nth a n)
    let kb := sortKey (nth b n)
    if ka = kb then
      let r := lexPick mx a b m (n + 1)
      (r.1, fl :: r.2)
    else (if mx then decide (kb < ka) else decide (ka < kb), [fl])

/-- VMIN and VMAX of jets: the whole jet, chosen lexicographically. -/
def jetMinmax (mx : Bool) (k : Nat) (a b : List Nat) : List FRes :=
  let na := (v32 (nth a 0)).isNan
  let nb := (v32 (nth b 0)).isNan
  let fl0 := flagIf ((v32 (nth a 0)).isSig || (v32 (nth b 0)).isSig) flNV
  let out (l : List Nat) (fl : List Flags) := (List.range (k + 1)).map fun n => (⟨nth l n, fl.getD n 0⟩ : FRes)
  if na && nb then out ((List.range (k + 1)).map fun _ => fmt32.nan) [fl0]
  else if na then out b [fl0]
  else if nb then out a [fl0]
  else
    let r := lexPick mx a b (k + 1) 0
    out (if r.1 then a else b) r.2

def factorial : Nat → Nat
  | 0 => 1
  | n + 1 => (n + 1) * factorial n

/-- h^n as a value, h^0 = 1 whatever h is. -/
def hPow (h : FVal) (n : Nat) : FVal :=
  if n = 0 then .fin false ⟨1, 1⟩
  else match h with
    | .nan s => .nan s
    | .inf g => .inf (g && n % 2 == 1)
    | .fin g x => .fin (g && n % 2 == 1) ⟨x.n^n, x.d^n⟩

def jetScale (mode : RMode) (x : List Nat) (h : Nat) : List FRes := x.mapIdx fun n b => fmulR fmt32 mode (v32 b) (hPow (v32 h) n)

def jetDer (mode : RMode) (inv : Bool) (x : List Nat) : List FRes :=
  x.mapIdx fun n b => fmulR fmt32 mode (v32 b) (.fin false (if inv then ⟨1, factorial n⟩ else ⟨factorial n, 1⟩))

end Sys2Proof.Machine
end

