-- ==== Sys2Proof/Machine/Matrix.lean ====
section
/-! DEFINITION. The matrix engine (13): accumulator words (08 R167 to R170), tiles and operand latches, the K-step, microwords, and the engine's forms as they issue. -/

namespace Sys2Proof.Machine

open Sys2Proof

/-! ## Accumulator words (08 R167 to R170) -/

/-- The 48-bit signed field and the exponent of a word. -/
def accV (w : Word) : Int := sextNat w.toNat 48
def accE (w : Word) : Int := sextNat (w.toNat / 2^48) 16
def accWord (e v : Int) : Word := BitVec.ofNat 64 (wrapInt 16 e * 2^48 + wrapInt 48 v)

/-- The word's value. -/
def accEx (w : Word) : Ex := Ex.dyad (accV w) (accE w - 39)

/-- Round to nearest even to an integer. -/
def rneInt (x : Ex) : Int := (roundInt 0 x).1

/-- Right shift needed to bring v into the normal range: the least k with −2^39 ≤ v/2^k < 2^39. -/
def rightNeed (v : Int) : Nat → Nat
  | 0 => 0
  | n + 1 => if -(2^39 : Int) * 2^(9 - (n + 1)) ≤ v ∧ v < (2^39 : Int) * 2^(9 - (n + 1)) then 9 - (n + 1) else rightNeed v n

/-- NORMALISE (08 R168): the word, and whether it saturated. -/
def accNorm (w : Word) : Word × Bool :=
  let v := accV w
  let e := accE w
  if v = 0 then (w, false)
  else if v.natAbs < 2^38 then
    let j := Nat.min (38 - Nat.log2 v.natAbs) (e + 32768).toNat
    (accWord (e - j) (v * 2^j), false)
  else
    let k := rightNeed v 9
    let r := rneInt (Ex.dyad v (-(k : Int)))
    let r2 := if r = 2^39 then (2^38, k + 1) else (r, k)
    if 32767 < e + r2.2 then (accWord 32767 (if v < 0 then -(2^47 - 1) else 2^47 - 1), true)
    else (accWord (e + r2.2) r2.1, false)

/-- acc_accum (13 R266): add an exact value, and whether the word saturated. -/
def accAccum (w : Word) (x : Ex) : Word × Bool :=
  if x.n = 0 then (w, false)
  else
    let lg := floorLog2 x.n.natAbs x.d + 1
    let v := accV w
    let e := if v = 0 then max (-32768) (min lg 32767) else accE w
    if 32767 < lg then (accWord e (if x.n < 0 then -(2^47 - 1) else 2^47 - 1), true)
    else
      let r := v + rneInt (x.mul (Ex.dyad 1 (39 - e)))
      if 2^47 - 1 < r then (accWord e (2^47 - 1), true)
      else if r < -(2^47) then (accWord e (-(2^47)), true)
      else (accWord e r, false)

/-- A word as FP32 (08 R170). -/
def accToF32 (mode : RMode) (w : Word) : FRes := fconvert fmt32 mode (.fin (decide (accV w < 0)) (accEx w))

/-- An FP32 value as a word, with its flags. -/
def accOfF32 (b : Nat) : Word × Flags :=
  match unpack fmt32 b with
  | .nan _ => (0, flNV)
  | .inf n => (accWord 32767 (if n then -(2^47 - 1) else 2^47 - 1), flNV ||| flGSAT)
  | .fin _ x =>
    if x.n = 0 then (0, 0)
    else
      let e := floorLog2 x.n.natAbs x.d + 1
      (accWord e (rneInt (x.mul (Ex.dyad 1 (39 - e)))), 0)

/-- Words of accumulator storage. -/
def accWords (pw : Nat) : Nat := 16384 * accOf pw
def accGet (c : Core) (i : Nat) : Word := Tbl.get 0 c.acc i
def accSet (c : Core) (i : Nat) (w : Word) (t : Bool) : Core :=
  { c with acc := Tbl.set 0 c.acc i w, accTaint := Tbl.set false c.accTaint i t }
def accTainted (c : Core) (i : Nat) : Bool := Tbl.get false c.accTaint i

/-! ## Tiles (11 R234, 13 R263) -/

/-- The bytes of a tile of declared width w and block size blk. -/
def tileBytes (w blk : Nat) : Nat := (32 * w + 1024 / blk + 63) / 64 * 64

/-- Element k of a tile in the scratchpad: plane j holds bit w − 1 − j. -/
def tileMant (c : Core) (off w k : Nat) : Int :=
  sextNat ((List.range w).foldl (fun a j =>
    a + bitsAt (Tbl.get 0 c.scratch (off + 32 * j + k / 8) : Byte).toNat (k % 8) 1 * 2^(w - 1 - j)) 0) w

/-- The scale (σ, e) of block b of a tile. -/
def tileScale (c : Core) (off w b : Nat) : Int × Int :=
  let x := leOf (scrRead c (off + 32 * w + 4 * b) 4)
  (sextNat x 16, sextNat (x / 65536) 16)

/-- The truncated mantissa of the first P of w planes. -/
def truncMant (a : Int) (w p : Nat) : Int := a - a % (2^(w - p) : Nat)

/-- A plane of 32 zero bytes. -/
def planeZero (c : Core) (off j : Nat) : Bool := (List.range 32).all fun i => (Tbl.get 0 c.scratch (off + 32 * j + i) : Byte) = 0

/-! ## Operand latches (13 R261, R262, R276) -/

/-- The storage class of a declared width, and its columns. -/
def classOf (w : Nat) : Nat := if w ≤ 4 then 4 else if w ≤ 8 then 8 else 16
def classCols (cls : Nat) : Nat := if cls = 4 then 512 else if cls = 8 then 256 else 128
def blkSize (b : Nat) : Nat := if b = 0 then 8 else if b = 1 then 16 else 32

/-- An empty latch. -/
def OpLatch.empty : OpLatch := { cls := 16, cols := 0, w := 0, blk := 8, tile := 0, filled := false, mant := [], scale := [], taint := false }
def latchOf (c : Core) (l : Nat) : OpLatch := Tbl.get OpLatch.empty c.latches l

/-- Fill a latch from its tiles in the scratchpad. -/
def fillLatch (c : Core) (tile cols w blk : Nat) : OpLatch :=
  let t := tileBytes w blk
  { cls := classOf w, cols := cols, w := w, blk := blk, tile := tile, filled := true,
    mant := (List.range (256 * cols)).map fun i => (i, tileMant c (tile + i / 256 * t) w (i % 256)),
    scale := (List.range ((256 / blk) * cols)).map fun i => (i, tileScale c (tile + i / (256 / blk) * t) w (i % (256 / blk))),
    taint := decide (0 < cols) && scrTainted c tile (cols * t) }

/-- What an MLAT descriptor at a scratchpad offset breaks (13 R276), if anything. -/
def mlatBad (c : Core) (size off : Nat) : Option Nat :=
  let f (o n : Nat) := leOf (scrRead c (off + o) n)
  let w := f 6 1
  let blk := blkSize (f 7 1)
  if f 0 4 % 64 ≠ 0 then some 0
  else if 2 ≤ w ∧ w ≤ 16 ∧ classCols (classOf w) < f 4 2 then some 4
  else if (w < 2 ∨ 16 < w) ∧ 512 < f 4 2 then some 4
  else if w < 2 ∨ 16 < w then some 6
  else if 2 < f 7 1 then some 7
  else if size < f 0 4 + f 4 2 * tileBytes w blk ∧ f 4 2 ≠ 0 then some 8
  else ((List.range 56).find? fun i => f (8 + i) 1 ≠ 0).map (8 + ·)

/-! ## The K-step (13 R265, R270, R271) -/

/-- A K-step's control word. -/
structure KCtl where
  wa : Nat
  blka : Nat
  pair : Nat
  rows : Nat
  ncols : Nat
deriving DecidableEq, Repr

def kctlOf (c : Nat) : KCtl := ⟨bitsAt c 28 4 + 1, 8 * 2^bitsAt c 26 2, bitsAt c 25 1, bitsAt c 15 10 + 1, bitsAt c 0 10 + 1⟩

/-- Whether a K-step faults: its control word, latch classes, tile offsets or word offsets. -/
def kstepBad (c : Core) (pw offA offAcc strideA strideAcc ctl : Nat) : Bool :=
  let k := kctlOf ctl
  let l0 := latchOf c (2 * k.pair)
  let l1 := latchOf c (2 * k.pair + 1)
  let t := tileBytes k.wa k.blka
  bitsAt ctl 32 32 ≠ 0 || bitsAt ctl 10 5 ≠ 0 || bitsAt ctl 28 4 = 0 || bitsAt ctl 26 2 = 3 ||
    l0.cls ≠ l1.cls || 2 * classCols l0.cls < k.ncols ||
    (List.range k.rows).any fun m =>
      let a := (offA + m * strideA) % 2^64
      let w := (offAcc + m * strideAcc) % 2^64
      a % 64 ≠ 0 || scrBytes pw < a + t || w % 8 ≠ 0 || 8 * accWords pw < w + 8 * k.ncols

/-- V(m, n) (13 R265): the exact dot product of a tile and a latch column. -/
def kdot (c : Core) (k : KCtl) (p a : Nat) (l : OpLatch) (col : Nat) : Ex :=
  (List.range 256).foldl (fun s i =>
    let x := truncMant (tileMant c a k.wa i) k.wa p
    let y := Tbl.get 0 l.mant (256 * col + i)
    if x * y = 0 then s
    else
      let sa := tileScale c a k.wa (i / k.blka)
      let sb := Tbl.get (0, 0) l.scale (col * (256 / l.blk) + i / l.blk)
      s.add (Ex.dyad (x * y * sa.1 * sb.1) (sa.2 + sb.2))) ⟨0, 1⟩

/-- A tile sector or a latch that a K-step reads is tainted (15 R309). -/
def kstepTaint (c : Core) (offA strideA ctl : Nat) : Bool :=
  let k := kctlOf ctl
  (List.range k.rows).any (fun m => scrTainted c ((offA + m * strideA) % 2^64) (tileBytes k.wa k.blka)) ||
    (latchOf c (2 * k.pair)).taint || (decide (classCols (latchOf c (2 * k.pair)).cls < k.ncols) && (latchOf c (2 * k.pair + 1)).taint)

/-- One K-step on a core: its words, each tainted if anything the step reads is, whether one saturated, and the cycles of the array (13 R264). `t0` is the taint of its call. -/
def kstep (c : Core) (t0 : Bool) (q offA offAcc strideA strideAcc ctl : Nat) : Core × Bool × Nat :=
  let k := kctlOf ctl
  let p := Nat.min q k.wa
  let cols := classCols (latchOf c (2 * k.pair)).cls
  let t := t0 || kstepTaint c offA strideA ctl
  (List.range k.rows).foldl (fun (s : Core × Bool × Nat) m =>
    let a := (offA + m * strideA) % 2^64
    let w := (offAcc + m * strideAcc) % 2^64 / 8
    let r := (List.range k.ncols).foldl (fun (s : Core × Bool) n =>
      let l := latchOf c (if n < cols then 2 * k.pair else 2 * k.pair + 1)
      let x := accAccum (accGet s.1 (w + n)) (kdot c k p a l (n % cols))
      (accSet s.1 (w + n) x.1 (accTainted s.1 (w + n) || t), s.2 || x.2)) (s.1, s.2.1)
    (r.1, r.2, s.2.2 + Nat.max 1 (p - ((List.range p).filter fun j => planeZero c a j).length))) (c, false, 0)

/-! ## Microprograms (13 R267 to R272, R277) -/

/-- The shipped routines: words 1536 to 2047. -/
def shippedWord (i : Nat) : Word :=
  match i with
  | 1536 => 0x0414E00000000000
  | 1538 => 0x0414E00000000000
  | 1539 => 0x0C0C000000000000
  | 1540 => 0x0C9E000000000000
  | 1541 => 0x1280000000000000
  | 1543 => 0x1410000000000000
  | 1545 => 0x1810000000000000
  | _ => 0

/-- Word i of a core's microprogram store. -/
def storeWord (c : Core) (i : Nat) : Word := if i < 1536 then Tbl.get 0 c.ustore i else shippedWord i

/-- Where a routine starts and how long it is. -/
def routineAt (c : Core) (i : Nat) : Option (Nat × Nat) :=
  match i with
  | 128 => some (1536, 2)
  | 129 => some (1538, 5)
  | 130 => some (1543, 2)
  | 131 => some (1545, 2)
  | _ => if i < 128 then Tbl.find? c.ulen i else none

/-- The plane budget that a call samples (13 R263). -/
def planeBudget (s : State) : Nat :=
  let m := (curCore s).mprec.toNat
  let t := runTask s s.cur.unit
  let lv := ((curSeq s).run.map PassRun.level).getD 0
  if t.cls = 1 ∧ lv ≠ 0 then Nat.max 1 (m - partField s (curPart s) 18 1) else m

/-- Change the running call of the running core; its engine operation is next due after some cycles. -/
def modCall (s : State) (cost : Nat) (f : Call → Call) : State :=
  modCur s fun c =>
    match c.call with
    | some k => { c with call := some (f k), ops := c.ops.map fun o => if o.id = k.op then { o with due := s.cycle + cost } else o }
    | none => c

/-- The taint that the guard and control taint of a call's MCALL lend to what its words write (15 R309). -/
def callTaint (c : Core) (k : Call) : Bool := c.ops.any fun o => o.id == k.op && o.taint

def callReg (k : Call) (i : Fin 8) : Word := Tbl.get 0 k.regs i.val
def callSet (k : Call) (i : Fin 8) (x : Word) : Call := { k with regs := Tbl.set 0 k.regs i.val x, upc := k.upc + 1 }

/-- Discard the engine operations from one on, and let the bead trap at its next bundle (13 R271). -/
def engineFail (c : Core) (id detail : Nat) : Core :=
  let gone := c.ops.filter fun o => opClass o.kind == 5 && decide (id ≤ o.id)
  let c1 := gone.foldl (fun c o => c.decCtr o.ctr) c
  { c1 with ops := c1.ops.filter (fun o => !(opClass o.kind == 5 && decide (id ≤ o.id))), call := none,
            failure := c1.failure <|> some (0x0305, detail) }

/-- The running call faults at its word. -/
def callFault (s : State) : State :=
  modCur s fun c =>
    match c.call with
    | some k => engineFail { c with flg := c.flg ||| k.flags } k.op k.upc
    | none => c

def execUend (s : State) : Out := .next (modCall s 1 fun k => { k with done := true })

/-- UKSTEP (13 R265, R271). -/
def execUkstep (f : UKs) (s : State) : Out :=
  let c := curCore s
  .next (match c.call with
    | none => s
    | some k =>
      let r (i : Fin 8) : Nat := (callReg k i).toNat
      if kstepBad c (curPword s) (r f.ra) (r f.rb) (r f.rc) (r f.rd) (r f.re) then callFault s
      else
        let x := kstep c (callTaint c k) k.budget (r f.ra) (r f.rb) (r f.rc) (r f.rd) (r f.re)
        modCall (modCur s fun _ => x.1) x.2.2 fun k =>
          { k with upc := k.upc + 1, flags := k.flags ||| flagIf x.2.1 flGSAT })

def execUaddi (f : UImm) (s : State) : Out :=
  .next (modCall s 1 fun k => callSet k f.ra (callReg k f.rb + f.imm.signExtend 64))
def execUadd (f : U3) (s : State) : Out :=
  .next (modCall s 1 fun k => callSet k f.ra (callReg k f.rb + callReg k f.rc))
def execUmovi (f : UMoviF) (s : State) : Out := .next (modCall s 1 fun k => callSet k f.ra (f.imm.signExtend 64))

/-- ULOOP: the target counts from the routine's first word. -/
def execUloop (f : ULoopF) (s : State) : Out :=
  let base := match (curCore s).call with
    | some k => ((routineAt (curCore s) k.routine).map (·.1)).getD 0
    | none => 0
  .next (modCall s 1 fun k =>
    if (callReg k f.ra).toNat ≤ 1 then callSet k f.ra 0
    else { callSet k f.ra (callReg k f.ra - 1) with upc := base + f.target.val })

/-- The words that UNORM or UZERO names leave storage, are misaligned or none. -/
def spanBad (pw off n : Nat) : Bool := n = 0 || off % 8 ≠ 0 || 8 * accWords pw < off + 8 * n

/-- Change each of n words from a byte offset, ascending; the flag says whether one saturated. A word keeps its taint unless it is cleared; `t` is the taint of the call. -/
def overWords (c : Core) (t clear : Bool) (off n : Nat) (f : Word → Word × Bool) : Core × Bool :=
  (List.range n).foldl (fun (s : Core × Bool) i =>
    let j := off / 8 + i
    let r := f (accGet s.1 j)
    (accSet s.1 j r.1 ((!clear && accTainted s.1 j) || t), s.2 || r.2)) (c, false)

/-- UNORM and UZERO (13 R269, R271). -/
def runSpan (clear : Bool) (f : U2) (g : Word → Word × Bool) (s : State) : State :=
  let c := curCore s
  match c.call with
  | none => s
  | some k =>
    let off := (callReg k f.ra).toNat
    let n := (callReg k f.rb).toNat
    if spanBad (curPword s) off n then callFault s
    else
      let r := overWords c (callTaint c k) clear off n g
      modCall (modCur s fun _ => r.1) 1 fun k => { k with upc := k.upc + 1, flags := k.flags ||| flagIf r.2 flGSAT }

def execUnorm (f : U2) (s : State) : Out := .next (runSpan false f accNorm s)
def execUzero (f : U2) (s : State) : Out := .next (runSpan true f (fun _ => (0, false)) s)

/-! ## The engine's forms as they issue (13 R273 to R278) -/

def mcallTrap (f : MCallF) (s : State) : Option (Nat × Nat) :=
  if predMet (curCore s) f.p ∧ routineAt (curCore s) f.routine.val = none then some (0x0305, f.routine.val) else none

/-- MCALL samples mp0 to mp7 and the plane budget. -/
def execMcall (f : MCallF) (s : State) : Out :=
  let c := curCore s
  .next (if !predMet c f.p then s
    else match mcallTrap f s with
      | some e => trapHere s e.1 e.2
      | none => issueOp s 2 true (predTaint c f.p) (.eng (.call f.routine.val c.mp (planeBudget s))))

def mlatTrap (f : MLatF) (s : State) : Option Nat :=
  let c := curCore s
  let va := memAddr c f.base f.imm 64
  if !predMet c f.p then none
  else match addrTrap s (curPword s) (runTask s s.cur.unit).det va 64 64 with
    | some code => some code
    | none => if isLocal va then none else some 0x0203

def execMlat (f : MLatF) (s : State) : Out :=
  let c := curCore s
  .next (if !predMet c f.p then s
    else orTrap s (mlatTrap f s) (issueOp s 2 true (predTaint c f.p || baseTaint c f.base) (.eng (.mlat f.l (memAddr c f.base f.imm 64 % 2^60)))))

def execMsetp (f : MSetpF) (s : State) : Out :=
  .next (if predMet (curCore s) f.p then emit s 1 (.planes (BitVec.ofNat 5 f.planes.val)) else s)

def execMparm (f : MParmF) (s : State) : Out :=
  .next (if predMet (curCore s) f.p then emit s 1 (.param f.i (readV64 (curCore s) f.base)) else s)

/-- The byte offset of an accumulator form, and its trap (13 R278). -/
def accOff (c : Core) (base : SOp) (imm : BitVec 24) : Nat := memAddr c base imm 64
def accTrap (base : SOp) (imm : BitVec 24) (s : State) : Option Nat :=
  let off := accOff (curCore s) base imm
  if (curCore s).parked then none
  else if off % 64 ≠ 0 then some 0x0207
  else if 8 * accWords (curPword s) < off + 1024 then some 0x0203
  else none

/-- The taint that the guard, control and the base lend to the lanes of an accumulator form. -/
def accGuardTaint (c : Core) (m : Fin 8) (base : SOp) : LaneMask := laneGuardTaint c m ||| spreadTaint (baseTaint c base)

/-- Issue an accumulator form. -/
def runAcc (base : SOp) (imm : BitVec 24) (e : EngOp) (s : State) : State :=
  if (curCore s).parked then s else orTrap s (accTrap base imm s) (issueOp s 2 true false (.eng e))

def execAccz (f : MAcc) (s : State) : Out :=
  let c := curCore s
  .next (runAcc f.base f.imm (.accz (accOff c f.base f.imm) (active c f.m) (accGuardTaint c f.m f.base)) s)
def execNorm (f : MAcc) (s : State) : Out :=
  let c := curCore s
  .next (runAcc f.base f.imm (.norm (accOff c f.base f.imm) (active c f.m) (accGuardTaint c f.m f.base)) s)
def execAccrd (f : MAccR) (s : State) : Out :=
  let c := curCore s
  .next (runAcc f.base f.imm (.accrd (physW c f.reg.val) (accOff c f.base f.imm) (active c f.m) (accGuardTaint c f.m f.base) c.rnd) s)
def execAccwr (f : MAccR) (s : State) : Out :=
  let c := curCore s
  let x := readW c f.reg.val
  .next (runAcc f.base f.imm (.accwr (accOff c f.base f.imm) (active c f.m) ⟨x.v, x.t ||| accGuardTaint c f.m f.base⟩) s)

/-! ## Engine operations performing (13 R273) -/

/-- Act on the words of the lanes of an accumulator form. -/
def overLanes (c : Core) (off : Nat) (lanes t : LaneMask) (f : Nat → Word → Word × Flags) (clear : Bool) : Core :=
  (List.range 128).foldl (fun c i =>
    if bitOf lanes i then
      let j := off / 8 + i
      let r := f i (accGet c j)
      { accSet c j r.1 ((!clear && accTainted c j) || bitOf t i) with flg := c.flg ||| r.2 }
    else c) c

/-- Perform an accumulator form or a latch load on a core; a bad descriptor gives its detail. `t0` is the taint of the operation; a latch takes that of its descriptor too. -/
def performEng (c : Core) (size : Nat) (t0 : Bool) (e : EngOp) : Except Nat Core :=
  match e with
  | .call _ _ _ => .ok c
  | .mlat l off =>
    match mlatBad c size off with
    | some d => .error (0x8000 + d)
    | none =>
      let f (o n : Nat) := leOf (scrRead c (off + o) n)
      let x := fillLatch c (f 0 4) (f 4 2) (f 6 1) (blkSize (f 7 1))
      .ok { c with latches := Tbl.set OpLatch.empty c.latches l.val { x with taint := x.taint || t0 || scrTainted c off 64 } }
  | .accz off lanes t => .ok (overLanes c off lanes t (fun _ _ => (0, 0)) true)
  | .norm off lanes t => .ok (overLanes c off lanes t (fun _ w => ((accNorm w).1, flagIf (accNorm w).2 flGSAT)) false)
  | .accwr off lanes x => .ok (overLanes c off lanes x.t (fun i _ => accOfF32 (laneOf x.v i).toNat) true)
  | .accrd reg off lanes t rnd =>
    let r := (List.range 128).map fun i => accToF32 rnd.toNat (accGet c (off / 8 + i))
    let fl := (List.range 128).foldl (fun a i => if bitOf lanes i then a ||| (r.getD i ⟨0, 0⟩).fl else a) (0 : Flags)
    let v : TVec := ⟨ofLanes fun i => BitVec.ofNat 32 (r.getD i ⟨0, 0⟩).bits, (ofBits fun i => accTainted c (off / 8 + i)) ||| t⟩
    .ok { c.writeLanes reg v lanes with flg := c.flg ||| fl }

end Sys2Proof.Machine
end

