-- ==== Sys2Proof/Machine/Lanes.lean ====
section
/-! DEFINITION. How a vector slot acts on lanes, elements, clusters and jet groups, and what it delivers (09 R171 to R175, 10 R202 to R205). -/

namespace Sys2Proof.Machine

open Sys2Proof

/-! ## Lanes -/

/-- Pack 128 lane values. -/
def packLanes (l : List Nat) : VWord := BitVec.ofNat 4096 (l.foldr (fun x a => x % 2^32 + 2^32 * a) 0)

/-- The lane's value as a number. -/
def laneNat (x : TVec) (i : Nat) : Nat := (laneOf x.v i).toNat

/-- Apply a function in every lane of a mask; the flags are those of the mask's lanes. -/
def eachLane (lanes : LaneMask) (f : Nat → Nat × Flags) : VWord × Flags :=
  let r := (List.range 128).map fun i => if bitOf lanes i then f i else (0, 0)
  (packLanes (r.map (·.1)), r.foldl (fun a e => a ||| e.2) 0)

/-- Deliver a vector result and its flags (09 R174). -/
def emitVec (s : State) (lat : Nat) (dst : VOp) (x : VWord) (t : LaneMask) (lanes : LaneMask) (fl : Flags) : State :=
  let s1 := emit s lat (vecResult (curCore s) dst ⟨x, t⟩ lanes)
  if fl = 0 then s1 else emit s1 lat (.flags fl)

/-- OR of the lane taints of several operands. -/
def taintOf (srcs : List TVec) : LaneMask := srcs.foldl (fun a x => a ||| x.t) 0

/-- A lane-wise operation under a mask register. -/
def runLanes (s : State) (m : Fin 8) (dst : VOp) (lat : Nat) (srcs : List TVec) (f : List Nat → Nat × Flags) : State :=
  let c := curCore s
  if c.parked then s
  else
    let lanes := active c m
    let r := eachLane lanes fun i => f (srcs.map fun x => laneNat x i)
    emitVec s lat dst r.1 (taintOf srcs ||| laneGuardTaint c m) lanes r.2

/-- A cross-lane operation: the taint is the OR over every lane read (15 R309). -/
def runCross (s : State) (m : Fin 8) (dst : VOp) (lat : Nat) (read : Bool) (f : Nat → Nat × Flags) : State :=
  let c := curCore s
  if c.parked then s
  else
    let lanes := active c m
    let r := eachLane lanes f
    emitVec s lat dst r.1 (spreadTaint read ||| laneGuardTaint c m) lanes r.2

/-! ## Elements -/

/-- Element width and floating-point layout of a type code (05 R91). -/
def tyWidth : VTy → Nat
  | .f32 | .i32 | .u32 | .b32 => 32
  | .bf16 | .f16 | .i16 => 16
  | .i8 => 8
def tyFmt : VTy → Option Fmt
  | .f32 => some fmt32
  | .bf16 => some fmtB16
  | .f16 => some fmtF16
  | _ => none

/-- Act on each element packed in a lane (09 R172). -/
def onElems (w : Nat) (f : List Nat → Nat × Flags) (xs : List Nat) : Nat × Flags :=
  (List.range (32 / w)).foldl (fun a e =>
    let r := f (xs.map fun x => bitsAt x (w * e) w)
    (a.1 + r.1 % 2^w * 2^(w * e), a.2 ||| r.2)) (0, 0)

/-- A typed operation: a floating-point rule or an integer rule on each element. -/
def typed (ty : VTy) (ff : Fmt → List Nat → FRes) (fi : Nat → List Nat → Nat) (xs : List Nat) : Nat × Flags :=
  onElems (tyWidth ty) (fun es =>
    match tyFmt ty with
    | some f => let r := ff f es; (r.bits, r.fl)
    | none => (fi (tyWidth ty) es, 0)) xs

/-- Arguments by position. -/
def a0 (l : List Nat) : Nat := l.getD 0 0
def a1 (l : List Nat) : Nat := l.getD 1 0
def a2 (l : List Nat) : Nat := l.getD 2 0

/-- The sampled rounding mode. -/
def rndOf (c : Core) : RMode := c.rnd.toNat

/-! ## Jet groups -/

/-- The order of a slot on the bead it issues on (10 R203). -/
def ordOf (c : Core) : Nat := c.jord.toNat

/-- Every group base is aligned (10 R202). -/
def groupsOk (c : Core) (bases : List Nat) : Bool := bases.all fun b => b % jetAlign (ordOf c) == 0

/-- A jet slot: a parked bead does nothing; a misaligned group traps, and so does a product-class slot while the series unit is occupied; else it runs (10 R203, R205). -/
def jetSlot (s : State) (bases : List Nat) (prod : Bool) (run : State → State) : State :=
  let c := curCore s
  if c.parked then s
  else if !groupsOk c bases || (prod && c.series ≠ 0) then trapHere s 0x0302 s.cur.slot.val
  else
    let k := ordOf c
    run (if prod && k ≠ 0 then modCur s fun c => { c with series := (k + 1) * (k + 2) / 2 } else s)

/-- The 40 flag bits of one lane's coefficients. -/
def jetFlagBits (fl : List Flags) : BitVec 40 :=
  BitVec.ofNat 40 (packFrom 5 (fun n => (fl.getD n 0).toNat % 32) 8)

/-- The taint of what a jet slot delivers: every coefficient it read, lane by lane. -/
def jetTaint (groups : List (List TVec)) : LaneMask := groups.foldl (fun a g => a ||| taintOf g) 0

/-- Deliver the coefficients of a jet under lanes, with their flags by cluster (10 R203, R204). `f i` is lane i's coefficients. -/
def emitJet (s : State) (lat : Nat) (base n : Nat) (t : LaneMask) (lanes : LaneMask) (f : Nat → List FRes) : State :=
  let c := curCore s
  let r := (List.range 128).map fun i => if bitOf lanes i then f i else []
  let s1 := (List.range n).foldl (fun s j =>
    emit s lat (.vec (physW c (base + j)) ⟨packLanes (r.map fun l => (l.getD j ⟨0, 0⟩).bits), t⟩ lanes)) s
  let fl := (List.range 8).map fun cl => (List.range 16).foldl (fun (a : BitVec 40) l => a ||| jetFlagBits ((r.getD (16 * cl + l) []).map (·.fl))) 0
  if fl.all (· == 0) then s1 else emit s1 lat (.jflags fl)

/-- Lane i of a group. -/
def laneGroup (g : List TVec) (i : Nat) : List Nat := g.map fun x => laneNat x i

/-- A jet operation on groups under a mask register. -/
def runJet (s : State) (m : Fin 8) (dst lat : Nat) (groups : List (List TVec)) (f : List (List Nat) → List FRes) : State :=
  let c := curCore s
  emitJet s lat dst (ordOf c + 1) (jetTaint groups ||| laneGuardTaint c m) (active c m) fun i => f (groups.map fun g => laneGroup g i)

/-- Raw coefficients, with no flag. -/
def raw (l : List Nat) : List FRes := l.map fun b => ⟨b, 0⟩

end Sys2Proof.Machine
end

