-- ==== Sys2Proof/Machine/Special.lean ====
section
/-! DEFINITION. The special-function slot (09 R196 to R200, 10 R208, R213). -/

namespace Sys2Proof.Machine

open Sys2Proof

def fmtOfF : FTy → Fmt
  | .f32 => fmt32
  | .bf16 => fmtB16
  | .f16 => fmtF16

/-- Significand fraction bits kept (09 R196). -/
def levelBits (ty : FTy) (level : Fin 3) : Nat :=
  match ty with
  | .bf16 => 7
  | .f16 => 10
  | .f32 => if level = 0 then 23 else if level = 1 then 16 else 11

/-- The rounding mode of the modifier (05 R94). -/
def fmode (c : Core) : FRnd → RMode
  | .dyn => rndOf c
  | .rne => 0
  | .rtz => 1

/-- A function of every active element, or of jets when J is set; `l0` is the latency at order 0 without J. -/
def runFn (fn : Fn) (l0 : Nat) (f : FForm) (s : State) : State :=
  let c := curCore s
  let p := levelBits f.ty f.level
  let mode := fmode c f.rnd
  if f.j then
    jetSlot s [winName f.dst, winName f.src] true fun s =>
      runJet s f.m (winName f.dst) (l0 + 2 * ordOf c) [readGroup c (winName f.src)] fun g => jetFn fn p mode (ordOf c) (g.getD 0 [])
  else
    let fm := fmtOfF f.ty
    runLanes s f.m f.dst l0 [readVec c f.src] (onElems fm.width fun l =>
      let r := evalFn fn fm p mode (unpack fm (a0 l))
      (r.bits, r.fl))

def execFnop (s : State) : Out := .next s
def execRcp (f : FForm) (s : State) : Out := .next (runFn .rcp 6 f s)
def execRsq (f : FForm) (s : State) : Out := .next (runFn .rsq 6 f s)
def execSqrt (f : FForm) (s : State) : Out := .next (runFn .sqrt 6 f s)
def execExp2 (f : FForm) (s : State) : Out := .next (runFn .exp2 8 f s)
def execLog2 (f : FForm) (s : State) : Out := .next (runFn .log2 8 f s)
def execExp (f : FForm) (s : State) : Out := .next (runFn .exp 8 f s)
def execLog (f : FForm) (s : State) : Out := .next (runFn .log 8 f s)
def execSin (f : FForm) (s : State) : Out := .next (runFn .sin 10 f s)
def execCos (f : FForm) (s : State) : Out := .next (runFn .cos 10 f s)
def execTanh (f : FForm) (s : State) : Out := .next (runFn .tanh 12 f s)
def execSigm (f : FForm) (s : State) : Out := .next (runFn .sigm 12 f s)

/-- The refinement steps read and write their destination (09 R200). -/
def runStep (rsq : Bool) (f : FForm) (s : State) : State :=
  let c := curCore s
  let fm := fmtOfF f.ty
  runLanes s f.m f.dst 4 [readVec c f.src, readVec c f.dst] (onElems fm.width fun l =>
    let r := stepFn rsq fm (fmode c f.rnd) (unpack fm (a0 l)) (unpack fm (a1 l)) (flushBits fm (a1 l))
    (r.bits, r.fl))

def execRcpstep (f : FForm) (s : State) : Out := .next (runStep false f s)
def execRsqstep (f : FForm) (s : State) : Out := .next (runStep true f s)

/-- JSINCOS (10 R213): the sine group at the destination, the cosine group one alignment above it. -/
def execJsincos (f : FForm) (s : State) : Out :=
  let c := curCore s
  let k := ordOf c
  let d := winName f.dst
  let lat := 10 + 2 * k
  let g := readGroup c (winName f.src)
  .next (if !c.parked && decide (231 < d + jetAlign k + k) then trapHere s 0x0302 s.cur.slot.val
    else jetSlot s [d, winName f.src] true fun s =>
      let t := taintOf g ||| laneGuardTaint c f.m
      let lanes := active c f.m
      let r := (List.range 128).map fun i =>
        if bitOf lanes i then jetTrig (levelBits .f32 f.level) (fmode c f.rnd) k (laneGroup g i) else []
      let s1 := emitJet s lat d (k + 1) t lanes fun i => (r.getD i []).map (·.1)
      emitJet s1 lat (d + jetAlign k) (k + 1) t lanes fun i => (r.getD i []).map (·.2))

end Sys2Proof.Machine
end

