-- ==== Sys2Proof/Machine/EngineRun.lean ====
section
/-! DEFINITION. The matrix engine's queue (13 R273) and the EN commands performing: selection, draws, the KV pool, the Tithe unit (17 R341 to R356), LAUNCH and RELEASE presented to the Reckoner (02 R35). -/

namespace Sys2Proof.Machine

open Sys2Proof

/-! ## The matrix engine's queue -/

/-- A call starts, runs its next word on `issue`, or completes with its flags (13 R269, R277). -/
def stepCall (s : State) (cid : Nat) (o : AOp) (routine : Nat) (regs : Tbl Word) (budget : Nat) : State :=
  let c := coreGet s cid
  match c.call with
  | none =>
    match routineAt c routine with
    | none => modCore s cid fun c => engineFail c o.id routine
    | some r =>
      modCore s cid fun c =>
        { c with call := some ⟨o.id, routine, r.1, regs, budget, 0, false⟩,
                 ops := c.ops.map fun e => if e.id = o.id then { e with acks := 1 } else e }
  | some k =>
    if k.done then modCore s cid fun c => removeOp { c with call := none, flg := c.flg ||| k.flags } o
    else
      let w : Pending := ⟨.micro, (storeWord c k.upc).toNat,
        ⟨⟨c.unit % 48, Nat.mod_lt _ (by decide)⟩, ⟨c.bead % 8, Nat.mod_lt _ (by decide)⟩, o.slot, 0, 0, false⟩⟩
      { s with issue := s.issue ++ [w] }

/-- ENGINE_OP_COMPLETE: the operation at the head of the engine's queue performs. -/
def execEngineOpComplete (s : State) : Out :=
  .next (onOp s fun cid o =>
    match o.kind with
    | .eng (.call routine regs budget) => stepCall s cid o routine regs budget
    | .eng e =>
      modCore s cid fun c =>
        match performEng c (scrBytes (taskOfCore s cid).pword) o.taint e with
        | .ok c1 => removeOp c1 o
        | .error detail => engineFail c o.id detail
    | _ => s)

/-! ## Rules that the EN forms share (17 R341) -/

/-- The owners that an EN address may have. -/
def enOwner (va : Nat) : Bool := ownerOf va == 0 || ownerOf va == 1 || ownerOf va == 0xF

/-- What is wrong with the form's own descriptor or record address. -/
def ownBad (m : Cmd) (va : Nat) : Option (Nat × Nat) :=
  if !enOwner va then some (0x0203, m.slot) else if va % 64 ≠ 0 then some (0x0207, m.slot) else none

/-- What is wrong with an address held in a field at an offset. -/
def heldBad (m : Cmd) (off va : Nat) : Option (Nat × Nat × Nat) :=
  if !enOwner va then some (off, 0x0203, m.slot) else if va % 64 ≠ 0 then some (off, 0x0107, off) else none

/-- A broken limit at an offset. -/
def limitBad (b : Bool) (off : Nat) : Option (Nat × Nat × Nat) := if b then some (off, 0x0107, off) else none

/-- The lowest nonzero byte among those that must be zero. -/
def zeroBad (d : List Byte) (offs : List Nat) : Option (Nat × Nat × Nat) := (firstNonzero d offs).map fun o => (o, 0x0107, o)

/-- The failure at the lowest offset. -/
def firstBad (l : List (Option (Nat × Nat × Nat))) : Option (Nat × Nat) :=
  (l.foldl (fun (a : Option (Nat × Nat × Nat)) x =>
    match a, x with
    | none, y => y
    | some p, some q => if q.1 < p.1 then some q else some p
    | some p, none => some p) none).map (·.2)

/-- Bytes from a to b. -/
def span (a b : Nat) : List Nat := (List.range (b - a)).map (· + a)

/-- Read a form's 64-byte descriptor, with its taint. -/
def enDesc (m : Cmd) (s : State) (va : Nat) : Res (List Byte × Bool) :=
  match ownBad m va with
  | some e => .fail s e.1 e.2 0
  | none => readCmd m 0 s va 64

/-- What is wrong with the address of a sequence record, whose owner is `0x0` or `0x1` (17 R347). -/
def recBad (m : Cmd) (va : Nat) : Option (Nat × Nat) := if 1 < ownerOf va then some (0x0203, m.slot) else ownBad m va

/-- 64-byte units of a number of bytes, and of a range. -/
def units (n : Nat) : Nat := (n + 63) / 64
def spanUnits (a n : Nat) : Nat := if n = 0 then 0 else (a + n - 1) / 64 - a / 64 + 1

/-- The i-th 32-bit word of bytes. -/
def word32s : Nat → List Byte → List Nat
  | 0, _ => []
  | n + 1, l => leOf (l.take 4) :: word32s n (l.drop 4)
def word64s : Nat → List Byte → List Nat
  | 0, _ => []
  | n + 1, l => leOf (l.take 8) :: word64s n (l.drop 8)

/-! ## SELACC (17 R342 to R344) -/

def selBad (m : Cmd) (d : List Byte) : Option (Nat × Nat) :=
  let f := bfield d
  firstBad [
    limitBad (f 0 4 % 8 ≠ 0 || decide (8 * accWords m.pword < f 0 4 + 8 * f 4 4)) 0,
    limitBad (f 4 4 = 0 || decide (262144 < f 4 4)) 4,
    limitBad (decide (f 8 1 < 6) || decide (12 < f 8 1)) 8,
    limitBad (decide (2 ≤ f 9 1)) 9,
    limitBad (!fin32 (f 12 4)) 12,
    heldBad m 16 (f 16 8),
    zeroBad d ([10, 11] ++ span 28 64)]

/-- The selection record as it is swept. -/
structure SelRec where
  m : Nat
  z : Nat
  nan : Nat
  seen : Nat
  win : Tbl (Nat × Nat)
deriving DecidableEq, Repr

/-- FP32 in round to nearest even, without flags. -/
def sMul (a b : Nat) : Nat := (fmulR fmt32 0 (v32 a) (v32 b)).bits
def sAdd (a b : Nat) : Nat := (fsum fmt32 0 (v32 a) (v32 b)).bits
def sSub (a b : Nat) : Nat := (fsum fmt32 0 (v32 a) (v32 b).negate).bits
def sExp (a : Nat) : Nat := (evalFn .exp fmt32 (levelBits .f32 0) 0 (v32 a)).bits
def one32 : Nat := 0x3F800000
def satInc (n : Nat) : Nat := Nat.min 0xFFFFFFFF (n + 1)
def emptyWinner : Nat × Nat := (0xFF800000, 0xFFFFFFFF)

/-- One logit of the sweep. -/
def selStep (b scale : Nat) (r : SelRec) (g : Nat) (w : Word) : SelRec :=
  let x := sMul (accToF32 0 w).bits scale
  let r := { r with seen := satInc r.seen }
  if (v32 x).isNan then { r with nan := satInc r.nan }
  else if x = 0xFF800000 then r
  else
    let r1 :=
      if (v32 r.m).lt (v32 x) then { r with z := sAdd (sMul r.z (sExp (sSub r.m x))) one32, m := x }
      else if (v32 x).eq (v32 r.m) then { r with z := sAdd r.z one32 }
      else { r with z := sAdd r.z (sExp (sSub x r.m)) }
    let j := g % b
    let o := Tbl.get emptyWinner r1.win j
    if (v32 o.1).lt (v32 x) ∨ ((v32 x).eq (v32 o.1) ∧ g < o.2) then { r1 with win := Tbl.set emptyWinner r1.win j (x, g) } else r1

/-- SELACC: the record's results are ordered values and are not tainted (17 R344). -/
def selRun (m : Cmd) (s : State) (va : Nat) (t : Bool) : Res TWord :=
  (enDesc m s va).bind fun s d =>
    match selBad m d.1 with
    | some e => .fail s e.1 e.2 0
    | none =>
      let f := bfield d.1
      let b := 2^f 8 1
      let rec_ := f 16 8
      let start : Res SelRec :=
        if f 9 1 = 0 then .ok s ⟨0xFF800000, 0, 0, 0, []⟩
        else (readCmd m 0 s rec_ (64 + 8 * b)).bind fun s r =>
          if bfield r.1 16 1 ≠ f 8 1 then .fail s 0x0107 8 0
          else .ok s ⟨bfield r.1 0 4, bfield r.1 4 4, bfield r.1 8 4, bfield r.1 12 4,
            ((word64s b (r.1.drop 64)).foldl (fun (a : Tbl (Nat × Nat) × Nat) w =>
              (Tbl.set emptyWinner a.1 a.2 (w % 2^32, w / 2^32), a.2 + 1)) ([], 0)).1⟩
      start.bind fun s r0 =>
        let c := coreGet s m.core
        let r := (List.range (f 4 4)).foldl (fun r i =>
          selStep b (f 12 4) r ((f 24 4 + i) % 2^32) (accGet c (f 0 4 / 8 + i))) r0
        let bytes := leBytes r.m 4 ++ leBytes r.z 4 ++ leBytes r.nan 4 ++ leBytes r.seen 4 ++ leBytes (f 8 1) 48 ++
          (List.range b).flatMap fun j => leBytes (Tbl.get emptyWinner r.win j).1 4 ++ leBytes (Tbl.get emptyWinner r.win j).2 4
        (cmdWrite m 0 false false (bytes.length / 4096 + 2) s rec_ bytes).bind fun s _ => .ok s ⟨statusWord 0 0 (f 4 4), t || d.2⟩

/-! ## DRAW (17 R345) -/

def rotl32 (x n : Nat) : Nat := (x * 2^n + x / 2^(32 - n)) % 2^32
def xor32 (x y : Nat) : Nat := ((BitVec.ofNat 32 x) ^^^ (BitVec.ofNat 32 y)).toNat

/-- The quarter round of RFC 8439, section 2.1. -/
def quarter (a b c d : Nat) : Nat × Nat × Nat × Nat :=
  let a := (a + b) % 2^32
  let d := rotl32 (xor32 d a) 16
  let c := (c + d) % 2^32
  let b := rotl32 (xor32 b c) 12
  let a := (a + b) % 2^32
  let d := rotl32 (xor32 d a) 8
  let c := (c + d) % 2^32
  let b := rotl32 (xor32 b c) 7
  (a, b, c, d)

/-- Five rounds with the key words. -/
def drawBits (sq st w k0 k1 : Nat) : Nat :=
  let r := (List.range 5).foldl (fun (x : Nat × Nat × Nat × Nat) i =>
    let q := quarter x.1 x.2.1 x.2.2.1 x.2.2.2
    ((q.1 + k0) % 2^32, (q.2.1 + k0 / 2^32) % 2^32, (q.2.2.1 + k1) % 2^32, (q.2.2.2 + k1 / 2^32 + i) % 2^32))
    (sq % 2^32, st % 2^32, w % 2^32, 0x5A17C3E9)
  (roundTo fmt32 23 0 false (Ex.dyad (r.1 / 256 : Nat) (-24))).bits

/-! ## The KV page pool (17 R347 to R351) -/

def kvOff (p : Nat) : Nat := 0xF5000 + 32 * p
def kvBase (s : State) (p : Nat) : Nat := pfGet s (kvOff p) 8
def kvCtl (s : State) (p : Nat) : Nat := pfGet s (kvOff p + 8) 8
def kvEnabled (s : State) (p : Nat) : Bool := bitsAt (kvCtl s p) 63 1 = 1
def kvCount (s : State) (p : Nat) : Nat := bitsAt (kvCtl s p) 0 20
def kvFree (s : State) (p : Nat) : Nat := pfGet s (kvOff p + 16) 4 % 2^20
def kvMap (s : State) (p : Nat) : Nat := pfGet s (kvOff p + 24) 8
def setKvFree (s : State) (p n : Nat) : State := pfSet s (kvOff p + 16) 4 (n % 2^20)

/-- Page i is free: bit i of the bitmap, byte i / 8, bit i mod 8. -/
def kvIsFree (s : State) (p i : Nat) : Bool := bitsAt (memByte s (kvMap s p + i / 8)).toNat (i % 8) 1 = 1

/-- Mark a page free or taken in the bitmap. -/
def kvMark (s : State) (p i : Nat) (free : Bool) : State :=
  let a := kvMap s p + i / 8
  let b := memByte s a
  performBytes s a [if free then b ||| BitVec.ofNat 8 (2^(i % 8)) else b &&& ~~~(BitVec.ofNat 8 (2^(i % 8)))]

/-- The index of a page of the pool by its address. -/
def kvPage (s : State) (p va : Nat) : Option Nat :=
  let d := va - kvBase s p
  if kvBase s p ≤ va ∧ d % 65536 = 0 ∧ d / 65536 < kvCount s p then some (d / 65536) else none

/-- Free a page by its address, if it is a page of the pool. -/
def kvGive (s : State) (p va : Nat) : State :=
  match kvPage s p va with
  | some i => kvMark s p i true
  | none => s

/-- The lowest free page from i on. -/
def kvLowest (s : State) (p : Nat) : Nat → Nat → Option Nat
  | 0, _ => none
  | n + 1, i => if kvIsFree s p i then some i else kvLowest s p n (i + 1)

/-- Take the lowest free page. -/
def kvTake (s : State) (p : Nat) : Nat × State :=
  match kvLowest s p (kvCount s p) 0 with
  | some i => (kvBase s p + 65536 * i, kvMark s p i false)
  | none => (0, s)

/-- Read entries a to a + n − 1 of a page list. -/
def kvEntries (m : Cmd) (s : State) (list_ a n : Nat) : Res (List Nat) :=
  (readCmd m 0 s (list_ + 8 * a) (8 * n)).bind fun s r => .ok s (word64s n r.1)

/-- Write bytes 8 to 27 of a sequence record. -/
def kvRecord (m : Cmd) (s : State) (va : Nat) (r : List Byte) (pages base code dlen : Nat) (t : Bool) : Res Unit :=
  cmdWrite m 0 t false 2 s (va + 8)
    (leBytes pages 4 ++ leBytes base 4 ++ (r.drop 16).take 8 ++ leBytes code 2 ++ leBytes dlen 1 ++ (r.drop 27).take 1)

/-- The first failing check of a KVALLOC, in its order (17 R349). -/
def kvAllocBad (s : State) (p n : Nat) (r : List Byte) : Option Nat :=
  if !kvEnabled s p then some 0xFFFF
  else if n = 0 ∨ 64 < n then some 0xFFFE
  else if bfield r 8 4 < bfield r 12 4 then some 12
  else if bfield r 28 4 < bfield r 8 4 + n then some 28
  else none

/-- KVALLOC, the dry-pool rule among its outcomes. -/
def kvAlloc (m : Cmd) (s : State) (va n : Nat) (t0 : Bool) : Res TWord :=
  match recBad m va with
  | some e => .fail s e.1 e.2 0
  | none => (readCmd m 0 s va 64).bind fun s q =>
    let r := q.1
    let t := t0 || q.2
    let pages := bfield r 8 4
    let base := bfield r 12 4
    let list_ := bfield r 16 8
    match kvAllocBad s m.part n r with
    | some detail => .fail s 0x0107 detail 0
    | none =>
      match heldBad m 16 list_ with
      | some e => .fail s e.2.1 e.2.2 0
      | none =>
        if kvFree s m.part < n then
          (kvEntries m s list_ base (pages - base)).bind fun s l =>
            let s1 := l.foldl (fun s e => kvGive s m.part e) s
            let s2 := setKvFree s1 m.part (kvFree s m.part + (pages - base))
            (kvRecord m s2 va r base base 0x0701 0 t).bind fun s _ => .ok s ⟨0x0701, t⟩
        else
          let x := (List.range n).foldl (fun (a : List Nat × State) _ => let y := kvTake a.2 m.part; (a.1 ++ [y.1], y.2)) ([], s)
          (cmdWrite m 0 t false 3 x.2 (list_ + 8 * pages) (x.1.flatMap fun e => leBytes e 8)).bind fun s1 _ =>
            (kvRecord m (setKvFree s1 m.part (kvFree s m.part - n)) va r (pages + n) base (bfield r 24 2) (bfield r 26 1) t).bind fun s2 _ =>
              .ok s2 ⟨statusWord 0 0 n, t⟩

/-- KVFREE. -/
def kvFreeRun (m : Cmd) (s : State) (va n : Nat) (t0 : Bool) : Res TWord :=
  match recBad m va with
  | some e => .fail s e.1 e.2 0
  | none => (readCmd m 0 s va 64).bind fun s q =>
    let r := q.1
    let t := t0 || q.2
    let pages := bfield r 8 4
    let list_ := bfield r 16 8
    if !kvEnabled s m.part then .fail s 0x0107 0xFFFF 0
    else if n = 0 ∨ pages < n then .fail s 0x0107 8 0
    else
      match heldBad m 16 list_ with
      | some e => .fail s e.2.1 e.2.2 0
      | none =>
        (kvEntries m s list_ (pages - n) n).bind fun s l =>
          if l.any fun e => (kvPage s m.part e).isNone then .fail s 0x0107 16 0
          else
            let s1 := l.foldl (fun s e => kvGive s m.part e) s
            let s2 := setKvFree s1 m.part (kvFree s m.part + n)
            (kvRecord m s2 va r (pages - n) (Nat.min (bfield r 12 4) (pages - n)) (bfield r 24 2) (bfield r 26 1) t).bind fun s _ =>
              .ok s ⟨statusWord 0 0 n, t⟩

/-- KVCOUNT: free and reserve; a disabled pool reads 0. -/
def kvCountRun (s : State) (p : Nat) : Word :=
  if kvEnabled s p then BitVec.ofNat 64 (kvFree s p + bitsAt (kvCtl s p) 32 20 * 2^32) else 0

/-! ## The Tithe unit (17 R353 to R356) -/

def titheBad (m : Cmd) (d : List Byte) : Option (Nat × Nat) :=
  let f := bfield d
  firstBad [heldBad m 0 (f 0 8), heldBad m 8 (f 8 8), heldBad m 16 (f 16 8), heldBad m 24 (f 24 8), heldBad m 32 (f 32 8),
    limitBad (f 40 2 = 0 || decide (4096 < f 40 2)) 40,
    limitBad (f 48 1 = 0 || decide (64 < f 48 1)) 48,
    limitBad (decide (2 ≤ f 50 1)) 50,
    zeroBad d (span 51 64)]

/-- The rank of a confidence: every NaN below every number, else the order of 09 R193. -/
def confRank (b : Nat) : Nat := if (v32 b).isNan then 0 else 1 + sortKey b

def bitAtByte (l : List Byte) (p : Nat) : Bool := bitsAt (l.getD (p / 8) 0).toNat (p % 8) 1 = 1

/-- Bytes whose bit p is f p, for p below 8 times their number. -/
def packBits (n : Nat) (f : Nat → Bool) : List Byte :=
  (List.range n).map fun i => BitVec.ofNat 8 (packFrom 1 (fun j => if f (8 * i + j) then 1 else 0) 8)

/-- The k members of greatest rank, ties to the lower position. -/
def topShare (rank : Nat → Nat) (l : List Nat) : Nat → List Nat
  | 0 => []
  | k + 1 =>
    match l.foldl (fun (a : Option Nat) p => match a with
        | none => some p
        | some q => if rank q < rank p then some p else some q) none with
    | none => []
    | some p => p :: topShare rank (l.filter (· ≠ p)) k

/-- The positions committed in a round. -/
def committed (masked : List Nat) (conf : Nat → Nat) (share : Nat) (floor : Option Nat) : List Nat :=
  let mm := masked.length
  let c := if mm = 0 then 0 else Nat.max 1 ((share * mm + 0x8000) / 65536)
  let top := topShare (fun p => confRank (conf p)) masked c
  match floor with
  | none => masked.filter fun p => top.contains p
  | some fl => masked.filter fun p => top.contains p || (!(v32 (conf p)).isNan && decide (confRank fl ≤ confRank (conf p)))

/-- The rows of one layer group. -/
def titheGroup (m : Cmd) (map_ n g refresh : Nat) (masked chosen : Nat → Bool) (t : Bool) (s : State) : Res Unit :=
  let nb := (n + 7) / 8
  (readCmd m 0 s (map_ + 512 * g) nb).bind fun s db =>
    (readCmd m 0 s (map_ + 32768 + 4096 * g) n).bind fun s ages =>
      let age (p : Nat) : Nat :=
        let a := (ages.1.getD p 0).toNat
        if chosen p then 0 else if masked p then a else Nat.min 255 (a + 1)
      let dirty (p : Nat) : Bool :=
        chosen p || bitAtByte db.1 p || (decide (p < n) && !masked p && refresh ≠ 0 && decide (refresh ≤ age p))
      (cmdWrite m 0 (t || db.2) false 3 s (map_ + 512 * g) (packBits nb dirty)).bind fun s _ =>
        cmdWrite m 0 (t || ages.2) false 3 s (map_ + 32768 + 4096 * g) ((List.range n).map fun p => BitVec.ofNat 8 (age p))

/-- The positions that a round commits, from the bytes of its descriptor, its confidences and its mask. -/
def chosenOf (d conf mask : List Byte) : List Nat :=
  let n := bfield d 40 2
  let cf := word32s n conf
  committed ((List.range n).filter (bitAtByte mask)) (fun p => cf.getD p 0) (bfield d 42 2) (if bfield d 50 1 = 1 then some (bfield d 44 4) else none)

/-- A round of commitment (17 R355). -/
def titheRun (m : Cmd) (s : State) (va : Nat) (t : Bool) : Res TWord :=
  (enDesc m s va).bind fun s d =>
    match titheBad m d.1 with
    | some e => .fail s e.1 e.2 0
    | none =>
      let f := bfield d.1
      let n := f 40 2
      let nb := (n + 7) / 8
      (readCmd m 0 s (f 0 8) (4 * n)).bind fun s cf =>
        (readCmd m 0 s (f 8 8) nb).bind fun s mk =>
          let chosen := chosenOf d.1 cf.1 mk.1
          let tt := t || d.2 || cf.2 || mk.2
          let groups := (List.range (f 48 1)).foldl (fun (a : Res Unit) g => a.bind fun s _ =>
            titheGroup m (f 32 8) n g (f 49 1) (bitAtByte mk.1) (fun p => chosen.contains p) tt s) (.ok s ())
          let tokens := chosen.foldl (fun (a : Res Unit) p => a.bind fun s _ => (readCmd m 0 s (f 16 8 + 4 * p) 4).bind fun s cd =>
            cmdWrite m 0 (tt || cd.2) false 2 s (f 24 8 + 4 * p) cd.1) groups
          tokens.bind fun s _ =>
            (cmdWrite m 0 tt false 2 s (f 8 8) (packBits nb fun p => bitAtByte mk.1 p && !chosen.contains p)).bind fun s _ =>
              .ok s ⟨statusWord 0 0 chosen.length, tt⟩

def tmapBad (m : Cmd) (clear : Bool) (d : List Byte) : Option (Nat × Nat) :=
  let f := bfield d
  firstBad [heldBad m 0 (f 0 8), (if clear then limitBad (f 8 8 ≠ 0) 8 else heldBad m 8 (f 8 8)),
    limitBad (f 16 2 = 0 || decide (4096 < f 16 2)) 16,
    limitBad (decide (64 < f 18 1 + f 19 1)) 18,
    limitBad (f 19 1 = 0 || decide (64 < f 19 1)) 19,
    zeroBad d (span 20 64)]

/-- One group of TMAP or TCLRD: the rows met so far rise by its dirty rows. -/
def tmapGroup (m : Cmd) (clear : Bool) (map_ list_ n g i : Nat) (t : Bool) (s : State) : Res (Nat × Bool) :=
  let nb := (n + 7) / 8
  (readCmd m 0 s (map_ + 512 * g) nb).bind fun s db =>
    let rows := (List.range n).filter (bitAtByte db.1)
    if rows.isEmpty then .ok s (i, t || db.2)
    else if clear then
      (rows.foldl (fun (a : Res Unit) p => a.bind fun s _ =>
          cmdWrite m 0 (t || db.2) false 2 s (map_ + 32768 + 4096 * g + p) [0]) (.ok s ())).bind fun s _ =>
        (cmdWrite m 0 (t || db.2) false 3 s (map_ + 512 * g) (packBits nb fun p => bitAtByte db.1 p && decide (n ≤ p))).bind fun s _ =>
          .ok s (i + rows.length, t || db.2)
    else
      (cmdWrite m 0 (t || db.2) false 6 s (list_ + 4 * i) (rows.flatMap fun p => leBytes (65536 * g + p) 4)).bind fun s _ =>
        .ok s (i + rows.length, t || db.2)

/-- TMAP and TCLRD (17 R356). -/
def tmapRun (m : Cmd) (clear : Bool) (s : State) (va : Nat) (t : Bool) : Res TWord :=
  (enDesc m s va).bind fun s d =>
    match tmapBad m clear d.1 with
    | some e => .fail s e.1 e.2 0
    | none =>
      let f := bfield d.1
      ((List.range (f 19 1)).foldl (fun (a : Res (Nat × Bool)) j => a.bind fun s i =>
        tmapGroup m clear (f 0 8) (f 8 8) (f 16 2) (f 18 1 + j) i.1 i.2 s) (.ok s (0, t || d.2))).bind fun s i => .ok s ⟨statusWord 0 0 i.1, i.2⟩

/-! ## EN commands completing -/

/-- Run an EN command: its status, or its failure. -/
def enRun (m : Cmd) (t : Bool) (s : State) (k : AKind) : Res TWord :=
  match k with
  | .sel _ va => selRun m s va t
  | .draw _ x y k0 k1 => .ok s ⟨BitVec.ofNat 64 (drawBits x.toNat (x.toNat / 2^32) y.toNat k0.toNat k1.toNat), t⟩
  | .kv 0 _ x y => kvAlloc m s x.toNat (y.toNat % 65536) t
  | .kv 1 _ x y => kvFreeRun m s x.toNat (y.toNat % 65536) t
  | .kv _ _ _ _ => .ok s ⟨kvCountRun s m.part, t⟩
  | .tithe 0 _ va => titheRun m s va t
  | .tithe opc _ va => tmapRun m (opc == 2) s va t
  | _ => .ok s ⟨0, t⟩

/-- The bytes that a command would read at an address, where they can be read at once. -/
def peekBytes (m : Cmd) (s : State) (va n : Nat) : List Byte := match readCmd m 0 s va n with
  | .ok _ d => d.1
  | _ => []

/-- The 64-byte units that positions of 4 bytes, or of one, lie in. -/
def unitsOf (per : Nat) (l : List Nat) : Nat := ((l.map fun p => p / per).eraseDups).length

/-- A command that fails at a read has read the units counted before it. -/
def Res.counted (r : Res Nat) (n : Nat) : Res Nat := match r with
  | .fail s _ _ _ => .ok s n
  | r => r

/-- Units of SELACC: its descriptor, its record read where it continues, and the record written. -/
def selUnits (m : Cmd) (s : State) (va : Nat) : Res Nat :=
  Res.counted ((enDesc m s va).bind fun s d =>
    let f := bfield d.1
    let n := 64 + 8 * 2^f 8 1
    if (selBad m d.1).isSome then .ok s 1
    else if f 9 1 = 0 then .ok s (1 + units n)
    else Res.counted ((readCmd m 0 s (f 16 8) n).bind fun s r => .ok s (if bfield r.1 16 1 ≠ f 8 1 then 1 + units n else 1 + 2 * units n)) 1) 0

/-- Units of KVALLOC and KVFREE: the record, the entries of its page list that are read or written, and the record written. -/
def kvUnits (m : Cmd) (s : State) (free : Bool) (va n : Nat) : Res Nat :=
  if (recBad m va).isSome then .ok s 0
  else Res.counted ((readCmd m 0 s va 64).bind fun s q =>
    let r := q.1
    let list_ := bfield r 16 8
    let pages := bfield r 8 4
    if (heldBad m 16 list_).isSome then .ok s 1
    else if free then
      (if !kvEnabled s m.part ∨ n = 0 ∨ pages < n then .ok s 1
      else Res.counted ((kvEntries m s list_ (pages - n) n).bind fun s l =>
        .ok s ((if l.any fun e => (kvPage s m.part e).isNone then 1 else 2) + spanUnits (list_ + 8 * (pages - n)) (8 * n))) 1)
    else if (kvAllocBad s m.part n r).isSome then .ok s 1
    else if kvFree s m.part < n then .ok s (2 + spanUnits (list_ + 8 * bfield r 12 4) (8 * (pages - bfield r 12 4)))
    else .ok s (2 + spanUnits (list_ + 8 * pages) (8 * n))) 0

/-- Units of TITHE. -/
def titheUnits (m : Cmd) (s : State) (va : Nat) : Res Nat :=
  Res.counted ((enDesc m s va).bind fun s d =>
    let f := bfield d.1
    let n := f 40 2
    let nb := units ((n + 7) / 8)
    if (titheBad m d.1).isSome then .ok s 1
    else Res.counted ((readCmd m 0 s (f 0 8) (4 * n)).bind fun s cf => (readCmd m 0 s (f 8 8) ((n + 7) / 8)).bind fun s mk =>
      let chosen := chosenOf d.1 cf.1 mk.1
      .ok s (1 + units (4 * n) + 2 * nb + 2 * unitsOf 16 chosen + f 48 1 * (2 * nb + 2 * units n))) 1) 0

/-- Units of TMAP and TCLRD, whose groups' dirty rows are read: of every group in order, its bits, and for TCLRD what a group with a dirty row has written. -/
def tmapUnits (m : Cmd) (clear : Bool) (s : State) (va : Nat) : Res Nat :=
  Res.counted ((enDesc m s va).bind fun s d =>
    let f := bfield d.1
    let n := f 16 2
    let nb := units ((n + 7) / 8)
    if (tmapBad m clear d.1).isSome then .ok s 1
    else Res.counted (((List.range (f 19 1)).foldl (fun (a : Res (Nat × Nat)) j => a.bind fun s x =>
      (readCmd m 0 s (f 0 8 + 512 * (f 18 1 + j)) ((n + 7) / 8)).bind fun s db =>
        let rows := (List.range n).filter (bitAtByte db.1)
        .ok s (x.1 + nb + (if clear && !rows.isEmpty then nb + unitsOf 64 rows else 0), x.2 + rows.length)) (.ok s (1, 0))).bind fun s x =>
          .ok s (x.1 + if clear then 0 else units (4 * x.2))) 1) 0

/-- The 64-byte units of memory that an EN command reads and writes (17 R341), from what it reads as it begins: a read that waits is tried again, and a command that fails at a check or
at a read counts what it has read by then. DESIGN CHOICE (log 50): a unit is counted once for each range that is read and once for each that is written; accumulator words and the pool's
free bitmap are no such units. -/
def enUnits (m : Cmd) (s : State) (k : AKind) : Res Nat :=
  match k with
  | .sel _ va => selUnits m s va
  | .kv 0 _ x y => kvUnits m s false x.toNat (y.toNat % 65536)
  | .kv 1 _ x y => kvUnits m s true x.toNat (y.toNat % 65536)
  | .tithe 0 _ va => titheUnits m s va
  | .tithe opc _ va => tmapUnits m (opc == 2) s va
  | _ => .ok s 0

/-- The ranges that an EN command reads beside its descriptor or record, where that keeps its limits. -/
def enReads (m : Cmd) (s : State) (k : AKind) : List (Nat × Nat) :=
  match k with
  | .sel _ va =>
    let d := peekBytes m s va 64
    if (selBad m d).isSome ∨ bfield d 9 1 = 0 then [] else [(bfield d 16 8, 64 + 8 * 2^bfield d 8 1)]
  | .kv 0 _ x y =>
    let r := peekBytes m s x.toNat 64
    if kvFree s m.part < y.toNat % 65536 then [(bfield r 16 8 + 8 * bfield r 12 4, 8 * (bfield r 8 4 - bfield r 12 4))] else []
  | .kv 1 _ x y =>
    let r := peekBytes m s x.toNat 64
    let n := y.toNat % 65536
    if bfield r 8 4 < n then [] else [(bfield r 16 8 + 8 * (bfield r 8 4 - n), 8 * n)]
  | .tithe 0 _ va =>
    let d := peekBytes m s va 64
    let f := bfield d
    let n := f 40 2
    if (titheBad m d).isSome then []
    else [(f 0 8, 4 * n), (f 8 8, (n + 7) / 8), (f 16 8, 4 * n)] ++
      (List.range (f 48 1)).flatMap fun g => [(f 32 8 + 512 * g, (n + 7) / 8), (f 32 8 + 32768 + 4096 * g, n)]
  | .tithe opc _ va =>
    let d := peekBytes m s va 64
    let f := bfield d
    if (tmapBad m (opc == 2) d).isSome then [] else (List.range (f 19 1)).map fun j => (f 0 8 + 512 * (f 18 1 + j), (f 16 2 + 7) / 8)
  | _ => []

/-- The scalar destination of an EN command. -/
def enDst : AKind → Fin 32
  | .sel d _ | .draw d _ _ _ _ | .kv _ d _ _ | .tithe _ d _ | .launch d _ | .release d _ _ | .asked d _ => d
  | _ => 0

/-- Status word of LAUNCH and RELEASE, with the relative task index (02 R35). -/
def askStatus (code detail task : Nat) : Word := BitVec.ofNat 64 (code % 65536 + detail % 65536 * 65536 + task % 8192 * 2^32)

/-- A request goes to the Reckoner; the operation waits for its answer. -/
def presentOp (s : State) (cid : Nat) (o : AOp) (dst : Fin 32) (cmd : Command) : State :=
  let s1 := modCore s cid fun c => { c with ops := c.ops.map fun e => if e.id = o.id then { e with kind := .asked dst cmd, taint := o.taint } else e }
  { s1 with rk := { s1.rk with devQ := s1.rk.devQ ++ [(cid, o.id)] } }

/-- The command that a device RELEASE makes (02 R23, R35). -/
def releaseCmd (t : Word) (time : Word) : Command := BitVec.ofNat 512 (2 + t.toNat % 65536 * 2^32 + time.toNat * 2^320)

/-- EN_COMMAND_COMPLETE. DESIGN CHOICE (log 64): the status of a RELEASE whose task register has a bit above 12 names task 0, as the pseudocode of 02 R35 has it; its text would give the low 13 bits. -/
def execEnCommandComplete (s : State) : Out :=
  .next (onOp s fun cid o =>
    match o.kind with
    | .asked _ _ => s
    | .launch dst va =>
      if va % 64 ≠ 0 then finishCmd s cid o dst ⟨askStatus 0x0107 0x40 0, o.taint⟩
      else
        let r := opRead s cid o.pages va 64 true
        let cmd : Command := BitVec.ofNat 512 r.1
        let t := o.taint || r.2.1
        if cmdField cmd 0 1 ≠ 1 then finishCmd r.2.2 cid o dst ⟨askStatus 0x0107 0 (cmdField cmd 4 2), t⟩
        else presentOp r.2.2 cid { o with taint := t } dst cmd
    | .release dst t time =>
      if t.toNat / 8192 ≠ 0 then finishCmd s cid o dst ⟨askStatus 0x0107 4 0, o.taint⟩
      else presentOp s cid o dst (releaseCmd t time)
    | k =>
      if opClass k = 6 then
        let m := cmdOf s cid o
        if (taskOfCore s cid).det ∧ o.acks = 0 then
          match enUnits m s k with
          | .ok s1 n => beginDet s1 cid o n
          | .fail s1 _ _ _ => beginDet s1 cid o 0
          | .wait a st => retryCmd s cid o a st
        else
          match enRun m o.taint s k with
          | .wait a st => retryCmd s cid o a st
          | .fail s1 code detail n => failCmd s1 cid o (enDst k) code detail n
          | .ok s1 x => finishCmd s1 cid o (enDst k) x
      else s)

end Sys2Proof.Machine
end

