-- ==== Sys2Proof/Machine/Translate.lean ====
section
/-! DEFINITION. Translation state as it changes: walks, pulls, host answers, invalidations, peers, shoot-downs, frames, format windows (12, 08 R161, R162). -/

namespace Sys2Proof.Machine

open Sys2Proof

/-! ## Waiting operations try again -/

/-- A waiting operation looks up its translation again: it goes on, traps, or waits (12 R246). -/
def retryOp (s : State) (cid : Nat) (o : AOp) : State :=
  if !o.waiting then s
  else match lookupPages s (partOfCore s cid) (opWrites o.kind) (spanPages (opSpans o.kind)) with
  | .ok pages =>
    if windowTrap s o.kind pages then faultTrap s cid o 0x0206 o.slot.val
    else
      let d := opDue s (taskOfCore s cid).det o.path o.kind
      translated (modCore d.2 cid fun c =>
        { c with ops := c.ops.map fun e => if e.id = o.id then { e with pages := pages, due := d.1, waiting := false } else e }) cid o.kind
  | .error none => s
  | .error (some code) => faultTrap s cid o code o.slot.val

/-- Every waiting operation of a core tries again, in order. -/
def retryCore (s : State) (cid : Nat) : State := (coreGet s cid).ops.foldl (fun s o => retryOp s cid o) s
def retryAll (s : State) : State := s.cores.foldl (fun s e => retryCore s e.1) s

/-- The first page that a waiting operation misses on a die, with whether it stores. -/
def missingPage (s : State) (cid : Nat) (o : AOp) : Option Nat :=
  (spanPages (opSpans o.kind)).find? fun v => ownerOf (v * 4096) < 2 &&
    match lookup s (partOfCore s cid) (v * 4096) (opWrites o.kind) with
    | .wait => true
    | _ => false

/-- A waiting operation touches a page range of an owner for a partition. -/
def waitsOn (s : State) (cid : Nat) (o : AOp) (p owner va size : Nat) : Bool :=
  o.waiting && partOfCore s cid == p && (spanPages (opSpans o.kind)).any fun v =>
    ownerOf (v * 4096) == owner && decide (v * 4096 % 2^60 / size = va / size)

/-- Trap the waiting operations that a failed translation stops. -/
def failWaiting (s : State) (p owner va size code : Nat) (storesOnly : Bool) : State :=
  s.cores.foldl (fun s e =>
    match e.2.ops.find? fun o => waitsOn s e.1 o p owner va size && (!storesOnly || opWrites o.kind) with
    | some o => faultTrap s e.1 o code o.slot.val
    | none => s) s

/-- MTLB_WALK: the owner die walks for a miss (12 R249); what waits for the page goes on, traps, or waits for a pull. -/
def execMtlbWalk (s : State) : Out :=
  .next (match s.ev with
    | .page d p va st =>
      match doWalk s d.val p.val va.toNat st with
      | (s1, .ok _) => retryAll s1
      | (s1, .fail code) => failWaiting s1 p.val d.val va.toNat 4096 code st
      | (s1, .wait) => s1
    | _ => s)

/-! ## Migration pulls (12 R257) -/

/-- Copy a range of memory, byte by byte. -/
def copyRange (s : State) (dst src n : Nat) : State :=
  let inRange (a b : Nat) : Bool := decide (b ≤ a) && decide (a < b + n)
  let cells := (s.mem.filter fun c => inRange c.1 src).map fun c => (c.1 - src, c.2)
  cells.foldl (fun s c => putByte s (dst + c.1) c.2) { s with mem := s.mem.filter fun c => !inRange c.1 dst }

/-- Sectors of a range hold untainted, untagged data. -/
def clearSectors (s : State) (a n : Nat) : State :=
  let out (q : Nat) : Bool := decide (q < a / 32) || decide ((a + n) / 32 ≤ q)
  { s with secTaint := s.secTaint.filter fun e => out e.1, secTag := s.secTag.filter fun e => out e.1 }

/-- The pull of a page that has fallen due. -/
def pullOf (s : State) (d p va : Nat) : Option Pull := s.xl.pulls.find? fun x => x.die == d && x.part == p && x.va == va && decide (x.due ≤ s.cycle)

/-- Rewrite the residence field of a page's entry if it still reads "in transit", with the reductions that its line has taken (14 R295). -/
def setRs (s : State) (x : Pull) (rs : Nat) : State :=
  let r := readPhys s x.entry 8
  if bitsAt r.1 0 1 = 1 ∧ entryRs r.1 = 1 then performBytes r.2 x.entry (leBytes (r.1 - 64 + 64 * rs) 8) else r.2

def dropPull (s : State) (x : Pull) : State := { s with xl := { s.xl with pulls := s.xl.pulls.filter (· ≠ x) } }

/-- A pull fails (12 R257): rs becomes 3, and the walks of what waits find it. -/
def failPull (s : State) (x : Pull) : State := dropPull (setRs s x 3) x

/-- Every frame that a pull fills is still the partition's. -/
def pullOwned (s : State) (x : Pull) : Bool := (List.range (x.size / 65536)).all fun i => frameOwner s x.die (x.frame + 65536 * i) == some x.part

/-- The bytes of a host page range reach the frame page by page, each translated through the ATC (12 R258): whether it is all there, fails, or waits, and how much is there. -/
def pullHost (x : Pull) : Nat → Nat → State → State × Xr × Nat
  | 0, o, s => (s, .ok 0, o)
  | n + 1, o, s =>
    match resolve s x.part (x.back + o) false with
    | (s1, .ok pa) => pullHost x n (o + 4096) (copyRange s1 (x.die * 2^60 + x.frame + o) pa 4096)
    | (s1, e) => (s1, e, o)

/-- The page is in its frame: rs becomes 0. -/
def endPull (s : State) (x : Pull) : State :=
  let dst := x.die * 2^60 + x.frame
  let s1 := (List.range (x.size / 65536)).foldl (fun s i => logDirty s (dst + 65536 * i)) s
  dropPull (setRs (clearSectors s1 dst x.size) x 0) x

/-- PAGE_PULL_COMPLETE: the whole page is in its frame, rs becomes 0, and the waiting faults walk again. A pull from a fenced chip fails. It waits while the L2 changes the device's
range (04 R69). DESIGN CHOICE (log 51): a pull whose frame the partition has lost meanwhile ends and writes nothing, its entry left in transit. -/
def execPagePullComplete (s : State) : Out :=
  .next (match s.ev with
    | .page d p va _ =>
      match pullOf s d.val p.val va.toNat with
      | none => s
      | some x =>
        if l2Changing s x.die 40 then s
        else if !pullOwned s x then dropPull s x
        else if ownerOf x.back = 8 ∧ fenced s (chipOf x.back) = true then failPull s x
        else if ownerOf x.back = 4 then
          match pullHost x ((x.size - x.done) / 4096) x.done s with
          | (s1, .ok _, _) => endPull s1 x
          | (s1, .fail _, _) => failPull s1 x
          | (s1, .wait, o) => { s1 with xl := { s1.xl with pulls := s1.xl.pulls.map fun y => if y = x then { y with done := o } else y } }
        else endPull (copyRange s (x.die * 2^60 + x.frame) x.back x.size) x
    | _ => s)

/-- Every L1 drops its copies of a chip's lines (12 R254). -/
def dropChipLines (s : State) (chip : Nat) : State :=
  { s with cores := s.cores.map fun e =>
      (e.1, { e.2 with l1 := e.2.l1.filter fun l => !(ownerOf (64 * l.1) == 8 && chipOf (64 * l.1) == chip) }) }

/-- Fence a chip: its PFENCE bit, the lines of its memory, and the pulls from it, which fail (12 R254, R257). -/
def fenceChip (s : State) (chip : Nat) : State :=
  let s1 := dropChipLines (pfOr s (0xE1100 + 8 * (chip / 64)) 8 (2^(chip % 64))) chip
  (s1.xl.pulls.filter fun x => ownerOf x.back == 8 && chipOf x.back == chip).foldl failPull s1

/-- Repeat an event in the next cycle. -/
def again (s : State) (e : Event) : State := { s with inputs := (s.cycle + 1, .event e) :: s.inputs }

/-- PAGE_PULL_FAIL: a host read has come back with an error, or a peer source has been silent for 100 µs, at the earliest that long after the pull began, and is fenced. -/
def execPagePullFail (s : State) : Out :=
  .next (match s.ev with
    | .page d p va _ =>
      match s.xl.pulls.find? fun x => x.die == d.val && x.part == p.val && x.va == va.toNat with
      | none => s
      | some x =>
        if ownerOf x.back = 8 then (if now s < x.since + 100000 then again s ⟨.pagePullFail, s.ev⟩ else fenceChip s (chipOf x.back))
        else failPull s x
    | _ => s)

/-! ## Host translations (12 R258, R259) -/

/-- The request that an answer belongs to: the oldest of its partition for the page. -/
def reqFor (s : State) (p page size : Nat) (pri : Bool) : Option AtsReq :=
  s.xl.reqs.find? fun r => r.part == p && r.pri == pri && decide (r.page / size = page / size)

def dropReq (s : State) (r : AtsReq) : State := { s with xl := { s.xl with reqs := s.xl.reqs.filter (· ≠ r) } }

/-- A Translation Request goes out, again with nothing covered. -/
def sendReq (s : State) (r : AtsReq) : State :=
  send { s with xl := { s.xl with reqs := s.xl.reqs ++ [{ r with pri := false, covered := [] }] } } (.atsRequest r.part r.ident r.page r.write)

/-- Page Requests outstanding or waiting, oldest first. -/
def priList (s : State) : List AtsReq := s.xl.reqs.filter (·.pri)

/-- A request becomes a Page Request: it is sent at once while fewer than 256 are outstanding. -/
def toPri (s : State) (r : AtsReq) : State :=
  let s1 := { dropReq s r with xl := { (dropReq s r).xl with reqs := (dropReq s r).xl.reqs ++ [{ r with pri := true }] } }
  if (priList s).length < 256 then send s1 (.pageRequest r.part r.ident r.page r.write) else s1

/-- A Page Request leaves: the next that waited for room is sent. -/
def leavePri (s : State) (r : AtsReq) : State :=
  let s1 := dropReq s r
  match (priList s1)[255]? with
  | some x => send s1 (.pageRequest x.part x.ident x.page x.write)
  | none => s1

/-- Fill an ATC entry; at 4096 entries the oldest goes. -/
def fillAtc (s : State) (e : AtcEntry) : State :=
  { s with xl := { s.xl with atc := (e :: s.xl.atc.filter fun x => !(x.ident == e.ident && x.page == e.page && x.size == e.size)).take 4096 } }

/-- Two ranges of addresses share a byte. -/
def rangesMeet (a n b m : Nat) : Bool := decide (a < b + m) && decide (b < a + n)

/-- ATS_TRANSLATION_COMPLETION: a range that an invalidation covered meanwhile is discarded and asked for again (12 R259); one that grants what is needed fills an entry under the
identity that the request was made with; else a Page Request starts (12 R258). -/
def execAtsTranslationCompletion (s : State) : Out :=
  .next (match s.ev with
    | .ats p a =>
      let size := Nat.max 4096 (2^a.sizeLog2.val)
      let page := a.page.toNat % 2^60 / size * size
      match reqFor s p.val page size false with
      | none => s
      | some r =>
        if r.covered.any fun e => rangesMeet e.1 e.2 page size then sendReq (dropReq s r) r
        else if (a.read || !r.read) && (a.write || !r.write) then
          retryAll (fillAtc (dropReq s r) ⟨r.ident, r.part, page, size, a.target.toNat, a.read, a.write⟩)
        else toPri s r
    | _ => s)

/-- PRG_RESPONSE: Success repeats the Translation Request; a failure traps what waits for the page with HOST_PAGE_FAILED. -/
def execPrgResponse (s : State) : Out :=
  .next (match s.ev with
    | .prg p page ok =>
      match reqFor s p.val (page.toNat % 2^60) 4096 true with
      | none => s
      | some r =>
        let s1 := leavePri s r
        if ok then sendReq s1 r
        else
          let s2 := { s1 with xl := { s1.xl with failed := (r.part, r.page, s.cycle + 2) :: s1.xl.failed.filter fun e => decide (s.cycle ≤ e.2.2) } }
          failWaiting s2 p.val 4 r.page 4096 0x0204 false
    | _ => s)

/-- Operations already translated whose pages, with their core, a test names. -/
def translatedOps (s : State) (f : Nat → Nat × Nat → Bool) : List (Nat × Nat) :=
  s.cores.flatMap fun e => (e.2.ops.filter fun o => !o.waiting && o.pages.any (f e.1)).map fun o => (e.1, o.id)

/-- A partition reaches the host through an ATC entry: the entry was filled for it, or carries the identity that it uses now. -/
def usesEntry (s : State) (p : Nat) (e : AtcEntry) : Bool := e.part == p || hostIdent s p == some e.ident

/-- ATS_INVALIDATION_REQUEST: the entries of the requester ID and PASID that it names, whoever filled them, are used for nothing new; every request of that identity outstanding notes the range. -/
def execAtsInvalidationRequest (s : State) : Out :=
  .next (match s.ev with
    | .inval ident page lg tag =>
      let size := Nat.max 4096 (2^lg.val)
      let lo := page.toNat % 2^60 / size * size
      let meets (a n : Nat) : Bool := rangesMeet a n lo size
      let hit (e : AtcEntry) : Bool := e.ident == ident.toNat && meets e.page e.size
      let uses (p : Nat) : Bool := hostIdent s p == some ident.toNat || s.xl.atc.any fun e => hit e && e.part == p
      let ops := translatedOps s fun c e => uses (partOfCore s c) && ownerOf (e.1 * 4096) == 4 && meets (e.1 * 4096 % 2^60) 4096
      { s with xl := { s.xl with
          atc := s.xl.atc.filter fun e => !hit e
          reqs := s.xl.reqs.map fun r => if !r.pri && r.ident == ident.toNat then { r with covered := r.covered ++ [(lo, size)] } else r
          invals := s.xl.invals ++ [(ident.toNat, tag, ops)] } }
    | _ => s)

/-- Whether any of the listed operations is outstanding. -/
def opsLive (s : State) (l : List (Nat × Nat)) : Bool := l.any fun e => (coreGet s e.1).ops.any fun o => o.id == e.2

/-- ATS_INVALIDATION_COMPLETION: sent once every request translated with the entries has performed at the host. -/
def execAtsInvalidationCompletion (s : State) : Out :=
  .next (match s.ev with
    | .tag tag =>
      match s.xl.invals.find? fun e => e.2.1 == tag && !opsLive s e.2.2 with
      | none => s
      | some e => send { s with xl := { s.xl with invals := s.xl.invals.filter (· ≠ e) } } (.invalidationDone tag)
    | _ => s)

/-! ## Peers (12 R245, R247) -/

/-- PEERIN[i]. -/
def peerIn (s : State) (i : Nat) : Nat := pfGet s (0xE0C00 + 8 * i) 8

/-- The local partition that serves a peer's partition. -/
def peerPart (s : State) (chip part : Nat) : Option Nat :=
  ((List.range 64).find? fun i =>
    let e := peerIn s i
    bitsAt e 63 1 = 1 && bitsAt e 0 9 == chip && bitsAt e 9 6 == part).map fun i => bitsAt (peerIn s i) 16 6

/-- PEER_REQUEST: translated for the local partition, or answered with a permission error; a fenced chip's requests are refused (12 R254). -/
def execPeerRequest (s : State) : Out :=
  .next (match s.ev with
    | .peer r =>
      let deny (s : State) : State := send s (.peerAnswer r.chip.toNat false [])
      if fenced s r.chip.toNat then deny s
      else match peerPart s r.chip.toNat r.part.val with
      | none => deny s
      | some p =>
        let va := r.die.val * 2^60 + r.va.toNat
        match resolveRange s p r.data.isSome 4 va r.bytes.val with
        | (s1, .fail _, _) => deny s1
        | (s1, .wait, _) => again s1 ⟨.peerRequest, s.ev⟩
        | (s1, .ok _, pieces) =>
          match r.data with
          | none =>
            let x := readPieces s1 pieces
            send x.2.2 (.peerAnswer r.chip.toNat true x.1)
          | some bs =>
            let w := pieces.foldl (fun (a : State × List Byte) e =>
              let n := Nat.min e.2 a.2.length
              (tagSectors (writePhys a.1 e.1 (a.2.take n)) none e.1 n false, a.2.drop n)) (s1, bs)
            send w.1 (.peerAnswer r.chip.toNat true [])
    | _ => s)

/-! ## Shoot-downs (12 R252 to R254) -/

/-- The size of a page-scope shoot-down. -/
def sdSize (k : Nat) : Nat := if k = 0 then 65536 else if k = 1 then 2^21 else 2^30

/-- Whether a shoot-down covers a cached page of a die: partition, virtual page, size, frame. -/
def shootHits (x : Shoot) (die part va size frame : Nat) : Bool :=
  match x.scope with
  | 0 => die == ownerOf x.addr && part == x.part && rangesMeet va size (x.addr % 2^47 / x.size * x.size) x.size
  | 1 => part == x.part
  | 2 => die == ownerOf x.addr && rangesMeet frame size (x.addr % 2^60 / 65536 * 65536) 65536
  | _ => true

/-- Whether what a core's L1 and its operations hold is of a partition that a shoot-down of scope partition or all covers: the partition of its last pass. -/
def shootPart (s : State) (x : Shoot) (cid : Nat) : Bool := x.scope == 3 || (x.scope == 1 && (coreGet s cid).part == x.part)

/-- The ATC entries that a shoot-down drops: all, or every one that its partition uses. -/
def shootAtc (s : State) (x : Shoot) (e : AtcEntry) : Bool := x.scope == 3 || (x.scope == 1 && usesEntry s x.part e)

/-- The requests of a partition to a host page go through what a shoot-down drops: the partition is the one it names, or an entry dropped is the partition's too. -/
def shootHost (s : State) (x : Shoot) (p va : Nat) : Bool :=
  x.scope == 3 || (x.scope == 1 && p == x.part) ||
    s.xl.atc.any fun e => shootAtc s x e && usesEntry s p e && decide (va % 2^60 / e.size * e.size = e.page)

/-- The operations whose requests a target's acknowledgement waits for. -/
def shootOps (s : State) (x : Shoot) : List (Nat × Nat × Nat) :=
  s.cores.flatMap fun e => e.2.ops.flatMap fun o =>
    if o.waiting then []
    else o.pages.filterMap fun g =>
      let own := ownerOf (g.1 * 4096)
      if own < 2 then
        if shootHits x own (partOfCore s e.1) (g.1 * 4096 % 2^47) 4096 (g.2 * 4096 % 2^60) then some (own, e.1, o.id) else none
      else if own = 4 ∧ shootHost s x (partOfCore s e.1) (g.1 * 4096) = true then some (2, e.1, o.id) else none

/-- The chips that a shoot-down goes to: each named by a valid PEERIN entry and not fenced. -/
def shootChips (s : State) : List Nat :=
  ((List.range 64).filterMap fun i =>
    let e := peerIn s i
    if bitsAt e 63 1 = 1 ∧ fenced s (bitsAt e 0 9) = false then some (bitsAt e 0 9) else none).eraseDups

/-- An update-only line that a shoot-down covers. -/
def shootLine (x : Shoot) (line : Nat) (u : UpdLine) : Bool :=
  match x.scope with
  | 2 => decide (64 * line / 65536 = x.addr / 65536)
  | 3 => true
  | _ => u.part == x.part

/-- Update-only lines that a shoot-down covers merge as their L1 drops them; those of a die whose L2 changes the range that merges use merge when it has (04 R69). -/
def shootUpd (s : State) (x : Shoot) : State :=
  s.cores.foldl (fun s e => e.2.upd.foldl (fun s l =>
    if !shootLine x l.1 l.2 then s
    else if l2Changing s (ownerOf (64 * l.1)) 40 then
      modCore s e.1 fun c => { c with upd := c.upd.map fun m => if m.1 = l.1 then (m.1, { m.2 with due := s.cycle }) else m }
    else mergeLineOf s e.1 l.1) s) s

/-- A shoot-down is sent: every local target drops what it covers at once; busy stands until all have acknowledged. -/
def startShoot (s : State) (x : Shoot) : State :=
  let ops := shootOps s x
  let chips := shootChips s
  let s1 := shootUpd s x
  let s2 := { s1 with
    xl := { s1.xl with
      mtlb := s1.xl.mtlb.filter fun e => !shootHits x e.die e.part e.va e.size e.frame
      atc := s1.xl.atc.filter fun e => !shootAtc s1 x e
      shoot := some { x with targets := [0, 1, 2, 3] ++ chips.map (1000 + ·), sent := BitVec.ofNat 64 (now s1), ops := ops } }
    cores := s1.cores.map fun e => (e.1, if shootPart s1 x e.1 then { e.2 with l1 := [] } else e.2) }
  let s3 := pfOr s2 0xE1010 4 (2^31)
  chips.foldl (fun s c => send s (.shootdown c)) s3

/-- Queue a shoot-down: they run one at a time. -/
def queueShoot (s : State) (x : Shoot) : State :=
  if s.xl.shoot.isNone then startShoot s x else { s with xl := { s.xl with shootQ := s.xl.shootQ ++ [x] } }

/-- SHOOTDOWN: a write of SDCTL. -/
def execShootdown (s : State) : Out :=
  .next (match s.ev with
    | .val v =>
      let w := v.toNat % 2^32
      let refuse (s : State) : State := pfOr s 0xE1010 4 1
      if bitsAt w 31 1 = 0 then pfSet s 0xE1008 4 (w &&& 0x0F3F0000)
      else if s.xl.shoot.isSome ∨ bitsAt w 24 2 = 3 then refuse s
      else
        queueShoot (pfSet s 0xE1008 4 (w &&& 0x0F3F0000))
          ⟨bitsAt w 26 2, pfGet s 0xE1000 8, sdSize (bitsAt w 24 2), bitsAt w 16 6, [], 0, false, []⟩
    | _ => s)

/-- The scrubber of a die takes its next queued frame (12 R256). -/
def kickScrub (s : State) (d : Nat) : State :=
  if s.xl.scrub.any fun e => e.1 == d && e.2.2 ≠ 0 then s
  else match s.xl.scrub.find? fun e => e.1 == d with
  | none => s
  | some x =>
    let t := drawDevice s
    let s1 := setFrame t.2 d x.2.1 .scrubbing
    { s1 with xl := { s1.xl with scrub := s1.xl.scrub.map fun e => if e = x then (e.1, e.2.1, s.cycle + t.1) else e } }

/-- Queue a frame for scrubbing. -/
def queueScrub (s : State) (d frame : Nat) : State :=
  let s1 := setFrame s d frame .queued
  kickScrub { s1 with xl := { s1.xl with scrub := s1.xl.scrub ++ [(d, frame, 0)] } } d

/-- Every target has acknowledged: busy clears, a released frame is queued for scrubbing, and the next shoot-down starts. -/
def endShoot (s : State) (x : Shoot) : State :=
  let s1 := pfSet { s with xl := { s.xl with shoot := none } } 0xE1010 4 (pfGet s 0xE1010 4 % 2^31)
  let s2 := if x.release then queueScrub s1 (ownerOf x.addr) (x.addr % 2^60 / 65536) else s1
  match s2.xl.shootQ with
  | [] => s2
  | y :: r => startShoot { s2 with xl := { s2.xl with shootQ := r } } y

/-- A target is counted. -/
def countTarget (s : State) (x : Shoot) (t : Nat) : State :=
  let x1 := { x with targets := x.targets.filter (· ≠ t) }
  if x1.targets.isEmpty then endShoot s x1 else { s with xl := { s.xl with shoot := some x1 } }

/-- A local target's requests through dropped items have performed; a chip's acknowledgement comes from outside. -/
def mayAck (s : State) (x : Shoot) (t : Nat) : Bool :=
  x.targets.contains t && !opsLive s ((x.ops.filter fun e => e.1 == t).map fun e => e.2) &&
    (t ≠ 3 || s.cores.all fun e => e.2.upd.all fun l => !shootLine x l.1 l.2)

/-- SHOOTDOWN_ACK. -/
def execShootdownAck (s : State) : Out :=
  .next (match s.ev, s.xl.shoot with
    | .target t, some x => if mayAck s x t then countTarget s x t else s
    | _, _ => s)

/-- SHOOTDOWN_FENCE_TIMEOUT: 100 µs after the send, a chip that has not acknowledged is fenced and counts as acknowledged. -/
def execShootdownFenceTimeout (s : State) : Out :=
  .next (match s.ev, s.xl.shoot with
    | .chip c, some x =>
      if x.targets.contains (1000 + c.toNat) ∧ x.sent.toNat + 100000 ≤ now s then
        countTarget (pfOr (fenceChip s c.toNat) 0xE1010 4 2) x (1000 + c.toNat)
      else s
    | _, _ => s)

/-- PFENCE_WRITE: ones reinstate chips. -/
def execPfenceWrite (s : State) : Out :=
  .next (match s.ev with
    | .pfence j v =>
      let o := 0xE1100 + 8 * j.val
      pfSet s o 8 ((BitVec.ofNat 64 (pfGet s o 8)) &&& ~~~v).toNat
    | _ => s)

/-- PEER_SHOOTDOWN_RECEIVE: every L1 drops its lines of that chip's memory that the scope can cover, and the device acknowledges. -/
def execPeerShootdownReceive (s : State) : Out :=
  .next (match s.ev with
    | .peerShootdown chip addr ctl =>
      let scope := bitsAt ctl.toNat 26 2
      let size := sdSize (bitsAt ctl.toNat 24 2)
      let hit (va : Nat) : Bool := ownerOf va == 8 && chipOf va == chip.toNat &&
        (scope ≠ 0 || (bitsAt va 47 1 == ownerOf addr.toNat && decide (va % 2^47 / size = addr.toNat % 2^47 / size)))
      let s1 := { s with cores := s.cores.map fun e => (e.1, { e.2 with l1 := e.2.l1.filter fun l => !hit (64 * l.1) }) }
      send s1 (.shootdownAck chip.toNat)
    | _ => s)

/-! ## Frames (12 R255, R256) -/

def fsBase (d : Nat) : Nat := 0xE2000 + 0x40 * d

/-- Every HBM stack of a die runs (18 R365). -/
def stacksRun (s : State) (d : Nat) : Bool := bitsAt (pfGet s 0xF8000 8) (7 + 4 * d) 4 == 15

/-- Report a frame command: frames done, whether it was refused, a QUERY's state. -/
def fsReport (s : State) (d done : Nat) (refused : Bool) (st : Option Nat) : State :=
  let o := fsBase d + 0x18
  let old := pfGet s o 8
  pfSet s o 8 ((if refused then 1 else old % 2) + done % 2^24 * 2^8 + (st.getD (bitsAt old 32 8)) * 2^32)

/-- Run a frame command over frames in ascending order until the first that it cannot take. -/
def overFrames (d : Nat) (take : State → Nat → Option State) : Nat → Nat → Nat → State → State × Nat × Bool
  | 0, _, done, s => (s, done, false)
  | n + 1, f, done, s =>
    if 3145728 ≤ f then (s, done, true)
    else match take s f with
    | some s1 => overFrames d take n (f + 1) (done + 1) s1
    | none => (s, done, true)

/-- The common part of the frame commands. While busy a write is refused; SCRUB and ASSIGN wait until the die's stacks run (18 R365). -/
def frameCommand (s : State) (op : Instr) (waits : Bool) (take : Nat → Nat → State → Nat → Option State) : State :=
  match s.ev with
  | .dieVal d v =>
    let o := fsBase d.val
    let w := v.toNat
    let resumed : Bool := 2^63 ≤ w
    let busy : Bool := bitsAt (pfGet s (o + 16) 4) 31 1 = 1
    if busy && !resumed then pfOr s (o + 0x18) 8 1
    else
      let part := bitsAt w 8 6
      let s1 := pfSet s (o + 16) 4 (part * 256)
      if waits && !stacksRun s d.val then
        again (pfSet s1 (o + 16) 4 (part * 256 + 2^31)) ⟨op, .dieVal d (BitVec.ofNat 64 (2^63 + w % 2^32))⟩
      else
        let r := overFrames d.val (take d.val part) (pfGet s1 (o + 8) 4 % 2^23) (bitsAt (pfGet s1 o 8) 16 36) 0 s1
        fsReport r.1 d.val r.2.1 r.2.2 none
  | _ => s

/-- FRAME_ASSIGN: CLEAN frames become the partition's; the owner is a partition or the hypervisor. -/
def execFrameAssign (s : State) : Out :=
  .next (frameCommand s .frameAssign true fun d part s f =>
    if Tbl.get .free s.xl.frames (d * 2^24 + f) = .clean ∧ (part < 40 ∨ part = 62) then some (setFrame s d f (.owned part)) else none)

/-- FRAME_RELEASE: an OWNED frame, but the device's, is FREE, and is queued for scrubbing after its shoot-down. -/
def execFrameRelease (s : State) : Out :=
  .next (frameCommand s .frameRelease false fun d _ s f =>
    match Tbl.get .free s.xl.frames (d * 2^24 + f) with
    | .owned o =>
      if o = 63 then none
      else some (queueShoot (setFrame s d f .queued) ⟨2, d * 2^60 + f * 65536, 65536, 0, [], 0, true, []⟩)
    | _ => none)

/-- FRAME_SCRUB: a FREE frame that is not queued is queued. -/
def execFrameScrub (s : State) : Out :=
  .next (frameCommand s .frameScrub true fun d _ s f =>
    if Tbl.get .free s.xl.frames (d * 2^24 + f) = .free then some (queueScrub s d f) else none)

/-- The code of a frame's state. -/
def frameCode : FrameState → Nat
  | .free | .queued => 0
  | .scrubbing => 1
  | .clean => 2
  | .owned o => 0x80 + o

/-- FRAME_QUERY: the first frame's state. -/
def execFrameQuery (s : State) : Out :=
  .next (match s.ev with
    | .dieVal d v =>
      let o := fsBase d.val
      if bitsAt (pfGet s (o + 16) 4) 31 1 = 1 then pfOr s (o + 0x18) 8 1
      else
        let f := bitsAt (pfGet s o 8) 16 36
        let s1 := pfSet s (o + 16) 4 (bitsAt v.toNat 8 6 * 256)
        if 3145728 ≤ f then fsReport s1 d.val 0 true none
        else fsReport s1 d.val 1 false (some (frameCode (Tbl.get .free s.xl.frames (d.val * 2^24 + f))))
    | _ => s)

/-- SCRUB_COMPLETE: the frame is zero and CLEAN, and the scrubber takes the next. It waits while the L2 changes the device's range (04 R69). -/
def execScrubComplete (s : State) : Out :=
  .next (match s.ev with
    | .dieVal d f =>
      if l2Changing s d.val 40 then s else
      match s.xl.scrub.find? fun e => e.1 == d.val && e.2.1 == f.toNat && e.2.2 ≠ 0 && decide (e.2.2 ≤ s.cycle) with
      | none => s
      | some x =>
        let a := d.val * 2^60 + f.toNat * 65536
        let s1 := { s with mem := s.mem.filter fun c => !(decide (a ≤ c.1) && decide (c.1 < a + 65536)), xl := { s.xl with scrub := s.xl.scrub.filter (· ≠ x) } }
        kickScrub (setFrame (clearSectors s1 a 65536) d.val f.toNat .clean) d.val
    | _ => s)

/-! ## Format windows (08 R161, R162) -/

def fmwRefuse (s : State) : State := pfOr s 0xC4000 4 1

/-- A range lies wholly in the stack that a controller serves. -/
def inStack (d : Fin 2) (c : Nat) (base size : Nat) : Bool :=
  ownerOf base == d.val && (List.range (size / 65536)).all fun i => (Config.stackOf d (base % 2^60 / 65536 + i)).val == c

/-- The fields of a control word within their limits. -/
def ctlLimits (ctl : Nat) : Bool := bitsAt ctl 0 4 ≤ 9 && bitsAt ctl 4 3 ≤ 2 && 1 ≤ bitsAt ctl 8 4 && bitsAt ctl 14 2 ≤ 2

/-- The limits of a window's fields under a control word. DESIGN CHOICE (log 74): a window of size 0, which FMWSIZE calls disabled, may be enabled and covers nothing. -/
def fmwLimits (s : State) (o ctl : Nat) : Bool :=
  let fmt := bitsAt ctl 0 4
  let base := pfGet s o 8
  let size := pfGet s (o + 8) 8
  ctlLimits ctl &&
    base % 65536 == 0 && size % (if fmtBits fmt = 6 then 196608 else 65536) == 0 && pfGet s (o + 32) 8 % 2 == 0

/-- Whether the scale regions of a control word reach into a range: block scales of one byte each, band scales of two bytes for 64 rows, the last row or band counted when it is partial. -/
def scalesMeet (s : State) (o ctl lo n : Nat) : Bool :=
  let elems := pfGet s (o + 8) 8 * 8 / fmtBits (bitsAt ctl 0 4)
  let meets (a m : Nat) : Bool := rangesMeet a m lo n
  let row := 2^(bitsAt ctl 16 4 + 5)
  let mode := bitsAt ctl 14 2
  (decide (1 ≤ mode) && meets (pfGet s (o + 24) 8) (elems / (8 * 2^bitsAt ctl 4 3))) ||
    (mode == 2 && meets (pfGet s (o + 32) 8) (2 * (((elems + row - 1) / row + 63) / 64)))

/-- The conditions under which a write that sets enable is taken. -/
def fmwMayEnable (s : State) (d : Fin 2) (c o ctl : Nat) : Bool :=
  let base := pfGet s o 8
  let size := pfGet s (o + 8) 8
  fmwLimits s o ctl && inStack d c base size && !scalesMeet s o ctl base size &&
    (List.range 128).all fun i =>
      let x := fmwOff (i / 64) (i / 16 % 4) (i % 16)
      x == o || bitsAt (pfGet s (x + 16) 8) 31 1 == 0 ||
        (let b := pfGet s x 8
         let n := pfGet s (x + 8) 8
         !(decide (b < base + size) && decide (base < b + n)) && !scalesMeet s o ctl b n)

/-- FMWCTL_WRITE. -/
def execFmwctlWrite (s : State) : Out :=
  .next (match s.ev with
    | .window d c w v =>
      let o := fmwOff d.val c.val w.val
      let old := pfGet s (o + 16) 8
      let new := (v &&& 0x800FCF7F).toNat
      let i := 64 * d.val + 16 * c.val + w.val
      if bitsAt old 30 1 = 1 then fmwRefuse s
      else if bitsAt old 31 1 = 1 then
        if bitsAt new 31 1 = 1 ∨ ctlLimits new = false then fmwRefuse s
        else
          let t := drawDevice (pfSet s (o + 16) 8 (new + 2^30))
          { t.2 with xl := { t.2.xl with discard := t.2.xl.discard ++ [(i, s.cycle + t.1)] } }
      else if bitsAt new 31 1 = 1 then (if fmwMayEnable s d c.val o new then pfSet s (o + 16) 8 new else fmwRefuse s)
      else if ctlLimits new = false then fmwRefuse s
      else pfSet s (o + 16) 8 new
    | _ => s)

/-- FMW_DISCARD_DONE. -/
def execFmwDiscardDone (s : State) : Out :=
  .next (match s.ev with
    | .window d c w _ =>
      let i := 64 * d.val + 16 * c.val + w.val
      match s.xl.discard.find? fun e => e.1 == i && decide (e.2 ≤ s.cycle) with
      | none => s
      | some x =>
        let o := fmwOff d.val c.val w.val
        pfSet { s with xl := { s.xl with discard := s.xl.discard.filter (· ≠ x) } } (o + 16) 8 ((BitVec.ofNat 64 (pfGet s (o + 16) 8)) &&& ~~~0x40000000).toNat
    | _ => s)

end Sys2Proof.Machine
end

