-- ==== Sys2Proof/Machine/Place.lean ====
section
/-! DEFINITION. Registers of the Reckoner block and of BAR0 as they are written and read (03 R40 to R42, 02 R28, R29, 17 R338), and the place block (04 R63 to R70). -/

namespace Sys2Proof.Machine

open Sys2Proof

/-! ## Plain registers: widths and writable bits (03 R41) -/

/-- Place in an array of registers. -/
def inArr (off base count stride : Nat) : Bool := decide (base ≤ off) && decide (off < base + count * stride) && (off - base) % stride == 0

/-- A mask of bits [hi:lo]. -/
def fieldMask (hi lo : Nat) : Nat := 2^(hi + 1) - 2^lo
def all64 : Nat := 2^64 - 1

/-- The register at an offset: widths it answers to, bits a plain write stores, bits a written one clears. A width the manual's table does not settle is 4 or 8. -/
def pfRule (off : Nat) : Option (List Nat × Nat × Nat) :=
  let fmw := (off - 0xC0000) % 0x800
  let inFmw (o : Nat) : Bool := decide (0xC0000 ≤ off) && decide (off < 0xC4000) && decide (fmw < 0x400) && fmw % 64 == o
  let mig (o : Nat) : Bool := inArr off (0xF3000 + o) 96 64
  if off = 0x10 then some ([4], 0xFFFFFFFF, 0)
  else if off = 0x18 then some ([8], all64, 0)
  else if off = 0x20 then some ([4, 8], 0, 1)
  else if off = 0x100 then some ([4, 8], 0, 0)
  else if off = 0x108 then some ([4], 0, 0)
  else if inArr off 0x80000 24 8 then some ([8], 0xFFFFFF0F7F7F, 0)
  else if inArr off 0x81000 208 8 then some ([8], fieldMask 39 0, 0)
  else if inArr off 0x82000 41 4 || inArr off 0x82100 41 4 then some ([4], 0x73F, 0)
  else if inArr off 0x82200 2 8 then some ([4, 8], 0xFFFFFF, 0)
  else if off = 0x82800 then some ([4, 8], 0, 1)
  else if inFmw 0 || inFmw 8 || inFmw 24 || inFmw 32 then some ([8], all64, 0)
  else if inFmw 16 then some ([8], 0x800FCF7F, 0)
  else if off = 0xC4000 then some ([4, 8], 0, 1)
  else if inArr off 0xE0000 40 8 || inArr off 0xE0200 40 8 then some ([8], fieldMask 63 63 + fieldMask 51 11, 0)
  else if inArr off 0xE0400 40 8 || inArr off 0xE0600 40 8 then some ([8], fieldMask 63 30, 0)
  else if inArr off 0xE0800 40 8 then some ([8], fieldMask 63 63 + fieldMask 27 0, 0)
  else if inArr off 0xE0C00 64 8 then some ([8], fieldMask 63 63 + fieldMask 21 16 + fieldMask 14 0, 0)
  else if off = 0xE1000 then some ([8], all64, 0)
  else if off = 0xE1008 then some ([4], 0x0F3F0000, 0)
  else if off = 0xE1010 then some ([4], 0, 3)
  else if off = 0xE1020 then some ([4, 8], 0x1FF, 0)
  else if inArr off 0xE1100 8 8 then some ([8], 0, all64)
  else if inArr off 0xE2000 2 0x40 then some ([8], fieldMask 51 16, 0)
  else if inArr off 0xE2008 2 0x40 then some ([4, 8], 0x7FFFFF, 0)
  else if inArr off 0xE2010 2 0x40 then some ([4], 0x3F00, 0)
  else if inArr off 0xE2018 2 0x40 then some ([8], 0, 1)
  else if inArr off 0xF0000 40 16 then some ([8], fieldMask 63 16, 0)
  else if inArr off 0xF0008 40 16 then some ([8], fieldMask 63 63 + fieldMask 39 16, 0)
  else if inArr off 0xF0400 40 16 then some ([8], all64, 0)
  else if inArr off 0xF0408 40 16 then some ([8], fieldMask 47 16 + fieldMask 7 0, 0)
  else if inArr off 0xF1000 40 16 then some ([8], all64, 0)
  else if inArr off 0xF1008 40 16 then some ([8], 0xF, 0)
  else if off = 0xF2000 then some ([8], all64, 0)
  else if off = 0xF2008 then some ([4, 8], 0, 0)
  else if off = 0xF2010 then some ([4, 8], 0xFF, 0)
  else if off = 0xF2018 then some ([4, 8], 0, 1)
  else if mig 0 then some ([4], 0x100, 0)
  else if mig 8 then some ([4, 8], 0, 1)
  else if mig 0x10 || mig 0x18 || mig 0x20 || mig 0x28 || mig 0x30 then some ([8], all64, 0)
  else if inArr off 0xF5000 40 32 then some ([8], all64, 0)
  else if inArr off 0xF5008 40 32 then some ([8], fieldMask 63 63 + fieldMask 51 32 + fieldMask 19 0, 0)
  else if inArr off 0xF5010 40 32 then some ([4, 8], 0, 0)
  else if inArr off 0xF5018 40 32 then some ([8], all64, 0)
  else if inArr off 0xF6000 1024 8 then some ([8], fieldMask 63 62 + fieldMask 57 56 + fieldMask 53 32 + fieldMask 8 0, 0)
  else if off = 0xF8000 then some ([8], 0, 0)
  else if off = 0xF8008 then some ([4], 0, 0)
  else if off = 0xF8010 then some ([8], 0, 0x100)
  else if inArr off 0xF8100 64 8 then some ([8], 0, 0)
  else if off = 0xF8300 ∨ off = 0xF8308 then some ([4, 8], 0xFFFF, 0)
  else if off = 0xF8310 then some ([4, 8], 0, 0)
  else none

/-- The writable bits of a byte of a byte-addressed record: partition records, session records, the session-match table, VFOWN. DESIGN CHOICE (log 63): a VFOWN byte that names a
partition above 39 is stored, and owns nothing. -/
def recordMask (off : Nat) : Option Nat :=
  if 0x10000 ≤ off ∧ off < 0x10A00 then
    let o := (off - 0x10000) % 64
    some (if o < 4 ∨ (8 ≤ o ∧ o < 12) ∨ (16 ≤ o ∧ o ≤ 18) ∨ (20 ≤ o ∧ o < 36) then 0xFF else 0)
  else if 0x20000 ≤ off ∧ off < 0x60000 then
    let o := (off - 0x20000) % 64
    some (if o = 0 then 3 else if o < 6 ∨ (8 ≤ o ∧ o < 15) ∨ (16 ≤ o ∧ o < 34) then 0xFF else 0)
  else if 0x60000 ≤ off ∧ off < 0x80000 then
    let o := off % 32
    some (if o = 0 then 7 else if o = 1 then 0 else 0xFF)
  else if 0x82400 ≤ off ∧ off < 0x82460 then some 0xBF
  else none

/-- An access of a size that a byte-addressed record takes. -/
def sizedAccess (off size : Nat) : Bool := (size == 1 || size == 2 || size == 4 || size == 8) && off % size == 0

/-- Store the accessed bytes of a record within their masks. -/
def writeRecord (s : State) (off : Nat) : List Byte → State
  | [] => s
  | b :: r =>
    let m : Byte := BitVec.ofNat 8 ((recordMask off).getD 0)
    writeRecord (pfPutBytes s off [(pfByte s off &&& ~~~m) ||| (b &&& m)]) (off + 1) r

/-- Store a register within its field rules. -/
def storeReg (s : State) (off size : Nat) (rw w1c val : Nat) : State :=
  let old : Word := BitVec.ofNat 64 (pfGet s off size)
  let m : Word := BitVec.ofNat 64 rw
  let v : Word := BitVec.ofNat 64 val
  pfSet s off size (((old &&& ~~~m) ||| (v &&& m)) &&& ~~~(v &&& BitVec.ofNat 64 w1c)).toNat

/-! ## Conditions on plain registers -/

/-- A write of a format window's register while it is enabled or busy, or that breaks the field's limit, is refused (08 R162): a size is a multiple of 64 KiB, of 192 KiB under a 6-bit format. -/
def fmwRegBad (s : State) (off val : Nat) : Bool :=
  let o := off - off % 64
  let ctl := pfGet s (o + 16) 8
  bitsAt ctl 31 1 == 1 || bitsAt ctl 30 1 == 1 || (off % 64 == 0 && val % 65536 ≠ 0) || (off % 64 == 8 && val % (if fmtBits (bitsAt ctl 0 4) = 6 then 196608 else 65536) ≠ 0) ||
    (off % 64 == 32 && val % 2 ≠ 0)

/-- After a write: a session record that becomes valid has sent nothing; be_target starts its count afresh (03 R42, R56); a rewritten context has a new connection. -/
def afterWrite (s0 s : State) (off size : Nat) : State :=
  if 0x20000 ≤ off ∧ off < 0x60000 ∧ off % 64 = 0 then
    let x := (off - 0x20000) / 64
    if bitsAt (pfGet s0 off 1) 0 1 = 0 ∧ bitsAt (pfGet s off 1) 0 1 = 1 then
      { s with rk := { s.rk with sess := Tbl.set ⟨false, 0⟩ s.rk.sess x ⟨false, 0⟩ } }
    else s
  else if 0x10000 ≤ off ∧ off < 0x10A00 ∧ (off - 0x10000) % 64 ≤ 35 ∧ 32 < (off - 0x10000) % 64 + size then
    let p := (off - 0x10000) / 64
    let d := Tbl.get ⟨0, 0, 0, 0, false⟩ s.rk.parts p
    setPartField { s with rk := { s.rk with parts := Tbl.set ⟨0, 0, 0, 0, false⟩ s.rk.parts p { d with beSince := BitVec.ofNat 64 (now s) } } } p 36 4 0
  else if inArr off 0xF6000 1024 8 then
    { s with net := { s.net with abandoned := s.net.abandoned.filter (· ≠ (off - 0xF6000) / 8) } }
  else s

/-- PSTAT.refused. -/
def refusePlace (s : State) : State := pfOr s 0x82800 4 1

/-- A write that the block ignores: in the place block, or over bytes of a partition's task range, it sets PSTAT.refused (04 R70). -/
def ignoreWrite (s : State) (off size : Nat) : State :=
  if (0x80000 ≤ off ∧ off < 0xC0000) ∨ (0x10000 ≤ off ∧ off < 0x10A00 ∧ (List.range size).any fun i => decide (40 ≤ (off + i) % 64) && decide ((off + i) % 64 < 44)) then refusePlace s
  else s

/-- A plain write of the Reckoner block. A live-migration operation other than those of 16 R332 is refused, log_en being stored. -/
def plainWrite (s : State) (off size val : Nat) : State :=
  match recordMask off with
  | some _ => if sizedAccess off size then afterWrite s (writeRecord s off (leBytes val size)) off size else ignoreWrite s off size
  | none =>
    match pfRule off with
    | none => ignoreWrite s off size
    | some (widths, rw, w1c) =>
      if !widths.contains size then ignoreWrite s off size
      else if 0xC0000 ≤ off ∧ off < 0xC4000 then
        if off % 64 = 16 then s else if fmwRegBad s off val then fmwRefuse s else pfSet s off 8 val
      else if (inArr off 0xF5000 40 32 || inArr off 0xF5018 40 32) && kvEnabled s ((off - 0xF5000) / 32) then s
      else if inArr off 0xF3000 96 64 then
        storeReg (pfOr s (off + 8) 4 1) off size rw w1c val
      else if inArr off 0xE2010 2 0x40 then pfOr s (off + 8) 8 1
      else afterWrite s (storeReg s off size rw w1c val) off size

/-- A plain write of a VF's BAR0. -/
def plainVfWrite (s : State) (v off size val : Nat) : State :=
  if off = 0x18 ∧ size = 4 then bar0Set s v 0x18 4 ((BitVec.ofNat 32 (bar0Get s v 0x18 4)) &&& ~~~(BitVec.ofNat 32 (val % 32))).toNat
  else if off = 0x20 ∧ size = 8 then (if bitsAt (bar0Get s v 0x28 4) 31 1 = 1 then s else bar0Set s v 0x20 8 val)
  else if off = 0x30 ∧ size = 4 then
    (if val % 2^32 < 2^(bar0Get s v 0x28 4 % 16) then bar0Set s v 0x30 4 (val % 4096) else s)
  else if off = 0x40 ∧ size = 4 then bar0Set s v 0x40 4 (val % 2^24)
  else s

/-- REGISTER_WRITE (03 R41): a register or record with no behaviour of its own, a VF's BAR0, a ring window, a command processor's ring. -/
def execRegisterWrite (s : State) : Out :=
  .next (match s.ev with
    | .reg sp off size v =>
      match sp with
      | .pf | .cpPf _ => plainWrite s off size v.toNat
      | .vf x => plainVfWrite s x.val off size v.toNat
      | .ring x => if off + size ≤ 2^18 ∧ size ≤ 8 then bar2PutBytes s (2^18 * x.val + off) (leBytes v.toNat size) else s
      | .cpRing c => if off + size ≤ 4096 ∧ size ≤ 8 then cpRingPutBytes s (4096 * c.val + off) (leBytes v.toNat size) else s
    | _ => s)

/-- What a read of the Reckoner block returns: zero for a wrong width or an unassigned offset. -/
def pfRead (s : State) (off size : Nat) : Nat :=
  if 0x10000 ≤ off ∧ off < 0x80000 ∨ 0x82400 ≤ off ∧ off < 0x82460 then (if sizedAccess off size then pfGet s off size else 0)
  else match pfRule off with
  | none => 0
  | some (widths, _, _) =>
    if !widths.contains size then 0
    else if h : inArr off 0xF8100 64 8 = true ∧ (off - 0xF8100) / 8 < 64 then
      pfGet s off 4 + (Config.monitorDie ⟨(off - 0xF8100) / 8, h.2⟩).val * 2^32
    else pfGet s off size

/-! ## Registers with behaviour of their own -/

/-- TADJ_WRITE (03 R40). -/
def execTadjWrite (s : State) : Out :=
  .next (match s.ev with
    | .val v =>
      if (sextNat (v.toNat % 2^32) 32).natAbs ≤ 0x20C49C then pfSet s 0x10 4 (v.toNat % 2^32) else pfOr s 0x20 4 1
    | _ => s)

/-- Every task-table entry is FREE. -/
def allFree (s : State) : Bool := s.rk.tasks.all fun e => e.2.st == .free

/-- TSET_WRITE (03 R40): loads device time while every entry is FREE. DESIGN CHOICE (log 58): the fraction and the kept remainder become 0, and the ports' timestamp units start anew. -/
def execTsetWrite (s : State) : Out :=
  .next (match s.ev with
    | .val v =>
      if allFree s then { (pfSet s 0x18 8 v.toNat) with devTime := v.toNat * 2^32, devRem := 0, net := { s.net with stamps := [] } } else pfOr s 0x20 4 1
    | _ => s)

/-- SVCBASE_WRITE (07 R144). -/
def execSvcbaseWrite (s : State) : Out :=
  .next (match s.ev with
    | .part p v => pfSet (pfSet s (0xF0400 + 16 * p.val) 8 v.toNat) (0xF0408 + 16 * p.val) 2 0
    | _ => s)

/-- Mark pages 0 to n − 1 of a pool free in its bitmap. -/
def kvFillMap (s : State) (p n : Nat) : State :=
  performBytes s (kvMap s p) ((List.range 131072).map fun i =>
    if 8 * i + 8 ≤ n then 0xFF else BitVec.ofNat 8 (2^(n - 8 * i) - 1))

/-- KVPCTL_WRITE (17 R348). -/
def execKvpctlWrite (s : State) : Out :=
  .next (match s.ev with
    | .part p v =>
      let o := kvOff p.val + 8
      let w := v.toNat
      let on : Bool := bitsAt w 63 1 = 1
      if kvEnabled s p.val then (if on then s else pfSet s o 8 (kvCtl s p.val % 2^63))
      else if on && (bitsAt w 0 20 = 0 || kvBase s p.val % 65536 ≠ 0 || decide (1 < ownerOf (kvBase s p.val))) then s
      else
        let s1 := storeReg s o 8 (fieldMask 63 63 + fieldMask 51 32 + fieldMask 19 0) 0 w
        if on then setKvFree (kvFillMap s1 p.val (bitsAt w 0 20)) p.val (bitsAt w 0 20) else s1
    | _ => s)

/-! ## Host rings (02 R28, R29) and completion queues (17 R338) -/

/-- An enable and log2_size register: its new value, and whether enable rises. -/
def ringCfg (old new : Nat) : Nat × Bool :=
  let was : Bool := bitsAt old 31 1 = 1
  let on : Bool := bitsAt new 31 1 = 1
  let lg := new % 16
  let keep : Bool := (was && on) || decide (lg < 4) || decide (12 < lg)
  ((if on then 2^31 else 0) + (if keep then old % 16 else lg), on && !was)

/-- QCFG_WRITE. -/
def execQcfgWrite (s : State) : Out :=
  .next (match s.ev with
    | .vfVal v x =>
      let r := ringCfg (bar0Get s v.val 0 4) x.toNat
      let s1 := bar0Set s v.val 0 4 r.1
      if r.2 then bar0Set (bar0Set s1 v.val 8 4 0) v.val 0x10 4 0 else s1
    | _ => s)

/-- QTAIL_WRITE. -/
def execQtailWrite (s : State) : Out :=
  .next (match s.ev with
    | .vfVal v x =>
      let cfg := bar0Get s v.val 0 4
      if bitsAt cfg 31 1 = 0 ∨ 2^(cfg % 16) ≤ x.toNat then bar0Set s v.val 0x18 4 ((BitVec.ofNat 32 (bar0Get s v.val 0x18 4)) ||| 1).toNat
      else bar0Set s v.val 8 4 x.toNat
    | _ => s)

/-- CQCFG_WRITE. -/
def execCqcfgWrite (s : State) : Out :=
  .next (match s.ev with
    | .vfVal v x =>
      let r := ringCfg (bar0Get s v.val 0x28 4) x.toNat
      let s1 := bar0Set s v.val 0x28 4 r.1
      if r.2 then bar0Set (bar0Set s1 v.val 0x30 4 0) v.val 0x38 4 0x10000 else s1
    | _ => s)

/-! ## The place block -/


/-- A Rod-unit holds a running pass: its own, or a joined one of its Rod. -/
def unitRuns (s : State) (q : Nat) : Bool :=
  (seqOf s q).run.isSome || (q % 2 == 1 && widthOf (seqOf s (q - 1)) == 8)

/-- A Rod-unit holds a suspended pass: a slot of its own, or of a joined pass of its Rod. -/
def unitSaved (s : State) (q : Nat) : Bool :=
  s.rk.saved.any fun e => e.1 / 8 == q || (q % 2 == 1 && e.1 / 8 == q - 1 && widthOf e.2.seq == 8)

/-- Fields of eight 3-bit numbers are a permutation. -/
def isPerm8 (x : Nat) : Bool := (List.range 8).all fun i => (List.range 8).any fun g => bitsAt x (3 * g) 3 == i

/-- The pool of a core is zeroed. -/
def zeroPool (c : Core) : Core := { c with win := [], scratch := [], scrTaint := [], acc := [], accTaint := [], launch := 0 }

/-- Zero the pool of a half of a Rod, ready 2048 cycles on (04 R66, 03 R62). -/
def zeroHalf (s : State) (q : Nat) : State :=
  let s1 := (List.range 4).foldl (fun s p => modCore s (coreOf s q p) zeroPool) s
  { s1 with rk := { s1.rk with notBefore := Tbl.set 0 s1.rk.notBefore q (s.cycle + 2048) } }

/-- Why a write of ROWN[n] is ignored (04 R65). -/
def rownBad (s : State) (n new : Nat) : Bool :=
  let old := rown s n
  let changed (h : Nat) : Bool := bitsAt old (8 * h) 7 ≠ bitsAt new (8 * h) 7
  let held (h : Nat) : Bool := unitRuns s (2 * n + h) || unitSaved s (2 * n + h)
  (changed 0 && held 0) || (changed 1 && held 1) ||
    ((bitsAt old 16 4 ≠ bitsAt new 16 4 || bitsAt old 24 24 ≠ bitsAt new 24 24) && (unitRuns s (2 * n) || unitRuns s (2 * n + 1))) ||
    decide (12 < bitsAt new 16 4) ||
    ((List.range 12).any fun i => n / 12 * 12 + i ≠ n && bitsAt (rown s (n / 12 * 12 + i)) 16 4 == bitsAt new 16 4) ||
    !isPerm8 (bitsAt new 24 24) || decide (39 < bitsAt new 0 6) || decide (39 < bitsAt new 8 6)

/-- ROWN_WRITE: taken whole or ignored whole; a half that changes its owner has its pool zeroed. DESIGN CHOICE (log 62): where the same write changes phys_rod or bead_map, it is the pool of the
physical cores that the half has from then on. -/
def execRownWrite (s : State) : Out :=
  .next (match s.ev with
    | .rod n v =>
      let new := (v &&& 0xFFFFFF0F7F7F).toNat
      let old := rown s n.val
      if rownBad s n.val new then refusePlace s
      else
        let s1 := pfSet s (0x80000 + 8 * n.val) 8 new
        let z (h : Nat) (s : State) : State := if bitsAt old (8 * h) 6 ≠ bitsAt new (8 * h) 6 then zeroHalf s (2 * n.val + h) else s
        z 1 (z 0 s1)
    | _ => s)

/-- The Rod-unit whose half holds a physical core, if any. -/
def unitOfCore (s : State) (c : Nat) : Option Nat := (List.range 48).find? fun q => (List.range 4).any fun p => coreOf s q p == c

/-- CPLACE_WRITE: every 4-bit value is at most 8 and the core's half holds no pass; the window file is zeroed. DESIGN CHOICE (log 56): an error names the core and not the cluster or
bank that failed, so a write that changes the core's map excludes it (16 R330). -/
def execCplaceWrite (s : State) : Out :=
  .next (match s.ev with
    | .coreVal c v =>
      let bad := (List.range 10).any fun i => decide (8 < bitsAt v.toNat (4 * i) 4)
      let busy := match unitOfCore s c.val with
        | some q => unitRuns s q || unitSaved s q
        | none => false
      if bad || busy then refusePlace s
      else
        let s1 := pfSet s (0x81000 + 8 * c.val) 8 (v.toNat % 2^40)
        let s2 := if pfGet s (0x81000 + 8 * c.val) 8 = v.toNat % 2^40 then s1
          else { s1 with rk := { s1.rk with retired := s1.rk.retired.filter (· ≠ (1, c.val)) } }
        modCore s2 c.val fun x => { x with win := [] }
    | _ => s)

def l2Off (d t : Nat) : Nat := 0x82000 + 256 * d + 4 * t

/-- L2SR_WRITE: the change is applied while busy stands (04 R69). DESIGN CHOICE (log 61): a write of the present value is a change too. -/
def execL2srWrite (s : State) : Out :=
  .next (match s.ev with
    | .l2 d t v =>
      let o := l2Off d.val t.val
      let lsz := bitsAt v.toNat 8 3
      let base := bitsAt v.toNat 0 6
      if bitsAt (pfGet s o 4) 31 1 = 1 ∨ 6 < lsz ∨ base % 2^lsz ≠ 0 then refusePlace s
      else
        let x := drawDevice (pfOr s o 4 (2^31))
        { x.2 with xl := { x.2.xl with l2change := x.2.xl.l2change ++ [(d.val, t.val, lsz * 256 + base, s.cycle + x.1)] } }
    | _ => s)

/-- L2SR_CHANGE_DONE: the new value takes effect, busy clears, and what has waited for it goes on. -/
def execL2srChangeDone (s : State) : Out :=
  .next (match s.ev with
    | .l2 d t _ =>
      match s.xl.l2change.find? fun e => e.1 == d.val && e.2.1 == t.val && decide (e.2.2.2 ≤ s.cycle) with
      | none => s
      | some x => releaseWrites (pfSet { s with xl := { s.xl with l2change := s.xl.l2change.filter (· ≠ x) } } (l2Off d.val t.val) 4 x.2.2.1)
    | _ => s)

/-- CGPLACE_WRITE: a permutation, and no frame of the die has left FREE since reset (04 R70). -/
def execCgplaceWrite (s : State) : Out :=
  .next (match s.ev with
    | .dieVal d v =>
      if isPerm8 (v.toNat % 2^24) && !s.xl.left.contains d.val then pfSet s (0x82200 + 8 * d.val) 8 (v.toNat % 2^24) else refusePlace s
    | _ => s)

/-- Whether a task range is invalid for a partition (03 R42). -/
def rangeBad (s : State) (p base count : Nat) : Bool :=
  let inside (b n i : Nat) : Bool := decide (b ≤ i) && decide (i < b + n)
  decide (8192 < base + count) ||
    ((List.range 40).any fun q => q ≠ p &&
      (let b := partField s q 40 2
       let n := partField s q 42 2
       count ≠ 0 && n ≠ 0 && decide (base < b + n) && decide (b < base + count))) ||
    s.rk.tasks.any fun e => e.2.st ≠ .free && inside (partField s p 40 2) (partField s p 42 2) e.1 && !inside base count e.1

/-- TASK_RANGE_WRITE: a write that covers task_base or task_count; the other bytes it covers keep their rules. -/
def execTaskRangeWrite (s : State) : Out :=
  .next (match s.ev with
    | .taskRange p off size v =>
      let a := 0x10000 + 64 * p.val
      let bs := leBytes v.toNat size.val
      let get (i : Nat) : Nat := (if off.val ≤ i ∧ i < off.val + size.val then bs.getD (i - off.val) 0 else pfByte s (a + i)).toNat
      let base := get 40 + 256 * get 41
      let count := get 42 + 256 * get 43
      let same : Bool := base = partField s p.val 40 2 ∧ count = partField s p.val 42 2
      if !same && rangeBad s p.val base count then refusePlace s
      else
        let s1 := afterWrite s (writeRecord s (a + off.val) bs) (a + off.val) size.val
        setPartField (setPartField s1 p.val 40 2 base) p.val 42 2 count
    | _ => s)

end Sys2Proof.Machine
end

