-- ==== Sys2Proof/Machine/EngineForms.lean ====
section
/-! DEFINITION. The network forms (11 R240), the sampling, KV and Tithe forms (17 R341) and LAUNCH and RELEASE (02 R34 to R36), as they issue. -/

namespace Sys2Proof.Machine

open Sys2Proof

/-- Issue a command whose predicate allows it; its descriptor is checked when the command runs. -/
def runDesc (path : Nat) (k : Nat → AKind) (f : MDesc) (s : State) : State :=
  let c := curCore s
  if predMet c f.p then issueOp s path true (predTaint c f.p || baseTaint c f.base) (k (memAddr c f.base f.imm 64)) else s

def execNsend (f : MDesc) (s : State) : Out := .next (runDesc 4 (.net 0 f.dst) f s)
def execNrecv (f : MDesc) (s : State) : Out := .next (runDesc 4 (.net 1 f.dst) f s)
def execNcoll (f : MDesc) (s : State) : Out := .next (runDesc 4 (.net 2 f.dst) f s)
def execSelacc (f : MDesc) (s : State) : Out := .next (runDesc 5 (.sel f.dst) f s)
def execTithe (f : MDesc) (s : State) : Out := .next (runDesc 5 (.tithe 0 f.dst) f s)
def execTmap (f : MDesc) (s : State) : Out := .next (runDesc 5 (.tithe 1 f.dst) f s)
def execTclrd (f : MDesc) (s : State) : Out := .next (runDesc 5 (.tithe 2 f.dst) f s)

/-- The register after a base register. -/
def nextReg (r : Fin 32) : Fin 32 := ⟨(r.val + 1) % 32, Nat.mod_lt _ (by decide)⟩

/-- The taint of a register pair and the predicate. -/
def pairTaint (c : Core) (f : MPair) : Bool := (readS c (.n f.base)).t || (readS c (.n (nextReg f.base))).t || predTaint c f.p

/-- DRAW reads its pair and the key words g14 and g15 at issue (17 R345). -/
def execDraw (f : MPair) (s : State) : Out :=
  let c := curCore s
  .next (if predMet c f.p then
    issueOp s 5 true (pairTaint c f || (readS c (.g 14)).t || (readS c (.g 15)).t)
      (.draw f.dst (readV64 c (.n f.base)) (readV64 c (.n (nextReg f.base))) (readV64 c (.g 14)) (readV64 c (.g 15)))
  else s)

/-- KVALLOC and KVFREE: the record's address and the count. -/
def runKv (opc : Nat) (f : MPair) (s : State) : State :=
  let c := curCore s
  if predMet c f.p then
    issueOp s 5 true (pairTaint c f) (.kv opc f.dst (readV64 c (.n f.base)) (readV64 c (.n (nextReg f.base))))
  else s

def execKvalloc (f : MPair) (s : State) : Out := .next (runKv 0 f s)
def execKvfree (f : MPair) (s : State) : Out := .next (runKv 1 f s)
/-- KVCOUNT's result is tainted (17 R351). -/
def execKvcount (f : MKvcount) (s : State) : Out :=
  .next (if predMet (curCore s) f.p then issueOp s 5 true true (.kv 2 f.dst 0 0) else s)

/-- LAUNCH: a misaligned descriptor is answered in the status; else its read faults as a load does (02 R35). -/
def launchTrap (f : MDesc) (s : State) : Option Nat :=
  let va := memAddr (curCore s) f.base f.imm 64
  if predMet (curCore s) f.p ∧ va % 64 = 0 then descTrap s va 64 else none

def execLaunch (f : MDesc) (s : State) : Out :=
  let c := curCore s
  .next (if !predMet c f.p then s
    else orTrap s (launchTrap f s)
      (issueOp s 5 true (predTaint c f.p || baseTaint c f.base) (.launch f.dst (memAddr c f.base f.imm 64))))

/-- RELEASE: the time is the device time of the issue plus the delay (02 R35). -/
def execRelease (f : MRelease) (s : State) : Out :=
  let c := curCore s
  .next (if predMet c f.p then
    issueOp s 5 true (predTaint c f.p || (readS c f.task).t)
      (.release f.dst (readV64 c f.task) (BitVec.ofNat 64 (now s + f.delay.toNat)))
  else s)

end Sys2Proof.Machine
end

