-- ==== Sys2Proof/Machine/JetForms.lean ====
section
/-! DEFINITION. The jet-only rows (10 R210 to R212). -/

namespace Sys2Proof.Machine

open Sys2Proof

/-- A raw coefficient move into a group. -/
def rawGroup (s : State) (m : Fin 8) (dst : Nat) (srcs : List TVec) (f : Nat → Nat → Nat) : State :=
  let c := curCore s
  emitJet s 3 dst (ordOf c + 1) (taintOf srcs ||| laneGuardTaint c m) (active c m) fun i => raw ((List.range (ordOf c + 1)).map (f i))

def execJseed (f : JBin) (s : State) : Out :=
  let c := curCore s
  let x := readW c f.a.val
  let y := readW c f.b.val
  .next (jetSlot s [f.dst.val] false fun s =>
    rawGroup s f.m f.dst.val [x, y] fun i n => if n = 0 then laneNat x i else if n = 1 then laneNat y i else 0)

def execJconst (f : JUn) (s : State) : Out :=
  let x := readW (curCore s) f.a.val
  .next (jetSlot s [f.dst.val] false fun s => rawGroup s f.m f.dst.val [x] fun i n => if n = 0 then laneNat x i else 0)

/-- JGET: one coefficient, or +0 above the order, into one register. -/
def execJget (f : JIdx) (s : State) : Out :=
  let c := curCore s
  let g := readGroup c f.a.val
  .next (jetSlot s [f.a.val] false fun s =>
    emitJet s 3 f.dst.val 1 (taintOf g ||| laneGuardTaint c f.m) (active c f.m) fun i => raw [nth (laneGroup g i) f.i.val])

/-- JPUT: one coefficient of the group, if it is within the order. -/
def execJput (f : JIdx) (s : State) : Out :=
  let c := curCore s
  let x := readW c f.a.val
  .next (jetSlot s [f.dst.val] false fun s =>
    if f.i.val ≤ ordOf c then
      emitJet s 3 (f.dst.val + f.i.val) 1 (x.t ||| laneGuardTaint c f.m) (active c f.m) fun i => raw [laneNat x i]
    else s)

def execJder (f : JDerF) (s : State) : Out :=
  let c := curCore s
  .next (jetSlot s [f.dst.val, f.a.val] false fun s =>
    runJet s f.m f.dst.val (4 + ordOf c) [readGroup c f.a.val] fun g => jetDer (rndOf c) f.inv (g.getD 0 []))

/-- JSHIFT: coefficients move by s places, +0 coming in. -/
def execJshift (f : JShiftF) (s : State) : Out :=
  let c := curCore s
  let g := readGroup c f.a.val
  .next (jetSlot s [f.dst.val, f.a.val] false fun s =>
    rawGroup s f.m f.dst.val g fun i n =>
      if f.up then (if f.s.val ≤ n then nth (laneGroup g i) (n - f.s.val) else 0) else nth (laneGroup g i) (n + f.s.val))

def execJscale (f : JBin) (s : State) : Out :=
  let c := curCore s
  .next (jetSlot s [f.dst.val, f.a.val] false fun s =>
    runJet s f.m f.dst.val (4 + ordOf c) [readGroup c f.a.val, [readW c f.b.val]] fun g =>
      jetScale (rndOf c) (g.getD 0 []) (nth (g.getD 1 []) 0))

def execJdiv (f : JBin) (s : State) : Out :=
  let c := curCore s
  .next (jetSlot s [f.dst.val, f.a.val, f.b.val] true fun s =>
    runJet s f.m f.dst.val (6 + 2 * ordOf c) [readGroup c f.a.val, readGroup c f.b.val] fun g =>
      jetDiv (rndOf c) (ordOf c) (g.getD 0 []) (g.getD 1 []))

def execJpowi (f : JPowF) (s : State) : Out :=
  let c := curCore s
  .next (jetSlot s [f.dst.val, f.a.val] true fun s =>
    runJet s f.m f.dst.val (8 + 2 * ordOf c) [readGroup c f.a.val] fun g => jetPow (rndOf c) (ordOf c) (g.getD 0 []) f.p.toInt)

/-- JFLAG.clear: in the copies of the enabled clusters, for the third bundle on (10 R212). -/
def execJflagClear (a : SOp) (s : State) : Out :=
  let c := curCore s
  .next (if c.parked then s else emit s 3 (.jclear ((readV64 c a).truncate 40) c.cmk))

/-- JFLAG.get: each enabled cluster's copy in its lanes 0 and 1, zeros in the others. -/
def execJflagGet (d : Fin 232) (s : State) : Out :=
  let c := curCore s
  let r := eachLane (enabled c) fun i =>
    let fl := (Tbl.get 0 c.jflg (i / 16)).toNat
    (if i % 16 = 0 then bitsAt fl 0 32 else if i % 16 = 1 then bitsAt fl 32 8 else 0, 0)
  .next (if c.parked then s else emitVec s 3 (.v d) r.1 (ctlLanes c) (enabled c) 0)

end Sys2Proof.Machine
end

