-- ==== Sys2Proof/Machine/MemForms.lean ====
section
/-! DEFINITION. Loads, stores, vector accesses, gathers and scatters, prefetch, stream forms, the copy engine's forms, cache maintenance and migrations, as they issue (11 R222 to R237). -/

namespace Sys2Proof.Machine

open Sys2Proof

/-! ## Scalar loads and stores (11 R222, R223) -/

/-- The code a scalar load raises at issue. -/
def ldTrap (f : MLd) (n : Nat) (s : State) : Option Nat :=
  if predMet (curCore s) f.p then accessTrap s false (memAddr (curCore s) f.base f.imm n) n n else none

/-- The value a load writes: zero- or sign-extended to 64 bits. -/
def extendTo (signed : Bool) (n v : Nat) : Word := if signed then BitVec.ofInt 64 (sextNat v (8 * n)) else BitVec.ofNat 64 (v % 2^(8 * n))

/-- A scalar load: from the scratchpad it reads at issue and lands after 6 bundles; else it is asynchronous. -/
def runLoad (f : MLd) (n : Nat) (signed : Bool) (s : State) : State :=
  let c := curCore s
  let va := memAddr c f.base f.imm n
  let t := predTaint c f.p || baseTaint c f.base
  if !predMet c f.p then s
  else orTrap s (ldTrap f n s) (
    if isLocal va then
      let off := va % 2^60
      countLocal (emit s 6 (.scalar f.dst ⟨extendTo signed n (leOf (scrRead c off n)), t || scrTainted c off n⟩))
    else issueOp s 0 false t (.load f.dst va n signed false f.na))

def execLd8u (f : MLd) (s : State) : Out := .next (runLoad f 1 false s)
def execLd16u (f : MLd) (s : State) : Out := .next (runLoad f 2 false s)
def execLd32u (f : MLd) (s : State) : Out := .next (runLoad f 4 false s)
def execLd64 (f : MLd) (s : State) : Out := .next (runLoad f 8 false s)
def execLd8s (f : MLd) (s : State) : Out := .next (runLoad f 1 true s)
def execLd16s (f : MLd) (s : State) : Out := .next (runLoad f 2 true s)
def execLd32s (f : MLd) (s : State) : Out := .next (runLoad f 4 true s)

/-- The value a store carries, read at issue, with its taint (15 R309). -/
def storeData (c : Core) (p : Fin 8) (data base : SOp) : TWord :=
  ⟨readV64 c data, (readS c data).t || baseTaint c base || predTaint c p⟩

/-- The code a scalar store raises at issue. -/
def stTrap (f : MSt) (n : Nat) (s : State) : Option Nat :=
  let c := curCore s
  if predMet c f.p then storeTrap s (memAddr c f.base f.imm n) n n (storeData c f.p f.data f.base).t else none

def runStore (f : MSt) (n : Nat) (s : State) : State :=
  let c := curCore s
  if !predMet c f.p then s
  else orTrap s (stTrap f n s)
    (issueOp s 0 true false (.store (memAddr c f.base f.imm n) n (storeData c f.p f.data f.base) false))

def execSt8 (f : MSt) (s : State) : Out := .next (runStore f 1 s)
def execSt16 (f : MSt) (s : State) : Out := .next (runStore f 2 s)
def execSt32 (f : MSt) (s : State) : Out := .next (runStore f 4 s)
def execSt64 (f : MSt) (s : State) : Out := .next (runStore f 8 s)

/-! ## Vector accesses (11 R224, R225) -/

/-- The active lanes of a mask, ascending. -/
def lanesOf (m : LaneMask) : List Nat := (List.range 128).filter fun i => bitOf m i

/-- VLD and VST check the whole 512 bytes, or with no active lane the alignment and the owner code alone. -/
def vaccTrap (f : MVec) (store : Bool) (s : State) : Option Nat :=
  let c := curCore s
  let va := memAddr c f.base f.imm 512
  if c.parked then none
  else if active c f.m = 0 then addrTrap s (curPword s) (runTask s s.cur.unit).det va 512 64
  else match accessTrap s store va 512 64 with
    | some code => some code
    | none =>
      let t := baseTaint c f.base
      let a := readW c f.reg.val
      if store && (lanesOf (active c f.m)).any (fun i => outTrap s (curPart s) (va + 4 * i) 4 (t || bitOf (a.t ||| laneGuardTaint c f.m) i))
      then some 0x0403 else none

/-- Read lanes of the scratchpad: lane and byte offset. -/
def scrLanes (c : Core) (l : List (Nat × Nat × Bool)) : TVec :=
  l.foldl (fun (a : TVec) e =>
    let off := e.2.1 % 2^60
    ⟨a.v ||| (BitVec.ofNat 4096 (leOf (scrRead c off 4)) <<< (32 * e.1)),
     if e.2.2 || scrTainted c off 4 then a.t ||| (1 <<< e.1) else a.t⟩) ⟨0, 0⟩

/-- Deliver a vector load of lanes: from the scratchpad after 6 bundles into the window and the vector queue, else asynchronously; with no lane nothing is accessed. -/
def loadLanes (f : MVec) (local_ : Bool) (lanes : LaneMask) (l : List (Nat × Nat × Bool)) (s : State) : State :=
  let c := curCore s
  if local_ then
    let s1 := emit s 6 (.vec (physW c f.reg.val) (scrLanes c l) lanes)
    if l = [] then s1 else countLocal s1
  else if l = [] then s
  else issueOp s 0 false false (.vload (physW c f.reg.val) l f.na)

def execVld (f : MVec) (s : State) : Out :=
  let c := curCore s
  let va := memAddr c f.base f.imm 512
  let lanes := active c f.m
  let t := laneGuardTaint c f.m
  .next (if c.parked then s
    else orTrap s (vaccTrap f false s)
      (loadLanes f (isLocal va) lanes ((lanesOf lanes).map fun i => (i, va + 4 * i, bitOf t i || baseTaint c f.base)) s))

/-- Issue a store of lanes; with no lane nothing is stored. -/
def storeLanes (l : List (Nat × Lane × Bool)) (s : State) : State :=
  if l = [] then s else issueOp s 0 true false (.vstore l)

def execVst (f : MVec) (s : State) : Out :=
  let c := curCore s
  let va := memAddr c f.base f.imm 512
  let a := readW c f.reg.val
  let t := a.t ||| laneGuardTaint c f.m
  .next (if c.parked then s
    else orTrap s (vaccTrap f true s)
      (storeLanes ((lanesOf (active c f.m)).map fun i => (va + 4 * i, laneOf a.v i, bitOf t i || baseTaint c f.base)) s))

/-- The word address of a lane: the base plus an unsigned word offset (11 R225). -/
def laneVa (base : Nat) (off : Lane) : Nat := (base + 4 * off.toNat) % 2^64

/-- The check of a gather or scatter: every lane aligned and of the base's owner. -/
def gatherTrap (s : State) (store : Bool) (base : Nat) (l : List (Nat × Bool)) : Option Nat :=
  if base % 4 ≠ 0 then some 0x0207
  else if ownerOf base ≠ 0xF ∧ ownerOf base ≠ 0 ∧ ownerOf base ≠ 1 ∧ ownerOf base ≠ 4 ∧ ownerOf base ≠ 8 then some 0x0203
  else l.foldl (fun a e =>
    match a with
    | some code => some code
    | none =>
      if ownerOf e.1 ≠ ownerOf base then some 0x0203
      else if store then storeTrap s e.1 4 4 e.2 else accessTrap s false e.1 4 4) none

/-- The lanes that a gather reads: lane, address and the taint of its offset and guard. -/
def gathLanes (f : MVec) (s : State) : List (Nat × Nat × Bool) :=
  let c := curCore s
  let d := readW c f.reg.val
  (lanesOf (active c f.m)).map fun i =>
    (i, laneVa (memAddr c f.base f.imm 4) (laneOf d.v i), bitOf (d.t ||| laneGuardTaint c f.m) i || baseTaint c f.base)

def gathTrap (f : MVec) (s : State) : Option Nat :=
  if (curCore s).parked then none
  else gatherTrap s false (memAddr (curCore s) f.base f.imm 4) ((gathLanes f s).map fun e => (e.2.1, e.2.2))

def execVgath (f : MVec) (s : State) : Out :=
  let c := curCore s
  .next (if c.parked then s
    else orTrap s (gathTrap f s) (loadLanes f (isLocal (memAddr c f.base f.imm 4)) (active c f.m) (gathLanes f s) s))

/-- The lanes that a scatter stores: values in d, offsets in d + 1, ascending. -/
def scatLanes (f : MVec) (s : State) : List (Nat × Lane × Bool) :=
  let c := curCore s
  let d := readW c f.reg.val
  let o := readW c (f.reg.val + 1)
  (lanesOf (active c f.m)).map fun i =>
    (laneVa (memAddr c f.base f.imm 4) (laneOf o.v i), laneOf d.v i, bitOf (d.t ||| o.t ||| laneGuardTaint c f.m) i || baseTaint c f.base)

def scatTrap (f : MVec) (s : State) : Option Nat :=
  if (curCore s).parked then none
  else gatherTrap s true (memAddr (curCore s) f.base f.imm 4) ((scatLanes f s).map fun e => (e.1, e.2.2))

def execVscat (f : MVec) (s : State) : Out :=
  .next (if (curCore s).parked then s else orTrap s (scatTrap f s) (storeLanes (scatLanes f s) s))

/-! ## Prefetch (11 R226) and the idle slot -/

/-- MNOP, the idle memory/engine slot (05 R86). -/
def execMnop (s : State) : Out := .next s

/-- PRF changes no value that any load can return. Which lines lie in a cache is not state of this model for C-die memory, and no L1 copy is made. -/
def execPrf (_f : MAddr) (s : State) : Out := .next s

/-! ## Streams (11 R227, R230) -/

/-- A stream register right after SBIND or SUNBIND: the old input buffer is discarded; written elements of an output stream go on to memory by themselves. -/
def Stream.fresh (bound : Bool) (addr : Nat) (slack : Nat) : Stream :=
  { Stream.unset with bound := bound, addr := BitVec.ofNat 64 addr, slack := slack }

/-- The position that SPOS of the running bundle reads: an SBIND or SUNBIND of its own bundle does not count yet (11 R230). -/
def posOf (c : Core) (z : Nat) : Nat :=
  match (streamOf c z).prior with
  | some (b, n) => if b = c.bundleNo then n else (streamOf c z).position
  | none => (streamOf c z).position

/-- Replace a stream's binding on a core; accesses of the old binding still in flight no longer move the position. -/
def rebind (z : Fin 8) (x0 : Stream) (c : Core) : Core :=
  let x := { x0 with prior := some (c.bundleNo, posOf c z.val) }
  setStream { c with inflight := c.inflight.filter (fun l => l.kind ≠ .advance z),
                     ops := c.ops.filter (fun o => match o.kind with
                       | .bind z' _ _ => z' ≠ z
                       | _ => true) } z.val x

def sbindTrap (f : MBind) (s : State) : Option Nat :=
  let c := curCore s
  if c.parked then none else accessTrap s false (memAddr c f.base f.imm 64) 64 64

/-- SBIND: the stream is bound to a descriptor whose read is on path GA. -/
def execSbind (f : MBind) (s : State) : Out :=
  let c := curCore s
  let va := memAddr c f.base f.imm 64
  .next (if c.parked then s
    else orTrap s (sbindTrap f s)
      (issueOp (modCur s (rebind f.z (Stream.fresh true va 0))) 3 false false (.bind f.z va false)))

/-- SUNBIND: a later access traps. -/
def execSunbind (z : Fin 8) (s : State) : Out :=
  .next (if (curCore s).parked then s else modCur s (rebind z (Stream.fresh false 0 0)))

/-- SPOS: the position, counting the accesses of the bundles before this one. -/
def execSpos (f : MSpos) (s : State) : Out :=
  let c := curCore s
  .next (if predMet c f.p then emit s 1 (.reg f.dst ⟨BitVec.ofNat 64 (posOf c f.z.val), predTaint c f.p⟩) else s)

/-! ## The copy engine (11 R232, R235) -/

/-- The descriptor read of a copy command is on path CP, for all three forms (11 R232). -/
def copyTrap (f : MDesc) (s : State) : Option Nat :=
  if !predMet (curCore s) f.p then none else descTrap s (memAddr (curCore s) f.base f.imm 64) 1

/-- Issue a copy command: its descriptor read faults as a load does. What COPYP reads and writes beside it goes on path GA (14 R284). -/
def runCopy (opc path : Nat) (f : MDesc) (s : State) : State :=
  let c := curCore s
  if !predMet c f.p then s
  else orTrap s (copyTrap f s)
    (issueOp s path false (predTaint c f.p || baseTaint c f.base) (.copy opc f.dst (memAddr c f.base f.imm 64)))

def execCopy (f : MDesc) (s : State) : Out := .next (runCopy 0 1 f s)
def execCopyp (f : MDesc) (s : State) : Out := .next (runCopy 1 3 f s)
def execFill (f : MDesc) (s : State) : Out := .next (runCopy 2 1 f s)

/-! ## Cache maintenance (11 R236) -/

def cacheTrap (f : MAddr) (s : State) : Option Nat :=
  let c := curCore s
  let va := memAddr c f.base f.imm 64
  if predMet c f.p && !isLocal va then accessTrap s false (va / 64 * 64) 64 1 else none

/-- Issue a cache operation; at the scratchpad it does nothing and completes at once. -/
def runCache (opc : Nat) (f : MAddr) (s : State) : State :=
  let c := curCore s
  let va := memAddr c f.base f.imm 64
  if !predMet c f.p || isLocal va then s
  else orTrap s (cacheTrap f s) (issueOp s 7 false false (.cache opc va))

def execCflush (f : MAddr) (s : State) : Out := .next (runCache 0 f s)
def execCinv (f : MAddr) (s : State) : Out := .next (runCache 1 f s)
def execCclean (f : MAddr) (s : State) : Out := .next (runCache 2 f s)

/-! ## Migrations (11 R237) -/

def migrTrap (f : MMigr) (s : State) : Option Nat :=
  let c := curCore s
  let va := memAddr c f.base f.imm 64
  if !predMet c f.p then none
  else if 2^32 ≤ (readV64 c f.t).toNat then some 0x0302
  else if 1 < ownerOf va then some 0x0203
  else addrTrap s (curPword s) (runTask s s.cur.unit).det va 1 1

/-- MIGR asks for a page and never freezes. -/
def execMigr (f : MMigr) (s : State) : Out :=
  let c := curCore s
  .next (if !predMet c f.p then s
    else orTrap s (migrTrap f s) (issueOp s 7 false false (.migr (memAddr c f.base f.imm 64) (readV64 c f.t).toNat)))

end Sys2Proof.Machine
end

