-- ==== Sys2Proof/Machine/Sync.lean ====
section
/-! DEFINITION. Fences, drains, acquire and release, reductions and atomics (14 R290 to R299), barriers, supersteps and the taint forms (15 R301 to R305), as they issue. -/

namespace Sys2Proof.Machine

open Sys2Proof

/-! ## Fences and drains -/

/-- The place of a fence in program order: operations numbered from here come after it, among them the stream elements requested before the next bundle issues. -/
def fenceBound (s : State) : Nat := 4 * (curCore s).bundleNo + 3 * (s.cur.slot.val - 6)

/-- FENCE.X (14 R290): later-path accesses from here wait for first-path accesses before it. -/
def execFenceX (f : MFence) (s : State) : Out :=
  .next (if predMet (curCore s) f.p then
    modCur s fun c => { c with fences := c.fences ++ [⟨fenceBound s, f.first.val, f.later.val⟩] }
  else s)

/-- FENCE.OWN (14 R292) costs no cycle: FENCE.FAR's serialise finds every access of earlier bundles issued ahead of those of later bundles, as every core of this model issues them. -/
def execFenceOwn (_f : MPred) (s : State) : Out := .next s

/-- FENCE.FAR checks its address as a one-byte load and wants C-die memory. -/
def farTrap (f : MAddr) (s : State) : Option Nat :=
  let c := curCore s
  let va := memAddr c f.base f.imm 64
  if !predMet c f.p then none
  else if 1 < ownerOf va then some 0x0203
  else accessTrap s false va 1 1

/-- FENCE.FAR (14 R292): the Rod freezes until every core of the partition has acknowledged. -/
def execFenceFar (f : MAddr) (s : State) : Out :=
  let c := curCore s
  .next (if !predMet c f.p then s
    else orTrap s (farTrap f s) (issueOp s 0 false false (.far (memAddr c f.base f.imm 64))))

/-- Drop every L1 copy that a core holds (14 R289). -/
def dropL1 (c : Core) : Core := { c with l1 := [] }

/-- DRAIN (14 R291): the Rod freezes until every earlier access has performed; scope system drops the L1 copies of host and peer lines. -/
def execDrain (f : MDrain) (s : State) : Out :=
  .next (if predMet (curCore s) f.p then
    modCur s fun c => { (if f.scope = 4 then dropL1 c else c) with drain := some (fenceBound s, f.scope.val) }
  else s)

/-! ## Acquire and release (14 R293) -/

def ldacqTrap (f : MAtom) (s : State) : Option Nat :=
  if predMet (curCore s) f.p then accessTrap s false (memAddr (curCore s) f.base f.imm 8) 8 8 else none

/-- LDACQ: an 8-byte load, at the scratchpad too asynchronous, before which the copies of host and peer lines are dropped. -/
def execLdacq (f : MAtom) (s : State) : Out :=
  let c := curCore s
  .next (if !predMet c f.p then s
    else orTrap s (ldacqTrap f s)
      (issueOp s 0 false (predTaint c f.p || baseTaint c f.base) (.load f.d (memAddr c f.base f.imm 8) 8 false true false)))

def strelTrap (f : MRed) (s : State) : Option Nat :=
  let c := curCore s
  if predMet c f.p then storeTrap s (memAddr c f.base f.imm 8) 8 8 (storeData c f.p f.data f.base).t else none

/-- STREL: an 8-byte store that performs after every earlier access. -/
def execStrel (f : MRed) (s : State) : Out :=
  let c := curCore s
  .next (if !predMet c f.p then s
    else orTrap s (strelTrap f s)
      (issueOp s 0 true false (.store (memAddr c f.base f.imm 8) 8 (storeData c f.p f.data f.base) true)))

/-! ## Reductions (14 R294, R298) -/

def redTrap (opc : Nat) (f : MRed) (s : State) : Option Nat :=
  let c := curCore s
  let n := redBytes opc
  let va := memAddr c f.base f.imm n
  if !predMet c f.p then none
  else match rmwTrap s va n with
    | some code => some code
    | none => if ownerOf va = 4 ∧ 1 < opc then some 0x0203 else none

/-- Issue a reduction; its data is read at issue. -/
def runRed (opc : Nat) (f : MRed) (s : State) : State :=
  let c := curCore s
  let n := redBytes opc
  if !predMet c f.p then s
  else orTrap s (redTrap opc f s)
    (issueOp s 0 true false (.red opc (memAddr c f.base f.imm n)
      ⟨BitVec.ofNat 64 ((readV64 c f.data).toNat % 2^(8 * n)), (storeData c f.p f.data f.base).t⟩))

def execRedaddI32 (f : MRed) (s : State) : Out := .next (runRed 0 f s)
def execRedaddq (f : MRed) (s : State) : Out := .next (runRed 1 f s)
def execRedminI32 (f : MRed) (s : State) : Out := .next (runRed 2 f s)
def execRedmaxI32 (f : MRed) (s : State) : Out := .next (runRed 3 f s)
def execRedand (f : MRed) (s : State) : Out := .next (runRed 4 f s)
def execRedor (f : MRed) (s : State) : Out := .next (runRed 5 f s)
def execRedxor (f : MRed) (s : State) : Out := .next (runRed 6 f s)
def execRedaddF32 (f : MRed) (s : State) : Out := .next (runRed 7 f s)

/-! ## Returning atomics (14 R297, R298) -/

/-- The taint of what a swap or a compare-and-swap may store. -/
def atomTaint (opc : Nat) (f : MAtom) (c : Core) : Bool :=
  predTaint c f.p || baseTaint c f.base || (readS c (.n f.d)).t ||
    (opc == 2 && (readS c (.n ⟨(f.d.val + 1) % 32, Nat.mod_lt _ (by decide)⟩)).t)

def atomTrap (opc : Nat) (f : MAtom) (s : State) : Option Nat :=
  let c := curCore s
  let va := memAddr c f.base f.imm 8
  if !predMet c f.p then none
  else match rmwTrap s va 8 with
    | some code => some code
    | none => if opc ≠ 0 ∧ outTrap s (curPart s) va 8 (atomTaint opc f c) then some 0x0403 else none

/-- Issue a returning atomic: the data register, and for a compare the next one, are read at issue. -/
def runAtom (opc : Nat) (f : MAtom) (s : State) : State :=
  let c := curCore s
  let nx : Fin 32 := ⟨(f.d.val + 1) % 32, Nat.mod_lt _ (by decide)⟩
  if !predMet c f.p then s
  else orTrap s (atomTrap opc f s)
    (issueOp s 0 true (atomTaint opc f c)
      (.atomic opc f.d (memAddr c f.base f.imm 8) (readV64 c (.n f.d)) (if opc = 2 then readV64 c (.n nx) else 0)))

def execAtomadd (f : MAtom) (s : State) : Out := .next (runAtom 0 f s)
def execAtomswp (f : MAtom) (s : State) : Out := .next (runAtom 1 f s)
def execAtomcas (f : MAtom) (s : State) : Out := .next (runAtom 2 f s)

/-! ## Barriers and supersteps (15 R301 to R304) -/

/-- The mask of a barrier: every bead of the pass until BARCFG replaces it. -/
def barMask (u : Seq) (b : Nat) : BitVec 8 := ((Tbl.find? u.bars b).getD (BitVec.ofNat 8 (2^widthOf u - 1)))

/-- SYNC: bead 0 opens the wait in its own issue cycle. Nothing more is broadcast until the release, so each bead stops when its queue is empty, with this bundle as its last. -/
def execSync (f : MSync) (s : State) : Out :=
  .next (if speaks s then modCurSeq s fun u => { u with sync := some ⟨f.b.val, s.cycle, [], s.cycle⟩ } else s)

/-- BARCFG traps on a mask with a bit at or above W. With a skew, bead 0's trap has stopped the pass before any other bead issues the bundle. -/
def barcfgTrap (f : MBarcfg) (s : State) : Option Nat :=
  let b0 := coreGet s (coreOf s s.cur.unit 0)
  let skewed : Bool := 0 < ((curSeq s).run.map (·.skew)).getD 0
  if (curCore s).parked || !predMet b0 f.p || (skewed && !speaks s) then none
  else if 2^widthOf (curSeq s) ≤ (readV64 b0 f.base).toNat then some 0x0302 else none

/-- BARCFG: bead 0's value replaces the mask from the next bundle on. -/
def execBarcfg (f : MBarcfg) (s : State) : Out :=
  let c := curCore s
  .next (orTrap s (barcfgTrap f s)
    (if speaks s && predMet c f.p then
      modCurSeq s fun u => { u with barNext := u.barNext ++ [(f.b.val, (readV64 c f.base).truncate 8)] }
    else s))

/-- SSTEP: bead 0 opens the wait at the boundary, as SYNC does; a pre-emption request that has arrived is honoured there (03 R52). -/
def execSstep (s : State) : Out :=
  .next (if speaks s then
    modCurSeq s fun u =>
      let honour : Bool := match u.preempt with
        | some at_ => decide (at_ < s.cycle)
        | none => false
      { u with stepWait := some (u.steps + 1), point := u.point || honour }
  else s)

/-! ## Taint forms (15 R305) -/

/-- TAINTRD of a scalar operand: 1 if it is tainted. The result carries the operand's taint (15 R309). -/
def execTaintrdScalar (f : MTaintRdS) (s : State) : Out :=
  let c := curCore s
  let x := readS c f.src
  .next (if predMet c f.p then emit s 1 (.reg f.dst ⟨if x.t then 1 else 0, x.t || predTaint c f.p⟩) else s)

/-- TAINTRD of a window or queue register into a mask. -/
def execTaintrdVector (f : MTaintRdV) (s : State) : Out :=
  let c := curCore s
  let x := readVec c f.src
  .next (if c.parked then s else emit s 1 (.mask f.md ⟨x.t, x.t ||| laneGuardTaint c f.m⟩ (active c f.m)))

def execTaintclrScalar (f : MTaintClrS) (s : State) : Out :=
  .next (if predMet (curCore s) f.p then emit s 1 (.taintClear f.r) else s)

def execTaintclrVector (f : MTaintClrV) (s : State) : Out :=
  let c := curCore s
  .next (if c.parked then s else emit s 1 (.taintClearV (physW c f.r.val) (active c f.m)))

end Sys2Proof.Machine
end

