-- ==== Sys2Proof/Machine/VectorMove.lean ====
section
/-! DEFINITION. The vector slots' conversions, packing, lane movement, reductions, scans, histograms and sorting networks (09 R183 to R194). -/

namespace Sys2Proof.Machine

open Sys2Proof

/-! ## Conversions (09 R183 to R186) -/

/-- VCVT of one lane. -/
def cvtLane (op : CvtOp) (mode : RMode) (x : Nat) : Nat × Flags :=
  let out (r : FRes) : Nat × Flags := (r.bits, r.fl)
  match op with
  | .f32i32 => let r := ftoint (-(2^31)) (2^31 - 1) mode (v32 x); (wrapInt 32 r.1, r.2)
  | .f32u32 => let r := ftoint 0 (2^32 - 1) mode (v32 x); (wrapInt 32 r.1, r.2)
  | .i32f32 => out (finttof mode (sextNat x 32))
  | .u32f32 => out (finttof mode x)
  | .f32bf16 => out (fconvert fmtB16 mode (v32 x))
  | .f32f16 => out (fconvert fmtF16 mode (v32 x))
  | .bf16f32 => out (fconvert fmt32 mode (unpack fmtB16 (x % 2^16)))
  | .f16f32 => out (fconvert fmt32 mode (unpack fmtF16 (x % 2^16)))

def execVcvt (f : VCvtF) (s : State) : Out :=
  let c := curCore s
  .next (runLanes s f.m f.dst 3 [readVec c f.a] fun l => cvtLane f.op (rndOf c) (a0 l))

def execVcvtn (f : VNarrowF) (s : State) : Out :=
  let c := curCore s
  .next (runLanes s f.m f.dst 3 [readVec c f.a] fun l => let r := toNarrow f.fmt (rndOf c) (v32 (a0 l)); (r.bits, r.fl))

def execVcvtw (f : VNarrowF) (s : State) : Out :=
  let c := curCore s
  .next (runLanes s f.m f.dst 3 [readVec c f.a] fun l => let r := fconvert fmt32 (rndOf c) (ofNarrow f.fmt (a0 l)); (r.bits, r.fl))

/-- VPACK of one lane pair; integers saturate and raise nothing. -/
def packLane (op : PackOp) (mode : RMode) (x y : Nat) : Nat × Flags :=
  let two (f : Fmt) : Nat × Flags :=
    let u := fconvert f mode (v32 x)
    let v := fconvert f mode (v32 y)
    (u.bits + 2^16 * v.bits, u.fl ||| v.fl)
  let sat (w n i : Nat) (z : Nat) : Nat := wrapInt n (satInt n (sextNat (bitsAt z (w * i) w) w))
  match op with
  | .i32i16 => (sat 32 16 0 x + 2^16 * sat 32 16 0 y, 0)
  | .i32i8 => (sat 32 8 0 x + 2^8 * sat 32 8 0 y, 0)
  | .i16i8 => (sat 16 8 0 x + 2^8 * sat 16 8 1 x + 2^16 * sat 16 8 0 y + 2^24 * sat 16 8 1 y, 0)
  | .f32bf16 => two fmtB16
  | .f32f16 => two fmtF16

def execVpack (f : VPackF) (s : State) : Out :=
  let c := curCore s
  .next (runLanes s f.m f.dst 3 [readVec c f.a, readVec c f.b] fun l => packLane f.op (rndOf c) (a0 l) (a1 l))

/-- VUNPKL and VUNPKH of one lane: the low or the high element, widened. -/
def unpackLane (hi : Bool) (op : UnpkOp) (x : Nat) : Nat × Flags :=
  let h := bitsAt x (if hi then 16 else 0) 16
  match op with
  | .i16 => (wrapInt 32 (sextNat h 16), 0)
  | .i8 b => (wrapInt 32 (sextNat (bitsAt h (if b then 8 else 0) 8) 8), 0)
  | .bf16 => let r := fconvert fmt32 0 (unpack fmtB16 h); (r.bits, r.fl)
  | .f16 => let r := fconvert fmt32 0 (unpack fmtF16 h); (r.bits, r.fl)

def execVunpkl (f : VUnpkF) (s : State) : Out :=
  .next (runLanes s f.m f.dst 3 [readVec (curCore s) f.a] fun l => unpackLane false f.op (a0 l))
def execVunpkh (f : VUnpkF) (s : State) : Out :=
  .next (runLanes s f.m f.dst 3 [readVec (curCore s) f.a] fun l => unpackLane true f.op (a0 l))

/-! ## Moving data between lanes (09 R187, R188) -/

def execVbcst (f : VBcstF) (s : State) : Out :=
  let c := curCore s
  let x := readS c f.a
  .next (runCross s f.m f.dst 3 x.t fun _ => (x.v.toNat % 2^32, 0))

def execVext (f : VExtF) (s : State) : Out :=
  let c := curCore s
  let x := readVec c f.a
  .next (if c.parked then s
    else emit s 3 (.scalar f.dst ⟨BitVec.ofNat 64 (laneNat x f.lane.val), bitOf x.t f.lane.val || c.ctlTaint⟩))

/-- VINS writes one lane, if its cluster is enabled. -/
def execVins (f : VInsF) (s : State) : Out :=
  let c := curCore s
  let x := readS c f.a
  let lane : LaneMask := ofBits fun i => i == f.lane.val
  .next (if c.parked then s
    else emitVec s 3 (.v f.dst) (ofLanes fun _ => x.v.truncate 32) (spreadTaint (x.t || c.ctlTaint)) (lane &&& enabled c) 0)

def execVperm (f : VPermF) (s : State) : Out :=
  let c := curCore s
  let x := readVec c f.a
  let y := readVec c f.b
  .next (runCross s f.m f.dst 3 (x.t != 0 || anyTaint y (active c f.m)) fun i => (laneNat x (i / 16 * 16 + laneNat y i % 16), 0))

def execVxcopy (f : VPermF) (s : State) : Out :=
  let c := curCore s
  let x := readVec c f.a
  let y := readVec c f.b
  .next (runCross s f.m f.dst 6 (x.t != 0 || anyTaint y (active c f.m)) fun i => (laneNat x (laneNat y i % 128), 0))

/-! ## Reductions and scans (09 R189, R190) -/

/-- The operation of a variant on two lane values. -/
def redApply (op : RedOp) (mode : RMode) (x y : Nat) : Nat × Flags :=
  match op with
  | .addf32 => let r := fsum fmt32 mode (v32 x) (v32 y); (r.bits, r.fl)
  | .maxf32 => let r := fminmax true fmt32 x y; (r.bits, r.fl)
  | .minf32 => let r := fminmax false fmt32 x y; (r.bits, r.fl)
  | .addi32 => ((x + y) % 2^32, 0)
  | .maxi32 => (imaxS x y, 0)
  | .mini32 => (iminS x y, 0)
where
  imaxS (x y : Nat) : Nat := if sextNat x 32 < sextNat y 32 then y else x
  iminS (x y : Nat) : Nat := if sextNat y 32 < sextNat x 32 then y else x

def redIdent : RedOp → Nat
  | .addf32 => 0x80000000
  | .maxf32 => 0xFF800000
  | .minf32 => 0x7F800000
  | .addi32 => 0
  | .maxi32 => 0x80000000
  | .mini32 => 0x7FFFFFFF

/-- One level of the fixed tree: neighbours combined in pairs. -/
def pairUp (op : RedOp) (mode : RMode) : List (Nat × Flags) → List (Nat × Flags)
  | x :: y :: r =>
    let z := redApply op mode x.1 y.1
    (z.1, x.2 ||| y.2 ||| z.2) :: pairUp op mode r
  | l => l

/-- The tree over 2^n values. -/
def tree (op : RedOp) (mode : RMode) : Nat → List (Nat × Flags) → Nat × Flags
  | 0, l => l.headD (redIdent op, 0)
  | n + 1, l => tree op mode n (pairUp op mode l)

/-- The reduction of one cluster over its active lanes. -/
def clusterTree (op : RedOp) (mode : RMode) (x : TVec) (lanes : LaneMask) (c : Nat) : Nat × Flags :=
  tree op mode 4 ((List.range 16).map fun l => if bitOf lanes (16 * c + l) then (laneNat x (16 * c + l), 0) else (redIdent op, 0))

def execVred (f : VRedF) (s : State) : Out :=
  let c := curCore s
  let x := readVec c f.a
  let lanes := active c f.m
  let r := (List.range 8).map (clusterTree f.op (rndOf c) x lanes)
  .next (runCross s f.m f.dst 5 (anyTaint x lanes) fun i => r.getD (i / 16) (0, 0))

def execVxred (f : VRedF) (s : State) : Out :=
  let c := curCore s
  let x := readVec c f.a
  let lanes := active c f.m
  let r := tree f.op (rndOf c) 3 ((List.range 8).map fun cl =>
    if c.cmk.getLsbD cl then clusterTree f.op (rndOf c) x lanes cl else (redIdent f.op, 0))
  .next (runCross s f.m f.dst 11 (anyTaint x lanes) fun _ => r)

/-- The inclusive prefixes of one cluster from lane l on: each lane's value, and every flag. -/
def scanFrom (op : RedOp) (mode : RMode) (x : TVec) (lanes : LaneMask) (base : Nat) : Nat → Nat → Nat → List (Nat × Flags)
  | 0, _, _ => []
  | n + 1, l, acc =>
    if bitOf lanes (base + l) then
      let r := redApply op mode acc (laneNat x (base + l))
      r :: scanFrom op mode x lanes base n (l + 1) r.1
    else (0, 0) :: scanFrom op mode x lanes base n (l + 1) acc

def execVscan (f : VRedF) (s : State) : Out :=
  let c := curCore s
  let x := readVec c f.a
  let lanes := active c f.m
  let r := (List.range 8).map fun cl => scanFrom f.op (rndOf c) x lanes (16 * cl) 16 0 (redIdent f.op)
  .next (runCross s f.m f.dst 5 (anyTaint x lanes) fun i => (r.getD (i / 16) []).getD (i % 16) (0, 0))

/-! ## Histograms (09 R191, R192) -/

/-- VHIST: the bins are read when the result lands. -/
def execVhist (f : VHistF) (s : State) : Out :=
  let c := curCore s
  let x := readVec c f.a
  let y := readVec c f.b
  .next (if c.parked then s
    else emit s 4 (.hist (physW c f.d.val) x.v y.v (active c f.m) (x.t ||| y.t ||| laneGuardTaint c f.m)))

/-- VBMRG: lane l of a cluster receives bin l summed over the cluster's active lanes. -/
def execVbmrg (f : VBmrgF) (s : State) : Out :=
  let c := curCore s
  let lanes := active c f.m
  let bins := (List.range 8).map fun b => readW c (f.a.val + b)
  let r := eachLane (enabled c) fun i =>
    if i % 16 < 8 then
      let x := bins.getD (i % 16) ⟨0, 0⟩
      ((List.range 16).foldl (fun a l => if bitOf lanes (i / 16 * 16 + l) then (a + laneNat x (i / 16 * 16 + l)) % 2^32 else a) 0, 0)
    else (0, 0)
  .next (if c.parked then s
    else emitVec s 8 f.dst r.1 (spreadTaint (bins.any fun x => anyTaint x lanes) ||| laneGuardTaint c f.m) (enabled c) 0)

/-! ## Sorting networks and the greatest value (09 R193, R194) -/

/-- The order of keys: FP32 with every NaN last, or signed integers. -/
def keyOf (int : Bool) (b : Nat) : Nat := if int then (b + 2^31) % 2^32 else sortKey b

/-- Whether pair x precedes pair y: ascending or descending keys, then the smaller index. -/
def precedes (int asc : Bool) (x y : Nat × Nat) : Bool :=
  let kx := keyOf int x.1
  let ky := keyOf int y.1
  if kx = ky then decide (x.2 < y.2) else if asc then decide (kx < ky) else decide (ky < kx)

/-- The pair that lane i holds after the stage. -/
def bcxLane (f : VBcxF) (k v : TVec) (i : Nat) : Nat × Nat :=
  let low : Bool := bitsAt i f.j.val 1 = 0
  let l := if low then i else i - 2^f.j.val
  let p := l + 2^f.j.val
  let up := (bitsAt l f.k.val 1 == 0) != f.desc
  let x := (laneNat k l, laneNat v l)
  let y := (laneNat k p, laneNat v p)
  let yFirst := precedes f.int up y x
  if low then (if yFirst then y else x) else if yFirst then x else y

/-- One stage of a bitonic network on the pairs of a register pair. -/
def runBcx (lat : Nat) (f : VBcxF) (s : State) : State :=
  let c := curCore s
  let k := readW c f.a.val
  let v := readW c (f.a.val + 1)
  let en := enabled c
  let lanes : LaneMask := ofBits fun i => bitOf en i && bitOf en (if bitsAt i f.j.val 1 = 0 then i + 2^f.j.val else i - 2^f.j.val)
  let r := (List.range 128).map (bcxLane f k v)
  let t := spreadTaint (anyTaint k en || anyTaint v en || c.ctlTaint)
  if c.parked then s
  else
    let s1 := emitVec s lat (.v f.dst) (packLanes (r.map (·.1))) t lanes 0
    emit s1 lat (.vec (physW c (f.dst.val + 1)) ⟨packLanes (r.map (·.2)), t⟩ lanes)

def execVbcx (f : VBcxF) (s : State) : Out := .next (runBcx 3 f s)
def execVbcxx (f : VBcxF) (s : State) : Out := .next (runBcx 6 f s)

/-- The winner of one cluster: greatest value, then lower index, then lower lane. -/
def winner (int : Bool) (x y : TVec) (lanes : LaneMask) (cl : Nat) : Nat × Nat :=
  ((List.range 16).foldl (fun (a : Option (Nat × Nat)) l =>
    let i := 16 * cl + l
    if bitOf lanes i then
      let z := (laneNat x i, laneNat y i)
      match a with
      | none => some z
      | some b => if precedes int false z b then some z else a
    else a) none).getD (0, 0)

def execVargmax (f : VArgF) (s : State) : Out :=
  let c := curCore s
  let x := readVec c f.a
  let y := readVec c f.b
  let lanes := active c f.m
  let w := (List.range 8).map (winner f.int x y lanes)
  let val (z : Nat) : Nat := if !f.int && (v32 z).isNan then fmt32.nan else z
  let sig := !f.int && (List.range 128).any fun i => bitOf lanes i && (v32 (laneNat x i)).isSig
  let t := spreadTaint (anyTaint x lanes || anyTaint y lanes) ||| laneGuardTaint c f.m
  .next (if c.parked then s
    else
      let s1 := emit s 5 (.vec (physW c f.dst.val) ⟨(eachLane lanes fun i => (val (w.getD (i / 16) (0, 0)).1, 0)).1, t⟩ lanes)
      let s2 := emit s1 5 (.vec (physW c (f.dst.val + 1)) ⟨(eachLane lanes fun i => ((w.getD (i / 16) (0, 0)).2, 0)).1, t⟩ lanes)
      if sig then emit s2 5 (.flags flNV) else s2)

end Sys2Proof.Machine
end

