-- ==== Sys2Proof/Machine/Bundle.lean ====
section
/-! DEFINITION. A bundle as the sequencer sees it (05 R78 to R82): its fields, what each slot writes and reads by name, the checks made on loading and at issue, and its bank reads (06 R114 to R116). -/

namespace Sys2Proof.Machine

open Sys2Proof

/-! ## Fields (05 R78, R82) -/

/-- A field of a 384-bit bundle: syllable A lies in bits [127:0], B in [255:128], C in [383:256]. -/
def bfieldAt (b : BitVec 384) (lo len : Nat) : Nat := bitsAt b.toNat lo len

def bStall (b : BitVec 384) : Nat := bfieldAt b 122 4
def bLend (b : BitVec 384) : Bool := bfieldAt b 121 1 == 1
def bCtr (b : BitVec 384) (m : Nat) : Nat := bfieldAt b (if m = 0 then 379 else 376) 3
/-- The reuse bit of vector slot v (0 to 2), operand field a (0) or b (1). -/
def bReuse (b : BitVec 384) (v fld : Nat) : Bool := bfieldAt b (128 + 125 - 2 * v - fld) 1 == 1

/-- The word of slot 0 to 7: S0 S1 V0 V1 V2 F M0 M1. -/
def slotWord (b : BitVec 384) (i : Nat) : Nat :=
  match i with
  | 0 => bfieldAt b 72 40
  | 1 => bfieldAt b 32 40
  | 2 => bfieldAt b (128 + 75) 37
  | 3 => bfieldAt b (128 + 38) 37
  | 4 => bfieldAt b (128 + 1) 37
  | 5 => bfieldAt b 0 32
  | 6 => bfieldAt b (256 + 56) 56
  | _ => bfieldAt b 256 56

def slotKind (i : Nat) : SlotKind := if i < 2 then .scalar else if i < 5 then .vector else if i = 5 then .special else .memory

/-- The instruction of a slot that is not idle, if it decodes. -/
def slotInstr (b : BitVec 384) (i : Nat) : Option Instr :=
  if slotWord b i = 0 then none
  else match decode (slotKind i) (slotWord b i) with
    | .ok x => some x
    | .error _ => none

/-- The instructions of a bundle with their slots. -/
def slotInstrs (b : BitVec 384) : List (Nat × Instr) := (List.range 8).filterMap fun i => (slotInstr b i).map fun x => (i, x)

/-! ## What a slot names -/

/-- What a slot names: destinations (05 R81), groups among them whose length follows `%JORD`, group bases to be aligned (10 R202), window reads in order with their
operand field, operand fields read from a stream, a queue or a scalar register, streams read and written, whether it is product-class (10 R205) and counted (05 R96). Keys of destinations: 1 to 31 registers, 100 on predicates,
200 on masks, 300 on parameters, 400 on special registers, 500 on streams, 600 on barrier masks, 10000 on window names. -/
structure Facts where
  dests : List Nat
  groups : List Nat
  align : List Nat
  reads : List (Nat × Nat × Bool)
  other : List Nat
  zin : List Nat
  zout : List Nat
  prod : Bool
  counted : Bool
deriving DecidableEq, Repr

def noFacts : Facts := ⟨[], [], [], [], [], [], [], false, false⟩

def nDest (r : Fin 32) : List Nat := if r.val = 0 then [] else [r.val]
def pDest (r : Fin 8) : List Nat := if r.val = 0 then [] else [100 + r.val]
def mDest (r : Fin 8) : List Nat := if r.val = 0 then [] else [200 + r.val]
def wDest (r n : Nat) : List Nat := (List.range n).map fun i => 10000 + r + i
def vDest : VOp → List Nat
  | .v i => [10000 + i.val]
  | .z i => [500 + i.val]
  | .vq _ => []
def vRead (fld : Nat) (j : Bool) : VOp → List (Nat × Nat × Bool)
  | .v i => [(fld, i.val, j)]
  | _ => []
def vOther (fld : Nat) : VOp → List Nat
  | .v _ => []
  | _ => [fld]
def vZ : VOp → List Nat
  | .z i => [i.val]
  | _ => []

def fN (r : Fin 32) : Facts := { noFacts with dests := nDest r }
def fP (r : Fin 8) : Facts := { noFacts with dests := pDest r }
def fSpecial (n : Nat) : Facts := { noFacts with dests := [400 + n] }
def fCount : Facts := { noFacts with counted := true }
def fNCount (r : Fin 32) : Facts := { noFacts with dests := nDest r, counted := true }

/-- A vector slot with a destination and sources; with J they are groups. -/
def fVec (j prod : Bool) (dst : VOp) (srcs : List (Nat × VOp)) : Facts :=
  { noFacts with
    dests := vDest dst
    groups := if j then [winName dst] else []
    align := if j then winName dst :: srcs.map fun e => winName e.2 else []
    reads := srcs.flatMap fun e => vRead e.1 j e.2
    other := srcs.flatMap fun e => vOther e.1 e.2
    zin := srcs.flatMap fun e => if e.1 = 2 then [] else vZ e.2
    zout := vZ dst
    prod := prod }

def fVB (f : VB) (prod rd : Bool) : Facts :=
  fVec f.j (f.j && prod) f.dst ([(0, f.a), (1, f.b)] ++ if rd then [(2, f.dst)] else [])
def fVU (f : VU) : Facts := fVec f.j false f.dst [(0, f.a)]
def fCmp (f : VCmp) : Facts :=
  { noFacts with dests := mDest f.md, reads := vRead 0 false f.a ++ vRead 1 false f.b, other := vOther 0 f.a ++ vOther 1 f.b, zin := vZ f.a ++ vZ f.b }
def fFn (f : FForm) : Facts := fVec f.j f.j f.dst [(0, f.src)]
def fStep (f : FForm) : Facts := fVec false false f.dst [(0, f.src), (2, f.dst)]

/-- The names of an instruction. DESIGN CHOICE (log 70): TAINTRD of a window register reads its taint and makes no bank read; of a field that names several registers (the pairs of VBCX and
VBCXX, the bins of VBMRG) the operand latch holds the first. -/
def facts : Instr → Facts
  | .add f | .sub f | .and f | .or f | .xor f | .andn f | .shl f | .shr f | .sar f | .rol f | .min f | .max f | .minu f | .maxu f
  | .mul f | .mulh f | .mulhu f | .div f | .divu f | .rem f | .remu f | .sel f => fN f.dst
  | .bfx f | .bfxu f | .bfi f => fN f.dst
  | .clz f | .ctz f | .popc f | .brev f => fN f.dst
  | .cmpeq f | .cmpne f | .cmplt f | .cmple f | .cmpltu f | .cmpleu f => fP f.pd
  | .cmpeqi f | .cmpnei f | .cmplti f | .cmplei f | .cmpltui f | .cmpleui f => fP f.pd
  | .pand f | .por f | .pxor f => fP f.pd
  | .addi f | .subi f | .andi f | .ori f | .xori f | .mini f | .maxi f | .muli f => fN f.dst
  | .shli f | .shri f | .sari f => fN f.dst
  | .movi f => fN f.dst
  | .movk f => fN f.dst
  | .mfs f => fN f.dst
  | .mts f => fSpecial (encSReg f.reg)
  | .widf f => fN f.dst
  | .call f => fSpecial (0x40 + f.g.val)
  | .lidx f => fN f.dst
  | .savem _ => fSpecial 0x11
  | .vadd f | .vsub f | .vmin f | .vmax f | .vsel f => fVB f false false
  | .vmul f => fVB f true false
  | .vfma f | .vfnma f => fVB f true true
  | .vabs f | .vneg f | .vmov f => fVU f
  | .vcmpeq f | .vcmpne f | .vcmplt f | .vcmple f => fCmp f
  | .vlogic f => fVec false false f.dst ((0, f.a) :: if f.op = .not then [] else [(1, f.b)])
  | .vshl f | .vshr f | .vsar f | .vclamp f => fVB f false false
  | .vcvt f => fVec false false f.dst [(0, f.a)]
  | .vcvtn f | .vcvtw f => fVec false false f.dst [(0, f.a)]
  | .vpack f => fVec false false f.dst [(0, f.a), (1, f.b)]
  | .vunpkl f | .vunpkh f => fVec false false f.dst [(0, f.a)]
  | .vbcst f => { fVec false false f.dst [] with other := [0] }
  | .vext f => { noFacts with dests := nDest f.dst, reads := vRead 0 false f.a, other := vOther 0 f.a, zin := vZ f.a }
  | .vins f => { fVec false false (.v f.dst) [(2, .v f.dst)] with other := [0] }
  | .vperm f | .vxcopy f => fVec false false f.dst [(0, f.a), (1, f.b)]
  | .vred f | .vxred f | .vscan f => fVec false false f.dst [(0, f.a)]
  | .vhist f => { fVec false false (.v f.d) [(0, f.a), (1, f.b)] with dests := wDest f.d.val 8 }
  | .vbmrg f => { fVec false false f.dst [(0, .v f.a)] with reads := (List.range 8).map fun i => (if i = 0 then 0 else 2, f.a.val + i, false) }
  | .vbcx f | .vbcxx f =>
    { fVec false false (.v f.dst) [(0, .v f.a)] with dests := wDest f.dst.val 2, reads := [(0, f.a.val, false), (2, f.a.val + 1, false)] }
  | .vargmax f => { fVec false false (.v f.dst) [(0, f.a), (1, f.b)] with dests := wDest f.dst.val 2 }
  | .jseed f => { fVec false false (.v f.dst) [(0, .v f.a), (1, .v f.b)] with groups := [f.dst.val], align := [f.dst.val] }
  | .jconst f => { fVec false false (.v f.dst) [(0, .v f.a)] with groups := [f.dst.val], align := [f.dst.val] }
  | .jget f => { fVec false false (.v f.dst) [] with align := [f.a.val], reads := [(0, f.a.val, true)] }
  | .jput f => { fVec false false (.v f.dst) [(0, .v f.a)] with dests := wDest (f.dst.val + f.i.val) 1, align := [f.dst.val] }
  | .jder f => fVec true false (.v f.dst) [(0, .v f.a)]
  | .jshift f => fVec true false (.v f.dst) [(0, .v f.a)]
  | .jscale f =>
    { fVec true false (.v f.dst) [(0, .v f.a)] with reads := [(0, f.a.val, true), (1, f.b.val, false)] }
  | .jdiv f => fVec true true (.v f.dst) [(0, .v f.a), (1, .v f.b)]
  | .jpowi f => fVec true true (.v f.dst) [(0, .v f.a)]
  | .jflagClear _ => { fSpecial 3 with other := [0] }
  | .jflagGet d => { noFacts with dests := wDest d.val 1 }
  | .rcp f | .rsq f | .sqrt f | .exp2 f | .log2 f | .exp f | .log f | .sin f | .cos f | .tanh f | .sigm f => fFn f
  | .jsincos f => fFn f
  | .rcpstep f | .rsqstep f => fStep f
  | .ld8u f | .ld16u f | .ld32u f | .ld64 f | .ld8s f | .ld16s f | .ld32s f => fNCount f.dst
  | .st8 _ | .st16 _ | .st32 _ | .st64 _ => fCount
  | .vld f => { fCount with dests := wDest f.reg.val 1 }
  | .vst f => { fCount with reads := [(0, f.reg.val, false)] }
  | .vgath f => { fCount with dests := wDest f.reg.val 1, reads := [(0, f.reg.val, false)] }
  | .vscat f => { fCount with reads := [(0, f.reg.val, false), (2, f.reg.val + 1, false)] }
  | .spos f => fN f.dst
  | .copy f | .copyp f | .fill f | .nsend f | .nrecv f | .ncoll f | .selacc f | .tithe f | .tmap f | .tclrd f | .launch f => fNCount f.dst
  | .cflush _ | .cinv _ | .cclean _ | .migr _ => fCount
  | .ldacq f | .atomadd f | .atomswp f | .atomcas f => fNCount f.d
  | .strel _ | .redaddI32 _ | .redaddq _ | .redminI32 _ | .redmaxI32 _ | .redand _ | .redor _ | .redxor _ | .redaddF32 _ => fCount
  | .barcfg f => { noFacts with dests := [600 + f.b.val] }
  | .taintrdScalar f => fN f.dst
  | .taintrdVector f => { noFacts with dests := mDest f.md }
  | .taintclrScalar f => fN f.r
  | .taintclrVector f => { noFacts with dests := wDest f.r.val 1 }
  | .mcall _ | .mlat _ | .accz _ | .norm _ => fCount
  | .msetp _ => fSpecial 0x30
  | .mparm f => { noFacts with dests := [300 + f.i.val] }
  | .accrd f => { fCount with dests := wDest f.reg.val 1 }
  | .accwr f => { fCount with reads := [(0, f.reg.val, false)] }
  | .draw f | .kvalloc f | .kvfree f => fNCount f.dst
  | .kvcount f => fNCount f.dst
  | .release f => fNCount f.dst
  | _ => noFacts

/-- Opcodes 0x80 to 0x8E, which stand in S0 only (05 R90). -/
def isControl : Instr → Bool
  | .br _ | .brany _ | .brall _ | .brgz _ | .brgnz _ | .call _ | .ret _ | .loop _ | .loopi _ | .lbrk _ | .lidx _ | .wait _ | .schsel | .endK => true
  | _ => false

/-- Control opcodes beside which the loop-end bit may stand (07 R130). -/
def allowsLend : Instr → Bool
  | .lbrk _ | .lidx _ | .wait _ => true
  | i => !isControl i

/-- Writes to %VWB or %JORD, which void every operand latch (06 R116). -/
def voidsLatches : Instr → Bool
  | .mts f => f.reg == .vwb || f.reg == .jord
  | _ => false

/-! ## The checks of 05 R79 -/

/-- The kinds and reserved bits of the syllable headers, and a loop-end bit beside a control form that forbids it. -/
def headerBad (b : BitVec 384) : Bool :=
  bfieldAt b 126 2 ≠ 0 || bfieldAt b 254 2 ≠ 1 || bfieldAt b 382 2 ≠ 2 ||
    bfieldAt b 112 9 ≠ 0 || bfieldAt b (128 + 112) 8 ≠ 0 || bfieldAt b 128 1 ≠ 0 || bfieldAt b (256 + 112) 8 ≠ 0 ||
    (bLend b && match slotInstr b 0 with
      | some i => !allowsLend i
      | none => false)

/-- Two lists of keys share one. -/
def keysMeet (a b : List Nat) : Bool := a.any b.contains

/-- Two slots of a list name one destination. -/
def anyShared : List (List Nat) → Bool
  | [] => false
  | x :: r => r.any (keysMeet x) || anyShared r

/-- Two slots write the same destination (05 R81). -/
def conflict (b : BitVec 384) : Bool := anyShared ((slotInstrs b).map fun e => (facts e.2).dests)

/-- Whether a slot breaks check 3 or 4. -/
def slotBad (b : BitVec 384) (i : Nat) : Bool :=
  let ctr := if 6 ≤ i then bCtr b (i - 6) else 0
  if slotWord b i = 0 then ctr ≠ 0
  else match slotInstr b i with
    | none => true
    | some x => (i ≠ 0 && isControl x) || ctr = 7 || (ctr ≠ 0 && !(facts x).counted)

/-- The trap that a literal bundle takes by 05 R79, with its rank: a check of the whole bundle comes first, then the slots in order (16 R314). -/
def staticTrap (b : BitVec 384) : List (Nat × Nat × Nat) :=
  (if headerBad b then [(0, 0x0302, 0xFF)] else []) ++ (if conflict b then [(1, 0x0303, 0xFF)] else []) ++
    (List.range 8).filterMap fun i => if slotBad b i then some (2 + i, 0x0302, i) else none

/-- A bundle breaks a check of 05 R79. -/
def bundleBad (b : BitVec 384) : Bool := headerBad b || conflict b || (List.range 8).any (slotBad b)

/-! ## The checks made at issue -/

/-- The window names a slot writes at order k: its groups whole, and its other window destinations. -/
def winDests (k : Nat) (i : Instr) : List Nat :=
  let f := facts i
  let g := f.groups.flatMap fun b => (List.range (k + 1)).map fun n => b + n
  let cosine := match i with
    | .jsincos f => (List.range (k + 1)).map fun n => winName f.dst + jetAlign k + n
    | _ => []
  g ++ cosine ++ (f.dests.filter fun d => 10000 ≤ d).map fun d => d - 10000

/-- The code that a slot's access raises on the running bead, if any: a memory form's address, owner, alignment and permission, a %VWB limit, a routine, a barrier mask. -/
def formTrap (i : Instr) (s : State) : Option (Nat × Nat) :=
  let at_ (x : Option Nat) : Option (Nat × Nat) := x.map fun code => (code, s.cur.slot.val)
  match i with
  | .mts f => if mtsTraps s f then some (0x0302, s.cur.slot.val) else none
  | .ld8u f | .ld8s f => at_ (ldTrap f 1 s)
  | .ld16u f | .ld16s f => at_ (ldTrap f 2 s)
  | .ld32u f | .ld32s f => at_ (ldTrap f 4 s)
  | .ld64 f => at_ (ldTrap f 8 s)
  | .st8 f => at_ (stTrap f 1 s)
  | .st16 f => at_ (stTrap f 2 s)
  | .st32 f => at_ (stTrap f 4 s)
  | .st64 f => at_ (stTrap f 8 s)
  | .vld f => at_ (vaccTrap f false s)
  | .vst f => at_ (vaccTrap f true s)
  | .vgath f => at_ (gathTrap f s)
  | .vscat f => at_ (scatTrap f s)
  | .sbind f => at_ (sbindTrap f s)
  | .copy f | .fill f => at_ (copyTrap f s)
  | .copyp f => at_ (copyTrap f s)
  | .cflush f | .cinv f | .cclean f => at_ (cacheTrap f s)
  | .migr f => at_ (migrTrap f s)
  | .fenceFar f => at_ (farTrap f s)
  | .ldacq f => at_ (ldacqTrap f s)
  | .strel f => at_ (strelTrap f s)
  | .redaddI32 f => at_ (redTrap 0 f s)
  | .redaddq f => at_ (redTrap 1 f s)
  | .redminI32 f => at_ (redTrap 2 f s)
  | .redmaxI32 f => at_ (redTrap 3 f s)
  | .redand f => at_ (redTrap 4 f s)
  | .redor f => at_ (redTrap 5 f s)
  | .redxor f => at_ (redTrap 6 f s)
  | .redaddF32 f => at_ (redTrap 7 f s)
  | .atomadd f => at_ (atomTrap 0 f s)
  | .atomswp f => at_ (atomTrap 1 f s)
  | .atomcas f => at_ (atomTrap 2 f s)
  | .barcfg f => at_ (barcfgTrap f s)
  | .mcall f => mcallTrap f s
  | .mlat f => at_ (mlatTrap f s)
  | .accz f | .norm f => at_ (accTrap f.base f.imm s)
  | .accrd f | .accwr f => at_ (accTrap f.base f.imm s)
  | .launch f => at_ (launchTrap f s)
  | _ => none

/-- The trap of a stream access: unbound, of the wrong direction, beyond the walk, a descriptor that breaks a limit, or an element that could not be read (11 R228, R230). DESIGN CHOICE
(log 71): a slot that names an output stream past its last element traps also where `%CMK` is 0 and nothing would be written. -/
def streamTrap (c : Core) (slot : Nat) (out : Bool) (z : Nat) : Option (Nat × Nat) :=
  let st := streamOf c z
  if !st.bound then some (0x0304, z)
  else match st.desc with
    | none => none
    | some d =>
      if 0x100 ≤ st.code ∧ st.code < 0x200 then some (0x0304, st.code)
      else if st.isOut ≠ out ∨ walkLen d ≤ st.position then some (0x0304, z)
      else if st.code ≠ 0 ∧ st.fetched ≤ st.position ∧ st.reqs = [] then some (st.code, slot)
      else none

/-- What the running bead's bundle traps with, ranked (16 R314): overlapping destination groups, then slot by slot. `s.cur` names the bead. -/
def issueTraps (s : State) (b : BitVec 384) : List (Nat × Nat × Nat) :=
  let c := curCore s
  let k := ordOf c
  let sl := slotInstrs b
  let prods := sl.filter fun e => (facts e.2).prod
  let prodBad : Bool := (k ≠ 0 && decide (1 < prods.length)) || (decide (0 < prods.length) && c.series ≠ 0)
  (if anyShared (sl.map fun e => winDests k e.2) then [(1, 0x0303, 0xFF)] else []) ++
    sl.flatMap fun e =>
      let s1 := { s with cur := { s.cur with slot := Fin.ofNat 8 e.1 } }
      let f := facts e.2
      let sinBad : Bool := match e.2 with
        | .jsincos g => decide (231 < winName g.dst + jetAlign k + k)
        | _ => false
      (if !groupsOk c f.align || sinBad || (prodBad && (prods.map (·.1)).head? == some e.1) then [(2 + e.1, 0x0302, e.1)] else []) ++
        ((f.zin.filterMap (streamTrap c e.1 false) ++ f.zout.filterMap (streamTrap c e.1 true)).map fun t => (2 + e.1, t.1, t.2)) ++
        (match formTrap e.2 s1 with
         | some t => [(2 + e.1, t.1, t.2)]
         | none => [])

/-- The trap of the lowest rank; the first of a rank. -/
def firstTrap : List (Nat × Nat × Nat) → Option (Nat × Nat)
  | [] => none
  | x :: r => some ((r.foldl (fun (a : Nat × Nat × Nat) y => if y.1 < a.1 then y else a) x).2)

/-! ## Waiting for streams and for held scratchpad loads (11 R229; 14 R290, R293) -/

/-- The streams of a bundle that a bead must wait for. -/
def waitingStreams (c : Core) (b : BitVec 384) : List Nat :=
  let sl := slotInstrs b
  let ins := (sl.flatMap fun e => (facts e.2).zin).eraseDups
  let outs := (sl.flatMap fun e => (facts e.2).zout).eraseDups
  let trapped (out : Bool) (z : Nat) : Bool := (streamTrap c 0 out z).isSome
  (ins.filter fun z =>
    let st := streamOf c z
    !trapped false z && (st.desc.isNone || decide (st.fetched ≤ st.position))) ++
  outs.filter fun z =>
    let st := streamOf c z
    !trapped true z && (st.desc.isNone || decide (8 ≤ st.position - st.stored))

/-- A scratchpad access with a fixed latency: its slot's predicate or lanes allow it and its address is local. -/
def exposedLoad (c : Core) : Instr → Bool
  | .ld8u f | .ld8s f => predMet c f.p && isLocal (memAddr c f.base f.imm 1)
  | .ld16u f | .ld16s f => predMet c f.p && isLocal (memAddr c f.base f.imm 2)
  | .ld32u f | .ld32s f => predMet c f.p && isLocal (memAddr c f.base f.imm 4)
  | .ld64 f => predMet c f.p && isLocal (memAddr c f.base f.imm 8)
  | .vld f => active c f.m != 0 && isLocal (memAddr c f.base f.imm 512)
  | .vgath f => active c f.m != 0 && isLocal (memAddr c f.base f.imm 4)
  | _ => false

/-- FENCE.X in M0 holds the load in M1 of its own bundle. -/
def withFence (c : Core) (b : BitVec 384) : Core :=
  match slotInstr b 6 with
  | some (.fenceX f) => if predMet c f.p then { c with fences := c.fences ++ [⟨4 * c.bundleNo, f.first.val, f.later.val⟩] } else c
  | _ => c

/-- A scratchpad load of the bundle must wait: a fence or an LDACQ holds it, or an earlier scratchpad access has not performed (14 R286, R290, R293). -/
def loadHeld (c : Core) (b : BitVec 384) : Bool :=
  (slotInstrs b).any fun e =>
    exposedLoad c e.2 &&
      (let c' := if e.1 = 7 then withFence c b else c
       (c'.fences.any fun f => f.later == 0 && pathBusy c' f.first f.bound) ||
       c'.ops.any fun o =>
         match o.kind with
         | .load _ va _ _ acq _ => acq || (o.path == 0 && isLocal va)
         | .store va _ _ _ | .red _ va _ | .atomic _ _ va _ _ => o.path == 0 && isLocal va
         | .vstore lanes => o.path == 0 && lanes.all fun x => isLocal x.1
         | _ => false)

/-! ## Bank reads and operand latches (06 R114 to R116; 05 R84) -/

/-- The window reads of a bundle in order: slot, operand field, name, whether a group. -/
def bankReads (b : BitVec 384) : List (Nat × Nat × Nat × Bool) :=
  (slotInstrs b).flatMap fun e => (facts e.2).reads.map fun r => (e.1, r)

/-- The registers a read covers at order k. -/
def readSpan (k base : Nat) (grp : Bool) : List Nat := (List.range (if grp then k + 1 else 1)).map fun n => base + n

/-- What an operand latch remembers: a name, with 1000 added for a group of more than one register. DESIGN CHOICE (log 70): such a group and its base register are not the same operand. -/
def latchKey (k base : Nat) (grp : Bool) : Nat := base + if grp && k ≠ 0 then 1000 else 0

/-- Which reuse bits are honoured, V0a V0b V1a V1b V2a V2b: by name, since the slot last read that field. -/
def honoured (u : Seq) (b : BitVec 384) (k : Nat) : List Bool :=
  (List.range 6).map fun i =>
    bReuse b (i / 2) (i % 2) && (bankReads b).any fun r => r.1 == 2 + i / 2 && r.2.1 == i % 2 && u.latch.getD i none == some (latchKey k r.2.2.1 r.2.2.2)

/-- A vector slot reads an operand field from a stream, a queue or a scalar register. -/
def readsOther (b : BitVec 384) (i fld : Nat) : Bool := match slotInstr b i with
  | some x => (facts x).other.contains fld
  | none => false

/-- The operand latches after a bundle: a field read from a window register remembers its name; one read from elsewhere, a destination named, or a write of %VWB or %JORD forgets. -/
def latchAfter (u : Seq) (b : BitVec 384) (k : Nat) : List (Option Nat) :=
  let named := (slotInstrs b).flatMap fun e => winDests k e.2
  let voided := (slotInstrs b).any fun e => voidsLatches e.2
  (List.range 6).map fun i =>
    let now : Option Nat := match (bankReads b).find? fun r => r.1 == 2 + i / 2 && r.2.1 == i % 2 with
      | some r => some (latchKey k r.2.2.1 r.2.2.2)
      | none => if readsOther b (2 + i / 2) (i % 2) then none else u.latch.getD i none
    if voided then none
    else now.filter fun x => (readSpan k (x % 1000) (1000 ≤ x)).all fun r => !named.contains r

/-- The registers that need a bank read, each once. -/
def bankRegs (b : BitVec 384) (reuse : List Bool) (k : Nat) : List Nat :=
  ((bankReads b).flatMap fun r =>
    if r.2.1 < 2 ∧ 2 ≤ r.1 ∧ r.1 ≤ 4 ∧ reuse.getD (2 * (r.1 - 2) + r.2.1) false then [] else readSpan k r.2.2.1 r.2.2.2).eraseDups

/-- Reads of each bank 0 to 7. -/
def bankCounts (b : BitVec 384) (reuse : List Bool) (k : Nat) : List Nat :=
  (List.range 8).map fun i => ((bankRegs b reuse k).filter fun r => r % 8 == i).length

/-- Replay cycles of a bundle. -/
def replaysOf (counts : List Nat) : Nat := counts.foldl (fun a n => Nat.max a (n - 1)) 0

end Sys2Proof.Machine
end

