-- ==== Sys2Proof/Machine/Sequencer.lean ====
section
/-! DEFINITION. The sequencer's steps: fetch and the dictionary copy (01 R11, R12; 05 R74 to R79), issuing a bundle to every bead (06 R109 to R117), stalls, barriers and supersteps (15 R302, R303), held operations, FENCE.FAR (14 R292). -/

namespace Sys2Proof.Machine

open Sys2Proof

/-! ## Fetch -/

/-- The length of the index stream in halfwords (01 R8). -/
def indexLen (t : Task) : Nat := imgField t.img 20 4

/-- The 64-byte line that holds a position. -/
def lineOf (t : Task) (pos : Nat) : Nat := positionVa t pos / 64

/-- What a position fetches: a line that has not arrived, a trap, or a bundle with the position after it. -/
inductive Fetched where
  | missing (line : Nat)
  | bad (code detail : Nat)
  | ok (b : BitVec 384) (next : Nat)
deriving DecidableEq, Repr

/-- The halfword at a position; its line missing; or its line's read failed, which traps with detail 8 when the bundle would issue (05 R77, 16 R314). -/
def halfOr (u : Seq) (t : Task) (pos : Nat) : Except Fetched Nat :=
  match halfAt u t pos with
  | some h => .ok h
  | none => match Tbl.find? u.lineBad (lineOf t pos) with
    | some code => .error (.bad code 8)
    | none => .error (.missing (lineOf t pos))

/-- The 24 halfwords of a literal bundle from a position (05 R75). -/
def literalAt (u : Seq) (t : Task) (pos : Nat) : Except Fetched Nat :=
  (List.range 24).foldl (fun a i =>
    match a with
    | .error e => .error e
    | .ok v => match halfOr u t (pos + i) with
      | .ok h => .ok (v + h * 2^(16 * i))
      | .error e => .error e) (.ok 0)

/-- Fetch a position (05 R74, R75). -/
def fetchAt (u : Seq) (t : Task) (pos : Nat) : Fetched :=
  if indexLen t ≤ pos then .bad 0x0301 8
  else match halfOr u t pos with
    | .error e => e
    | .ok h =>
      if h = 0xFFFF then
        if indexLen t ≤ pos + 24 then .bad 0x0301 8
        else match literalAt u t (pos + 1) with
          | .ok v => .ok (BitVec.ofNat 384 v) (pos + 25)
          | .error e => e
      else match ((u.dict.map (·.bundles)).getD [])[h]? with
        | some b => .ok b (pos + 1)
        | none => .bad 0x0301 8

/-- A literal bundle stands at a position. -/
def isLiteral (u : Seq) (t : Task) (pos : Nat) : Bool := halfAt u t pos == some 0xFFFF

/-- The line that CALL's return position still wants: it follows two bundles on (07 R133). -/
def callNeeds (u : Seq) (t : Task) (b : BitVec 384) (next : Nat) : Option Nat :=
  match slotInstr b 0 with
  | some (.call _) =>
    [next, succPos u t next].findSome? fun p =>
      if indexLen t ≤ p then none
      else match halfOr u t p with
        | .error (.missing l) => some l
        | _ => none
  | _ => none

/-- What the sequencer broadcasts in this cycle. -/
inductive Cast where
  | none
  | stall
  | trap (pos code detail : Nat)
  | bundle (pos : Nat) (b : BitVec 384) (next : Nat)
  | missing (line : Nat)
deriving DecidableEq, Repr

def castOf (s : State) (q : Nat) : Cast :=
  let u := seqOf s q
  let t := runTask s q
  if u.ended || u.point || u.sync.isSome || u.stepWait.isSome then .none
  else if 2 ≤ u.stall then .stall
  else match fetchAt u t u.pc.toNat with
    | .missing l => .missing l
    | .bad code detail => .trap u.pc.toNat code detail
    | .ok b next => match callNeeds u t b next with
      | some l => .missing l
      | none => .bundle u.pc.toNat b next

/-- Ask for a line that the sequencer waits for. -/
def askLine (s : State) (q line : Nat) : State :=
  if (seqOf s q).lineDue.isSome then s
  else let d := drawLatency s; modSeq d.2 q fun u => { u with lineDue := some (line, s.cycle + d.1) }

/-- FETCH_LINE_ARRIVE: the line is read as a load of the partition; a fault is resolved or kept for the bundle that would issue (05 R77). -/
def execFetchLineArrive (s : State) : Out :=
  .next (match s.ev with
    | .unit q =>
      let u := seqOf s q.val
      match u.run, u.lineDue with
      | some r, some (line, due) =>
        if s.cycle < due then s
        else match resolvePiece s r.part (64 * line) 64 false with
          | (s1, .wait) => s1
          | (s1, .fail code) => modSeq s1 q.val fun u => { u with lineDue := none, lineBad := Tbl.insert (Tbl.erase u.lineBad line) line code }
          | (s1, .ok pa) =>
            let x := readPhys s1 pa 64
            modSeq x.2 q.val fun u => { u with lineDue := none, lines := Tbl.insert (Tbl.erase u.lines line) line (BitVec.ofNat 512 x.1) }
      | _, _ => s
    | _ => s)

/-! ## The dictionary copy (01 R11, R12) -/

/-- Bytes of an image section read for a launch, or the failure or the wait of their translation. -/
def readImage (s : State) (p va n : Nat) : State × Xr × List Byte :=
  let r := resolveRange s p false (n / 4096 + 2) va n
  match r.2.1 with
  | .ok pa => let x := readPieces r.1 r.2.2; (x.2.2, .ok pa, x.1)
  | e => (r.1, e, [])

/-- Read a table of the image, if the image header allows: its bytes, a wait, or a failure. -/
def readTable (s : State) (p base off n max_ : Nat) : State × Xr × List Byte :=
  if n = 0 ∨ max_ < n ∨ off % 64 ≠ 0 then (s, .ok 0, []) else readImage s p (base + off) (8 * n)

/-- The routine table's entries: offset, length, reserved. -/
def routineRows (l : List Byte) (n : Nat) : List (Nat × Nat × Nat) :=
  (List.range n).map fun i => (leOf ((l.drop (8 * i)).take 4), leOf ((l.drop (8 * i + 4)).take 2), leOf ((l.drop (8 * i + 6)).take 2))

/-- The routine table breaks a limit (01 R9). -/
def routinesBad (rows : List (Nat × Nat × Nat)) : Bool :=
  (rows.any fun r => r.1 % 8 ≠ 0 || r.2.1 = 0 || decide (1536 < r.2.1) || r.2.2 ≠ 0) || decide (1536 < rows.foldl (fun a r => a + r.2.1) 0)

/-- The schedule table's entries: position, occ_max, dlen_max, reserved. -/
def scheduleRows (l : List Byte) (n : Nat) : List (Nat × Nat × Nat × Nat) :=
  (List.range n).map fun i =>
    (leOf ((l.drop (8 * i)).take 4), leOf ((l.drop (8 * i + 4)).take 2), leOf ((l.drop (8 * i + 6)).take 1), leOf ((l.drop (8 * i + 7)).take 1))

/-- Element i of n-byte records. -/
def recordAt (l : List Byte) (n i : Nat) : Nat := leOf ((l.drop (n * i)).take n)

/-- The dictionary's bundles. -/
def bundlesOf (l : List Byte) (n : Nat) : List (BitVec 384) := (List.range n).map fun i => BitVec.ofNat 384 (recordAt l 48 i)

/-- A microword of a routine of length `len` at place `i` breaks 13 R267. -/
def microBad (len i w : Nat) : Bool :=
  match decode .micro w with
  | .error _ => true
  | .ok x =>
    (match x with
      | .uloop f => decide (len ≤ f.target.val)
      | _ => false) || (i + 1 == len && x != .uend)

/-- The routines of an image in table order: their offset, their words' place in the store and their length (01 R9). -/
def routineSpans (rows : List (Nat × Nat × Nat)) : List (Nat × Nat × Nat) :=
  (rows.foldl (fun (a : List (Nat × Nat × Nat) × Nat) r => (a.1 ++ [(r.1, a.2, r.2.1)], a.2 + r.2.1)) ([], 0)).1

/-- Read every routine: the store's words in order with the place and length in their routine. -/
def readRoutines (s : State) (p base : Nat) : List (Nat × Nat × Nat) → State × Xr × List (Nat × Nat × Nat × Nat)
  | [] => (s, .ok 0, [])
  | (off, start, len) :: r =>
    match readImage s p (base + off) (8 * len) with
    | (s1, .ok _, l) =>
      let q := readRoutines s1 p base r
      (q.1, q.2.1, ((List.range len).map fun i => (start + i, i, len, recordAt l 8 i)) ++ q.2.2)
    | (s1, e, _) => (s1, e, [])

/-- Bytes that a copy moves: bundles, routines, schedules. -/
def copyBytes (t : Task) : Nat :=
  48 * imgField t.img 8 4 + t.routines.foldl (fun a r => a + 8 * r.2) 0 + 8 * t.scheds.length

/-- The Rod-units whose stores a pass of width W uses: a joined pass holds halves of one dictionary in both (01 R12). -/
def storeUnits (q w : Nat) : List Nat := if w = 8 then [q, q + 1] else [q]

/-- Whether a unit's stores record the launch. -/
def storesHold (s : State) (q w launch : Nat) : Bool :=
  ((storeUnits q w).all fun i => ((seqOf s i).dict.map (·.launch)) == some launch) &&
    (List.range w).all fun p => (coreGet s (coreOf s q p)).ulaunch == launch

/-- What a copy finds in memory: a wait, a trap with its code and detail, or bundles, routine words with their place in store and routine, routine spans, and schedules. -/
inductive Copied where
  | wait
  | trap (code detail : Nat)
  | ok (bundles : List (BitVec 384)) (words : List (Nat × Nat × Nat × Nat)) (spans : List (Nat × Nat × Nat)) (scheds : List (Nat × Nat × Nat))

/-- A read of the copy: what follows it, or its wait, or its fault, which has detail 9 (01 R12). -/
def copyRead (r : State × Xr × List Byte) (f : State → List Byte → State × Copied) : State × Copied :=
  match r with
  | (s, .ok _, l) => f s l
  | (s, .wait, _) => (s, .wait)
  | (s, .fail code, _) => (s, .trap code 9)

/-- Read and check the dictionary, the routine table and the routines, and read the schedule table, as memory holds them now (01 R11, R12; 05 R79, 13 R267). DESIGN CHOICE (log 52): a routine
table that no longer keeps 01 R9 is refused as its first microword would be; a schedule table that no longer keeps R10 is taken as it stands. -/
def copyImage (s : State) (t : Task) (p : Nat) : State × Copied :=
  let base := cmdField t.cmd 16 8
  let n := imgField t.img 8 4
  copyRead (readImage s p (base + imgField t.img 12 4) (48 * n)) fun s l =>
    let bs := bundlesOf l n
    match bs.findIdx? bundleBad with
    | some i => (s, .trap 0x0302 i)
    | none => copyRead (readTable s p base (imgField t.img 28 4) (imgField t.img 32 2) 64) fun s l =>
      let rows := routineRows l (imgField t.img 32 2)
      if routinesBad rows then (s, .trap 0x0305 0)
      else match readRoutines s p base (routineSpans rows) with
        | (s, .wait, _) => (s, .wait)
        | (s, .fail code, _) => (s, .trap code 9)
        | (s, .ok _, ws) =>
          match ws.find? fun w => microBad w.2.2.1 w.2.1 w.2.2.2 with
          | some w => (s, .trap 0x0305 w.1)
          | none => copyRead (readTable s p base (imgField t.img 36 4) (imgField t.img 34 2) 16) fun s l =>
            (s, .ok bs ws (routineSpans rows) ((scheduleRows l (imgField t.img 34 2)).map fun x => (x.1, x.2.1, x.2.2.1)))

/-- DICTIONARY_COPY: what is read is checked, a refusal or a fault that nothing resolves aborting the launch, and the stores take it. DESIGN CHOICE (log 53): the copy moves 128 bytes a
cycle, and the manual does not say which of its bytes is read when; here all are read in the cycle in which its time has run out, so a fault is met only then. -/
def execDictionaryCopy (s : State) : Out :=
  .next (match s.ev with
    | .unit q =>
      let u := seqOf s q.val
      match u.run, u.copying with
      | some r, some due =>
        if s.cycle < due ∨ u.stop.isSome then s
        else match copyImage s (runTask s q.val) r.part with
          | (s1, .wait) => s1
          | (s1, .trap code detail) => takeTrap s1 q.val 0 0xFFFFFF code detail
          | (s1, .ok bs ws spans scheds) =>
            let s2 := (storeUnits q.val r.w).foldl (fun s i => modSeq s i fun u => { u with dict := some ⟨r.launch, bs, scheds⟩ }) s1
            let s3 := (List.range r.w).foldl (fun s p => modCore s (coreOf s q.val p) fun c =>
              { c with ulaunch := r.launch,
                       ustore := ws.foldl (fun m w => Tbl.set 0 m w.1 (BitVec.ofNat 64 w.2.2.2)) [],
                       ulen := spans.zipIdx.map fun e => (e.2, e.1.2.1, e.1.2.2) }) s2
            modSeq s3 q.val fun u => { u with copying := none }
      | _, _ => s
    | _ => s)

/-! ## Freezes (06 R117) -/

/-- The limits of WAIT and the fence of DRAIN that have been met stand no longer. DESIGN CHOICE (log 73): WAIT compares in the cycles after its bundle's, so that it counts the counted
operations of its own bundle. -/
def clearMet (c : Core) : Core :=
  let c1 := match c.limits with
    | some l => if limitsMet c l then { c with limits := none } else c
    | none => c
  match c1.drain with
  | some (b, _) => if anyBusy c1 b then c1 else { c1 with drain := none }
  | none => c1

/-- A bead freezes its Rod: a faulting or held access, a FENCE.FAR, a DRAIN, a WAIT, a kernel end that waits. -/
def beadFrozen (c : Core) : Bool :=
  !c.parked && (c.held ≠ [] || (c.ending && !c.retired) || c.limits.isSome || c.drain.isSome || c.ops.any fun o => o.waiting || isFar o.kind)

/-- Nothing that a bead has issued is outstanding on any path; elements that its streams ask for after its last bundle are not awaited (15 R302, R303). -/
def quiet (c : Core) : Bool := !(anyBusy c (4 * c.bundleNo) || c.ops.any (fun o => decide (o.path ≤ 5)) || !(outLive c).isEmpty)

/-- Every bead of a unit has issued its queue, and what it issued has performed. -/
def coreArrived (c : Core) : Bool := c.bq.isEmpty && c.held.isEmpty && quiet c
def allArrived (s : State) (q : Nat) : Bool := (coresOf s q).all fun i => coreArrived (coreGet s i)

/-! ## Issue (06 R109 to R117) -/

/-- A bead that issues a bundle in this cycle. -/
structure Head where
  bead : Nat
  core : Nat
  pos : Nat
  b : BitVec 384
  reuse : List Bool
  k : Nat
deriving DecidableEq, Repr

/-- The gang values, the loop indices and `%JORD` of bead 0 that go with a bundle (06 R104, 07 R138). -/
def gangOfCast (u : Seq) (jord : Nat) : Tbl TWord :=
  let g := (List.range 16).foldl (fun t i => Tbl.set ⟨0, false⟩ t i (Tbl.get ⟨0, false⟩ u.gang i)) []
  g ++ (u.loops.zipIdx.map fun e => (16 + e.2, ⟨e.1.index.zeroExtend 64, false⟩)) ++ [(22, ⟨BitVec.ofNat 64 jord, false⟩)]

/-- The checks of the sequencer on a bundle (16 R314): a literal's, a loop-end bit or a control form where none may stand (07 R131, R136, R137, R138, R140). -/
def seqTraps (u : Seq) (lit : Bool) (pos : Nat) (b : BitVec 384) : List (Nat × Nat × Nat) :=
  let pending := u.target.isSome
  let endBad : Bool := match u.loops with
    | [] => true
    | e :: _ => match e.stop with
      | some p => p ≠ pos
      | none => false
  let ctlBad : Bool := match slotInstr b 0 with
    | some (.loop _) | some (.loopi _) => decide (6 ≤ u.loops.length) || pending
    | some (.lbrk _) => u.loops.isEmpty || pending
    | some (.lidx f) => decide (u.loops.length ≤ f.level.val) || pending
    | some .schsel => ((u.dict.map (·.scheds)).getD []).isEmpty || pending
    | some i => isControl i && pending
    | none => false
  (if lit then staticTrap b else []) ++ (if bLend b && (pending || endBad) then [(0, 0x0302, 0xFF)] else []) ++ if ctlBad then [(2, 0x0302, 0)] else []

/-- A bead meets the head of its queue: a bundle lets results land, a stall cycle holds them (05 R83, 06 R109). -/
def popHead (c : Core) (e : Option Entry) : Core :=
  match c.bq ++ e.toList with
  | [] => c
  | .stall :: r => { c with bq := r }
  | .bundle _ g _ :: r => { (advanceCore { c with bq := r }).countLanded with cur := g }

/-- The entry that a bead meets. -/
def headEntry (c : Core) (e : Option Entry) : Option Entry := (c.bq ++ e.toList).head?

/-- The entry that a cast puts on every bead's queue. `c0` is bead 0 as it stands at issue. -/
def castEntry (u : Seq) (c0 : Core) : Cast → Option Entry
  | .stall => some .stall
  | .bundle pos b _ => some (.bundle pos (gangOfCast u c0.jord.toNat) (honoured u b c0.jord.toNat))
  | _ => none

/-- The words of a bundle for a bead. Idle vector slots carry no instruction. -/
def wordsOf (q p pos : Nat) (b : BitVec 384) : List Pending :=
  (List.range 8).filterMap fun i =>
    if slotWord b i = 0 ∧ 2 ≤ i ∧ i ≤ 4 then none
    else some ⟨slotKind i, slotWord b i, ⟨Fin.ofNat 48 q, Fin.ofNat 8 p, Fin.ofNat 8 i, pos, Fin.ofNat 7 (if 6 ≤ i then bCtr b (i - 6) else 0), bLend b⟩⟩

/-- The trap of a bead's bundle: a command's failure, or a check (16 R314). -/
def headTrap (s : State) (q : Nat) (h : Head) (extra : List (Nat × Nat × Nat)) : Option (Nat × Nat) :=
  let c := coreGet s h.core
  if c.parked then none
  else match c.failure with
    | some t => some t
    | none => firstTrap (extra ++ issueTraps { s with cur := ⟨Fin.ofNat 48 q, Fin.ofNat 8 h.bead, 0, h.pos, 0, false⟩ } h.b)

/-- A bundle issues on a bead: its streams' positions will rise, those of output streams unless `%CMK` is 0 (09 R174), its bank losses count, its words go to execution. -/
def issueHead (s : State) (q : Nat) (h : Head) : State :=
  let written := if (coreGet s h.core).cmk = 0 then [] else (slotInstrs h.b).flatMap fun e => (facts e.2).zout
  let zs := (((slotInstrs h.b).flatMap fun e => (facts e.2).zin) ++ written).eraseDups
  let losses := (bankCounts h.b h.reuse h.k).zipIdx.filter fun e => 2 ≤ e.1
  let s1 := modCore s h.core fun c =>
    let adv : List Landing := if c.parked then [] else zs.map fun z => ⟨1, 0, c.bundleNo, .advance (Fin.ofNat 8 z)⟩
    { c with inflight := c.inflight ++ adv ++ losses.map fun e => ⟨1, 0, c.bundleNo, .blcAdd e.2 (e.1 * (e.1 - 1) / 2)⟩ }
  { s1 with issue := s1.issue ++ wordsOf q h.bead h.pos h.b }

/-- The program counter and the pending target after a bundle (07 R131). -/
def afterBundle (u : Seq) (next : Nat) : Seq :=
  match u.target with
  | some (t, n) => if n ≤ 1 then { u with pc := t, target := none } else { u with pc := BitVec.ofNat 64 next, target := some (t, n - 1) }
  | none => { u with pc := BitVec.ofNat 64 next }

/-- The sequencer after broadcasting a bundle: position, stall count, operand latches, and the close of an iteration unless LBRK makes it (07 R136, R137). -/
def castDone (cycle : Nat) (u : Seq) (pos : Nat) (b : BitVec 384) (next k : Nat) : Seq :=
  let u1 := { afterBundle u next with stall := if bStall b = 0 then 0 else bStall b + 1, latch := latchAfter u b k }
  let lbrk : Bool := match slotInstr b 0 with
    | some (.lbrk _) => true
    | _ => false
  if bLend b && !lbrk then closeLoop cycle pos u1 else u1

/-- Begin the drain of a unit: its stop cycle is this one (16 R317); until its save begins `due` holds the device time of that cycle (16 R321). -/
def beginDrain (s : State) (q : Nat) : State :=
  modSeq s q fun u => { u with stop := u.stop.map fun st => { st with phase := .draining, cycle := s.cycle, due := now s } }

/-- After a cycle that was not frozen: a requested stop takes effect; a pre-emption point stops once every queue is empty and, at a superstep, the pass has arrived (16 R317, R318; 15 R304).
A request that arrives while the pass waits at its SSTEP is honoured there too (23 R378). -/
def stopAfter (s : State) (q : Nat) : State :=
  let u := seqOf s q
  match u.stop with
  | some st => if st.phase = .requested ∧ st.cycle < s.cycle then beginDrain s q else s
  | none =>
    let asked : Bool := u.stepWait.isSome && match u.preempt with
      | some at_ => decide (at_ < s.cycle)
      | none => false
    if (u.point || asked) && (coresOf s q).all (fun i => (coreGet s i).bq.isEmpty) && (u.stepWait.isNone || allArrived s q) then
      modSeq s q fun u => { u with stop := some ⟨.preempt, .draining, s.cycle, 0, 0, 0, 0xFF, 0xFFFFFF, none, now s, false⟩ }
    else s

/-- The masks that BARCFG wrote stand from the next bundle that is broadcast (15 R301). -/
def newBars (u : Seq) : Cast → Seq
  | .bundle _ _ _ => { u with bars := u.barNext.foldl (fun t e => Tbl.insert (Tbl.erase t e.1) e.1 e.2) u.bars, barNext := [] }
  | _ => u

/-- A cycle of waiting for a binding's descriptor counts against the slack that the descriptor will give (11 R229). -/
def noteWait (z : Nat) (c : Core) : Core :=
  let st := streamOf c z
  if st.desc.isNone then setStream c z { st with waited := st.waited + 1 } else c

/-- One cycle of a unit that is not frozen, once what it broadcasts is known. The sequencer's own checks are met by bead 0, and by every bead that issues the bundle in its cycle. -/
def issueCast (s : State) (q : Nat) (cast : Cast) : State :=
  let u := newBars (seqOf s q) cast
  let t := runTask s q
  let cores := coresOf s q
  let c0 := advanceCore (coreGet s (coreOf s q 0))
  let ent := castEntry u c0 cast
  let s1 := cores.foldl (fun s i => modCore s i fun c => popHead c ent) s
  let found := cores.zipIdx.filterMap fun e =>
    match headEntry (coreGet s e.1) ent with
    | some (.bundle pos g reuse) => some (e.2, e.1, pos, reuse, (Tbl.get ⟨0, false⟩ g 22).v.toNat, fetchAt u t pos)
    | _ => none
  match found.findSome? fun e => match e.2.2.2.2.2 with
      | .missing l => some l
      | _ => none with
  | some l => askLine s q l
  | none =>
    let heads : List Head := found.filterMap fun e => match e.2.2.2.2.2 with
      | .ok b _ => some ⟨e.1, e.2.1, e.2.2.1, b, e.2.2.2.1, e.2.2.2.2.1⟩
      | _ => none
    let live := heads.filter fun h => !(coreGet s1 h.core).parked
    if live.any fun h => loadHeld (coreGet s1 h.core) h.b then s
    else
      let waits := live.flatMap fun h => (waitingStreams (coreGet s1 h.core) h.b).map fun z => (h.core, z)
      if waits ≠ [] then
        let dry := waits.filter fun w => (streamOf (coreGet s w.1) w.2).slack = 0
        let s0 := (waits.filter fun w => (dry.filter (· ≠ w)).isEmpty).foldl (fun s w => modCore s w.1 (noteWait w.2)) s
        if dry.isEmpty then
          stopAfter (waits.foldl (fun s w => modCore s w.1 fun c => setStream c w.2 { streamOf c w.2 with slack := (streamOf c w.2).slack - 1 }) s0) q
        else s0
      else
        let extra (h : Head) : List (Nat × Nat × Nat) := if (coreGet s h.core).bq.isEmpty then seqTraps u (isLiteral u t h.pos) h.pos h.b else []
        let judged := heads.map fun h => (h, headTrap s1 q h (extra h))
        let s2 := judged.foldl (fun s e => if e.2.isNone then issueHead s q e.1 else s) s1
        let good := judged.filter fun e => e.2.isNone
        let rep := good.foldl (fun a e => Nat.max a (replaysOf (bankCounts e.1.b e.1.reuse e.1.k))) 0
        let u1 := match cast with
          | .bundle pos b next => if good.any fun e => e.1.bead = 0 then castDone s.cycle u pos b next c0.jord.toNat else u
          | .stall => { u with stall := u.stall - 1 }
          | _ => if 2 ≤ u.stall ∧ (u.sync.isSome ∨ u.stepWait.isSome) then { u with stall := u.stall - 1 } else u
        let s3 := setSeq s2 q { u1 with replay := rep }
        let own : List (Nat × Nat × Nat × Nat) := match cast with
          | .trap pos code detail => [(0, pos, code, detail)]
          | _ => []
        let lost := found.filterMap fun e => match e.2.2.2.2.2 with
          | .bad code detail => some (e.1, e.2.2.1, code, detail)
          | _ => none
        let traps := own ++ (judged.filterMap fun e => e.2.map fun t => (e.1.bead, e.1.pos, t.1, t.2)) ++ lost
        stopAfter (traps.foldl (fun s e => takeTrap s q e.1 e.2.1 e.2.2.1 e.2.2.2) s3) q

/-- BUNDLE_ISSUE: one cycle of a Rod-unit's sequencer and beads. A frozen cycle issues nothing. -/
def execBundleIssue (s : State) : Out :=
  .next (match s.ev with
    | .unit q =>
      let u := seqOf s q.val
      match u.run with
      | none => s
      | some _ =>
        if (u.stop.map fun st => decide (st.phase ≠ .requested)) == some true then s
        else if u.copying.isSome ∨ u.restoring.isSome then stopAfter s q.val
        else
          let s1 := (coresOf s q.val).foldl (fun s i => modCore s i clearMet) s
          if 0 < u.replay then modSeq s1 q.val fun u => { u with replay := u.replay - 1 }
          else if (coresOf s1 q.val).any fun i => beadFrozen (coreGet s1 i) then s1
          else match castOf s1 q.val with
            | .missing l => askLine s1 q.val l
            | c => issueCast s1 q.val c
    | _ => s)

/-- STALL_END: the stall cycles of a bundle are over (05 R83). -/
def execStallEnd (s : State) : Out :=
  .next (match s.ev with
    | .unit q => if (seqOf s q.val).stall = 1 then modSeq s q.val fun u => { u with stall := 0 } else s
    | _ => s)

/-! ## Held operations (11 R221) -/

/-- HELD_OP_ENTER: the oldest operation held in its slot enters once its limit allows. -/
def execHeldOpEnter (s : State) : Out :=
  .next (match s.ev with
    | .core c =>
      match (coreGet s c.val).held with
      | [] => s
      | o :: r =>
        if overLimit (coreGet s c.val) o.kind then s
        else enterOp (modCore s c.val fun x => { x with held := r }) c.val o
    | _ => s)

/-! ## Barriers and supersteps (15 R302, R303) -/

/-- Bead p issues nothing more for p times `%SKEW` cycles after bead 0: its queue is filled up with stall cycles. -/
def padQueues (s : State) (q : Nat) : State :=
  let k := ((seqOf s q).run.map (·.skew)).getD 0
  (coresOf s q).zipIdx.foldl (fun s e => modCore s e.1 fun c =>
    { c with bq := c.bq ++ List.replicate (e.2 * k - c.bq.length) .stall }) s

/-- The member beads of a unit's barrier wait. -/
def syncMembers (u : Seq) (w : SyncWait) : List Nat := (List.range (widthOf u)).filter fun p => (barMask u w.barrier).getLsbD p

/-- Record the members that have arrived by the end of this cycle. -/
def noteArrivals (s : State) (q : Nat) : State :=
  let u := seqOf s q
  match u.sync with
  | none => s
  | some w =>
    let new := (syncMembers u w).filter fun p =>
      let c := coreGet s (coreOf s q p)
      !w.arrived.contains p && (c.parked || (c.bq.isEmpty && quiet c))
    if new = [] then s else modSeq s q fun u => { u with sync := some { w with arrived := w.arrived ++ new, last := s.cycle } }

/-- Every member has arrived, and two cycles have passed since the later of bead 0's issue and the last arrival. -/
def syncDone (s : State) (q : Nat) : Bool :=
  let u := seqOf s q
  match u.sync with
  | none => false
  | some w => (syncMembers u w).all w.arrived.contains && decide (Nat.max w.cycle w.last + 2 ≤ s.cycle)

/-- BARRIER_RELEASE. -/
def execBarrierRelease (s : State) : Out :=
  .next (match s.ev with
    | .unit q => if syncDone s q.val then padQueues (modSeq s q.val fun u => { u with sync := none }) q.val else s
    | _ => s)

/-- A unit's pass has arrived at the boundary it waits for. -/
def stepArrived (s : State) (q : Nat) : Bool := (seqOf s q).stepWait.isSome && allArrived s q

/-- Every pass of a launch copy's group stands at boundary j or beyond it, or has completed (15 R303): whether running, stopping, kept or saved it must have arrived. One that is
being restored stands in the group as its slot holds it (15 R304). -/
def groupAt (s : State) (r : PassRun) (j : Nat) : Bool :=
  ((List.range 48).all fun q =>
    let u := seqOf s q
    !runsLaunch s q r.task r.launch (some r.copy) || u.restoring.isSome || u.complete || decide (j ≤ u.steps) || (u.stepWait == some j && stepArrived s q)) &&
  s.rk.saved.all fun e => !savedOf r.task (some r.copy) e.2 || decide (j ≤ e.2.seq.steps) || (e.2.seq.stepWait == some j && e.2.cores.all coreArrived)

/-- A boundary completes if a pass of a context waits at it and every pass of the group has arrived: its passes are released 16 cycles later (15 R303). -/
def noteStep (s : State) (u : Seq) : State :=
  match u.run, u.stepWait, u.release with
  | some r, some j, none =>
    if groupAt s r j then
      let mark (x : Seq) : Seq := if x.stepWait == some j && x.release.isNone then { x with release := some (s.cycle + 16) } else x
      let s1 := (List.range 48).foldl (fun s i => if runsLaunch s i r.task r.launch (some r.copy) then modSeq s i mark else s) s
      { s1 with rk := { s1.rk with saved := s1.rk.saved.map fun e => (e.1, if savedOf r.task (some r.copy) e.2 then { e.2 with seq := mark e.2.seq } else e.2) } }
    else s
  | _, _, _ => s

/-- At the end of a cycle the boundary that a unit's pass waits at completes. -/
def noteBoundary (s : State) (q : Nat) : State := noteStep s (seqOf s q)

/-- At the end of a cycle the boundaries complete that saved passes alone wait at (15 R303, R304). -/
def noteSaved (s : State) : State := s.rk.saved.foldl (fun s e => noteStep s e.2.seq) s

/-- The status of a copy or network command that waited for the boundary lands (15 R307), and the copies of host and peer lines are dropped (14 R289). -/
def stepCore (c : Core) : Core := c.ops.foldl landOp (dropL1 c)

/-- SUPERSTEP_RELEASE. A pre-emption honoured at the boundary keeps the pass stopped there; it proceeds when it resumes (15 R304). -/
def execSuperstepRelease (s : State) : Out :=
  .next (match s.ev with
    | .unit q =>
      let u := seqOf s q.val
      match u.stepWait, u.release with
      | some j, some c =>
        if c ≤ s.cycle ∧ u.stop.isNone then
          let s1 := modSeq s q.val fun u => { u with steps := j, stepWait := none, release := none }
          padQueues ((coresOf s1 q.val).foldl (fun s i => modCore s i stepCore) s1) q.val
        else s
      | _, _ => s
    | _ => s)

/-! ## FENCE.FAR (14 R292) -/

/-- The cores of a partition. -/
def partCores (s : State) (p : Nat) : List Nat :=
  (List.range 24).flatMap fun n => (List.range 8).filterMap fun b => if rodOwner s n (b / 4) = some p then some (coreAt s n b) else none

/-- A FENCE.FAR of a core that has sent its serialise. -/
def farOp (s : State) (cid id : Nat) : Option AOp := (coreGet s cid).ops.find? fun o => o.id == id && isFar o.kind && mayPerform s cid o

/-- SERIALISE_RECEIVE: a core receives the serialise of the core and fence that the operand names as 208 times the number plus the core; what it has issued on path LS is to perform before it acknowledges. An access held in its slot by a fault has not been issued (06 R117), nor has what
waits with it for that fault. -/
def execSerialiseReceive (s : State) : Out :=
  .next (match s.ev with
    | .op c n =>
      match farOp s (n % 208) (n / 208) with
      | none => s
      | some o =>
        if o.acks / 2^c.val % 2 = 1 then s
        else
          let s1 := modCore s (n % 208) fun x => { x with ops := x.ops.map fun e => if e.id = o.id then { e with acks := e.acks + 2^c.val } else e }
          let l := ((coreGet s1 c.val).ops.filter fun e => e.path == 0 && !isFar e.kind && !e.waiting && (pureLoad e.kind || !mateWaits (coreGet s1 c.val) e)).map (·.id)
          if l = [] then s1 else modCore s1 c.val fun x => { x with serial := x.serial ++ [(n % 208, n / 208, l)] }
    | _ => s)

/-- Every core of the partition has received the serialise and acknowledged it. -/
def farDone (s : State) (cid : Nat) (o : AOp) : Bool :=
  ((partCores s (partOfCore s cid)).all fun c => o.acks / 2^c % 2 == 1) &&
    s.cores.all fun e => e.2.serial.all fun x => !(x.1 == cid && x.2.1 == o.id) || e.2.ops.all fun y => !x.2.2.contains y.id

/-- FENCE_FAR_DONE: the count of acknowledgements is complete and the freeze ends. -/
def execFenceFarDone (s : State) : Out :=
  .next (match s.ev with
    | .op c id =>
      match farOp s c.val id with
      | none => s
      | some o =>
        if farDone s c.val o then
          let s1 := { s with cores := s.cores.map fun e => (e.1, { e.2 with serial := e.2.serial.filter fun x => !(x.1 == c.val && x.2.1 == id) }) }
          modCore s1 c.val fun x => removeOp x o
        else s
    | _ => s)

end Sys2Proof.Machine
end

