-- ==== Sys2Proof/Machine/Schedule.lean ====
section
/-! DEFINITION. The Reckoner's schedule: levels, ends and their signals (03 R44, R55 to R58; 17 R336 to R340), releases, dispatch and the start of a pass (03 R49, R50; 02 R38), pre-emption (03 R51, R52), mirrored copies (03 R59, R60), the progress controller (03 R62). -/

namespace Sys2Proof.Machine

open Sys2Proof

/-- Quotient rounded up. -/
def ceilDiv (a b : Nat) : Nat := (a + b - 1) / b

/-! ## The error ring (16 R329) -/

/-- The 32 bytes of an error record. -/
def errorBytes (kind die lasting unit time blast addr : Nat) : List Byte :=
  leBytes kind 2 ++ leBytes die 1 ++ leBytes lasting 1 ++ leBytes unit 4 ++ leBytes time 8 ++ leBytes blast 5 ++ leBytes 0 3 ++ leBytes addr 8

/-- Append a record and raise the PF's MSI-X vector 4; a full ring drops the record and sets overflow, a disabled one takes none. -/
def errorRecord (s : State) (kind die lasting unit blast addr : Nat) : State :=
  let base := pfGet s 0xF2000 8
  let head := pfGet s 0xF2008 1
  if base = 0 then raiseMsix s 0 4
  else if (head + 1) % 256 = pfGet s 0xF2010 1 then raiseMsix (pfOr s 0xF2018 4 1) 0 4
  else deviceWrite (pfSet s 0xF2008 1 ((head + 1) % 256)) (base + 32 * head) (errorBytes kind die lasting unit (now s) blast addr) true

/-! ## Levels (03 R56 to R58) -/

def partDyn (s : State) (p : Nat) : PartDyn := Tbl.get ⟨0, 0, 0, 0, false⟩ s.rk.parts p
def setPartDyn (s : State) (p : Nat) (d : PartDyn) : State := { s with rk := { s.rk with parts := Tbl.set ⟨0, 0, 0, 0, false⟩ s.rk.parts p d } }

/-- Clear the DL2 toggle of every session whose valid record names the partition. -/
def clearToggles (s : State) (p : Nat) : State :=
  (List.range 4096).foldl (fun s x =>
    let ctl := sessField s x 0 1
    if bitsAt ctl 0 1 = 1 ∧ sessField s x 1 1 = p ∧ bitsAt ctl 2 1 = 1 then pfSet s (0x20000 + 64 * x) 1 (ctl - 4) else s) s

/-- A change of level clears every counter and is timed; entering DL2 clears the toggles, entering DL3 raises the alarm. DESIGN CHOICE (log 59): a forced level that leaps over DL2 does not enter
it, and clears no toggle. -/
def changeLevel (s : State) (p lv : Nat) : State :=
  let old := levelOf s p
  let w := partField s p 48 4
  let s1 := setPartField s p 48 4 (w - old + lv)
  let s2 := setPartDyn s1 p { partDyn s1 p with low := 0, high := 0, change := BitVec.ofNat 64 (now s) }
  if lv = 2 ∧ old ≠ 2 then clearToggles s2 p
  else if lv = 3 ∧ old ≠ 3 then raiseMsix (setPartField s2 p 48 4 ((BitVec.ofNat 32 (partField s2 p 48 4)) ||| 0x200).toNat) 0 2
  else s2

/-- An end whose signal is issued moves the level (03 R57), unless a level is forced. -/
def noteLevel (s : State) (t : Task) (code : Nat) : State :=
  let p := t.part
  let lv := levelOf s p
  if bitsAt (partField s p 48 4) 31 1 = 1 ∨ t.cls = 2 then s
  else if code = 0x0101 ∨ code = 0x0102 then (if lv < 3 then changeLevel s p (lv + 1) else s)
  else if t.cls = 0 ∧ (code = 0 ∨ code = 0x0503) then
    let slack : Int := (t.deadline.getD 0 : Nat) - (now s : Nat)
    let d := partDyn s p
    let low := if slack < (partField s p 20 4 : Nat) then Nat.min 4 (d.low + 1) else 0
    let high := if (partField s p 24 4 : Nat) ≤ slack then Nat.min 64 (d.high + 1) else 0
    if low = 4 ∧ lv < 3 then changeLevel s p (lv + 1)
    else if high = 64 ∧ (lv = 1 ∨ lv = 2) ∧ d.change.toNat + 10000000 ≤ now s then changeLevel s p (lv - 1)
    else setPartDyn s p { d with low := low, high := high }
  else s

/-- DLCTL_WRITE (03 R58): an access of a partition record that covers bytes of DLCTL, the bytes it does not cover keeping their fields. alarm clears on a written one;
a forced level is taken at once, and setting or clearing force_en counts as a change. -/
def execDlctlWrite (s : State) : Out :=
  .next (match s.ev with
    | .taskRange p off size v =>
      let old := partField s p.val 48 4
      let bs := leBytes v.toNat size.val
      let get (i : Nat) : Nat :=
        if off.val ≤ i ∧ i < off.val + size.val then (bs.getD (i - off.val) 0).toNat
        else bitsAt old (8 * (i - 48)) 8 - (if i = 49 then bitsAt old 9 1 * 2 else 0)
      let w := get 48 + 2^8 * get 49 + 2^16 * get 50 + 2^24 * get 51
      let force : Bool := bitsAt w 31 1 = 1
      let keep := old % 4 + (if bitsAt w 9 1 = 1 then 0 else bitsAt old 9 1 * 2^9)
      let s1 := setPartField s p.val 48 4 (keep + bitsAt w 10 2 * 2^10 + bitsAt w 31 1 * 2^31)
      let lv := if force then bitsAt w 10 2 else old % 4
      if lv ≠ old % 4 ∨ bitsAt w 31 1 ≠ bitsAt old 31 1 then changeLevel s1 p.val lv else s1
    | _ => s)

/-! ## Ends (03 R44, 17 R336, R337) -/

/-- The bytes 0 to 29 of a completion signal. -/
def signalBytes (value start end_ code detail flags slip : Nat) : List Byte :=
  leBytes value 8 ++ leBytes start 8 ++ leBytes end_ 8 ++ leBytes code 2 ++ leBytes detail 2 ++ leBytes flags 1 ++ leBytes (Nat.min 255 slip) 1

/-- A task gives up its utilisation and slots. -/
def giveUp (s : State) (t : Task) : State :=
  let s1 := setPartField s t.part 4 4 (partField s t.part 4 4 - t.util)
  let o := if t.cls = 0 then 12 else 14
  if t.cls = 2 then s1 else setPartField s1 t.part o 2 (partField s1 t.part o 2 - t.slots)

/-- A unit runs a pass of a task that is not complete. -/
def taskActive (s : State) (ti : Nat) : Bool := (List.range 48).any fun q => !(seqOf s q).complete && (((seqOf s q).run.map fun r => r.task == ti)) == some true

/-- A unit holds a pass of a task. -/
def taskRuns (s : State) (ti : Nat) : Bool := (List.range 48).any fun q => (((seqOf s q).run.map fun r => r.task == ti)) == some true

/-- A unit runs a pass of a launch. -/
def launchRuns (s : State) (l : Nat) : Bool := (List.range 48).any fun q => (((seqOf s q).run.map fun r => r.launch == l)) == some true

/-- Passes of an ended launch that still drain keep its record, apart from the task-table entry, as key 8192 plus the launch. -/
def detach (s : State) (ti : Nat) : State :=
  if taskRuns s ti then
    let t := taskOf s ti
    let k := 8192 + t.launch
    (List.range 48).foldl (fun s q => modSeq s q fun u => { u with run := u.run.map fun r => if r.task = ti then { r with task := k } else r })
      (setTask s k { t with st := .free })
  else s

/-- A launch ends, is aborted or is skipped: its write is issued, and in the same cycle the entry becomes FREE, or PENDING for the next period (03 R44).
A class 1 task past its deadline carries DEADLINE_MISSED in place of OK (03 R55). -/
def issueEnd (s : State) (ti code0 detail : Nat) (mirror : Bool) (slip : Nat) : State :=
  let t := taskOf s ti
  let n := now s
  let code := if code0 = 0 ∧ t.cls = 1 ∧ decide ((t.deadline.getD n) ≤ n) ∧ t.eff.isSome then 0x0101 else code0
  let start := (t.start.map (·.toNat)).getD n
  let value := (cmdField t.cmd 32 8 + t.ends) % 2^64
  let flags := (if t.taintSeen then 1 else 0) + if mirror then 2 else 0
  let w : SigWrite :=
    { wait := if taskRuns s ti then some t.launch else none, part := t.part, vf := t.vf, task := ti, addr := cmdField t.cmd 24 8,
      bytes := signalBytes value start n code detail flags slip }
  let s1 := detach (noteLevel s t code) ti
  let s2 := { s1 with rk := { s1.rk with sigQ := s1.rk.sigQ ++ [w] } }
  if t.period = 0 ∨ t.retire then setTask (giveUp s2 t) ti Task.empty
  else
    let rel : Word := t.eff.getD 0 + BitVec.ofNat 64 t.period
    setTask s2 ti { t with st := .pending, relTaken := false, relField := rel, eff := if t.holdFlag then none else some rel, ends := t.ends + 1,
                           launch := 0, copies := [], start := none, taintSeen := false, hold := none, ending := none, struck := false,
                           margin := false, marginAt := 0, trapAt := none }

/-- Write physical pieces of a range as the device: the bytes perform, their sectors hold untainted data. -/
def writePieces (s : State) : List (Nat × Nat) → List Byte → State
  | [], _ => s
  | (pa, n) :: r, bs => writePieces (tagSectors (writePhys s pa (bs.take n)) none pa n false) r (bs.drop n)

/-- The address of a completion-queue entry: the queue lies at a host address that the device writes untranslated. -/
def cqAddr (s : State) (v : Nat) : Nat := 4 * 2^60 + (bar0Get s v 0x20 8 + 32 * bar0Get s v 0x38 2) % 2^60

/-- The size of a VF's completion queue, and whether one more entry would fill it. -/
def cqSize (s : State) (v : Nat) : Nat := 2^(bar0Get s v 0x28 4 % 16)
def cqFull (s : State) (v : Nat) : Bool := (bar0Get s v 0x38 2 + 1) % cqSize s v == bar0Get s v 0x30 2

/-- Raise a VF's MSI-X vector 0. -/
def raiseCq (s : State) (v : Nat) : State := raiseMsix { s with rk := { s.rk with cqPending := Tbl.set 0 s.rk.cqPending v 0 } } (v + 1) 0

/-- Append an entry to a completion queue (17 R339, R340). -/
def cqAppend (s : State) (v task : Nat) (bytes : List Byte) : State :=
  let tail := bar0Get s v 0x38 2
  let phase := bar0Get s v 0x3A 1 % 2
  let s1 := putBytes s (cqAddr s v) (bytes ++ leBytes (task % 8192 + phase * 32768) 2)
  let next := (tail + 1) % cqSize s v
  let s2 := bar0Set (bar0Set s1 v 0x38 2 next) v 0x3A 1 (if next = 0 then 1 - phase else phase)
  let n := Tbl.get 0 s2.rk.cqPending v
  let oldest : Word := if n = 0 then BitVec.ofNat 64 (now s) else Tbl.get 0 s2.rk.cqOldest v
  let s3 := { s2 with rk := { s2.rk with cqPending := Tbl.set 0 s2.rk.cqPending v (n + 1), cqOldest := Tbl.set 0 s2.rk.cqOldest v oldest } }
  if Nat.max 1 (bar0Get s v 0x40 1) ≤ n + 1 then raiseCq s3 v else s3

/-- Write a signal through its partition's contexts. `false`: it waits for a translation. One that cannot be translated is dropped and recorded (17 R337). -/
def putSignal (s : State) (w : SigWrite) : State × Bool :=
  match resolveRange s w.part true 4 w.addr 32 with
  | (s1, .wait, _) => (s1, false)
  | (s1, .fail _, _) => (errorRecord s1 9 2 0 w.task (2^(w.part % 40)) w.addr, true)
  | (s1, .ok _, l) => (writePieces s1 l (w.bytes ++ [0, 0]), true)

/-- The i-th issued write may perform: its launch's passes have drained, and it is the oldest of its VF. -/
def signalReady (s : State) (i : Nat) : Option SigWrite :=
  match s.rk.sigQ[i]? with
  | some w =>
    let held : Bool := match w.wait with
      | some l => launchRuns s l
      | none => false
    if held || (w.vf.isSome && (s.rk.sigQ.take i).any fun x => x.vf == w.vf) then none else some w
  | none => none

/-- Perform the i-th issued write: to the completion queue of its VF while that is enabled and has room, else to the signal. -/
def performSignal (s : State) (i : Nat) : State :=
  match signalReady s i with
  | none => s
  | some w =>
    let drop (s : State) : State := { s with rk := { s.rk with sigQ := s.rk.sigQ.eraseIdx i } }
    let direct (s : State) : State :=
      let r := putSignal s w
      if r.2 then drop r.1 else r.1
    match w.vf with
    | some v =>
      if bitsAt (bar0Get s v 0x28 4) 31 1 = 0 then direct s
      else if cqFull s v then direct (bar0Set s v 0x18 4 ((BitVec.ofNat 32 (bar0Get s v 0x18 4)) ||| 8).toNat)
      else drop (cqAppend s v w.task w.bytes)
    | none => direct s

/-- A launch whose end stands and none of whose passes runs or is kept may issue its write; a complete pass that still performs is none. -/
def mayEnd (s : State) (ti : Nat) : Bool := (taskOf s ti).ending.isSome && !taskActive s ti

/-- A launch that has been released and has not ended. -/
def taskLive (t : Task) : Bool := t.st == .ready || t.st == .running || t.st == .suspended

/-- The code of a mirrored task that ends without a chunk: the first trap's, else the one given (03 R379). -/
def firstTrapOr (t : Task) (code detail : Nat) : Nat × Nat := match t.copies.find? fun x => x.trap.isSome && x.first with
  | some x => x.trap.getD (code, detail)
  | none => (code, detail)

/-- Both copies of a mirrored task are stopped with a code and drain; its signal is issued at once, with that of the first trap taken or else that code (03 R379). -/
def endMirrored (s : State) (ti code detail : Nat) : State :=
  let s1 := abortLaunch (abortLaunch s ti (some 0) code detail 48 0xFF 0xFFFFFF) ti (some 1) code detail 48 0xFF 0xFFFFFF
  let e := firstTrapOr (taskOf s ti) code detail
  issueEnd s1 ti e.1 e.2 false 0

/-- Both copies of a mirrored task have been lost (03 R379). -/
def bothLost (t : Task) : Bool :=
  taskLive t && t.copies.length == 2 && t.ending.isNone && (t.copies.all fun x => x.aborted || x.held) && t.copies.any fun x => x.aborted

/-- COMPLETION_SIGNAL_WRITE: the operand names a task whose end is to be issued, or a write that has been issued. -/
def execCompletionSignalWrite (s : State) : Out :=
  .next (match s.ev with
    | .task ti =>
      let t := taskOf s ti.val
      if bothLost t then
        endMirrored s ti.val 0 0
      else if mayEnd s ti.val then
        match t.ending with
        | some (code, detail, m) => issueEnd s ti.val code detail m (if t.copies.length = 2 then 0 else (t.copies.getD 0 CopyState.fresh).slip)
        | none => s
      else s
    | .target i => performSignal s i
    | _ => s)

/-- The time at which a VF's coalescing timer runs out, if one runs. -/
def cqTimer (s : State) (v : Nat) : Option Nat :=
  let n := bar0Get s v 0x41 2
  if n = 0 ∨ Tbl.get 0 s.rk.cqPending v = 0 then none else some ((Tbl.get 0 s.rk.cqOldest v).toNat + 1000 * n)

/-- CQ_COALESCE_TIMER. -/
def execCqCoalesceTimer (s : State) : Out :=
  .next (match s.ev with
    | .vf v => match cqTimer s v.val with
      | some at_ => if at_ ≤ now s then raiseCq s v.val else s
      | none => s
    | _ => s)

/-- TRETIRE_WRITE (03 R44). -/
def execTretireWrite (s : State) : Out :=
  .next (match s.ev with
    | .val v =>
      let ti := v.toNat % 8192
      let t := taskOf s ti
      match t.st with
      | .free => s
      | .pending => setTask (giveUp s t) ti Task.empty
      | _ => setTask s ti { t with retire := true }
    | _ => s)

/-! ## Releases (02 R24, R27; 03 R43, R56) -/

/-- The chunk of a session on a die, read as loads of its partition (03 R59). -/
def readChunk (s : State) (p x die : Nat) : State × Xr × List Byte := readImage s p (sessField s x (16 + 8 * die) 8) (sessField s x 32 2)

/-- A chunk leaves by the port and in the delivery context of its session's record (03 R42). -/
def sendChunk (s : State) (x die : Nat) (bytes : List Byte) : State :=
  let s1 := pfSet s (0x20000 + 64 * x + 40) 8 (now s)
  send { s1 with rk := { s1.rk with sess := Tbl.set ⟨false, 0⟩ s1.rk.sess x ⟨true, die⟩ } } (.chunk x (sessField s x 12 2) (sessField s x 14 1) (BitVec.ofNat 64 (now s)) bytes)

/-- A task whose effective release time has come becomes READY as a new launch, or is skipped under DL2 or DL3 (03 R56). -/
def releaseNow (s : State) (ti : Nat) : State :=
  let t := taskOf s ti
  let lv := levelOf s t.part
  let ready (s : State) : State :=
    let l := s.rk.launches + 1
    setTask { s with rk := { s.rk with launches := l } } ti
      { t with st := .ready, launch := l, copies := if t.mirrored then [CopyState.fresh, CopyState.fresh] else [CopyState.fresh] }
  if t.cls = 1 ∧ 2 ≤ lv then
    let ctl := sessField s t.session 0 1
    let s1 := pfSet s (0x20000 + 64 * t.session) 1 (if bitsAt ctl 2 1 = 1 then ctl - 4 else ctl + 4)
    if bitsAt ctl 2 1 = 1 then issueEnd s1 ti 0x0109 0 false 0 else ready s1
  else if t.cls = 0 ∧ lv = 3 then
    let d := Tbl.get ⟨false, 0⟩ s.rk.sess t.session
    if d.sent then
      if !endpointRuns s then s
      else match readChunk s t.part t.session d.die with
      | (s1, .wait, _) => s1
      | (s1, .fail _, _) => issueEnd s1 ti 0x0109 0 false 0
      | (s1, .ok _, b) => issueEnd (sendChunk s1 t.session d.die b) ti 0x0109 0 false 0
    else issueEnd s ti 0x0109 0 false 0
  else ready s

/-- Device time has reached the effective release time of a PENDING task. -/
def releaseDue (s : State) (ti : Nat) : Bool :=
  let t := taskOf s ti
  t.st == .pending && match t.eff with
    | some e => decide (e.toNat ≤ now s)
    | none => false

/-- TASK_RELEASE_TIME. -/
def execTaskReleaseTime (s : State) : Out :=
  .next (match s.ev with
    | .task ti => if releaseDue s ti.val then releaseNow s ti.val else s
    | _ => s)

/-- Take a release for a task (02 R27): its effective release time is the latest of the SUBMIT's time, its release field and the event's time. `none`: discarded. -/
def takeRelease (s : State) (ti time : Nat) : Option State :=
  let t := taskOf s ti
  if t.st = .pending ∧ t.holdFlag ∧ t.relTaken = false then
    let e := Nat.max t.taken.toNat (Nat.max t.relField.toNat time)
    let s1 := setTask s ti { t with relTaken := true, eff := some (BitVec.ofNat 64 e) }
    some (if releaseDue s1 ti then releaseNow s1 ti else s1)
  else none

/-! ## Order and choice (03 R49, R50) -/

/-- The order key of a task. -/
def orderKey (s : State) (ti : Nat) : Nat × Nat × Nat × Nat :=
  let t := taskOf s ti
  (if t.cls = 2 then 1 else 0, t.deadline.getD 0, t.session, ti)

def keyLt (a b : Nat × Nat × Nat × Nat) : Bool :=
  decide (a.1 < b.1) || (a.1 == b.1 && (decide (a.2.1 < b.2.1) || (a.2.1 == b.2.1 && (decide (a.2.2.1 < b.2.2.1) || (a.2.2.1 == b.2.2.1 && decide (a.2.2.2 < b.2.2.2))))))

/-- The first of a list under a strict order. -/
def firstBy {α : Type} (lt : α → α → Bool) : List α → Option α
  | [] => none
  | x :: r => match firstBy lt r with
    | none => some x
    | some y => if lt y x then some y else some x

/-- A request for pre-emption stands on a running unit, or is on its way to it. -/
def requestOut (s : State) (q : Nat) : Bool :=
  (seqOf s q).run.isSome && ((seqOf s q).preempt.isSome || (Tbl.find? s.rk.asks q).isSome) &&
    !(((seqOf s q).stop.map fun st => decide (st.phase = .kept)) == some true)

/-- The other half of a Rod. -/
def otherHalf (q : Nat) : Nat := if q % 2 = 0 then q + 1 else q - 1

/-- The start unit of the physical Rod of a Rod-unit is running (18 R365). -/
def rodStarted (s : State) (q : Nat) : Bool := bitsAt (pfGet s 0xF8000 8) (15 + 4 * dieOf q + bitsAt (rown s (q / 2)) 16 4 / 4) 1 == 1

/-- A half of a Rod can be dispatched to: free, started, zeroed, none of its cores retired (16 R330), its die neither lost nor tripped, its Rod not being cleared whole. -/
def halfFree (s : State) (q : Nat) : Bool :=
  rodStarted s q && !(s.plat.tripped.any fun e => e.1 == dieOf q) && !unitRuns s q && decide (Tbl.get 0 s.rk.notBefore q ≤ s.cycle) && !((List.range 4).any fun p => s.rk.retired.contains (1, coreOf s q p)) && !s.rk.lost.contains (dieOf q) &&
    !(s.rk.joint.contains (q / 2) && requestOut s (otherHalf q))

/-- A Rod-unit of width w is free for a partition. -/
def unitFree (s : State) (p q w : Nat) : Bool :=
  rodOwner s (q / 2) (q % 2) == some p && halfFree s q &&
    (w == 4 || (q % 2 == 0 && rodOwner s (q / 2) 1 == some p && halfFree s (q + 1)))

/-- The copy of a launch whose passes a unit takes (03 R59). -/
def copyFor (t : Task) (q : Nat) : Nat := if t.copies.length = 2 then dieOf q else 0

/-- A copy may have passes dispatched: not aborted, not held, its launch not ended. -/
def copyLive (t : Task) (c : Nat) : Bool :=
  let x := t.copies.getD c CopyState.fresh
  t.ending.isNone && !x.aborted && !x.held && (t.copies.length = 2 || t.hold.isNone) && decide (c < t.copies.length)

/-- A saved context of a task on a unit: its key, 8 times the unit plus the slot. -/
def savedOn (s : State) (ti q : Nat) : Option (Nat × Saved) :=
  List.find? (fun e => e.1 / 8 == q && savedOf ti (some (copyFor (taskOf s ti) q)) e.2) s.rk.saved

/-- A task has work for a free unit: a suspended pass there, or undispatched passes of that width. -/
def hasWork (s : State) (p ti q : Nat) : Bool :=
  let t := taskOf s ti
  (t.st == .ready || t.st == .running || t.st == .suspended) && t.part == p && copyLive t (copyFor t q) && unitFree s p q t.w &&
    ((savedOn s ti q).isSome || decide ((t.copies.getD (copyFor t q) CopyState.fresh).next < t.passes))

/-- The task that R50 chooses for a free unit. -/
def chooseTask (s : State) (q : Nat) : Option Nat :=
  match rodOwner s (q / 2) (q % 2) with
  | none => none
  | some p =>
    if (partDyn s p).stopped then none
    else firstBy (fun a b => keyLt (orderKey s a) (orderKey s b)) ((s.rk.tasks.filter fun e => hasWork s p e.1 q).map (·.1))

/-! ## The start of a pass (01 R19, R20; 02 R38; 06 R102, R106) -/

/-- A core that a pass has left: nothing is outstanding on it. Its registers, queues and flags stand as the pass left them until the next pass starts (01 R20, 19 R371). -/
def restCore (c : Core) : Core :=
  { c with ops := [], held := [], fences := [], serial := [], outq := [], upd := [], bq := [], inflight := [], counting := [], streams := [], limits := none, drain := none, call := none,
           failure := none, ending := false, retired := false }

/-- A core as a pass finds it: its pool, its microprogram store, its line copies and the launches placed on it stay. -/
def freshCore (c : Core) : Core :=
  { Core.blank with
    win := c.win, scratch := c.scratch, scrTaint := c.scrTaint, acc := c.acc, accTaint := c.accTaint, ustore := c.ustore, ulen := c.ulen,
    ulaunch := c.ulaunch, l1 := c.l1, launch := c.launch, part := c.part, placed := c.placed }

/-- A sequencer between passes keeps its stores and its lines. -/
def restSeq (u : Seq) : Seq := { Seq.idle with dict := u.dict, lines := u.lines }

/-- The core of a bead at the start of a pass of a partition: a launch first placed on it finds a zeroed pool (01 R20); window registers and taint bits are zero. -/
def startCore (t : Task) (q p k : Nat) (c : Core) : Core :=
  let o := k * t.w + p
  let pool := if c.placed.contains t.launch then c else zeroPool c
  { freshCore pool with
    l1 := if c.part = t.part then c.l1 else []
    win := (pool.win.filter fun e => decide (232 ≤ e.1)).map fun e => (e.1, { e.2 with t := 0 }), scrTaint := [], accTaint := [],
    svm := BitVec.ofNat 48 (hdrField t.hdr 48 8), launch := t.launch, part := t.part,
    placed := if c.placed.contains t.launch then c.placed else t.launch :: c.placed, unit := q, bead := p, ordinal := o, parked := decide (t.total ≤ o),
    wid := if t.total ≤ o then BitVec.allOnes 64 else BitVec.ofNat 64 (widOf t o), bq := List.replicate (p * t.skew) .stall }

/-- Bind a stream of the launch header on a bead (11 R230). -/
def bindStart (t : Task) (s : State) (cid z : Nat) : State :=
  let off := hdrField t.hdr (96 + 4 * z) 4
  if off = 0 then s
  else
    let va := cmdField t.cmd 16 8 + off
    let o : AOp := ⟨z, 6, 3, 0, false, .bind (Fin.ofNat 8 z) va true, 0, [], false, false, false, 0, s.cycle⟩
    let s1 := modCore s cid fun c => setStream c z (Stream.fresh true va 0)
    match addrTrap s1 t.pword t.det va 64 64 with
    | some code => faultTrap s1 cid o code 9
    | none => enterOp s1 cid o

/-- The copy of the dictionary, the routines and the schedules begins, unless the stores hold them (01 R11, R12): 128 bytes a cycle. -/
def beginCopy (s : State) (q w launch : Nat) (t : Task) : State :=
  if storesHold s q w launch then s
  else
    modSeq ((storeUnits q w).foldl (fun s i => modSeq s i fun u => { u with dict := none }) s) q fun u =>
      { u with copying := some (s.cycle + ceilDiv (copyBytes t) 128), lines := [] }

/-- Dispatch the next pass of a task's copy on a unit. -/
def startPass (s : State) (ti q : Nat) : State :=
  let t := taskOf s ti
  let c := copyFor t q
  let k := (t.copies.getD c CopyState.fresh).next
  let run : PassRun := ⟨ti, t.launch, c, k, t.w, t.skew, BitVec.ofNat 2 (levelOf s t.part), t.part⟩
  let s1 := setTask s ti { t with
    st := .running, start := some (t.start.getD (BitVec.ofNat 64 (now s))),
    copies := t.copies.mapIdx fun i x => if i = c then { x with next := k + 1 } else x }
  let s2 := modSeq s1 q fun u => { restSeq u with run := some run, pc := BitVec.ofNat 64 (imgField t.img 24 4) }
  let cores := (List.range t.w).map (coreOf s2 q)
  let s3 := cores.zipIdx.foldl (fun s e => modCore s e.1 (startCore t q e.2 k)) s2
  let s4 := beginCopy s3 q t.w t.launch t
  cores.foldl (fun s i => if (coreGet s i).parked then s else (List.range 8).foldl (fun s z => bindStart t s i z) s) s4

/-- Bytes of a save slot that a save or a restore moves (16 R321): header, fixed contexts, granules. -/
def slotBytes (w : Nat) (masks : List (BitVec 48)) : Nat :=
  4096 + w * 86016 + 131072 * masks.foldl (fun a m => a + ((List.range 48).filter fun g => m.getLsbD g).length) 0

/-- The granules that a save keeps: all of them for a migration stop (16 R322). -/
def keptMask (kind : Nat) (c : Core) : BitVec 48 := if kind = 2 then BitVec.allOnes 48 else c.svm

/-- A saved pass goes back to its unit: its slot is read at 128 bytes a cycle (16 R323), and stores that hold another launch are copied afresh. -/
def beginRestore (s : State) (ti q key : Nat) (x : Saved) : State :=
  let t := taskOf s ti
  match x.seq.run with
  | none => s
  | some r =>
    let s1 := modSeq s q fun u =>
      { restSeq u with run := some r, cycles := x.seq.cycles, restoring := some (key % 8, s.cycle + slotBytes r.w (x.cores.map (keptMask x.kind)) / 128) }
    let s2 := x.cores.zipIdx.foldl (fun s e => modCore s (coreOf s q e.2) fun c => { c with slip := e.1.slip }) (setTask s1 ti { t with st := .running })
    beginCopy s2 q r.w r.launch t

/-- PASS_DISPATCH: the earliest-ordered suspended or undispatched pass starts on a free unit; of one task the suspended pass goes first. -/
def execPassDispatch (s : State) : Out :=
  .next (match s.ev with
    | .unit q =>
      match chooseTask s q.val with
      | none => s
      | some ti => match savedOn s ti q.val with
        | some e => beginRestore s ti q.val e.1 e.2
        | none => startPass s ti q.val
    | _ => s)

/-! ## Pre-emption (03 R51, R52) -/

/-- The save slots of a partition on a Rod-unit, and the lowest free one. -/
def slotDepth (s : State) (p : Nat) : Nat := Nat.min 8 (bitsAt (pfGet s (0xF1008 + 16 * p) 8) 0 4)
def slotFree (s : State) (p q : Nat) : Option Nat := (List.range (slotDepth s p)).find? fun j => (Tbl.find? s.rk.saved (8 * q + j)).isNone

/-- A unit that a request may name: it runs a pass ordered later than a key, is not stopping, carries no request, and has a free save slot. -/
def mayAsk (s : State) (p q : Nat) (key : Nat × Nat × Nat × Nat) : Bool :=
  match (seqOf s q).run with
  | some r => r.part == p && keyLt key (orderKey s r.task) && (seqOf s q).stop.isNone && !requestOut s q && (slotFree s p q).isSome && !(seqOf s q).complete
  | none => false

/-- The Rod-unit whose pass a half runs: half 1 of a joined pass belongs to half 0. -/
def unitOfHalf (s : State) (q : Nat) : Nat := if q % 2 = 1 ∧ widthOf (seqOf s (q - 1)) = 8 then q - 1 else q

/-- The key of the pass on a unit. -/
def runKey (s : State) (q : Nat) : Nat × Nat × Nat × Nat := match (seqOf s q).run with
  | some r => orderKey s r.task
  | none => (0, 0, 0, 0)

/-- The units that a task asks for on a set of dies: the latest-ordered pass, or the Rod whose earlier-ordered half is latest; ties to the higher number. -/
def unitsToAsk (s : State) (p ti : Nat) (dies : List Nat) : List Nat :=
  let t := taskOf s ti
  let key := orderKey s ti
  let on (q : Nat) : Bool := dies.contains (dieOf q)
  if t.w = 4 then
    let l := (List.range 48).filter fun q => on q && mayAsk s p q key
    match firstBy (fun a b => keyLt (runKey s b) (runKey s a)) l.reverse with
    | some q => [q]
    | none => []
  else
    let l := (List.range 24).filter fun n => on (2 * n) && mayAsk s p (unitOfHalf s (2 * n)) key && mayAsk s p (unitOfHalf s (2 * n + 1)) key
    let early (n : Nat) : Nat × Nat × Nat × Nat :=
      let a := runKey s (unitOfHalf s (2 * n))
      let b := runKey s (unitOfHalf s (2 * n + 1))
      if keyLt b a then b else a
    match firstBy (fun a b => keyLt (early b) (early a)) l.reverse with
    | some n => [unitOfHalf s (2 * n), unitOfHalf s (2 * n + 1)].eraseDups
    | none => []

/-- The requests outstanding for a launch copy of width w: each names a Rod-unit, or a whole Rod. -/
def asksOut (s : State) (launch copy w : Nat) : Nat :=
  ((s.rk.askFor.filter fun e => e.2 == (launch, copy) && requestOut s e.1).map fun e => if w = 8 then e.1 / 2 else e.1).eraseDups.length

/-- The copies of a task, each with its dies, that have an undispatched pass for which no request is out, no free unit of their width, and a unit to ask: one group for a plain launch,
one for each copy of a mirrored one (20 R372). -/
def starving (s : State) (p ti : Nat) : List (Nat × List Nat) :=
  let t := taskOf s ti
  let groups : List (Nat × List Nat) := if t.copies.length = 2 then [(0, [0]), (1, [1])] else [(0, [0, 1])]
  groups.filter fun g =>
    copyLive t g.1 && decide ((t.copies.getD g.1 CopyState.fresh).next + asksOut s t.launch g.1 t.w < t.passes) &&
      !((List.range 48).any fun q => g.2.contains (dieOf q) && unitFree s p q t.w) && unitsToAsk s p ti g.2 ≠ []

/-- The Reckoner's pre-emption decision for a partition (03 R51), one request for each waiting pass: the earliest-ordered task that has a pass to ask for and a unit to ask.
The requests reach their sequencers 8 cycles on. DEDUCED (log 47): a pass asks once, and a task whose passes have all asked, or that has no unit to ask, does not keep the next from asking. -/
def askPreempt (s : State) (p : Nat) : State :=
  let l := (s.rk.tasks.filter fun e => (e.2.st == .ready || e.2.st == .running) && e.2.part == p && starving s p e.1 ≠ []).map (·.1)
  match firstBy (fun a b => keyLt (orderKey s a) (orderKey s b)) l with
  | none => s
  | some ti =>
    (starving s p ti).foldl (fun s g =>
      let us := unitsToAsk s p ti g.2
      let s1 := us.foldl (fun s q => { s with rk := { s.rk with asks := Tbl.insert (Tbl.erase s.rk.asks q) q (s.cycle + 8),
                                                                  askFor := Tbl.insert (Tbl.erase s.rk.askFor q) q ((taskOf s ti).launch, g.1) } }) s
      match us with
      | [a, _] => { s1 with rk := { s1.rk with joint := (a / 2) :: s1.rk.joint.filter (· ≠ a / 2) } }
      | _ => s1) s

/-- PREEMPT_REQUEST_ARRIVE: the sequencer has the request from this cycle on. -/
def execPreemptRequestArrive (s : State) : Out :=
  .next (match s.ev with
    | .unit q =>
      match Tbl.find? s.rk.asks q.val with
      | some c =>
        if s.cycle < c then s
        else modSeq { s with rk := { s.rk with asks := Tbl.erase s.rk.asks q.val } } q.val fun u =>
          if u.run.isSome then { u with preempt := some s.cycle } else u
      | none => s
    | _ => s)

/-! ## Leaving a unit -/

/-- A unit is given up: its cores and sequencer rest, a request to it is over, and the record of an ended launch goes with its last pass. -/
def freeUnit (s : State) (q : Nat) : State :=
  let u := seqOf s q
  let cores := coresOf s q
  let s1 := cores.foldl (fun s i => modCore s i restCore) s
  let s2 := setSeq { s1 with rk := { s1.rk with asks := Tbl.erase s1.rk.asks q } } q (restSeq u)
  match u.run with
  | some r => if 8192 ≤ r.task ∧ taskRuns s2 r.task = false then setTask s2 r.task Task.empty else s2
  | none => s2

/-- Every update-only line of a unit's cores is merged. -/
def mergeUnit (s : State) (q : Nat) : State :=
  (coresOf s q).foldl (fun s i => (coreGet s i).upd.foldl (fun s e => mergeLineOf s i e.1) s) s

/-- The state of a live task by where its passes stand (03 R43): RUNNING while one runs, SUSPENDED when all are saved or kept. -/
def restate (s : State) (ti : Nat) : State :=
  let t := taskOf s ti
  if t.st = .running ∨ t.st = .suspended then
    let live := (List.range 48).any fun q => ((seqOf s q).run.map fun r => r.task == ti) == some true && !(seqOf s q).complete &&
      !(((seqOf s q).stop.map fun st => decide (st.phase = .kept)) == some true)
    let parked := s.rk.saved.any (fun e => savedOf ti none e.2) || taskActive s ti
    setTask s ti { t with st := if live then .running else if parked then .suspended else t.st }
  else s

/-! ## The progress controller (03 R62) -/

/-- Whole Rods that a partition owns. -/
def wholeRods (s : State) (p : Nat) : List Nat := (List.range 24).filter fun n => rodOwner s n 0 == some p && rodOwner s n 1 == some p

/-- The deficit of a member, scaled by 10^6: be_target times elapsed nanoseconds less be_progress times 2^16 times 10^6. DESIGN CHOICE (log 35): elapsed milliseconds keep their fraction. -/
def deficit (s : State) (p : Nat) : Int :=
  ((partField s p 32 4 * (now s - (partDyn s p).beSince.toNat) : Nat) : Int) - ((partField s p 36 4 * 2^16 * 10^6 : Nat) : Int)

/-- A pass that is not complete holds a unit. -/
def unitTaken (s : State) (q : Nat) : Bool :=
  ((seqOf s q).run.isSome && !(seqOf s q).complete) || (q % 2 == 1 && widthOf (seqOf s (q - 1)) == 8 && !(seqOf s (q - 1)).complete)

/-- A class 2 pass of partition A has completed on Rod n: the Rod moves to the member with the largest deficit, if that exceeds A's by more than one pass. -/
def progress (s : State) (a n : Nat) : State :=
  let member (p : Nat) : Bool := partField s p 30 2 ≠ 0
  let clear : Bool := !unitTaken s (2 * n) && !unitTaken s (2 * n + 1) && !unitSaved s (2 * n) && !unitSaved s (2 * n + 1)
  let whole : Bool := rodOwner s n 0 == some a && rodOwner s n 1 == some a
  if !member a || !whole || !clear || decide ((wholeRods s a).length ≤ partField s a 28 2) then s
  else
    let l := (List.range 40).filter fun b =>
      b ≠ a && member b && decide (deficit s a + 2^16 * 10^6 < deficit s b) && decide ((wholeRods s b).length < partField s b 30 2)
    match firstBy (fun x y => decide (deficit s y < deficit s x)) l with
    | none => s
    | some b =>
      let w := rown s n
      zeroHalf (zeroHalf (pfSet s (0x80000 + 8 * n) 8 (w / 2^16 * 2^16 + (b + 64) * 257)) (2 * n)) (2 * n + 1)

/-! ## Kernel end (07 R141; 02 R38) -/

/-- The final `%SLIP` of every bead of a unit. -/
def unitSlip (s : State) (q : Nat) : Nat := (coresOf s q).foldl (fun a i => a + (coreGet s i).slip.toNat) 0

/-- Add the slips of a pass to its launch copy (17 R336: every pass counts, a stopped one too). -/
def addSlip (s : State) (q : Nat) : State :=
  match (seqOf s q).run with
  | some r =>
    if (taskOf s r.task).launch ≠ r.launch then s
    else modTask s r.task fun t => { t with copies := t.copies.mapIdx fun i x => if i = r.copy then { x with slip := x.slip + unitSlip s q } else x }
  | none => s

/-- A pass is complete, its last bead having retired its kernel end (02 R38): its slip counts, and its copy or launch ends with its last pass.
Its unit stays taken until everything it issued has performed. -/
def finishPass (s : State) (q : Nat) : State :=
  let u := seqOf s q
  match u.run with
  | none => s
  | some r =>
    let s1 := addSlip (modSeq s q fun u => { u with complete := true, stop := none, preempt := none, point := false }) q
    let t := taskOf s1 r.task
    if t.launch ≠ r.launch then s1
    else
      let x := t.copies.getD r.copy CopyState.fresh
      let x1 := { x with done := x.done + 1 }
      let last : Bool := x1.done = t.passes
      let t1 := { t with
        copies := t.copies.mapIdx fun i y => if i = r.copy then x1 else y
        ending := if last && t.copies.length ≠ 2 && t.hold.isNone then (t.ending <|> some (0, 0, false)) else t.ending }
      let s2 := restate (setTask s1 r.task t1) r.task
      if t.cls = 2 then
        let s3 := setPartField s2 t.part 36 4 ((partField s2 t.part 36 4 + 1) % 2^32)
        progress s3 t.part (q / 2)
      else s2

/-- A bead may retire its kernel end: it has issued END, and the counters, held operations and drains that it waits for are done; a parked bead at once (07 R141). -/
def mayRetire (c : Core) : Bool :=
  c.ending && !c.retired && (c.parked || ((c.limits.isNone || ((c.limits.map (limitsMet c)).getD true)) && (List.range 7).all (fun i => i = 0 || c.ctr i = 0) && c.held.isEmpty && (clearMet c).drain.isNone))

/-- A complete pass leaves its unit, everything it issued having performed. A mirrored copy whose last pass has left is ready: its chunk writes have performed (03 R59). -/
def leavePass (s : State) (q : Nat) : State :=
  match (seqOf s q).run with
  | none => s
  | some r =>
    let s1 := freeUnit (mergeUnit s q) q
    let t := taskOf s1 r.task
    let x := t.copies.getD r.copy CopyState.fresh
    if t.launch = r.launch ∧ t.copies.length = 2 ∧ x.done = t.passes ∧ x.ready.isNone ∧ !x.aborted ∧ !x.held ∧
        !((List.range 48).any fun i => runsLaunch s1 i r.task r.launch (some r.copy)) then
      modTask s1 r.task fun t => { t with copies := t.copies.mapIdx fun i y => if i = r.copy then { y with ready := some s.cycle } else y }
    else s1

/-- Every bead of a unit has retired its kernel end. -/
def passRetired (s : State) (q : Nat) : Bool := (coresOf s q).all fun i => (coreGet s i).retired

/-- An update-only line of a unit's cores cannot merge yet: the L2 of its die changes the range that merges use (04 R69). -/
def unitMergeHeld (s : State) (q : Nat) : Bool :=
  s.xl.l2change ≠ [] && (coresOf s q).any fun i => (coreGet s i).upd.any fun e => l2Changing s (ownerOf (64 * e.1)) 40

/-- Nothing of a unit's pass is left to perform. -/
def passDone (s : State) (q : Nat) : Bool :=
  !unitMergeHeld s q && (coresOf s q).all fun i =>
    let c := coreGet s i
    c.retired && c.outq.isEmpty && c.ops.all fun o => match o.kind with
      | .landAt _ _ _ _ => true
      | _ => false

/-- No stop stands, or one that saves the pass and has not taken effect: at its kernel end a pass is simply complete (03 R52). -/
def stopPending (u : Seq) : Bool :=
  match u.stop with
  | none => true
  | some st => st.phase == .requested && (st.cause == .preempt || st.cause == .hold || st.cause == .migration)

/-- KERNEL_END_RETIRE: everything in flight lands and the bead retires; with the last bead the pass is complete, and once its accesses have performed its unit is free. -/
def execKernelEndRetire (s : State) : Out :=
  .next (match s.ev with
    | .unitBead q b =>
      let cid := coreOf s q.val b.val
      if (seqOf s q.val).run.isNone ∨ widthOf (seqOf s q.val) ≤ b.val then s
      else
        let s1 := if mayRetire (coreGet s cid) then modCore s cid fun c => { landRest 64 c with retired := true, limits := none, drain := none } else s
        let s2 := if passRetired s1 q.val && !(seqOf s1 q.val).complete && stopPending (seqOf s1 q.val) then finishPass s1 q.val else s1
        if (seqOf s2 q.val).complete && passDone s2 q.val && (seqOf s2 q.val).stop.isNone then leavePass s2 q.val else s2
    | _ => s)

/-! ## Deadlines and budgets (03 R54, R55) -/

/-- DEADLINE_EXPIRY. -/
def execDeadlineExpiry (s : State) : Out :=
  .next (match s.ev with
    | .task ti =>
      let t := taskOf s ti.val
      if taskLive t && t.cls == 0 && t.ending.isNone && decide ((t.deadline.getD (2^80)) ≤ now s) then
        if t.copies.length = 2 then endMirrored s ti.val 0x0101 0
        else abortLaunch s ti.val none 0x0101 0 48 0xFF 0xFFFFFF
      else s
    | _ => s)

/-- A pass has used its budget: 256 cycles a tick (03 R54), the cycles of a drain that is to save it among them. -/
def overBudget (s : State) (q : Nat) : Bool :=
  let u := seqOf s q
  let b := (runTask s q).budget
  u.run.isSome && !u.complete && decide (b ≠ 0) && decide (256 * b ≤ u.cycles) && (match u.stop with
    | none => true
    | some st => st.phase == .requested || (st.phase == .draining && st.cause ≠ .abort && st.cause ≠ .flr))

/-- BUDGET_OVERRUN. -/
def execBudgetOverrun (s : State) : Out :=
  .next (match s.ev with
    | .unit q => if overBudget s q.val then takeTrap s q.val 0 0xFFFFFF 0x0102 0 else s
    | _ => s)

/-! ## Mirrored chunks (03 R59, R60, R379) -/

/-- The primary die of a task's session. -/
def primaryOf (s : State) (t : Task) : Nat := bitsAt (sessField s t.session 0 1) 1 1

/-- Device time has reached D minus mirror_margin (03 R60). -/
def marginCome (s : State) (t : Task) : Bool := t.margin || decide ((t.deadline.getD (2^80)) ≤ now s + sessField s t.session 8 4)

/-- The copy whose chunk is to be sent now (03 R60): a primary that was ready by the cycle of D minus the margin and is not struck goes first, whatever its chunk's read waits for;
else the copy that was ready first, the primary in one cycle. -/
def sendCopy (s : State) (t : Task) : Option Nat :=
  let p := primaryOf s t
  let rd (i : Nat) : Option Nat := (t.copies.getD i CopyState.fresh).ready
  let at_ := if t.margin then t.marginAt else s.cycle
  if !taskLive t || t.copies.length ≠ 2 || t.ending.isSome || !endpointRuns s then none
  else match rd p, rd (1 - p) with
    | some a, some b => if (t.struck || (marginCome s t && decide (at_ < a))) && decide (b < a) then some (1 - p) else some p
    | some _, none => some p
    | none, some _ => if t.struck || marginCome s t then some (1 - p) else none
    | none, none => none

/-- CHUNK_SEND: one chunk is sent, the other copy is aborted, and the signal is issued; a chunk that cannot be read leaves its copy as if it had not become ready. -/
def execChunkSend (s : State) : Out :=
  .next (match s.ev with
    | .task ti =>
      let t := taskOf s ti.val
      match sendCopy s t with
      | none => s
      | some i =>
        match readChunk s t.part t.session i with
        | (s1, .wait, _) => s1
        | (s1, .fail _, _) => modTask s1 ti.val fun t => { t with copies := t.copies.mapIdx fun j x => if j = i then { x with ready := none } else x }
        | (s1, .ok _, b) =>
          let s2 := abortLaunch (sendChunk s1 t.session i b) ti.val (some (1 - i)) 0 0 48 0xFF 0xFFFFFF
          let second : Bool := i ≠ primaryOf s t
          issueEnd s2 ti.val (if second then 0x0503 else 0) 0 second (t.copies.getD i CopyState.fresh).slip
    | _ => s)

/-- MIRROR_MARGIN_EXPIRY: from D minus mirror_margin on either copy's chunk may be sent. -/
def execMirrorMarginExpiry (s : State) : Out :=
  .next (match s.ev with
    | .task ti =>
      let t := taskOf s ti.val
      if taskLive t && t.copies.length == 2 && !t.margin && decide ((t.deadline.getD (2^80)) ≤ now s + sessField s t.session 8 4) then
        setTask s ti.val { t with margin := true, marginAt := s.cycle }
      else s
    | _ => s)

end Sys2Proof.Machine
end

