-- ==== Sys2Proof/Machine/Admit.lean ====
section
/-! DEFINITION. Requests that reach the Reckoner: the command and its checks (02 R21 to R27), the headers (01 R8 to R15), admission (03 R45 to R47), the host, firmware and network paths (02 R28 to R33, R37). -/

namespace Sys2Proof.Machine

open Sys2Proof

/-! ## Answers (02 R25, R29, R35, R37) -/

/-- What a request comes to: taken; refused by its signal; refused on its path; a release discarded. -/
inductive Verdict where
  | taken
  | signalled (code detail : Nat)
  | refused (code detail : Nat)
  | missed
deriving DecidableEq, Repr

/-- Code and detail as the status word and a firmware entry carry them. A discarded release is no refusal of a firmware entry. -/
def Verdict.code : Verdict → Nat × Nat
  | .taken => (0, 0)
  | .signalled c d => (c, d)
  | .refused c d => (c, d)
  | .missed => (0x0108, 0)

/-- Set bits of a VF's QSTAT. -/
def qstatOr (s : State) (v bits : Nat) : State := bar0Set s v 0x18 4 ((BitVec.ofNat 32 (bar0Get s v 0x18 4)) ||| BitVec.ofNat 32 bits).toNat

/-- Report a verdict on the path that carried the command. -/
def answer (s : State) (src : ReqSrc) (cmd : Command) (r : Verdict) : State :=
  match src with
  | .device c op =>
    match (coreGet s c.val).ops.find? fun o => o.id == op with
    | some o => match o.kind with
      | .asked dst _ => finishCmd s c.val o dst ⟨askStatus r.code.1 r.code.2 (cmdField cmd 4 2), o.taint⟩
      | _ => s
    | none => s
  | .firmware cp e =>
    let x := if r = .missed then (0, 0) else r.code
    cpRingPutBytes s (4096 * cp.val + 64 * e.val + 60) (leBytes x.1 2 ++ leBytes x.2 2)
  | .host v e =>
    match r with
    | .taken | .signalled _ _ => s
    | .missed => qstatOr s v.val 4
    | .refused code detail =>
      bar0Set (qstatOr s v.val (if cmdField cmd 0 1 = 1 then 2 else 16)) v.val 0x48 8 (code + detail * 2^16 + e.val * 2^32)

/-- A request has been decided: the next is taken 4 cycles on (02 R21). -/
def decided (s : State) : State := { s with rk := { s.rk with nextFree := s.cycle + 4, busy := none } }

/-- A decision waits for a translation. DESIGN CHOICE (log 76): the manual does not say what other requests do meanwhile; the Reckoner takes none. -/
def postpone (s : State) (e : Event) (taken : Nat) : State := { s with rk := { s.rk with busy := some (e, taken) } }

/-- The time at which the request that runs was taken. -/
def takenAt (s : State) : Nat := (s.rk.busy.map (·.2)).getD (now s)

/-! ## Step 1 (02 R22, R23, R25; 03 R42) -/

/-- A session's valid record names the partition. -/
def sessionOf (s : State) (p x : Nat) : Bool := decide (x < 4096) && bitsAt (sessField s x 0 1) 0 1 == 1 && sessField s x 1 1 == p

/-- The absolute index of a relative task of a partition, when it lies in the range. -/
def absTask (s : State) (p rel : Nat) : Option Nat := if rel < partField s p 42 2 then some (partField s p 40 2 + rel) else none

/-- The first nonzero byte among those listed. -/
def strayByte (c : Command) (offs : List Nat) : Option Nat := offs.find? fun i => cmdField c i 1 ≠ 0

/-- Whether a request came from firmware, and the flag bits of byte 1 that then name a partition. -/
def isFirmware : ReqSrc → Bool
  | .firmware _ _ => true
  | _ => false

/-- The partition a command acts for: firmware names it (02 R37). It may be no partition. -/
def actsFor (src : ReqSrc) (p : Nat) (c : Command) : Nat := if isFirmware src then cmdField c 1 1 / 4 else p

/-- The lowest offending byte of a SUBMIT (02 R23). -/
def submitBad (s : State) (src : ReqSrc) (p : Nat) (c : Command) : Option Nat :=
  let fl := cmdField c 1 1
  let free : Bool := match absTask s p (cmdField c 4 2) with
    | some ti => (taskOf s ti).st == .free
    | none => false
  let rel := cmdField c 48 8
  lowest [breaks (if isFirmware src then decide (2 ≤ fl % 4) || decide (40 ≤ p) else decide (2 ≤ fl)) 1, breaks (!sessionOf s p (cmdField c 2 2)) 2,
    breaks (!free) 4, strayByte c [6, 7], breaks (cmdField c 8 8 % 64 ≠ 0) 8, breaks (cmdField c 16 8 % 64 ≠ 0) 16,
    breaks (rel = 0 || decide (2^40 < rel)) 48, breaks (cmdField c 56 4 ≠ 0 && decide (cmdField c 56 4 < rel)) 56, strayByte c [60, 61, 62, 63]]

/-- The signal address of a SUBMIT is unusable (02 R25, 17 R336). -/
def signalBad (c : Command) : Bool :=
  let a := cmdField c 24 8
  a % 32 ≠ 0 || !(ownerOf a == 0 || ownerOf a == 1 || ownerOf a == 4 || ownerOf a == 8)

/-- The lowest offending byte of a RELEASE: a device program's carries no session, and step 1 looks at its task instead (02 R23). -/
def releaseBad (s : State) (src : ReqSrc) (p : Nat) (c : Command) : Option Nat :=
  let task := breaks (absTask s p (cmdField c 4 2)).isNone 4
  match src with
  | .device _ _ => task
  | _ => lowest [strayByte c [1], breaks (!sessionOf s p (cmdField c 2 2)) 2, task, strayByte c ((List.range 34).map (· + 6)), strayByte c ((List.range 16).map (· + 48))]

/-- The partition of a RELEASE: firmware acts for the one that its session names (02 R37). -/
def releasePart (s : State) (src : ReqSrc) (p : Nat) (c : Command) : Nat :=
  if isFirmware src then sessField s (cmdField c 2 2 % 4096) 1 1 else p

/-! ## Step 3: the headers (01 R8 to R16, 04 R71) -/

/-- The partition word breaks a rule (04 R71). -/
def pwordBad (w : Nat) : Bool :=
  let v := vwfOf w
  let r := scrOf w
  let a := accOf w
  decide (2^17 ≤ w) || decide (v < 2) || decide (12 < v) || decide (r < 8) || decide (36 < r) || decide (a < 4) || decide (16 < a) || v + r + a ≠ 48

/-- The offending fields of a launch header. -/
def headerFaults (h : BitVec 1024) : List (Option Nat) :=
  let t := { Task.empty with hdr := h }
  let f := t.flagsWord
  let ws := (List.range 6).map t.wid
  [breaks (hdrField h 0 2 ≠ 1) 0, breaks (hdrField h 2 2 ≠ 0) 2,
    breaks (decide (2^9 ≤ f) || t.cls == 3 || (t.mirrored && t.cls ≠ 0)) 4,
    breaks (bitsAt (hdrField h 8 8) 36 28 ≠ 0 || ws.any (fun w => decide (32 < w)) || decide (64 < ws.foldl (· + ·) 0)) 8] ++
  ((List.range 6).map fun i => breaks (decide (2^(t.wid i) ≤ hdrField h (16 + 4 * i) 4)) (16 + 4 * i)) ++
  [breaks (pwordBad t.pword) 40, breaks (t.budget = 0 && (t.cls == 0 || t.cls == 1)) 44, breaks (hdrField h 54 2 ≠ 0) 48, breaks (hdrField h 56 8 ≠ 0) 56] ++
  (List.range 8).map fun z =>
    let o := hdrField h (96 + 4 * z) 4
    breaks (o ≠ 0 && (o % 64 ≠ 0 || decide (o < 64))) (96 + 4 * z)

/-- The offending fields of an image header, by their offsets plus 128. -/
def imageFaults (split : Bool) (i : BitVec 512) : List (Option Nat) :=
  let f := imgField i
  [breaks (f 0 4 ≠ 0x3639485A) 128, breaks (f 4 2 ≠ 1) 132, breaks (f 6 2 ≠ 0) 134,
    breaks (f 8 4 = 0 || decide ((if split then 4096 else 8192) < f 8 4)) 136, breaks (f 12 4 % 64 ≠ 0) 140, breaks (f 16 4 % 64 ≠ 0) 144,
    breaks (f 20 4 = 0 || decide (0x1000000 < f 20 4)) 148, breaks (decide (f 20 4 ≤ f 24 4)) 152,
    breaks (f 28 4 % 64 ≠ 0 || (f 32 2 = 0 && f 28 4 ≠ 0)) 156, breaks (decide (64 < f 32 2)) 160, breaks (decide (16 < f 34 2)) 162,
    breaks (f 36 4 % 64 ≠ 0 || (f 34 2 = 0 && f 36 4 ≠ 0)) 164, breaks (imgField i 40 8 ≠ 0 || imgField i 48 8 ≠ 0 || imgField i 56 8 ≠ 0) 168]

/-- A schedule entry breaks a limit (01 R10). -/
def schedulesBad (len : Nat) (rows : List (Nat × Nat × Nat × Nat)) : Bool := rows.any fun r => decide (len ≤ r.1) || r.2.2.2 ≠ 0

/-- What reading the headers gives: a wait, the lowest offending detail, or header, image header, routines and schedules. -/
inductive Headers where
  | wait
  | bad (detail : Nat)
  | ok (h : BitVec 1024) (i : BitVec 512) (routines : List (Nat × Nat)) (scheds : List (Nat × Nat × Nat))

/-- Whether a read waits, and whether it failed. -/
def Xr.waits : Xr → Bool
  | .wait => true
  | _ => false
def Xr.fails : Xr → Bool
  | .fail _ => true
  | _ => false

/-- Read and check the launch header, the image header and the two tables (01 R15): the lowest of the offending details is reported. -/
def readHeaders (s : State) (p : Nat) (c : Command) : State × Headers :=
  let base := cmdField c 16 8
  let a := readImage s p (cmdField c 8 8) 128
  let b := readImage a.1 p base 64
  let h : BitVec 1024 := BitVec.ofNat 1024 (leOf a.2.2)
  let i : BitVec 512 := BitVec.ofNat 512 (leOf b.2.2)
  if a.2.1.waits || b.2.1.waits then (b.1, .wait)
  else
    let img : List (Option Nat) := if b.2.1.fails then [some 0xFFFE] else imageFaults (!a.2.1.fails && hdrField h 4 1 % 2 == 1) i
    let nr := if b.2.1.fails then 0 else imgField i 32 2
    let ns := if b.2.1.fails then 0 else imgField i 34 2
    let r := readTable b.1 p base (imgField i 28 4) nr 64
    let q := readTable r.1 p base (imgField i 36 4) ns 16
    if r.2.1.waits || q.2.1.waits then (q.1, .wait)
    else
      let rows := routineRows r.2.2 (r.2.2.length / 8)
      let srows := scheduleRows q.2.2 (q.2.2.length / 8)
      let all := (if a.2.1.fails then [some 0xFFFF] else headerFaults h) ++ img ++
        [breaks (r.2.1.fails || routinesBad rows) 156, breaks (q.2.1.fails || schedulesBad (imgField i 20 4) srows) 164]
      match lowest all with
      | some d => (q.1, .bad d)
      | none => (q.1, .ok h i (rows.map fun x => (x.1, x.2.1)) (srows.map fun x => (x.1, x.2.1, x.2.2.1)))

/-! ## Step 4: admission (03 R45 to R47; 17 R352) -/

/-- Rod-units of width w that a partition owns on a die. -/
def ownedUnits (s : State) (p w d : Nat) : Nat :=
  let rods := (List.range 12).map (· + 12 * d)
  if w = 8 then (rods.filter fun n => rodOwner s n 0 == some p && rodOwner s n 1 == some p).length
  else (rods.filter fun n => rodOwner s n 0 == some p).length + (rods.filter fun n => rodOwner s n 1 == some p).length

/-- The utilisation of a task, doubled when it is mirrored; `none` where the partition owns no unit for it (03 R46). -/
def utilisation (s : State) (p : Nat) (t : Task) : Option Nat :=
  let k := if t.mirrored then Nat.min (ownedUnits s p t.w 0) (ownedUnits s p t.w 1) else ownedUnits s p t.w 0 + ownedUnits s p t.w 1
  if k = 0 then none
  else
    let per := ceilDiv t.passes k
    let dur := if t.period ≠ 0 then t.period else t.relDeadline
    some (ceilDiv (per * t.budget * 2^25) (3 * dur) * if t.mirrored then 2 else 1)

/-- The demand of a session, and the reservation and the slots held of a class (03 R42, R47). -/
def demandOf (s : State) (t : Task) : Nat := sessField s t.session (if t.cls = 0 then 2 else 4) 2
def reservedSlots (s : State) (p cls : Nat) : Nat := partField s p (if cls = 0 then 8 else 10) 2
def heldSlots (s : State) (p cls : Nat) : Nat := partField s p (if cls = 0 then 12 else 14) 2

/-- The channel groups of a partition serve a task: some group, and for a mirrored one some group of each die. -/
def groupsServe (s : State) (p : Nat) (mirrored : Bool) : Bool :=
  let m := partField s p 16 2
  m ≠ 0 && (!mirrored || (m % 256 ≠ 0 && m / 256 ≠ 0))

/-- The first admission test that fails, or what the task is charged: utilisation and slots. -/
def admission (s : State) (p : Nat) (t : Task) (held : Bool) : Except Nat (Nat × Nat) :=
  if !held && decide ((t.deadline.getD (2^80)) ≤ now s) then .error 0x0101
  else if t.cls = 2 then
    if kvEnabled s p && decide (kvFree s p < bitsAt (kvCtl s p) 32 20) then .error 0x0105 else .ok (0, 0)
  else match utilisation s p t with
    | none => .error 0x0103
    | some u =>
      if partField s p 0 4 < partField s p 4 4 + u then .error 0x0103
      else if !groupsServe s p t.mirrored || decide (reservedSlots s p t.cls < heldSlots s p t.cls + demandOf s t) then .error 0x0104
      else .ok (u, demandOf s t)

/-- The charges of an admitted task. -/
def charge (s : State) (p cls u d : Nat) : State :=
  let s1 := setPartField s p 4 4 (partField s p 4 4 + u)
  if cls = 2 then s1 else setPartField s1 p (if cls = 0 then 12 else 14) 2 (heldSlots s1 p cls + d)

/-! ## SUBMIT (02 R23 to R26) -/

/-- The VF a task belongs to (16 R326). -/
def vfOf (s : State) : ReqSrc → Option Nat
  | .host v _ => some v.val
  | .device c _ => (taskOfCore s c.val).vf
  | .firmware _ _ => none

/-- A refusal that the signal reports. -/
def refuseSignal (s : State) (p : Nat) (c : Command) (code detail : Nat) : State :=
  let n := now s
  let w : SigWrite :=
    { wait := none, part := p, vf := none, task := cmdField c 4 2, addr := cmdField c 24 8, bytes := signalBytes (cmdField c 32 8) n n code detail 0 0 }
  { s with rk := { s.rk with sigQ := s.rk.sigQ ++ [w] } }

/-- Refuse a SUBMIT: by its signal where the signal's address is usable, else on its path. -/
def refuseSubmit (s : State) (src : ReqSrc) (p : Nat) (c : Command) (code detail : Nat) : State :=
  if signalBad c then decided (answer s src c (.refused code detail))
  else decided (answer (refuseSignal s p c code detail) src c (.signalled code detail))

/-- The task that a SUBMIT makes. -/
def newTask (s : State) (src : ReqSrc) (p taken : Nat) (c : Command) (h : BitVec 1024) (i : BitVec 512) (rs : List (Nat × Nat)) (ss : List (Nat × Nat × Nat)) : Task :=
  let rel := cmdField c 40 8
  { Task.empty with
    st := .pending, cmd := c, part := p, vf := vfOf s src, relField := BitVec.ofNat 64 rel, taken := BitVec.ofNat 64 taken,
    eff := if cmdField c 1 1 % 2 = 1 then none else some (BitVec.ofNat 64 (Nat.max taken rel)), hdr := h, img := i, routines := rs, scheds := ss }

/-- Decide a SUBMIT in the order of 02 R25. -/
def decideSubmit (s : State) (e : Event) (src : ReqSrc) (p : Nat) (c : Command) : State :=
  match submitBad s src p c with
  | some d => refuseSubmit s src p c 0x0107 d
  | none =>
    if signalBad c then refuseSubmit s src p c 0x0107 24
    else match readHeaders s p c with
    | (s1, .wait) => postpone s1 e (takenAt s)
    | (s1, .bad d) => refuseSubmit s1 src p c 0x0106 d
    | (s1, .ok h i rs ss) =>
      let t := newTask s1 src p (takenAt s) c h i rs ss
      match admission s1 p t t.holdFlag with
      | .error code => refuseSubmit s1 src p c code 0
      | .ok (u, d) =>
        let ti := (absTask s1 p (cmdField c 4 2)).getD 0
        let s2 := setTask (charge s1 p t.cls u d) ti { t with util := u, slots := d }
        decided (answer (if releaseDue s2 ti then releaseNow s2 ti else s2) src c .taken)

/-- A request leaves the queue it stood in when it is taken. -/
def dequeue (s : State) : ReqSrc → State
  | .device c op => { s with rk := { s.rk with devQ := s.rk.devQ.filter (· ≠ (c.val, op)) } }
  | _ => s

/-- SUBMIT. -/
def execSubmit (s : State) : Out :=
  .next (match s.ev with
    | .req src p c => if cmdField c 0 1 = 1 then decideSubmit (dequeue s src) ⟨.submit, s.ev⟩ src (actsFor src p.val c) c else s
    | _ => s)

/-- RELEASE_COMMAND (02 R23, R27). -/
def execReleaseCommand (s : State) : Out :=
  .next (match s.ev with
    | .req src p0 c =>
      if cmdField c 0 1 ≠ 2 then s
      else
        let p := releasePart s src p0.val c
        let s1 := dequeue s src
        match releaseBad s1 src p c with
        | some d => decided (answer s1 src c (.refused 0x0107 d))
        | none => match takeRelease s1 ((absTask s1 p (cmdField c 4 2)).getD 0) (Nat.max (cmdField c 40 8) (now s)) with
          | some s2 => decided (answer s2 src c .taken)
          | none => decided (answer s1 src c .missed)
    | _ => s)

/-- NOP_COMMAND: a NOP with a stray byte is refused; so is an opcode that is not in the table, with detail 0 (02 R25). -/
def execNopCommand (s : State) : Out :=
  .next (match s.ev with
    | .req src _ c =>
      let op := cmdField c 0 1
      if op = 1 ∨ op = 2 then s
      else if op ≠ 0 then decided (answer s src c (.refused 0x0107 0))
      else match strayByte c ((List.range 63).map (· + 1)) with
        | some d => decided (answer s src c (.refused 0x0107 d))
        | none => decided (answer s src c .taken)
    | _ => s)

/-- The step that decides a command. -/
def requestEvent (src : ReqSrc) (p : Part) (c : Command) : Event :=
  let op := cmdField c 0 1
  ⟨if op = 1 then .submit else if op = 2 then .releaseCommand else .nopCommand, .req src p c⟩

/-! ## Rings (02 R28 to R31, R37) -/

/-- The Reckoner can take a request in this cycle. -/
def takesRequest (s : State) : Bool := decide (s.rk.nextFree ≤ s.cycle) && s.rk.busy.isNone

/-- A VF's ring has an entry to read: live, owned, its partition not stopped for migration (16 R333). -/
def ringReady (s : State) (v : Nat) : Bool :=
  bitsAt (bar0Get s v 0 4) 31 1 == 1 && bar0Get s v 8 4 ≠ bar0Get s v 0x10 4 && !s.plat.flr.contains v &&
    match vfOwner s v with
    | some p => decide (p < 40) && !(partDyn s p).stopped
    | none => false

/-- RING_ENTRY_READ: the entry at head goes to the Reckoner and head advances; the next turn is the next VF's. -/
def execRingEntryRead (s : State) : Out :=
  .next (match s.ev with
    | .vf v =>
      if !ringReady s v.val || !takesRequest s then s
      else
        let head := bar0Get s v.val 0x10 4
        let c : Command := BitVec.ofNat 512 (bar2Get s v.val (64 * head) 64)
        let s1 := bar0Set s v.val 0x10 4 ((head + 1) % 2^(bar0Get s v.val 0 4 % 16))
        let s2 := { s1 with rk := { s1.rk with rr := v.val + 1, nextFree := s.cycle + 4 } }
        { s2 with agenda := requestEvent (.host v (Fin.ofNat 4096 head)) (Fin.ofNat 40 ((vfOwner s v.val).getD 0)) c :: s2.agenda }
    | _ => s)

/-- FIRMWARE_RING_ENTRY: a command processor has published its ring's next entry, which the Reckoner takes when it can. -/
def execFirmwareRingEntry (s : State) : Out :=
  .next (match s.ev with
    | .cp cp =>
      if !takesRequest s || s.plat.cpReset.contains cp.val then again s ⟨.firmwareRingEntry, .cp cp⟩
      else
        let i := Tbl.get 0 s.rk.cpRead cp.val
        let c : Command := BitVec.ofNat 512 (cpRingGet s cp.val (64 * i) 64)
        let s1 := { s with rk := { s.rk with cpRead := Tbl.set 0 s.rk.cpRead cp.val ((i + 1) % 64), nextFree := s.cycle + 4 } }
        { s1 with agenda := requestEvent (.firmware cp (Fin.ofNat 64 i)) (Fin.ofNat 40 (cmdField c 1 1 / 4)) c :: s1.agenda }
    | _ => s)

/-! ## Network release (02 R32, R33) -/

/-- A field of a session-match entry. -/
def matchField (s : State) (i off n : Nat) : Nat := pfGet s (0x60000 + 32 * i + off) n

/-- The entry that a packet matches: the lowest valid one of its port and context. -/
def matchEntry (s : State) (port ctx : Nat) : Option Nat :=
  (List.range 4096).find? fun i =>
    bitsAt (matchField s i 0 1) 0 1 == 1 && bitsAt (matchField s i 0 1) 1 2 == port && matchField s i 2 2 == ctx

def countMiss (s : State) (i : Nat) : State := pfSet s (0x60000 + 32 * i + 20) 4 (Nat.min 0xFFFFFFFF (matchField s i 20 4 + 1))

/-- The partition of a session, when its record is valid. -/
def sessionPart (s : State) (x : Nat) : Option Nat :=
  if x < 4096 ∧ bitsAt (sessField s x 0 1) 0 1 = 1 then some (sessField s x 1 1) else none

/-- NETWORK_RELEASE: the release of a matched packet, whose event time is its ingress timestamp. -/
def execNetworkRelease (s : State) : Out :=
  .next (match s.ev with
    | .netRelease i stamp =>
      if !s.rk.netQ.contains (i.val, stamp) then s
      else
        let s1 := { s with rk := { s.rk with netQ := s.rk.netQ.erase (i.val, stamp) } }
        let done : Option State := match sessionPart s1 (matchField s1 i.val 4 2) with
          | none => none
          | some p => match absTask s1 p (matchField s1 i.val 6 2) with
            | none => none
            | some ti => takeRelease s1 ti stamp.toNat
        decided (done.getD (countMiss s1 i.val))
    | _ => s)

end Sys2Proof.Machine
end

