-- ==== Sys2Proof/Machine/Network.lean ====
section
/-! DEFINITION. The network commands and the endpoint (11 R239 to R243), and the packets it takes in (02 R32, R33). -/

namespace Sys2Proof.Machine

open Sys2Proof

/-! ## Entries and starting in order -/

/-- NCTX[i] (11 R239). -/
def nctx (s : State) (i : Nat) : Nat := pfGet s (0xF6000 + 8 * i) 8

/-- The entry is in use by a partition. -/
def nctxOwned (s : State) (i p : Nat) : Bool :=
  decide (i < 1024) && bitsAt (nctx s i) 63 1 == 1 && bitsAt (nctx s i) 48 6 == p

/-- Reliable unordered mode. -/
def nctxUnordered (s : State) (i : Nat) : Bool := bitsAt (nctx s i) 62 1 == 1

/-- The Ethernet port and the delivery context of an entry. -/
def nctxPort (s : State) (i : Nat) : Nat := bitsAt (nctx s i) 56 2
def nctxContext (s : State) (i : Nat) : Nat := bitsAt (nctx s i) 32 16

/-- The entry that a packet reaches which no session-match entry takes (11 R239): a valid one of its port and delivery context. DESIGN CHOICE (log 25): of several the lowest. -/
def nctxFor (s : State) (port ctx : Nat) : Option Nat :=
  (List.range 1024).find? fun i => bitsAt (nctx s i) 63 1 == 1 && nctxPort s i == port && nctxContext s i == ctx

/-- Every earlier network command of the core has started. -/
def netFirst (c : Core) (o : AOp) : Bool := c.ops.all fun e => opClass e.kind ≠ 4 || decide (o.id ≤ e.id) || netStarted e.kind

/-- The live operation of a number on a core. -/
def liveOp (s : State) (cid id : Nat) : Option AOp := (coreGet s cid).ops.find? fun o => o.id == id

/-- Replace an operation's kind. -/
def setKind (s : State) (cid id : Nat) (f : AOp → AOp) : State :=
  modCore s cid fun c => { c with ops := c.ops.map fun e => if e.id = id then f e else e }

/-- Remove an operation that has ended from the queues of the endpoint. -/
def netForget (s : State) (cid : Nat) : State :=
  let alive (e : Nat × Nat) : Bool := e.1 ≠ cid || (liveOp s e.1 e.2).isSome
  { s with net := { s.net with posted := (s.net.posted.map fun e => (e.1, e.2.filter alive)).filter fun e => e.2 ≠ [] } }

/-- A network command completes: its status lands now, or in deterministic mode at the next superstep release (11 R240, 15 R307). -/
def netFinish (s : State) (cid : Nat) (o : AOp) (dst : Fin 32) (x : TWord) : State :=
  netForget (if (taskOfCore s cid).det then landLater s cid o dst x none else finishCmd s cid o dst x) cid

/-- A network command fails (11 R240), in deterministic mode at the next superstep release too (15 R307). -/
def netFail (s : State) (cid : Nat) (o : AOp) (dst : Fin 32) (code detail : Nat) : State :=
  netForget (if (taskOfCore s cid).det then landLater s cid o dst ⟨statusWord code detail 0, o.taint⟩ (some (code, detail))
    else failCmd s cid o dst code detail 0) cid

/-- Run an event on the network command it names, if it may start; while the endpoint is held in reset none does (18 R358). -/
def onStart (s : State) (f : Nat → AOp → State) : State :=
  onOp s fun cid o => if !netStarted o.kind && netFirst (coreGet s cid) o && endpointRuns s then f cid o else s

/-- What a started command is still to write: the buffer and the descriptor of an NRECV, the result of an NCOLL. -/
def netWrites : AKind → List (Nat × Nat)
  | .posted _ va _ size buf => [(buf, size), (va + 16, 12)]
  | .coll _ d _ _ => [(cmdField d 16 8, 4 * cmdField d 4 4 * (if cmdField d 0 1 = 5 then cmdField d 2 1 else 1))]
  | _ => []

/-- An earlier network command of the core is still to write bytes of these ranges: the access waits for it (14 R285). -/
def netBehind (s : State) (cid id : Nat) (l : List (Nat × Nat)) : Bool :=
  (coreGet s cid).ops.any fun e => decide (e.id < id) && spansMeet (netWrites e.kind) l

/-- A command names an entry: it goes on, fails for an abandoned connection, or completes with PERMISSION. -/
def withCtx (s : State) (cid : Nat) (o : AOp) (dst : Fin 32) (ctx : Nat) (k : State) : State :=
  if !nctxOwned s ctx (partOfCore s cid) then netFinish s cid o dst ⟨statusWord 0x0202 0 0, o.taint⟩
  else if s.net.abandoned.contains ctx then netFail s cid o dst 0x0502 ctx
  else k

/-- Append to the messages that wait for acknowledgement on an entry. -/
def pushSent (s : State) (ctx cid id : Nat) : State :=
  { s with net := { s.net with sentQ := Tbl.set [] s.net.sentQ ctx (Tbl.get [] s.net.sentQ ctx ++ [(cid, id)]) } }

/-- Read a command's descriptor, with its taint, and check it. -/
def descOr (m : Cmd) (bad : Cmd → List Byte → Option (Nat × Nat)) (s : State) (va : Nat) : Res (List Byte × Bool) :=
  (enDesc m s va).bind fun s d => match bad m d.1 with
    | some e => .fail s e.1 e.2 0
    | none => .ok s d

/-! ## NSEND (11 R241) -/

def nsendBad (m : Cmd) (d : List Byte) : Option (Nat × Nat) :=
  let f := bfield d
  firstBad [limitBad (decide (1024 ≤ f 0 2)) 0, limitBad (f 4 4 = 0 || decide (2^24 < f 4 4)) 4, heldBad m 8 (f 8 8),
    zeroBad d ([2, 3] ++ span 24 64)]

/-- NSEND reads its bytes and hands the message to the endpoint. -/
def nsendStart (s : State) (cid : Nat) (o : AOp) (dst : Fin 32) (va : Nat) : State :=
  let m := cmdOf s cid o
  if netBehind s cid o.id [(va, 64)] then s
  else match descOr m nsendBad s va with
  | .wait a st => retryCmd s cid o a st
  | .fail s1 code detail _ => netFail s1 cid o dst code detail
  | .ok s1 d =>
    if netBehind s1 cid o.id [(bfield d.1 8 8, bfield d.1 4 4)] then s1
    else match readCmd m 0 s1 (bfield d.1 8 8) (bfield d.1 4 4) with
    | .wait a st => retryCmd s1 cid o a st
    | .fail s2 code detail _ => netFail s2 cid o dst code detail
    | .ok s2 b =>
      let ctx := bfield d.1 0 2
      let t := o.taint || d.2 || b.2
      withCtx s2 cid { o with taint := t } dst ctx (
        let s3 := send s2 (.message ctx (BitVec.ofNat 64 (bfield d.1 16 8)) b.1)
        pushSent (setKind s3 cid o.id fun e => { e with kind := .sent dst ctx (bfield d.1 4 4), accepted := true, acks := 1, taint := t }) ctx cid o.id)

/-- NSEND_COMPLETE: a command that has not started sends its message; one that has completes when the far end has acknowledged it. -/
def execNsendComplete (s : State) : Out :=
  .next (match s.ev with
    | .op cid id =>
      match liveOp s cid.val id with
      | none => s
      | some o =>
        match o.kind with
        | .sent dst _ len => if o.acks = 0 then netFinish s cid.val o dst ⟨statusWord 0 0 len, o.taint⟩ else s
        | .net 0 dst va => onStart s fun c o => nsendStart s c o dst va
        | _ => s
    | _ => s)

/-! ## NRECV (11 R242) -/

def nrecvBad (m : Cmd) (d : List Byte) : Option (Nat × Nat) :=
  let f := bfield d
  firstBad [limitBad (decide (1024 ≤ f 0 2)) 0, limitBad (f 4 4 % 64 ≠ 0 || f 4 4 = 0 || decide (2^24 < f 4 4)) 4, heldBad m 8 (f 8 8),
    zeroBad d ([2, 3] ++ span 28 64)]

/-- NRECV posts its buffer to the receive queue of its entry, which holds 64. -/
def nrecvStart (s : State) (cid : Nat) (o : AOp) (dst : Fin 32) (va : Nat) : State :=
  let m := cmdOf s cid o
  if netBehind s cid o.id [(va, 64)] then s
  else match descOr m nrecvBad s va with
  | .wait a st => retryCmd s cid o a st
  | .fail s1 code detail _ => netFail s1 cid o dst code detail
  | .ok s1 x =>
    let d := x.1
    let ctx := bfield d 0 2
    withCtx s1 cid { o with taint := o.taint || x.2 } dst ctx (
      let q := Tbl.get [] s1.net.posted ctx
      if 64 ≤ q.length then netFail s1 cid o dst 0x0107 0
      else
        let s2 := { s1 with net := { s1.net with posted := Tbl.set [] s1.net.posted ctx (q ++ [(cid, o.id)]) } }
        setKind s2 cid o.id fun e => { e with kind := .posted dst va ctx (bfield d 4 4) (bfield d 8 8), taint := e.taint || x.2 })

/-- Bytes of the messages held for an entry beyond the first n. -/
def heldBytes (s : State) (i n : Nat) : Nat := ((Tbl.get [] s.net.held i).drop n).foldl (fun a m => a + m.payload.length) 0

/-- The posted buffers of an entry that can take messages: those before the first whose command is suspended. -/
def openBuffers (s : State) (i : Nat) : Nat :=
  ((Tbl.get [] s.net.posted i).takeWhile fun e => match liveOp s e.1 e.2 with
    | some o => !o.suspended
    | none => false).length

/-- The oldest message held for an entry goes to the oldest posted buffer: payload, then tag and length, then the status. A posted command whose pass is
stopped keeps its place, and messages wait for it. A write of the entry applies to a command not yet accepted: one whose entry its partition has lost completes with PERMISSION, and the
message stays (11 R239). -/
def deliver (s : State) (i : Nat) : State :=
  match Tbl.get [] s.net.held i, Tbl.get [] s.net.posted i with
  | msg :: rest, (cid, id) :: _ =>
    match liveOp s cid id with
    | none => s
    | some o =>
      match o.kind with
      | .posted dst va _ size buf =>
        if o.suspended || netBehind s cid id (netWrites o.kind) then s
        else if !nctxOwned s i (partOfCore s cid) then netFinish s cid o dst ⟨statusWord 0x0202 0 0, o.taint⟩
        else
          let m := cmdOf s cid o
          let t := nctxUnordered s i || o.taint
          let bs := msg.payload.take size
          let drop (s : State) : State := { s with net := { s.net with held := Tbl.set [] s.net.held i rest } }
          let r : Res Unit := (cmdWrite m 0 t false (bs.length / 4096 + 2) s buf bs).bind fun s _ =>
            cmdWrite m 0 t false 2 s (va + 16) (leBytes msg.tag.toNat 8 ++ leBytes (Nat.min msg.payload.length 0xFFFFFFFF) 4)
          match r with
          | .wait a st => (resolve s m.part a st).1
          | .fail s1 code detail _ => drop (netFail s1 cid o dst code detail)
          | .ok s1 _ =>
            drop (netFinish s1 cid o dst
              ⟨statusWord 0 (if size < msg.payload.length then 1 else 0) bs.length, t⟩)
      | _ => s
  | _, _ => s

/-- A message arrives on an entry: it goes to a posted buffer that no message held before it takes, or is held, up to 256 KiB of messages without a buffer; beyond that the endpoint withholds its
acknowledgement and the sender tries again (11 R242). -/
def arrive (s : State) (i : Nat) (tag : Word) (payload : List Byte) : State :=
  let q := Tbl.get [] s.net.held i
  let n := openBuffers s i
  if n ≤ q.length ∧ 262144 < heldBytes s i n + payload.length then s
  else deliver { s with net := { s.net with held := Tbl.set [] s.net.held i (q ++ [⟨tag, payload⟩]) } } i

/-- MESSAGE_DELIVERY: a command posts its buffer; a message arrives on a valid entry whose packets no session-match entry takes (11 R239), or one that is held is delivered. -/
def execMessageDelivery (s : State) : Out :=
  .next (match s.ev with
    | .op cid id =>
      match liveOp s cid.val id with
      | some o =>
        match o.kind with
        | .net 1 dst va => onStart s fun c o => nrecvStart s c o dst va
        | _ => s
      | none => s
    | .message i tag payload =>
      if bitsAt (nctx s i.val) 63 1 = 0 ∨ (matchEntry s (nctxPort s i.val) (nctxContext s i.val)).isSome then s
      else arrive s i.val tag payload
    | .ctx i => deliver s i.val
    | _ => s)

/-! ## Packets (02 R32, R33; 03 R39; 11 R239) -/

/-- The least reading that a port's timestamp unit may return (03 R39): within 4 ns of device time and of what every other unit, none of whose readings falls, now reads at least; and
not below the one before. -/
def leastStamp (s : State) (port : Nat) : Nat :=
  s.net.stamps.foldl (fun a e => Nat.max a (e.2.2 - 4)) (Nat.max (now s - 4) (Tbl.get (0, 0) s.net.stamps port).2)

/-- The greatest: within 4 ns of device time and of every reading taken in this cycle. -/
def mostStamp (s : State) : Nat :=
  s.net.stamps.foldl (fun a e => if e.2.1 = s.cycle then Nat.min a (e.2.2 + 4) else a) (now s + 4)

/-- The ingress timestamp of a packet, a reading of its port's timestamp unit: where the timestamp that comes with the input is no reading that 03 R39 allows, the nearest that is one stands
(log 66). -/
def ingress (s : State) (port : Nat) (stamp : Word) : Nat := Nat.max (leastStamp s port) (Nat.min (mostStamp s) stamp.toNat) % 2^64

/-- The endpoint writes the payload of a packet, then last_stamp, and presents the release; none while the payload waits for a translation. A payload that cannot be written counts a miss and
presents no release. DESIGN CHOICE (log 54): so does one whose session has no valid record, or whose buffer has another owner than a C-die. DESIGN CHOICE (log 55): a buffer that is no multiple
of 64 is written where it stands. -/
def packetIn (s : State) (i : Nat) (stamp : Word) (payload : List Byte) : Option State :=
  let buf := matchField s i 8 8
  let bs := payload.take (matchField s i 16 4)
  let stamped (s : State) : State := pfSet s (0x60000 + 32 * i + 24) 8 stamp.toNat
  let fails (s : State) : State := countMiss (stamped s) i
  match sessionPart s (matchField s i 4 2) with
  | none => some (fails s)
  | some p =>
    if 1 < ownerOf buf then some (fails s)
    else match resolveRange s p true (bs.length / 4096 + 2) buf bs.length with
      | (_, .wait, _) => none
      | (s1, .fail _, _) => some (fails s1)
      | (s1, .ok _, l) =>
        let s2 := stamped (writePieces s1 l bs)
        some { s2 with rk := { s2.rk with netQ := s2.rk.netQ ++ [(i, stamp)] } }

/-- What a packet asks of translation while its payload waits. -/
def packetAsks (s : State) (i : Nat) (payload : List Byte) : State :=
  match sessionPart s (matchField s i 4 2) with
  | some p => (resolveRange s p true (payload.length / 4096 + 2) (matchField s i 8 8) (payload.take (matchField s i 16 4)).length).1
  | none => s

/-- A packet that no session-match entry takes: it is delivered to the NCTX entry of its port and context as a message, or dropped. -/
def packetOn (s : State) (port ctx : Nat) (payload : List Byte) : State :=
  match nctxFor s port ctx with
  | some i => arrive { s with freeCtr := s.freeCtr + 1 } i (Config.messageTag s.freeCtr) payload
  | none => s

/-- The packets that wait go on in order, up to the first whose payload still waits. -/
def drainPackets : Nat → State → State
  | 0, s => s
  | n + 1, s =>
    match s.net.packets with
    | [] => s
    | (port, ctx, stamp, payload) :: r =>
      let s0 : State := { s with net := { s.net with packets := r } }
      match matchEntry s port ctx with
      | none => drainPackets n (packetOn s0 port ctx payload)
      | some i => match packetIn s0 i stamp payload with
        | some s1 => drainPackets n s1
        | none => packetAsks s i payload

/-- PACKET_MATCH: a packet comes in behind those that wait, or those that wait go on: the endpoint takes one after the other (02 R33). -/
def execPacketMatch (s : State) : Out :=
  .next (match s.ev with
    | .packet port ctx stamp payload =>
      let t := ingress s port.val stamp
      let s1 := { s with net := { s.net with stamps := Tbl.set (0, 0) s.net.stamps port.val (s.cycle, t),
                                             packets := s.net.packets ++ [(port.val, ctx.toNat, BitVec.ofNat 64 t, payload)] } }
      drainPackets s1.net.packets.length s1
    | .none => drainPackets s.net.packets.length s
    | _ => s)

/-! ## NCOLL (11 R243) -/

def ncollBad (m : Cmd) (d : List Byte) : Option (Nat × Nat) :=
  let f := bfield d
  firstBad [limitBad (decide (6 < f 0 1)) 0, limitBad (decide (f 2 1 ≤ f 1 1)) 1, limitBad (decide (f 2 1 < 2) || decide (16 < f 2 1)) 2,
    limitBad (if f 0 1 = 6 then decide (f 2 1 ≤ f 3 1) else f 3 1 ≠ 0) 3,
    limitBad (f 4 4 = 0 || decide (2^22 < f 4 4)) 4,
    heldBad m 8 (f 8 8), heldBad m 16 (f 16 8), heldBad m 24 (f 24 8), zeroBad d (span 32 64)]

/-- The number of a collective over a group, and the count one higher. -/
def nextColl (s : State) (key : Nat) : Nat × State :=
  let n := Tbl.get 0 s.net.collNo key
  (n, { s with net := { s.net with collNo := Tbl.set 0 s.net.collNo key (n + 1) } })

/-- A group as a key: its contexts but the member's own, its rank and size. -/
def groupKey (ctxs : List Nat) (rank : Nat) : Nat :=
  (ctxs.mapIdx fun j c => if j = rank then 0 else c + 1).foldl (fun a c => a * 65537 + c) (rank + 16 * ctxs.length)

/-- The ranks of the others. -/
def otherRanks (m rank : Nat) : List Nat := (List.range m).filter (· ≠ rank)

/-- The ranks a member sends its elements to. -/
def sendTo (d : List Byte) : List Nat :=
  if bfield d 0 1 = 6 ∧ bfield d 1 1 ≠ bfield d 3 1 then [] else otherRanks (bfield d 2 1) (bfield d 1 1)

/-- The ranks whose elements a member needs. -/
def needFrom (d : List Byte) : List Nat :=
  if bfield d 0 1 = 6 then (if bfield d 1 1 = bfield d 3 1 then [] else [bfield d 3 1]) else otherRanks (bfield d 2 1) (bfield d 1 1)

/-- NCOLL starts: it takes its number and sends its contributions; its own elements are kept as they were read. -/
def ncollStart (s : State) (cid : Nat) (o : AOp) (dst : Fin 32) (va : Nat) : State :=
  let m := cmdOf s cid o
  let data (s : State) (d : List Byte) : Res (List Nat × List Byte × Bool) :=
    (readCmd m 0 s (bfield d 24 8) (2 * bfield d 2 1)).bind fun s g => (readCmd m 0 s (bfield d 8 8) (4 * bfield d 4 4)).bind fun s b =>
      .ok s ((List.range (bfield d 2 1)).map fun j => bfield g.1 (2 * j) 2, b.1, g.2 || b.2)
  if netBehind s cid o.id [(va, 64)] then s
  else match descOr m ncollBad s va with
  | .wait a st => retryCmd s cid o a st
  | .fail s1 code detail _ => netFail s1 cid o dst code detail
  | .ok s0 x0 =>
  let d := x0.1
  if netBehind s0 cid o.id [(bfield d 24 8, 2 * bfield d 2 1), (bfield d 8 8, 4 * bfield d 4 4)] then s0
  else match data s0 d with
  | .wait a st => retryCmd s0 cid o a st
  | .fail s1 code detail _ => netFail s1 cid o dst code detail
  | .ok s1 x =>
    let o := { o with taint := o.taint || x0.2 || x.2.2 }
    let ctxs := x.1
    let rank := bfield d 1 1
    let used := (otherRanks ctxs.length rank).map fun j => ctxs.getD j 0
    if used.any fun c => !nctxOwned s1 c m.part then netFinish s1 cid o dst ⟨statusWord 0x0202 0 0, o.taint⟩
    else match used.find? fun c => s1.net.abandoned.contains c with
      | some c => netFail s1 cid o dst 0x0502 c
      | none =>
        let n := nextColl s1 (groupKey ctxs rank)
        let data := (word32s (bfield d 4 4) x.2.1).map (BitVec.ofNat 32)
        let sendOne (s : State) (j : Nat) : State :=
          pushSent (send s (.contribution ⟨ctxs.getD j 0, n.1, BitVec.ofNat 8 (bfield d 0 1), BitVec.ofNat 8 ctxs.length,
            BitVec.ofNat 32 (bfield d 4 4), BitVec.ofNat 8 (bfield d 3 1), data⟩)) (ctxs.getD j 0) cid o.id
        let own : Contribution := ⟨65536 + cid, o.id, 0, 0, 0, 0, data⟩
        let s2 := (sendTo d).foldl sendOne { n.2 with net := { n.2.net with contribs := n.2.net.contribs ++ [own] } }
        setKind s2 cid o.id fun e => { e with kind := .coll dst (BitVec.ofNat 512 (leOf d)) ctxs n.1, accepted := !(sendTo d).isEmpty, acks := (sendTo d).length, taint := o.taint }

/-- NCOLL_CONTRIBUTION: a command sends its own elements, or another member's arrive. -/
def execNcollContribution (s : State) : Out :=
  .next (match s.ev with
    | .op cid id =>
      match liveOp s cid.val id with
      | some o =>
        match o.kind with
        | .net 2 dst va => onStart s fun c o => ncollStart s c o dst va
        | _ => s
      | none => s
    | .contribution i n op m count root data =>
      if bitsAt (nctx s i.val) 63 1 = 0 then s
      else { s with net := { s.net with contribs := s.net.contribs ++ [⟨i.val, n, op, m, count, root, data⟩] } }
    | _ => s)

/-- One step of a reduction over ranks. -/
def collOp (op : Nat) (x y : Lane) : Lane :=
  match op with
  | 0 => x + y
  | 1 => BitVec.ofNat 32 (fsum fmt32 0 (v32 x.toNat) (v32 y.toNat)).bits
  | 2 => BitVec.ofNat 32 (fminmax true fmt32 x.toNat y.toNat).bits
  | 3 => BitVec.ofNat 32 (fminmax false fmt32 x.toNat y.toNat).bits
  | _ => if x.toInt < y.toInt then y else x

/-- The result of a collective from every rank's elements. -/
def collResult (op root : Nat) (xs : List (List Lane)) : List Lane :=
  if op = 5 then xs.flatten
  else if op = 6 then xs.getD root []
  else match xs with
    | [] => []
    | x :: r => r.foldl (fun a y => a.zipWith (collOp op) y) x

/-- The contribution of rank j to a collective. -/
def contribOf (s : State) (ctxs : List Nat) (n j : Nat) : Option Contribution :=
  s.net.contribs.find? fun c => c.ctx == ctxs.getD j 0 && c.n == n

/-- The first field in which a contribution differs. -/
def contribDiffers (d : List Byte) (c : Contribution) : Option Nat :=
  if c.op.toNat ≠ bfield d 0 1 then some 0
  else if c.m.toNat ≠ bfield d 2 1 then some 2
  else if c.root.toNat ≠ bfield d 3 1 then some 3
  else if c.count.toNat ≠ bfield d 4 4 then some 4
  else none

/-- The first differing field among the contributions that have come. -/
def collDiffers (s : State) (d : List Byte) (ctxs : List Nat) (n : Nat) : Option Nat :=
  (otherRanks ctxs.length (bfield d 1 1)).findSome? fun j => (contribOf s ctxs n j).bind (contribDiffers d)

/-- A collective has what it needs: every contribution and every acknowledgement. -/
def collReady (s : State) (d : List Byte) (ctxs : List Nat) (n acks : Nat) : Bool :=
  acks == 0 && (needFrom d).all fun j => (contribOf s ctxs n j).isSome

/-- NCOLL_COMPLETE: the result is the same on every member; a contribution that differs ends the command. DESIGN CHOICE (log 75): that end is a failure of 11 R240, which traps and
discards the commands behind it. -/
def execNcollComplete (s : State) : Out :=
  .next (onOp s fun cid o =>
    match o.kind with
    | .coll dst desc ctxs n =>
      let d := leBytes desc.toNat 64
      let rank := bfield d 1 1
      let others := otherRanks ctxs.length rank
      let drop (s : State) : State :=
        { s with net := { s.net with contribs := s.net.contribs.filter fun c =>
          !(c.n == n && others.any fun j => c.ctx == ctxs.getD j 0) && !(c.ctx == 65536 + cid && c.n == o.id) } }
      match collDiffers s d ctxs n with
      | some off => drop (netFail s cid o dst 0x0107 off)
      | none =>
        if !collReady s d ctxs n o.acks || netBehind s cid o.id (netWrites o.kind) then s
        else
          let m := cmdOf s cid o
          let own := ((s.net.contribs.find? fun c => c.ctx == 65536 + cid && c.n == o.id).map (·.data)).getD []
          let xs := (List.range ctxs.length).map fun j => if j = rank then own else ((contribOf s ctxs n j).map (·.data)).getD []
          let bs := (collResult (bfield d 0 1) (bfield d 3 1) xs).flatMap fun x => leBytes x.toNat 4
          match cmdWrite m 0 false false (bs.length / 4096 + 2) s (bfield d 16 8) bs with
          | .wait a st => retryCmd s cid o a st
          | .fail s1 code detail _ => drop (netFail s1 cid o dst code detail)
          | .ok s1 _ => drop (netFinish s1 cid o dst ⟨statusWord 0 0 bs.length, o.taint⟩)
    | _ => s)

/-! ## Abandoned connections (11 R240) -/

/-- Whether a started command uses an entry. -/
def usesCtx (i : Nat) : AKind → Bool
  | .sent _ ctx _ | .posted _ _ ctx _ _ => ctx == i
  | .coll _ d ctxs _ => (otherRanks ctxs.length (bitsAt d.toNat 8 8)).any fun j => ctxs.getD j 0 == i
  | _ => false

/-- The status register of a network command. -/
def netDst : AKind → Fin 32
  | .sent d _ _ | .posted d _ _ _ _ | .coll d _ _ _ | .net _ d _ => d
  | _ => 0

/-- Fail the started commands of a core that use an entry, the oldest first. -/
def abandonCore (s : State) (i cid : Nat) : State :=
  ((coreGet s cid).ops.filter fun o => usesCtx i o.kind).foldl (fun s o => netFail s cid o (netDst o.kind) 0x0502 i) s

/-- CONNECTION_ABANDON: the commands that use the entry fail with LINK_FENCED; messages held or unacknowledged on it are gone. -/
def execConnectionAbandon (s : State) : Out :=
  .next (match s.ev with
    | .ctx i =>
      let s1 := s.cores.foldl (fun s e => abandonCore s i.val e.1) s
      { s1 with net := { s1.net with abandoned := i.val :: s1.net.abandoned.filter (· ≠ i.val), held := Tbl.erase s1.net.held i.val,
                                     sentQ := Tbl.erase s1.net.sentQ i.val } }
    | _ => s)

/-- The far end has acknowledged the n-th unacknowledged message of an entry (11 R241). -/
def takeAck (s : State) (i n : Nat) : State :=
  let q := Tbl.get [] s.net.sentQ i
  match q[n]? with
  | none => s
  | some e =>
    setKind { s with net := { s.net with sentQ := Tbl.set [] s.net.sentQ i (q.eraseIdx n) } } e.1 e.2 fun o =>
      if usesCtx i o.kind then { o with acks := o.acks - 1 } else o

end Sys2Proof.Machine
end

