-- ==== Sys2Proof/Machine/Interrupt.lean ====
section
/-! DEFINITION. Stops, drains, saves and restores (16 R317 to R323), held tasks (R324), function-level reset (R326), errors and lost dies (R327 to R331), live migration of a VF (R332, R333). -/

namespace Sys2Proof.Machine

open Sys2Proof

/-! ## The drain (16 R319) -/

/-- A stop that saves its pass. -/
def savesPass : StopCause → Bool
  | .hold | .preempt | .migration => true
  | .abort | .flr => false

/-- An access already issued on path LS or GA waits for a command: a release, or an access behind a fence that names the command's path first. -/
def neededBy (c : Core) (o : AOp) : Bool :=
  c.ops.any fun x => (x.path == 0 || x.path == 3) && decide (o.id < x.id) &&
    (isRel x.kind || c.fences.any fun f => f.first == o.path && f.later == x.path && decide (o.id < f.bound) && decide (f.bound ≤ x.id))

/-- A command that the drain completes: accepted by its engine, presented to the Reckoner, or ordered before an access already issued. -/
def drainKeeps (c : Core) (o : AOp) : Bool :=
  o.accepted || (match o.kind with
    | .asked _ _ => true
    | k => opClass k == 6 && o.acks ≠ 0) ||
    c.ops.any fun x => opClass x.kind == opClass o.kind && decide (o.id ≤ x.id) && neededBy c x

/-- Commands and engine operations, which a stop suspends: classes 1, 4, 5 and 6. -/
def isCommand (k : AKind) : Bool := opClass k == 1 || opClass k == 4 || opClass k == 5 || opClass k == 6

/-- A held operation that a stop leaves in its slot: a command or a migration. -/
def staysHeld (k : AKind) : Bool := isCommand k || opClass k == 2

/-- The effect of a stop on a core: migrations are released, what is not to be completed is suspended or, where nothing is saved, gone; input buffers are discarded.
Results in flight of a pass that is to be saved are held (16 R319); those of one that is not land as if no trap had been taken (05 R80). -/
def drainCore (save : Bool) (c0 : Core) : Core :=
  let c := if save then c0 else landRest 64 c0
  let c1 := (c.ops.filter fun o => opClass o.kind == 2).foldl removeOp c
  let c2 := if save then
      { c1 with ops := c1.ops.map fun o => if isCommand o.kind then { o with suspended := !drainKeeps c1 o } else o,
                held := c1.held.filter (fun o => !staysHeld o.kind) ++ c1.held.filter fun o => staysHeld o.kind }
    else (c1.ops.filter fun o => isCommand o.kind && !drainKeeps c1 o).foldl removeOp { c1 with held := c1.held.filter fun o => !staysHeld o.kind }
  { c2 with streams := c2.streams.map fun e => (e.1, if e.2.isOut then e.2 else { e.2 with buf := [], reqs := [], fetched := e.2.position }) }

/-- What a stop owes on a core is done: every access has performed; only suspended commands, and statuses that wait for a superstep, are left. -/
def coreDrained (c : Core) : Bool :=
  (outLive c).isEmpty && (c.held.all fun o => staysHeld o.kind) && c.ops.all fun o => o.suspended || match o.kind with
    | .landAt _ _ _ _ => true
    | _ => false

/-! ## The save area (16 R320 to R322) -/

/-- The Rod-unit's slot stride. -/
def slotSpan : Nat := 0x03300000
def regionAt (p : Nat) : Nat := 0x1000 + p * 0x640000

/-- Byte i of a value. -/
def byteOf (v i : Nat) : Byte := BitVec.ofNat 8 (v / 256^i)

/-- A byte of a core's pool by granule. -/
def poolByte (c : Core) (pw g b : Nat) : Byte :=
  if g < vwfOf pw then byteOf (c.getW (256 * g + b / 512)).v.toNat (b % 512)
  else if g < vwfOf pw + scrOf pw then Tbl.get 0 c.scratch (131072 * (g - vwfOf pw) + b)
  else byteOf (Tbl.get 0 c.acc (16384 * (g - vwfOf pw - scrOf pw) + b / 8)).toNat (b % 8)

/-- The taint of a 32-byte sector of a granule, kept in the slot's ECC metadata: of the lanes of a window register, of a scratchpad sector, of the accumulator words. -/
def poolTaint (c : Core) (pw g i : Nat) : Bool :=
  if g < vwfOf pw then bitsAt (c.getW (256 * g + i / 16)).t.toNat (8 * (i % 16)) 8 ≠ 0
  else if g < vwfOf pw + scrOf pw then Tbl.get false c.scrTaint (4096 * (g - vwfOf pw) + i)
  else (List.range 4).any fun j => Tbl.get false c.accTaint (16384 * (g - vwfOf pw - scrOf pw) + 4 * i + j)

/-- Set the taints of n sectors of a slot. -/
def putTaints (s : State) (a n : Nat) (f : Nat → Bool) : State :=
  { s with secTaint := (List.range n).foldl (fun m i => Tbl.set false m (a / 32 + i) (f i)) s.secTaint }

/-- Taint bits alone. -/
def taintW (x : TWord) : TWord := ⟨0, x.t⟩
def taintV (x : TVec) : TVec := ⟨0, x.t⟩

/-- What the area at an offset of a core's region holds (16 R321): specials, taint bits, streams, the broadcast queue, the engine, the other commands, the results in flight. -/
def areaOf (c : Core) (off : Nat) : Core :=
  if off < 0x600 then
    { Core.blank with
      p := c.p.map fun e => (e.1, { e.2 with t := false }), m := c.m.map fun e => (e.1, { e.2 with t := 0 }), mp := c.mp, ctrs := c.ctrs, flg := c.flg, rnd := c.rnd, jord := c.jord,
      jflg := c.jflg, vwb := c.vwb, cmk := c.cmk, svm := c.svm, occ := c.occ, dlen := c.dlen, slip := c.slip, blc := c.blc, mprec := c.mprec, series := c.series,
      ctlTaint := c.ctlTaint }
  else if off < 0x1000 then
    { Core.blank with n := c.n.map fun e => (e.1, taintW e.2), q := c.q.map taintW, p := c.p, m := c.m, vq := c.vq.map taintV, inflight := c.inflight, latches := c.latches }
  else if off < 0x1200 then { Core.blank with streams := c.streams }
  else if off < 0x1400 then { Core.blank with bq := c.bq }
  else if off < 0x1800 then { Core.blank with ops := c.ops.filter fun o => opClass o.kind == 5, call := c.call, latches := c.latches }
  else if off < 0x3000 then { Core.blank with ops := c.ops.filter fun o => opClass o.kind ≠ 5 }
  else { Core.blank with inflight := c.inflight }

/-- A byte of a core region's fixed part: scalar registers and both queues at their places, every other area as the implementation packs what it holds (log 11). -/
def fixedByte (c : Core) (bars : Tbl (BitVec 8)) (off : Nat) : Byte :=
  if off < 256 then byteOf (c.getN (off / 8)).v.toNat (off % 8)
  else if off < 384 then byteOf ((c.q.getD ((off - 256) / 8) ⟨0, false⟩).v.toNat) (off % 8)
  else if 0x3000 ≤ off ∧ off < 0x5000 then byteOf ((c.vq.getD ((off - 0x3000) / 512) ⟨0, 0⟩).v.toNat) (off % 512)
  else Config.packCore (areaOf c off) bars off

/-- Put n bytes given by a function. -/
def putFun (s : State) (a : Nat) (f : Nat → Byte) : Nat → State
  | 0 => s
  | n + 1 => putFun (putByte s (a + n) (f n)) a f n

/-- The granules that a mask keeps. -/
def granules (m : BitVec 48) : List Nat := (List.range 48).filter fun g => m.getLsbD g

/-- The ranges that a save writes, as offsets and lengths. -/
def slotRanges (masks : List (BitVec 48)) : List (Nat × Nat) :=
  (0, 4096) :: masks.zipIdx.flatMap fun e => (regionAt e.2, 0x15000) :: (granules e.1).map fun g => (regionAt e.2 + 0x40000 + g * 0x20000, 0x20000)

/-- The save units of a slot, 4 KiB each, by their offsets (16 R322). DEDUCED (log 48): the header and the fixed contexts come first, which the 20 µs are for, then the granules, each in
ascending order. -/
def saveUnits (masks : List (BitVec 48)) : List Nat :=
  (0 :: masks.zipIdx.flatMap fun e => (List.range 21).map fun i => regionAt e.2 + 4096 * i) ++
    masks.zipIdx.flatMap fun e => (granules e.1).flatMap fun g => (List.range 32).map fun i => regionAt e.2 + 0x40000 + g * 0x20000 + 4096 * i

/-- Every frame of the ranges at a slot's address is owned by the hypervisor. -/
def rangesOwned (s : State) (a : Nat) (l : List (Nat × Nat)) : Bool :=
  decide (ownerOf a < 2) && l.all fun r => (List.range ((a + r.1 + r.2 - 1) / 65536 - (a + r.1) / 65536 + 1)).all fun i => inHyp s ((a + r.1) / 65536 * 65536 + 65536 * i)

/-- The first 64 bytes of a slot's header; code, bead and position stand for kind 1 alone. -/
def headerBytes (s : State) (r : PassRun) (u : Seq) (st : StopState) (state time reason : Nat) : List Byte :=
  let own (n off v : Nat) : List Byte := if st.kind = 1 then leBytes v n else (List.range n).map fun i => Config.saveByte s.freeCtr (off + i)
  leBytes state 4 ++ leBytes (r.task % 65536) 2 ++ leBytes r.w 1 ++ leBytes st.kind 1 ++ leBytes r.k 8 ++ leBytes time 8 ++
    own 4 0x18 (st.code + 65536 * st.detail) ++ own 1 0x1C st.bead ++ own 3 0x1D st.pos ++ leBytes (Nat.min 0xFFFFFFFF (u.cycles / 256)) 4 ++
    leBytes reason 1 ++ leBytes 0 27

/-- The die of a slot changes the L2 range that serves the device: its writes and reads wait (04 R69, 16 R322). -/
def slotHeld (s : State) (p q j : Nat) : Bool := l2Changing s (ownerOf (slotAddr s p q j)) 40

/-- Begin a save: the slot is taken, its header written with state 1, and the end is due at 128 bytes a cycle. -/
def beginSave (s : State) (q j : Nat) : State :=
  let u := seqOf s q
  match u.run, u.stop with
  | some r, some st =>
    let a := slotAddr s r.part q j
    let masks := (coresOf s q).map fun i => keptMask st.kind (coreGet s i)
    let s1 := if rangesOwned s a [(0, 4096)] then
        putFun (putBytes s a (headerBytes s r u st 1 st.due 0)) (a + 0x100) (fun _ => 0) 3840
      else s
    modSeq s1 q fun u => { u with stop := some { st with phase := .saving, slot := some j, due := s.cycle + slotBytes r.w masks / 128 } }
  | _, _ => s

/-- The cycles since a save began. -/
def saveTime (s : State) (q : Nat) (st : StopState) : Nat :=
  s.cycle - (st.due - slotBytes (widthOf (seqOf s q)) ((coresOf s q).map fun i => keptMask st.kind (coreGet s i)) / 128)

/-- The cycle ends a save unit: 32 cycles at 128 bytes each. -/
def unitEnds (s : State) (q : Nat) (st : StopState) : Bool := decide (saveTime s q st % 32 = 0)

/-- The save units that a save has written. -/
def unitsDone (s : State) (q : Nat) (st : StopState) : List Nat :=
  (saveUnits ((coresOf s q).map fun i => keptMask st.kind (coreGet s i))).take (saveTime s q st / 32)

/-- The sequencer state that a slot keeps (06 R118). -/
def saveSeq (u : Seq) : Seq :=
  { u with stop := none, preempt := none, point := false, lines := [], lineDue := none, lineBad := [], dict := none, copying := none, latch := [], restoring := none }

/-- Write the save unit at an offset of a slot: the sequencer's state in the header, a page of a core's fixed context, or of a granule with its sectors' taint. -/
def putUnit (s : State) (q a pw off : Nat) : State :=
  let u := seqOf s q
  if off = 0 then putFun s (a + 0x40) (Config.packSeq (saveSeq u)) 192
  else
    let c := coreGet s ((coresOf s q).getD ((off - 0x1000) / 0x640000) 0)
    let o := (off - 0x1000) % 0x640000
    if o < 0x40000 then putFun s (a + off) (fun i => fixedByte c u.bars (o + i)) 4096
    else
      let g := (o - 0x40000) / 0x20000
      let b := (o - 0x40000) % 0x20000
      putTaints (putFun s (a + off) (fun i => poolByte c pw g (b + i)) 4096) (a + off) 128 fun i => poolTaint c pw g (b / 32 + i)

/-- Cycles of a save after its header and fixed contexts. -/
def granuleCycles (s : State) (q kind : Nat) : Nat :=
  let masks := (coresOf s q).map fun i => keptMask kind (coreGet s i)
  (slotBytes (widthOf (seqOf s q)) masks - slotBytes (widthOf (seqOf s q)) []) / 128

/-- A failed save: its slot's header says why and the launch is aborted (16 R322). The drain still runs to its end. -/
def failSave (s : State) (q reason : Nat) : State :=
  let u := seqOf s q
  match u.run, u.stop with
  | some r, some st =>
    let j := match st.slot with
      | some j => some j
      | none => slotFree s r.part q
    let s1 := match j with
      | some j =>
        let a := slotAddr s r.part q j
        if rangesOwned s a [(0, 4096)] then deviceWrite (deviceWrite s a (leBytes 3 4) false) (a + 0x24) [BitVec.ofNat 8 reason] false else s
      | none => s
    takeTrap (modSeq s1 q fun u => { u with stop := u.stop.map fun x => { x with slot := none } }) q 0xFF 0xFFFFFF 0x0602 reason
  | _, _ => s

/-- One cycle of a save: it waits while the device's traffic to the slot's die does (04 R69); where a save unit ends, it is written; one that meets a frame not owned by 62 fails the save (16 R322). A save that a reset of its VF cuts short ends with
the unit, and its header says so (16 R326). -/
def saveStep (s : State) (q : Nat) : State :=
  match (seqOf s q).run, (seqOf s q).stop with
  | some r, some st =>
    if st.phase = .saving ∧ slotHeld s r.part q (st.slot.getD 0) = true then modSeq s q fun u => { u with stop := some { st with due := st.due + 1 } }
    else if st.phase = .saving ∧ (savesPass st.cause = true ∨ st.cause = .flr) ∧ unitEnds s q st = true then
      match (unitsDone s q st).getLast? with
      | some off =>
        let a := slotAddr s r.part q (st.slot.getD 0)
        if !rangesOwned s a [(0, 4096), (off, 4096)] then (if st.cause = .flr then s else failSave s q 3)
        else
          let s1 := putUnit s q a (taskOf s r.task).pword off
          if st.cause = .flr then putByte (putBytes s1 a (leBytes 3 4)) (a + 0x24) 2 else s1
      | none => s
    else s
  | _, _ => s

/-- Move the queue places of a core's network commands to another name, while its pass is saved and back (11 R242, R243). -/
def rekeyNet (s : State) (old new : Nat) : State :=
  { s with net := { s.net with
      posted := s.net.posted.map fun e => (e.1, e.2.map fun x => if x.1 = old then (new, x.2) else x),
      contribs := s.net.contribs.map fun c => if c.ctx = 65536 + old then { c with ctx := 65536 + new } else c } }

/-- The name of bead p's network commands in a save slot of a Rod-unit. -/
def savedName (key p : Nat) : Nat := 1024 + 8 * key + p

/-- Keep in place a pass that has no free slot (16 R316). -/
def keepInPlace (s : State) (q : Nat) : State :=
  modSeq s q fun u => { u with stop := u.stop.map (fun st => { st with phase := .kept }), preempt := none, point := false, lineDue := none, latch := [] }

/-- A hold is complete once none of its passes runs: the task, or the copy, is held, and the PF's MSI-X vector 3 is raised (16 R315). -/
def holdDone (s : State) (r : PassRun) : State :=
  let t := taskOf s r.task
  let held : Bool := t.hold.isSome && (t.copies.length ≠ 2 || (t.copies.getD r.copy CopyState.fresh).held)
  let runs := (List.range 48).any fun q => runsLaunch s q r.task r.launch (some r.copy) && !(seqOf s q).complete &&
    !(((seqOf s q).stop.map fun st => decide (st.phase = .kept)) == some true)
  if held && !runs then raiseMsix s 0 3 else s

/-- Zero-fill a slot over the bytes written, which lie in frames owned by 62 (16 R326). -/
def zeroSlot (s : State) (a : Nat) (written : List (Nat × Nat)) : State :=
  let cleared (b : Nat) : Bool := inHyp s b && written.any fun r => decide (a + r.1 ≤ b) && decide (b < a + r.1 + r.2)
  { s with mem := s.mem.filter fun c => !cleared c.1, secTaint := s.secTaint.filter fun c => !cleared (32 * c.1) }

/-- A drained pass whose stop saves nothing leaves its unit, its slip counted (one whose context is still in its slot counts with that); a save that a reset cut short leaves its slot zeroed. -/
def discardPass (s : State) (q : Nat) : State :=
  let u := seqOf s q
  match u.run, u.stop with
  | some r, some st =>
    let s1 := match st.slot with
      | some j => if st.cause = .flr then zeroSlot s (slotAddr s r.part q j) (if st.phase = .saving then (0, 4096) :: (unitsDone s q st).map fun o => (o, 4096) else []) else if st.phase = .saving then markSlot s r.part q j 0 else s
      | none => s
    let s1' := if u.complete || u.restoring.isSome then s1 else addSlip s1 q
    let s2 := (coresOf s q).foldl netForget (freeUnit (mergeUnit s1' q) q)
    restate s2 r.task
  | _, _ => s

/-- A pass that is stopped while its slot is being read has nothing to save: its context is still in the slot, which carries a hold's code (16 R315, R323), and its unit is free. -/
def cancelRestore (s : State) (q j : Nat) : State :=
  let u := seqOf s q
  match u.run, u.stop with
  | some r, some st =>
    let a := slotAddr s r.part q j
    let key := 8 * q + j
    let s1 := if st.kind = 1 ∧ rangesOwned s a [(0, 4096)] = true then
        deviceWrite (deviceWrite s (a + 7) [1] false) (a + 0x18) (leBytes (st.code + 65536 * st.detail) 4 ++ leBytes st.bead 1 ++ leBytes st.pos 3) false
      else s
    let s2 := { s1 with rk := { s1.rk with saved := s1.rk.saved.map fun e =>
      if e.1 = key then (e.1, { e.2 with kind := if e.2.kind = 2 then 2 else if st.kind = 1 then 1 else e.2.kind, seq := { e.2.seq with cycles := u.cycles } }) else e } }
    holdDone (restate (freeUnit s2 q) r.task) r
  | _, _ => s

/-- The failure that waits on a core of a unit: what an access or a command met and no bundle has taken yet. -/
def unitFailure (s : State) (q : Nat) : Option (Nat × Nat × Nat) :=
  (coresOf s q).zipIdx.findSome? fun e => (coreGet s e.1).failure.map fun t => (e.2, t.1, t.2)

/-- STOP_DRAIN_COMPLETE: the stop takes effect on the commands of a draining unit; once everything is done its save begins, or it is kept in place, or the unit is freed.
A fault that converts during the drain of a pass that is to be saved makes the stop an abort with that code (16 R319, R325). -/
def execStopDrainComplete (s : State) : Out :=
  .next (match s.ev with
    | .unit q =>
      let u := seqOf s q.val
      match u.run, u.stop with
      | some r, some st =>
        let save := savesPass st.cause
        match st.phase with
        | .requested => s
        | .saving => if save || (st.cause == .flr && !unitEnds s q.val st) || slotHeld s r.part q.val (st.slot.getD 0) then s else discardPass s q.val
        | .kept =>
          if st.cause = .migration then (match slotFree s r.part q.val with
            | some j => if slotHeld s r.part q.val j then s else beginSave s q.val j
            | none => s)
          else if save then s else discardPass s q.val
        | .draining =>
          match (if save then u.restoring else none) with
          | some (j, _) => cancelRestore s q.val j
          | none =>
          let s1 := (coresOf s q.val).foldl (fun s i => netForget (modCore s i (drainCore save)) i) s
          match (if save then unitFailure s1 q.val else none) with
          | some (b, code, detail) => takeTrap s1 q.val b 0xFFFFFF code detail
          | none =>
          if (coresOf s1 q.val).any (fun i => !coreDrained (coreGet s1 i)) || unitMergeHeld s1 q.val then s1
          else if !save then discardPass s1 q.val
          else
            let s2 := mergeUnit s1 q.val
            match slotFree s2 r.part q.val with
            | some j => if slotHeld s2 r.part q.val j then s1 else beginSave s2 q.val j
            | none => holdDone (restate (keepInPlace s2 q.val) r.task) r
      | _, _ => s
    | _ => s)

/-- A save whose end is due. -/
def saveDue (s : State) (q : Nat) : Bool := ((seqOf s q).stop.map fun st => decide (st.phase = .saving ∧ st.due ≤ s.cycle) && savesPass st.cause) == some true

/-- SAVE_COMPLETE: every unit of the slot is written; its header, as the stop stands by then (16 R315), makes it valid, and the unit is free (16 R322). The slot of a launch that has
ended meanwhile is freed at once (03 R53, R55). -/
def execSaveComplete (s : State) : Out :=
  .next (match s.ev with
    | .unit q =>
      let u := seqOf s q.val
      match u.run, u.stop with
      | some r, some st =>
        if !saveDue s q.val || slotHeld s r.part q.val (st.slot.getD 0) then s
        else
          let j := st.slot.getD 0
          let key := 8 * q.val + j
          let a := slotAddr s r.part q.val j
          let cores := coresOf s q.val
          if !rangesOwned s a [(0, 4096)] then failSave s q.val 3
          else
            let s3 := putBytes s a (headerBytes s r u st 2 (memVal s (a + 0x10) 8) 0)
            let ended : Bool := decide (8192 ≤ r.task) || (taskOf s r.task).launch ≠ r.launch || (taskOf s r.task).ending.isSome ||
              ((taskOf s r.task).copies.getD r.copy CopyState.fresh).aborted
            if ended then restate (freeUnit (cores.foldl netForget (addSlip (putBytes s3 a (leBytes 0 4)) q.val)) q.val) r.task
            else
            let x : Saved := ⟨2, r.part, (taskOf s r.task).vf, st.kind, saveSeq u, cores.map (coreGet s)⟩
            let s4 := { s3 with rk := { s3.rk with saved := Tbl.insert (Tbl.erase s3.rk.saved key) key x } }
            let s5 := cores.zipIdx.foldl (fun s e => rekeyNet s e.1 (savedName key e.2)) s4
            holdDone (restate (freeUnit s5 q.val) r.task) r
      | _, _ => s
    | _ => s)

/-- The drain and the fixed writes of a save have not ended 30 000 cycles after the stop. -/
def saveLate (s : State) (q : Nat) : Bool :=
  match (seqOf s q).stop with
  | some st => savesPass st.cause && decide (st.cycle + 30000 < s.cycle) &&
      (match st.phase with
        | .draining => (slotFree s (((seqOf s q).run.map (·.part)).getD 0) q).isSome
        | .saving => decide (st.cycle + 30000 < st.due - granuleCycles s q st.kind)
        | _ => false)
  | none => false

/-- SAVE_DRAIN_TIMEOUT. -/
def execSaveDrainTimeout (s : State) : Out :=
  .next (match s.ev with
    | .unit q => if saveLate s q.val then failSave s q.val 1 else s
    | _ => s)

/-! ## Restoring (16 R323) -/

/-- A pool of which the granules outside a mask read zero (04 R66). -/
def maskPool (pw : Nat) (m : BitVec 48) (c : Core) : Core :=
  let has (g : Nat) : Bool := m.getLsbD g
  let v := vwfOf pw
  let r := scrOf pw
  { c with
    win := c.win.filter fun e => has (e.1 / 256), scratch := c.scratch.filter fun e => has (v + e.1 / 131072),
    scrTaint := c.scrTaint.filter fun e => has (v + e.1 / 4096), acc := c.acc.filter fun e => has (v + r + e.1 / 16384),
    accTaint := c.accTaint.filter fun e => has (v + r + e.1 / 16384) }

/-- Operand latches of the engine are loaded again from their descriptor records (13 R281). -/
def reloadLatches (c : Core) : Core :=
  c.latches.foldl (fun c e => if e.2.filled then
    let l := fillLatch c e.2.tile e.2.cols e.2.w e.2.blk
    { c with latches := Tbl.set OpLatch.empty c.latches e.1 { l with taint := l.taint || e.2.taint } } else c) c

/-- What a slot's bytes say of a core, where 16 R321 gives their place: named registers, queues and granules are read back from memory; taint bits and all else are as saved. -/
def slotCore (s : State) (pw kind b : Nat) (x : Core) : Core :=
  let gran (g : Nat) : Bool := (keptMask kind x).getLsbD g
  let at_ (i n : Nat) : Nat := memVal s (b + 0x40000 + i) n
  let v := vwfOf pw
  let r := scrOf pw
  let c1 := (List.range 31).foldl (fun c i => c.setN (i + 1) ⟨BitVec.ofNat 64 (memVal s (b + 8 * (i + 1)) 8), (x.getN (i + 1)).t⟩) x
  { c1 with
    q := x.q.zipIdx.map fun e => ⟨BitVec.ofNat 64 (memVal s (b + 256 + 8 * e.2) 8), e.1.t⟩,
    vq := x.vq.zipIdx.map fun e => ⟨BitVec.ofNat 4096 (memVal s (b + 0x3000 + 512 * e.2) 512), e.1.t⟩,
    win := (List.range (256 * v)).foldl (fun m i => if gran (i / 256) then Tbl.set ⟨0, 0⟩ m i ⟨BitVec.ofNat 4096 (at_ (512 * i) 512), (x.getW i).t⟩ else m) x.win,
    scratch := (List.range (131072 * r)).foldl (fun m i => if gran (v + i / 131072) then Tbl.set 0 m i (BitVec.ofNat 8 (at_ (131072 * v + i) 1)) else m) x.scratch,
    acc := (List.range (16384 * accOf pw)).foldl (fun m i =>
      if gran (v + r + i / 16384) then Tbl.set 0 m i (BitVec.ofNat 64 (at_ (131072 * (v + r) + 8 * i) 8)) else m) x.acc }

/-- A saved core goes to a physical core: suspended commands are issued again, the stores and line copies of the place stay. -/
def restoreCore (s : State) (pw kind : Nat) (x place : Core) : Core :=
  let c := maskPool pw (keptMask kind x) x
  reloadLatches { c with
    ustore := place.ustore, ulen := place.ulen, ulaunch := place.ulaunch, l1 := if place.part = c.part then place.l1 else [],
    placed := if place.placed.contains c.launch then place.placed else c.launch :: place.placed,
    ops := c.ops.map fun o =>
      if o.suspended then
        { o with suspended := false, due := s.cycle + 1, acks := if opClass o.kind = 4 then o.acks else 0, pages := [], waiting := !(spanPages (opSpans o.kind)).isEmpty }
      else o }

/-- RESTORE_COMPLETE: the slot's header must be valid and name the task; the context returns to the cores that hold the Rod-unit now, and the slot is free. -/
def execRestoreComplete (s : State) : Out :=
  .next (match s.ev with
    | .unit q =>
      let u := seqOf s q.val
      match u.run, u.restoring with
      | some r, some (j, due) =>
        if s.cycle < due ∨ u.copying.isSome ∨ u.stop.isSome ∨ slotHeld s r.part q.val j = true then s
        else
          let key := 8 * q.val + j
          let a := slotAddr s r.part q.val j
          let drop (s : State) : State := { (markSlot s r.part q.val j 0) with rk := { s.rk with saved := Tbl.erase s.rk.saved key } }
          match Tbl.find? s.rk.saved key with
          | none => takeTrap (modSeq s q.val fun u => { u with restoring := none }) q.val 0xFF 0xFFFFFF 0x0602 3
          | some x0 =>
            let x : Saved := { x0 with cores := x0.cores.zipIdx.map fun e => slotCore s (taskOf s r.task).pword x0.kind (a + regionAt e.2) e.1 }
            if memVal s a 4 ≠ 2 ∨ memVal s (a + 4) 2 ≠ r.task then
              takeTrap (modSeq { s with rk := { s.rk with saved := Tbl.erase s.rk.saved key } } q.val fun u => { u with restoring := none }) q.val 0xFF 0xFFFFFF 0x0602 3
            else
              let pw := (taskOf s r.task).pword
              let s1 := x.cores.zipIdx.foldl (fun s e =>
                let i := coreOf s q.val e.2
                rekeyNet (modCore s i fun c => restoreCore s pw x.kind e.1 c) (savedName key e.2) i) s
              let s2 := modSeq s1 q.val fun u =>
                { x.seq with run := some r, dict := u.dict, lines := u.lines, cycles := u.cycles,
                             sync := x.seq.sync.map fun w => { w with cycle := s.cycle } }
              drop s2
      | _, _ => s
    | _ => s)

/-! ## Held tasks (16 R324) -/

/-- A task is held: its hold is complete. -/
def isHeld (s : State) (ti : Nat) : Bool :=
  let t := taskOf s ti
  let heldCopy (c : Nat) : Bool := t.copies.length ≠ 2 || (t.copies.getD c CopyState.fresh).held
  taskLive t && t.hold.isSome && t.ending.isNone && !(List.range 48).any fun q => match (seqOf s q).run with
    | some r => r.task == ti && heldCopy r.copy && !(seqOf s q).complete && !(((seqOf s q).stop.map fun st => decide (st.phase = .kept)) == some true)
    | none => false

/-- TRACT_RESUME. -/
def execTractResume (s : State) : Out :=
  .next (match s.ev with
    | .task ti => if isHeld s ti.val then restate (clearHold s ti.val) ti.val else s
    | _ => s)

/-- TRACT_ABORT: as an abort with the held trap's code. A held copy of a mirrored task is aborted alone (03 R379). -/
def execTractAbort (s : State) : Out :=
  .next (match s.ev with
    | .task ti =>
      if isHeld s ti.val then
        let t := taskOf s ti.val
        let h := t.hold.getD (0, 0, 0, 0)
        if t.copies.length = 2 then
          let s1 := t.copies.zipIdx.foldl (fun s e => if e.1.held then abortLaunch s ti.val (some e.2) h.1 h.2.1 48 0xFF 0xFFFFFF else s) s
          modTask s1 ti.val fun t => { t with hold := none }
        else abortLaunch s ti.val none h.1 h.2.1 48 0xFF 0xFFFFFF
      else s
    | _ => s)

/-! ## Function-level reset (16 R326) -/

/-- The tasks of a VF that are not FREE. -/
def vfTasks (s : State) (v : Nat) : List Nat := (s.rk.tasks.filter fun e => e.2.vf == some v && e.2.st ≠ .free && decide (e.1 < 8192)).map (·.1)

/-- A saved context of a VF's task. -/
def savedOfVf (v : Nat) (x : Saved) : Bool := x.vf == some v

/-- End every task of a VF with a code: PENDING ones at once, the others when their passes have drained. -/
def endVfTask (v : Nat) (s : State) (ti : Nat) : State :=
  let t := taskOf s ti
  if t.st = .pending then issueEnd (setTask s ti { t with retire := true }) ti 0x0601 v false 0
  else
    let s1 := (stopLaunch s ti t.launch none .flr 0 0x0601 v 48 0xFF 0xFFFFFF).rk.saved.foldl (fun s e => if savedOf ti none e.2 then addSavedSlip s e.2 else s)
      (stopLaunch s ti t.launch none .flr 0 0x0601 v 48 0xFF 0xFFFFFF)
    modTask s1 ti fun t => { t with ending := some (0x0601, v, false), retire := true, hold := none }

/-- FUNCTION_LEVEL_RESET. -/
def execFunctionLevelReset (s : State) : Out :=
  .next (match s.ev with
    | .vf v =>
      let s1 := bar0Set (bar0Set (bar0Set (bar0Set s v.val 0 4 (bar0Get s v.val 0 4 % 16)) v.val 8 4 0) v.val 0x10 4 0) v.val 0x18 4 0
      let s2 := { s1 with plat := { s1.plat with vfReady := s1.plat.vfReady.filter (· ≠ v.val), flr := v.val :: s1.plat.flr.filter (· ≠ v.val) } }
      (vfTasks s2 v.val).foldl (endVfTask v.val) s2
    | _ => s)

/-- A reset has done its work: no task of the VF is left. -/
def flrQuiet (s : State) (v : Nat) : Bool := s.plat.flr.contains v && (vfTasks s v).isEmpty

/-- FUNCTION_LEVEL_RESET_END: the slots of the VF's tasks are zeroed and free, and the VF is ready again. -/
def execFunctionLevelResetEnd (s : State) : Out :=
  .next (match s.ev with
    | .vf v =>
      if !flrQuiet s v.val || l2Changing s 0 40 || l2Changing s 1 40 then s
      else
        let s1 := s.rk.saved.foldl (fun s e => if savedOfVf v.val e.2 then
            dropNames (zeroSlot s (slotAddr s e.2.part (e.1 / 8) (e.1 % 8)) (slotRanges (e.2.cores.map (keptMask e.2.kind)))) e.1 else s) s
        let s2 := { s1 with rk := { s1.rk with saved := s1.rk.saved.filter fun e => !savedOfVf v.val e.2 } }
        { s2 with plat := { s2.plat with flr := s2.plat.flr.filter (· ≠ v.val), vfReady := v.val :: s2.plat.vfReady.filter (· ≠ v.val) } }
    | _ => s)

/-! ## Errors (16 R327 to R330) -/

/-- The Rod-unit whose pass runs on a physical core. -/
def unitOnCore (s : State) (c : Nat) : Option Nat := (List.range 48).find? fun q => (seqOf s q).run.isSome && (coresOf s q).contains c

/-- The partitions with a frame on a die. -/
def frameOwners (s : State) (d : Nat) : List Nat :=
  (List.range 40).filter fun p => s.xl.frames.any fun e => decide (e.1 / 2^24 = d) && e.2 == .owned p

/-- The partitions with a Rod half on a die. -/
def rodOwners (s : State) (d : Nat) : List Nat :=
  (List.range 40).filter fun p => (List.range 12).any fun i => rodOwner s (12 * d + i) 0 == some p || rodOwner s (12 * d + i) 1 == some p

/-- The slot that holds a physical address, as partition, Rod-unit and number. -/
def slotHolding (s : State) (pa : Nat) : Option (Nat × Nat × Nat) :=
  (List.range 40).findSome? fun p => (List.range 48).findSome? fun q => (List.range (slotDepth s p)).findSome? fun j =>
    let a := slotAddr s p q j
    if a ≤ pa ∧ pa < a + slotSpan then some (p, q, j) else none

/-- The blast set of an error (16 R328). -/
def blastSet (s : State) (e : ErrorInfo) : List Nat :=
  let d := e.die.val
  let n := e.unit.toNat
  match e.kind.val with
  | 1 => ((unitOnCore s n).bind fun q => (seqOf s q).run.map (·.part)).toList
  | 2 => ((rodOwner s n 0).toList ++ (rodOwner s n 1).toList).eraseDups
  | 3 => (List.range 40).filter fun t =>
      let r := pfGet s (l2Off d t) 4
      decide (bitsAt r 0 6 ≤ n) && decide (n < bitsAt r 0 6 + 2^(bitsAt r 8 3))
  | 4 => match frameOwner s d e.addr.toNat with
    | some p => if p < 40 then [p] else []
    | none => []
  | 5 => frameOwners s d
  | 6 => (List.range 40).filter fun p => bitsAt (pfGet s (0xE0000 + 0x200 * d + 8 * p) 8) 63 1 = 1
  | 7 => (rodOwners s d ++ frameOwners s d).eraseDups
  | 8 => (List.range 40).filter fun p => bitsAt (pfGet s (0xE0800 + 8 * p) 8) 63 1 = 1
  | 9 => (List.range 40).filter fun p => decide (partField s p 40 2 ≤ n) && decide (n < partField s p 40 2 + partField s p 42 2)
  | 10 => ((List.range 4096).filterMap fun i =>
      if bitsAt (matchField s i 0 1) 0 1 = 1 ∧ bitsAt (matchField s i 0 1) 1 2 = n then sessionPart s (matchField s i 4 2) else none).eraseDups
  | 11 => ((slotHolding s e.addr.toNat).map (·.1)).toList
  | _ => []

/-- A virtual range that translates lies on the 64-byte line of a physical address. -/
def onLine (s : State) (p pa : Nat) (r : Nat × Nat) : Bool :=
  !isLocal r.1 && match resolveRange s p false (r.2 / 4096 + 2) r.1 r.2 with
    | (_, .ok _, l) => l.any fun e => decide (e.1 / 64 ≤ pa / 64) && decide (pa / 64 ≤ (e.1 + e.2 - 1) / 64)
    | _ => false

/-- The ranges that a copy command reads beside its descriptor: its source rows, or its tiles. -/
def copySources (m : Cmd) (s : State) (opc : Nat) (d : List Byte) : List (Nat × Nat) :=
  if opc = 0 then (List.range (bfield d 20 4)).map fun r => (rowAddr (bfield d 0 8) (bfield d 24 4) r, bfield d 16 4)
  else if opc = 1 then match windowElem m s (bfield d 0 8) with
    | .ok _ e => [(bfield d 0 8, bfield d 20 4 * (32 * fmtBits (winOf s e.1).fmt))]
    | _ => []
  else []

/-- The virtual ranges that an outstanding operation reads. -/
def opReads (s : State) (c : Nat) (o : AOp) : List (Nat × Nat) :=
  let m := cmdOf s c o
  match o.kind with
  | .load _ _ _ _ _ _ | .vload _ _ _ | .red _ _ _ | .atomic _ _ _ _ _ | .bind _ _ _ => opSpans o.kind
  | .copy opc _ va => (va, 64) :: copySources m s opc (peekBytes m s va 64)
  | .net opc _ va =>
    let d := peekBytes m s va 64
    (va, 64) :: (if opc = 0 then (if (nsendBad m d).isSome then [] else [(bfield d 8 8, bfield d 4 4)])
      else if opc = 2 then (if (ncollBad m d).isSome then [] else [(bfield d 24 8, 2 * bfield d 2 1), (bfield d 8 8, 4 * bfield d 4 4)])
      else [])
  | .sel _ va | .tithe _ _ va => (va, 64) :: enReads m s o.kind
  | .launch _ va => [(va, 64)]
  | .kv opc _ x _ => if opc = 2 then [] else (x.toNat, 64) :: enReads m s o.kind
  | _ => []

/-- The virtual ranges that a pass's sequencer reads: the line of the index it fetches, and while it copies the dictionary, the tables and the routines of its image. -/
def fetchReads (u : Seq) (t : Task) : List (Nat × Nat) :=
  let base := cmdField t.cmd 16 8
  (match u.lineDue with
    | some (line, _) => [(64 * line, 64)]
    | none => []) ++
  (if u.copying.isSome then
    (base + imgField t.img 12 4, 48 * imgField t.img 8 4) :: (base + imgField t.img 28 4, 64 * imgField t.img 32 2) ::
      (base + imgField t.img 36 4, 16 * imgField t.img 40 2) :: t.routines.map (fun r => (base + r.1, 8 * r.2))
  else [])

/-- A pass reads the 64-byte line of a physical address (16 R329): an operation of a core that reads it is outstanding, an element of an input stream is asked for on it, or its sequencer fetches it. -/
def readsLine (s : State) (q pa : Nat) : Bool :=
  let p := ((seqOf s q).run.map (·.part)).getD 0
  ((fetchReads (seqOf s q) (runTask s q)).any (onLine s p pa)) ||
  (coresOf s q).any fun i =>
    let c := coreGet s i
    (c.ops.any fun o => (opReads s i o).any (onLine s p pa)) ||
      c.streams.any fun e => (List.range e.2.reqs.length).any fun k => onLine s p pa (streamVa c e.2 (e.2.fetched + k), 512)

/-- A pass has an access outstanding to host memory. -/
def usesHost (s : State) (q : Nat) : Bool :=
  (coresOf s q).any fun i => (coreGet s i).ops.any fun o => (opSpans o.kind).any fun r => ownerOf r.1 == 4

/-- Every pass that a predicate names traps. -/
def trapPasses (s : State) (f : Nat → PassRun → Bool) (code detail : Nat) : State :=
  (List.range 48).foldl (fun s q => match (seqOf s q).run with
    | some r => if f q r then takeTrap s q 0 0xFFFFFF code detail else s
    | none => s) s

/-- Mirrored tasks of the partitions whose primary is on a die are struck (03 R60). -/
def strikeDie (s : State) (d : Nat) (parts : Nat → Bool) : State :=
  s.rk.tasks.foldl (fun s e =>
    if taskLive e.2 && e.2.copies.length == 2 && parts e.2.part && primaryOf s e.2 == d then modTask s e.1 fun t => { t with struck := true } else s) s

/-- End a live launch that no running pass stands for. -/
def abortTask (s : State) (ti code detail : Nat) : State :=
  let t := taskOf s ti
  if taskLive t ∧ t.ending.isNone then
    (if t.copies.length = 2 then endMirrored s ti code detail else abortLaunch s ti none code detail 48 0xFF 0xFFFFFF)
  else s

/-- One copy of a mirrored task is aborted by what strikes it from outside, as by a trap of its own (03 R379). -/
def abortCopy (s : State) (ti i code detail : Nat) : State :=
  let t := taskOf s ti
  if (t.copies.getD i CopyState.fresh).aborted then s
  else
    let s1 := modTask s ti fun t => { noteTrap t s.cycle i (primaryOf s t) code detail with struck := t.struck || i == primaryOf s t }
    abortLaunch s1 ti (some i) code detail 48 0xFF 0xFFFFFF

/-- A suspended pass is aborted, its launch with it, or its copy alone (16 R329, 03 R379). -/
def abortSaved (s : State) (r : PassRun) (code detail : Nat) : State :=
  let t := taskOf s r.task
  if t.copies.length = 2 then (if taskLive t ∧ t.ending.isNone then abortCopy s r.task r.copy code detail else s) else abortTask s r.task code detail

/-- Deliver a lasting error to its blast set (16 R329). -/
def deliverError (s : State) (e : ErrorInfo) (blast : List Nat) : State :=
  let k := e.kind.val
  let here (q : Nat) : Bool := dieOf q == e.die.val
  if k = 3 ∨ k = 4 then trapPasses s (fun q r => blast.contains r.part && here q && readsLine s q e.addr.toNat) 0x0501 k
  else if k ≤ 7 then trapPasses s (fun q r => blast.contains r.part && here q) 0x0501 k
  else if k = 8 then trapPasses s (fun q r => blast.contains r.part && usesHost s q) 0x0501 k
  else if k = 9 then abortTask s e.unit.toNat 0x0501 k
  else if k = 10 then
    (List.range 4096).foldl (fun s i =>
      if bitsAt (matchField s i 0 1) 0 1 = 1 ∧ bitsAt (matchField s i 0 1) 1 2 = e.unit.toNat then
        match (sessionPart s (matchField s i 4 2)).bind fun p => absTask s p (matchField s i 6 2) with
        | some ti => abortTask s ti 0x0501 k
        | none => s
      else s) s
  else match slotHolding s e.addr.toNat with
    | some (_, q, j) => match Tbl.find? s.rk.saved (8 * q + j) with
      | some x => match x.seq.run with
        | some r => abortSaved s r 0x0602 3
        | none => s
      | none => match (seqOf s q).stop with
        | some st => if st.slot = some j then failSave s q 3 else s
        | none => s
    | none => s

/-! ## A lost die (16 R331) -/

/-- The die is lost: its passes are gone, mirrored tasks go on with their other copy, every other task with a running or saved pass there is aborted. -/
def loseDie (s : State) (d : Nat) : State :=
  let s1 := { s with rk := { s.rk with lost := d :: s.rk.lost.filter (· ≠ d) } }
  let on (s : State) (ti : Nat) : Bool :=
    (List.range 48).any (fun q => dieOf q == d && ((seqOf s q).run.map fun r => r.task == ti) == some true) ||
      s.rk.saved.any fun e => dieOf (e.1 / 8) == d && savedOf ti none e.2
  let s2 := strikeDie s1 d fun _ => true
  let s3 := s2.rk.tasks.foldl (fun s e =>
    if taskLive e.2 && e.2.ending.isNone then
      (if e.2.copies.length = 2 then abortCopy s e.1 d 0x0501 7 else if on s1 e.1 then abortLaunch s e.1 none 0x0501 7 48 0xFF 0xFFFFFF else s)
    else s) s2
  (List.range 48).foldl (fun s q => if dieOf q = d ∧ (seqOf s q).run.isSome then
      let s' := if (seqOf s q).complete || (seqOf s q).restoring.isSome then s else addSlip s q
      (coresOf s q).foldl netForget (freeUnit ((coresOf s' q).foldl (fun s i => modCore s i fun c => { c with upd := [] }) s') q) else s) s3

/-- DIE_LOST. -/
def execDieLost (s : State) : Out :=
  .next (match s.ev with
    | .die d => if s.rk.lost.contains d.val then s else loseDie s d.val
    | _ => s)

/-! ## Retiring a unit (16 R330) -/

def addRetired (s : State) (x : Nat × Nat) : State := { s with rk := { s.rk with retired := x :: s.rk.retired.filter (· ≠ x) } }

/-- A lasting error retires its unit: a core, with the Rod-unit that holds it, an L2 set range, an HBM frame, one of a save slot too, a link; with both links of a die the die is lost. -/
def retireUnit (s : State) (e : ErrorInfo) : State :=
  let d := e.die.val
  let n := e.unit.toNat
  match e.kind.val with
  | 1 => addRetired s (1, n)
  | 3 => addRetired s (3, 64 * d + n)
  | 4 | 11 =>
    let f := e.addr.toNat % 2^60 / 65536
    let s1 := setFrame (addRetired s (4, d * 2^24 + f)) d f (.owned 63)
    { s1 with xl := { s1.xl with mtlb := s1.xl.mtlb.filter fun x => !(x.die == d && decide (x.frame ≤ 65536 * f) && decide (65536 * f < x.frame + x.size)) } }
  | 7 =>
    let s1 := addRetired s (7, 2 * d + n % 2)
    if s1.rk.retired.contains (7, 2 * d) && s1.rk.retired.contains (7, 2 * d + 1) && !s1.rk.lost.contains d then loseDie s1 d else s1
  | _ => s

/-- ERROR_DETECTED: logged; a lasting error is delivered to its blast set, strikes mirrored primaries of it, and retires its unit. -/
def execErrorDetected (s : State) : Out :=
  .next (match s.ev with
    | .error e =>
      let blast := blastSet s e
      let s1 := errorRecord s e.kind.val e.die.val (if e.lasting then 1 else 0) e.unit.toNat (blast.foldl (fun a p => a + 2^p) 0) e.addr.toNat
      if e.lasting then retireUnit (deliverError (strikeDie s1 e.die.val blast.contains) e blast) e else s1
    | _ => s)

/-! ## Live migration (16 R332, R333) -/

def migOff (v : Nat) : Nat := 0xF3000 + 64 * v
def migBusy (s : State) (v : Nat) : Bool := bitsAt (pfGet s (migOff v) 4) 31 1 = 1
def migRefuse (s : State) (v : Nat) : State := pfOr s (migOff v + 8) 4 1

/-- The partition of a VF that it alone belongs to. -/
def migPart (s : State) (v : Nat) : Option Nat :=
  match vfOwner s v with
  | some p => if (List.range 96).any fun x => x ≠ v && vfOwner s x == some p then none else some p
  | none => none

/-- Run an operation of MIGCTL: log_en is stored; a VF in reset makes it wait; while one runs, or without a partition of the VF alone, it is refused. -/
def onMig (s : State) (i : Instr) (f : State → Nat → Nat → State) : State :=
  match s.ev with
  | .vfVal v x =>
    if s.plat.flr.contains v.val then again s ⟨i, s.ev⟩
    else
      let s1 := storeReg s (migOff v.val) 4 0x100 0 x.toNat
      if migBusy s v.val then migRefuse s1 v.val
      else match migPart s v.val with
        | none => migRefuse s1 v.val
        | some p => f s1 v.val p
  | _ => s

/-- MIGRATION_ROUND: the active pair changes; every logged write has set its bit by then. -/
def execMigrationRound (s : State) : Out :=
  .next (onMig s .migrationRound fun s v _ =>
    let w := pfGet s (migOff v) 4
    pfSet s (migOff v) 4 (if bitsAt w 7 1 = 1 then w - 128 else w + 128))

/-- Whether every running pass of a partition, and every pass kept in place, has a slot to be saved in. -/
def slotsServe (s : State) (p : Nat) : Bool :=
  (List.range 48).all fun q => match (seqOf s q).run, (seqOf s q).stop with
    | some r, some st => r.part ≠ p || st.slot.isSome || !savesPass st.cause || (slotFree s p q).isSome
    | some r, none => r.part ≠ p || (seqOf s q).complete || (seqOf s q).restoring.isSome || (slotFree s p q).isSome
    | none, _ => true

/-- MIGRATION_STOP: passes stop and are saved with kind 2, dispatch and ring reads cease. -/
def execMigrationStop (s : State) : Out :=
  .next (onMig s .migrationStop fun s v p =>
    if !slotsServe s p then migRefuse s v
    else
      let s1 := (List.range 48).foldl (fun s q => match (seqOf s q).run, (seqOf s q).stop with
        | some r, some st =>
          if r.part ≠ p then s
          else if st.phase = .kept then modSeq s q fun u => { u with stop := some { st with cause := .migration, kind := 2, cycle := s.cycle } }
          else requestStop s q .migration 2 0 0 0xFF 0xFFFFFF false
        | some r, none => if r.part = p then requestStop s q .migration 2 0 0 0xFF 0xFFFFFF false else s
        | none, _ => s) s
      let s2 := setPartDyn s1 p { partDyn s1 p with stopped := true }
      { (pfOr s2 (migOff v) 4 (2^31)) with rk := { s2.rk with migStop := v :: s2.rk.migStop } })

/-- At the end of a cycle a STOP is complete when no pass of the partition is left on a unit. -/
def noteMigStop (s : State) (v : Nat) : State :=
  match vfOwner s v with
  | some p =>
    if (List.range 48).any fun q => ((seqOf s q).run.map fun r => r.part == p) == some true then s
    else
      let s1 := pfSet s (migOff v) 4 (pfGet s (migOff v) 4 % 2^31)
      { s1 with rk := { s1.rk with migStop := s1.rk.migStop.filter (· ≠ v) } }
  | none => s

/-- The Rod halves of a partition, a bit each. -/
def halvesOf (s : State) (p : Nat) : Nat :=
  (List.range 48).foldl (fun a q => if rodOwner s (q / 2) (q % 2) = some p then a + 2^q else a) 0

/-- The tasks of a partition that are not FREE, and its sessions. -/
def partTasks (s : State) (p : Nat) : List Nat := (s.rk.tasks.filter fun e => e.2.part == p && e.2.st ≠ .free && decide (e.1 < 8192)).map (·.1)
def partSessions (s : State) (p : Nat) : List Nat := (List.range 4096).filter fun x => sessionPart s x == some p

def stateCode : TaskState → Nat
  | .free => 0
  | .pending => 1
  | .ready => 2
  | .running => 3
  | .suspended => 4

/-- A time relative to the export, as 64 signed bits. -/
def relTime (s : State) (t : Nat) : Nat := (((t : Int) - (now s : Nat)) % (2^64 : Nat)).toNat

/-- A task entry of the record (16 R333): the SUBMIT layout with its state, its held flag, and release and deadline as relative times.
What a task's passes have done so far follows the ring's entries (log 40). -/
def taskEntry (s : State) (ti : Nat) : List Byte :=
  let t := taskOf s ti
  let rel := match t.eff with
    | some e => e.toNat
    | none => t.relField.toNat
  leBytes (stateCode t.st) 1 ++ leBytes (cmdField t.cmd 1 1) 1 ++ leBytes (cmdField t.cmd 2 4) 4 ++ leBytes (if t.hold.isSome then 1 else 0) 1 ++ leBytes 0 1 ++
    leBytes (cmdField t.cmd 8 24) 24 ++ leBytes (cmdField t.cmd 32 8 + t.ends) 8 ++ leBytes (relTime s rel) 8 ++ leBytes (relTime s (rel + t.relDeadline)) 8 ++
    leBytes (cmdField t.cmd 56 4) 4 ++ leBytes 0 4

/-- One bit of a flag byte. -/
def flagBit (b : Bool) (i : Nat) : Nat := if b then 2^i else 0

/-- What the record carries of a copy of a task beyond its entry: passes dispatched and complete, its flags, its slips, its trap. -/
def copyEntry (x : CopyState) : List Byte :=
  leBytes x.next 4 ++ leBytes x.done 4 ++
    leBytes (flagBit x.aborted 0 + flagBit x.held 1 + flagBit x.ready.isSome 2 + flagBit x.first 3 + flagBit x.trap.isSome 4) 2 ++ leBytes (Nat.min 0xFFFF x.slip) 2 ++
    leBytes ((x.trap.getD (0, 0)).1) 2 ++ leBytes ((x.trap.getD (0, 0)).2) 2

/-- What the record carries of a task beyond its entry, 64 bytes behind the ring's entries (log 40): both copies, the hold, the start time, flags. -/
def taskTrailer (s : State) (ti : Nat) : List Byte :=
  let t := taskOf s ti
  let h := t.hold.getD (0, 0, 0, 0)
  copyEntry (t.copies.getD 0 CopyState.fresh) ++ copyEntry (t.copies.getD 1 CopyState.fresh) ++
    leBytes h.1 2 ++ leBytes h.2.1 2 ++ leBytes h.2.2.1 1 ++ leBytes h.2.2.2 3 ++ leBytes (relTime s ((t.start.getD 0).toNat)) 8 ++
    leBytes (flagBit t.start.isSome 0 + flagBit t.taintSeen 1 + flagBit t.struck 2 + flagBit t.margin 3 + flagBit t.retire 4 + flagBit t.relTaken 5) 16

/-- A session's record, its reserved bytes 6 and 7 carrying its number (log 40). -/
def sessionEntry (s : State) (x : Nat) : List Byte :=
  leBytes (pfGet s (0x20000 + 64 * x) 6) 6 ++ leBytes x 2 ++ leBytes (pfGet s (0x20000 + 64 * x + 8) 56) 56

/-- The indices of the ring entries between head and tail. -/
def ringIndices (s : State) (v : Nat) : List Nat :=
  let n := 2^(bar0Get s v 0 4 % 16)
  let head := bar0Get s v 0x10 4
  (List.range ((bar0Get s v 8 4 + n - head) % n)).map fun i => (head + i) % n

/-- The migration record of a stopped partition (16 R333). -/
def recordBytes (s : State) (v p : Nat) : List Byte :=
  let ts := partTasks s p
  let ss := partSessions s p
  leBytes 0x4752494D 4 ++ leBytes 1 2 ++ leBytes p 1 ++ leBytes v 1 ++ leBytes (now s) 8 ++ leBytes ts.length 4 ++ leBytes ss.length 4 ++
    leBytes (halvesOf s p) 8 ++ leBytes 0 32 ++
    leBytes (bar0Get s v 0 4) 4 ++ leBytes (bar0Get s v 0x10 4) 4 ++ leBytes (bar0Get s v 8 4) 4 ++ leBytes (bar0Get s v 0x18 4) 4 ++ leBytes 0 48 ++
    leBytes (partField s p 0 64) 64 ++ leBytes 0 (0x1000 - 0xC0) ++
    ss.flatMap (sessionEntry s) ++ ts.flatMap (taskEntry s) ++ ((ringIndices s v).flatMap fun i => leBytes (bar2Get s v (64 * i) 64) 64) ++ ts.flatMap (taskTrailer s)

/-- A stopped partition whose STOP is complete. -/
def stopDone (s : State) (v p : Nat) : Bool := (partDyn s p).stopped && !s.rk.migStop.contains v

/-- MIGRATION_EXPORT. -/
def execMigrationExport (s : State) : Out :=
  .next (onMig s .migrationExport fun s v p =>
    let a := pfGet s (migOff v + 0x30) 8
    let b := recordBytes s v p
    if !stopDone s v p || !rangesOwned s a [(0, b.length)] then migRefuse s v
    else if l2Changing s (ownerOf a) 40 then again s ⟨.migrationExport, s.ev⟩
    else writePhys s a b)

/-- Bytes of memory. -/
def memBytes (s : State) (a n : Nat) : List Byte := (List.range n).map fun i => memByte s (a + i)

/-- A time of the record on this device. -/
def absTime (s : State) (x : Nat) : Nat := ((now s : Int) + sextNat x 64).toNat

/-! A context in a slot that this device did not write itself is read from the slot's bytes: registers, queues and granules at their places, and what lies in an area whose packing 16 R321 does
not give through the implementation's reading of that area's bytes (log 11), each field held to its bound. `f` reads a field below a bound. -/

/-- A field of the area of `len` bytes at an address, below a bound. -/
def areaField (s : State) (a len i n : Nat) : Nat := Config.savedField (memVal s a len) i % n

/-- A scalar, and a window value, with their taint. -/
def savedWord (f : Nat → Nat → Nat) (i : Nat) : TWord := ⟨BitVec.ofNat 64 (f i (2^64)), f (i + 1) 2 == 1⟩
def savedVec (f : Nat → Nat → Nat) (i : Nat) : TVec := ⟨BitVec.ofNat 4096 (f i (2^4096)), BitVec.ofNat 128 (f (i + 1) (2^128))⟩
def savedMask (f : Nat → Nat → Nat) (i : Nat) : LaneMask := BitVec.ofNat 128 (f i (2^128))

/-- What a result in flight writes beside window registers. -/
def savedKind (f : Nat → Nat → Nat) (i : Nat) : LandKind :=
  match f i 15 with
  | 0 => .scalar (Fin.ofNat 32 (f (i + 1) 32)) (savedWord f (i + 2))
  | 1 => .pred (Fin.ofNat 8 (f (i + 1) 8)) ⟨f (i + 2) 2 == 1, f (i + 3) 2 == 1⟩
  | 2 => .mask (Fin.ofNat 8 (f (i + 1) 8)) ⟨savedMask f (i + 2), savedMask f (i + 3)⟩ (savedMask f (i + 4))
  | 3 => .reg (Fin.ofNat 32 (f (i + 1) 32)) (savedWord f (i + 2))
  | 4 => .out (Fin.ofNat 8 (f (i + 1) 8)) (savedVec f (i + 2)) (f (i + 4) 2 == 1) (f (i + 5) (2^64)) (f (i + 6) 256)
  | 5 => .hist (f (i + 1) 8192) (savedVec f (i + 2)).v (savedVec f (i + 4)).v (savedMask f (i + 6)) (savedMask f (i + 7))
  | 6 => .flags (BitVec.ofNat 7 (f (i + 1) 128))
  | 7 => .jflags ((List.range 8).map fun c => BitVec.ofNat 40 (f (i + 1 + c) (2^40)))
  | 8 => .jclear (BitVec.ofNat 40 (f (i + 1) (2^40))) (BitVec.ofNat 8 (f (i + 2) 256))
  | 9 => .special ((decSReg (f (i + 1) 64)).getD .flg) (BitVec.ofNat 64 (f (i + 2) (2^64)))
  | 10 => .param (Fin.ofNat 8 (f (i + 1) 8)) (BitVec.ofNat 64 (f (i + 2) (2^64)))
  | 11 => .planes (BitVec.ofNat 5 (1 + f (i + 1) 16))
  | 12 => .savemask (BitVec.ofNat 48 (f (i + 1) (2^48)))
  | 13 => .blcAdd (f (i + 1) 8) (f (i + 2) 256)
  | _ => .control

/-- A result in flight (06 R117), with one remaining distance: one that writes window registers writes up to eight that follow one another, as a J-mode result of order k writes k + 1 (10 R215). -/
def savedResult (f : Nat → Nat → Nat) (i : Nat) : List Landing :=
  let at_ (k : LandKind) : Landing := ⟨1 + f i 231, Fin.ofNat 8 (f (i + 1) 8), f (i + 2) 64, k⟩
  if f (i + 3) 2 = 0 then [at_ (savedKind f (i + 4))]
  else (List.range (1 + f (i + 4) 8)).map fun j => at_ (.vec ((f (i + 5) 8192 + j) % 8192) (savedVec f (i + 8 + 2 * j)) (savedMask f (i + 6)))

/-- A suspended operation of a class, and the path it takes. -/
def savedOp (f : Nat → Nat → Nat) (id path : Nat) (k : AKind) : AOp := ⟨id, Fin.ofNat 8 (6 + f 20 2), path, f 21 7, f 22 2 == 1, k, 0, [], false, false, true, 0, 0⟩

/-- A suspended copy command, network command and EN command, 64 bytes each (16 R321). -/
def savedCopy (f : Nat → Nat → Nat) (id : Nat) : AOp := savedOp f id (if f 0 3 = 1 then 3 else 1) (.copy (f 0 3) (Fin.ofNat 32 (f 1 32)) (64 * f 2 (2^58)))
def savedNet (f : Nat → Nat → Nat) (id : Nat) : AOp := savedOp f id 4 (.net (f 0 3) (Fin.ofNat 32 (f 1 32)) (64 * f 2 (2^58)))
def savedEn (f : Nat → Nat → Nat) (id : Nat) : AOp :=
  let dst : Fin 32 := Fin.ofNat 32 (f 1 32)
  let x (i : Nat) : Word := BitVec.ofNat 64 (f i (2^64))
  savedOp f id 5 (match f 0 6 with
    | 0 => .sel dst (f 2 (2^64))
    | 1 => .draw dst (x 2) (x 3) (x 4) (x 5)
    | 2 => .kv (f 6 3) dst (x 2) (x 3)
    | 3 => .tithe (f 6 3) dst (f 2 (2^64))
    | 4 => .launch dst (f 2 (2^64))
    | _ => .release dst (x 2) (x 3))

/-- The routines that exist: the image's and the shipped ones (13 R267). -/
def savedRoutine (v : Nat) : Nat := if v < 64 then v else 64 + v

/-- A working copy of the parameters of a call. -/
def savedRegs (f : Nat → Nat → Nat) (i : Nat) : Tbl Word := (List.range 8).map fun j => (j, BitVec.ofNat 64 (f (i + j) (2^64)))

/-- Operation j of the engine's queue (13 R281). -/
def savedEng (f : Nat → Nat → Nat) (j id : Nat) : AOp :=
  let g (i n : Nat) : Nat := f (100 + 64 * j + i) n
  savedOp g id 2 (.eng (match g 0 6 with
    | 0 => .call (savedRoutine (g 1 68)) (savedRegs g 2) (1 + g 10 16)
    | 1 => .mlat (Fin.ofNat 4 (g 1 4)) (64 * g 2 (2^16))
    | 2 => .accrd (g 1 8192) (64 * g 2 (2^18)) (savedMask g 3) (savedMask g 4) (BitVec.ofNat 2 (g 5 4))
    | 3 => .accwr (64 * g 2 (2^18)) (savedMask g 3) (savedVec g 4)
    | 4 => .accz (64 * g 2 (2^18)) (savedMask g 3) (savedMask g 4)
    | _ => .norm (64 * g 2 (2^18)) (savedMask g 3) (savedMask g 4)))

/-- The descriptor record and the class of a latch; its contents are loaded again (13 R262, R281). -/
def savedLatch (f : Nat → Nat → Nat) (i : Nat) : OpLatch :=
  let w := 2 + f (i + 1) 15
  if f i 2 = 0 then OpLatch.empty
  else { OpLatch.empty with cls := classOf w, cols := f (i + 2) (classCols (classOf w) + 1), w := w, blk := blkSize (f (i + 3) 3), tile := 64 * f (i + 4) (2^16), filled := true, taint := f (i + 5) 2 == 1 }

/-- A stream's binding, position and remaining slack (11 R231), from its 64 bytes. -/
def savedStream (f : Nat → Nat → Nat) : Stream :=
  let n := f 1 (2^32)
  { Stream.fresh (f 0 2 == 1) (f 2 (2^64)) (f 3 (2^16)) with
    desc := if f 0 2 = 1 then some (BitVec.ofNat 512 (f 4 (2^512))) else none, position := n, fetched := n, stored := n, region := f 5 16 }

/-- A cycle of a broadcast queue (16 R318). -/
def savedEntry (f : Nat → Nat → Nat) (i : Nat) : Entry :=
  if f i 2 = 0 then .stall
  else .bundle (f (i + 1) (2^24)) ((List.range 23).map fun j => (j, savedWord f (i + 2 + 2 * j))) ((List.range 6).map fun j => f (i + 48 + j) 2 == 1)

/-- The sequencer's state from the header's 192 bytes, and the barrier masks from bead 0's region (06 R118, 16 R321). -/
def foreignSeq (s : State) (a : Nat) (r : PassRun) (tick : Nat) : Seq :=
  let f := areaField s (a + 0x40) 192
  let g := areaField s (a + regionAt 0 + 0x200) 1024
  { Seq.idle with
    run := some r, pc := BitVec.ofNat 64 (f 0 (2^24)), target := if f 1 2 = 1 then some (BitVec.ofNat 64 (f 2 (2^24)), f 3 3) else none,
    loops := (List.range (f 4 7)).map fun i =>
      ⟨BitVec.ofNat 32 (f (100 + 8 * i) (2^32)), BitVec.ofNat 32 (f (101 + 8 * i) (2^32)), f (102 + 8 * i) (2^24), some (f (103 + 8 * i) (2^24)), f (104 + 8 * i) 2 == 1⟩,
    gang := (List.range 16).foldl (fun t i => Tbl.set ⟨0, false⟩ t i (savedWord f (200 + 2 * i))) [],
    bars := (List.range 48).map fun i => (i, BitVec.ofNat 8 (g (300 + i) (2^r.w))),
    sync := if f 7 3 = 1 then some ⟨f 8 48, 0, (List.range r.w).filter fun i => f (400 + i) 2 == 1, 0⟩ else none,
    steps := f 9 (2^32), stepWait := if f 7 3 = 2 then some (f 9 (2^32) + 1) else none,
    stall := f 5 17, replay := f 6 24, cycles := 256 * tick }

/-- The suspended commands of a region and the operations of its engine, each class within its limit (11 R221, 17 R341) and 64 commands in all; the order between the two areas is the
implementation's too. -/
def foreignOps (s : State) (b : Nat) : List AOp :=
  let e := areaField s (b + 0x1400) 1024
  let n := areaField s (b + 0x1800) 4096
  let cell (i : Nat) : Nat → Nat → Nat := areaField s (b + 0x1800 + 64 * i) 64
  let nc := n 0 33
  let nn := nc + n 1 17
  let nt := nn + n 2 (65 - nn)
  let cmds := (List.range nt).map fun i => fun id => if i < nc then savedCopy (cell i) id else if i < nn then savedEn (cell i) id else savedNet (cell i) id
  let engs := (List.range (e 0 17)).map fun j => savedEng e j
  let l : List (Nat → AOp) := if e 1 2 = 0 then engs ++ cmds else cmds ++ engs
  l.zipIdx.map fun x => x.1 (4 * x.2)

/-- The fixed part of a region: registers, specials, queues, streams, engine and suspended commands. -/
def foreignFixed (s : State) (b : Nat) (c : Core) (skewed : Nat) (t : Task) : Core :=
  let f := areaField s (b + 0x200) 1024
  let g := areaField s (b + 0x600) 2560
  let e := areaField s (b + 0x1400) 1024
  let bqf := areaField s (b + 0x1200) 512
  let lf := areaField s (b + 0x5000) 65536
  let c1 := (List.range 31).foldl (fun c i => c.setN (i + 1) ⟨BitVec.ofNat 64 (memVal s (b + 8 * (i + 1)) 8), g (300 + i) 2 == 1⟩) c
  let c2 := (List.range 7).foldl (fun c i => (c.setP (i + 1) ⟨f (430 + i) 2 == 1, g (440 + i) 2 == 1⟩).setM (i + 1) ⟨savedMask f (450 + i), savedMask g (460 + i)⟩) c1
  let ops := foreignOps s b
  let running : Option (AOp × Nat × Tbl Word × Nat) := (ops.find? fun o => opClass o.kind == 5).bind fun o => match o.kind with
    | .eng (.call r _ n) => if e 2 2 = 1 then some (o, r, savedRegs e 10, n) else none
    | _ => none
  let c3 : Core := { c2 with
    q := (List.range 16).map fun i => ⟨BitVec.ofNat 64 (memVal s (b + 256 + 8 * i) 8), g (340 + i) 2 == 1⟩,
    vq := (List.range 16).map fun i => ⟨BitVec.ofNat 4096 (memVal s (b + 0x3000 + 512 * i) 512), savedMask g (360 + i)⟩,
    mp := (List.range 8).foldl (fun m i => Tbl.set 0 m i (BitVec.ofNat 64 (f (380 + i) (2^64)))) [],
    flg := BitVec.ofNat 7 (f 390 128), rnd := BitVec.ofNat 2 (f 391 4), jord := BitVec.ofNat 3 (f 392 8), vwb := BitVec.ofNat 12 (f 393 (32 * vwfOf t.pword - 28) * 8),
    cmk := BitVec.ofNat 8 (f 394 256), svm := BitVec.ofNat 48 (f 395 (2^48)), occ := BitVec.ofNat 16 (f 396 65536), dlen := BitVec.ofNat 8 (f 397 256),
    slip := BitVec.ofNat 8 (f 398 256), mprec := BitVec.ofNat 5 (1 + f 399 16), ctlTaint := f 400 2 == 1, series := f 403 36,
    jflg := (List.range 8).foldl (fun m i => Tbl.set 0 m i (BitVec.ofNat 40 (f (410 + i) (2^40)))) [],
    blc := (List.range 8).foldl (fun m i => Tbl.set 0 m i (BitVec.ofNat 32 (f (420 + i) (2^32)))) [],
    streams := (List.range 8).foldl (fun m i => Tbl.set Stream.unset m i (savedStream (areaField s (b + 0x1000 + 64 * i) 64))) [],
    latches := (List.range 4).foldl (fun m i => Tbl.set OpLatch.empty m i (savedLatch e (20 + 8 * i))) [],
    inflight := (List.range (lf 0 129)).flatMap fun i => savedResult lf (100 + 32 * i),
    bq := (List.range (bqf 0 (skewed + 1))).map fun i => savedEntry bqf (64 + 64 * i), bundleNo := 256, ops := ops,
    call := running.map fun x => ⟨x.1.id, x.2.1, e 3 2048, x.2.2.1, x.2.2.2, BitVec.ofNat 7 (e 4 128), e 5 2 == 1⟩ }
  ops.foldl (fun c o => c.incCtr o.ctr) c3

def foreignCore (s : State) (b : Nat) (t : Task) (q p k : Nat) : Core :=
  let c := foreignFixed s b (startCore t q p k Core.blank) (p * t.skew) t
  let v := vwfOf t.pword
  let r := scrOf t.pword
  let tainted (i : Nat) : Bool := Tbl.get false s.secTaint ((b + 0x40000) / 32 + i)
  { c with
    win := (List.range (256 * v)).foldl (fun m i =>
      Tbl.set ⟨0, 0⟩ m i ⟨BitVec.ofNat 4096 (memVal s (b + 0x40000 + 512 * i) 512), BitVec.ofNat 128 (packFrom 1 (fun l => if tainted (16 * i + l / 8) then 1 else 0) 128)⟩) [],
    scratch := (List.range (131072 * r)).foldl (fun m i => Tbl.set 0 m i (BitVec.ofNat 8 (memVal s (b + 0x40000 + 131072 * v + i) 1))) [],
    scrTaint := (List.range (4096 * r)).foldl (fun m i => Tbl.set false m i (tainted (4096 * v + i))) [],
    acc := (List.range (16384 * accOf t.pword)).foldl (fun m i => Tbl.set 0 m i (BitVec.ofNat 64 (memVal s (b + 0x40000 + 131072 * (v + r) + 8 * i) 8))) [],
    accTaint := (List.range (16384 * accOf t.pword)).foldl (fun m i => Tbl.set false m i (tainted (4096 * (v + r) + i / 4))) [] }

/-- Take up the valid slots of a task that hold contexts: this device's own, or another's. -/
def adoptSlots (s : State) (p ti : Nat) : State :=
  (List.range 48).foldl (fun s q => (List.range (slotDepth s p)).foldl (fun s j =>
    let a := slotAddr s p q j
    if memVal s a 4 = 2 ∧ memVal s (a + 4) 2 = ti then
      let t := taskOf s ti
      let k := memVal s (a + 8) 8
      let r : PassRun := ⟨ti, t.launch, copyFor t q, k, t.w, t.skew, BitVec.ofNat 2 (levelOf s p), p⟩
      let key := 8 * q + j
      let x : Saved := match Tbl.find? s.rk.saved key with
        | some x => { x with seq := { x.seq with run := x.seq.run.map fun y => { y with task := ti, launch := t.launch } }, cores := x.cores.map fun c => { c with launch := t.launch } }
        | none => ⟨2, p, t.vf, memVal s (a + 7) 1, foreignSeq s a r (memVal s (a + 0x20) 4),
            (List.range t.w).map fun i => foreignCore s (a + regionAt i) t q i k⟩
      { s with rk := { s.rk with saved := Tbl.insert (Tbl.erase s.rk.saved key) key x } }
    else s) s) s

/-- A copy of a task from the record. -/
def copyFrom (s : State) (x : List Byte) (o : Nat) : CopyState :=
  let fl := bfield x (o + 8) 2
  { next := bfield x o 4, done := bfield x (o + 4) 4, slip := bfield x (o + 10) 2, ready := if bitsAt fl 2 1 = 1 then some s.cycle else none, aborted := bitsAt fl 0 1 == 1,
    held := bitsAt fl 1 1 == 1, trap := if bitsAt fl 4 1 = 1 then some (bfield x (o + 12) 2, bfield x (o + 14) 2) else none, first := bitsAt fl 3 1 == 1 }

/-- A task entry of the record becomes a task of this device; its headers are read again. `none`: a translation is waited for. -/
def importTask (s : State) (v p : Nat) (b x : List Byte) : Option State :=
  let raw : Command := BitVec.ofNat 512 (leOf b)
  let fl := bfield x 48 1
  let ti := partField s p 40 2 + cmdField raw 4 2
  let rel := absTime s (cmdField raw 40 8)
  let dur := (absTime s (cmdField raw 48 8)) - rel
  let c : Command := BitVec.ofNat 512 (1 + cmdField raw 1 5 * 2^8 + cmdField raw 8 32 * 2^64 + rel * 2^320 + dur * 2^384 + cmdField raw 56 4 * 2^448)
  match readHeaders s p c with
  | (_, .wait) => none
  | (s1, .bad _) => some s1
  | (s1, .ok h i rs ss) =>
    let st := cmdField raw 0 1
    let live : Bool := decide (2 ≤ st)
    let l := s1.rk.launches + 1
    let t0 := newTask s1 (.host (Fin.ofNat 96 v) 0) p rel c h i rs ss
    let t := { t0 with
      st := if st ≤ 1 then .pending else if st = 2 then .ready else .suspended, taken := 0, relTaken := live || bitsAt fl 5 1 == 1, launch := if live then l else 0,
      eff := if live || !t0.holdFlag then some (BitVec.ofNat 64 rel) else none,
      copies := if live then (if t0.mirrored then [copyFrom s1 x 0, copyFrom s1 x 16] else [copyFrom s1 x 0]) else [],
      hold := if cmdField raw 6 1 % 2 = 1 then some (bfield x 32 2, bfield x 34 2, bfield x 36 1, bfield x 37 3) else none,
      start := if bitsAt fl 0 1 = 1 then some (BitVec.ofNat 64 (absTime s1 (bfield x 40 8))) else none,
      taintSeen := bitsAt fl 1 1 == 1, struck := bitsAt fl 2 1 == 1, margin := bitsAt fl 3 1 == 1, marginAt := s1.cycle, retire := bitsAt fl 4 1 == 1,
      util := (utilisation s1 p t0).getD 0, slots := demandOf s1 t0 }
    some (adoptSlots (setTask (if live then { s1 with rk := { s1.rk with launches := l } } else s1) ti t) p ti)

/-- Import every task entry in order. -/
def importTasks (s : State) (v p a x : Nat) : Nat → Option State
  | 0 => some s
  | n + 1 => match importTasks s v p a x n with
    | none => none
    | some s1 => importTask s1 v p (memBytes s1 (a + 64 * n) 64) (memBytes s1 (x + 64 * n) 64)

/-- Put a byte list into a VF's ring. -/
def importRing (s : State) (v a : Nat) : State :=
  (ringIndices s v).zipIdx.foldl (fun s e => bar2PutBytes s (2^18 * v + 64 * e.1) (memBytes s (a + 64 * e.2) 64)) s

/-- MIGRATION_IMPORT: the target must give the partition the same Rod halves and VF; the partition stays stopped until RESUME. -/
def execMigrationImport (s : State) : Out :=
  .next (onMig s .migrationImport fun s v p =>
    let a := pfGet s (migOff v + 0x30) 8
    if l2Changing s (ownerOf a) 40 then again s ⟨.migrationImport, s.ev⟩ else
    let nt := memVal s (a + 16) 4
    let ns := memVal s (a + 20) 4
    if !inHyp s a || memVal s a 4 ≠ 0x4752494D || memVal s (a + 4) 2 ≠ 1 || memVal s (a + 6) 1 ≠ p || memVal s (a + 7) 1 ≠ v ||
        memVal s (a + 24) 8 ≠ halvesOf s p || !(partTasks s p).isEmpty then migRefuse s v
    else
      let s1 := bar0Set (bar0Set (bar0Set (bar0Set s v 0 4 (memVal s (a + 0x40) 4)) v 0x10 4 (memVal s (a + 0x44) 4)) v 8 4 (memVal s (a + 0x48) 4)) v 0x18 4
        (memVal s (a + 0x4C) 4)
      let s2 := pfPutBytes s1 (0x10000 + 64 * p) (memBytes s1 (a + 0x80) 64)
      let s3 := (List.range ns).foldl (fun s i =>
        let b := memBytes s (a + 0x1000 + 64 * i) 64
        pfPutBytes s (0x20000 + 64 * (leOf ((b.drop 6).take 2) % 4096)) (b.take 6 ++ [0, 0] ++ b.drop 8)) s2
      let s4 := setPartDyn s3 p { partDyn s3 p with stopped := true }
      match importTasks s4 v p (a + 0x1000 + 64 * ns) (a + 0x1000 + 64 * (ns + nt + (ringIndices s4 v).length)) nt with
      | none => again s ⟨.migrationImport, s.ev⟩
      | some s5 => importRing s5 v (a + 0x1000 + 64 * ns + 64 * nt))

/-- MIGRATION_RESUME. -/
def execMigrationResume (s : State) : Out :=
  .next (onMig s .migrationResume fun s v p =>
    if stopDone s v p then setPartDyn s p { partDyn s p with stopped := false } else migRefuse s v)

end Sys2Proof.Machine
end

