-- ==== Sys2Proof/Machine/Platform.lean ====
section
/-! DEFINITION. Bring-up, trust, watchdog and monitors (18 R358 to R368). -/

namespace Sys2Proof.Machine

open Sys2Proof

/-! ## Images (18 R359, R360) -/

/-- The bytes of the flash's copy of an image kind in slot 0 (A) or 1 (B). -/
def flashOf (s : State) (kind slot : Nat) : List Byte := Tbl.get [] s.plat.flash (2 * kind + slot)

def imgPart (b : List Byte) (off n : Nat) : List Byte := (b.drop off).take n
def imgNum (b : List Byte) (off n : Nat) : Nat := leOf (imgPart b off n)

/-- The signed content: header and payload. -/
def signedContent (b : List Byte) : List Byte := b.take (256 + imgNum b 8 4)

/-- The header is within its limits. -/
def imageHeaderOk (b : List Byte) (kind : Nat) : Bool :=
  let len := imgNum b 8 4
  let sig := imgNum b 12 4
  imgNum b 0 4 == 0x59415341 && imgNum b 4 2 == kind && decide (imgNum b 6 2 ≤ 63) && len % 64 == 0 && decide (64 ≤ len) && decide (len ≤ 2^24) &&
    decide (1 ≤ sig) && decide (sig ≤ 8192) && (imgPart b 16 48).all (· == 0) && (imgPart b 208 48).all (· == 0) && b.length == 256 + len + 96 + sig

/-- The 48 bytes of a digest. -/
def digestBytes (d : BitVec 384) : List Byte := beBytes d.toNat 48

/-- An image is accepted (18 R360). -/
def imageOk (s : State) (kind : Nat) (b : List Byte) : Bool :=
  let c := signedContent b
  let eKey := imgPart b 64 96
  let lKey := imgPart b 160 48
  imageHeaderOk b kind && sha384 eKey == digestBytes s.plat.ecdsaHash && sha384 lKey == digestBytes s.plat.lmsHash &&
    ecdsaVerify eKey (sha384 c) (imgPart b c.length 96) && lmsVerify lKey c (b.drop (c.length + 96)) &&
    decide (Tbl.get 0 s.plat.minSvn kind ≤ imgNum b 6 2)

/-- The slot whose image of a kind is accepted: A, then B. -/
def acceptedSlot (s : State) (kind : Nat) : Option Nat := [0, 1].find? fun i => imageOk s kind (flashOf s kind i)

/-- Verify kinds 2, 3, 1: the images that run, or recovery. -/
def verifyImages (s : State) : State :=
  [2, 3, 1].foldl (fun s k =>
    match acceptedSlot s k with
    | none => { s with plat := { s.plat with recovery := true } }
    | some i =>
      let s1 := { s with plat := { s.plat with image := Tbl.insert (Tbl.erase s.plat.image k) k (i, imgNum (flashOf s k i) 6 2) } }
      if i = 1 then pfOr s1 0xF8010 8 (2^(8 + k)) else s1) s

/-! ## The start sequence (18 R358, R365) -/

/-- POWER_GOOD: every other unit is held in reset and the Assay core begins. -/
def execPowerGood (s : State) : Out :=
  .next (if s.plat.power then s
    else
      let d := drawDevice s
      { d.2 with plat := { d.2.plat with power := true, unitDue := s.cycle + d.1 } })

/-- The next unit of the start sequence is due. -/
def unitDue (s : State) : Option Nat :=
  if s.plat.power && !s.plat.recovery && decide (s.plat.started < 26) && decide (s.plat.unitDue ≤ s.cycle) then some s.plat.started else none

/-- What a unit's step does beside setting its bit. -/
def unitStep (s : State) (i : Nat) : State :=
  if i = 1 then { s with plat := { s.plat with heartbeat := [(0, s.cycle), (1, s.cycle), (2, s.cycle), (3, s.cycle)] } }
  else if i = 3 then { s with devTime := 0, devRem := 0 }
  else if i = 4 then { s with plat := { s.plat with pfReady := true } }
  else s

/-- UNIT_READY: the unit sets its UNITRDY bit and the next is started; without an accepted image of each kind the device stays in recovery. -/
def execUnitReady (s : State) : Out :=
  .next (match s.ev with
    | .startUnit i =>
      if unitDue s ≠ some i.val then s
      else
        let s1 := if i.val = 0 then verifyImages s else s
        if s1.plat.recovery then { s1 with plat := { s1.plat with pfReady := true } }
        else
          let d := drawDevice (pfOr (unitStep s1 i.val) 0xF8000 8 (2^i.val))
          { d.2 with plat := { d.2.plat with started := i.val + 1, unitDue := s.cycle + d.1 } }
    | _ => s)

/-- CONFIG_REQUEST: answered with Configuration Request Retry Status until the PF is ready. -/
def execConfigRequest (s : State) : Out :=
  .next (match s.ev with
    | .function f => send s (if s.plat.pfReady then .configDone f.val else .configRetry f.val)
    | _ => s)

/-- VF_ENABLE: the ring window is zeroed, and the VF is ready within 10 µs (18 R362). -/
def execVfEnable (s : State) : Out :=
  .next (match s.ev with
    | .vf v =>
      match Tbl.find? s.plat.vfEnabled v.val with
      | none =>
        if !s.plat.pfReady || s.plat.recovery then s
        else
          let due := s.cycle + 1 + Config.deviceLatency s.freeCtr % 15000
          { s with freeCtr := s.freeCtr + 1, bar2 := s.bar2.filter fun c => decide (c.1 / 2^18 ≠ v.val),
                   plat := { s.plat with vfEnabled := Tbl.insert s.plat.vfEnabled v.val due } }
      | some due =>
        if due ≤ s.cycle ∧ !s.plat.flr.contains v.val ∧ !s.plat.vfReady.contains v.val then
          { s with plat := { s.plat with vfReady := v.val :: s.plat.vfReady } }
        else s
    | _ => s)

/-! ## Security versions (18 R361, R363) -/

/-- Commit one kind: refused while it does not run, or runs from slot B. -/
def commitKind (s : State) (k : Nat) : State :=
  match Tbl.find? s.plat.image k with
  | some (0, svn) => { s with plat := { s.plat with minSvn := Tbl.set 0 s.plat.minSvn k (Nat.max svn (Tbl.get 0 s.plat.minSvn k)) } }
  | _ => pfOr s 0xF8010 8 0x100

/-- SVNCOMMIT_WRITE. -/
def execSvncommitWrite (s : State) : Out :=
  .next (match s.ev with
    | .val v => [1, 2, 3].foldl (fun s k => if bitsAt v.toNat (k - 1) 1 = 1 then commitKind s k else s) s
    | _ => s)

/-! ## Attestation (18 R364) -/

/-- The mailbox answers. -/
def spdmAnswers (s : State) : Bool := s.plat.pfReady && !s.plat.recovery

/-- Answer a request of the mailbox. PRESUMED (log 10): requests and responses are laid out as DSP0274 1.3 has them. -/
def spdmReply (s : State) (f : List Byte → List Byte) : State :=
  match s.ev with
  | .spdm req => if spdmAnswers s then send s (.spdm (f req)) else s
  | _ => s

/-- The signed content of the image that runs of a kind. -/
def runningImage (s : State) (k : Nat) : List Byte := match Tbl.find? s.plat.image k with
  | some (i, _) => signedContent (flashOf s k i)
  | none => []

/-- The contents of measurement blocks 1 to 6 (18 R364). -/
def measured (s : State) (i : Nat) : List Byte :=
  if i = 1 then sha384 (Config.romBytes ())
  else if i ≤ 4 then sha384 (runningImage s (i - 1))
  else if i = 5 then ([1, 2, 3].map fun k => BitVec.ofNat 8 (Tbl.get 0 s.plat.minSvn k)) ++ [BitVec.ofNat 8 (bitsAt (pfGet s 0xF8010 8) 9 3)]
  else [s.plat.debug]

/-- The kind of a block's value: the ROM and firmware images as digests, policy and state as bytes. -/
def measuredType (i : Nat) : Nat := if i = 1 then 0 else if i ≤ 4 then 1 else 0x83

/-- A measurement block: index, specification, size, then kind, size and value. -/
def measureBlock (s : State) (i : Nat) : List Byte :=
  let v := measured s i
  leBytes i 1 ++ [1] ++ leBytes (v.length + 3) 2 ++ leBytes (measuredType i) 1 ++ leBytes v.length 2 ++ v

/-- The blocks that a request's index asks for: none, one, or all. -/
def askedBlocks (i : Nat) : List Nat := if i = 0xFF then [1, 2, 3, 4, 5, 6] else if 1 ≤ i ∧ i ≤ 6 then [i] else []

/-- A nonce of 32 bytes. -/
def spdmNonce (req : List Byte) : List Byte := leBytes (Config.spdmFree 0 req) 32

/-- A signature over a request and its response under the identity key (18 R364). -/
def signed (s : State) (req b : List Byte) : List Byte := b ++ (Config.spdmSign (runningImage s 2) (req ++ b)).take 96

/-- The digest of the certificate chain. -/
def chainHash (s : State) : List Byte := sha384 (Config.certChain (runningImage s 2))

/-- GET_VERSION: the one version 1.3. -/
def versionBody : List Byte := [0x10, 0x04, 0, 0, 0, 1, 0, 0x13]

/-- GET_CAPABILITIES: certificates, challenges and signed measurements, and no session. -/
def capabilitiesBody (req : List Byte) : List Byte := [0x13, 0x61, 0, 0, 0] ++ leBytes (Config.spdmFree 1 req) 1 ++ [0, 0, 0x16, 0, 0, 0] ++ leBytes (Config.spdmFree 2 req) 8

/-- NEGOTIATE_ALGORITHMS: ECDSA P-384 with SHA-384, the only ones. -/
def algorithmsBody : List Byte :=
  [0x13, 0x63, 0, 0] ++ leBytes 36 2 ++ [1, 0] ++ leBytes 4 4 ++ leBytes 0x80 4 ++ leBytes 2 4 ++ leBytes 0 16

/-- GET_CERTIFICATE: the portion of the chain asked for, and how much remains. -/
def certificateBody (s : State) (req : List Byte) : List Byte :=
  let c := (Config.certChain (runningImage s 2)).drop (bfield req 4 2)
  let p := c.take (bfield req 6 2)
  [0x13, 0x02, 0, 0] ++ leBytes p.length 2 ++ leBytes (c.length - p.length) 2 ++ p

/-- CHALLENGE: the chain's digest, a nonce, the digest of the measurements asked for, the requester's context. -/
def challengeBody (s : State) (req : List Byte) : List Byte :=
  [0x13, 0x03, 0, 1] ++ chainHash s ++ spdmNonce req ++
    (if bfield req 3 1 = 0xFF then sha384 ([1, 2, 3, 4, 5, 6].flatMap (measureBlock s)) else if bfield req 3 1 = 1 then sha384 (measureBlock s 1) else []) ++
    [0, 0] ++ (req.drop 36).take 8

/-- GET_MEASUREMENTS: the number of blocks, or those asked for. -/
def measurementsBody (s : State) (req : List Byte) : List Byte :=
  let op := bfield req 3 1
  let l := askedBlocks op
  let r := l.flatMap (measureBlock s)
  [0x13, 0x60] ++ leBytes (if op = 0 then 6 else 0) 1 ++ [0] ++ leBytes l.length 1 ++ leBytes r.length 3 ++ r ++ spdmNonce req ++ [0, 0] ++ (req.drop (if bfield req 2 1 % 2 = 1 then 37 else 4)).take 8

def execGetVersion (s : State) : Out := .next (spdmReply s fun _ => versionBody)
def execGetCapabilities (s : State) : Out := .next (spdmReply s capabilitiesBody)
def execNegotiateAlgorithms (s : State) : Out := .next (spdmReply s fun _ => algorithmsBody)
def execGetDigests (s : State) : Out := .next (spdmReply s fun _ => [0x13, 0x01, 1, 1] ++ chainHash s)
def execGetCertificate (s : State) : Out := .next (spdmReply s (certificateBody s))
def execChallenge (s : State) : Out := .next (spdmReply s fun req => signed s req (challengeBody s req))
def execGetMeasurements (s : State) : Out :=
  .next (spdmReply s fun req => if bfield req 2 1 % 2 = 1 then signed s req (measurementsBody s req) else measurementsBody s req)

/-- The SPDM error UnsupportedRequest with the request's code as its data (log 10). -/
def unsupported (s : State) : State :=
  match s.ev with
  | .spdm req => if spdmAnswers s then send s (.spdm [0x13, 0x7F, 0x07, req.getD 1 0]) else s
  | _ => s

def execKeyExchange (s : State) : Out := .next (unsupported s)
def execPskExchange (s : State) : Out := .next (unsupported s)

/-! ## Watchdog (18 R366) -/

/-- CP_HEARTBEAT: a restarted command processor is running again. -/
def execCpHeartbeat (s : State) : Out :=
  .next (match s.ev with
    | .cp c => { s with plat := { s.plat with heartbeat := Tbl.insert (Tbl.erase s.plat.heartbeat c.val) c.val s.cycle, cpReset := s.plat.cpReset.filter (· ≠ c.val) } }
    | _ => s)

/-- A command processor has been silent for 100 ms: 150 000 000 cycles. -/
def cpSilent (s : State) (c : Nat) : Bool :=
  match Tbl.find? s.plat.heartbeat c with
  | some t => decide (t + 150000000 ≤ s.cycle)
  | none => false

/-- WATCHDOG_EXPIRY. -/
def execWatchdogExpiry (s : State) : Out :=
  .next (match s.ev with
    | .cp c =>
      if !cpSilent s c.val then s
      else
        let s1 := pfSet s 0xF8010 1 (Nat.min 255 (pfGet s 0xF8010 1 + 1))
        raiseMsix { s1 with plat := { s1.plat with heartbeat := Tbl.insert (Tbl.erase s1.plat.heartbeat c.val) c.val s.cycle,
                                                    cpReset := c.val :: s1.plat.cpReset.filter (· ≠ c.val) } } 0 6
    | _ => s)

/-! ## Monitors (18 R367, R368) -/

def monVal (s : State) (i : Nat) : Nat := pfGet s (0xF8100 + 8 * i) 4
def twarn (s : State) : Int := sextNat (pfGet s 0xF8300 2) 16
def tcrit (s : State) : Int := sextNat (pfGet s 0xF8308 2) 16

/-- A temperature at or above TWARN. -/
def monWarm (s : State) (i : Nat) : Bool := decide (i < 16) && decide (twarn s ≤ sextNat (monVal s i) 32)

/-- A reading that trips its die: a temperature at or above TCRIT, a voltage outside its window. -/
def monTrips (s : State) (i : Fin 64) : Bool :=
  if i.val < 16 then decide (tcrit s ≤ sextNat (monVal s i.val) 32)
  else if i.val < 48 then Config.voltageOutside i (BitVec.ofNat 32 (monVal s i.val))
  else false

/-- A tripped monitor is well again: its temperature below TWARN, or its voltage inside its window. -/
def monWell (s : State) (i : Nat) : Bool :=
  if h : i < 64 then (if i < 16 then !monWarm s i else !monTrips s ⟨i, h⟩) else true

/-- TEMPERATURE_WARN: raised once for each crossing. -/
def execTemperatureWarn (s : State) : Out :=
  .next (match s.ev with
    | .monitor i =>
      if monWarm s i.val && !s.plat.crossed.contains i.val then raiseMsix { s with plat := { s.plat with crossed := i.val :: s.plat.crossed } } 0 5 else s
    | _ => s)

/-- The monitors that hold a die tripped; 64 is added to one whose TRIPCLR has been written. -/
def tripStands (s : State) (d i : Nat) : Bool := s.plat.tripped.any fun e => e.1 == d && e.2 % 64 == i

/-- DIE_TRIP: running passes of the die are aborted with THERMAL_TRIP, mirrored primaries there are struck, and nothing more is dispatched to it. -/
def execDieTrip (s : State) : Out :=
  .next (match s.ev with
    | .monitor i =>
      let d := (Config.monitorDie i).val
      if !monTrips s i || tripStands s d i.val then s
      else
        let s1 := { s with plat := { s.plat with tripped := (d, i.val) :: s.plat.tripped } }
        let s2 := strikeDie s1 d fun _ => true
        trapPasses s2 (fun q _ => dieOf q == d && !(((seqOf s2 q).stop.map fun st => decide (st.phase = .kept)) == some true)) 0x0504 i.val
    | _ => s)

/-- Trips end whose TRIPCLR has been written and whose monitor is well. -/
def clearTrips (s : State) : State :=
  { s with plat := { s.plat with tripped := s.plat.tripped.filter fun e => decide (e.2 < 64) || !monWell s (e.2 % 64) } }

/-- TRIPCLR_WRITE: dispatch to a die resumes once its monitor has fallen below TWARN. -/
def execTripclrWrite (s : State) : Out :=
  .next (match s.ev with
    | .val v =>
      clearTrips { s with plat := { s.plat with tripped := s.plat.tripped.map fun e => if bitsAt v.toNat e.1 1 = 1 then (e.1, e.2 % 64 + 64) else e } }
    | _ => s)

/-- Crossings and trips that have ended with a reading or a threshold are forgotten. -/
def settleMonitors (s : State) : State := clearTrips { s with plat := { s.plat with crossed := s.plat.crossed.filter fun j => monWarm s j } }

/-- TEMP_THRESHOLD_WRITE: taken unless TCRIT would not exceed TWARN. -/
def execTempThresholdWrite (s : State) : Out :=
  .next (match s.ev with
    | .threshold crit v =>
      let x := v.toNat % 65536
      if crit then (if twarn s < sextNat x 16 then settleMonitors (pfSet s 0xF8308 2 x) else s)
      else if sextNat x 16 < tcrit s then settleMonitors (pfSet s 0xF8300 2 x) else s
    | _ => s)

/-- A monitor senses a value. -/
def senseMonitor (s : State) (i : Nat) (v : BitVec 32) : State :=
  settleMonitors { (pfSet s (0xF8100 + 8 * i) 4 v.toNat) with plat := { s.plat with sensed := i :: s.plat.sensed.filter (· ≠ i) } }

end Sys2Proof.Machine
end

