-- ==== Sys2Proof/Machine/Cycle.lean ====
section
/-! DEFINITION. What lies between instructions: handing a word or an event to execution, inputs, the clocks, and the events that fall due in a cycle (00 R1, 95). -/

namespace Sys2Proof.Machine

open Sys2Proof

/-! ## Handing over -/

/-- The first word of `issue` goes to execution: it leaves the list and its context becomes the running one. -/
def takeWord (s : State) (w : Pending) (rest : List Pending) : State := { s with issue := rest, cur := w.ctx }

/-- The first event of the agenda goes to execution, its operands in `ev`. -/
def takeEvent (s : State) (e : Event) (rest : List Event) : State := { s with agenda := rest, ev := e.arg }

/-- A word that does not decode: its pass traps with ILLEGAL_BUNDLE (05 R79). Without a pass there is nothing to trap, and the model stops. -/
def undecoded (s : State) : Out :=
  if (curSeq s).run.isSome then .next (trapHere s 0x0302 s.cur.slot.val) else .fault .undecodedWord

/-! ## Placing a word (log 1) -/

/-- The slot that a word of a table row's width belongs to. -/
def kindOfBits (nbits : Nat) : SlotKind :=
  if nbits = 40 then .scalar else if nbits = 37 then .vector else if nbits = 56 then .memory else if nbits = 64 then .micro else .special

/-- The slot number that stands for a kind of slot: S0, V0, F, M0. -/
def slotOfKind : SlotKind → Fin 8
  | .scalar => 0
  | .vector => 2
  | .special => 5
  | .memory => 6
  | .micro => 6

/-- A pass of task 0 runs on Rod-unit 0, bead 0 stands at position 0, and the word is the next to be executed. -/
def placeWord (s : State) (nbits w : Nat) : State :=
  { s with
    issue := ⟨kindOfBits nbits, w, ⟨0, 0, slotOfKind (kindOfBits nbits), 0, 0, false⟩⟩ :: s.issue
    seqs := Tbl.set Seq.idle s.seqs 0 { seqOf s 0 with run := some ⟨0, 0, 0, 0, 8, 0, 0, 0⟩ } }

/-! ## Inputs (18 R362; log 1) -/

/-- The PF is usable: ready, and not in recovery. -/
def pfUsable (s : State) : Bool := s.plat.pfReady && !s.plat.recovery

/-- A unit of the start sequence is running (18 R363, R365). -/
def unitRunning (s : State) (i : Nat) : Bool := bitsAt (pfGet s 0xF8000 8) i 1 == 1

/-- A command processor is out of reset, and reaches the Reckoner block through its own window once the X-die's fabric runs (03 R41; 18 R358, R365). -/
def cpRuns (s : State) (c : Nat) : Bool := unitRunning s 1 && !s.plat.cpReset.contains c
def blockRuns (s : State) : Bool := unitRunning s 2 && !s.plat.recovery && (List.range 4).any (cpRuns s)

/-- A VF may be used. -/
def vfUsable (s : State) (v : Nat) : Bool := s.plat.vfReady.contains v

/-- A register window can be written: the PF's once it is ready, a VF's once that is, a command processor's while it runs (18 R358, R362). -/
def windowOpen (s : State) : RegSpace → Bool
  | .pf => pfUsable s
  | .vf v | .ring v => vfUsable s v.val
  | .cpRing c => cpRuns s c.val
  | .cpPf c => cpRuns s c.val && unitRunning s 2 && !s.plat.recovery

/-- What the device takes from outside while a unit that would serve it is held in reset: board and mailbox always, a heartbeat once the command processors run, the network once its endpoint runs,
a register of the block once the PF or a command processor reaches it, device time once unit 3 runs (18 R365), a VF's registers once it is ready (18 R362), all else once the PF is usable. -/
def takesEvent (s : State) (e : Event) : Bool :=
  match e.instr with
  | .powerGood | .configRequest | .errorDetected | .dieLost | .vfEnable | .getVersion | .getCapabilities | .negotiateAlgorithms
  | .getDigests | .getCertificate | .challenge | .getMeasurements | .keyExchange | .pskExchange => true
  | .cpHeartbeat => unitRunning s 1
  | .packetMatch | .messageDelivery | .ncollContribution | .connectionAbandon => endpointRuns s
  | .tsetWrite => unitRunning s 3 && (pfUsable s || blockRuns s)
  | .tadjWrite | .tretireWrite | .tractResume | .tractAbort | .dlctlWrite | .taskRangeWrite | .rownWrite | .cplaceWrite | .l2srWrite | .cgplaceWrite | .fmwctlWrite | .shootdown
  | .pfenceWrite | .frameAssign | .frameRelease | .frameScrub | .frameQuery | .svcbaseWrite | .migrationRound | .migrationStop | .migrationExport | .migrationImport | .migrationResume
  | .kvpctlWrite | .tempThresholdWrite => pfUsable s || blockRuns s
  | .qcfgWrite | .qtailWrite | .cqcfgWrite => match e.arg with
    | .vfVal v _ => vfUsable s v.val
    | _ => pfUsable s
  | .registerWrite => match e.arg with
    | .reg sp _ _ _ => windowOpen s sp || (sp == .pf && blockRuns s)
    | _ => pfUsable s
  | _ => pfUsable s

/-- The register at BAR0 offset 0x50 of the PF, and the offset under which the model's inputs name it, beyond the 1 MiB of the Reckoner block. -/
def pfReadyReg (s : State) : Nat := (if s.plat.pfReady then 1 else 0) + (if s.plat.recovery then 2 else 0)
def pfBar0 : Nat := 0x100050

/-- The value that a read from outside returns. -/
def readReg (s : State) (sp : RegSpace) (off size : Nat) : Nat :=
  match sp with
  | .pf => if off = pfBar0 then (if size = 4 then pfReadyReg s else 0) else if pfUsable s then pfRead s off size else 0
  | .vf v =>
    if off = 0x50 then (if size = 4 ∧ vfUsable s v.val = true then 1 else 0)
    else if vfUsable s v.val ∧ off + size ≤ 256 ∧ (size = 4 ∨ size = 8) then bar0Get s v.val off size else 0
  | .ring v => if vfUsable s v.val ∧ off + size ≤ 2^18 ∧ size ≤ 8 then bar2Get s v.val off size else 0
  | .cpRing c => if cpRuns s c.val ∧ off + size ≤ 4096 ∧ size ≤ 8 then cpRingGet s c.val off size else 0
  | .cpPf _ => if windowOpen s sp then pfRead s off size else 0

/-- What the PF alone may write, and firmware not: a fuse's advance, and the end of a trip (18 R358, R361, R368). -/
def pfAlone (e : Event) : Bool := e.instr == .svncommitWrite || e.instr == .tripclrWrite

/-- The step that a write from outside is; none while its window is closed, none of firmware's that is the PF's alone, and none for device time before unit 3 runs. -/
def writeEvent (s : State) (sp : RegSpace) (off size : Nat) (v : Word) : Option Event :=
  if !windowOpen s sp then none
  else match sp with
  | .pf => some (decodePfWrite off size v)
  | .cpPf _ => if (off = 0x18 ∧ unitRunning s 3 = false) ∨ pfAlone (decodePfWrite off size v) = true then none else some (decodePfWrite off size v)
  | .vf x => some (decodeVfWrite x off size v)
  | .ring _ | .cpRing _ => some ⟨.registerWrite, .reg sp off size v⟩

/-- A peer answers an access with a permission error (12 R247): the access that waits for it faults with PERMISSION, a command fails with it. -/
def denyOp (s : State) (cid id : Nat) : State :=
  match liveOp s cid id with
  | none => s
  | some o =>
    match o.kind with
    | .copy _ dst _ => if o.accepted || o.acks ≠ 0 || !o.suspended then failCmd s cid o dst 0x0202 o.slot.val 0 else s
    | k => if !o.waiting ∧ (opSpans k).any fun r => ownerOf r.1 == 8 then faultTrap s cid o 0x0202 o.slot.val else s

/-- The same for the elements of a stream: those asked for, or the next of an output stream. -/
def denyStream (s : State) (cid z : Nat) : State :=
  let c := coreGet s cid
  if (streamOf c z).reqs ≠ [] then stopStream s cid z 0x0202
  else match nextOut c z with
    | some e => if ownerOf e.va = 8 then modCore s cid fun c => setFailure (clearFences { c with outq := c.outq.filter (· ≠ e) }) 0x0202 e.slot else s
    | none => s

/-- A peer begins or ceases to deny a partition a page: every later access through the contexts of 12 R247 meets it, of whatever kind (a fetch, a header, a signal, a command). -/
def denyPage (s : State) (p v : Nat) (st on : Bool) : State :=
  let l := s.xl.denied.filter (· ≠ (p, v, st))
  { s with xl := { s.xl with denied := if on then (p, v, st) :: l else l } }

/-- One input takes effect: a step that stands next on the agenda, or its effect at once. -/
def takeInput (s : State) : Input → State
  | .event e =>
    if takesEvent s e then { s with agenda := e :: s.agenda }
    else if e.instr = .firmwareRingEntry then again s e else s
  | .write sp off size v => match writeEvent s sp off size v with
    | some e => { s with agenda := e :: s.agenda }
    | none => s
  | .read sp off size => send s (.readAnswer (BitVec.ofNat 64 (readReg s sp off size)))
  | .memory a bs => putBytes s a bs
  | .sendAck ctx n => takeAck s ctx.val n
  | .monitor i v => senseMonitor s i.val v
  | .peerDenied c id => denyOp s c.val id
  | .peerDeniedStream c z => denyStream s c.val z.val
  | .peerPage p v st on => denyPage s p.val v.toNat st on
  | .msixMask fn vec on => setMsixMask s fn.val vec.val on

/-- The first input that has come. -/
def dueInput (s : State) : Option (Nat × Input) := s.inputs.find? fun e => decide (e.1 ≤ s.cycle)

/-! ## What falls due on a core -/

/-- The step that an operation may be ready for. -/
def opEvent (c : CoreId) (o : AOp) : Option Event :=
  match o.kind with
  | .load _ _ _ _ _ _ | .vload _ _ _ => some ⟨.loadComplete, .op c o.id⟩
  | .store _ _ _ _ | .vstore _ | .red _ _ _ | .cache _ _ => some ⟨.storePerform, .op c o.id⟩
  | .atomic _ _ _ _ _ => some ⟨.atomicComplete, .op c o.id⟩
  | .migr _ _ => some ⟨.migrComplete, .op c o.id⟩
  | .copy _ _ _ => some ⟨.copyCommandComplete, .op c o.id⟩
  | .eng _ => some ⟨.engineOpComplete, .op c o.id⟩
  | .sel _ _ | .draw _ _ _ _ _ | .kv _ _ _ _ | .tithe _ _ _ | .launch _ _ | .release _ _ _ => some ⟨.enCommandComplete, .op c o.id⟩
  | .net 0 _ _ => some ⟨.nsendComplete, .op c o.id⟩
  | .net 1 _ _ => some ⟨.messageDelivery, .op c o.id⟩
  | .net _ _ _ => some ⟨.ncollContribution, .op c o.id⟩
  | .sent _ _ _ => if o.acks = 0 then some ⟨.nsendComplete, .op c o.id⟩ else none
  | .coll _ _ _ _ => some ⟨.ncollComplete, .op c o.id⟩
  | .bind z _ _ => some ⟨.streamDescriptorArrive, .stream c z⟩
  | .far _ | .asked _ _ | .posted _ _ _ _ _ | .landAt _ _ _ _ => none

/-- The phase of the stop of the unit that a core works for. -/
def corePhase (s : State) (c : Nat) : Option StopPhase := (seqOf s (coreGet s c).unit).stop.map (·.phase)

/-- Operations, merges and streams of a core. A pass that is stopping fetches no more elements. -/
def coreEvents (s : State) (c : Nat) (x : Core) : List Event :=
  let cid : CoreId := Fin.ofNat 208 c
  let ph := corePhase s c
  let free : Bool := ph.isNone || ph == some .requested
  let live := x.ops.filter fun o => !o.waiting && !o.suspended && decide (o.due ≤ s.cycle)
  (if free || ph == some .draining then live.filterMap (opEvent cid) else []) ++
    ((x.upd.filter fun e => decide (e.2.due ≤ s.cycle)).map fun e => ⟨.lineMerge, .line cid e.1⟩) ++
    ((List.range 8).filterMap fun z => if free && (wantsElement x z || elementDue s x z) then some ⟨.streamElementArrive, .stream cid (Fin.ofNat 8 z)⟩ else none) ++
    ((List.range 8).filterMap fun z => if (nextOut x z).isSome then some ⟨.streamElementStore, .stream cid (Fin.ofNat 8 z)⟩ else none) ++
    (match x.held with
      | [] => []
      | o :: _ => if free || (ph == some .draining && !staysHeld o.kind) then [⟨.heldOpEnter, .core cid⟩] else [])

/-- FENCE.FAR: every core that has not received the serialise, then the count. -/
def farEvents (s : State) (c : Nat) (x : Core) : List Event :=
  (x.ops.filter fun o => isFar o.kind && !o.waiting && decide (o.due ≤ s.cycle)).flatMap fun o =>
    ((partCores s (partOfCore s c)).filterMap fun i =>
      if o.acks / 2^i % 2 = 1 then none else some ⟨.serialiseReceive, .op (Fin.ofNat 208 i) (208 * o.id + c)⟩) ++
      [⟨.fenceFarDone, .op (Fin.ofNat 208 c) o.id⟩]

/-- The walks that waiting operations want. -/
def walkEvents (s : State) (c : Nat) (x : Core) : List Event :=
  (x.ops.filter fun o => o.waiting && !o.suspended && decide (o.due ≤ s.cycle)).filterMap fun o =>
    (missingPage s c o).map fun v =>
      ⟨.mtlbWalk, .page (Fin.ofNat 2 (ownerOf (v * 4096))) (Fin.ofNat 40 (partOfCore s c)) (BitVec.ofNat 47 (v * 4096)) (opWrites o.kind)⟩

/-- Messages held for entries whose queue has a buffer, and packets that wait. -/
def messageEvents (s : State) : List Event :=
  (if s.net.packets = [] then [] else [⟨.packetMatch, .none⟩]) ++ (s.net.held.filter fun e => e.2 ≠ [] && Tbl.get [] s.net.posted e.1 ≠ []).map fun e => ⟨.messageDelivery, .ctx (Fin.ofNat 1024 e.1)⟩

/-! ## What falls due in translation, frames and windows -/

def pageEvents (s : State) : List Event :=
  (s.xl.pulls.filter fun x => decide (x.due ≤ s.cycle)).map fun x =>
    ⟨.pagePullComplete, .page (Fin.ofNat 2 x.die) (Fin.ofNat 40 x.part) (BitVec.ofNat 47 x.va) false⟩

def shootEvents (s : State) : List Event :=
  match s.xl.shoot with
  | none => []
  | some x => x.targets.filterMap fun t =>
    if t < 1000 then (if mayAck s x t then some ⟨.shootdownAck, .target t⟩ else none)
    else if x.sent.toNat + 100000 ≤ now s then some ⟨.shootdownFenceTimeout, .chip (BitVec.ofNat 9 (t - 1000))⟩ else none

def windowArg (i : Nat) : EvArg := .window (Fin.ofNat 2 (i / 64)) (Fin.ofNat 4 (i / 16)) (Fin.ofNat 16 i) 0

def xlatEvents (s : State) : List Event :=
  pageEvents s ++
  ((s.xl.scrub.filter fun e => e.2.2 ≠ 0 && decide (e.2.2 ≤ s.cycle)).map fun e => ⟨.scrubComplete, .dieVal (Fin.ofNat 2 e.1) (BitVec.ofNat 64 e.2.1)⟩) ++
  shootEvents s ++
  ((s.xl.invals.filter fun e => !opsLive s e.2.2).map fun e => ⟨.atsInvalidationCompletion, .tag e.2.1⟩) ++
  ((s.xl.l2change.filter fun e => decide (e.2.2.2 ≤ s.cycle)).map fun e => ⟨.l2srChangeDone, .l2 (Fin.ofNat 2 e.1) (Fin.ofNat 41 e.2.1) 0⟩) ++
  ((s.xl.discard.filter fun e => decide (e.2 ≤ s.cycle)).map fun e => ⟨.fmwDiscardDone, windowArg e.1⟩)

/-! ## What falls due on the platform -/

def platformEvents (s : State) : List Event :=
  (match unitDue s with
    | some i => [⟨.unitReady, .startUnit (Fin.ofNat 26 i)⟩]
    | none => []) ++
  ((s.plat.vfEnabled.filter fun e => decide (e.2 ≤ s.cycle) && !s.plat.vfReady.contains e.1 && !s.plat.flr.contains e.1).map fun e =>
    ⟨.vfEnable, .vf (Fin.ofNat 96 e.1)⟩) ++
  ((List.range 4).filterMap fun c => if cpSilent s c then some ⟨.watchdogExpiry, .cp (Fin.ofNat 4 c)⟩ else none) ++
  ((List.range 16).filterMap fun i => if monWarm s i && !s.plat.crossed.contains i then some ⟨.temperatureWarn, .monitor (Fin.ofNat 64 i)⟩ else none) ++
  (List.range 48).filterMap fun i =>
    let m : Fin 64 := Fin.ofNat 64 i
    if s.plat.sensed.contains i && monTrips s m && !tripStands s (Config.monitorDie m).val i then
      some ⟨.dieTrip, .monitor m⟩ else none

/-! ## What falls due on units and tasks -/

def unitIds : List RodUnit := (List.range 48).map (Fin.ofNat 48)

/-- A unit whose stop has something to do. -/
def stopWorks (s : State) (q : Nat) : Bool :=
  match (seqOf s q).stop with
  | some st => st.phase == .draining || (st.phase == .saving && !savesPass st.cause) ||
      (st.phase == .kept && (!savesPass st.cause || st.cause == .migration))
  | none => false

def stopEvents (s : State) : List Event := (unitIds.filter fun q => stopWorks s q.val).map fun q => ⟨.stopDrainComplete, .unit q⟩

/-- A number that is due. -/
def dueAt (s : State) (x : Option Nat) : Bool :=
  match x with
  | some c => decide (c ≤ s.cycle)
  | none => false

def releaseEvents (s : State) : List Event :=
  ((unitIds.filter fun q => syncDone s q.val).map fun q => ⟨.barrierRelease, .unit q⟩) ++
    ((unitIds.filter fun q => dueAt s (seqOf s q.val).release).map fun q => ⟨.superstepRelease, .unit q⟩)

def saveEvents (s : State) : List Event :=
  unitIds.flatMap fun q =>
    (if saveLate s q.val then [⟨.saveDrainTimeout, .unit q⟩] else []) ++
    (if saveDue s q.val then [⟨.saveComplete, .unit q⟩] else []) ++
    (if dueAt s ((seqOf s q.val).restoring.map (·.2)) then [⟨.restoreComplete, .unit q⟩] else [])

/-- The live tasks of the task table. -/
def tableTasks (s : State) : List (Nat × Task) := s.rk.tasks.filter fun e => decide (e.1 < 8192)

def taskEvents (s : State) : List Event :=
  let l := tableTasks s
  let on (i : Instr) (f : Nat → Task → Bool) : List Event := (l.filter fun e => f e.1 e.2).map fun e => ⟨i, .task (Fin.ofNat 8192 e.1)⟩
  on .mirrorMarginExpiry (fun _ t => taskLive t && t.copies.length == 2 && !t.margin && marginCome s t) ++
  on .chunkSend (fun _ t => (sendCopy s t).isSome) ++
  on .deadlineExpiry (fun _ t => taskLive t && t.cls == 0 && t.ending.isNone && decide ((t.deadline.getD (2^80)) ≤ now s)) ++
  ((unitIds.filter fun q => overBudget s q.val).map fun q => ⟨.budgetOverrun, .unit q⟩) ++
  on .completionSignalWrite (fun i t => bothLost t || mayEnd s i) ++
  ((List.range s.rk.sigQ.length).reverse.map fun i => ⟨.completionSignalWrite, .target i⟩) ++
  ((List.range 96).filterMap fun v => match cqTimer s v with
    | some c => if c ≤ now s then some ⟨.cqCoalesceTimer, .vf (Fin.ofNat 96 v)⟩ else none
    | none => none) ++
  on .taskReleaseTime (fun i _ => releaseDue s i)

def askEvents (s : State) : List Event :=
  (s.rk.asks.filter fun e => decide (e.2 ≤ s.cycle)).map fun e => ⟨.preemptRequestArrive, .unit (Fin.ofNat 48 e.1)⟩

/-! ## The request that the Reckoner takes (02 R21) -/

/-- The packet release first in order: ingress timestamp, then port. -/
def nextPacket (s : State) : Option (Nat × Word) :=
  firstBy (fun a b => decide (a.2.toNat < b.2.toNat) || (a.2 == b.2 && decide (bitsAt (matchField s a.1 0 1) 1 2 < bitsAt (matchField s b.1 0 1) 1 2))) s.rk.netQ

/-- When and where a device request was made: issue cycle, Rod-unit, bead. -/
def askKey (s : State) (e : Nat × Nat) : Nat × Nat × Nat :=
  let c := coreGet s e.1
  (((c.ops.find? fun o => o.id == e.2).map (·.at_)).getD 0, c.unit, c.bead)

def askBefore (a b : Nat × Nat × Nat) : Bool :=
  decide (a.1 < b.1) || (a.1 == b.1 && (decide (a.2.1 < b.2.1) || (a.2.1 == b.2.1 && decide (a.2.2 < b.2.2))))

/-- The command of a device request that still stands. -/
def askedCmd (s : State) (e : Nat × Nat) : Option Command :=
  match (coreGet s e.1).ops.find? fun o => o.id == e.2 with
  | some o => match o.kind with
    | .asked _ cmd => some cmd
    | _ => none
  | none => none

/-- The device request first in order, as the step that decides it. -/
def nextDevice (s : State) : Option Event :=
  match firstBy (fun a b => askBefore (askKey s a) (askKey s b)) (s.rk.devQ.filter fun e => (askedCmd s e).isSome) with
  | none => none
  | some e => (askedCmd s e).map fun cmd => requestEvent (.device (Fin.ofNat 208 e.1) e.2) (Fin.ofNat 40 (partOfCore s e.1)) cmd

/-- The firmware ring that has published an entry by now, the lowest command processor's first. -/
def nextFirmware (s : State) : Option Event :=
  ((List.range 4).filter fun c => !s.plat.cpReset.contains c).findSome? fun c => (s.inputs.find? fun e => decide (e.1 ≤ s.cycle) && match e.2 with
    | .event x => x == ⟨.firmwareRingEntry, .cp (Fin.ofNat 4 c)⟩
    | _ => false).map fun _ => ⟨.firmwareRingEntry, .cp (Fin.ofNat 4 c)⟩

/-- The VF whose turn it is. -/
def nextHost (s : State) : Option Nat := ((List.range 96).map fun i => (s.rk.rr + i) % 96).find? fun v => ringReady s v

/-- An input has been moved to the agenda. -/
def dropInput (s : State) (e : Event) : State :=
  match s.inputs.findIdx? fun x => decide (x.1 ≤ s.cycle) && (match x.2 with
      | .event y => y == e
      | _ => false) with
  | some i => { s with inputs := s.inputs.eraseIdx i }
  | none => s

/-- The request of this cycle: a decision that waited, else the network's, a device program's, firmware's, a host queue's. DESIGN CHOICE (log 76): none other is taken while one waits. -/
def requestEvents (s : State) : List Event × State :=
  match s.rk.busy with
  | some (e, _) => ([e], s)
  | none =>
    if !takesRequest s || !pfUsable s then ([], s)
    else match nextPacket s with
    | some (i, stamp) => ([⟨.networkRelease, .netRelease (Fin.ofNat 4096 i) stamp⟩], s)
    | none => match nextDevice s with
      | some e => ([e], s)
      | none => match nextFirmware s with
        | some e => ([e], dropInput s e)
        | none => match nextHost s with
          | some v => ([⟨.ringEntryRead, .vf (Fin.ofNat 96 v)⟩], s)
          | none => ([], s)

/-! ## The sequencers -/

def dispatchEvents (s : State) : List Event :=
  if (tableTasks s).isEmpty then []
  else (unitIds.filter fun q => !unitRuns s q.val && (chooseTask s q.val).isSome).map fun q => ⟨.passDispatch, .unit q⟩

/-- A unit's sequencer runs: a pass that is not stopped. -/
def seqRuns (s : State) (q : Nat) : Bool :=
  let u := seqOf s q
  u.run.isSome && (u.stop.isNone || (u.stop.map fun st => st.phase == .requested) == some true)

def fetchEvents (s : State) : List Event :=
  unitIds.flatMap fun q =>
    let u := seqOf s q.val
    if !seqRuns s q.val then []
    else (if dueAt s (u.lineDue.map (·.2)) then [⟨.fetchLineArrive, .unit q⟩] else []) ++ (if dueAt s u.copying then [⟨.dictionaryCopy, .unit q⟩] else [])

def endEvents (s : State) : List Event :=
  unitIds.flatMap fun q =>
    if !seqRuns s q.val then []
    else (coresOf s q.val).zipIdx.filterMap fun e =>
      let c := coreGet s e.1
      if c.ending then some ⟨.kernelEndRetire, .unitBead q (Fin.ofNat 8 e.2)⟩ else none

def issueEvents (s : State) : List Event :=
  unitIds.flatMap fun q =>
    if !seqRuns s q.val then [] else (if (seqOf s q.val).stall = 1 then [⟨.stallEnd, .unit q⟩] else []) ++ [⟨.bundleIssue, .unit q⟩]

/-! ## The cycle -/

/-- The events of the cycle that begins, in the order in which the model takes them (log 5). -/
def plan (s : State) : State :=
  let r := requestEvents s
  { r.2 with agenda :=
      stopEvents s ++ platformEvents s ++ (s.cores.flatMap fun e => coreEvents s e.1 e.2) ++ messageEvents s ++
        (s.cores.flatMap fun e => walkEvents s e.1 e.2).eraseDups ++ xlatEvents s ++ releaseEvents s ++ (s.cores.flatMap fun e => farEvents s e.1 e.2) ++
        saveEvents s ++ ((s.plat.flr.filter (flrQuiet s)).map fun v => ⟨.functionLevelResetEnd, .vf (Fin.ofNat 96 v)⟩) ++
        taskEvents s ++ askEvents s ++ r.1 ++ dispatchEvents s ++ fetchEvents s ++ endEvents s ++ issueEvents s }

/-- Operations that wait try again, and pages of host memory that nobody asks for any more are asked for again (12 R246, R258). -/
def retryWaiting (s : State) : State :=
  if s.cores.all fun e => e.2.ops.all fun o => !o.waiting then s
  else
    let s1 := retryAll s
    s1.cores.foldl (fun s e => e.2.ops.foldl (fun s o =>
      if o.waiting then askPages s (partOfCore s e.1) (opWrites o.kind) (spanPages (opSpans o.kind)) else s) s) s1

/-- Device time gains (2^33 + 2 adj)/3 units of 2^-32 ns a cycle, the division carried exactly (03 R39, R40); it starts with unit 3 (18 R365). -/
def tickTime (s : State) : State :=
  if s.plat.started < 4 then s
  else
    let n := ((2^33 : Int) + 2 * sextNat (pfGet s 0x10 4) 32).toNat + s.devRem
    { s with devTime := s.devTime + n / 3, devRem := n % 3 }

/-- The cycle counts for the pass's ticks: from dispatch on, stalls, freezes, a dictionary copy on a resume too, and the drain before a save among them (01 R12, 03 R54, 06 R117), until the pass is complete.
DESIGN CHOICE (log 46): the manual does not say whether the cycles in which a drained pass's slot is written, and those in which a slot is read back after the dispatch of a
resumed pass, count as suspended time. The model counts neither. -/
def tickCounts (u : Seq) : Bool :=
  u.run.isSome && (u.restoring.isNone || u.copying.isSome) && !u.complete && (match u.stop with
    | none => true
    | some st => st.phase == .requested || st.phase == .draining)

/-- What the end of a cycle settles on a unit: service records, arrivals, boundaries, a trapping unit's stop, and the pass's cycle count (15 R302, R303; 16 R317; 03 R54). -/
def endUnit (s : State) (q : Nat) : State :=
  if (seqOf s q).run.isNone then s
  else
    let s1 := noteBoundary (noteArrivals (postServices s q) q) q
    let s2 := match (seqOf s1 q).stop with
      | some st => if st.phase = .requested ∧ st.atOnce = true then beginDrain s1 q else s1
      | none => s1
    if tickCounts (seqOf s q) then modSeq s2 q fun u => { u with cycles := u.cycles + 1 } else s2

/-- What the end of a cycle settles for the Reckoner: boundaries that saved passes wait at, pre-emption decisions, migration stops, requests that cover a Rod whole (03 R51, 16 R333). -/
def endReckoner (s : State) : State :=
  let s1 := if (tableTasks s).isEmpty then s
    else (List.range 40).foldl (fun s p => if (partDyn s p).stopped then s else askPreempt s p) s
  let s2 := s1.rk.migStop.foldl noteMigStop (noteSaved s1)
  { s2 with rk := { s2.rk with joint := s2.rk.joint.filter fun n => requestOut s2 (2 * n) || requestOut s2 (2 * n + 1) } }

/-- The next cycle: the last one is settled, the clocks advance, and what falls due stands on the agenda. -/
def nextCycle (s : State) : State :=
  let s1 := retryWaiting (endReckoner ((List.range 48).foldl endUnit s))
  let s2 := (List.range 48).foldl saveStep { s1 with cycle := s1.cycle + 1 }
  plan (tickTime (if s2.cores.any fun e => e.2.counting ≠ [] then { s2 with cores := s2.cores.map fun e => (e.1, e.2.countDown s2.cycle) } else s2))

/-- Nothing stands on `issue` or the agenda: an input that has come takes effect, else the next cycle begins. -/
def onward (s : State) : State :=
  match dueInput s with
  | some e => takeInput { s with inputs := s.inputs.erase e } e.2
  | none => nextCycle s

end Sys2Proof.Machine
end

