-- ==== Sys2Proof/Machine/VectorArith.lean ====
section
/-! DEFINITION. The vector slots' arithmetic, compares, selection, logic, shifts and clamp (09 R176 to R182, R195; their J forms 10 R207, R208). -/

namespace Sys2Proof.Machine

open Sys2Proof

/-- A two-operand row: lane-wise with a type, or a jet of two groups when J is set. -/
def runVB (f : VB) (s : State) (lat jlat : Nat) (prod : Bool) (ff : RMode → Fmt → List Nat → FRes) (fi : Nat → List Nat → Nat)
    (jf : RMode → Nat → List Nat → List Nat → List FRes) : State :=
  let c := curCore s
  if f.j then
    jetSlot s [winName f.dst, winName f.a, winName f.b] prod fun s =>
      runJet s f.m (winName f.dst) jlat [readGroup c (winName f.a), readGroup c (winName f.b)] fun g =>
        jf (rndOf c) (ordOf c) (g.getD 0 []) (g.getD 1 [])
  else runLanes s f.m f.dst lat [readVec c f.a, readVec c f.b] (typed f.ty (ff (rndOf c)) fi)

/-- A coefficientwise jet rule of two groups. -/
def coefwise (ff : Fmt → List Nat → FRes) (k : Nat) (a b : List Nat) : List FRes :=
  (List.range (k + 1)).map fun n => ff fmt32 [nth a n, nth b n]

def faddE (mode : RMode) (f : Fmt) (l : List Nat) : FRes := fsum f mode (unpack f (a0 l)) (unpack f (a1 l))
def fsubE (mode : RMode) (f : Fmt) (l : List Nat) : FRes := fsum f mode (unpack f (a0 l)) (unpack f (a1 l)).negate
def fmulE (mode : RMode) (f : Fmt) (l : List Nat) : FRes := fmulR f mode (unpack f (a0 l)) (unpack f (a1 l))
def fmaE (sub : Bool) (mode : RMode) (f : Fmt) (l : List Nat) : FRes := ffma f mode sub (unpack f (a0 l)) (unpack f (a1 l)) (unpack f (a2 l))

def execVadd (f : VB) (s : State) : Out :=
  .next (runVB f s 3 3 false faddE (fun w l => (a0 l + a1 l) % 2^w) fun mode k a b => coefwise (faddE mode) k a b)

def execVsub (f : VB) (s : State) : Out :=
  .next (runVB f s 3 3 false fsubE (fun w l => (a0 l + 2^w - a1 l) % 2^w) fun mode k a b => coefwise (fsubE mode) k a b)

def execVmul (f : VB) (s : State) : Out :=
  .next (runVB f s 4 (4 + ordOf (curCore s)) true fmulE (fun w l => a0 l * a1 l % 2^w) fun mode k a b =>
    (List.range (k + 1)).map (jetProd mode false a b none))

/-- The fused forms read their destination at issue (09 R173). -/
def runFma (f : VB) (sub : Bool) (s : State) : State :=
  let c := curCore s
  if f.j then
    jetSlot s [winName f.dst, winName f.a, winName f.b] true fun s =>
      runJet s f.m (winName f.dst) (4 + ordOf c) [readGroup c (winName f.a), readGroup c (winName f.b), readGroup c (winName f.dst)] fun g =>
        (List.range (ordOf c + 1)).map (jetProd (rndOf c) sub (g.getD 0 []) (g.getD 1 []) (some (g.getD 2 [])))
  else runLanes s f.m f.dst 4 [readVec c f.a, readVec c f.b, readVec c f.dst] (typed f.ty (fmaE sub (rndOf c)) fun w l => (a0 l * a1 l + a2 l) % 2^w)

def execVfma (f : VB) (s : State) : Out := .next (runFma f false s)
def execVfnma (f : VB) (s : State) : Out := .next (runFma f true s)

/-- Signed minimum and maximum of patterns; .u32 is unsigned (09 R177). -/
def imin (uns : Bool) (w : Nat) (l : List Nat) : Nat :=
  if (if uns then decide (a1 l < a0 l) else decide (sextNat (a1 l) w < sextNat (a0 l) w)) then a1 l else a0 l
def imax (uns : Bool) (w : Nat) (l : List Nat) : Nat :=
  if (if uns then decide (a0 l < a1 l) else decide (sextNat (a0 l) w < sextNat (a1 l) w)) then a1 l else a0 l

def execVmin (f : VB) (s : State) : Out :=
  .next (runVB f s 3 3 false (fun _ fm l => fminmax false fm (a0 l) (a1 l)) (imin (f.ty == .u32)) fun _ k a b => jetMinmax false k a b)
def execVmax (f : VB) (s : State) : Out :=
  .next (runVB f s 3 3 false (fun _ fm l => fminmax true fm (a0 l) (a1 l)) (imax (f.ty == .u32)) fun _ k a b => jetMinmax true k a b)

/-- A one-operand row. -/
def runVU (f : VU) (s : State) (ff : Fmt → List Nat → FRes) (fi : Nat → List Nat → Nat) (jf : List Nat → List FRes) : State :=
  let c := curCore s
  if f.j then
    jetSlot s [winName f.dst, winName f.a] false fun s =>
      runJet s f.m (winName f.dst) 3 [readGroup c (winName f.a)] fun g => jf (g.getD 0 [])
  else runLanes s f.m f.dst 3 [readVec c f.a] (typed f.ty ff fi)

def execVabs (f : VU) (s : State) : Out :=
  .next (runVU f s (fun fm l => fabs fm (a0 l)) (fun w l => wrapInt w (sextNat (a0 l) w).natAbs) jetAbs)
def execVneg (f : VU) (s : State) : Out :=
  .next (runVU f s (fun fm l => fneg fm (a0 l)) (fun w l => (2^w - a0 l) % 2^w) fun g => g.map (fneg fmt32))

/-! ## Compares (09 R179) -/

/-- The relation on one element of a type, with its flags. -/
def relElem (op : Fin 4) (ty : VTy) (x y : Nat) : Bool × Flags :=
  match tyFmt ty with
  | some f => fcompare op f x y
  | none =>
    let w := tyWidth ty
    let u : Int := if ty = .u32 then x else sextNat x w
    let v : Int := if ty = .u32 then y else sextNat y w
    (match op with
    | 0 => decide (u = v)
    | 1 => decide (u ≠ v)
    | 2 => decide (u < v)
    | 3 => decide (u ≤ v), 0)

/-- A lane's bit: the relation holds for every element. -/
def relLane (op : Fin 4) (ty : VTy) (x y : Nat) : Bool × Flags :=
  let w := tyWidth ty
  (List.range (32 / w)).foldl (fun a e =>
    let r := relElem op ty (bitsAt x (w * e) w) (bitsAt y (w * e) w)
    (a.1 && r.1, a.2 ||| r.2)) (true, 0)

def runVCmp (op : Fin 4) (f : VCmp) (s : State) : State :=
  let c := curCore s
  if c.parked then s
  else
    let lanes := active c f.m
    let x := readVec c f.a
    let y := readVec c f.b
    let r := (List.range 128).map fun i => if bitOf lanes i then relLane op f.ty (laneNat x i) (laneNat y i) else (false, 0)
    let bits : LaneMask := BitVec.ofNat 128 (r.foldr (fun e a => (if e.1 then 1 else 0) + 2 * a) 0)
    let fl := r.foldl (fun a e => a ||| e.2) 0
    let s1 := emit s 3 (.mask f.md ⟨bits, x.t ||| y.t ||| laneGuardTaint c f.m⟩ lanes)
    if fl = 0 ∨ f.md.val = 0 then s1 else emit s1 3 (.flags fl)

def execVcmpeq (f : VCmp) (s : State) : Out := .next (runVCmp 0 f s)
def execVcmpne (f : VCmp) (s : State) : Out := .next (runVCmp 1 f s)
def execVcmplt (f : VCmp) (s : State) : Out := .next (runVCmp 2 f s)
def execVcmple (f : VCmp) (s : State) : Out := .next (runVCmp 3 f s)

/-! ## Selection and moves (09 R180) -/

/-- Every lane of every enabled cluster receives a where the selector has its bit, else b; a jet moves whole groups. -/
def execVsel (f : VB) (s : State) : Out :=
  let c := curCore s
  let sel := (c.getM f.m.val).v
  let t := laneGuardTaint c f.m
  .next (if f.j then
    jetSlot s [winName f.dst, winName f.a, winName f.b] false fun s =>
      let ga := readGroup c (winName f.a)
      let gb := readGroup c (winName f.b)
      emitJet s 3 (winName f.dst) (ordOf c + 1) (jetTaint [ga, gb] ||| t) (enabled c) fun i => raw (laneGroup (if bitOf sel i then ga else gb) i)
  else if c.parked then s
  else
    let x := readVec c f.a
    let y := readVec c f.b
    let r := eachLane (enabled c) fun i => (if bitOf sel i then laneNat x i else laneNat y i, 0)
    emitVec s 3 f.dst r.1 (x.t ||| y.t ||| t) (enabled c) 0)

def execVmov (f : VU) (s : State) : Out := .next (runVU f s (fun _ l => ⟨a0 l, 0⟩) (fun _ l => a0 l) raw)

/-! ## Bits (09 R181, R182) -/

def execVlogic (f : VLogicF) (s : State) : Out :=
  let c := curCore s
  let op : Lane → Lane → Lane := match f.op with
    | .and => fun x y => x &&& y
    | .or => fun x y => x ||| y
    | .xor => fun x y => x ^^^ y
    | .andn => fun x y => x &&& ~~~y
    | .not => fun x _ => ~~~x
  let srcs := match f.op with
    | .not => [readVec c f.a]
    | _ => [readVec c f.a, readVec c f.b]
  .next (runLanes s f.m f.dst 3 srcs fun l => ((op (BitVec.ofNat 32 (a0 l)) (BitVec.ofNat 32 (a1 l))).toNat, 0))

/-- The shift count: the low log2(w) bits of the matching element. -/
def shiftRow (f : VB) (s : State) (op : Nat → Nat → Nat → Nat) : State :=
  let c := curCore s
  runLanes s f.m f.dst 3 [readVec c f.a, readVec c f.b] (onElems (tyWidth f.ty) fun l =>
    (op (tyWidth f.ty) (a0 l) (a1 l % tyWidth f.ty), 0))

def execVshl (f : VB) (s : State) : Out := .next (shiftRow f s fun w x n => x * 2^n % 2^w)
def execVshr (f : VB) (s : State) : Out := .next (shiftRow f s fun _ x n => x / 2^n)
def execVsar (f : VB) (s : State) : Out := .next (shiftRow f s fun w x n => wrapInt w (sextNat x w / (2^n : Nat)))

/-! ## Clamp (09 R195) -/

/-- min(max(x, −|y|), |y|), with |y| at most 2^31 − 1. -/
def iclamp (l : List Nat) : Nat :=
  let b : Int := min (sextNat (a1 l) 32).natAbs (2^31 - 1 : Nat)
  wrapInt 32 (min (max (sextNat (a0 l) 32) (-b)) b)

def execVclamp (f : VB) (s : State) : Out :=
  let c := curCore s
  .next (runLanes s f.m f.dst 3 [readVec c f.a, readVec c f.b] (typed f.ty (fun fm l => fclamp fm (a0 l) (a1 l)) fun _ l => iclamp l))

end Sys2Proof.Machine
end

