-- ==== Sys2Proof/Machine/Dispatch.lean ====
section
/-! DEFINITION. Dispatch: one arm per instruction, one meaning per arm. -/

namespace Sys2Proof.Machine

open Sys2Proof

/-- What an instruction does. -/
def exec (i : Instr) (s : State) : Host.Outcome State Fault Refusal :=
  match i with
  | .nop => Sys2Proof.Machine.execNop s
  | .add f => Sys2Proof.Machine.execAdd f s
  | .sub f => Sys2Proof.Machine.execSub f s
  | .and f => Sys2Proof.Machine.execAnd f s
  | .or f => Sys2Proof.Machine.execOr f s
  | .xor f => Sys2Proof.Machine.execXor f s
  | .andn f => Sys2Proof.Machine.execAndn f s
  | .shl f => Sys2Proof.Machine.execShl f s
  | .shr f => Sys2Proof.Machine.execShr f s
  | .sar f => Sys2Proof.Machine.execSar f s
  | .rol f => Sys2Proof.Machine.execRol f s
  | .min f => Sys2Proof.Machine.execMin f s
  | .max f => Sys2Proof.Machine.execMax f s
  | .minu f => Sys2Proof.Machine.execMinu f s
  | .maxu f => Sys2Proof.Machine.execMaxu f s
  | .mul f => Sys2Proof.Machine.execMul f s
  | .mulh f => Sys2Proof.Machine.execMulh f s
  | .mulhu f => Sys2Proof.Machine.execMulhu f s
  | .div f => Sys2Proof.Machine.execDiv f s
  | .divu f => Sys2Proof.Machine.execDivu f s
  | .rem f => Sys2Proof.Machine.execRem f s
  | .remu f => Sys2Proof.Machine.execRemu f s
  | .sel f => Sys2Proof.Machine.execSel f s
  | .bfx f => Sys2Proof.Machine.execBfx f s
  | .bfxu f => Sys2Proof.Machine.execBfxu f s
  | .bfi f => Sys2Proof.Machine.execBfi f s
  | .clz f => Sys2Proof.Machine.execClz f s
  | .ctz f => Sys2Proof.Machine.execCtz f s
  | .popc f => Sys2Proof.Machine.execPopc f s
  | .brev f => Sys2Proof.Machine.execBrev f s
  | .cmpeq f => Sys2Proof.Machine.execCmpeq f s
  | .cmpne f => Sys2Proof.Machine.execCmpne f s
  | .cmplt f => Sys2Proof.Machine.execCmplt f s
  | .cmple f => Sys2Proof.Machine.execCmple f s
  | .cmpltu f => Sys2Proof.Machine.execCmpltu f s
  | .cmpleu f => Sys2Proof.Machine.execCmpleu f s
  | .cmpeqi f => Sys2Proof.Machine.execCmpeqi f s
  | .cmpnei f => Sys2Proof.Machine.execCmpnei f s
  | .cmplti f => Sys2Proof.Machine.execCmplti f s
  | .cmplei f => Sys2Proof.Machine.execCmplei f s
  | .cmpltui f => Sys2Proof.Machine.execCmpltui f s
  | .cmpleui f => Sys2Proof.Machine.execCmpleui f s
  | .pand f => Sys2Proof.Machine.execPand f s
  | .por f => Sys2Proof.Machine.execPor f s
  | .pxor f => Sys2Proof.Machine.execPxor f s
  | .addi f => Sys2Proof.Machine.execAddi f s
  | .subi f => Sys2Proof.Machine.execSubi f s
  | .andi f => Sys2Proof.Machine.execAndi f s
  | .ori f => Sys2Proof.Machine.execOri f s
  | .xori f => Sys2Proof.Machine.execXori f s
  | .shli f => Sys2Proof.Machine.execShli f s
  | .shri f => Sys2Proof.Machine.execShri f s
  | .sari f => Sys2Proof.Machine.execSari f s
  | .mini f => Sys2Proof.Machine.execMini f s
  | .maxi f => Sys2Proof.Machine.execMaxi f s
  | .muli f => Sys2Proof.Machine.execMuli f s
  | .movi f => Sys2Proof.Machine.execMovi f s
  | .movk f => Sys2Proof.Machine.execMovk f s
  | .mfs f => Sys2Proof.Machine.execMfs f s
  | .mts f => Sys2Proof.Machine.execMts f s
  | .widf f => Sys2Proof.Machine.execWidf f s
  | .br imm => Sys2Proof.Machine.execBr imm s
  | .brany f => Sys2Proof.Machine.execBrany f s
  | .brall f => Sys2Proof.Machine.execBrall f s
  | .brgz f => Sys2Proof.Machine.execBrgz f s
  | .brgnz f => Sys2Proof.Machine.execBrgnz f s
  | .call f => Sys2Proof.Machine.execCall f s
  | .ret g => Sys2Proof.Machine.execRet g s
  | .loop f => Sys2Proof.Machine.execLoop f s
  | .loopi f => Sys2Proof.Machine.execLoopi f s
  | .lbrk t => Sys2Proof.Machine.execLbrk t s
  | .lidx f => Sys2Proof.Machine.execLidx f s
  | .wait f => Sys2Proof.Machine.execWait f s
  | .schsel => Sys2Proof.Machine.execSchsel s
  | .endK => Sys2Proof.Machine.execEndK s
  | .trap f => Sys2Proof.Machine.execTrap f s
  | .brk g => Sys2Proof.Machine.execBrk g s
  | .svc f => Sys2Proof.Machine.execSvc f s
  | .savem f => Sys2Proof.Machine.execSavem f s
  | .slack f => Sys2Proof.Machine.execSlack f s
  | .vadd f => Sys2Proof.Machine.execVadd f s
  | .vsub f => Sys2Proof.Machine.execVsub f s
  | .vmul f => Sys2Proof.Machine.execVmul f s
  | .vfma f => Sys2Proof.Machine.execVfma f s
  | .vfnma f => Sys2Proof.Machine.execVfnma f s
  | .vmin f => Sys2Proof.Machine.execVmin f s
  | .vmax f => Sys2Proof.Machine.execVmax f s
  | .vabs f => Sys2Proof.Machine.execVabs f s
  | .vneg f => Sys2Proof.Machine.execVneg f s
  | .vcmpeq f => Sys2Proof.Machine.execVcmpeq f s
  | .vcmpne f => Sys2Proof.Machine.execVcmpne f s
  | .vcmplt f => Sys2Proof.Machine.execVcmplt f s
  | .vcmple f => Sys2Proof.Machine.execVcmple f s
  | .vsel f => Sys2Proof.Machine.execVsel f s
  | .vmov f => Sys2Proof.Machine.execVmov f s
  | .vlogic f => Sys2Proof.Machine.execVlogic f s
  | .vshl f => Sys2Proof.Machine.execVshl f s
  | .vshr f => Sys2Proof.Machine.execVshr f s
  | .vsar f => Sys2Proof.Machine.execVsar f s
  | .vcvt f => Sys2Proof.Machine.execVcvt f s
  | .vcvtn f => Sys2Proof.Machine.execVcvtn f s
  | .vcvtw f => Sys2Proof.Machine.execVcvtw f s
  | .vpack f => Sys2Proof.Machine.execVpack f s
  | .vunpkl f => Sys2Proof.Machine.execVunpkl f s
  | .vunpkh f => Sys2Proof.Machine.execVunpkh f s
  | .vbcst f => Sys2Proof.Machine.execVbcst f s
  | .vext f => Sys2Proof.Machine.execVext f s
  | .vins f => Sys2Proof.Machine.execVins f s
  | .vperm f => Sys2Proof.Machine.execVperm f s
  | .vxcopy f => Sys2Proof.Machine.execVxcopy f s
  | .vred f => Sys2Proof.Machine.execVred f s
  | .vxred f => Sys2Proof.Machine.execVxred f s
  | .vscan f => Sys2Proof.Machine.execVscan f s
  | .vhist f => Sys2Proof.Machine.execVhist f s
  | .vbmrg f => Sys2Proof.Machine.execVbmrg f s
  | .vbcx f => Sys2Proof.Machine.execVbcx f s
  | .vbcxx f => Sys2Proof.Machine.execVbcxx f s
  | .vargmax f => Sys2Proof.Machine.execVargmax f s
  | .vclamp f => Sys2Proof.Machine.execVclamp f s
  | .jseed f => Sys2Proof.Machine.execJseed f s
  | .jconst f => Sys2Proof.Machine.execJconst f s
  | .jget f => Sys2Proof.Machine.execJget f s
  | .jput f => Sys2Proof.Machine.execJput f s
  | .jder f => Sys2Proof.Machine.execJder f s
  | .jshift f => Sys2Proof.Machine.execJshift f s
  | .jscale f => Sys2Proof.Machine.execJscale f s
  | .jdiv f => Sys2Proof.Machine.execJdiv f s
  | .jpowi f => Sys2Proof.Machine.execJpowi f s
  | .jflagClear a => Sys2Proof.Machine.execJflagClear a s
  | .jflagGet d => Sys2Proof.Machine.execJflagGet d s
  | .fnop => Sys2Proof.Machine.execFnop s
  | .rcp f => Sys2Proof.Machine.execRcp f s
  | .rsq f => Sys2Proof.Machine.execRsq f s
  | .sqrt f => Sys2Proof.Machine.execSqrt f s
  | .exp2 f => Sys2Proof.Machine.execExp2 f s
  | .log2 f => Sys2Proof.Machine.execLog2 f s
  | .exp f => Sys2Proof.Machine.execExp f s
  | .log f => Sys2Proof.Machine.execLog f s
  | .sin f => Sys2Proof.Machine.execSin f s
  | .cos f => Sys2Proof.Machine.execCos f s
  | .tanh f => Sys2Proof.Machine.execTanh f s
  | .sigm f => Sys2Proof.Machine.execSigm f s
  | .rcpstep f => Sys2Proof.Machine.execRcpstep f s
  | .rsqstep f => Sys2Proof.Machine.execRsqstep f s
  | .jsincos f => Sys2Proof.Machine.execJsincos f s
  | .mnop => Sys2Proof.Machine.execMnop s
  | .ld8u f => Sys2Proof.Machine.execLd8u f s
  | .ld16u f => Sys2Proof.Machine.execLd16u f s
  | .ld32u f => Sys2Proof.Machine.execLd32u f s
  | .ld64 f => Sys2Proof.Machine.execLd64 f s
  | .ld8s f => Sys2Proof.Machine.execLd8s f s
  | .ld16s f => Sys2Proof.Machine.execLd16s f s
  | .ld32s f => Sys2Proof.Machine.execLd32s f s
  | .st8 f => Sys2Proof.Machine.execSt8 f s
  | .st16 f => Sys2Proof.Machine.execSt16 f s
  | .st32 f => Sys2Proof.Machine.execSt32 f s
  | .st64 f => Sys2Proof.Machine.execSt64 f s
  | .vld f => Sys2Proof.Machine.execVld f s
  | .vst f => Sys2Proof.Machine.execVst f s
  | .vgath f => Sys2Proof.Machine.execVgath f s
  | .vscat f => Sys2Proof.Machine.execVscat f s
  | .prf f => Sys2Proof.Machine.execPrf f s
  | .sbind f => Sys2Proof.Machine.execSbind f s
  | .sunbind z => Sys2Proof.Machine.execSunbind z s
  | .spos f => Sys2Proof.Machine.execSpos f s
  | .copy f => Sys2Proof.Machine.execCopy f s
  | .copyp f => Sys2Proof.Machine.execCopyp f s
  | .fill f => Sys2Proof.Machine.execFill f s
  | .cflush f => Sys2Proof.Machine.execCflush f s
  | .cinv f => Sys2Proof.Machine.execCinv f s
  | .cclean f => Sys2Proof.Machine.execCclean f s
  | .migr f => Sys2Proof.Machine.execMigr f s
  | .fenceX f => Sys2Proof.Machine.execFenceX f s
  | .fenceOwn f => Sys2Proof.Machine.execFenceOwn f s
  | .fenceFar f => Sys2Proof.Machine.execFenceFar f s
  | .drain f => Sys2Proof.Machine.execDrain f s
  | .ldacq f => Sys2Proof.Machine.execLdacq f s
  | .strel f => Sys2Proof.Machine.execStrel f s
  | .redaddI32 f => Sys2Proof.Machine.execRedaddI32 f s
  | .redaddq f => Sys2Proof.Machine.execRedaddq f s
  | .redminI32 f => Sys2Proof.Machine.execRedminI32 f s
  | .redmaxI32 f => Sys2Proof.Machine.execRedmaxI32 f s
  | .redand f => Sys2Proof.Machine.execRedand f s
  | .redor f => Sys2Proof.Machine.execRedor f s
  | .redxor f => Sys2Proof.Machine.execRedxor f s
  | .redaddF32 f => Sys2Proof.Machine.execRedaddF32 f s
  | .atomadd f => Sys2Proof.Machine.execAtomadd f s
  | .atomswp f => Sys2Proof.Machine.execAtomswp f s
  | .atomcas f => Sys2Proof.Machine.execAtomcas f s
  | .sync f => Sys2Proof.Machine.execSync f s
  | .barcfg f => Sys2Proof.Machine.execBarcfg f s
  | .sstep => Sys2Proof.Machine.execSstep s
  | .taintrdScalar f => Sys2Proof.Machine.execTaintrdScalar f s
  | .taintrdVector f => Sys2Proof.Machine.execTaintrdVector f s
  | .taintclrScalar f => Sys2Proof.Machine.execTaintclrScalar f s
  | .taintclrVector f => Sys2Proof.Machine.execTaintclrVector f s
  | .mcall f => Sys2Proof.Machine.execMcall f s
  | .mlat f => Sys2Proof.Machine.execMlat f s
  | .msetp f => Sys2Proof.Machine.execMsetp f s
  | .mparm f => Sys2Proof.Machine.execMparm f s
  | .accz f => Sys2Proof.Machine.execAccz f s
  | .accrd f => Sys2Proof.Machine.execAccrd f s
  | .accwr f => Sys2Proof.Machine.execAccwr f s
  | .norm f => Sys2Proof.Machine.execNorm f s
  | .nsend f => Sys2Proof.Machine.execNsend f s
  | .nrecv f => Sys2Proof.Machine.execNrecv f s
  | .ncoll f => Sys2Proof.Machine.execNcoll f s
  | .selacc f => Sys2Proof.Machine.execSelacc f s
  | .draw f => Sys2Proof.Machine.execDraw f s
  | .kvalloc f => Sys2Proof.Machine.execKvalloc f s
  | .kvfree f => Sys2Proof.Machine.execKvfree f s
  | .kvcount f => Sys2Proof.Machine.execKvcount f s
  | .tithe f => Sys2Proof.Machine.execTithe f s
  | .tmap f => Sys2Proof.Machine.execTmap f s
  | .tclrd f => Sys2Proof.Machine.execTclrd f s
  | .launch f => Sys2Proof.Machine.execLaunch f s
  | .release f => Sys2Proof.Machine.execRelease f s
  | .uend => Sys2Proof.Machine.execUend s
  | .ukstep f => Sys2Proof.Machine.execUkstep f s
  | .uaddi f => Sys2Proof.Machine.execUaddi f s
  | .uadd f => Sys2Proof.Machine.execUadd f s
  | .uloop f => Sys2Proof.Machine.execUloop f s
  | .unorm f => Sys2Proof.Machine.execUnorm f s
  | .uzero f => Sys2Proof.Machine.execUzero f s
  | .umovi f => Sys2Proof.Machine.execUmovi f s
  | .submit => Sys2Proof.Machine.execSubmit s
  | .releaseCommand => Sys2Proof.Machine.execReleaseCommand s
  | .nopCommand => Sys2Proof.Machine.execNopCommand s
  | .qcfgWrite => Sys2Proof.Machine.execQcfgWrite s
  | .qtailWrite => Sys2Proof.Machine.execQtailWrite s
  | .ringEntryRead => Sys2Proof.Machine.execRingEntryRead s
  | .firmwareRingEntry => Sys2Proof.Machine.execFirmwareRingEntry s
  | .packetMatch => Sys2Proof.Machine.execPacketMatch s
  | .networkRelease => Sys2Proof.Machine.execNetworkRelease s
  | .taskReleaseTime => Sys2Proof.Machine.execTaskReleaseTime s
  | .passDispatch => Sys2Proof.Machine.execPassDispatch s
  | .dictionaryCopy => Sys2Proof.Machine.execDictionaryCopy s
  | .preemptRequestArrive => Sys2Proof.Machine.execPreemptRequestArrive s
  | .deadlineExpiry => Sys2Proof.Machine.execDeadlineExpiry s
  | .budgetOverrun => Sys2Proof.Machine.execBudgetOverrun s
  | .mirrorMarginExpiry => Sys2Proof.Machine.execMirrorMarginExpiry s
  | .chunkSend => Sys2Proof.Machine.execChunkSend s
  | .tretireWrite => Sys2Proof.Machine.execTretireWrite s
  | .tadjWrite => Sys2Proof.Machine.execTadjWrite s
  | .tsetWrite => Sys2Proof.Machine.execTsetWrite s
  | .dlctlWrite => Sys2Proof.Machine.execDlctlWrite s
  | .taskRangeWrite => Sys2Proof.Machine.execTaskRangeWrite s
  | .rownWrite => Sys2Proof.Machine.execRownWrite s
  | .cplaceWrite => Sys2Proof.Machine.execCplaceWrite s
  | .l2srWrite => Sys2Proof.Machine.execL2srWrite s
  | .l2srChangeDone => Sys2Proof.Machine.execL2srChangeDone s
  | .cgplaceWrite => Sys2Proof.Machine.execCgplaceWrite s
  | .registerWrite => Sys2Proof.Machine.execRegisterWrite s
  | .bundleIssue => Sys2Proof.Machine.execBundleIssue s
  | .stallEnd => Sys2Proof.Machine.execStallEnd s
  | .fetchLineArrive => Sys2Proof.Machine.execFetchLineArrive s
  | .kernelEndRetire => Sys2Proof.Machine.execKernelEndRetire s
  | .completionSignalWrite => Sys2Proof.Machine.execCompletionSignalWrite s
  | .cqcfgWrite => Sys2Proof.Machine.execCqcfgWrite s
  | .cqCoalesceTimer => Sys2Proof.Machine.execCqCoalesceTimer s
  | .heldOpEnter => Sys2Proof.Machine.execHeldOpEnter s
  | .loadComplete => Sys2Proof.Machine.execLoadComplete s
  | .storePerform => Sys2Proof.Machine.execStorePerform s
  | .lineMerge => Sys2Proof.Machine.execLineMerge s
  | .atomicComplete => Sys2Proof.Machine.execAtomicComplete s
  | .migrComplete => Sys2Proof.Machine.execMigrComplete s
  | .streamDescriptorArrive => Sys2Proof.Machine.execStreamDescriptorArrive s
  | .streamElementArrive => Sys2Proof.Machine.execStreamElementArrive s
  | .streamElementStore => Sys2Proof.Machine.execStreamElementStore s
  | .copyCommandComplete => Sys2Proof.Machine.execCopyCommandComplete s
  | .engineOpComplete => Sys2Proof.Machine.execEngineOpComplete s
  | .enCommandComplete => Sys2Proof.Machine.execEnCommandComplete s
  | .nsendComplete => Sys2Proof.Machine.execNsendComplete s
  | .messageDelivery => Sys2Proof.Machine.execMessageDelivery s
  | .ncollContribution => Sys2Proof.Machine.execNcollContribution s
  | .ncollComplete => Sys2Proof.Machine.execNcollComplete s
  | .connectionAbandon => Sys2Proof.Machine.execConnectionAbandon s
  | .mtlbWalk => Sys2Proof.Machine.execMtlbWalk s
  | .pagePullComplete => Sys2Proof.Machine.execPagePullComplete s
  | .pagePullFail => Sys2Proof.Machine.execPagePullFail s
  | .atsTranslationCompletion => Sys2Proof.Machine.execAtsTranslationCompletion s
  | .prgResponse => Sys2Proof.Machine.execPrgResponse s
  | .atsInvalidationRequest => Sys2Proof.Machine.execAtsInvalidationRequest s
  | .atsInvalidationCompletion => Sys2Proof.Machine.execAtsInvalidationCompletion s
  | .peerRequest => Sys2Proof.Machine.execPeerRequest s
  | .shootdown => Sys2Proof.Machine.execShootdown s
  | .shootdownAck => Sys2Proof.Machine.execShootdownAck s
  | .shootdownFenceTimeout => Sys2Proof.Machine.execShootdownFenceTimeout s
  | .pfenceWrite => Sys2Proof.Machine.execPfenceWrite s
  | .frameAssign => Sys2Proof.Machine.execFrameAssign s
  | .frameRelease => Sys2Proof.Machine.execFrameRelease s
  | .frameScrub => Sys2Proof.Machine.execFrameScrub s
  | .frameQuery => Sys2Proof.Machine.execFrameQuery s
  | .scrubComplete => Sys2Proof.Machine.execScrubComplete s
  | .fmwctlWrite => Sys2Proof.Machine.execFmwctlWrite s
  | .fmwDiscardDone => Sys2Proof.Machine.execFmwDiscardDone s
  | .serialiseReceive => Sys2Proof.Machine.execSerialiseReceive s
  | .fenceFarDone => Sys2Proof.Machine.execFenceFarDone s
  | .barrierRelease => Sys2Proof.Machine.execBarrierRelease s
  | .superstepRelease => Sys2Proof.Machine.execSuperstepRelease s
  | .stopDrainComplete => Sys2Proof.Machine.execStopDrainComplete s
  | .saveComplete => Sys2Proof.Machine.execSaveComplete s
  | .saveDrainTimeout => Sys2Proof.Machine.execSaveDrainTimeout s
  | .restoreComplete => Sys2Proof.Machine.execRestoreComplete s
  | .tractResume => Sys2Proof.Machine.execTractResume s
  | .tractAbort => Sys2Proof.Machine.execTractAbort s
  | .functionLevelReset => Sys2Proof.Machine.execFunctionLevelReset s
  | .errorDetected => Sys2Proof.Machine.execErrorDetected s
  | .dieLost => Sys2Proof.Machine.execDieLost s
  | .migrationRound => Sys2Proof.Machine.execMigrationRound s
  | .migrationStop => Sys2Proof.Machine.execMigrationStop s
  | .migrationExport => Sys2Proof.Machine.execMigrationExport s
  | .migrationImport => Sys2Proof.Machine.execMigrationImport s
  | .migrationResume => Sys2Proof.Machine.execMigrationResume s
  | .svcbaseWrite => Sys2Proof.Machine.execSvcbaseWrite s
  | .kvpctlWrite => Sys2Proof.Machine.execKvpctlWrite s
  | .powerGood => Sys2Proof.Machine.execPowerGood s
  | .unitReady => Sys2Proof.Machine.execUnitReady s
  | .configRequest => Sys2Proof.Machine.execConfigRequest s
  | .vfEnable => Sys2Proof.Machine.execVfEnable s
  | .svncommitWrite => Sys2Proof.Machine.execSvncommitWrite s
  | .getVersion => Sys2Proof.Machine.execGetVersion s
  | .getCapabilities => Sys2Proof.Machine.execGetCapabilities s
  | .negotiateAlgorithms => Sys2Proof.Machine.execNegotiateAlgorithms s
  | .getDigests => Sys2Proof.Machine.execGetDigests s
  | .getCertificate => Sys2Proof.Machine.execGetCertificate s
  | .challenge => Sys2Proof.Machine.execChallenge s
  | .getMeasurements => Sys2Proof.Machine.execGetMeasurements s
  | .keyExchange => Sys2Proof.Machine.execKeyExchange s
  | .pskExchange => Sys2Proof.Machine.execPskExchange s
  | .cpHeartbeat => Sys2Proof.Machine.execCpHeartbeat s
  | .watchdogExpiry => Sys2Proof.Machine.execWatchdogExpiry s
  | .temperatureWarn => Sys2Proof.Machine.execTemperatureWarn s
  | .dieTrip => Sys2Proof.Machine.execDieTrip s
  | .tripclrWrite => Sys2Proof.Machine.execTripclrWrite s
  | .tempThresholdWrite => Sys2Proof.Machine.execTempThresholdWrite s
  | .peerShootdownReceive => Sys2Proof.Machine.execPeerShootdownReceive s
  | .functionLevelResetEnd => Sys2Proof.Machine.execFunctionLevelResetEnd s

end Sys2Proof.Machine
end

