-- ==== Sys2Proof/Machine/Step.lean ====
section
/-! DEFINITION. One step of the machine, and placing a word where the next step fetches. -/

namespace Sys2Proof.Machine

open Sys2Proof

/-- One step: the next slot word on `issue` is decoded and executed; else the next device event of this cycle runs; else the machine goes on to what comes next
(log 5). A word that does not decode traps its pass (05 R79). -/
def step (s : State) : Host.Outcome State Fault Refusal :=
  match s.issue with
  | w :: rest =>
    match decode w.kind w.word with
    | .ok i => exec i (takeWord s w rest)
    | .error _ => undecoded (takeWord s w rest)
  | [] =>
    match s.agenda with
    | e :: rest => exec e.instr (takeEvent s e rest)
    | [] => .next (onward s)

/-- `s` with an instruction of `nbits` bits standing as the next slot word of a pass that runs on Rod-unit 0 (log 1). -/
def State.withFetchWord (s : State) (nbits w : Nat) : State := placeWord s nbits w

end Sys2Proof.Machine
end

