-- ==== Sys2Proof/Safety.lean ====
section
/-! DEFINITION. What counts as a safe state and a safe step, in the terms the statements use. -/

namespace Sys2Proof

open Sys2Proof.Machine

/-- The byte memories keep their canonical form: addresses strictly rising, nothing listed that an unlisted address reads as. -/
def MemoryCanonical (s : State) : Prop := Memory.wf s.mem = true

/-- A step that answers a next state. -/
def StepsTo (s t : State) : Prop := step s = .next t

/-- What every instruction and every device event leaves true: memory stays canonical, the clock stands, nothing that has left the device is taken back,
and the count of the free values drawn does not fall. -/
structure Keeps (s t : State) : Prop where
  canonical : MemoryCanonical s → MemoryCanonical t
  cycle : t.cycle = s.cycle
  out : s.out <+: t.out
  freeCtr : s.freeCtr ≤ t.freeCtr


/-! ## Scalar rows (07) -/

namespace Spec

/-- A scalar form that writes one register: its guard, destination, sources, distance, and the value as a function of the sources' values. -/
structure ScalarRow where
  g : Guard
  dst : Fin 32
  srcs : List SOp
  lat : Nat
  val : List Word → Word

/-- Operands by position. -/
def w0 (l : List Word) : Word := l.getD 0 0
def w1 (l : List Word) : Word := l.getD 1 0

/-- Narrowing to 64 bits: arithmetic wraps modulo 2^64 (07 R119). -/
def wrap (i : Int) : Word := BitVec.ofInt 64 i

/-- The unsigned shift count y[5:0] (07 R121). -/
def cnt (y : Word) : Nat := y.toNat % 64

/-- What the operation names of R121 and R122 compute, on integers. -/
def addI (l : List Word) : Word := wrap ((w0 l).toInt + (w1 l).toInt)
def subI (l : List Word) : Word := wrap ((w0 l).toInt - (w1 l).toInt)
def mulI (l : List Word) : Word := wrap ((w0 l).toInt * (w1 l).toInt)
def andI (l : List Word) : Word := BitVec.ofNat 64 (Nat.land (w0 l).toNat (w1 l).toNat)
def orI (l : List Word) : Word := BitVec.ofNat 64 (Nat.lor (w0 l).toNat (w1 l).toNat)
def xorI (l : List Word) : Word := BitVec.ofNat 64 (Nat.xor (w0 l).toNat (w1 l).toNat)
def andnI (l : List Word) : Word := BitVec.ofNat 64 (Nat.land (w0 l).toNat (2^64 - 1 - (w1 l).toNat))
def shlI (l : List Word) : Word := BitVec.ofNat 64 ((w0 l).toNat * 2^cnt (w1 l))
def shrI (l : List Word) : Word := BitVec.ofNat 64 ((w0 l).toNat / 2^cnt (w1 l))
def sarI (l : List Word) : Word := wrap ((w0 l).toInt / (2^cnt (w1 l) : Nat))
def rolI (l : List Word) : Word := BitVec.ofNat 64 ((w0 l).toNat * 2^cnt (w1 l) + (w0 l).toNat / 2^(64 - cnt (w1 l)))
def minI (l : List Word) : Word := wrap (min (w0 l).toInt (w1 l).toInt)
def maxI (l : List Word) : Word := wrap (max (w0 l).toInt (w1 l).toInt)
def minuI (l : List Word) : Word := BitVec.ofNat 64 (min (w0 l).toNat (w1 l).toNat)
def maxuI (l : List Word) : Word := BitVec.ofNat 64 (max (w0 l).toNat (w1 l).toNat)
def mulhI (l : List Word) : Word := wrap ((w0 l).toInt * (w1 l).toInt / 2^64)
def mulhuI (l : List Word) : Word := BitVec.ofNat 64 ((w0 l).toNat * (w1 l).toNat / 2^64)
/-- Division truncates towards zero; by zero it gives all ones, and −2^63 by −1 wraps to −2^63 (07 R122). -/
def divI (l : List Word) : Word := if w1 l = 0 then wrap (-1) else wrap (Int.tdiv (w0 l).toInt (w1 l).toInt)
def divuI (l : List Word) : Word := if w1 l = 0 then wrap (-1) else BitVec.ofNat 64 ((w0 l).toNat / (w1 l).toNat)
/-- A remainder takes the sign of the dividend; by zero it is the dividend (07 R122). -/
def remI (l : List Word) : Word := if w1 l = 0 then w0 l else wrap (Int.tmod (w0 l).toInt (w1 l).toInt)
def remuI (l : List Word) : Word := if w1 l = 0 then w0 l else BitVec.ofNat 64 ((w0 l).toNat % (w1 l).toNat)

def sr (f : SR) (lat : Nat) (val : List Word → Word) : Option ScalarRow := some ⟨f.g, f.dst, [f.a, f.b], lat, val⟩

/-- The SR rows of 07 R121 and R122. -/
def srRow : Instr → Option ScalarRow
  | .add f => sr f 1 addI | .sub f => sr f 1 subI | .and f => sr f 1 andI | .or f => sr f 1 orI | .xor f => sr f 1 xorI
  | .andn f => sr f 1 andnI | .shl f => sr f 1 shlI | .shr f => sr f 1 shrI | .sar f => sr f 1 sarI | .rol f => sr f 1 rolI
  | .min f => sr f 1 minI | .max f => sr f 1 maxI | .minu f => sr f 1 minuI | .maxu f => sr f 1 maxuI
  | .mul f => sr f 3 mulI | .mulh f => sr f 3 mulhI | .mulhu f => sr f 3 mulhuI
  | .div f => sr f 14 divI | .divu f => sr f 14 divuI | .rem f => sr f 14 remI | .remu f => sr f 14 remuI
  | _ => none

/-- An SI form: the second operand is the immediate, sign-extended. -/
def si (f : SI) (lat : Nat) (val : List Word → Word) : Option ScalarRow :=
  some ⟨f.g, f.dst, [f.a], lat, fun l => val [w0 l, wrap f.imm.toInt]⟩
def ssh (f : SSh) (val : List Word → Word) : Option ScalarRow :=
  some ⟨f.g, f.dst, [f.a], 1, fun l => val [w0 l, BitVec.ofNat 64 f.sh.val]⟩

/-- The immediate rows of 07 R121 and the moves of R125: MOVK replaces half-word h of its destination. -/
def immRow : Instr → Option ScalarRow
  | .addi f => si f 1 addI | .subi f => si f 1 subI | .andi f => si f 1 andI | .ori f => si f 1 orI | .xori f => si f 1 xorI
  | .shli f => ssh f shlI | .shri f => ssh f shrI | .sari f => ssh f sarI
  | .mini f => si f 1 minI | .maxi f => si f 1 maxI | .muli f => si f 3 mulI
  | .movi f => some ⟨f.g, f.dst, [], 1, fun _ => wrap f.imm.toInt⟩
  | .movk f => some ⟨f.g, f.dst, [.n f.dst], 1, fun l =>
      BitVec.ofNat 64 ((w0 l).toNat % 2^(16 * f.h.val) + f.imm.toNat * 2^(16 * f.h.val) + (w0 l).toNat / 2^(16 * f.h.val + 16) * 2^(16 * f.h.val + 16))⟩
  | _ => none

/-- The number of positions below n at which a word has a 1. -/
def ones (x : Word) : Nat → Nat
  | 0 => 0
  | n + 1 => ones x n + (if x.getLsbD n then 1 else 0)

/-- The greatest position below n at which a word has a 1. -/
def topBit (x : Word) : Nat → Option Nat
  | 0 => none
  | n + 1 => if x.getLsbD n then some n else topBit x n

/-- The least position from 64 − n on at which a word has a 1. -/
def lowBit (x : Word) : Nat → Option Nat
  | 0 => none
  | n + 1 => if x.getLsbD (64 - (n + 1)) then some (64 - (n + 1)) else lowBit x n

/-- The bit fields and counts of 07 R123 and R124. -/
def bitRow : Instr → Option ScalarRow
  | .bfx f => some ⟨f.g, f.dst, [f.a], 1, fun l =>
      wrap (BitVec.ofNat (f.lenM1.val + 1) ((w0 l).toNat / 2^f.lsb.val)).toInt⟩
  | .bfxu f => some ⟨f.g, f.dst, [f.a], 1, fun l => BitVec.ofNat 64 ((w0 l).toNat / 2^f.lsb.val % 2^(f.lenM1.val + 1))⟩
  | .clz f => some ⟨f.g, f.dst, [f.a], 1, fun l => match topBit (w0 l) 64 with
      | some p => BitVec.ofNat 64 (63 - p)
      | none => 64⟩
  | .ctz f => some ⟨f.g, f.dst, [f.a], 1, fun l => match lowBit (w0 l) 64 with
      | some p => BitVec.ofNat 64 p
      | none => 64⟩
  | .popc f => some ⟨f.g, f.dst, [f.a], 1, fun l => BitVec.ofNat 64 (ones (w0 l) 64)⟩
  | .brev f => some ⟨f.g, f.dst, [f.a], 1, fun l => (w0 l).reverse⟩
  | _ => none

/-- Exactly what a scalar row does (07 R119): guarded in, one result put in flight at its distance and nothing else changed; guarded out, nothing. -/
def Delivers (i : Instr) (r : ScalarRow) : Prop :=
  ∀ s : State,
    (guardMet (curCore s) r.g = true →
      exec i s = .next (emit s r.lat (.scalar r.dst
        ⟨r.val (r.srcs.map fun o => (readS (curCore s) o).v), (r.srcs.any fun o => (readS (curCore s) o).t) || guardTaint (curCore s) r.g⟩))) ∧
    (guardMet (curCore s) r.g = false → exec i s = .next s)

/-- A compare or predicate form: guard, destination, sources, and the truth value with its taint. -/
structure PredRow where
  g : Guard
  dst : Fin 8
  val : Core → Bool
  taint : Core → Bool

def sp (f : SP) (rel : Word → Word → Bool) : Option PredRow :=
  some ⟨f.g, f.pd, fun c => rel (readS c f.a).v (readS c f.b).v, fun c => (readS c f.a).t || (readS c f.b).t⟩
def spi (f : SPI) (imm : Word) (rel : Word → Word → Bool) : Option PredRow :=
  some ⟨f.g, f.pd, fun c => rel (readS c f.a).v imm, fun c => (readS c f.a).t⟩
def sq (f : SQ) (op : Bool → Bool → Bool) : Option PredRow :=
  some ⟨f.g, f.pd, fun c => op (c.getP f.pa.val).v (c.getP f.pb.val).v, fun c => (c.getP f.pa.val).t || (c.getP f.pb.val).t⟩

/-- The compares of 07 R126 and the predicate logic of R127; the unsigned immediate compares zero-extend, the others sign-extend. -/
def predRow : Instr → Option PredRow
  | .cmpeq f => sp f fun x y => decide (x.toNat = y.toNat)
  | .cmpne f => sp f fun x y => decide (x.toNat ≠ y.toNat)
  | .cmplt f => sp f fun x y => decide (x.toInt < y.toInt)
  | .cmple f => sp f fun x y => decide (x.toInt ≤ y.toInt)
  | .cmpltu f => sp f fun x y => decide (x.toNat < y.toNat)
  | .cmpleu f => sp f fun x y => decide (x.toNat ≤ y.toNat)
  | .cmpeqi f => spi f (wrap f.imm.toInt) fun x y => decide (x.toNat = y.toNat)
  | .cmpnei f => spi f (wrap f.imm.toInt) fun x y => decide (x.toNat ≠ y.toNat)
  | .cmplti f => spi f (wrap f.imm.toInt) fun x y => decide (x.toInt < y.toInt)
  | .cmplei f => spi f (wrap f.imm.toInt) fun x y => decide (x.toInt ≤ y.toInt)
  | .cmpltui f => spi f (BitVec.ofNat 64 f.imm.toNat) fun x y => decide (x.toNat < y.toNat)
  | .cmpleui f => spi f (BitVec.ofNat 64 f.imm.toNat) fun x y => decide (x.toNat ≤ y.toNat)
  | .pand f => sq f fun x y => if x = false then false else y
  | .por f => sq f fun x y => if x = true then true else y
  | .pxor f => sq f fun x y => if x = true then !y else y
  | _ => none

/-- Exactly what a predicate row does: one predicate put in flight for the next bundle, or nothing. -/
def DeliversPred (i : Instr) (r : PredRow) : Prop :=
  ∀ s : State,
    (guardMet (curCore s) r.g = true →
      exec i s = .next (emit s 1 (.pred r.dst ⟨r.val (curCore s), r.taint (curCore s) || guardTaint (curCore s) r.g⟩))) ∧
    (guardMet (curCore s) r.g = false → exec i s = .next s)

/-- The number that MFS returns for a special register (06 R106, 07 R128). -/
def specialNat (s : State) : SReg → Nat
  | .flg => (curCore s).flg.toNat
  | .rnd => (curCore s).rnd.toNat
  | .jord => (curCore s).jord.toNat
  | .jflg => (jflgAll (curCore s)).toNat
  | .vwb => (curCore s).vwb.toNat
  | .cmk => (curCore s).cmk.toNat
  | .wid => (curCore s).wid.toNat
  | .bead => s.cur.bead.val
  | .rodid => s.cur.unit.val
  | .skew => ((curSeq s).run.map (·.skew)).getD 0 % 2^64
  | .pword => curPword s % 2^64
  | .svm => (curCore s).svm.toNat
  | .det => if (runTask s s.cur.unit).det then 1 else 0
  | .dl => (((curSeq s).run.map PassRun.level).getD 0).toNat
  | .occ => (curCore s).occ.toNat
  | .dlen => (curCore s).dlen.toNat
  | .tick => min (2^32 - 1) ((curSeq s).cycles / 256)
  | .time => now s
  | .slip => (curCore s).slip.toNat
  | .blc i => (Tbl.get (0 : BitVec 32) (curCore s).blc i.val).toNat
  | .mprec => (curCore s).mprec.toNat
  | .gang i => (readS (curCore s) (.g i)).v.toNat

/-- The taint that a special register lends to what MFS reads from it (15 R309). -/
def specialTaint (s : State) : SReg → Bool
  | .rodid | .tick | .time | .slip | .blc _ => true
  | .gang i => (readS (curCore s) (.g i)).t
  | _ => false

end Spec

/-! ## Sequencer control (07) -/

namespace Spec

/-- A position of the index stream plus a signed offset. -/
def target (s : State) (imm : BitVec 16) : Word := wrap ((s.cur.pos : Int) + imm.toInt)

/-- The unit's sequencer after a taken transfer: two delay bundles, then the target (07 R131). -/
def jumped (u : Seq) (w : Word) : Seq := { u with target := some (w, 2) }

/-- The test of a Rod-wide form on bead p: a parked bead has no say (07 R132). -/
def beadTest (s : State) (g : Guard) (p : Nat) : Bool :=
  ((coreGet s (coreOf s s.cur.unit p)).getP g.p.val).v != g.neg
def beadParked (s : State) (p : Nat) : Bool := (coreGet s (coreOf s s.cur.unit p)).parked

/-- ANY and ALL over the W beads of the pass (07 R134). -/
def anyBead (s : State) (g : Guard) : Prop := ∃ p < widthOf (curSeq s), beadParked s p = false ∧ beadTest s g p = true
def allBeads (s : State) (g : Guard) : Prop := ∀ p < widthOf (curSeq s), beadParked s p = false → beadTest s g p = true

/-- What a control form may change: its unit's sequencer, and results in flight that taint control. -/
structure ControlFrame (s t : State) : Prop where
  mem : t.mem = s.mem
  registers : t.pf = s.pf ∧ t.bar0 = s.bar0 ∧ t.rk = s.rk
  units : ∀ q, q ≠ s.cur.unit.val → seqOf t q = seqOf s q
  cores : ∀ c, ∃ l, coreGet t c = { coreGet s c with inflight := (coreGet s c).inflight ++ l } ∧ ∀ x ∈ l, x.kind = .control
  rest : t.issue = s.issue ∧ t.agenda = s.agenda ∧ t.cur = s.cur ∧ t.cycle = s.cycle

/-- Control runs on bead 0: the next state holds a sequencer given by a rule, and the frame. -/
def Controls (i : Instr) (s : State) (u : Seq) : Prop :=
  ∃ t, exec i s = .next t ∧ curSeq t = u ∧ ControlFrame s t

/-- The entry that a schedule selection takes (01 R10): the first that serves both values, else the last. -/
def schedule (occ dlen : Nat) (l : List (Nat × Nat × Nat)) (h : l ≠ []) : Nat :=
  ((l.dropLast.find? fun e => decide (occ ≤ e.2.1) && decide (dlen ≤ e.2.2)).getD (l.getLast h)).1

/-- The end of an iteration at the loop's last bundle (07 R136). -/
def closed (u : Seq) (pos : Nat) : List LoopEntry × Word :=
  match u.loops with
  | [] => ([], u.pc)
  | e :: r => if e.index.toNat + 1 < e.count.toNat then ({ e with stop := some pos, index := e.index + 1 } :: r, BitVec.ofNat 64 e.start) else (r, u.pc)

/-- A loop entry of a state that runs reach: the index stays below the count. -/
def loopsSound (u : Seq) : Prop := ∀ e ∈ u.loops, e.index.toNat < e.count.toNat

/-! ## Traps (16 R314 to R317) -/

/-- The running pass may trap for the first time: its launch runs, it is not mirrored, nothing holds or ends it, no stop stands. -/
structure MayTrap (s : State) (q : Nat) (r : PassRun) : Prop where
  unit : q < 48
  run : (seqOf s q).run = some r
  launch : (taskOf s r.task).launch = r.launch
  single : (taskOf s r.task).copies.length ≠ 2
  fresh : (taskOf s r.task).hold = none ∧ (taskOf s r.task).ending = none
  free : ∀ p, (seqOf s p).stop = none ∧ (seqOf s p).complete = false

/-- Some unit runs a pass of the launch. -/
def runsPass (s : State) (p : Nat) (r : PassRun) : Prop := ∃ r', (seqOf s p).run = some r' ∧ r'.task = r.task ∧ r'.launch = r.launch

/-- A trap has been taken: the trapping unit stops in this cycle with its code, detail, bead and position; every other pass of the launch is asked to stop;
units of other launches are untouched; and the Reckoner's action stands at the task (16 R314, R315, R317). -/
structure TrapTaken (s t : State) (q bead pos code detail : Nat) (r : PassRun) : Prop where
  own : (seqOf t q).stop = some
    { cause := if code = 0x0401 ∨ code = 0x0402 then .hold else .abort, phase := .requested, cycle := s.cycle,
      kind := if code = 0x0401 ∨ code = 0x0402 then 1 else 0, code := code, detail := detail, bead := bead, pos := pos, slot := none, due := 0, atOnce := true }
  others : ∀ p < 48, p ≠ q → runsPass s p r → ∃ st, (seqOf t p).stop = some st ∧ st.phase = .requested ∧ st.code = code ∧ st.detail = detail ∧ st.atOnce = false ∧
    st.cause = if code = 0x0401 ∨ code = 0x0402 then .hold else .abort
  untouched : ∀ p, ¬ runsPass s p r → seqOf t p = seqOf s p
  action : if code = 0x0401 ∨ code = 0x0402 then (taskOf t r.task).hold = some (code, detail, bead, pos) ∧ (taskOf t r.task).ending = none
    else (taskOf t r.task).ending = some (code, detail, false) ∧ (taskOf t r.task).hold = none
  otherTasks : ∀ k, k ≠ r.task → taskOf t k = taskOf s k
  clock : t.cycle = s.cycle ∧ t.cur = s.cur
  cores : t.cores = s.cores

/-! ## Service records (07 R143, R144) -/

/-- No VF logs dirty frames (16 R332), so that a store changes its own bytes alone. -/
def Unlogged (s : State) : Prop := ∀ v < 96, bitsAt (pfGet s (0xF3000 + 64 * v) 4) 8 1 = 0

/-- The service ring of a partition: base, head, tail and the count of lost records. -/
def svcBase (s : State) (p : Nat) : Nat := pfGet s (0xF0400 + 16 * p) 8
def svcHead (s : State) (p : Nat) : Nat := pfGet s (0xF0408 + 16 * p) 1
def svcTail (s : State) (p : Nat) : Nat := pfGet s (0xF0409 + 16 * p) 1
def svcLost (s : State) (p : Nat) : Nat := pfGet s (0xF040A + 16 * p) 4

end Spec

/-! ## Vector rows (09) -/

namespace Spec

/-- A lane-wise row: its mask, destination, distance and sources, its element width, and the value and flags of one element. -/
structure LaneRow where
  m : Fin 8
  dst : VOp
  lat : Nat
  srcs : List VOp
  w : Nat
  val : List Nat → Nat × Flags

/-- Element e of width w of lane l of an operand. -/
def element (s : State) (w l e : Nat) (o : VOp) : Nat := (laneOf (readVec (curCore s) o).v l).toNat / 2^(w * e) % 2^w

/-- Lane l is active: the bead is not parked, `%CMK` enables its cluster and the mask register has its bit (09 R171). -/
def lives (s : State) (m : Fin 8) (l : Nat) : Prop :=
  (curCore s).parked = false ∧ (curCore s).cmk.getLsbD (l / 16) = true ∧ ((curCore s).getM m.val).v.getLsbD l = true

/-- The taint that a lane of a lane-wise result takes: of that lane of every source, of its guard bit and of control (15 R309). -/
def laneTaint (s : State) (m : Fin 8) (srcs : List VOp) (l : Nat) : Bool :=
  (srcs.any fun o => (readVec (curCore s) o).t.getLsbD l) || ((curCore s).getM m.val).t.getLsbD l || (curCore s).ctlTaint

/-- What a lane-wise row does: one result and its flags put in flight; each element of each active lane is the rule's, and a flag is raised exactly when an element of an active lane raises it. -/
def DeliversLanes (i : Instr) (s : State) (r : LaneRow) : Prop :=
  ∃ v t lanes fl, exec i s = .next (emitVec s r.lat r.dst v t lanes fl) ∧
    (∀ l < 128, lanes.getLsbD l = true ↔ lives s r.m l) ∧
    (∀ l < 128, lives s r.m l → t.getLsbD l = laneTaint s r.m r.srcs l) ∧
    (∀ l < 128, lives s r.m l → ∀ e < 32 / r.w, (laneOf v l).toNat / 2^(r.w * e) % 2^r.w = (r.val (r.srcs.map (element s r.w l e))).1 % 2^r.w) ∧
    (∀ b < 7, fl.getLsbD b = true ↔ ∃ l < 128, lives s r.m l ∧ ∃ e < 32 / r.w, (r.val (r.srcs.map (element s r.w l e))).2.getLsbD b = true)

/-- The signed value of a w-bit pattern, and the pattern of an integer. -/
def sx (w x : Nat) : Int := (BitVec.ofNat w x).toInt
def pat (w : Nat) (i : Int) : Nat := (BitVec.ofInt w i).toNat

/-- A typed element rule: a floating-point rule with its flags, or an integer rule that raises none. -/
def byType (ty : VTy) (ff : Fmt → List Nat → FRes) (fi : Nat → Int → Int → Int → Nat) (uns : Bool) (l : List Nat) : Nat × Flags :=
  match tyFmt ty with
  | some f => ((ff f l).bits, (ff f l).fl)
  | none =>
    let rd (x : Nat) : Int := if uns && ty == .u32 then (x : Int) else sx (tyWidth ty) x
    (fi (tyWidth ty) (rd (a0 l)) (rd (a1 l)) (rd (a2 l)), 0)

def vbRow (f : VB) (lat : Nat) (fma : Bool) (val : List Nat → Nat × Flags) : Option LaneRow :=
  if f.j then none else some ⟨f.m, f.dst, lat, if fma then [f.a, f.b, f.dst] else [f.a, f.b], tyWidth f.ty, val⟩
def vuRow (f : VU) (val : List Nat → Nat × Flags) : Option LaneRow :=
  if f.j then none else some ⟨f.m, f.dst, 3, [f.a], tyWidth f.ty, val⟩

/-- The integer clamp of 09 R195: the bound is |y|, at most 2^31 − 1. -/
def clampI (x y : Int) : Int :=
  let b := min (max y (-y)) (2^31 - 1)
  if x < -b then -b else if b < x then b else x

/-- The lane-wise arithmetic of 09 R176 to R178, R181, R182 and R195, without J. -/
def arithRow (mode : RMode) : Instr → Option LaneRow
  | .vadd f => vbRow f 3 false (byType f.ty (faddE mode) (fun w x y _ => pat w (x + y)) false)
  | .vsub f => vbRow f 3 false (byType f.ty (fsubE mode) (fun w x y _ => pat w (x - y)) false)
  | .vmul f => vbRow f 4 false (byType f.ty (fmulE mode) (fun w x y _ => pat w (x * y)) false)
  | .vfma f => vbRow f 4 true (byType f.ty (fmaE false mode) (fun w x y z => pat w (x * y + z)) false)
  | .vfnma f => if f.ty.isFloat then vbRow f 4 true (byType f.ty (fmaE true mode) (fun _ _ _ _ => 0) false) else none
  | .vmin f => vbRow f 3 false (byType f.ty (fun fm l => fminmax false fm (a0 l) (a1 l)) (fun w x y _ => pat w (min x y)) true)
  | .vmax f => vbRow f 3 false (byType f.ty (fun fm l => fminmax true fm (a0 l) (a1 l)) (fun w x y _ => pat w (max x y)) true)
  | .vabs f => vuRow f (byType f.ty (fun fm l => fabs fm (a0 l)) (fun w x _ _ => pat w (max x (-x))) false)
  | .vneg f => vuRow f (byType f.ty (fun fm l => fneg fm (a0 l)) (fun w x _ _ => pat w (-x)) false)
  | .vmov f => if f.ty = .b32 then vuRow f (fun l => (a0 l, 0)) else none
  | .vlogic f =>
    let two := if f.op = .not then [f.a] else [f.a, f.b]
    some ⟨f.m, f.dst, 3, two, 1, fun l =>
      ((match f.op with
        | .and => a0 l * a1 l
        | .or => max (a0 l) (a1 l)
        | .xor => (a0 l + a1 l) % 2
        | .andn => a0 l * (1 - a1 l)
        | .not => 1 - a0 l), 0)⟩
  | .vshl f => if f.ty.isInt then vbRow f 3 false (fun l => (a0 l * 2^(a1 l % tyWidth f.ty), 0)) else none
  | .vshr f => if f.ty.isInt then vbRow f 3 false (fun l => (a0 l / 2^(a1 l % tyWidth f.ty), 0)) else none
  | .vsar f => if f.ty.isInt then vbRow f 3 false (fun l => (pat (tyWidth f.ty) (sx (tyWidth f.ty) (a0 l) / (2^(a1 l % tyWidth f.ty) : Nat)), 0)) else none
  | .vclamp f =>
    if f.ty.isFloat ∨ f.ty = .i32 then vbRow f 3 false (byType f.ty (fun fm l => fclamp fm (a0 l) (a1 l)) (fun w x y _ => pat w (clampI x y)) false) else none
  | _ => none

/-- Saturation of a signed n-bit number to w bits (09 R185). -/
def sat (w : Nat) (i : Int) : Int := if i < -(2^(w - 1) : Nat) then -(2^(w - 1) : Nat) else if ((2^(w - 1) : Nat) : Int) - 1 < i then (2^(w - 1) : Nat) - 1 else i

/-- A value packed from parts of w bits, the first lowest. -/
def parts (w : Nat) : List Nat → Nat
  | [] => 0
  | x :: r => x + 2^w * parts w r

/-- The lane rules of the conversions and packings (09 R183 to R186). -/
def convRow (mode : RMode) : Instr → Option LaneRow
  | .vcvt f => some ⟨f.m, f.dst, 3, [f.a], 32, fun l => cvtLane f.op mode (a0 l)⟩
  | .vcvtn f => some ⟨f.m, f.dst, 3, [f.a], 32, fun l => ((toNarrow f.fmt mode (unpack fmt32 (a0 l))).bits, (toNarrow f.fmt mode (unpack fmt32 (a0 l))).fl)⟩
  | .vcvtw f => some ⟨f.m, f.dst, 3, [f.a], 32, fun l => ((fconvert fmt32 mode (ofNarrow f.fmt (a0 l))).bits, (fconvert fmt32 mode (ofNarrow f.fmt (a0 l))).fl)⟩
  | .vpack f => some ⟨f.m, f.dst, 3, [f.a, f.b], 32, fun l =>
      match f.op with
      | .i32i16 => (parts 16 [pat 16 (sat 16 (sx 32 (a0 l))), pat 16 (sat 16 (sx 32 (a1 l)))], 0)
      | .i32i8 => (parts 8 [pat 8 (sat 8 (sx 32 (a0 l))), pat 8 (sat 8 (sx 32 (a1 l)))], 0)
      | .i16i8 => (parts 8 [pat 8 (sat 8 (sx 16 (a0 l))), pat 8 (sat 8 (sx 16 (a0 l / 2^16))), pat 8 (sat 8 (sx 16 (a1 l))), pat 8 (sat 8 (sx 16 (a1 l / 2^16)))], 0)
      | .f32bf16 => (parts 16 [(fconvert fmtB16 mode (unpack fmt32 (a0 l))).bits, (fconvert fmtB16 mode (unpack fmt32 (a1 l))).bits],
          (fconvert fmtB16 mode (unpack fmt32 (a0 l))).fl ||| (fconvert fmtB16 mode (unpack fmt32 (a1 l))).fl)
      | .f32f16 => (parts 16 [(fconvert fmtF16 mode (unpack fmt32 (a0 l))).bits, (fconvert fmtF16 mode (unpack fmt32 (a1 l))).bits],
          (fconvert fmtF16 mode (unpack fmt32 (a0 l))).fl ||| (fconvert fmtF16 mode (unpack fmt32 (a1 l))).fl)⟩
  | .vunpkl f => some ⟨f.m, f.dst, 3, [f.a], 32, fun l => widen f.op (a0 l % 2^16)⟩
  | .vunpkh f => some ⟨f.m, f.dst, 3, [f.a], 32, fun l => widen f.op (a0 l / 2^16)⟩
  | _ => none
where
  /-- The widened value of a 16-bit element. -/
  widen (op : UnpkOp) (h : Nat) : Nat × Flags :=
    match op with
    | .i16 => (pat 32 (sx 16 h), 0)
    | .i8 s => (pat 32 (sx 8 (if s then h / 2^8 else h)), 0)
    | .bf16 => ((fconvert fmt32 0 (unpack fmtB16 h)).bits, (fconvert fmt32 0 (unpack fmtB16 h)).fl)
    | .f16 => ((fconvert fmt32 0 (unpack fmtF16 h)).bits, (fconvert fmt32 0 (unpack fmtF16 h)).fl)

/-- The rounding mode of a special-function slot (05 R94). -/
def fRound (s : State) : FRnd → Nat
  | .dyn => (curCore s).rnd.toNat
  | .rne => 0
  | .rtz => 1

/-- Significand fraction bits that a level keeps (09 R196). -/
def kept (f : FForm) : Nat :=
  match f.ty with
  | .f32 => if f.level = 0 then 23 else if f.level = 1 then 16 else 11
  | .bf16 => 7
  | .f16 => 10

def fnRow (s : State) (f : FForm) (fn : Fn) (lat : Nat) : Option LaneRow :=
  if f.j then none
  else some ⟨f.m, f.dst, lat, [f.src], (fmtOfF f.ty).width, fun l =>
    ((evalFn fn (fmtOfF f.ty) (kept f) (fRound s f.rnd) (unpack (fmtOfF f.ty) (a0 l))).bits,
     (evalFn fn (fmtOfF f.ty) (kept f) (fRound s f.rnd) (unpack (fmtOfF f.ty) (a0 l))).fl)⟩

def stepRow (s : State) (f : FForm) (rsq : Bool) : Option LaneRow :=
  some ⟨f.m, f.dst, 4, [f.src, f.dst], (fmtOfF f.ty).width, fun l =>
    let r := stepFn rsq (fmtOfF f.ty) (fRound s f.rnd) (unpack (fmtOfF f.ty) (a0 l)) (unpack (fmtOfF f.ty) (a1 l)) (flushBits (fmtOfF f.ty) (a1 l))
    (r.bits, r.fl)⟩

/-- The special-function rows with their latencies (09 R196 to R200), without J. -/
def functionRow (s : State) : Instr → Option LaneRow
  | .rcp f => fnRow s f .rcp 6 | .rsq f => fnRow s f .rsq 6 | .sqrt f => fnRow s f .sqrt 6
  | .exp2 f => fnRow s f .exp2 8 | .log2 f => fnRow s f .log2 8 | .exp f => fnRow s f .exp 8 | .log f => fnRow s f .log 8
  | .sin f => fnRow s f .sin 10 | .cos f => fnRow s f .cos 10 | .tanh f => fnRow s f .tanh 12 | .sigm f => fnRow s f .sigm 12
  | .rcpstep f => stepRow s f false | .rsqstep f => stepRow s f true
  | _ => none

/-- A vector result in flight whose lanes hold given values with given taints, with the flags it raises. -/
def Lanes (i : Instr) (s : State) (lat : Nat) (dst : VOp) (on : Nat → Prop) (val : Nat → Nat) (tnt : Nat → Bool) (raised : Nat → Prop) : Prop :=
  ∃ v t lanes fl, exec i s = .next (emitVec s lat dst v t lanes fl) ∧ (∀ l < 128, lanes.getLsbD l = true ↔ on l) ∧
    (∀ l < 128, on l → (laneOf v l).toNat = val l ∧ t.getLsbD l = tnt l) ∧ ∀ b < 7, fl.getLsbD b = true ↔ raised b

/-- A form that raises nothing. -/
def noFlag (_ : Nat) : Prop := False

/-- Lane l of a vector operand, and of a window register. -/
def lane (s : State) (o : VOp) (l : Nat) : Nat := (laneOf (readVec (curCore s) o).v l).toNat
def ltaint (s : State) (o : VOp) (l : Nat) : Bool := (readVec (curCore s) o).t.getLsbD l

/-- A lane of an enabled cluster on a bead that is not parked. -/
def on (s : State) (l : Nat) : Prop := (curCore s).parked = false ∧ (curCore s).cmk.getLsbD (l / 16) = true

/-- The guard's share of a lane's taint. -/
def gtaint (s : State) (m : Fin 8) (l : Nat) : Bool := ((curCore s).getM m.val).t.getLsbD l || (curCore s).ctlTaint

/-- The relation of a compare on one element (09 R179). -/
def related (op : Fin 4) (ty : VTy) (x y : Nat) : Bool :=
  match tyFmt ty with
  | some f => (fcompare op f x y).1
  | none =>
    let u : Int := if ty = .u32 then (x : Int) else sx (tyWidth ty) x
    let v : Int := if ty = .u32 then (y : Int) else sx (tyWidth ty) y
    if op = 0 then decide (u = v) else if op = 1 then !decide (u = v) else if op = 2 then decide (u < v) else decide (u ≤ v)

/-- A compare: the relation and the form. -/
def cmpRow : Instr → Option (Fin 4 × VCmp)
  | .vcmpeq f => some (0, f) | .vcmpne f => some (1, f) | .vcmplt f => some (2, f) | .vcmple f => some (3, f)
  | _ => none

/-- Reductions (09 R189, R190): the value of the fixed tree of depth n whose leaves begin at leaf a. -/
def treeVal (op : RedOp) (mode : RMode) (leaf : Nat → Nat) : Nat → Nat → Nat
  | 0, a => leaf a
  | n + 1, a => (redApply op mode (treeVal op mode leaf n a) (treeVal op mode leaf n (a + 2^n))).1

/-- The flags of the operations that the tree performs, those of its leaves among them. -/
def treeFlags (op : RedOp) (mode : RMode) (leaf : Nat → Nat) (own : Nat → Flags) : Nat → Nat → Flags
  | 0, a => own a
  | n + 1, a => treeFlags op mode leaf own n a ||| treeFlags op mode leaf own n (a + 2^n) ||| (redApply op mode (treeVal op mode leaf n a) (treeVal op mode leaf n (a + 2^n))).2

/-- A compare of two elements raises NV: for a signalling NaN where it asks for equality, for any NaN where it asks for an order; never on integers (09 R179). -/
def comparesBadly (op : Fin 4) (ty : VTy) (x y : Nat) : Prop :=
  ∃ f, tyFmt ty = some f ∧ (if op.val < 2 then unpack f x = .nan true ∨ unpack f y = .nan true else (unpack f x).isNan = true ∨ (unpack f y).isNan = true)

/-- The inclusive prefix over the active lanes 16 c to 16 c + l. -/
def prefixVal (s : State) (f : VRedF) (c : Nat) : Nat → Nat
  | 0 => redIdent f.op
  | l + 1 =>
    if (active (curCore s) f.m).getLsbD (16 * c + l) then (redApply f.op (curCore s).rnd.toNat (prefixVal s f c l) (lane s f.a (16 * c + l))).1 else prefixVal s f c l

/-- The leaf of lane l: its value, or the identity when it is not active. -/
def leaf (s : State) (f : VRedF) (l : Nat) : Nat := if (active (curCore s) f.m).getLsbD l then lane s f.a l else redIdent f.op

/-- The key and value of a lane: of a delivered pair, and of the two registers of a bitonic form's source. -/
def pairOf (k v : VWord) (l : Nat) : Nat × Nat := ((laneOf k l).toNat, (laneOf v l).toNat)
def pairAt (s : State) (a : Nat) (l : Nat) : Nat × Nat := pairOf (readW (curCore s) a).v (readW (curCore s) (a + 1)).v l

/-- Flags put in flight beside a result, when there are any. -/
def raising (lat : Nat) (fl : Flags) (t : State) : State := if fl = 0 then t else emit t lat (.flags fl)

/-- Some lane of an operand is tainted, and some active lane of a window register. -/
def wholeTaint (s : State) (o : VOp) : Bool := (List.range 128).any fun l => ltaint s o l
def binTaint (s : State) (m : Fin 8) (r : Nat) : Bool := (List.range 128).any fun l => (active (curCore s) m).getLsbD l && ((curCore s).getW ((curCore s).vwb.toNat + r)).t.getLsbD l

/-- Some active lane that a reduction reads is tainted. -/
def readTaint (s : State) (m : Fin 8) (o : VOp) : Bool := (List.range 128).any fun l => (active (curCore s) m).getLsbD l && ltaint s o l

end Spec

/-! ## Floating-point rules (08 R148 to R158, 09 R177, R179, R189, R196 to R200) -/

namespace Spec

/-- The codes of a type by magnitude: fraction bits, exponent of the smallest normal value, fraction bits that a result keeps, greatest finite code, weight of the sign, and whether
what lies below the smallest normal value is read and delivered as a zero (08 R148, R151, R154). -/
structure Codes where
  frac : Nat
  emin : Int
  kept : Nat
  top : Nat
  sign : Nat
  flush : Bool

def floats : List Fmt := [fmt32, fmtB16, fmtF16]
def codes (f : Fmt) (p : Nat) : Codes :=
  if f = fmt32 then ⟨23, -126, p, 0x7F7FFFFF, 2^31, false⟩ else if f = fmtB16 then ⟨7, -126, p, 0x7F7F, 2^15, true⟩ else ⟨10, -14, p, 0x7BFF, 2^15, true⟩
def narrowCodes : NarrowFmt → Codes
  | .e4m3 => ⟨3, -6, 3, 0x7E, 2^7, false⟩ | .e5m2 => ⟨2, -14, 2, 0x7B, 2^7, false⟩ | .e3m2 => ⟨2, -2, 2, 0x1F, 2^5, false⟩
  | .e2m3 => ⟨3, 0, 3, 0x1F, 2^5, false⟩ | .e2m1 => ⟨1, 0, 1, 0x7, 2^3, false⟩

/-- The magnitude of a code; beyond the greatest finite one the exponent goes on without bound. -/
def Codes.mag (g : Codes) (c : Nat) : Ex :=
  if c < 2^g.frac then Ex.dyad c (g.emin - g.frac) else Ex.dyad (2^g.frac + c % 2^g.frac : Nat) (g.emin - g.frac + (c / 2^g.frac : Nat) - 1)
def Codes.signOf (g : Codes) (neg : Bool) : Nat := if neg then g.sign else 0
def Codes.infinity (g : Codes) (neg : Bool) : Nat := g.signOf neg + g.top + 1
/-- The canonical NaN of a type that has 2^(frac − 1) as its quiet bit (08 R148, R150). -/
def Codes.quiet (g : Codes) : Nat := g.top + 1 + 2^(g.frac - 1)

/-- A positive real number, by the exact values that do not lie above it and those that do not lie below it: an exact value, the square root of one, and one over that. -/
structure Magnitude where
  below : Ex → Prop
  above : Ex → Prop
def magOf (a : Ex) : Magnitude := ⟨fun m => m.n * a.d ≤ a.n * m.d, fun m => a.n * m.d ≤ m.n * a.d⟩
def sqrtOf (a : Ex) : Magnitude := ⟨fun m => m.n * m.n * a.d ≤ a.n * (m.d * m.d), fun m => a.n * (m.d * m.d) ≤ m.n * m.n * a.d⟩
def sqrtInvOf (a : Ex) : Magnitude := ⟨fun m => m.n * m.n * a.n ≤ a.d * (m.d * m.d), fun m => a.d * (m.d * m.d) ≤ m.n * m.n * a.n⟩

/-- The neighbour of a number, among the codes whose kept fraction is all, that a rounding mode names (08 R149): a number that is one of them itself; else to nearest with ties to the even one,
towards zero, down, or up. -/
def Neighbour (g : Codes) (y : Magnitude) (mode : RMode) (neg : Bool) (k : Nat) : Prop :=
  ∃ j lo hi, lo = j * 2^(g.frac - g.kept) ∧ hi = (j + 1) * 2^(g.frac - g.kept) ∧ y.below (g.mag lo) ∧ ¬ y.below (g.mag hi) ∧
    (y.above (g.mag lo) → k = lo) ∧
    (¬ y.above (g.mag lo) →
      (∀ mid : Ex, mid = ⟨(g.mag lo).n * (g.mag hi).d + (g.mag hi).n * (g.mag lo).d, 2 * (g.mag lo).d * (g.mag hi).d⟩ → mode = 0 →
        (¬ y.below mid → k = lo) ∧ (¬ y.above mid → k = hi) ∧ (y.below mid → y.above mid → k = if j % 2 = 0 then lo else hi)) ∧
      (mode = 1 → k = lo) ∧ (mode = 2 → k = if neg then hi else lo) ∧ (mode = 3 → k = if neg then lo else hi))

/-- A nonzero number is delivered (08 R151, R152): below the smallest normal value as a zero of its sign with UF and NX where the type flushes; else its neighbour, with NX where it differs, and UF
too where the number lies below the smallest normal value; what rounds beyond the greatest finite code as `ovf`, with OF and NX. -/
def Delivered (g : Codes) (y : Magnitude) (mode : RMode) (neg : Bool) (ovf : Nat) (r : FRes) : Prop :=
  (g.flush = true ∧ ¬ y.below (g.mag (2^g.frac)) → r = ⟨g.signOf neg, flUF ||| flNX⟩) ∧
  (g.flush = false ∨ y.below (g.mag (2^g.frac)) → ∃ k, Neighbour g y mode neg k ∧
    (g.top < k → r = ⟨ovf, flOF ||| flNX⟩) ∧
    (k ≤ g.top → r.bits = g.signOf neg + k ∧
      (y.below (g.mag k) ∧ y.above (g.mag k) → r.fl = 0) ∧
      (¬ (y.below (g.mag k) ∧ y.above (g.mag k)) → (y.below (g.mag (2^g.frac)) → r.fl = flNX) ∧ (¬ y.below (g.mag (2^g.frac)) → r.fl = flUF ||| flNX))))

/-- What an overflow delivers (08 R152): the infinity in RNE and where the mode rounds towards it, else the greatest value kept. -/
def overflow (g : Codes) (mode : RMode) (neg : Bool) : Nat :=
  g.signOf neg + if mode = 0 ∨ mode = 2 ∧ neg = true ∨ mode = 3 ∧ neg = false then g.top + 1 else g.top + 1 - 2^(g.frac - g.kept)

/-- An exact value is rounded once: a zero has the sign that the rule gives it. -/
def Rounds (g : Codes) (mode : RMode) (zneg : Bool) (x : Ex) (r : FRes) : Prop :=
  (x.n = 0 → r = ⟨g.signOf zneg, 0⟩) ∧
  (x.n ≠ 0 → Delivered g (magOf ⟨x.n.natAbs, x.d⟩) mode (decide (x.n < 0)) (overflow g mode (decide (x.n < 0))) r)

/-- The finite value that a code stands for, with its sign. -/
def stands (g : Codes) (b : Nat) (x : Ex) : Prop :=
  let m : Ex := if g.flush = true ∧ b % g.sign < 2^g.frac then ⟨0, 1⟩ else g.mag (b % g.sign)
  0 < x.d ∧ x.n * m.d = (if g.sign ≤ b then -m.n else m.n) * x.d

/-- A value that a code can be read as: its sign is that of a nonzero number. -/
def sound : FVal → Prop
  | .fin n x => 0 < x.d ∧ (x.n ≠ 0 → n = decide (x.n < 0))
  | _ => True

def isFin (x : FVal) : Prop := ∃ n e, x = .fin n e
def nvIf (p : Prop) [Decidable p] : Flags := if p then flNV else 0

/-- The product of an infinity and a zero; and an infinite product with an addend that is the opposite infinity (08 R150). -/
def zeroTimesInf (x y : FVal) : Bool := (x.isInf && y.isZero) || (x.isZero && y.isInf)
def opposed (x y z : FVal) (neg : Bool) : Bool := !x.isNan && !y.isNan && !zeroTimesInf x y && (x.isInf || y.isInf) && z == .inf (!neg)

/-- A code with the 16-bit subnormals read as zeros; its place in the order of numbers, −0 below +0, and with −0 equal to +0. -/
def flushed (f : Fmt) (b : Nat) : Nat :=
  let g := codes f f.frac
  if g.flush = true ∧ b % g.sign < 2^g.frac then (if g.sign ≤ b then g.sign else 0) else b
def place (f : Fmt) (b : Nat) : Int := let g := codes f f.frac; if g.sign ≤ flushed f b then -((flushed f b - g.sign : Nat) : Int) - 1 else flushed f b
def numPlace (f : Fmt) (b : Nat) : Int := let g := codes f f.frac; if g.sign ≤ flushed f b then -((flushed f b - g.sign : Nat) : Int) else flushed f b

/-- An exact value rounded to a whole number (08 R158). -/
def WholeOf (mode : RMode) (x : Ex) (q : Int) : Prop :=
  let lo := x.n / (x.d : Int)
  let rest := x.n % (x.d : Int)
  (rest = 0 → q = lo) ∧
  (rest ≠ 0 →
    (mode = 0 → q = if 2 * rest < x.d then lo else if (x.d : Int) < 2 * rest then lo + 1 else lo + lo % 2) ∧
    (mode = 1 → q = if x.n < 0 then lo + 1 else lo) ∧ (mode = 2 → q = lo) ∧ (mode = 3 → q = lo + 1))

def one (f : Fmt) : Nat := if f = fmt32 then 0x3F800000 else if f = fmtB16 then 0x3F80 else 0x3C00
def half (f : Fmt) : Nat := if f = fmt32 then 0x3F000000 else if f = fmtB16 then 0x3F00 else 0x3800

/-- The tables of special inputs (09 R198, R199), and the NaNs of R197. -/
def special (fn : Fn) (f : Fmt) (x : FVal) : Option FRes :=
  let g := codes f f.frac
  let bad : FRes := ⟨g.quiet, flNV⟩
  match x, fn with
  | .nan s, _ => some ⟨g.quiet, nvIf (s = true)⟩
  | .inf n, .rcp => some ⟨g.signOf n, 0⟩
  | .inf false, .rsq => some ⟨0, 0⟩
  | .inf true, .rsq | .inf true, .sqrt | .inf true, .log2 | .inf true, .log | .inf _, .sin | .inf _, .cos => some bad
  | .inf false, .sqrt | .inf false, .exp2 | .inf false, .exp | .inf false, .log2 | .inf false, .log => some ⟨g.infinity false, 0⟩
  | .inf true, .exp2 | .inf true, .exp | .inf true, .sigm => some ⟨0, 0⟩
  | .inf n, .tanh => some ⟨g.signOf n + one f, 0⟩
  | .inf false, .sigm => some ⟨one f, 0⟩
  | .fin n e, fn =>
    if e.n = 0 then some (match fn with
      | .rcp | .rsq => ⟨g.infinity n, flDZ⟩
      | .sqrt | .sin | .tanh => ⟨g.signOf n, 0⟩
      | .exp2 | .exp | .cos => ⟨one f, 0⟩
      | .log2 | .log => ⟨g.infinity true, flDZ⟩
      | .sigm => ⟨half f, 0⟩)
    else if n = true ∧ (fn = .rsq ∨ fn = .sqrt ∨ fn = .log2 ∨ fn = .log) then some bad
    else if e.n = e.d ∧ (fn = .log2 ∨ fn = .log) then some ⟨0, 0⟩
    else none

end Spec

/-! ## Jets (10) -/

namespace Spec

/-- The order of a jet slot, the group alignment A(k) (10 R202), and the occupancy O(k) of the series unit (10 R205). -/
def order (s : State) : Nat := (curCore s).jord.toNat
def alignment (k : Nat) : Nat := if k = 0 then 1 else if k = 1 then 2 else if k = 2 ∨ k = 3 then 4 else 8
def occupancy (k : Nat) : Nat := (k + 1) * (k + 2) / 2

/-- Coefficient n of the group at a base in a lane, and the jet in a lane. -/
def coef (s : State) (base l n : Nat) : Nat := lane s (.v (Fin.ofNat 232 (base + n))) l
def jet (s : State) (base l : Nat) : List Nat := (List.range (order s + 1)).map (coef s base l)

/-- A J-mode slot: its lanes, the registers its destination begins at and how many it writes, its latency, whether it is product-class, the group bases that are checked,
the registers it reads, and what the coefficients of one lane must be. -/
structure JetRow where
  m : Fin 8
  dst : Nat
  n : Nat
  lat : Nat
  prod : Bool
  bases : List Nat
  srcs : List Nat
  all : Bool
  ok : Nat → List FRes → Prop

/-- Every group is aligned, and a product-class operation finds the series unit free (10 R203, R205). -/
def jetReady (s : State) (r : JetRow) : Prop :=
  (∀ b ∈ r.bases, b % alignment (order s) = 0) ∧ (r.prod = true → (curCore s).series = 0)

/-- A product-class slot of order 1 or more takes the series unit (10 R205). -/
def occupied (s : State) (prod : Bool) : State :=
  if prod = true ∧ order s ≠ 0 then modCur s fun c => { c with series := occupancy (order s) } else s

/-- What a J-mode slot does when it is ready: every coefficient of every lane it writes is as the row says, in flight together; the taint is that of every register read. -/
def DeliversJet (i : Instr) (s : State) (r : JetRow) : Prop :=
  ∃ t lanes f, exec i s = .next (emitJet (occupied s r.prod) r.lat r.dst r.n t lanes f) ∧
    (∀ l < 128, lanes.getLsbD l = true ↔ if r.all then on s l else lives s r.m l) ∧
    ∀ l < 128, lanes.getLsbD l = true → r.ok l (f l) ∧
      t.getLsbD l = ((r.srcs.any fun v => (readW (curCore s) v).t.getLsbD l) || gtaint s r.m l)

/-- The registers of a group. -/
def groupAt (s : State) (base : Nat) : List Nat := (List.range (order s + 1)).map (base + ·)

/-- Coefficient j of one lane's result is given. -/
def coefs (n : Nat) (val : Nat → Nat → FRes) (l : Nat) (y : List FRes) : Prop := ∀ j < n, y.getD j ⟨0, 0⟩ = val l j

def jetVB (s : State) (f : VB) (lat : Nat) (val : Nat → Nat → FRes) : Option JetRow :=
  if f.j then some ⟨f.m, winName f.dst, order s + 1, lat, false, [winName f.dst, winName f.a, winName f.b], groupAt s (winName f.a) ++ groupAt s (winName f.b), false,
    coefs (order s + 1) val⟩ else none
def jetVU (s : State) (f : VU) (val : Nat → Nat → FRes) : Option JetRow :=
  if f.j then some ⟨f.m, winName f.dst, order s + 1, 3, false, [winName f.dst, winName f.a], groupAt s (winName f.a), false, coefs (order s + 1) val⟩ else none

/-- The lowest coefficient that is nonzero and no NaN. -/
def lead (x : List Nat) : Option Nat := x.find? fun b => !(v32 b).isNan && !(v32 b).isZero

/-- VABS of a jet (10 R207). -/
def absCoef (x : List Nat) (j : Nat) : FRes :=
  let b := x.getD j 0
  match lead x with
  | none => fabs fmt32 b
  | some a =>
    let y : FRes := if (v32 a).isNeg then fneg fmt32 b else ⟨b, 0⟩
    if j = 0 then ⟨y.bits % 2^31, y.fl⟩ else y

/-- The first coefficient at which two jets differ. -/
def firstDiff (k : Nat) (a b : List Nat) : Option Nat := (List.range (k + 1)).find? fun i => decide (sortKey (a.getD i 0) ≠ sortKey (b.getD i 0))

/-- VMIN and VMAX of jets (10 R207): the whole jet a or b, and NV for a signalling NaN among the coefficients examined. -/
def lexCoef (mx : Bool) (k : Nat) (a b : List Nat) (j : Nat) : FRes :=
  let na := (v32 (a.getD 0 0)).isNan
  let nb := (v32 (b.getD 0 0)).isNan
  let examined : Bool := j == 0 || (!na && !nb && match firstDiff k a b with
    | some i => decide (j ≤ i)
    | none => true)
  let fl := flagIf (examined && ((v32 (a.getD j 0)).isSig || (v32 (b.getD j 0)).isSig)) flNV
  let pick : List Nat :=
    if na then b else if nb then a
    else match firstDiff k a b with
      | none => a
      | some i => if (if mx then decide (sortKey (b.getD i 0) < sortKey (a.getD i 0)) else decide (sortKey (a.getD i 0) < sortKey (b.getD i 0))) then a else b
  ⟨if na && nb then fmt32.nan else pick.getD j 0, fl⟩

/-- The coefficientwise rows and the raw moves (10 R207, R210, R211). -/
def plainJet (s : State) : Instr → Option JetRow
  | .vadd f => jetVB s f 3 fun l j => fsum fmt32 (curCore s).rnd.toNat (v32 (coef s (winName f.a) l j)) (v32 (coef s (winName f.b) l j))
  | .vsub f => jetVB s f 3 fun l j => fsum fmt32 (curCore s).rnd.toNat (v32 (coef s (winName f.a) l j)) (v32 (coef s (winName f.b) l j)).negate
  | .vmin f => jetVB s f 3 fun l j => lexCoef false (order s) (jet s (winName f.a) l) (jet s (winName f.b) l) j
  | .vmax f => jetVB s f 3 fun l j => lexCoef true (order s) (jet s (winName f.a) l) (jet s (winName f.b) l) j
  | .vabs f => jetVU s f fun l j => absCoef (jet s (winName f.a) l) j
  | .vneg f => jetVU s f fun l j => fneg fmt32 (coef s (winName f.a) l j)
  | .vmov f => jetVU s f fun l j => ⟨coef s (winName f.a) l j, 0⟩
  | .vsel f => (jetVB s f 3 fun l j =>
      ⟨if ((curCore s).getM f.m.val).v.getLsbD l then coef s (winName f.a) l j else coef s (winName f.b) l j, 0⟩).map fun r => { r with all := true }
  | .jseed f => some ⟨f.m, f.dst.val, order s + 1, 3, false, [f.dst.val], [f.a.val, f.b.val], false,
      coefs (order s + 1) fun l j => ⟨if j = 0 then lane s (.v f.a) l else if j = 1 then lane s (.v f.b) l else 0, 0⟩⟩
  | .jconst f => some ⟨f.m, f.dst.val, order s + 1, 3, false, [f.dst.val], [f.a.val], false,
      coefs (order s + 1) fun l j => ⟨if j = 0 then lane s (.v f.a) l else 0, 0⟩⟩
  | .jget f => some ⟨f.m, f.dst.val, 1, 3, false, [f.a.val], groupAt s f.a.val, false,
      coefs 1 fun l _ => ⟨if f.i.val ≤ order s then coef s f.a.val l f.i.val else 0, 0⟩⟩
  | .jput f => if f.i.val ≤ order s then some ⟨f.m, f.dst.val + f.i.val, 1, 3, false, [f.dst.val], [f.a.val], false,
      coefs 1 fun l _ => ⟨lane s (.v f.a) l, 0⟩⟩ else none
  | .jshift f => some ⟨f.m, f.dst.val, order s + 1, 3, false, [f.dst.val, f.a.val], groupAt s f.a.val, false,
      coefs (order s + 1) fun l j =>
        ⟨if f.up then (if f.s.val ≤ j then coef s f.a.val l (j - f.s.val) else 0) else if j + f.s.val ≤ order s then coef s f.a.val l (j + f.s.val) else 0, 0⟩⟩
  | .jder f => some ⟨f.m, f.dst.val, order s + 1, 4 + order s, false, [f.dst.val, f.a.val], groupAt s f.a.val, false,
      coefs (order s + 1) fun l j => fmulR fmt32 (curCore s).rnd.toNat (v32 (coef s f.a.val l j)) (.fin false (if f.inv then ⟨1, factorial j⟩ else ⟨factorial j, 1⟩))⟩
  | .jscale f => some ⟨f.m, f.dst.val, order s + 1, 4 + order s, false, [f.dst.val, f.a.val], groupAt s f.a.val ++ [f.b.val], false,
      coefs (order s + 1) fun l j => fmulR fmt32 (curCore s).rnd.toNat (v32 (coef s f.a.val l j)) (hPow (v32 (lane s (.v f.b) l)) j)⟩
  | _ => none

/-! ### Series (10 R206, R208, R209) -/

/-- The terms of a product's coefficient n: a_i b_{n−i}, negated for VFNMA, with the addend c_n if there is one. -/
def prodTerms (sub : Bool) (a b : List Nat) (c : Option (List Nat)) (n : Nat) : List FVal :=
  ((List.range (n + 1)).map fun i => (if sub then FVal.negate else id) (fprod (v32 (a.getD i 0)) (v32 (b.getD (n - i) 0)))) ++
    match c with
    | some z => [v32 (z.getD n 0)]
    | none => []

/-- The coefficients of a product (10 R208, R209): the first is the scalar row's; one with an infinite term or a NaN takes the value that R150 gives the sum; every other is the exact sum rounded once. -/
def prodCoef (mode : RMode) (sub : Bool) (a b : List Nat) (c : Option (List Nat)) (n : Nat) (y : FRes) : Prop :=
  let ts := prodTerms sub a b c n
  let opposite : Bool := ts.any (· == .inf false) && ts.any (· == .inf true)
  let nan : Bool := ts.any FVal.isNan || opposite
  if n = 0 then y = match c with
    | none => fmulR fmt32 mode (v32 (a.getD 0 0)) (v32 (b.getD 0 0))
    | some z => ffma fmt32 mode sub (v32 (a.getD 0 0)) (v32 (b.getD 0 0)) (v32 (z.getD 0 0))
  else
    (nan = true → y = ⟨fmt32.nan, if ts.any FVal.isSig || opposite then flNV else 0⟩) ∧
    (∀ g, nan = false → .inf g ∈ ts → y = ⟨fmt32.inf g, 0⟩) ∧
    ((∀ t ∈ ts, t.isNan = false ∧ t.isInf = false) → y = roundTo fmt32 23 mode (mode == 2) (ts.foldl (fun x t => x.add t.ex) ⟨0, 1⟩))

def finite (b : Nat) : Prop := ∃ n x, v32 b = .fin n x
def finiteAll (l : List Nat) : Prop := ∀ b ∈ l, finite b

/-- Some input of index at most n is a quiet NaN and no input is a signalling one. -/
def quietUpTo (inputs : List (List Nat)) (n : Nat) : Prop :=
  (∃ l ∈ inputs, ∃ i ≤ n, (v32 (l.getD i 0)).isNan = true) ∧ ∀ l ∈ inputs, ∀ b ∈ l, (v32 b).isSig = false

/-- A recurrence (10 R209): it applies when its start and every input are finite and its divisor is not zero, and until a coefficient rounds to an infinity; coefficient n is then E_n of the earlier rounded ones,
rounded once; where it does not apply a coefficient is the canonical NaN, with NV but for a quiet NaN among the inputs of index at most n with no signalling one. -/
def Recurrence (k : Nat) (inputs : List (List Nat)) (divisorOk : Prop) (y0 : FRes) (term : List Nat → Nat → FRes) (y : List FRes) : Prop :=
  let applies := finite y0.bits ∧ divisorOk ∧ ∀ l ∈ inputs, finiteAll l
  y.length = k + 1 ∧ y.getD 0 ⟨0, 0⟩ = y0 ∧
    ∀ n, 1 ≤ n → n ≤ k →
      (applies → (∀ j < n, finite (y.getD j ⟨0, 0⟩).bits) → y.getD n ⟨0, 0⟩ = term (y.map FRes.bits) n) ∧
      (applies → (∃ j < n, ¬ finite (y.getD j ⟨0, 0⟩).bits) → y.getD n ⟨0, 0⟩ = ⟨fmt32.nan, flNV⟩) ∧
      (¬ applies → quietUpTo inputs n → y.getD n ⟨0, 0⟩ = ⟨fmt32.nan, 0⟩) ∧
      (¬ applies → ¬ quietUpTo inputs n → y.getD n ⟨0, 0⟩ = ⟨fmt32.nan, flNV⟩)

/-- The exact value of a finite coefficient. -/
def at_ (l : List Nat) (i : Nat) : Ex := (v32 (l.getD i 0)).ex

/-- Σ i x_i g(n − i) / n for i from 1 to n. -/
def weighted (x : List Nat) (n : Nat) (g : Nat → Ex) : Ex :=
  (sumEx (fun i => ((Ex.ofInt i).mul (at_ x i)).mul (g (n - i))) 1 n).mul ⟨1, n⟩

/-- E_n of the rational rows of 10 R208; none for EXP2 and LOG2, whose E_n has the factor ln 2, and for the pair SIN and COS. -/
def exactTerm (fn : Fn) (x y : List Nat) (n : Nat) : Option Ex :=
  match fn with
  | .rcp => some ((sumEx (fun i => (at_ x i).mul (at_ y (n - i))) 1 n).neg.div (at_ x 0))
  | .sqrt => some (((at_ x n).sub (sumEx (fun i => (at_ y i).mul (at_ y (n - i))) 1 (n - 1))).div ((Ex.ofInt 2).mul (at_ y 0)))
  | .rsq => some ((sumEx (fun i => (Ex.mul ⟨(i : Int) - 2 * n, 2⟩ (at_ x i)).mul (at_ y (n - i))) 1 n).div ((Ex.ofInt n).mul (at_ x 0)))
  | .exp => some (weighted x n (at_ y))
  | .log => some (((at_ x n).sub ((sumEx (fun i => ((Ex.ofInt i).mul (at_ y i)).mul (at_ x (n - i))) 1 (n - 1)).mul ⟨1, n⟩)).div (at_ x 0))
  | .tanh => some (weighted x n fun m => (if m = 0 then (⟨1, 1⟩ : Ex) else ⟨0, 1⟩).sub (sumEx (fun j => (at_ y j).mul (at_ y (m - j))) 0 (m + 1)))
  | .sigm => some (weighted x n fun m => (at_ y m).sub (sumEx (fun j => (at_ y j).mul (at_ y (m - j))) 0 (m + 1)))
  | _ => none

/-- Coefficient n of a function: the exact term rounded once, or for EXP2 and LOG2 the rounding of the multiple of ln 2. -/
def fnTerm (fn : Fn) (p : Nat) (mode : RMode) (x y : List Nat) (n : Nat) : FRes :=
  match exactTerm fn x y n with
  | some e => roundTo fmt32 p mode (mode == 2) e
  | none => fnCoef fn p mode x ((y.take n).map fun b => (v32 b).ex) n

/-- The divisor d of the recurrence is nonzero. -/
def fnDivisor (fn : Fn) (x : List Nat) (y0 : FRes) : Prop :=
  match fn with
  | .rcp | .rsq | .log | .log2 => (v32 (x.getD 0 0)).isZero = false
  | .sqrt => (v32 y0.bits).isZero = false
  | _ => True

/-- The sine and cosine groups (10 R208): both sequences run together, each rounded. -/
def TrigPair (p : Nat) (mode : RMode) (k : Nat) (x : List Nat) (ss cs : List FRes) : Prop :=
  let sv (j : Nat) : Ex := at_ (ss.map FRes.bits) j
  let cv (j : Nat) : Ex := at_ (cs.map FRes.bits) j
  let finiteTo (n : Nat) : Prop := ∀ j < n, finite (ss.getD j ⟨0, 0⟩).bits ∧ finite (cs.getD j ⟨0, 0⟩).bits
  ss.length = k + 1 ∧ cs.length = k + 1 ∧
  ss.getD 0 ⟨0, 0⟩ = evalFn .sin fmt32 p mode (v32 (x.getD 0 0)) ∧ cs.getD 0 ⟨0, 0⟩ = evalFn .cos fmt32 p mode (v32 (x.getD 0 0)) ∧
  ∀ n, 1 ≤ n → n ≤ k →
    (finiteAll x → finiteTo n → ss.getD n ⟨0, 0⟩ = roundTo fmt32 p mode (mode == 2) (weighted x n cv) ∧
      cs.getD n ⟨0, 0⟩ = roundTo fmt32 p mode (mode == 2) (weighted x n sv).neg) ∧
    (finiteAll x → ¬ finiteTo n → ss.getD n ⟨0, 0⟩ = ⟨fmt32.nan, flNV⟩ ∧ cs.getD n ⟨0, 0⟩ = ⟨fmt32.nan, flNV⟩) ∧
    (¬ finiteAll x → quietUpTo [x] n → ss.getD n ⟨0, 0⟩ = ⟨fmt32.nan, 0⟩ ∧ cs.getD n ⟨0, 0⟩ = ⟨fmt32.nan, 0⟩) ∧
    (¬ finiteAll x → ¬ quietUpTo [x] n → ss.getD n ⟨0, 0⟩ = ⟨fmt32.nan, flNV⟩ ∧ cs.getD n ⟨0, 0⟩ = ⟨fmt32.nan, flNV⟩)

/-- The rows of the special-function slot in J mode: function and latency at order 0. -/
def fnOf : Instr → Option (Fn × FForm × Nat)
  | .rcp f => some (.rcp, f, 6) | .rsq f => some (.rsq, f, 6) | .sqrt f => some (.sqrt, f, 6)
  | .exp2 f => some (.exp2, f, 8) | .log2 f => some (.log2, f, 8) | .exp f => some (.exp, f, 8) | .log f => some (.log, f, 8)
  | .sin f => some (.sin, f, 10) | .cos f => some (.cos, f, 10) | .tanh f => some (.tanh, f, 12) | .sigm f => some (.sigm, f, 12)
  | _ => none

/-- The product-class rows but JSINCOS. -/
def seriesJet (s : State) (i : Instr) : Option JetRow :=
  let k := order s
  let mode := (curCore s).rnd.toNat
  let prod (f : VB) (sub fma : Bool) : Option JetRow :=
    if f.j then some ⟨f.m, winName f.dst, k + 1, 4 + k, true, [winName f.dst, winName f.a, winName f.b],
      groupAt s (winName f.a) ++ groupAt s (winName f.b) ++ (if fma then groupAt s (winName f.dst) else []), false,
      fun l y => ∀ n ≤ k, prodCoef mode sub (jet s (winName f.a) l) (jet s (winName f.b) l) (if fma then some (jet s (winName f.dst) l) else none) n (y.getD n ⟨0, 0⟩)⟩
    else none
  match i with
  | .vmul f => prod f false false
  | .vfma f => prod f false true
  | .vfnma f => prod f true true
  | .jdiv f => some ⟨f.m, f.dst.val, k + 1, 6 + 2 * k, true, [f.dst.val, f.a.val, f.b.val], groupAt s f.a.val ++ groupAt s f.b.val, false, fun l y =>
      let a := jet s f.a.val l
      let b := jet s f.b.val l
      Recurrence k [a, b] ((v32 (b.getD 0 0)).isZero = false) (fdivR mode (v32 (a.getD 0 0)) (v32 (b.getD 0 0)))
        (fun y n => roundTo fmt32 23 mode (mode == 2) (((at_ a n).sub (sumEx (fun i => (at_ b i).mul (at_ y (n - i))) 1 n)).div (at_ b 0))) y⟩
  | .jpowi f => some ⟨f.m, f.dst.val, k + 1, 8 + 2 * k, true, [f.dst.val, f.a.val], groupAt s f.a.val, false, fun l y =>
      let x := jet s f.a.val l
      if f.p = 0 then ∀ j ≤ k, y.getD j ⟨0, 0⟩ = ⟨if j = 0 then 0x3F800000 else 0, 0⟩
      else Recurrence k [x] (0 < f.p.toInt ∨ (v32 (x.getD 0 0)).isZero = false) (powStart mode k x f.p.toInt)
        (fun _ n => roundTo fmt32 23 mode (mode == 2) (powCoef k x f.p.toInt n)) y⟩
  | _ => match fnOf i with
    | some (fn, f, l0) =>
      if f.j then some ⟨f.m, winName f.dst, k + 1, l0 + 2 * k, true, [winName f.dst, winName f.src], groupAt s (winName f.src), false, fun l y =>
        let x := jet s (winName f.src) l
        let p := kept f
        let y0 := evalFn fn fmt32 p (fRound s f.rnd) (v32 (x.getD 0 0))
        match fn with
        | .sin => ∃ cs, TrigPair p (fRound s f.rnd) k x y cs
        | .cos => ∃ ss, TrigPair p (fRound s f.rnd) k x ss y
        | _ => Recurrence k [x] (fnDivisor fn x y0) y0 (fnTerm fn p (fRound s f.rnd) x) y⟩
      else none
    | none => none

/-- Two exact values are the same number. -/
def sameEx (x y : Ex) : Prop := x.n * y.d = y.n * x.d

end Spec

/-! ## Memory and engine slots at issue (11 to 15, 17) -/

namespace Spec

/-- The virtual address of a memory operand: the base plus a signed, scaled displacement, modulo 2^64 (05 R95). -/
def ea (s : State) (base : SOp) (imm : BitVec 24) (scale : Nat) : Nat :=
  (((readS (curCore s) base).v.toInt + imm.toInt * scale) % (2^64 : Nat)).toNat

/-- The whole access lies in one owner's space and within what that owner has (11 R218, R219; 04 R73; 12 R245); `det` bars the host and the peers (15 R307). -/
def legalIn (det : Bool) (s : State) (va n : Nat) : Bool :=
  let last := va + n - 1
  decide (last < 2^64) && va / 2^60 == last / 2^60 &&
    match va / 2^60 with
    | 0 | 1 => decide (va % 2^60 < 2^47) && decide (last % 2^60 < 2^47)
    | 4 => decide (va % 2^60 < 2^57) && !det
    | 8 => decide (va % 2^60 < 2^57) && !det && decide (va / 2^48 % 512 ≠ pfGet s 0xE1020 2 % 512)
    | 15 => decide (va % 2^60 < 2^23) && decide (last % 2^60 < 131072 * (curPword s / 64 % 64))
    | _ => false

def legal (s : State) (va n : Nat) : Bool := legalIn (runTask s s.cur.unit).det s va n

/-- The code of the trap that an access raises at issue. -/
def refusesIn (det : Bool) (s : State) (store : Bool) (va n al : Nat) : Option Nat :=
  if va % al ≠ 0 then some 0x0207
  else if legalIn det s va n = false then some 0x0203
  else if va / 2^60 = 15 then none
  else match lookup s (curPart s) va store with
    | .fail code => some code
    | _ => none

/-- An access of the bead, which deterministic mode bars from the host and the peers; the descriptor read of a command on path CP or EN, which it does not (15 R307). -/
def refuses (s : State) (store : Bool) (va n al : Nat) : Option Nat := refusesIn (runTask s s.cur.unit).det s store va n al
def refusesDesc (s : State) (va al : Nat) : Option Nat := refusesIn false s false va 64 al

/-- A store of a tainted value into a guarded output region traps besides (15 R311). -/
def refusesStore (s : State) (va n al : Nat) (t : Bool) : Option Nat :=
  (refuses s true va n al).or (if outTrap s (curPart s) va n t then some 0x0403 else none)

/-- A slot guarded by a predicate, and what the predicate lends to the taint. -/
def met (s : State) (p : Fin 8) : Bool := !(curCore s).parked && ((curCore s).getP p.val).v
def ptaint (s : State) (p : Fin 8) : Bool := ((curCore s).getP p.val).t || (curCore s).ctlTaint
def btaint (s : State) (b : SOp) : Bool := (readS (curCore s) b).t

/-- The active lanes, ascending. -/
def lanesUp (s : State) (m : Fin 8) : List Nat :=
  (List.range 128).filter fun i => (curCore s).cmk.getLsbD (i / 16) && ((curCore s).getM m.val).v.getLsbD i

/-- How a slot issues: whether it is guarded in, the trap it takes with its detail, what it does before, the path, whether it is ordered with the stores of its bundle, the taint, the operation. -/
structure IssueRow where
  met : Bool
  trap : Option Nat
  detail : Nat
  pre : State → State
  path : Nat
  store : Bool
  taint : Bool
  kind : AKind

/-- Exactly what such a slot does. -/
def Issues (i : Instr) (s : State) (r : IssueRow) : Prop :=
  (r.met = false → exec i s = .next s) ∧
  (∀ code, r.met = true → r.trap = some code → exec i s = .next (trapHere s code r.detail)) ∧
  (r.met = true → r.trap = none → exec i s = .next (issueOp (r.pre s) r.path r.store r.taint r.kind))

def row (s : State) (met : Bool) (trap : Option Nat) (path : Nat) (store taint : Bool) (kind : AKind) : Option IssueRow :=
  some ⟨met, trap, s.cur.slot.val, id, path, store, taint, kind⟩

/-- Scalar loads and stores by width; a load of the scratchpad is synchronous and stands elsewhere. -/
def loadOf : Instr → Option (MLd × Nat × Bool)
  | .ld8u f => some (f, 1, false) | .ld16u f => some (f, 2, false) | .ld32u f => some (f, 4, false) | .ld64 f => some (f, 8, false)
  | .ld8s f => some (f, 1, true) | .ld16s f => some (f, 2, true) | .ld32s f => some (f, 4, true)
  | _ => none
def storeOf : Instr → Option (MSt × Nat)
  | .st8 f => some (f, 1) | .st16 f => some (f, 2) | .st32 f => some (f, 4) | .st64 f => some (f, 8)
  | _ => none
/-- Reductions: form and element bytes (14 R294). -/
def redOf : Instr → Option (Nat × Nat × MRed)
  | .redaddI32 f => some (0, 4, f) | .redaddq f => some (1, 8, f) | .redminI32 f => some (2, 4, f) | .redmaxI32 f => some (3, 4, f)
  | .redand f => some (4, 8, f) | .redor f => some (5, 8, f) | .redxor f => some (6, 8, f) | .redaddF32 f => some (7, 4, f)
  | _ => none
def atomOf : Instr → Option (Nat × MAtom)
  | .atomadd f => some (0, f) | .atomswp f => some (1, f) | .atomcas f => some (2, f)
  | _ => none

/-- The code of a read-modify-write: its address, then a format window whose translation is at hand (08 R166). -/
def refusesRmw (s : State) (va n : Nat) : Option Nat :=
  (refuses s true va n n).or
    (if va / 2^60 < 2 then
      match lookup s (curPart s) va true with
      | .ok pa => if (windowAt s pa).isSome then some 0x0206 else none
      | _ => none
    else none)

/-- The register after d, which ATOMCAS compares with (14 R297). -/
def nxt (d : Fin 32) : Fin 32 := Fin.ofNat 32 (d.val + 1)
def nval (s : State) (r : Fin 32) : TWord := readS (curCore s) (.n r)

/-- Scalar accesses, acquire and release, reductions and atomics (11 R222, R223; 14 R293, R294, R297). -/
def accessRow (s : State) (i : Instr) : Option IssueRow :=
  match loadOf i, storeOf i, redOf i, atomOf i, i with
  | some (f, n, sg), _, _, _, _ =>
    let va := ea s f.base f.imm n
    if va / 2^60 = 15 then none
    else row s (met s f.p) (refuses s false va n n) 0 false (ptaint s f.p || btaint s f.base) (.load f.dst va n sg false f.na)
  | _, some (f, n), _, _, _ =>
    let va := ea s f.base f.imm n
    let x := readS (curCore s) f.data
    let t := x.t || btaint s f.base || ptaint s f.p
    row s (met s f.p) (refusesStore s va n n t) 0 true false (.store va n ⟨x.v, t⟩ false)
  | _, _, some (opc, n, f), _, _ =>
    let va := ea s f.base f.imm n
    let x := readS (curCore s) f.data
    row s (met s f.p) ((refusesRmw s va n).or (if va / 2^60 = 4 ∧ 1 < opc then some 0x0203 else none)) 0 true false
      (.red opc va ⟨BitVec.ofNat 64 (x.v.toNat % 2^(8 * n)), x.t || btaint s f.base || ptaint s f.p⟩)
  | _, _, _, some (opc, f), _ =>
    let va := ea s f.base f.imm 8
    let t := ptaint s f.p || btaint s f.base || (nval s f.d).t || (opc == 2 && (nval s (nxt f.d)).t)
    row s (met s f.p) ((refusesRmw s va 8).or (if opc ≠ 0 ∧ outTrap s (curPart s) va 8 t = true then some 0x0403 else none)) 0 true t
      (.atomic opc f.d va (nval s f.d).v (if opc = 2 then (nval s (nxt f.d)).v else 0))
  | _, _, _, _, .ldacq f =>
    let va := ea s f.base f.imm 8
    row s (met s f.p) (refuses s false va 8 8) 0 false (ptaint s f.p || btaint s f.base) (.load f.d va 8 false true false)
  | _, _, _, _, .strel f =>
    let va := ea s f.base f.imm 8
    let x := readS (curCore s) f.data
    let t := x.t || btaint s f.base || ptaint s f.p
    row s (met s f.p) (refusesStore s va 8 8 t) 0 true false (.store va 8 ⟨x.v, t⟩ true)
  | _, _, _, _, _ => none

/-- The word addresses of a gather or scatter, with a taint a lane; each is checked in lane order (11 R225). -/
def refusesLanes (s : State) (store : Bool) (base : Nat) (l : List (Nat × Bool)) : Option Nat :=
  if base % 4 ≠ 0 then some 0x0207
  else if base / 2^60 ∉ [0, 1, 4, 8, 15] then some 0x0203
  else l.findSome? fun e =>
    if e.1 / 2^60 ≠ base / 2^60 then some 0x0203 else if store then refusesStore s e.1 4 4 e.2 else refuses s false e.1 4 4

/-- Vector accesses with an active lane, outside the scratchpad for the loads (11 R224, R225). -/
def vectorRow (s : State) (i : Instr) : Option IssueRow :=
  let up (m : Fin 8) := lanesUp s m
  let off (r : Nat) (l : Nat) (base : Nat) : Nat := (base + 4 * (laneOf (readW (curCore s) r).v l).toNat) % 2^64
  let tl (r : Nat) (l : Nat) : Bool := (readW (curCore s) r).t.getLsbD l
  match i with
  | .vld f =>
    let va := ea s f.base f.imm 512
    if va / 2^60 = 15 ∨ up f.m = [] then none
    else row s (!(curCore s).parked) (refuses s false va 512 64) 0 false false
      (.vload ((curCore s).vwb.toNat + f.reg.val) ((up f.m).map fun l => (l, va + 4 * l, gtaint s f.m l || btaint s f.base)) f.na)
  | .vst f =>
    let va := ea s f.base f.imm 512
    let l := (up f.m).map fun l => (va + 4 * l, laneOf (readW (curCore s) f.reg.val).v l, tl f.reg.val l || gtaint s f.m l || btaint s f.base)
    if up f.m = [] then none
    else row s (!(curCore s).parked)
      ((refuses s true va 512 64).or (if l.any fun e => outTrap s (curPart s) e.1 4 e.2.2 then some 0x0403 else none)) 0 true false (.vstore l)
  | .vgath f =>
    let base := ea s f.base f.imm 4
    let l := (up f.m).map fun l => (l, off f.reg.val l base, tl f.reg.val l || gtaint s f.m l || btaint s f.base)
    if base / 2^60 = 15 ∨ up f.m = [] then none
    else row s (!(curCore s).parked) (refusesLanes s false base (l.map fun e => (e.2.1, e.2.2))) 0 false false
      (.vload ((curCore s).vwb.toNat + f.reg.val) l f.na)
  | .vscat f =>
    let base := ea s f.base f.imm 4
    let l := (up f.m).map fun l =>
      (off (f.reg.val + 1) l base, laneOf (readW (curCore s) f.reg.val).v l, tl f.reg.val l || tl (f.reg.val + 1) l || gtaint s f.m l || btaint s f.base)
    if up f.m = [] then none
    else row s (!(curCore s).parked) (refusesLanes s true base (l.map fun e => (e.1, e.2.2))) 0 true false (.vstore l)
  | _ => none

/-- A form whose descriptor the command reads: network and EN commands (11 R240, 17 R341). -/
def descOf : Instr → Option (Nat × (Nat → AKind) × MDesc)
  | .nsend f => some (4, .net 0 f.dst, f) | .nrecv f => some (4, .net 1 f.dst, f) | .ncoll f => some (4, .net 2 f.dst, f)
  | .selacc f => some (5, .sel f.dst, f) | .tithe f => some (5, .tithe 0 f.dst, f) | .tmap f => some (5, .tithe 1 f.dst, f) | .tclrd f => some (5, .tithe 2 f.dst, f)
  | _ => none
/-- Copy commands: opcode and path; cache maintenance (11 R232, R236). -/
def copyOf : Instr → Option (Nat × Nat × MDesc)
  | .copy f => some (0, 1, f) | .copyp f => some (1, 3, f) | .fill f => some (2, 1, f)
  | _ => none
def cacheOf : Instr → Option (Nat × MAddr)
  | .cflush f => some (0, f) | .cinv f => some (1, f) | .cclean f => some (2, f)
  | _ => none

/-- The position that SPOS reads: the stream's, or the one that an SBIND or SUNBIND of the same bundle found (11 R230). -/
def positionAt (c : Core) (z : Nat) : Nat :=
  match (streamOf c z).prior with
  | some (b, n) => if b = c.bundleNo then n else (streamOf c z).position
  | none => (streamOf c z).position

/-- A stream bound to a descriptor that has not been read, or unbound. -/
def newStream (bound : Bool) (va : Nat) : Stream :=
  { bound := bound, addr := BitVec.ofNat 64 va, desc := none, position := 0, fetched := 0, stored := 0, slack := 0, region := 0, buf := [], reqs := [], code := 0, prior := none, waited := 0 }

/-- Commands, cache maintenance, migrations, FENCE.FAR, SBIND, LAUNCH, RELEASE, DRAW and the KV forms. -/
def commandRow (s : State) (i : Instr) : Option IssueRow :=
  let pairT (f : MPair) : Bool := (nval s f.base).t || (nval s (nxt f.base)).t || ptaint s f.p
  match descOf i, copyOf i, cacheOf i, i with
  | some (path, k, f), _, _, _ => row s (met s f.p) none path true (ptaint s f.p || btaint s f.base) (k (ea s f.base f.imm 64))
  | _, some (opc, path, f), _, _ =>
    let va := ea s f.base f.imm 64
    row s (met s f.p) (refusesDesc s va 1) path false (ptaint s f.p || btaint s f.base) (.copy opc f.dst va)
  | _, _, some (opc, f), _ =>
    let va := ea s f.base f.imm 64
    row s (met s f.p && decide (va / 2^60 ≠ 15)) (refuses s false (va / 64 * 64) 64 1) 7 false false (.cache opc va)
  | _, _, _, .migr f =>
    let va := ea s f.base f.imm 64
    let t := (readS (curCore s) f.t).v.toNat
    row s (met s f.p) (if 2^32 ≤ t then some 0x0302 else if 1 < va / 2^60 ∨ legal s va 1 = false then some 0x0203 else none) 7 false false (.migr va t)
  | _, _, _, .fenceFar f =>
    let va := ea s f.base f.imm 64
    row s (met s f.p) (if 1 < va / 2^60 then some 0x0203 else refuses s false va 1 1) 0 false false (.far va)
  | _, _, _, .sbind f =>
    let va := ea s f.base f.imm 64
    some ⟨!(curCore s).parked, refuses s false va 64 64, s.cur.slot.val, fun s => modCur s (rebind f.z (newStream true va)), 3, false, false, .bind f.z va false⟩
  | _, _, _, .launch f =>
    let va := ea s f.base f.imm 64
    row s (met s f.p) (if va % 64 = 0 then refusesDesc s va 64 else none) 5 true (ptaint s f.p || btaint s f.base) (.launch f.dst va)
  | _, _, _, .release f =>
    row s (met s f.p) none 5 true (ptaint s f.p || btaint s f.task) (.release f.dst (readS (curCore s) f.task).v (BitVec.ofNat 64 (now s + f.delay.toNat)))
  | _, _, _, .draw f =>
    row s (met s f.p) none 5 true (pairT f || btaint s (.g 14) || btaint s (.g 15))
      (.draw f.dst (nval s f.base).v (nval s (nxt f.base)).v (readS (curCore s) (.g 14)).v (readS (curCore s) (.g 15)).v)
  | _, _, _, .kvalloc f => row s (met s f.p) none 5 true (pairT f) (.kv 0 f.dst (nval s f.base).v (nval s (nxt f.base)).v)
  | _, _, _, .kvfree f => row s (met s f.p) none 5 true (pairT f) (.kv 1 f.dst (nval s f.base).v (nval s (nxt f.base)).v)
  | _, _, _, .kvcount f => row s (met s f.p) none 5 true true (.kv 2 f.dst 0 0)
  | _, _, _, _ => none

/-- The lanes of an accumulator form and the taint its guard and base lend. -/
def accLanes (s : State) (m : Fin 8) : LaneMask := active (curCore s) m
def accTaint (s : State) (m : Fin 8) (b : SOp) : LaneMask := laneGuardTaint (curCore s) m ||| spreadTaint (btaint s b)

/-- The trap of an accumulator form: 128 words from a byte offset that is a multiple of 64 (13 R278). -/
def accBad (s : State) (off : Nat) : Option Nat :=
  if off % 64 ≠ 0 then some 0x0207 else if 8 * 16384 * (curPword s / 2^12 % 32) < off + 1024 then some 0x0203 else none

/-- The plane budget that a call samples: `%MPREC`, lowered at a level above 0 for an elastic task (13 R263). -/
def budget (s : State) : Nat :=
  let m := (curCore s).mprec.toNat
  if (runTask s s.cur.unit).cls = 1 ∧ ((curSeq s).run.map PassRun.level).getD 0 ≠ 0 then max 1 (m - partField s (curPart s) 18 1) else m

/-- The engine's forms (13 R273 to R278). -/
def engineRow (s : State) : Instr → Option IssueRow
  | .mcall f => some ⟨met s f.p, if (routineAt (curCore s) f.routine.val).isNone then some 0x0305 else none, f.routine.val, id, 2, true, ptaint s f.p,
      .eng (.call f.routine.val (curCore s).mp (budget s))⟩
  | .mlat f =>
    let va := ea s f.base f.imm 64
    row s (met s f.p) (if va % 64 ≠ 0 then some 0x0207 else if legal s va 64 = true ∧ va / 2^60 = 15 then none else some 0x0203) 2 true (ptaint s f.p || btaint s f.base) (.eng (.mlat f.l (va % 2^60)))
  | .accz f =>
    let off := ea s f.base f.imm 64
    row s (!(curCore s).parked) (accBad s off) 2 true false (.eng (.accz off (accLanes s f.m) (accTaint s f.m f.base)))
  | .norm f =>
    let off := ea s f.base f.imm 64
    row s (!(curCore s).parked) (accBad s off) 2 true false (.eng (.norm off (accLanes s f.m) (accTaint s f.m f.base)))
  | .accrd f =>
    let off := ea s f.base f.imm 64
    row s (!(curCore s).parked) (accBad s off) 2 true false
      (.eng (.accrd ((curCore s).vwb.toNat + f.reg.val) off (accLanes s f.m) (accTaint s f.m f.base) (curCore s).rnd))
  | .accwr f =>
    let off := ea s f.base f.imm 64
    let x := readW (curCore s) f.reg.val
    row s (!(curCore s).parked) (accBad s off) 2 true false (.eng (.accwr off (accLanes s f.m) ⟨x.v, x.t ||| accTaint s f.m f.base⟩))
  | _ => none

/-! ### The scratchpad read at issue (11 R222) -/

/-- The little-endian number of n bytes of the scratchpad. -/
def scrNum (c : Core) (off : Nat) : Nat → Nat
  | 0 => 0
  | n + 1 => (Tbl.get (0 : Byte) c.scratch off).toNat + 256 * scrNum c (off + 1) n

/-- Some 32-byte sector that an access touches is tainted. -/
def scrT (c : Core) (off n : Nat) : Bool := (List.range n).any fun i => Tbl.get false c.scrTaint ((off + i) / 32)

/-- A counted load of the scratchpad: its counter stands one higher until the value lands, and the core notes which result that is (log 17). -/
def counted (s t : State) : State :=
  if s.cur.ctr.val = 0 then t
  else modCur t fun c => { c with ctrs := Tbl.set 0 c.ctrs s.cur.ctr.val (c.ctr s.cur.ctr.val + 1), counting := c.counting ++ [(s.cur.ctr.val, s.cycle + 6, c.bundleNo, s.cur.slot.val)] }

end Spec

/-! ## Microwords, landing, steps, memory -/

namespace Spec

/-- A microword has changed the running call to `k'` and no other state of the machine but the core's given fields; the engine is next due after `cost` cycles. -/
def Runs (i : Instr) (s : State) (k k' : Call) (cost : Nat) (acc : Tbl Word) (taint : Tbl Bool) : Prop :=
  exec i s = .next (modCur s fun c => { c with call := some k', acc := acc, accTaint := taint, ops := c.ops.map fun o => if o.id = k.op then { o with due := s.cycle + cost } else o })

def ureg (k : Call) (i : Fin 8) : Word := Tbl.get 0 k.regs i.val

/-- The call with a register written and its next word the following one. -/
def wrote (k : Call) (i : Fin 8) (x : Word) : Call := { k with regs := Tbl.set 0 k.regs i.val x, upc := k.upc + 1 }

/-- A call that faults: it is over, the engine's operations from it on are gone, and the bead traps at its next bundle with BAD_DESCRIPTOR's engine code and the word's number (13 R271). -/
structure CallFaults (s t : State) (k : Call) : Prop where
  call : (curCore t).call = none
  trap : (curCore t).failure = some (((curCore s).failure).getD (0x0305, k.upc))
  ops : (curCore t).ops = (curCore s).ops.filter fun o => !(opClass o.kind == 5 && decide (k.op ≤ o.id))
  flags : (curCore t).flg = (curCore s).flg ||| k.flags
  words : (curCore t).acc = (curCore s).acc
  mem : t.mem = s.mem

/-- A span of accumulator words that a microword names lies in storage (13 R271). -/
def spanOk (s : State) (off n : Nat) : Prop := n ≠ 0 ∧ off % 8 = 0 ∧ off + 8 * n ≤ 8 * (16384 * (curPword s / 2^12 % 32))

/-- The words of the rows of a K-step do not meet. -/
def rowsApart (w : Nat → Nat) (rows cols : Nat) : Prop := ∀ m < rows, ∀ m' < rows, m ≠ m' → w m + cols ≤ w m' ∨ w m' + cols ≤ w m

/-- The signed fields of an accumulator word (08 R167). -/
def wv (w : Word) : Int := (BitVec.ofNat 48 w.toNat).toInt
def we (w : Word) : Int := (BitVec.ofNat 16 (w.toNat / 2^48)).toInt

/-- The taint that the guard and control lend to the words of a call (15 R309). -/
def callTaints (c : Core) (k : Call) : Bool := c.ops.any fun o => o.id == k.op && o.taint

/-- Element k of a tile in the scratchpad: plane j holds bit w − 1 − j of its two's-complement mantissa (11 R234); and its value in the first p planes (13 R263). -/
def tileElem (c : Core) (off w k : Nat) : Int :=
  (BitVec.ofNat w ((List.range w).map fun j => if (Tbl.get (0 : Byte) c.scratch (off + 32 * j + k / 8)).getLsbD (k % 8) then 2^(w - 1 - j) else 0).sum).toInt
def truncated (a : Int) (w p : Nat) : Int := a - a % (2^(w - p) : Nat)

/-- The scale of block b of a tile: the signed halves of the word behind the planes (11 R234). -/
def scaleOf (c : Core) (off w b : Nat) : Int × Int :=
  ((BitVec.ofNat 16 (scrNum c (off + 32 * w + 4 * b) 2)).toInt, (BitVec.ofNat 16 (scrNum c (off + 32 * w + 4 * b + 2) 2)).toInt)

/-- Term i of V(m, n), and the exact sum of the 256 (13 R265). -/
def dotTerm (c : Core) (k : KCtl) (p a : Nat) (l : OpLatch) (col i : Nat) : Ex :=
  Ex.dyad (truncated (tileElem c a k.wa i) k.wa p * (scaleOf c a k.wa (i / k.blka)).1 * Tbl.get 0 l.mant (256 * col + i) *
      (Tbl.get (0, 0) l.scale (col * (256 / l.blk) + i / l.blk)).1)
    ((scaleOf c a k.wa (i / k.blka)).2 + (Tbl.get (0, 0) l.scale (col * (256 / l.blk) + i / l.blk)).2)
def dot (c : Core) (k : KCtl) (p a : Nat) (l : OpLatch) (col : Nat) : Ex := (List.range 256).foldl (fun s i => s.add (dotTerm c k p a l col i)) ⟨0, 1⟩

/-- `lg` is floor(log2 |x|) + 1 of a nonzero exact value, and `q` the integer nearest to one, a tie going to the even (08 R169, 13 R266). -/
def isLog (x : Ex) (lg : Int) : Prop :=
  x.d * 2^(lg - 1).toNat ≤ x.n.natAbs * 2^(1 - lg).toNat ∧ x.n.natAbs * 2^(-lg).toNat < x.d * 2^lg.toNat
def nearest (y : Ex) (q : Int) : Prop := 2 * (q * y.d - y.n).natAbs ≤ y.d ∧ (2 * (q * y.d - y.n).natAbs = y.d → q % 2 = 0)

/-- A normal word (08 R168). -/
def normal (v : Int) : Prop := v = 0 ∨ v = -(2^39) ∨ (2^38 ≤ v.natAbs ∧ v.natAbs < 2^39)

/-- What one result does to a core when it lands (06 R102, R103, R106 to R111, 09 R174, 10 R204, R212, 15 R305). -/
def landed (c : Core) (slot : Fin 8) : LandKind → Core
  | .scalar r x => { c with n := (if r.val = 0 then c.n else Tbl.set ⟨0, false⟩ c.n r.val x), q := (x :: c.q).take 16 }
  | .reg r x => { c with n := (if r.val = 0 then c.n else Tbl.set ⟨0, false⟩ c.n r.val x) }
  | .pred r x => { c with p := (if r.val = 0 then c.p else Tbl.set ⟨false, false⟩ c.p r.val x) }
  | .mask r x lanes =>
    { c with m := (if r.val = 0 then c.m else Tbl.set ⟨0, 0⟩ c.m r.val
        ⟨(x.v &&& lanes) ||| ((c.getM r.val).v &&& ~~~lanes), (x.t &&& lanes) ||| ((c.getM r.val).t &&& ~~~lanes)⟩) }
  | .vec reg x lanes =>
    let y : TVec := ⟨mergeLanes lanes x.v (c.getW reg).v, (x.t &&& lanes) ||| ((c.getW reg).t &&& ~~~lanes)⟩
    { c with win := Tbl.set ⟨0, 0⟩ c.win reg y, vq := (y :: c.vq).take 16 }
  | .out z x write va id =>
    if write then { c with outq := c.outq ++ [⟨z.val, id, va, x, 0, slot.val⟩], vq := (x :: c.vq).take 16 } else { c with vq := (⟨0, 0⟩ :: c.vq).take 16 }
  | .flags f => { c with flg := c.flg ||| f }
  | .jflags f => { c with jflg := (List.range 8).foldl (fun t i => Tbl.set 0 t i (Tbl.get 0 t i ||| f.getD i 0)) c.jflg }
  | .jclear bits cmk => { c with jflg := (List.range 8).foldl (fun t i => if cmk.getLsbD i then Tbl.set 0 t i (Tbl.get 0 t i &&& ~~~bits) else t) c.jflg }
  | .special r x =>
    match r with
    | .flg => { c with flg := BitVec.ofNat 7 x.toNat }
    | .rnd => { c with rnd := BitVec.ofNat 2 x.toNat }
    | .jord => { c with jord := BitVec.ofNat 3 x.toNat }
    | .jflg => { c with jflg := (List.range 8).foldl (fun t i => Tbl.set 0 t i (BitVec.ofNat 40 x.toNat)) c.jflg }
    | .vwb => { c with vwb := BitVec.ofNat 12 x.toNat }
    | .cmk => { c with cmk := BitVec.ofNat 8 x.toNat }
    | .occ => { c with occ := BitVec.ofNat 16 x.toNat }
    | .dlen => { c with dlen := BitVec.ofNat 8 x.toNat }
    | _ => c
  | .param i x => { c with mp := Tbl.set 0 c.mp i.val x }
  | .planes x => { c with mprec := x }
  | .savemask x => { c with svm := x }
  | .blcClear i => { c with blc := Tbl.set 0 c.blc i.val 0 }
  | .blcAdd i n => { c with blc := Tbl.set 0 c.blc i (BitVec.ofNat 32 (min 0xFFFFFFFF ((Tbl.get 0 c.blc i).toNat + n))) }
  | .control => { c with ctlTaint := true }
  | .taintClear r => { c with n := (if r.val = 0 then c.n else Tbl.set ⟨0, false⟩ c.n r.val ⟨(c.getN r.val).v, false⟩) }
  | .taintClearV reg lanes => { c with win := Tbl.set ⟨0, 0⟩ c.win reg ⟨(c.getW reg).v, (c.getW reg).t &&& ~~~lanes⟩ }
  | .advance z => advanceStream c z.val
  | .hist _ _ _ _ _ => c

/-- The results that a core's next bundle first sees (06 R110). -/
def dueOf (c : Core) : List Landing := c.inflight.filter fun l => decide (l.dist ≤ 1)

/-- The priority of results that land together, which is also the order in which they enter a queue: the slot, then the later bundle (06 R103, R111). -/
def before (a b : Landing) : Prop := a.slot.val < b.slot.val ∨ a.slot = b.slot ∧ a.bundle < b.bundle

/-- What a result writes to a scalar register, to a predicate, to a bit of a mask, and to a lane of a window register, with the taint. -/
def writesN (r : Nat) (l : Landing) : Option TWord :=
  match l.kind with
  | .scalar i x | .reg i x => if i.val = r then some x else none
  | _ => none
def writesP (r : Nat) (l : Landing) : Option TBit :=
  match l.kind with
  | .pred i x => if i.val = r then some x else none
  | _ => none
def writesM (r k : Nat) (l : Landing) : Option (Bool × Bool) :=
  match l.kind with
  | .mask i x lanes => if i.val = r ∧ lanes.getLsbD k = true then some (x.v.getLsbD k, x.t.getLsbD k) else none
  | _ => none
def writesV (reg k : Nat) (l : Landing) : Option (Lane × Bool) :=
  match l.kind with
  | .vec i x lanes => if i = reg ∧ lanes.getLsbD k = true then some (laneOf x.v k, x.t.getLsbD k) else none
  | _ => none

/-- The write that remains of those that land together: the one that every other comes before. -/
def remains {α : Type} (due : List Landing) (w : Landing → Option α) (v : α) : Prop := ∃ l ∈ due, w l = some v ∧ ∀ e ∈ due, e ≠ l → (w e).isSome = true → before e l
def untouched {α : Type} (due : List Landing) (w : Landing → Option α) : Prop := ∀ e ∈ due, w e = none

/-- Two results of different bundles that each write some lane of one register that is not n0, p0 or m0: a collision (06 R111). DESIGN CHOICE (log 68): the lanes need not be the same. -/
def collide (a b : Landing) : Prop :=
  a.bundle ≠ b.bundle ∧
    ((∃ r, r ≠ 0 ∧ (writesN r a).isSome = true ∧ (writesN r b).isSome = true) ∨ (∃ r, r ≠ 0 ∧ (writesP r a).isSome = true ∧ (writesP r b).isSome = true) ∨
      (∃ r k j, r ≠ 0 ∧ k < 128 ∧ j < 128 ∧ (writesM r k a).isSome = true ∧ (writesM r j b).isSome = true) ∨
      ∃ r k j, k < 128 ∧ j < 128 ∧ (writesV r k a).isSome = true ∧ (writesV r j b).isSome = true)

/-- Results that write registers alone. -/
def plainResult (l : Landing) : Prop :=
  match l.kind with
  | .scalar _ _ | .reg _ _ | .pred _ _ | .mask _ _ _ | .vec _ _ _ => True
  | _ => False

/-- What a result enters in a queue: scalar values, and the whole register that a vector result leaves, given the register before. -/
def enters (l : Landing) : Option TWord :=
  match l.kind with
  | .scalar _ x => some x
  | _ => none
def entersV (c : Core) (l : Landing) : Option TVec :=
  match l.kind with
  | .vec reg x lanes => some ⟨mergeLanes lanes x.v (c.getW reg).v, (x.t &&& lanes) ||| ((c.getW reg).t &&& ~~~lanes)⟩
  | _ => none

/-- Kinds whose landing `landed` gives. -/
def landsAlone : LandKind → Prop
  | .hist _ _ _ _ _ => False
  | _ => True

end Spec

/-! ## Operations performing, and the sequencer's steps -/

namespace Spec

/-- The event's operand names an operation that may perform. -/
def Ready (s : State) (c : CoreId) (o : AOp) : Prop := s.ev = .op c o.id ∧ readyOp s c.val o.id = some o

/-- No core holds an update-only line, so that a read or write of memory merges nothing first (14 R295). -/
def NoLines (s : State) : Prop := ∀ e ∈ s.cores, e.2.upd = []

/-- The address that an operation's pages give: in the memory of a C-die, or the host's or a peer's. -/
def home (o : AOp) (va : Nat) : Prop := va / 2^60 % 16 < 2 ∧ paIn o.pages va / 2^60 % 16 < 2

/-- Some 32-byte sector of n bytes of memory is tainted. -/
def memT (s : State) (pa n : Nat) : Bool := (List.range n).any fun i => Tbl.get false s.secTaint ((pa + i) / 32)

/-- The number an access of n bytes reads: in the scratchpad, or in memory. -/
def readNum (s : State) (c : Nat) (o : AOp) (va n : Nat) : Nat :=
  if va / 2^60 % 16 = 15 then scrNum (coreGet s c) (va % 2^60) n else memVal s (paIn o.pages va) n
def readT (s : State) (c : Nat) (o : AOp) (va n : Nat) : Bool :=
  if va / 2^60 % 16 = 15 then scrT (coreGet s c) (va % 2^60) n else memT s (paIn o.pages va) n

/-- In the scratchpad, or in the memory of a C-die. -/
def near (o : AOp) (va : Nat) : Prop := va / 2^60 % 16 = 15 ∨ home o va

def extended (signed : Bool) (n v : Nat) : Word := if signed then wrap (sx (8 * n) v) else BitVec.ofNat 64 v

/-- Memory changes only in n bytes at a physical address, and there holds a number. -/
def MemoryChange (s t : State) (pa n v : Nat) : Prop :=
  memVal t pa n = v % 256^n ∧ ∀ a, a < pa ∨ pa + n ≤ a → memByte t a = memByte s a

/-- What leaves alone every core but one. -/
def OtherCores (s t : State) (c : Nat) : Prop := ∀ i, i ≠ c → coreGet t i = coreGet s i

/-- The value that an atomic leaves (14 R297). -/
def atomNew (opc : Nat) (old x y : Word) : Word := if opc = 0 then wrap (old.toInt + x.toInt) else if opc = 1 then x else if old = x then y else old

/-- The tags that a core's store writes on a sector: its pass's launch count and superstep count, and the bead's ordinal; a sector whose last writer was another bead of that superstep (15 R310). -/
def tags (s : State) (c : Nat) : Nat × Nat × Nat := ((coreGet s c).launch % 2^13, (seqOf s (coreGet s c).unit).steps % 2^4, (coreGet s c).ordinal % 2^12)
def races (s : State) (c q : Nat) : Bool :=
  let old := Tbl.get (0, 0, 0) s.secTag q
  decide ((tags s c).1 = old.1 ∧ (tags s c).2.1 = old.2.1 ∧ (tags s c).2.2 ≠ old.2.2)

/-- The words of an update-only line once one has taken a reduction: its partial word, or the identity, combined with the operand (14 R295). -/
def reduced (opc : Nat) (l : Tbl Word) (k : Nat) (x : Word) : Tbl Word :=
  Tbl.insert (Tbl.erase l k) k (BitVec.ofNat 64 (redCombine opc (((Tbl.find? l k).map BitVec.toNat).getD (redIdentity opc)) x.toNat))

/-- An access other than a load of whose bundle another waits for a fault, or in its slot: it is not performed, and was not issued, before that is resolved (16 R317). -/
def heldByMate (c : Core) (o : AOp) : Bool :=
  !(pureLoad o.kind) && ((c.ops.any fun e => e.waiting && e.id / 4 == o.id / 4) || c.held.any fun e => e.id / 4 == o.id / 4)

/-- The beads of a unit's pass with their queues empty, on distinct cores, none frozen, parked or failed. -/
def allFree (s : State) (q : Nat) : Prop :=
  (coresOf s q).Nodup ∧ ∀ i ∈ coresOf s q, beadFrozen (coreGet s i) = false ∧ (coreGet s i).bq = [] ∧
    (coreGet s i).parked = false ∧ (coreGet s i).failure = none

/-- The unit's cores once the limits and fences that are met have gone (06 R117). -/
def cleared (s : State) (q : Nat) : State := (coresOf s q).foldl (fun s i => modCore s i clearMet) s

/-- A unit whose pass runs and can broadcast. -/
structure CanCast (s : State) (q : Nat) : Prop where
  run : (seqOf s q).run.isSome = true
  stop : (seqOf s q).stop = none
  store : (seqOf s q).copying = none ∧ (seqOf s q).restoring = none
  free : (seqOf s q).replay = 0 ∧ (seqOf s q).stall = 0 ∧ (seqOf s q).ended = false ∧ (seqOf s q).point = false
  waits : (seqOf s q).sync = none ∧ (seqOf s q).stepWait = none ∧ (seqOf s q).barNext = []

/-- The entry that a bundle puts on every bead's queue, and the cores once each has met it. -/
def castAt (s : State) (q : Nat) (b : BitVec 384) (next : Nat) : Option Entry :=
  castEntry (seqOf s q) (advanceCore (coreGet s (coreOf s q 0))) (.bundle (seqOf s q).pc.toNat b next)
def metCores (s : State) (q : Nat) (b : BitVec 384) (next : Nat) : State :=
  (coresOf s q).foldl (fun s i => modCore s i fun c => popHead c (castAt s q b next)) s

/-- Bead p of unit q about to issue a bundle. -/
def headAt (s : State) (q p : Nat) (b : BitVec 384) (next : Nat) : Option Head :=
  match castAt s q b next with
  | some (.bundle pos g reuse) => some ⟨p, coreOf s q p, pos, b, reuse, (Tbl.get ⟨0, false⟩ g 22).v.toNat⟩
  | _ => none

/-- The sequencer's checks of the bundle (16 R314), and all that fail on bead p with what its forms check: each with its rank, 0 and 1 for the whole bundle, else 2 and the slot, its code and detail. -/
def ownChecks (s : State) (q : Nat) (b : BitVec 384) : List (Nat × Nat × Nat) :=
  seqTraps (seqOf s q) (isLiteral (seqOf s q) (runTask s q) (seqOf s q).pc.toNat) (seqOf s q).pc.toNat b
def failed (s : State) (q : Nat) (b : BitVec 384) (next p : Nat) : List (Nat × Nat × Nat) :=
  ownChecks s q b ++ issueTraps { metCores s q b next with cur := ⟨Fin.ofNat 48 q, Fin.ofNat 8 p, 0, (seqOf s q).pc.toNat, 0, false⟩ } b

/-- The trap of the bundle on bead p. -/
def trapOf (s : State) (q : Nat) (b : BitVec 384) (next p : Nat) : Option (Nat × Nat) :=
  match headAt s q p b next with
  | some h => headTrap (metCores s q b next) q h (ownChecks s q b)
  | none => none

/-- No bead waits for a stream or a held load; and none traps. -/
def noneWaits (s : State) (q : Nat) (b : BitVec 384) (next : Nat) : Prop :=
  ∀ p < widthOf (seqOf s q), ∀ m, m = metCores s q b next →
    loadHeld (coreGet m (coreOf s q p)) b = false ∧ waitingStreams (coreGet m (coreOf s q p)) b = []
def clearToIssue (s : State) (q : Nat) (b : BitVec 384) (next : Nat) : Prop :=
  noneWaits s q b next ∧ ∀ p < widthOf (seqOf s q), trapOf s q b next p = none

end Spec

/-! ## Streams, copies and engine queues -/

namespace Spec

/-- The operation that binds a stream register. -/
def bindOf (c : Core) (z : Fin 8) (o : AOp) (va : Nat) : Prop :=
  (∃ b, o.kind = .bind z va b) ∧ ∃ l r, c.ops = l ++ o :: r ∧ ∀ e ∈ l, ∀ v b, e.kind ≠ .bind z v b

/-- Nothing written to a stream still waits to be stored or to land. -/
def quiet (c : Core) (z : Fin 8) : Prop :=
  (∀ e ∈ c.outq, e.z ≠ z.val) ∧ ∀ l ∈ c.inflight, ∀ x w v i, l.kind ≠ .out z x w v i

/-- No status of an earlier copy command waits for a superstep release, so that this one's lands at once (11 R235, 15 R307). -/
def landsInTurn (s : State) (c : Nat) (o : AOp) : Prop := ∀ e ∈ (coreGet s c).ops, e.id < o.id → ∀ d x, e.kind ≠ .landAt d x 1 none

/-- The range lies in the core's scratchpad. -/
def inScr (s : State) (c va n : Nat) : Prop := va / 2^60 % 16 = 15 ∧ addrTrap s (taskOfCore s c).pword false va n 1 = none

/-- Nothing stands between a command and memory that it has translated: no update-only line, no log of frames, no change of the L2's set ranges, no window that discards its blocks. -/
def calm (s : State) : Prop := NoLines s ∧ Unlogged s ∧ s.xl.l2change = [] ∧ ∀ pa n, windowBusy s pa n = false

/-- The bytes from va on may be accessed by a command, translation at hand: `at_` gives where they lie in the memory of the C-dies. -/
def atHand (s : State) (m : Cmd) (at_ : Nat → Nat) (va n : Nat) (stores : Bool) : Prop :=
  ∀ b, va ≤ b → b < va + n → addrTrap s m.pword false b 1 1 = none ∧ (stores = true → outTrap s m.part b 1 true = false) ∧
    (b / 2^60 % 16 = 15 ∨
      b / 2^60 % 16 < 2 ∧ at_ b / 2^60 < 2 ∧ (b + 1 < va + n → (b + 1) % 4096 ≠ 0 → at_ (b + 1) = at_ b + 1) ∧
        lookup s m.part b false = .ok (at_ b) ∧ (stores = true → lookup s m.part b true = .ok (at_ b)))

/-- The place of a byte, in the core's scratchpad or in memory, and what a place holds. -/
def placeAt (at_ : Nat → Nat) (va : Nat) : Nat := if va / 2^60 % 16 = 15 then 15 * 2^60 + va % 2^60 else at_ va
def byteAt (s : State) (c p : Nat) : Byte := if p / 2^60 = 15 then Tbl.get 0 (coreGet s c).scratch (p % 2^60) else memByte s p
def numAt (s : State) (c : Nat) (at_ : Nat → Nat) (va : Nat) : Nat → Nat
  | 0 => 0
  | n + 1 => (byteAt s c (placeAt at_ va)).toNat + 256 * numAt s c at_ (va + 1) n

/-- Ranges whose bytes lie in places of their own. -/
def apart (at_ : Nat → Nat) (l : List (Nat × Nat)) : Prop :=
  ∀ e ∈ l, ∀ x ∈ l, ∀ i < e.2, ∀ j < x.2, placeAt at_ (e.1 + i) = placeAt at_ (x.1 + j) → e = x ∧ i = j

/-- No byte outside the listed ranges changes. -/
def elsewhere (s t : State) (c : Nat) (at_ : Nat → Nat) (l : List (Nat × Nat)) : Prop :=
  ∀ p, (∀ e ∈ l, ∀ i < e.2, p ≠ placeAt at_ (e.1 + i)) → byteAt t c p = byteAt s c p

/-- A command of a core has ended with a status: no other register is written, and no other core. -/
def ends (s t : State) (c : Nat) (o : AOp) (dst : Fin 32) (status : Word) : Prop :=
  OtherCores s t c ∧ ∃ (k : Core) (x : Bool), coreGet t c = removeOp (k.setN dst.val ⟨status, x⟩) o ∧ k.n = (coreGet s c).n ∧ k.win = (coreGet s c).win ∧
    k.acc = (coreGet s c).acc ∧ k.ops = (coreGet s c).ops

/-- One chunk of a copy is read, then written: (destination, source, length); FILL takes the byte of its pattern (11 R233). -/
def chunkMoved (at_ : Nat → Nat) (fill : Option (List Byte)) (f : Nat → Byte) (e : Nat × Nat × Nat) : Nat → Byte := fun p =>
  match (List.range e.2.2).find? fun j => placeAt at_ (e.1 + j) == p with
  | some j => match fill with
    | some d => d.getD (32 + (e.1 + j) % 8) 0
    | none => f (placeAt at_ (e.2.1 + j))
  | none => f p

/-- The chunks of a copy, row by row: each ends at a 64-byte boundary of its destination or at the end of its row (11 R233). -/
def rowStart (base stride r : Nat) : Nat := (((base : Int) + r * (BitVec.ofNat 32 stride).toInt) % (2^64 : Nat)).toNat
def copyChunksOf (d : List Byte) : List (Nat × Nat × Nat) :=
  (List.range (bfield d 20 4)).flatMap fun r =>
    ((List.range (bfield d 16 4)).filter fun i => i = 0 ∨ (rowStart (bfield d 8 8) (bfield d 28 4) r + i) % 64 = 0).map fun i =>
      ((rowStart (bfield d 8 8) (bfield d 28 4) r + i) % 2^64, (rowStart (bfield d 0 8) (bfield d 24 4) r + i) % 2^64,
        Nat.min (bfield d 16 4 - i) (64 - (rowStart (bfield d 8 8) (bfield d 28 4) r + i) % 64))

/-- The bytes of a tile of width w in blocks of blk (11 R234), of 256 elements of a window, and the values and the scales of its blocks (08 R155, R159, R160). -/
def tileSize (w blk : Nat) : Nat := (32 * w + 1024 / blk + 63) / 64 * 64
def blockValues (s : State) (x : Win) (e b : Nat) : List FVal :=
  (List.range x.blk).map fun i => elemVal x.fmt (memVal s (x.base + e / 256 * (32 * fmtBits x.fmt)) (32 * fmtBits x.fmt) / 2^((b * x.blk + i) * fmtBits x.fmt) % 2^fmtBits x.fmt)
def blockFactor (s : State) (x : Win) (e b : Nat) : Int × Int := if x.mode = 0 then (1, 0) else blockScale (memByte s (x.scale + e / x.blk + b)).toNat
def bandFactor (s : State) (x : Win) (e : Nat) : Option (Int × Int) := if x.mode = 2 then bandScale (memVal s (x.band + 2 * (e / 2^(x.row + 5) / 64)) 2) else some (1, 0)

/-- Every 32-byte piece of an element of 512 bytes is at hand in the memory of a C-die, from one physical address on. -/
def pieces (s : State) (c va pa : Nat) (store : Bool) : Prop :=
  va / 2^60 % 16 < 2 ∧ pa % 512 = 0 ∧ pa / 2^60 % 16 < 2 ∧ ∀ i < 16, lookup s (partOfCore s c) (va + 32 * i) store = .ok (pa + 32 * i)

/-- A core's operation of the matrix engine: what it does to the accumulators. -/
def accAfter (e : EngOp) (l : Nat) (w : Word) : Option Word :=
  match e with
  | .accz _ lanes _ => if lanes.getLsbD l then some 0 else none
  | .accwr _ lanes x => if lanes.getLsbD l then some (accOfF32 (laneOf x.v l).toNat).1 else none
  | .norm _ lanes _ => if lanes.getLsbD l then some (accNorm w).1 else none
  | _ => none
def accOffset : EngOp → Option Nat
  | .accz off _ _ | .accwr off _ _ | .norm off _ _ => some off
  | _ => none

/-- EN commands whose result needs no memory. -/
def enNow (s : State) (c : Nat) : AKind → Option (Fin 32 × Word)
  | .draw d x y k0 k1 => some (d, BitVec.ofNat 64 (drawBits x.toNat (x.toNat / 2^32) y.toNat k0.toNat k1.toNat))
  | .kv 2 d _ _ => some (d, if bitsAt (pfGet s (0xF5008 + 32 * partOfCore s c) 8) 63 1 = 1 then
      BitVec.ofNat 64 (pfGet s (0xF5010 + 32 * partOfCore s c) 4 % 2^20 + bitsAt (pfGet s (0xF5008 + 32 * partOfCore s c) 8) 32 20 * 2^32) else 0)
  | _ => none

/-- The bytes of a descriptor, as the command reads them. -/
def descBytes (s : State) (c : Nat) (at_ : Nat → Nat) (va n : Nat) : List Byte := (List.range n).map fun i => byteAt s c (placeAt at_ (va + i))

/-- The record of a selection as its sweep goes on (17 R343), and one logit x of index g of the sweep (17 R344). -/
structure Sweep where
  m : Nat
  z : Nat
  nan : Nat
  seen : Nat
  win : Nat → Nat × Nat
def eExp (y : Nat) : Nat := (evalFn .exp fmt32 (levelBits .f32 0) 0 (v32 y)).bits
def eAdd (a b : Nat) : Nat := (fsum fmt32 0 (v32 a) (v32 b)).bits
def eSub (a b : Nat) : Nat := (fsum fmt32 0 (v32 a) (v32 b).negate).bits
def eMul (a b : Nat) : Nat := (fmulR fmt32 0 (v32 a) (v32 b)).bits
def isNaN32 (a : Nat) : Bool := a / 2^23 % 256 == 255 && a % 2^23 != 0
def logit (B : Nat) (r : Sweep) (x g : Nat) : Sweep :=
  if isNaN32 x = true then { r with seen := Nat.min 0xFFFFFFFF (r.seen + 1), nan := Nat.min 0xFFFFFFFF (r.nan + 1) }
  else if x = 0xFF800000 then { r with seen := Nat.min 0xFFFFFFFF (r.seen + 1) }
  else
    { m := if (v32 r.m).lt (v32 x) then x else r.m,
      z := if (v32 r.m).lt (v32 x) then eAdd (eMul r.z (eExp (eSub r.m x))) 0x3F800000 else if (v32 r.m).eq (v32 x) then eAdd r.z 0x3F800000 else eAdd r.z (eExp (eSub x r.m)),
      nan := r.nan, seen := Nat.min 0xFFFFFFFF (r.seen + 1),
      win := fun j => if j = g % B ∧ ((v32 (r.win j).1).lt (v32 x) ∨ ((v32 x).eq (v32 (r.win j).1) ∧ g < (r.win j).2)) then (x, g) else r.win j }

/-- SELACC (17 R342 to R344): the record that follows from the logits, in ascending order. -/
def SelaccResult (s : State) (c : CoreId) (o : AOp) : Prop :=
  ∀ (dst : Fin 32) (va cnt B rec : Nat) (at_ : Nat → Nat) (d : List Byte) (r0 r : Sweep), o.kind = .sel dst va → calm s → va % 64 = 0 → d = descBytes s c.val at_ va 64 →
    selBad (cmdOf s c.val o) d = none → cnt = bfield d 4 4 → B = 2^bfield d 8 1 → rec = bfield d 16 8 →
    atHand s (cmdOf s c.val o) at_ va 64 false → atHand s (cmdOf s c.val o) at_ rec (64 + 8 * B) true → apart at_ [(rec, 64 + 8 * B)] →
    r0 = (if bfield d 9 1 = 0 then ⟨0xFF800000, 0, 0, 0, fun _ => (0xFF800000, 0xFFFFFFFF)⟩
      else ⟨numAt s c.val at_ rec 4, numAt s c.val at_ (rec + 4) 4, numAt s c.val at_ (rec + 8) 4, numAt s c.val at_ (rec + 12) 4,
        fun j => (numAt s c.val at_ (rec + 64 + 8 * j) 4, numAt s c.val at_ (rec + 68 + 8 * j) 4)⟩) →
    (bfield d 9 1 = 1 → numAt s c.val at_ (rec + 16) 1 = bfield d 8 1) →
    r = (List.range cnt).foldl (fun a i => logit B a (eMul (accToF32 0 (accGet (coreGet s c.val) (bfield d 0 4 / 8 + i))).bits (bfield d 12 4)) ((bfield d 24 4 + i) % 2^32)) r0 →
    ∃ t, exec .enCommandComplete s = .next t ∧ ends s t c.val o dst (BitVec.ofNat 64 (cnt * 2^32)) ∧ elsewhere s t c.val at_ [(rec, 64 + 8 * B)] ∧
      numAt t c.val at_ rec 4 = r.m ∧ numAt t c.val at_ (rec + 4) 4 = r.z ∧ numAt t c.val at_ (rec + 8) 4 = r.nan ∧ numAt t c.val at_ (rec + 12) 4 = r.seen ∧
      numAt t c.val at_ (rec + 16) 1 = bfield d 8 1 ∧ (∀ i < 47, numAt t c.val at_ (rec + 17 + i) 1 = 0) ∧
      ∀ j < B, numAt t c.val at_ (rec + 64 + 8 * j) 4 = (r.win j).1 ∧ numAt t c.val at_ (rec + 68 + 8 * j) 4 = (r.win j).2

/-- The pool of a partition (17 R348): base, pages, free count, and whether page i is free in its bitmap. -/
def poolBase (s : State) (p : Nat) : Nat := pfGet s (0xF5000 + 32 * p) 8
def poolOn (s : State) (p : Nat) : Prop := bitsAt (pfGet s (0xF5008 + 32 * p) 8) 63 1 = 1
def poolPages (s : State) (p : Nat) : Nat := bitsAt (pfGet s (0xF5008 + 32 * p) 8) 0 20
def poolFree (s : State) (p : Nat) : Nat := pfGet s (0xF5010 + 32 * p) 4 % 2^20
def poolMap (s : State) (p : Nat) : Nat := pfGet s (0xF5018 + 32 * p) 8
def pageFree (s : State) (p i : Nat) : Bool := (memByte s (poolMap s p + i / 8)).getLsbD (i % 8)
/-- No byte of the ranges lies in the pool's bitmap, or in the bytes of the core's scratchpad that have its numbers. -/
def offMap (s : State) (p : Nat) (at_ : Nat → Nat) (l : List (Nat × Nat)) : Prop :=
  poolMap s p / 2^60 < 15 ∧ ∀ e ∈ l, ∀ i < e.2, placeAt at_ (e.1 + i) < poolMap s p ∨ poolMap s p + 131072 ≤ placeAt at_ (e.1 + i)
/-- No byte of memory changes but those of the ranges and of the bitmap. -/
def poolElsewhere (s t : State) (p c : Nat) (at_ : Nat → Nat) (l : List (Nat × Nat)) : Prop :=
  ∀ a, (∀ e ∈ l, ∀ i < e.2, a ≠ placeAt at_ (e.1 + i)) → (a < poolMap s p ∨ poolMap s p + 131072 ≤ a) → byteAt t c a = byteAt s c a

/-- KVALLOC (17 R347 to R349): the lowest free pages, or the dry-pool rule. -/
def KvallocResult (s : State) (c : CoreId) (o : AOp) : Prop :=
  ∀ (dst : Fin 32) (x y : Word) (p va n pages base list : Nat) (at_ : Nat → Nat), o.kind = .kv 0 dst x y → calm s → p = partOfCore s c.val → va = x.toNat → n = y.toNat % 65536 →
    va / 2^60 % 16 < 2 → va % 64 = 0 → atHand s (cmdOf s c.val o) at_ va 64 true →
    pages = numAt s c.val at_ (va + 8) 4 → base = numAt s c.val at_ (va + 12) 4 → list = numAt s c.val at_ (va + 16) 8 →
    poolOn s p → 1 ≤ n → n ≤ 64 → base ≤ pages → pages + n ≤ numAt s c.val at_ (va + 28) 4 → list % 64 = 0 → (list / 2^60 % 16 < 2 ∨ list / 2^60 % 16 = 15) →
    (n ≤ poolFree s p → ∀ ps : List Nat, ps.length = n → ps.Pairwise (· < ·) → (∀ i ∈ ps, i < poolPages s p ∧ pageFree s p i = true) →
      (∀ j < poolPages s p, pageFree s p j = true → j ∉ ps → ∀ i ∈ ps, i < j) →
      atHand s (cmdOf s c.val o) at_ (list + 8 * pages) (8 * n) true → apart at_ [(va, 64), (list + 8 * pages, 8 * n)] → offMap s p at_ [(va, 64), (list + 8 * pages, 8 * n)] →
      ∃ t, exec .enCommandComplete s = .next t ∧ ends s t c.val o dst (BitVec.ofNat 64 (n * 2^32)) ∧ poolFree t p = poolFree s p - n ∧ poolMap t p = poolMap s p ∧
        (∀ i < n, numAt t c.val at_ (list + 8 * pages + 8 * i) 8 = (poolBase s p + 65536 * ps.getD i 0) % 2^64) ∧
        (∀ i, i < 2^20 → pageFree t p i = (pageFree s p i && !ps.contains i)) ∧ numAt t c.val at_ (va + 8) 4 = pages + n ∧
        poolElsewhere s t p c.val at_ [(va + 8, 4), (list + 8 * pages, 8 * n)]) ∧
    (poolFree s p < n → atHand s (cmdOf s c.val o) at_ (list + 8 * base) (8 * (pages - base)) false → apart at_ [(va, 64)] → offMap s p at_ [(va, 64), (list + 8 * base, 8 * (pages - base))] →
      ∃ t, exec .enCommandComplete s = .next t ∧ ends s t c.val o dst 0x0701 ∧ poolFree t p = (poolFree s p + (pages - base)) % 2^20 ∧ poolMap t p = poolMap s p ∧
        (∀ i, i < poolPages s p → pageFree t p i = (pageFree s p i || (List.range (pages - base)).any fun j => numAt s c.val at_ (list + 8 * (base + j)) 8 == poolBase s p + 65536 * i)) ∧
        numAt t c.val at_ (va + 8) 4 = base ∧ numAt t c.val at_ (va + 24) 2 = 0x0701 ∧ numAt t c.val at_ (va + 26) 1 = 0 ∧
        poolElsewhere s t p c.val at_ [(va + 8, 4), (va + 24, 3)])

/-- KVFREE (17 R350): the last n pages of the list are free again. -/
def KvfreeResult (s : State) (c : CoreId) (o : AOp) : Prop :=
  ∀ (dst : Fin 32) (x y : Word) (p va n pages list : Nat) (at_ ix : Nat → Nat), o.kind = .kv 1 dst x y → calm s → p = partOfCore s c.val → va = x.toNat → n = y.toNat % 65536 →
    va / 2^60 % 16 < 2 → va % 64 = 0 → atHand s (cmdOf s c.val o) at_ va 64 true → pages = numAt s c.val at_ (va + 8) 4 → list = numAt s c.val at_ (va + 16) 8 →
    poolOn s p → 1 ≤ n → n ≤ pages → list % 64 = 0 → (list / 2^60 % 16 < 2 ∨ list / 2^60 % 16 = 15) → atHand s (cmdOf s c.val o) at_ (list + 8 * (pages - n)) (8 * n) false →
    (∀ i < n, ix i < poolPages s p ∧ numAt s c.val at_ (list + 8 * (pages - n) + 8 * i) 8 = poolBase s p + 65536 * ix i) →
    apart at_ [(va, 64)] → offMap s p at_ [(va, 64), (list + 8 * (pages - n), 8 * n)] →
    ∃ t, exec .enCommandComplete s = .next t ∧ ends s t c.val o dst (BitVec.ofNat 64 (n * 2^32)) ∧ poolFree t p = (poolFree s p + n) % 2^20 ∧ poolMap t p = poolMap s p ∧
      (∀ i, i < poolPages s p → pageFree t p i = (pageFree s p i || (List.range n).any fun j => ix j == i)) ∧
      numAt t c.val at_ (va + 8) 4 = pages - n ∧ numAt t c.val at_ (va + 12) 4 = Nat.min (numAt s c.val at_ (va + 12) 4) (pages - n) ∧
      poolElsewhere s t p c.val at_ [(va + 8, 8)]

/-- The dirty bit and the age of a row (17 R354). -/
def dirtyBit (s : State) (c : Nat) (at_ : Nat → Nat) (map g p : Nat) : Bool := (byteAt s c (placeAt at_ (map + 512 * g + p / 8))).getLsbD (p % 8)
def ageOf (s : State) (c : Nat) (at_ : Nat → Nat) (map g p : Nat) : Nat := (byteAt s c (placeAt at_ (map + 32768 + 4096 * g + p))).toNat
def mapRows (map n g0 gs : Nat) : List (Nat × Nat) := (List.range gs).flatMap fun g => [(map + 512 * (g0 + g), (n + 7) / 8), (map + 32768 + 4096 * (g0 + g), n)]

/-- A confidence a ranks below b: every NaN below every number, the numbers in the order of 09 R193. -/
def ranksBelow (a b : Nat) : Prop := isNaN32 b = false ∧ (isNaN32 a = true ∨ sortKey a < sortKey b)

/-- TITHE (17 R353 to R355). -/
def TitheResult (s : State) (c : CoreId) (o : AOp) : Prop :=
  ∀ (dst : Fin 32) (va n G : Nat) (at_ : Nat → Nat) (d : List Byte) (S C : Nat → Bool) (conf : Nat → Nat) (top : List Nat) (ranges : List (Nat × Nat)), o.kind = .tithe 0 dst va → calm s → va % 64 = 0 →
    d = descBytes s c.val at_ va 64 → titheBad (cmdOf s c.val o) d = none → n = bfield d 40 2 → G = bfield d 48 1 →
    ranges = (List.range n).filterMap (fun p => if C p then some (bfield d 24 8 + 4 * p, 4) else none) ++ (bfield d 8 8, (n + 7) / 8) :: mapRows (bfield d 32 8) n 0 G →
    atHand s (cmdOf s c.val o) at_ va 64 false → atHand s (cmdOf s c.val o) at_ (bfield d 0 8) (4 * n) false → (∀ e ∈ ranges, atHand s (cmdOf s c.val o) at_ e.1 e.2 true) →
    (∀ p < n, C p = true → atHand s (cmdOf s c.val o) at_ (bfield d 16 8 + 4 * p) 4 false) → apart at_ (ranges ++ [(bfield d 0 8, 4 * n), (bfield d 16 8, 4 * n)]) →
    (∀ p, S p = (decide (p < n) && (byteAt s c.val (placeAt at_ (bfield d 8 8 + p / 8))).getLsbD (p % 8))) → (∀ p, conf p = numAt s c.val at_ (bfield d 0 8 + 4 * p) 4) →
    top.Nodup → (∀ p ∈ top, S p = true) → top.length = (if (List.range n).countP (S ·) = 0 then 0 else Nat.max 1 ((bfield d 42 2 * (List.range n).countP (S ·) + 0x8000) / 65536)) →
    (∀ p ∈ top, ∀ q, S q = true → q ∉ top → ranksBelow (conf q) (conf p) ∨ (¬ ranksBelow (conf p) (conf q) ∧ p < q)) →
    (∀ p, C p = (S p && (top.contains p || (bfield d 50 1 == 1 && !isNaN32 (conf p) && (isNaN32 (bfield d 44 4) || decide (sortKey (bfield d 44 4) ≤ sortKey (conf p))))))) →
    ∃ t, exec .enCommandComplete s = .next t ∧ ends s t c.val o dst (BitVec.ofNat 64 ((List.range n).countP (C ·) * 2^32)) ∧ elsewhere s t c.val at_ ranges ∧
      (∀ p < n, C p = true → numAt t c.val at_ (bfield d 24 8 + 4 * p) 4 = numAt s c.val at_ (bfield d 16 8 + 4 * p) 4) ∧
      (∀ p, p / 8 < (n + 7) / 8 → (byteAt t c.val (placeAt at_ (bfield d 8 8 + p / 8))).getLsbD (p % 8) = ((byteAt s c.val (placeAt at_ (bfield d 8 8 + p / 8))).getLsbD (p % 8) && !C p)) ∧
      ∀ g < G, (∀ p < n, ageOf t c.val at_ (bfield d 32 8) g p =
          if C p = true then 0 else if S p = true then ageOf s c.val at_ (bfield d 32 8) g p else Nat.min 255 (ageOf s c.val at_ (bfield d 32 8) g p + 1)) ∧
        ∀ p, p / 8 < (n + 7) / 8 → dirtyBit t c.val at_ (bfield d 32 8) g p = (C p || dirtyBit s c.val at_ (bfield d 32 8) g p ||
          (decide (p < n) && !S p && bfield d 49 1 != 0 && decide (bfield d 49 1 ≤ Nat.min 255 (ageOf s c.val at_ (bfield d 32 8) g p + 1))))

/-- TMAP and TCLRD (17 R356). -/
def DirtyMapResult (s : State) (c : CoreId) (o : AOp) : Prop :=
  ∀ (dst : Fin 32) (opc va n g0 gs map list : Nat) (at_ : Nat → Nat) (d : List Byte) (rows : List (Nat × Nat)), o.kind = .tithe opc dst va → (opc = 1 ∨ opc = 2) → calm s → va % 64 = 0 →
    d = descBytes s c.val at_ va 64 → tmapBad (cmdOf s c.val o) (opc == 2) d = none → map = bfield d 0 8 → list = bfield d 8 8 → n = bfield d 16 2 → g0 = bfield d 18 1 → gs = bfield d 19 1 →
    rows = (List.range gs).flatMap (fun j => ((List.range n).filter fun p => dirtyBit s c.val at_ map (g0 + j) p).map fun p => (g0 + j, p)) →
    atHand s (cmdOf s c.val o) at_ va 64 false →
    (opc = 1 → (∀ j < gs, atHand s (cmdOf s c.val o) at_ (map + 512 * (g0 + j)) ((n + 7) / 8) false) → atHand s (cmdOf s c.val o) at_ list (4 * rows.length) true →
      apart at_ ((list, 4 * rows.length) :: (List.range gs).map fun j => (map + 512 * (g0 + j), (n + 7) / 8)) →
      ∃ t, exec .enCommandComplete s = .next t ∧ ends s t c.val o dst (BitVec.ofNat 64 (rows.length * 2^32)) ∧ elsewhere s t c.val at_ [(list, 4 * rows.length)] ∧
        ∀ i < rows.length, numAt t c.val at_ (list + 4 * i) 4 = 65536 * (rows.getD i (0, 0)).1 + (rows.getD i (0, 0)).2) ∧
    (opc = 2 → (∀ e ∈ mapRows map n g0 gs, atHand s (cmdOf s c.val o) at_ e.1 e.2 true) → apart at_ (mapRows map n g0 gs) →
      ∃ t, exec .enCommandComplete s = .next t ∧ ends s t c.val o dst (BitVec.ofNat 64 (rows.length * 2^32)) ∧ elsewhere s t c.val at_ (mapRows map n g0 gs) ∧
        ∀ j < gs, (∀ p, p / 8 < (n + 7) / 8 → dirtyBit t c.val at_ map (g0 + j) p = (dirtyBit s c.val at_ map (g0 + j) p && decide (n ≤ p))) ∧
          ∀ p < n, ageOf t c.val at_ map (g0 + j) p = if dirtyBit s c.val at_ map (g0 + j) p = true then 0 else ageOf s c.val at_ map (g0 + j) p)

/-- EN commands that read a descriptor or a record. -/
def enReads : AKind → Option (Fin 32)
  | .sel d _ | .tithe _ d _ | .kv 0 d _ _ | .kv 1 d _ _ => some d
  | _ => none

end Spec

/-! ## The network -/

namespace Spec

/-- A network command that may start: the endpoint runs (18 R358), and every earlier network command of the core has started. -/
def Starts (s : State) (c : CoreId) (o : AOp) : Prop := Ready s c o ∧ liveOp s c.val o.id = some o ∧ netFirst (coreGet s c.val) o = true ∧ endpointRuns s = true

/-- An entry that a core's partition may use (11 R239, R240). -/
def entryOpen (s : State) (c i : Nat) : Prop := nctxOwned s i (partOfCore s c) = true ∧ i ∉ s.net.abandoned

/-- An operation's kind and acknowledgements change, and nothing else of the core's operations. -/
def rekind (l : List AOp) (id : Nat) (k : AKind) (accepted : Bool) (acks : Nat) (taint : Bool) : List AOp :=
  l.map fun e => if e.id = id then { e with kind := k, accepted := accepted, acks := acks, taint := taint } else e

/-- A status word of no error with a count. -/
def okStatus (n : Nat) : Word := BitVec.ofNat 64 (Nat.min n 0xFFFFFFFF * 2^32)

/-- What the spec says a collective's element is (11 R243): rank by rank. -/
def collElement (op : Nat) (xs : List (List Lane)) (i : Nat) : Lane :=
  match xs with
  | [] => 0
  | x :: r => (r.map fun y => y.getD i 0).foldl (collOp op) (x.getD i 0)

end Spec

/-! ## Translation, frames and windows -/

namespace Spec

/-- No operation waits for a translation. -/
def NoneWaits (s : State) : Prop := ∀ e ∈ s.cores, ∀ o ∈ e.2.ops, o.waiting = false

/-- The first two entries of a walk on a die for a virtual address (12 R247, R248): where they lie and what they hold. -/
def rootOf (s : State) (d p : Nat) : Nat := pfGet s (0xE0000 + 0x200 * d + 8 * p) 8
def at0 (s : State) (d p va : Nat) : Nat := d * 2^60 + rootOf s d p / 2^11 % 2^41 * 2^11 + 8 * (va / 2^39 % 2^8)
def entry0 (s : State) (d p va : Nat) : Nat := memVal s (at0 s d p va) 8
def at1 (s : State) (d p va : Nat) : Nat := d * 2^60 + entry0 s d p va / 2^8 % 2^44 * 2^8 + 8 * (va / 2^30 % 2^9)
def entry1 (s : State) (d p va : Nat) : Nat := memVal s (at1 s d p va) 8

/-- An entry holds an address in a frame of an owner that no error has retired. -/
def frameOk (s : State) (d e : Nat) (owner : Nat → Prop) : Prop :=
  frameStruck s d (e / 2^8 % 2^44 * 2^8) = false ∧ ∃ o, frameOwner s d (e / 2^8 % 2^44 * 2^8) = some o ∧ owner o

/-- The walk of a 1 GiB page comes to its leaf. -/
structure LeafAt1 (s : State) (d p va : Nat) : Prop where
  valid : rootOf s d p / 2^63 % 2 = 1
  table : entry0 s d p va % 4 = 1
  form0 : malformed (entry0 s d p va) 0 = false
  frame0 : frameOk s d (entry0 s d p va) (fun o => o = p ∨ o = 62)
  leaf : entry1 s d p va % 4 = 3
  form1 : malformed (entry1 s d p va) 1 = false
  frame1 : frameOk s d (entry1 s d p va) (fun o => o = p)
  frame : frameStruck s d (entry1 s d p va / 2^8 % 2^44 * 2^8 + va % 2^30) = false ∧ frameOwner s d (entry1 s d p va / 2^8 % 2^44 * 2^8 + va % 2^30) = some p

/-- A pull from a peer's memory, of a chip. -/
def pullsFrom (x : Pull) (chip : Nat) : Prop := x.back / 2^60 % 16 = 8 ∧ x.back / 2^48 % 512 = chip

/-- Windows and frame commands: registers of a die, and of a window. -/
def fsAt (d : Nat) : Nat := 0xE2000 + 0x40 * d
def frameAt (s : State) (d f : Nat) : FrameState := Tbl.get .free s.xl.frames (d * 2^24 + f)
def firstFrame (s : State) (d : Nat) : Nat := pfGet s (fsAt d) 8 / 2^16 % 2^36
def frameCount (s : State) (d : Nat) : Nat := pfGet s (fsAt d + 8) 4 % 2^23
def fsIdle (s : State) (d : Nat) : Prop := pfGet s (fsAt d + 16) 4 / 2^31 % 2 = 0
def fsStatus (s : State) (d done : Nat) (refused : Bool) (st : Option Nat) : Nat :=
  (if refused then 1 else pfGet s (fsAt d + 24) 8 % 2) + done * 2^8 + (st.getD (pfGet s (fsAt d + 24) 8 / 2^32 % 2^8)) * 2^32
def winAt (d : Die) (c : Fin 4) (w : Fin 16) : Nat := 0xC0000 + 0x2000 * d.val + 0x800 * c.val + 64 * w.val
def winCtl (s : State) (d : Die) (c : Fin 4) (w : Fin 16) : Nat := pfGet s (winAt d c w + 16) 8

/-- Only a register changes. -/
def RegisterChange (s t : State) (off n v : Nat) : Prop :=
  pfGet t off n = v % 256^n ∧ (∀ a, a < off ∨ off + n ≤ a → pfByte t a = pfByte s a) ∧ { t with pf := s.pf } = s

end Spec

/-! ## Commands and requests -/

namespace Spec

/-- A VF's ring registers: QSTAT and the word of the last refusal. -/
def qstat (s : State) (v : Vf) : Nat := bar0Get s v.val 0x18 4
def refusal (s : State) (v : Vf) : Nat := bar0Get s v.val 0x48 8

/-- What the ring's path reports for a refused command: a bit of QSTAT, and code, detail and entry. -/
def RefusedByRing (s t : State) (v : Vf) (e : Fin 4096) (bit code detail : Nat) : Prop :=
  t.rk.tasks = s.rk.tasks ∧ t.mem = s.mem ∧ t.rk.nextFree = s.cycle + 4 ∧ qstat t v = qstat s v ||| bit ∧ refusal t v = code + detail * 2^16 + e.val * 2^32

/-- The bytes of a signal that refuses a command. -/
def refusalBytes (s : State) (c : Command) (code detail : Nat) : List Byte :=
  leBytes (cmdField c 32 8) 8 ++ leBytes (now s) 8 ++ leBytes (now s) 8 ++ leBytes code 2 ++ leBytes detail 2 ++ [0, 0]

/-- A task that waits for its release, and the effective time that one gives it (02 R27). -/
def AwaitsRelease (t : Task) : Prop := t.st = .pending ∧ t.holdFlag = true ∧ t.relTaken = false
def effective (t : Task) (time : Nat) : Nat := max t.taken.toNat (max t.relField.toNat time)

/-- A task as it becomes READY: a new launch, with fresh copies. -/
def readied (s : State) (t : Task) : Task :=
  { t with st := .ready, launch := s.rk.launches + 1, copies := if t.mirrored then [CopyState.fresh, CopyState.fresh] else [CopyState.fresh] }

/-- The ingress timestamp of a packet (03 R39): a reading of its port's timestamp unit, which does not fall, lies within 4 ns of device time, and within 4 ns of every other unit's reading:
at least what each last read less 4, and at most what each read in this cycle and 4. DESIGN CHOICE (log 66): a timestamp outside these bounds is taken at the nearest. -/
def ingressOf (s : State) (port : Nat) (stamp : Word) : Nat :=
  let least := s.net.stamps.foldl (fun b e => max b (e.2.2 - 4)) (max (now s - 4) (Tbl.get (0, 0) s.net.stamps port).2)
  let most := s.net.stamps.foldl (fun b e => if e.2.1 = s.cycle then min b (e.2.2 + 4) else b) (now s + 4)
  max least (min most stamp.toNat) % 2^64

/-- The state once the port's timestamp is taken. -/
def stampedAt (s : State) (port : Nat) (stamp : Word) : State := { s with net := { s.net with stamps := Tbl.set (0, 0) s.net.stamps port (s.cycle, ingressOf s port stamp) } }

/-- The step that a command's first byte names. -/
def opOf (c : Command) : Instr := if c.toNat % 256 = 1 then .submit else if c.toNat % 256 = 2 then .releaseCommand else .nopCommand

end Spec

/-! ## Dispatch, ends and time -/

namespace Spec

/-- The pass that a task's copy has next for a unit. -/
def nextPass (s : State) (ti q : Nat) : Nat := ((taskOf s ti).copies.getD (copyFor (taskOf s ti) q) CopyState.fresh).next

/-- A bead as its pass begins (01 R19, R20; 02 R38; 06 R102, R106). -/
structure BeadStart (k : Task) (q p pass : Nat) (old new : Core) : Prop where
  ordinal : new.ordinal = pass * k.w + p
  parked : new.parked = decide (k.total ≤ pass * k.w + p)
  wid : new.wid = if k.total ≤ pass * k.w + p then BitVec.allOnes 64 else BitVec.ofNat 64 (widOf k (pass * k.w + p))
  place : new.unit = q ∧ new.bead = p ∧ new.launch = k.launch
  saved : new.svm = BitVec.ofNat 48 (hdrField k.hdr 48 8)
  registers : new.n = [] ∧ new.q = [] ∧ new.p = [] ∧ new.m = [] ∧ new.mp = [] ∧ new.ctrs = [] ∧ new.flg = 0 ∧ new.cmk = 0xFF ∧ new.inflight = []
  skew : new.bq = List.replicate (p * k.skew) .stall
  pool : (k.launch ∉ old.placed → new.scratch = [] ∧ new.acc = []) ∧ (k.launch ∈ old.placed → new.scratch = old.scratch ∧ new.acc = old.acc)
  placed : k.launch ∈ new.placed ∧ new.part = k.part
  taint : new.scrTaint = [] ∧ new.accTaint = []

/-- The address of a stream descriptor that a launch header binds at the start, 0 for none (01 R13, 11 R230). -/
def bindAt (k : Task) (z : Nat) : Nat := if hdrField k.hdr (96 + 4 * z) 4 = 0 then 0 else cmdField k.cmd 16 8 + hdrField k.hdr (96 + 4 * z) 4

/-- A stream register as a pass begins: bound to the header's descriptor, whose read the bead has issued, or unset (11 R230). -/
def streamStart (k : Task) (c : Core) (z : Fin 8) : Prop :=
  if bindAt k z.val = 0 ∨ c.parked = true then streamOf c z.val = Stream.unset
  else (∃ region : Nat, streamOf c z.val = { Stream.unset with bound := true, addr := BitVec.ofNat 64 (bindAt k z.val), slack := hdrField k.hdr (64 + 2 * region) 2, region := region }) ∧
    ∃ o ∈ c.ops, o.kind = .bind z (bindAt k z.val) true

/-- Device time has reached a task's deadline less its session's margin (03 R60). -/
def marginOver (s : State) (k : Task) : Prop := k.margin = true ∨ k.deadline.getD (2^80) ≤ now s + pfGet s (0x20008 + 64 * k.session) 4

/-- DLCTL of a partition, and a word of it with a level (03 R58). -/
def dlctl (s : State) (p : Nat) : Nat := pfGet s (0x10030 + 64 * p) 4

/-- The 30 bytes of a signal (17 R336). -/
def signalOf (k : Task) (nowT code detail : Nat) (m : Bool) (slip : Nat) : List Byte :=
  leBytes ((cmdField k.cmd 32 8 + k.ends) % 2^64) 8 ++ leBytes ((k.start.map (·.toNat)).getD nowT) 8 ++ leBytes nowT 8 ++ leBytes code 2 ++ leBytes detail 2 ++
    leBytes ((if k.taintSeen then 1 else 0) + if m then 2 else 0) 1 ++ leBytes (min 255 slip) 1

/-- Where the next entry of a VF's completion queue goes. -/
def cqPlace (s : State) (v : Vf) : Nat := 4 * 2^60 + (bar0Get s v.val 0x20 8 + 32 * bar0Get s v.val 0x38 2) % 2^60
def cqNext (s : State) (v : Vf) : Nat := (bar0Get s v.val 0x38 2 + 1) % 2^(bar0Get s v.val 0x28 4 % 16)

end Spec

/-! ## Placement and register writes -/

namespace Spec

/-- A write of the place block is refused: PSTAT notes it (04 R65, R67, R69, R70). -/
def PlaceRefused (s t : State) : Prop := RegisterChange s t 0x82800 4 (pfGet s 0x82800 4 ||| 1)

/-- A pool that has been zeroed. -/
def Zeroed (c : Core) : Prop := c.win = [] ∧ c.scratch = [] ∧ c.scrTaint = [] ∧ c.acc = [] ∧ c.accTaint = []

/-- Offsets whose plain write does nothing beside storing. -/
def quietRegister (off : Nat) : Prop :=
  recordMask off = none ∧ (off < 0xC0000 ∨ 0xC4000 ≤ off) ∧ inArr off 0xF5000 40 32 = false ∧ inArr off 0xF5018 40 32 = false ∧ inArr off 0xF3000 96 64 = false ∧
    inArr off 0xE2010 2 0x40 = false ∧ inArr off 0xF6000 1024 8 = false ∧ 0x80000 ≤ off

/-- The value that a write leaves: writable bits taken, bits cleared by a written one cleared. -/
def stored (old rw w1c v : Word) : Word := ((old &&& ~~~rw) ||| (v &&& rw)) &&& ~~~(v &&& w1c)

/-- The halves of ROWN: owner with its valid bit. -/
def ownerField (w h : Nat) : Nat := w / 2^(8 * h) % 2^6

end Spec

/-! ## Stops, saves, errors and migration -/

namespace Spec

/-- A unit whose pass is being stopped. -/
def Stopping (s : State) (q : Nat) (r : PassRun) (st : StopState) : Prop := (seqOf s q).run = some r ∧ (seqOf s q).stop = some st

/-- Nothing of a unit's pass is outstanding. -/
def idleCores (s : State) (q : Nat) : Prop :=
  ∀ i ∈ coresOf s q, (coreGet s i).ops = [] ∧ (coreGet s i).held = [] ∧ (coreGet s i).outq = []

/-- Nothing of a pass that is to be saved has failed, and its slot is not still being read. -/
def Whole (s : State) (q : Nat) : Prop := (seqOf s q).restoring = none ∧ ∀ i ∈ coresOf s q, (coreGet s i).failure = none

/-- A launch that has not ended, of the pass on a unit. -/
def LaunchStands (s : State) (r : PassRun) : Prop :=
  r.task < 8192 ∧ (taskOf s r.task).launch = r.launch ∧ (taskOf s r.task).ending = none ∧ ((taskOf s r.task).copies.getD r.copy CopyState.fresh).aborted = false

/-- The migration registers of a VF, and the state once a write has stored log_en. -/
def migAt (v : Vf) : Nat := 0xF3000 + 64 * v.val
def migWritten (s : State) (v : Vf) (x : BitVec 32) : State := storeReg s (migAt v) 4 0x100 0 x.toNat

/-- A migration operation that may run for a partition. -/
def MayMigrate (s : State) (v : Vf) (p : Nat) : Prop := v.val ∉ s.plat.flr ∧ pfGet s (migAt v) 4 / 2^31 % 2 = 0 ∧ migPart s v.val = some p

/-- A migration operation is refused: the bit of MIGSTAT is set. -/
def MigRefused (u t : State) (v : Vf) : Prop := RegisterChange u t (migAt v + 8) 4 (pfGet u (migAt v + 8) 4 ||| 1)

/-- The steps that a write of MIGCTL makes. -/
def migSteps : List Instr := [.migrationRound, .migrationStop, .migrationExport, .migrationImport, .migrationResume]

end Spec

/-! ## The platform -/

namespace Spec

/-- The mailbox answers, and what is answered. -/
def Answers (s : State) : Prop := s.plat.pfReady = true ∧ s.plat.recovery = false
def replies (s : State) (b : List Byte) : State := { s with out := s.out ++ [.spdm b] }

/-- A response with the 96-byte signature of the identity that depends on the identity image. -/
def signedWith (s : State) (req b : List Byte) : List Byte := b ++ (Config.spdmSign (runningImage s 2) (req ++ b)).take 96

/-- The responses that the manual names (18 R364): version 1.3, ECDSA P-384 with SHA-384 alone, the chain and its digest, the signed challenge, the measurements, signed where asked. -/
def response (s : State) (req : List Byte) : Instr → Option (List Byte)
  | .getVersion => some [0x10, 0x04, 0, 0, 0, 1, 0, 0x13]
  | .getCapabilities => some (capabilitiesBody req)
  | .negotiateAlgorithms => some ([0x13, 0x63, 0, 0, 36, 0, 1, 0, 4, 0, 0, 0, 0x80, 0, 0, 0, 2, 0, 0, 0] ++ List.replicate 16 0)
  | .getDigests => some ([0x13, 0x01, 1, 1] ++ sha384 (Config.certChain (runningImage s 2)))
  | .getCertificate => some (certificateBody s req)
  | .challenge => some (signedWith s req (challengeBody s req))
  | .getMeasurements => some (if (req.getD 2 0).toNat % 2 = 1 then signedWith s req (measurementsBody s req) else measurementsBody s req)
  | _ => none

/-- A temperature that stands at or above TWARN. -/
def warm (s : State) (j : Nat) : Bool := decide (j < 16) && decide ((BitVec.ofNat 16 (pfGet s 0xF8300 2)).toInt ≤ (BitVec.ofNat 32 (pfGet s (0xF8100 + 8 * j) 4)).toInt)

/-- A threshold has been written: crossings that have ended with it are forgotten, and no trip is added. -/
def ThresholdTaken (s t : State) (off : Nat) (v : Nat) : Prop :=
  RegisterChange s { t with plat := s.plat } off 2 v ∧ t.plat.crossed = s.plat.crossed.filter (warm t) ∧ ∀ e ∈ t.plat.tripped, e ∈ s.plat.tripped

/-- Temperatures and thresholds as signed numbers. -/
def tempOf (s : State) (i : Nat) : Int := (BitVec.ofNat 32 (pfGet s (0xF8100 + 8 * i) 4)).toInt
def warnAt (s : State) : Int := (BitVec.ofNat 16 (pfGet s 0xF8300 2)).toInt
def critAt (s : State) : Int := (BitVec.ofNat 16 (pfGet s 0xF8308 2)).toInt

end Spec

/-! ## Frames -/

namespace Spec

/-- The forms that compute and touch nothing beside the registers of their own core: the scalar rows but for MTS, and the vector and special-function rows that are not jets. -/
def computes (i : Instr) : Bool :=
  match i with
  | .vadd f | .vsub f | .vmul f | .vfma f | .vfnma f | .vmin f | .vmax f | .vsel f => !f.j
  | .vabs f | .vneg f | .vmov f => !f.j
  | .rcp f | .rsq f | .sqrt f | .exp2 f | .log2 f | .exp f | .log f | .sin f | .cos f | .tanh f | .sigm f => !f.j
  | .vlogic _ | .vshl _ | .vshr _ | .vsar _ | .vcvt _ | .vcvtn _ | .vcvtw _ | .vpack _ | .vunpkl _ | .vunpkh _ | .vbcst _ | .vext _ | .vins _ | .vperm _ | .vxcopy _
  | .vred _ | .vxred _ | .vscan _ | .vhist _ | .vbmrg _ | .vbcx _ | .vbcxx _ | .vargmax _ | .vclamp _ | .vcmpeq _ | .vcmpne _ | .vcmplt _ | .vcmple _
  | .rcpstep _ | .rsqstep _ | .sel _ | .bfi _ | .movk _ | .mfs _ | .widf _ => true
  | i => (srRow i).isSome || (immRow i).isSome || (bitRow i).isSome || (predRow i).isSome

/-- Nothing but what is in flight on the bead's own core differs. -/
structure OnlyInFlight (s t : State) : Prop where
  rest : { t with cores := s.cores } = s
  others : ∀ c, c ≠ curId s → coreGet t c = coreGet s c
  own : ∃ l, coreGet t (curId s) = { coreGet s (curId s) with inflight := (coreGet s (curId s)).inflight ++ l }
  memory : ∀ a, memByte t a = memByte s a

end Spec

end Sys2Proof
end

