-- ==== Sys2Proof/Certificates/Slice0/Obligations.lean ====
section
/-! DEFINITION. The statements about the machine, from the numbered rules of the manual. -/

open Sys2Proof Sys2Proof.Machine

/-! ## Scalar rows -/

/-- R119, R121, R122, R125: the twenty-one three-register rows (add, sub, logic, shifts, minima and maxima, products and quotients), the immediate rows, MOVI and MOVK. -/
def Obligations.ScalarRowsDeliver : Prop :=
  (∀ i r, Spec.srRow i = some r → Spec.Delivers i r) ∧
  (∀ i r, Spec.immRow i = some r → Spec.Delivers i r)

/-- R123, R124: bit-field extracts, counts and the bit reversal; BFI inserts below and above its field nothing but the old bits, and guarded out does nothing; SEL always executes. -/
def Obligations.BitFieldsCountsAndSelect : Prop :=
  (∀ i r, Spec.bitRow i = some r → i.wf = true → Spec.Delivers i r) ∧
  (∀ (f : SBf) (s : State), (Instr.bfi f).wf = true → guardMet (curCore s) f.g = true →
    ∃ v : Word, exec (.bfi f) s = .next (emit s 1 (.scalar f.dst
        ⟨v, (readS (curCore s) (.n f.dst)).t || (readS (curCore s) f.a).t || guardTaint (curCore s) f.g⟩)) ∧
      ∀ k < 64, v.getLsbD k =
        if f.lsb.val ≤ k ∧ k ≤ f.lsb.val + f.lenM1.val then (readS (curCore s) f.a).v.getLsbD (k - f.lsb.val) else (readS (curCore s) (.n f.dst)).v.getLsbD k) ∧
  (∀ (f : SBf) (s : State), guardMet (curCore s) f.g = false → exec (.bfi f) s = .next s) ∧
  (∀ (f : SR) (s : State), (curCore s).parked = false →
    exec (.sel f) s = .next (emit s 1 (.scalar f.dst
      ⟨if ((curCore s).getP f.g.p.val).v = f.g.neg then (readS (curCore s) f.b).v else (readS (curCore s) f.a).v,
       (readS (curCore s) f.a).t || (readS (curCore s) f.b).t || ((curCore s).getP f.g.p.val).t || (curCore s).ctlTaint⟩)))

/-- R126, R127: the compares and the predicate logic. -/
def Obligations.ComparesAndPredicatesDeliver : Prop := ∀ i r, Spec.predRow i = some r → Spec.DeliversPred i r

/-- R106, R128, R129, R309: MFS returns the register's number, and clears a bank-loss counter that it reads; WIDF extracts one level of the work identifier. The result is tainted by the
guard, by control, and for MFS by the register: the unit, time and loss registers always, a gang register when it holds tainted data. Guarded out they do nothing. -/
def Obligations.SpecialRegisterReads : Prop :=
  (∀ (f : SMfs) (s : State), guardMet (curCore s) f.g = true →
    ∃ x : TWord, x.v.toNat = Spec.specialNat s f.reg ∧ x.t = (Spec.specialTaint s f.reg || guardTaint (curCore s) f.g) ∧
      exec (.mfs f) s = .next (let t := emit s 1 (.scalar f.dst x)
        match f.reg with
        | .blc i => emit t 1 (.blcClear i)
        | _ => t)) ∧
  (∀ (f : SLevel) (s : State), guardMet (curCore s) f.g = true →
    ∃ x : TWord, exec (.widf f) s = .next (emit s 1 (.scalar f.dst x)) ∧ x.t = guardTaint (curCore s) f.g ∧
      x.v.toNat = (curCore s).wid.toNat / 2^(((List.range f.level.val).map (runTask s s.cur.unit).wid).sum) % 2^((runTask s s.cur.unit).wid f.level.val)) ∧
  (∀ (f : SMfs) (s : State), guardMet (curCore s) f.g = false → exec (.mfs f) s = .next s) ∧
  (∀ (f : SLevel) (s : State), guardMet (curCore s) f.g = false → exec (.widf f) s = .next s)

/-- R128, R106, R104: MTS writes the special register from the next bundle on; a %VWB value beyond its limit traps; a gang register is bead 0's alone and the sequencer holds it; guarded out nothing happens. -/
def Obligations.SpecialRegisterWrites : Prop :=
  (∀ (f : SMts) (s : State), guardMet (curCore s) f.g = false → exec (.mts f) s = .next s) ∧
  ∀ (f : SMts) (s : State), (Instr.mts f).wf = true → guardMet (curCore s) f.g = true →
    match f.reg with
    | .gang i =>
      if s.cur.bead = 0 then
        ∃ t, exec (.mts f) s = .next t ∧
          Tbl.get ⟨0, false⟩ (curSeq t).gang i.val = ⟨(readS (curCore s) f.a).v, (readS (curCore s) f.a).t || guardTaint (curCore s) f.g⟩ ∧
          (∀ j, j ≠ i.val → Tbl.get ⟨0, false⟩ (curSeq t).gang j = Tbl.get ⟨0, false⟩ (curSeq s).gang j) ∧ t.cores = s.cores ∧ t.mem = s.mem
      else exec (.mts f) s = .next s
    | .vwb =>
      let b := (readS (curCore s) f.a).v.toNat % 4096
      exec (.mts f) s = .next (if b % 8 = 0 ∧ b + 232 ≤ 256 * vwfOf (curPword s) then emit s 1 (.special .vwb (readS (curCore s) f.a).v)
        else trapHere s 0x0302 s.cur.slot.val)
    | r => exec (.mts f) s = .next (emit s 1 (.special r (readS (curCore s) f.a).v))

/-! ## Control and system forms -/

/-- R131, R133, R120: BR, BRGZ, BRGNZ, CALL and RET act once, on bead 0; a taken transfer leaves two delay bundles and then goes to its target; CALL saves the position after the second delay bundle in a gang register. On every other bead each leaves the state. -/
def Obligations.TransfersTakeTheirTarget : Prop :=
  (∀ s : State, s.cur.bead ≠ 0 → (∀ imm, exec (.br imm) s = .next s) ∧ (∀ f, exec (.brgz f) s = .next s) ∧ (∀ f, exec (.brgnz f) s = .next s) ∧
    (∀ g, exec (.ret g) s = .next s) ∧ ∀ f, exec (.call f) s = .next s) ∧
  ∀ s : State, s.cur.bead = 0 →
    (∀ imm, Spec.Controls (.br imm) s (Spec.jumped (curSeq s) (Spec.target s imm))) ∧
    (∀ f : CGang, Spec.Controls (.brgz f) s (if (readS (curCore s) (.g f.g)).v = 0 then Spec.jumped (curSeq s) (Spec.target s f.imm) else curSeq s)) ∧
    (∀ f : CGang, Spec.Controls (.brgnz f) s (if (readS (curCore s) (.g f.g)).v = 0 then curSeq s else Spec.jumped (curSeq s) (Spec.target s f.imm))) ∧
    (∀ g, Spec.Controls (.ret g) s (Spec.jumped (curSeq s) (readS (curCore s) (.g g)).v)) ∧
    (∀ f : CGang, ∃ t, exec (.call f) s = .next t ∧ (curSeq t).target = some (Spec.target s f.imm, 2) ∧
      (Tbl.get ⟨0, false⟩ (curSeq t).gang f.g.val).v = BitVec.ofNat 64 (returnPos s) ∧
      (∀ j, j ≠ f.g.val → Tbl.get ⟨0, false⟩ (curSeq t).gang j = Tbl.get ⟨0, false⟩ (curSeq s).gang j) ∧ t.cores = s.cores ∧ t.mem = s.mem)

/-- R132, R134: BRANY is taken when some bead that is not parked passes the test, BRALL when every such bead does; otherwise the stream goes on. On every other bead they leave the state. -/
def Obligations.RodWideBranches : Prop :=
  (∀ (s : State) (f : CTest), s.cur.bead ≠ 0 → exec (.brany f) s = .next s ∧ exec (.brall f) s = .next s) ∧
  ∀ (s : State) (f : CTest), s.cur.bead = 0 →
    (Spec.anyBead s f.t → Spec.Controls (.brany f) s (Spec.jumped (curSeq s) (Spec.target s f.imm))) ∧
    (¬ Spec.anyBead s f.t → Spec.Controls (.brany f) s (curSeq s)) ∧
    (Spec.allBeads s f.t → Spec.Controls (.brall f) s (Spec.jumped (curSeq s) (Spec.target s f.imm))) ∧
    (¬ Spec.allBeads s f.t → Spec.Controls (.brall f) s (curSeq s))

/-- R135 to R138: LOOP and LOOPI push an entry of at least one iteration or trap beyond depth six; LBRK makes the iteration the last, before its own bundle closes; LIDX delivers the index of its level or traps; at the close of an iteration the index rises and the loop goes round while it is below the count, else the entry is popped. LOOP, LOOPI and LBRK act on bead 0 and leave the state on every other bead. -/
def Obligations.Loops : Prop :=
  (∀ s : State, s.cur.bead ≠ 0 → (∀ f, exec (.loop f) s = .next s) ∧ (∀ f, exec (.loopi f) s = .next s) ∧ ∀ g, exec (.lbrk g) s = .next s) ∧
  (∀ (s : State) (f : CLoop), s.cur.bead = 0 → 6 ≤ (curSeq s).loops.length → exec (.loop f) s = .next (trapHere s 0x0302 0)) ∧
  (∀ (s : State) (g : Guard) (e : LoopEntry) (r : List LoopEntry), s.cur.bead = 0 → s.cur.lend = true → (curSeq s).loops = e :: r → Spec.loopsSound (curSeq s) → ¬ Spec.anyBead s g →
    ∃ t, exec (.lbrk g) s = .next t ∧ ((curSeq t).loops, (curSeq t).pc) = Spec.closed (curSeq s) s.cur.pos) ∧
  ((∀ (s : State) (f : CLoop), s.cur.bead = 0 → (curSeq s).loops.length < 6 → ∃ st, Spec.Controls (.loop f) s { curSeq s with
      loops := ⟨0, if (readS (curCore s) f.a).v.toNat % 2^32 = 0 then 1 else BitVec.ofNat 32 (readS (curCore s) f.a).v.toNat, st, none, f.p⟩ :: (curSeq s).loops } ∧
      st = succPos (curSeq s) (runTask s s.cur.unit) s.cur.pos) ∧
  (∀ (s : State) (f : CLoopI), s.cur.bead = 0 → (curSeq s).loops.length < 6 → ∃ st, Spec.Controls (.loopi f) s { curSeq s with
      loops := ⟨0, if f.count = 0 then 1 else BitVec.ofNat 32 f.count.toNat, st, none, f.p⟩ :: (curSeq s).loops } ∧
      st = succPos (curSeq s) (runTask s s.cur.unit) s.cur.pos) ∧
  (∀ (s : State) (f : CLoopI), s.cur.bead = 0 → 6 ≤ (curSeq s).loops.length → exec (.loopi f) s = .next (trapHere s 0x0302 0)) ∧
  (∀ (s : State) (g : Guard) (e : LoopEntry) (r : List LoopEntry), s.cur.bead = 0 → s.cur.lend = false → (curSeq s).loops = e :: r →
    (Spec.anyBead s g → Spec.Controls (.lbrk g) s { curSeq s with loops := { e with count := e.index + 1 } :: r }) ∧
    (¬ Spec.anyBead s g → Spec.Controls (.lbrk g) s (curSeq s))) ∧
  (∀ (s : State) (g : Guard) (e : LoopEntry) (r : List LoopEntry), s.cur.bead = 0 → s.cur.lend = true → (curSeq s).loops = e :: r → Spec.anyBead s g →
    ∃ t, exec (.lbrk g) s = .next t ∧ (curSeq t).loops = r ∧ (curSeq t).pc = (curSeq s).pc) ∧
  (∀ (s : State) (g : Guard), s.cur.bead = 0 → (curSeq s).loops = [] → exec (.lbrk g) s = .next (trapHere s 0x0302 0)) ∧
  (∀ (s : State) (f : CLidx), (curCore s).parked = false → exec (.lidx f) s = .next (match Tbl.find? (curCore s).cur (16 + f.level.val) with
    | some x => emit s 1 (.scalar f.dst ⟨x.v, (curCore s).ctlTaint⟩)
    | none => trapHere s 0x0302 0))) ∧
  (∀ (cycle pos : Nat) (u : Seq), Spec.loopsSound u →
    ((closeLoop cycle pos u).loops, (closeLoop cycle pos u).pc) = Spec.closed u pos ∧ Spec.loopsSound (closeLoop cycle pos u) ∧
      (closeLoop cycle pos u).gang = u.gang ∧ (closeLoop cycle pos u).target = u.target ∧ (closeLoop cycle pos u).run = u.run)

/-- R139, R140, R141: WAIT sets the bead's six limits, which are met when every counter is at or below its limit or the limit is 15; SCHSEL transfers to the schedule that R10 selects; on another bead it leaves the state; an image without schedules traps; END lets the bead retire and the unit broadcast no more. That the limits are compared from the next cycle on is the model's choice (log 73). -/
def Obligations.WaitScheduleAndEnd : Prop :=
  (∀ (s : State) (f : CWait), exec (.wait f) s = .next (modCur s fun c => { c with limits := some [f.ld.val, f.st.val, f.cp.val, f.mx.val, f.en.val, f.nw.val] })) ∧
  (∀ (c : Core) (f : CWait), limitsMet c [f.ld.val, f.st.val, f.cp.val, f.mx.val, f.en.val, f.nw.val] = true ↔
    ∀ k : Fin 6, ([f.ld, f.st, f.cp, f.mx, f.en, f.nw].getD k.val 15 = 15 ∨ c.ctr (k.val + 1) ≤ ([f.ld, f.st, f.cp, f.mx, f.en, f.nw].getD k.val 15).val)) ∧
  (∀ (s : State) (d : Store) (h : d.scheds ≠ []), s.cur.bead = 0 → (curSeq s).dict = some d →
    Spec.Controls .schsel s (Spec.jumped (curSeq s) (BitVec.ofNat 64 (Spec.schedule (curCore s).occ.toNat (curCore s).dlen.toNat d.scheds h)))) ∧
  (∀ s : State, s.cur.bead ≠ 0 → exec .schsel s = .next s) ∧
  (∀ s : State, s.cur.bead = 0 → (∀ d, (curSeq s).dict = some d → d.scheds = []) → exec .schsel s = .next (trapHere s 0x0302 0)) ∧
  (∀ s : State, ∃ t, exec .endK s = .next t ∧ curCore t = { curCore s with ending := true } ∧
    curSeq t = { curSeq s with ended := if s.cur.bead = 0 then true else (curSeq s).ended } ∧ t.mem = s.mem ∧
    ∀ c, c ≠ curId s → coreGet t c = coreGet s c)

/-- R142, R314, R315, R317: a TRAP and a BREAK whose guard is met take a trap that holds the launch, with the form's code as detail, and do nothing otherwise; what taking a trap leaves, for every code: hold for SOFTWARE_TRAP and BREAK, abort for every other. -/
def Obligations.TrapsAreTaken : Prop :=
  (∀ (s : State) (r : PassRun), Spec.MayTrap s s.cur.unit.val r →
    (∀ f : CT, guardMet (curCore s) f.g = true →
      ∃ t, exec (.trap f) s = .next t ∧ Spec.TrapTaken s t s.cur.unit.val s.cur.bead.val s.cur.pos 0x0401 f.imm.toNat r ∧ t.mem = s.mem) ∧
    (∀ g : Guard, guardMet (curCore s) g = true → trapFollows s = false →
      ∃ t, exec (.brk g) s = .next t ∧ Spec.TrapTaken s t s.cur.unit.val s.cur.bead.val s.cur.pos 0x0402 0 r ∧ t.mem = s.mem) ∧
    (∀ f : CT, guardMet (curCore s) f.g = false → exec (.trap f) s = .next s) ∧
    (∀ g : Guard, guardMet (curCore s) g = false → exec (.brk g) s = .next s)) ∧
  (∀ (s : State) (q bead pos code detail : Nat) (r : PassRun), Spec.MayTrap s q r → Spec.TrapTaken s (takeTrap s q bead pos code detail) q bead pos code detail r)

/-- R316, R324: returning from a hold: the task's hold and its passes' stops are cleared, a pass kept in place goes on, and one that was not held does not change. -/
def Obligations.ReturningFromAHold : Prop :=
  ∀ (s : State) (task : Nat),
    (taskOf (clearHold s task) task).hold = none ∧
    (∀ q < 48, ∀ r st, (seqOf s q).run = some r → (seqOf s q).stop = some st → r.task = task → st.phase = .kept → st.cause = .hold →
      (seqOf (clearHold s task) q).stop = none ∧ (seqOf (clearHold s task) q).run = some r ∧ (seqOf (clearHold s task) q).pc = (seqOf s q).pc) ∧
    (∀ q, (∀ r, (seqOf s q).run = some r → r.task ≠ task) → seqOf (clearHold s task) q = seqOf s q) ∧
    (clearHold s task).mem = s.mem

/-- R143, R144: a bead's SVC leaves its 32-byte record, the service number, the bead, the Rod, the position, the work identifier, n1 and n2, to be posted at the end of its cycle, the lower bead first, unless an access of the unit waits; posting writes the record before the tail, and a full or disabled ring counts the loss and writes nothing; guarded out, SVC does nothing. -/
def Obligations.ServiceRecords : Prop :=
  (∀ (f : CT) (s : State), exec (.svc f) s = .next (if guardMet (curCore s) f.g = true then modCur s fun c => { c with svc := c.svc ++ [serviceRecord s f.imm] } else s)) ∧
  (∀ (s : State) (imm : BitVec 16) (r : List Byte), r = serviceRecord s imm → r.length = 32 ∧ leOf (r.take 2) = imm.toNat ∧ leOf ((r.drop 2).take 1) = s.cur.bead.val ∧
    leOf ((r.drop 3).take 1) = s.cur.unit.val ∧ leOf ((r.drop 4).take 4) = s.cur.pos % 2^32 ∧ leOf ((r.drop 8).take 8) = (curCore s).wid.toNat ∧
    leOf ((r.drop 16).take 8) = ((curCore s).getN 1).v.toNat ∧ leOf ((r.drop 24).take 8) = ((curCore s).getN 2).v.toNat) ∧
  (∀ (s : State) (q : Nat), (∃ i ∈ coresOf s q, (coreGet s i).held ≠ [] ∨ ∃ o ∈ (coreGet s i).ops, o.waiting = true) → postServices s q = s) ∧
  (∀ (s : State) (q c p : Nat) (r : PassRun) (b : List Byte), (seqOf s q).run = some r → p = r.part → p < 40 → c ∈ coresOf s q → (coresOf s q).Nodup → (coreGet s c).svc = [b] → b.length = 32 →
    (∀ i ∈ coresOf s q, i ≠ c → (coreGet s i).svc = []) → (∀ i ∈ coresOf s q, (coreGet s i).held = [] ∧ ∀ o ∈ (coreGet s i).ops, o.waiting = false) →
    (postServices s q).seqs = s.seqs ∧ coreGet (postServices s q) c = { coreGet s c with svc := [] } ∧ (∀ i, i ≠ c → coreGet (postServices s q) i = coreGet s i) ∧
      (if Spec.svcBase s p = 0 ∨ (Spec.svcTail s p + 1) % 256 = Spec.svcHead s p then
        (postServices s q).mem = s.mem ∧ Spec.svcLost (postServices s q) p = min (2^32 - 1) (Spec.svcLost s p + 1) ∧ Spec.svcTail (postServices s q) p = Spec.svcTail s p
      else
        Spec.svcTail (postServices s q) p = (Spec.svcTail s p + 1) % 256 ∧ Spec.svcLost (postServices s q) p = Spec.svcLost s p ∧
        (∀ i < 32, memByte (postServices s q) (Spec.svcBase s p + 32 * Spec.svcTail s p + i) = b.getD i 0) ∧
        (Spec.Unlogged s → ∀ a, a < Spec.svcBase s p + 32 * Spec.svcTail s p ∨ Spec.svcBase s p + 32 * Spec.svcTail s p + 32 ≤ a → memByte (postServices s q) a = memByte s a))) ∧
  (∀ (s : State) (q c d p m n : Nat) (r : PassRun) (b x : List Byte), (seqOf s q).run = some r → p = r.part → p < 40 → (coresOf s q)[m]? = some c → (coresOf s q)[n]? = some d → m < n → (coresOf s q).Nodup →
    (coreGet s c).svc = [b] → (coreGet s d).svc = [x] → b.length = 32 → x.length = 32 → (∀ i ∈ coresOf s q, i ≠ c → i ≠ d → (coreGet s i).svc = []) →
    (∀ i ∈ coresOf s q, (coreGet s i).held = [] ∧ ∀ o ∈ (coreGet s i).ops, o.waiting = false) → Spec.Unlogged s → Spec.svcBase s p ≠ 0 →
    (Spec.svcTail s p + 1) % 256 ≠ Spec.svcHead s p → (Spec.svcTail s p + 2) % 256 ≠ Spec.svcHead s p →
    Spec.svcTail (postServices s q) p = (Spec.svcTail s p + 2) % 256 ∧ (∀ i < 32, memByte (postServices s q) (Spec.svcBase s p + 32 * Spec.svcTail s p + i) = b.getD i 0) ∧
      ∀ i < 32, memByte (postServices s q) (Spec.svcBase s p + 32 * ((Spec.svcTail s p + 1) % 256) + i) = x.getD i 0)

/-- R86, R94, R226, R292, R145, R146: the idle words, PRF and FENCE.OWN change nothing; SAVEM sets the save mask from the next bundle on; SLACK gives every bound stream of its region the header's slack again. -/
def Obligations.IdleHintsSaveMaskAndSlack : Prop :=
  ∀ s : State, exec .nop s = .next s ∧ exec .fnop s = .next s ∧ exec .mnop s = .next s ∧ (∀ f, exec (.prf f) s = .next s) ∧ (∀ f, exec (.fenceOwn f) s = .next s) ∧
    (∀ f : CSavem, guardMet (curCore s) f.g = true → exec (.savem f) s = .next (emit s 1 (.savemask (BitVec.ofNat 48 (readS (curCore s) f.a).v.toNat)))) ∧
    (∀ f : CSlack, guardMet (curCore s) f.g = true → ∃ t, exec (.slack f) s = .next t ∧ t.mem = s.mem ∧ (∀ c, c ≠ curId s → coreGet t c = coreGet s c) ∧
      ∀ z < 8, streamOf (curCore t) z = (let st := streamOf (curCore s) z
        if st.bound = true ∧ st.desc ≠ none ∧ st.region = f.region.val then { st with slack := hdrField (runTask s s.cur.unit).hdr (64 + 2 * f.region.val) 2 } else st)) ∧
    (∀ f : CSavem, guardMet (curCore s) f.g = false → exec (.savem f) s = .next s) ∧
    (∀ f : CSlack, guardMet (curCore s) f.g = false → exec (.slack f) s = .next s)

/-! ## Vector and special-function rows -/

/-- R171 to R178, R181, R182, R195: the lane-wise arithmetic, element by element, for every type the row has. -/
def Obligations.VectorArithmeticLanes : Prop :=
  ∀ (s : State) (i : Instr) (r : Spec.LaneRow), Spec.arithRow (curCore s).rnd.toNat i = some r → i.wf = true → (curCore s).parked = false → Spec.DeliversLanes i s r

/-- R183 to R186: conversions, narrow formats, packing with saturation, and widening. -/
def Obligations.VectorConversionLanes : Prop :=
  ∀ (s : State) (i : Instr) (r : Spec.LaneRow), Spec.convRow (curCore s).rnd.toNat i = some r → (curCore s).parked = false → Spec.DeliversLanes i s r

/-- R196 to R200: the special functions and the refinement steps, with their latencies, kept bits and rounding. -/
def Obligations.SpecialFunctionLanes : Prop :=
  ∀ (s : State) (i : Instr) (r : Spec.LaneRow), Spec.functionRow s i = some r → (curCore s).parked = false → Spec.DeliversLanes i s r

/-- R19, R119, R174: a scalar, vector or special-function form that computes changes nothing but what is in flight on its own core: no register before its result lands, no status, no byte of memory, no other core; on a parked bead it does nothing at all. -/
def Obligations.ComputingFormsChangeNothingElse : Prop :=
  ∀ (s : State) (i : Instr), Spec.computes i = true →
    ∃ t, exec i s = .next t ∧ Spec.OnlyInFlight s t ∧ ((curCore s).parked = true → t = s)

/-- R179: a compare writes a mask whose active lanes hold 1 exactly where the relation holds for every element, and raises NV for the NaNs that its relation names; m0 discards the result and its flags. -/
def Obligations.VectorCompares : Prop :=
  ∀ (s : State) (i : Instr) (op : Fin 4) (f : VCmp), Spec.cmpRow i = some (op, f) → (curCore s).parked = false →
    ∃ x lanes fl, exec i s = .next (Spec.raising 3 fl (emit s 3 (.mask f.md x lanes))) ∧
      (f.md = 0 → fl = 0) ∧
      (∀ bad : Prop, (bad ↔ ∃ l < 128, Spec.lives s f.m l ∧ ∃ e < 32 / tyWidth f.ty, Spec.comparesBadly op f.ty (Spec.element s (tyWidth f.ty) l e f.a) (Spec.element s (tyWidth f.ty) l e f.b)) →
        f.md ≠ 0 → (bad → fl = 0x10) ∧ (¬ bad → fl = 0)) ∧
      ∀ l < 128, (lanes.getLsbD l = true ↔ Spec.lives s f.m l) ∧ (Spec.lives s f.m l →
        (x.v.getLsbD l = true ↔ ∀ e < 32 / tyWidth f.ty, Spec.related op f.ty (Spec.element s (tyWidth f.ty) l e f.a) (Spec.element s (tyWidth f.ty) l e f.b) = true) ∧
        x.t.getLsbD l = Spec.laneTaint s f.m [f.a, f.b] l)

/-- R180, R182, R187, R188: VSEL, VBCST, VPERM and VXCOPY: which lane of which source each lane receives, no flag being raised, and its taint, for VPERM and VXCOPY that of every lane read; VEXT reads one lane into a register, VINS writes the low 32 bits of a scalar into one lane of an enabled cluster and no other. -/
def Obligations.LaneMovement : Prop :=
  (∀ s : State, (curCore s).parked = false →
    (∀ f : VB, f.j = false → Spec.Lanes (.vsel f) s 3 f.dst (Spec.on s) (fun l => if ((curCore s).getM f.m.val).v.getLsbD l then Spec.lane s f.a l else Spec.lane s f.b l)
      (fun l => Spec.ltaint s f.a l || Spec.ltaint s f.b l || Spec.gtaint s f.m l) Spec.noFlag) ∧
    (∀ f : VBcstF, Spec.Lanes (.vbcst f) s 3 f.dst (Spec.lives s f.m) (fun _ => (readS (curCore s) f.a).v.toNat % 2^32)
      (fun l => (readS (curCore s) f.a).t || Spec.gtaint s f.m l) Spec.noFlag) ∧
    (∀ f : VPermF, Spec.Lanes (.vperm f) s 3 f.dst (Spec.lives s f.m) (fun l => Spec.lane s f.a (l / 16 * 16 + Spec.lane s f.b l % 16))
      (fun l => Spec.wholeTaint s f.a || Spec.readTaint s f.m f.b || Spec.gtaint s f.m l) Spec.noFlag) ∧
    (∀ f : VPermF, Spec.Lanes (.vxcopy f) s 6 f.dst (Spec.lives s f.m) (fun l => Spec.lane s f.a (Spec.lane s f.b l % 128))
      (fun l => Spec.wholeTaint s f.a || Spec.readTaint s f.m f.b || Spec.gtaint s f.m l) Spec.noFlag)) ∧
  (∀ s : State, (curCore s).parked = false →
    (∀ f : VExtF, exec (.vext f) s = .next (emit s 3 (.scalar f.dst
      ⟨BitVec.ofNat 64 (Spec.lane s f.a f.lane.val), Spec.ltaint s f.a f.lane.val || (curCore s).ctlTaint⟩))) ∧
    (∀ f : VInsF, Spec.Lanes (.vins f) s 3 (.v f.dst) (fun l => l = f.lane.val ∧ Spec.on s l) (fun _ => (readS (curCore s) f.a).v.toNat % 2^32)
      (fun _ => (readS (curCore s) f.a).t || (curCore s).ctlTaint) Spec.noFlag))

/-- R189, R190: VRED and VXRED combine the active lanes in the fixed tree, of a cluster and of all enabled clusters; VSCAN delivers to each active lane the inclusive prefix of its cluster; each raises the flags of the operations it performs for its active lanes. -/
def Obligations.ReductionsAndScans : Prop :=
  (∀ (s : State) (f : VRedF), (curCore s).parked = false →
    Spec.Lanes (.vred f) s 5 f.dst (Spec.lives s f.m) (fun l => Spec.treeVal f.op (curCore s).rnd.toNat (Spec.leaf s f) 4 (l / 16 * 16))
      (fun l => Spec.readTaint s f.m f.a || Spec.gtaint s f.m l)
      (fun b => ∃ l < 128, Spec.lives s f.m l ∧ (Spec.treeFlags f.op (curCore s).rnd.toNat (Spec.leaf s f) (fun _ => 0) 4 (l / 16 * 16)).getLsbD b = true) ∧
    Spec.Lanes (.vxred f) s 11 f.dst (Spec.lives s f.m)
      (fun _ => Spec.treeVal f.op (curCore s).rnd.toNat
        (fun c => if (curCore s).cmk.getLsbD c then Spec.treeVal f.op (curCore s).rnd.toNat (Spec.leaf s f) 4 (16 * c) else redIdent f.op) 3 0)
      (fun l => Spec.readTaint s f.m f.a || Spec.gtaint s f.m l)
      (fun b => (∃ l < 128, Spec.lives s f.m l) ∧ (Spec.treeFlags f.op (curCore s).rnd.toNat
        (fun c => if (curCore s).cmk.getLsbD c then Spec.treeVal f.op (curCore s).rnd.toNat (Spec.leaf s f) 4 (16 * c) else redIdent f.op)
        (fun c => if (curCore s).cmk.getLsbD c then Spec.treeFlags f.op (curCore s).rnd.toNat (Spec.leaf s f) (fun _ => 0) 4 (16 * c) else 0) 3 0).getLsbD b = true)) ∧
  (∀ (s : State) (f : VRedF), (curCore s).parked = false →
    Spec.Lanes (.vscan f) s 5 f.dst (Spec.lives s f.m) (fun l => Spec.prefixVal s f (l / 16) (l % 16 + 1)) (fun l => Spec.readTaint s f.m f.a || Spec.gtaint s f.m l)
      (fun b => ∃ l < 128, Spec.lives s f.m l ∧ (redApply f.op (curCore s).rnd.toNat (Spec.prefixVal s f (l / 16) (l % 16)) (Spec.lane s f.a l)).2.getLsbD b = true))

/-- R191, R192: VHIST puts its counts in flight for the bins; VBMRG delivers to lane b < 8 of a cluster the sum of bin b over the cluster's active lanes, and 0 to the others, tainted if any lane it reads is. -/
def Obligations.HistogramForms : Prop :=
  ∀ s : State, (curCore s).parked = false →
    (∀ f : VHistF, exec (.vhist f) s = .next (emit s 4 (.hist ((curCore s).vwb.toNat + f.d.val) (readVec (curCore s) f.a).v (readVec (curCore s) f.b).v
      (active (curCore s) f.m) ((readVec (curCore s) f.a).t ||| (readVec (curCore s) f.b).t ||| laneGuardTaint (curCore s) f.m)))) ∧
    (∀ f : VBmrgF, f.a.val + 8 ≤ 232 → Spec.Lanes (.vbmrg f) s 8 f.dst (Spec.on s)
      (fun l => if l % 16 < 8 then
          (((List.range 16).filter fun k => (active (curCore s) f.m).getLsbD (l / 16 * 16 + k)).map fun k =>
            (laneOf ((curCore s).getW ((curCore s).vwb.toNat + f.a.val + l % 16)).v (l / 16 * 16 + k)).toNat).sum % 2^32
        else 0) (fun l => (List.range 8).any (fun b => Spec.binTaint s f.m (f.a.val + b)) || Spec.gtaint s f.m l) Spec.noFlag)

/-- R193, R194: each stage of a bitonic network leaves every pair of enabled lanes 2^j apart with the same two key and value pairs, in the order its direction wants; VARGMAX delivers to every active lane a pair of its cluster that no active lane's pair precedes. -/
def Obligations.SortingForms : Prop :=
  (∀ (s : State) (f : VBcxF) (wide : Bool), (curCore s).parked = false → (if wide then (Instr.vbcxx f).wf else (Instr.vbcx f).wf) = true →
    ∃ kv vv t lanes, exec (if wide = true then Instr.vbcxx f else Instr.vbcx f) s =
        .next (emit (emitVec s (if wide then 6 else 3) (.v f.dst) kv t lanes 0) (if wide then 6 else 3) (.vec ((curCore s).vwb.toNat + (f.dst.val + 1)) ⟨vv, t⟩ lanes)) ∧
      ∀ l < 128, l / 2^f.j.val % 2 = 0 → Spec.on s l → Spec.on s (l + 2^f.j.val) →
        lanes.getLsbD l = true ∧ lanes.getLsbD (l + 2^f.j.val) = true ∧
        (Spec.pairOf kv vv l = Spec.pairAt s f.a.val l ∧ Spec.pairOf kv vv (l + 2^f.j.val) = Spec.pairAt s f.a.val (l + 2^f.j.val) ∨
          Spec.pairOf kv vv l = Spec.pairAt s f.a.val (l + 2^f.j.val) ∧ Spec.pairOf kv vv (l + 2^f.j.val) = Spec.pairAt s f.a.val l) ∧
        precedes f.int ((l / 2^f.k.val % 2 == 0) != f.desc) (Spec.pairOf kv vv (l + 2^f.j.val)) (Spec.pairOf kv vv l) = false) ∧
  (∀ (s : State) (f : VArgF), (curCore s).parked = false →
    ∃ xv yv t fl, exec (.vargmax f) s = .next (Spec.raising 5 (if fl = true then flNV else 0) (emit (emit s 5 (.vec ((curCore s).vwb.toNat + f.dst.val) ⟨xv, t⟩ (active (curCore s) f.m)))
          5 (.vec ((curCore s).vwb.toNat + (f.dst.val + 1)) ⟨yv, t⟩ (active (curCore s) f.m)))) ∧
      ∀ l < 128, Spec.lives s f.m l → ∃ k, k / 16 = l / 16 ∧ Spec.lives s f.m k ∧ (laneOf yv l).toNat = Spec.lane s f.b k ∧
        ((f.int = true ∨ (unpack fmt32 (Spec.lane s f.a k)).isNan = false) → (laneOf xv l).toNat = Spec.lane s f.a k) ∧
        ∀ n < 128, n / 16 = l / 16 → Spec.lives s f.m n →
          precedes f.int false (Spec.lane s f.a n, Spec.lane s f.b n) (Spec.lane s f.a k, Spec.lane s f.b k) = false)


/-! ## Jets -/

/-- R202, R203, R207, R210, R211: the coefficientwise rows and the raw moves, whole groups in flight together. -/
def Obligations.JetMovesAndCoefficientwiseRows : Prop :=
  (∀ (s : State) (i : Instr) (r : Spec.JetRow), Spec.plainJet s i = some r → i.wf = true → (curCore s).parked = false → Spec.jetReady s r → Spec.DeliversJet i s r) ∧
  (∀ (s : State) (f : JIdx), (curCore s).parked = false → f.dst.val % Spec.alignment (Spec.order s) = 0 → Spec.order s < f.i.val → exec (.jput f) s = .next s)

/-- R205, R206, R208, R209, R213: products, quotients, powers and functions of jets; each takes the series unit for its occupancy; the coefficients of an integral power are those of repeated products of series, and those of a negative power of the reciprocal series; a quotient whose dividend is zero is the zero of R206, −0 when rounding down, and so is a finite value divided by an infinite one; JSINCOS delivers the sine group at its destination and the cosine group one alignment above it (R213). -/
def Obligations.JetSeries : Prop :=
  (∀ (s : State) (i : Instr) (r : Spec.JetRow), Spec.seriesJet s i = some r → i.wf = true → (curCore s).parked = false → Spec.jetReady s r → Spec.DeliversJet i s r) ∧
  (∀ (k : Nat) (x : List Nat), x.length = k + 1 → Spec.finiteAll x →
    (∀ n ≤ k, Spec.sameEx (powCoef k x 0 n) ⟨if n = 0 then 1 else 0, 1⟩) ∧
    (∀ (p : Nat), ∀ n ≤ k, Spec.sameEx (powCoef k x (p + 1) n) (sumEx (fun i => (Spec.at_ x i).mul (powCoef k x p (n - i))) 0 (n + 1))) ∧
    ((v32 (x.getD 0 0)).isZero = false → ∀ (p : Nat), ∀ n ≤ k,
      Spec.sameEx (sumEx (fun i => (powCoef k x p i).mul (powCoef k x (-(p : Int)) (n - i))) 0 (n + 1)) ⟨if n = 0 then 1 else 0, 1⟩)) ∧
  (∀ (mode : RMode) (a b : Bool) (u v : Ex), v.isZero = false →
    fdivR mode (.fin a u) (.fin b v) = if u.isZero = true then ⟨fmt32.zero (mode == 2), 0⟩ else roundTo fmt32 23 mode (a != b) (u.div v)) ∧
  (∀ (mode : RMode) (a b : Bool) (u : Ex), fdivR mode (.fin a u) (.inf b) = ⟨fmt32.zero (mode == 2), 0⟩) ∧
  (∀ (s : State) (f : FForm), (curCore s).parked = false → winName f.dst % Spec.alignment (Spec.order s) = 0 → winName f.src % Spec.alignment (Spec.order s) = 0 →
    (curCore s).series = 0 → winName f.dst + Spec.alignment (Spec.order s) + Spec.order s ≤ 231 →
    ∃ t lanes sn cs, exec (.jsincos f) s = .next (emitJet (emitJet (Spec.occupied s true) (10 + 2 * Spec.order s) (winName f.dst) (Spec.order s + 1) t lanes sn)
        (10 + 2 * Spec.order s) (winName f.dst + Spec.alignment (Spec.order s)) (Spec.order s + 1) t lanes cs) ∧
      (∀ l < 128, lanes.getLsbD l = true ↔ Spec.lives s f.m l) ∧
      (∀ l < 128, t.getLsbD l = (((Spec.groupAt s (winName f.src)).any fun v => (readW (curCore s) v).t.getLsbD l) || Spec.gtaint s f.m l)) ∧
      ∀ l < 128, Spec.lives s f.m l → Spec.TrigPair (if f.level = 0 then 23 else if f.level = 1 then 16 else 11) (Spec.fRound s f.rnd) (Spec.order s)
        (Spec.jet s (winName f.src) l) (sn l) (cs l))

/-- R148 to R152, R154, R156, R158, R177, R179, R183, R189: the floating-point primitives that the vector, conversion, reduction and jet rows use. A code is read as its value; an exact value rounds
to the neighbour that its mode names, with OF, UF and NX as R152 sets them, and a zero result has the sign of R149; sums, products and fused multiply-adds deliver the exact result so rounded, the
infinity, or the canonical NaN with NV where R150 raises it; compares and minima follow the order of numbers; conversions follow R156 and R158, saturating where the target has no infinity; one
step of a reduction is the operation that its suffix names. -/
def Obligations.FloatingPointRules : Prop :=
  (∀ f ∈ Spec.floats, ∀ g, g = Spec.codes f f.frac →
    (∀ b < 2 * g.sign,
      (g.top + 1 < b % g.sign → unpack f b = .nan (decide (b % 2^g.frac < 2^(g.frac - 1)))) ∧
      (b % g.sign = g.top + 1 → unpack f b = .inf (decide (g.sign ≤ b))) ∧
      (b % g.sign ≤ g.top → ∃ x, unpack f b = .fin (decide (g.sign ≤ b)) x ∧ Spec.stands g b x)) ∧
    (∀ (p : Nat) (mode : RMode) (zneg : Bool) (x : Ex), 1 ≤ p → p ≤ f.frac → mode < 4 → 0 < x.d → Spec.Rounds (Spec.codes f p) mode zneg x (roundTo f p mode zneg x)) ∧
    (∀ (mode : RMode) (x y : FVal), mode < 4 → Spec.sound x → Spec.sound y →
      (x.isNan = true ∨ y.isNan = true → fsum f mode x y = ⟨g.quiet, Spec.nvIf (x.isSig = true ∨ y.isSig = true)⟩) ∧
      (∀ a b, x = .inf a → y = .inf b → fsum f mode x y = if a = b then ⟨g.infinity a, 0⟩ else ⟨g.quiet, flNV⟩) ∧
      (∀ a, x = .inf a ∧ Spec.isFin y ∨ Spec.isFin x ∧ y = .inf a → fsum f mode x y = ⟨g.infinity a, 0⟩) ∧
      (∀ a u b v, x = .fin a u → y = .fin b v →
        if u.n = 0 ∧ v.n = 0 ∧ a = b then fsum f mode x y = ⟨g.signOf a, 0⟩ else Spec.Rounds g mode (mode == 2) ⟨u.n * v.d + v.n * u.d, u.d * v.d⟩ (fsum f mode x y)) ∧
      (x.isNan = true ∨ y.isNan = true ∨ Spec.zeroTimesInf x y = true →
        fmulR f mode x y = ⟨g.quiet, Spec.nvIf (x.isSig = true ∨ y.isSig = true ∨ Spec.zeroTimesInf x y = true)⟩) ∧
      (x.isNan = false → y.isNan = false → Spec.zeroTimesInf x y = false → x.isInf = true ∨ y.isInf = true → fmulR f mode x y = ⟨g.infinity (x.isNeg != y.isNeg), 0⟩) ∧
      (∀ a u b v, x = .fin a u → y = .fin b v → Spec.Rounds g mode (a != b) ⟨u.n * v.n, u.d * v.d⟩ (fmulR f mode x y))) ∧
    (∀ (mode : RMode) (sub : Bool) (x y z : FVal) (neg : Bool), mode < 4 → Spec.sound x → Spec.sound y → Spec.sound z → neg = ((x.isNeg != y.isNeg) != sub) →
      (x.isNan = true ∨ y.isNan = true ∨ z.isNan = true ∨ Spec.zeroTimesInf x y = true ∨ Spec.opposed x y z neg = true →
        ffma f mode sub x y z =
          ⟨g.quiet, Spec.nvIf (x.isSig = true ∨ y.isSig = true ∨ z.isSig = true ∨ Spec.zeroTimesInf x y = true ∨ Spec.opposed x y z neg = true)⟩) ∧
      (x.isNan = false → y.isNan = false → z.isNan = false → Spec.zeroTimesInf x y = false → Spec.opposed x y z neg = false →
        (x.isInf = true ∨ y.isInf = true → ffma f mode sub x y z = ⟨g.infinity neg, 0⟩) ∧
        (∀ c, Spec.isFin x → Spec.isFin y → z = .inf c → ffma f mode sub x y z = ⟨g.infinity c, 0⟩)) ∧
      (∀ a u b v c w, x = .fin a u → y = .fin b v → z = .fin c w →
        if (u.n = 0 ∨ v.n = 0) ∧ w.n = 0 ∧ neg = c then ffma f mode sub x y z = ⟨g.signOf c, 0⟩
        else Spec.Rounds g mode (mode == 2) ⟨(if sub then -(u.n * v.n) else u.n * v.n) * w.d + w.n * (u.d * v.d), u.d * v.d * w.d⟩ (ffma f mode sub x y z))) ∧
    (∀ (op : Fin 4) (mx : Bool) (a b : Nat) (x y : FVal), a < 2 * g.sign → b < 2 * g.sign → x = unpack f a → y = unpack f b →
      (x.isNan = true ∨ y.isNan = true → fcompare op f a b = (decide (op = 1), Spec.nvIf (2 ≤ op.val ∨ x.isSig = true ∨ y.isSig = true))) ∧
      (x.isNan = false → y.isNan = false → fcompare op f a b =
        (if op = 0 then decide (Spec.numPlace f a = Spec.numPlace f b) else if op = 1 then decide (Spec.numPlace f a ≠ Spec.numPlace f b)
         else if op = 2 then decide (Spec.numPlace f a < Spec.numPlace f b) else decide (Spec.numPlace f a ≤ Spec.numPlace f b), 0)) ∧
      (fminmax mx f a b).fl = Spec.nvIf (x.isSig = true ∨ y.isSig = true) ∧
      (fminmax mx f a b).bits = (if x.isNan = true ∧ y.isNan = true then g.quiet else if x.isNan = true then Spec.flushed f b else if y.isNan = true then Spec.flushed f a
        else if Spec.place f a ≤ Spec.place f b then (if mx then Spec.flushed f b else Spec.flushed f a) else if mx then Spec.flushed f a else Spec.flushed f b)) ∧
    (∀ (mode : RMode) (x : FVal), mode < 4 → Spec.sound x →
      (∀ s, x = .nan s → fconvert f mode x = ⟨g.quiet, Spec.nvIf (s = true)⟩) ∧ (∀ n, x = .inf n → fconvert f mode x = ⟨g.infinity n, 0⟩) ∧
      (∀ n e, x = .fin n e → Spec.Rounds g mode n e (fconvert f mode x)))) ∧
  (∀ (nf : NarrowFmt) (g : Spec.Codes), g = Spec.narrowCodes nf →
    (∀ (mode : RMode) (x : FVal), mode < 4 → Spec.sound x →
      (∀ s, x = .nan s → toNarrow nf mode x = match nf with
        | .e4m3 => ⟨0x7F, Spec.nvIf (s = true)⟩ | .e5m2 => ⟨0x7E, Spec.nvIf (s = true)⟩ | _ => ⟨0, flNV⟩) ∧
      (∀ n, x = .inf n → toNarrow nf mode x = if nf = .e5m2 then ⟨g.signOf n + 0x7C, 0⟩ else ⟨g.signOf n + g.top, flNV⟩) ∧
      (∀ n e, x = .fin n e → (e.n = 0 → toNarrow nf mode x = ⟨g.signOf n, 0⟩) ∧
        (e.n ≠ 0 → Spec.Delivered g (Spec.magOf ⟨e.n.natAbs, e.d⟩) mode n (if nf = .e5m2 then Spec.overflow g mode n else g.signOf n + g.top) (toNarrow nf mode x)))) ∧
    (∀ c b : Nat, b = c % (2 * g.sign) →
      (nf = .e4m3 → b % g.sign = 0x7F → ofNarrow nf c = .nan false) ∧
      (nf = .e5m2 → b % g.sign = 0x7C → ofNarrow nf c = .inf (decide (g.sign ≤ b))) ∧
      (nf = .e5m2 → 0x7C < b % g.sign → ofNarrow nf c = .nan (decide (b % 4 = 1))) ∧
      (b % g.sign ≤ g.top → ∃ x, ofNarrow nf c = .fin (decide (g.sign ≤ b)) x ∧ Spec.stands g b x))) ∧
  (∀ (lo hi : Int) (mode : RMode) (x : FVal), lo ≤ hi → mode < 4 → Spec.sound x →
    (∀ s, x = .nan s → ftoint lo hi mode x = (0, flNV)) ∧ (∀ n, x = .inf n → ftoint lo hi mode x = (if n then lo else hi, flNV)) ∧
    (∀ n e, x = .fin n e → ∃ q, Spec.WholeOf mode e q ∧
      ftoint lo hi mode x = if q < lo then (lo, flNV) else if hi < q then (hi, flNV) else (q, if e.n % (e.d : Int) = 0 then 0 else flNX))) ∧
  (∀ (mode : RMode) (x : Nat), mode < 4 → x < 2^32 →
    cvtLane .f32i32 mode x = (Spec.pat 32 (ftoint (-(2^31)) (2^31 - 1) mode (unpack fmt32 x)).1, (ftoint (-(2^31)) (2^31 - 1) mode (unpack fmt32 x)).2) ∧
    cvtLane .f32u32 mode x = (Spec.pat 32 (ftoint 0 (2^32 - 1) mode (unpack fmt32 x)).1, (ftoint 0 (2^32 - 1) mode (unpack fmt32 x)).2) ∧
    (∃ r, cvtLane .i32f32 mode x = (r.bits, r.fl) ∧ Spec.Rounds (Spec.codes fmt32 23) mode false ⟨Spec.sx 32 x, 1⟩ r) ∧
    (∃ r, cvtLane .u32f32 mode x = (r.bits, r.fl) ∧ Spec.Rounds (Spec.codes fmt32 23) mode false ⟨x, 1⟩ r) ∧
    (∀ op from_ to_, (op, from_, to_) ∈ [(CvtOp.f32bf16, fmt32, fmtB16), (.f32f16, fmt32, fmtF16), (.bf16f32, fmtB16, fmt32), (.f16f32, fmtF16, fmt32)] →
      cvtLane op mode x = ((fconvert to_ mode (unpack from_ (x % 2^from_.width))).bits, (fconvert to_ mode (unpack from_ (x % 2^from_.width))).fl))) ∧
  (∀ (mode : RMode) (x y : Nat), x < 2^32 → y < 2^32 →
    redApply .addf32 mode x y = ((fsum fmt32 mode (unpack fmt32 x) (unpack fmt32 y)).bits, (fsum fmt32 mode (unpack fmt32 x) (unpack fmt32 y)).fl) ∧
    redApply .maxf32 mode x y = ((fminmax true fmt32 x y).bits, (fminmax true fmt32 x y).fl) ∧ redApply .minf32 mode x y = ((fminmax false fmt32 x y).bits, (fminmax false fmt32 x y).fl) ∧
    redApply .addi32 mode x y = (Spec.pat 32 (Spec.sx 32 x + Spec.sx 32 y), 0) ∧ redApply .maxi32 mode x y = (Spec.pat 32 (max (Spec.sx 32 x) (Spec.sx 32 y)), 0) ∧
    redApply .mini32 mode x y = (Spec.pat 32 (min (Spec.sx 32 x) (Spec.sx 32 y)), 0))

/-- R203, R205, R208, R213, R19: a misaligned group, or a product-class slot while the series unit is occupied, traps, and so does a JSINCOS whose cosine group would end beyond v231;
a parked bead does nothing. -/
def Obligations.JetSlotsTrap : Prop :=
  (∀ (s : State) (f : FForm),
    ((curCore s).parked = false → (winName f.dst % Spec.alignment (Spec.order s) ≠ 0 ∨ winName f.src % Spec.alignment (Spec.order s) ≠ 0 ∨ (curCore s).series ≠ 0 ∨
        231 < winName f.dst + Spec.alignment (Spec.order s) + Spec.order s) → exec (.jsincos f) s = .next (trapHere s 0x0302 s.cur.slot.val)) ∧
    ((curCore s).parked = true → exec (.jsincos f) s = .next s)) ∧
  (∀ (s : State) (f : JIdx), ((curCore s).parked = true → exec (.jput f) s = .next s) ∧
    ((curCore s).parked = false → f.dst.val % Spec.alignment (Spec.order s) ≠ 0 → exec (.jput f) s = .next (trapHere s 0x0302 s.cur.slot.val))) ∧
  (∀ (s : State) (a : SOp) (d : Fin 232), (curCore s).parked = true → exec (.jflagClear a) s = .next s ∧ exec (.jflagGet d) s = .next s) ∧
  ∀ (s : State) (i : Instr) (r : Spec.JetRow), i.wf = true → (Spec.plainJet s i = some r ∨ Spec.seriesJet s i = some r) →
    ((curCore s).parked = false → ¬ Spec.jetReady s r → exec i s = .next (trapHere s 0x0302 s.cur.slot.val)) ∧
    ((curCore s).parked = true → exec i s = .next s)

/-- R203, R204, R212: what a J-mode result puts in flight: coefficient j in register base + j under its lanes, all at one distance, and the flags of each cluster's lanes by coefficient; JFLAG.clear clears the named bits in the enabled clusters' copies and JFLAG.get returns each copy in two lanes; neither takes the series unit. -/
def Obligations.JetResultsAndFlags : Prop :=
  (∀ (s : State) (lat base n : Nat) (t lanes : LaneMask) (f : Nat → List FRes),
    ∃ (v : Nat → VWord) (fl : List (BitVec 40)), emitJet s lat base n t lanes f =
        (let u := emitAll s lat ((List.range n).map fun j => .vec ((curCore s).vwb.toNat + (base + j)) ⟨v j, t⟩ lanes)
         if fl.all (· == 0) = true then u else emit u lat (.jflags fl)) ∧
      (∀ j < n, ∀ l < 128, lanes.getLsbD l = true → (laneOf (v j) l).toNat = ((f l).getD j ⟨0, 0⟩).bits % 2^32) ∧
      ∀ c < 8, ∀ j < 8, ∀ b < 5, (fl.getD c 0).getLsbD (5 * j + b) = true ↔
        ∃ l < 128, l / 16 = c ∧ lanes.getLsbD l = true ∧ ((f l).getD j ⟨0, 0⟩).fl.getLsbD b = true) ∧
  (∀ s : State, (curCore s).parked = false →
    (∀ a : SOp, exec (.jflagClear a) s = .next (emit s 3 (.jclear (BitVec.ofNat 40 (readS (curCore s) a).v.toNat) (curCore s).cmk))) ∧
    (∀ d : Fin 232, Spec.Lanes (.jflagGet d) s 3 (.v d) (Spec.on s)
      (fun l => let copy := (Tbl.get 0 (curCore s).jflg (l / 16)).toNat
        if l % 16 = 0 then copy % 2^32 else if l % 16 = 1 then copy / 2^32 else 0) (fun _ => (curCore s).ctlTaint) Spec.noFlag))
/-! ## Memory and engine slots at issue -/

/-- R218, R219, R73, R245, R247, R254, R307, R331: which trap an access raises at issue, for loads, stores, every size and every owner, and what a translation without a walk answers: the code of a bad address (R245), of a lost die (R331), of a fenced or refusing peer (R254, R247), of a partition without a host context. That a misaligned address is reported before a wrong owner is the model's choice (log 19). -/
def Obligations.AddressChecks : Prop :=
  ∀ (s : State) (store : Bool) (va n al : Nat), va < 2^64 → 0 < n → accessTrap s store va n al = Spec.refuses s store va n al ∧
    (∀ p d, va / 2^60 = d → d < 2 → va % 2^60 < 2^47 → (d ∈ s.rk.lost → lookup s p va store = .fail 0x0501) ∧
      (lookup s p va store = .wait ∨ lookup s p va store = .fail 0x0501 ∨ ∃ pa, lookup s p va store = .ok pa ∧ frameOwner s d pa = some p ∧ frameStruck s d pa = false)) ∧
    (∀ p, va / 2^60 = 8 → va % 2^60 < 2^57 → va / 2^48 % 512 ≠ pfGet s 0xE1020 2 % 512 → lookup s p va store =
      if fenced s (va / 2^48 % 512) then .fail 0x0502 else if (p, va / 4096, store) ∈ s.xl.denied then .fail 0x0202 else .ok va) ∧
    (∀ p, va / 2^60 = 4 → va % 2^60 < 2^57 → hostIdent s p = none → lookup s p va store = .fail 0x0202) ∧
    (∀ p, (va / 2^60 < 2 ∧ 2^47 ≤ va % 2^60) ∨ ((va / 2^60 = 4 ∨ va / 2^60 = 8) ∧ 2^57 ≤ va % 2^60) ∨ (va / 2^60 = 8 ∧ va / 2^48 % 512 = pfGet s 0xE1020 2 % 512) ∨
      va / 2^60 ∉ [0, 1, 4, 8, 15] → lookup s p va store = .fail 0x0203)

/-- R174, R222, R224, R225, R308: a load from the scratchpad delivers its zero- or sign-extended value, or each active lane's word, six bundles on, or traps, or is guarded out; a vector access without an active lane reads and stores nothing. -/
def Obligations.ScratchpadLoads : Prop :=
  (∀ (s : State) (i : Instr) (f : MLd) (n : Nat) (sg : Bool), Spec.loadOf i = some (f, n, sg) → Spec.ea s f.base f.imm n / 2^60 = 15 →
    (Spec.met s f.p = false → exec i s = .next s) ∧
    (∀ code, Spec.met s f.p = true → Spec.refuses s false (Spec.ea s f.base f.imm n) n n = some code → exec i s = .next (trapHere s code s.cur.slot.val)) ∧
    (Spec.met s f.p = true → Spec.refuses s false (Spec.ea s f.base f.imm n) n n = none →
      ∃ x : TWord, exec i s = .next (Spec.counted s (emit s 6 (.scalar f.dst x))) ∧
        (let off := Spec.ea s f.base f.imm n % 2^60
         (x.v = if sg then Spec.wrap (Spec.sx (8 * n) (Spec.scrNum (curCore s) off n)) else BitVec.ofNat 64 (Spec.scrNum (curCore s) off n)) ∧
         x.t = (Spec.ptaint s f.p || Spec.btaint s f.base || Spec.scrT (curCore s) off n)))) ∧
  (∀ (s : State) (f : MVec), (curCore s).parked = false →
    (Spec.ea s f.base f.imm 512 / 2^60 = 15 → Spec.lanesUp s f.m ≠ [] → Spec.refuses s false (Spec.ea s f.base f.imm 512) 512 64 = none →
      ∃ x : TVec, exec (.vld f) s = .next (Spec.counted s (emit s 6 (.vec ((curCore s).vwb.toNat + f.reg.val) x (active (curCore s) f.m)))) ∧
        ∀ l ∈ Spec.lanesUp s f.m, (laneOf x.v l).toNat = Spec.scrNum (curCore s) (Spec.ea s f.base f.imm 512 % 2^60 + 4 * l) 4 ∧
          x.t.getLsbD l = (Spec.gtaint s f.m l || Spec.btaint s f.base || Spec.scrT (curCore s) (Spec.ea s f.base f.imm 512 % 2^60 + 4 * l) 4)) ∧
    (Spec.ea s f.base f.imm 4 / 2^60 = 15 → Spec.lanesUp s f.m ≠ [] → gathTrap f s = none →
      ∃ x : TVec, exec (.vgath f) s = .next (Spec.counted s (emit s 6 (.vec ((curCore s).vwb.toNat + f.reg.val) x (active (curCore s) f.m)))) ∧
        ∀ l ∈ Spec.lanesUp s f.m,
          (laneOf x.v l).toNat = Spec.scrNum (curCore s) ((Spec.ea s f.base f.imm 4 + 4 * (laneOf (readW (curCore s) f.reg.val).v l).toNat) % 2^60) 4) ∧
    (Spec.lanesUp s f.m = [] → Spec.ea s f.base f.imm 512 % 64 = 0 → Spec.legal s (Spec.ea s f.base f.imm 512) 512 = true →
      exec (.vst f) s = .next s ∧
      exec (.vld f) s = .next (if Spec.ea s f.base f.imm 512 / 2^60 = 15 then emit s 6 (.vec ((curCore s).vwb.toNat + f.reg.val) ⟨0, 0⟩ 0) else s)) ∧
    (Spec.lanesUp s f.m = [] → Spec.ea s f.base f.imm 4 % 4 = 0 → Spec.ea s f.base f.imm 4 / 2^60 ∈ [0, 1, 4, 8, 15] →
      exec (.vscat f) s = .next s ∧
      exec (.vgath f) s = .next (if Spec.ea s f.base f.imm 4 / 2^60 = 15 then emit s 6 (.vec ((curCore s).vwb.toNat + f.reg.val) ⟨0, 0⟩ 0) else s)))

/-- R222 to R225, R293, R294, R297, R311: scalar loads and stores, LDACQ, STREL, the reductions and the atomics issue their operation, trap, or are guarded out; vector loads, stores, gathers and scatters issue one operation with a word for each active lane, in lane order. -/
def Obligations.AccessesIssue : Prop :=
  (∀ (s : State) (i : Instr) (r : Spec.IssueRow), Spec.accessRow s i = some r → Spec.Issues i s r) ∧
  ∀ (s : State) (i : Instr) (r : Spec.IssueRow), Spec.vectorRow s i = some r → Spec.Issues i s r

/-- R197 to R200: a special function of a NaN or of a special input gives the table's value and flags; RCP, SQRT and RSQ of every other value give the exact result rounded once, in the mode, to the
fraction bits that the level keeps, with the flags of R152; a refinement step passes an infinite or zero estimate through, gives the NaN or the infinity of R200, or the exact step rounded once. -/
def Obligations.SpecialFunctionValues : Prop :=
  ∀ f ∈ Spec.floats,
    (∀ (fn : Fn) (p : Nat) (mode : RMode) (x : FVal) (r : FRes), Spec.sound x → Spec.special fn f x = some r → evalFn fn f p mode x = r) ∧
    (∀ (p : Nat) (mode : RMode) (b : Nat) (n : Bool) (e : Ex), 1 ≤ p → p ≤ f.frac → mode < 4 → unpack f b = .fin n e → e.n ≠ 0 →
      Spec.Delivered (Spec.codes f p) (Spec.magOf ⟨e.d, e.n.natAbs⟩) mode n (Spec.overflow (Spec.codes f p) mode n) (evalFn .rcp f p mode (.fin n e)) ∧
      (n = false → Spec.Delivered (Spec.codes f p) (Spec.sqrtOf e) mode false (Spec.overflow (Spec.codes f p) mode false) (evalFn .sqrt f p mode (.fin n e)) ∧
        Spec.Delivered (Spec.codes f p) (Spec.sqrtInvOf e) mode false (Spec.overflow (Spec.codes f p) mode false) (evalFn .rsq f p mode (.fin n e)))) ∧
    (∀ (rsq : Bool) (mode : RMode) (x y : FVal) (yb : Nat) (g : Spec.Codes), g = Spec.codes f f.frac → mode < 4 → Spec.sound x → Spec.sound y →
      (y.isInf = true ∨ y.isZero = true → stepFn rsq f mode x y yb = ⟨yb, 0⟩) ∧
      (y.isInf = false → y.isZero = false → x.isNan = true ∨ y.isNan = true → stepFn rsq f mode x y yb = ⟨g.quiet, Spec.nvIf (x.isSig = true ∨ y.isSig = true)⟩) ∧
      (∀ nx ny v, x = .inf nx → y = .fin ny v → v.n ≠ 0 → stepFn rsq f mode x y yb = ⟨g.infinity (if rsq then nx == ny else !nx), 0⟩) ∧
      (∀ nx u ny v, x = .fin nx u → y = .fin ny v → v.n ≠ 0 → Spec.Rounds g mode (mode == 2)
        (if rsq then ⟨v.n * (3 * (u.d * (v.d * v.d) : Nat) - u.n * (v.n * v.n)), 2 * (v.d * (u.d * (v.d * v.d)))⟩
         else ⟨v.n * (2 * (u.d * v.d : Nat) - u.n * v.n), v.d * (u.d * v.d)⟩) (stepFn rsq f mode x y yb)))

/-- R227, R232, R236, R237, R240, R292, R341, R35: commands, bindings, cache maintenance, migrations and FENCE.FAR issue, trap, or are guarded out. The order of a form's checks is the model's choice (log 19): MIGR looks at its deadline before the owner, LAUNCH leaves a header that is not aligned to its status, and a copy command checks no alignment of its descriptor at issue. -/
def Obligations.CommandsIssue : Prop :=
  ∀ (s : State) (i : Instr) (r : Spec.IssueRow), Spec.commandRow s i = some r → Spec.Issues i s r

/-- R263, R273, R276, R277, R278: the matrix engine's forms issue their operation in program order of the engine, trap, or are guarded out. Where an MLAT address is both misaligned and of another owner the model reports 0x0207, which no rule orders (log 19). -/
def Obligations.EngineFormsIssue : Prop :=
  ∀ (s : State) (i : Instr) (r : Spec.IssueRow), Spec.engineRow s i = some r → Spec.Issues i s r

/-- R221, R273, R341: an issued operation joins its core's list, in flight from this cycle and due later, with its counter one higher; beyond its class's limit it is held in its slot and nothing else changes; a command behind one of its class that has failed and whose status waits for a superstep release (R235, R240) is discarded. -/
def Obligations.IssuedOperationsEnter : Prop :=
  (∀ (s : State) (path : Nat) (store t : Bool) (k : AKind) (pages : List (Nat × Nat)), classFailed (curCore s) (opClass k) = false → (curCore s).held = [] → overLimit (curCore s) k = false →
    lookupPages s (partOfCore s (curId s)) (opWrites k) (spanPages (opSpans k)) = .ok pages → windowTrap s k pages = false → (∀ z va b, k ≠ .bind z va b) →
    ∃ due ctr, s.cycle < due ∧
      curCore (issueOp s path store t k) = { curCore s with ctrs := ctr, ops := (curCore s).ops ++ [⟨opId s store, s.cur.slot, path, s.cur.ctr.val, t, k, due, pages, false, false, false, 0, s.cycle⟩] } ∧
      (s.cur.ctr.val ≠ 0 → Tbl.get 0 ctr s.cur.ctr.val = Tbl.get 0 (curCore s).ctrs s.cur.ctr.val + 1) ∧
      (∀ j, j ≠ s.cur.ctr.val ∨ j = 0 → Tbl.get 0 ctr j = Tbl.get 0 (curCore s).ctrs j) ∧
      (issueOp s path store t k).mem = s.mem ∧ (issueOp s path store t k).seqs = s.seqs ∧
      ∀ c, c ≠ curId s → coreGet (issueOp s path store t k) c = coreGet s c) ∧
  (∀ (s : State) (path : Nat) (store t : Bool) (k : AKind), classFailed (curCore s) (opClass k) = false → ((curCore s).held ≠ [] ∨ overLimit (curCore s) k = true) →
    issueOp s path store t k = modCur s fun c => { c with held := c.held ++ [⟨opId s store, s.cur.slot, path, s.cur.ctr.val, t, k, 0, [], false, false, false, 0, s.cycle⟩] }) ∧
  (∀ (c : Core) (cl : Nat), classFailed c cl = true ↔ ∃ e ∈ c.ops, ∃ d x f, e.kind = .landAt d x cl (some f)) ∧
  (∀ (s : State) (path : Nat) (store t : Bool) (k : AKind), classFailed (curCore s) (opClass k) = true → issueOp s path store t k = s) ∧
  (∀ (c : Core) (k : AKind), overLimit c k = true ↔ classLimit (opClass k) < ((c.ops.filter fun o => opClass o.kind == opClass k).map fun o => opWeight o.kind).sum + opWeight k) ∧
  classLimit 0 = 2048 ∧ classLimit 1 = 32 ∧ classLimit 2 = 64 ∧ classLimit 3 = 64 ∧ classLimit 4 = 64 ∧ classLimit 5 = 16 ∧ classLimit 6 = 16

/-- R230, R263, R274, R290, R291, R301, R303, R304, R305: SPOS, SUNBIND, MSETP, MPARM, FENCE.X, DRAIN, the taint forms, SYNC, SSTEP and BARCFG; the last three act on bead 0, and a BARCFG whose mask names a bead beyond the pass traps on every bead that issues its bundle. -/
def Obligations.DirectMemorySlotForms : Prop :=
  ∀ s : State,
    (∀ f : MSpos, exec (.spos f) s = .next (if Spec.met s f.p then emit s 1 (.reg f.dst ⟨BitVec.ofNat 64 (Spec.positionAt (curCore s) f.z.val), Spec.ptaint s f.p⟩) else s)) ∧
    (∀ z : Fin 8, exec (.sunbind z) s = .next (if (curCore s).parked then s else modCur s (rebind z (Spec.newStream false 0)))) ∧
    (∀ f : MSetpF, exec (.msetp f) s = .next (if Spec.met s f.p then emit s 1 (.planes (BitVec.ofNat 5 f.planes.val)) else s)) ∧
    (∀ f : MParmF, exec (.mparm f) s = .next (if Spec.met s f.p then emit s 1 (.param f.i (readS (curCore s) f.base).v) else s)) ∧
    (∀ f : MFence, exec (.fenceX f) s = .next (if Spec.met s f.p then
      modCur s fun c => { c with fences := c.fences ++ [⟨4 * c.bundleNo + 3 * (s.cur.slot.val - 6), f.first.val, f.later.val⟩] } else s)) ∧
    (∀ f : MDrain, exec (.drain f) s = .next (if Spec.met s f.p then
      modCur s fun c => { c with l1 := (if f.scope.val = 4 then [] else c.l1), drain := some (4 * c.bundleNo + 3 * (s.cur.slot.val - 6), f.scope.val) } else s)) ∧
    (∀ f : MTaintRdS, exec (.taintrdScalar f) s = .next (if Spec.met s f.p then
      emit s 1 (.reg f.dst ⟨if (readS (curCore s) f.src).t then 1 else 0, (readS (curCore s) f.src).t || Spec.ptaint s f.p⟩) else s)) ∧
    (∀ f : MTaintRdV, exec (.taintrdVector f) s = .next (if (curCore s).parked then s else
      emit s 1 (.mask f.md ⟨(readVec (curCore s) f.src).t, (readVec (curCore s) f.src).t ||| laneGuardTaint (curCore s) f.m⟩ (active (curCore s) f.m)))) ∧
    (∀ f : MTaintClrS, exec (.taintclrScalar f) s = .next (if Spec.met s f.p then emit s 1 (.taintClear f.r) else s)) ∧
    (∀ f : MTaintClrV, exec (.taintclrVector f) s = .next (if (curCore s).parked then s else
      emit s 1 (.taintClearV ((curCore s).vwb.toNat + f.r.val) (active (curCore s) f.m)))) ∧
    (∀ f : MSync, s.cur.bead = 0 → Spec.Controls (.sync f) s { curSeq s with sync := some ⟨f.b.val, s.cycle, [], s.cycle⟩ }) ∧
    (s.cur.bead = 0 → ∃ pt, Spec.Controls .sstep s { curSeq s with stepWait := some ((curSeq s).steps + 1), point := pt } ∧
      ((curSeq s).point = true → pt = true) ∧ (∀ a, (curSeq s).preempt = some a → a < s.cycle → pt = true)) ∧
    (∀ f : MBarcfg, s.cur.bead = 0 → Spec.met s f.p = true → (readS (curCore s) f.base).v.toNat < 2^widthOf (curSeq s) →
      Spec.Controls (.barcfg f) s { curSeq s with barNext := (curSeq s).barNext ++ [(f.b.val, BitVec.ofNat 8 (readS (curCore s) f.base).v.toNat)] }) ∧
    (∀ f : MBarcfg, s.cur.bead = 0 → Spec.met s f.p = true → 2^widthOf (curSeq s) ≤ (readS (curCore s) f.base).v.toNat →
      exec (.barcfg f) s = .next (trapHere s 0x0302 s.cur.slot.val)) ∧
    (∀ f : MBarcfg, s.cur.bead = 0 → Spec.met s f.p = false → exec (.barcfg f) s = .next s) ∧
    (s.cur.bead ≠ 0 → (∀ f, exec (.sync f) s = .next s) ∧ exec .sstep s = .next s ∧ ∀ (f : MBarcfg) (b0 : Core), b0 = coreGet s (coreOf s s.cur.unit 0) →
      exec (.barcfg f) s = .next (if (curCore s).parked = false ∧ b0.parked = false ∧ (b0.getP f.p.val).v = true ∧ ((curSeq s).run.map (·.skew)).getD 0 = 0 ∧
        2^widthOf (curSeq s) ≤ (readS b0 f.base).v.toNat then trapHere s 0x0302 s.cur.slot.val else s))

/-! ## Microwords -/

/-- R267 to R271: each microword of a running call: UADD, UADDI and UMOVI write a register, ULOOP counts down, UZERO and UNORM run over their words, UEND ends the call; a span outside storage faults the call. -/
def Obligations.MicrowordsRun : Prop :=
  ∀ (s : State) (k : Call), (curCore s).call = some k →
    Spec.Runs .uend s k { k with done := true } 1 (curCore s).acc (curCore s).accTaint ∧
    (∀ f : UImm, Spec.Runs (.uaddi f) s k (Spec.wrote k f.ra (Spec.wrap ((Spec.ureg k f.rb).toInt + f.imm.toInt))) 1 (curCore s).acc (curCore s).accTaint) ∧
    (∀ f : U3, Spec.Runs (.uadd f) s k (Spec.wrote k f.ra (Spec.wrap ((Spec.ureg k f.rb).toInt + (Spec.ureg k f.rc).toInt))) 1 (curCore s).acc (curCore s).accTaint) ∧
    (∀ f : UMoviF, Spec.Runs (.umovi f) s k (Spec.wrote k f.ra (Spec.wrap f.imm.toInt)) 1 (curCore s).acc (curCore s).accTaint) ∧
    (∀ (f : ULoopF) (r : Nat × Nat), routineAt (curCore s) k.routine = some r →
      Spec.Runs (.uloop f) s k (if (Spec.ureg k f.ra).toNat ≤ 1 then Spec.wrote k f.ra 0
        else { Spec.wrote k f.ra (Spec.ureg k f.ra - 1) with upc := r.1 + f.target.val }) 1 (curCore s).acc (curCore s).accTaint) ∧
    (∀ (f : U2) (i : Instr) (rule : Word → Word), (i = .uzero f ∧ rule = (fun _ => 0) ∨ i = .unorm f ∧ rule = (fun w => (accNorm w).1)) →
      Spec.spanOk s (Spec.ureg k f.ra).toNat (Spec.ureg k f.rb).toNat →
      ∃ acc taint fl, Spec.Runs i s k { k with upc := k.upc + 1, flags := k.flags ||| fl } 1 acc taint ∧
        (∀ j, Tbl.get 0 acc j =
          if (Spec.ureg k f.ra).toNat / 8 ≤ j ∧ j < (Spec.ureg k f.ra).toNat / 8 + (Spec.ureg k f.rb).toNat then rule (accGet (curCore s) j) else accGet (curCore s) j) ∧
        (∀ j, Tbl.get false taint j =
          if (Spec.ureg k f.ra).toNat / 8 ≤ j ∧ j < (Spec.ureg k f.ra).toNat / 8 + (Spec.ureg k f.rb).toNat then (decide (i = .unorm f) && accTainted (curCore s) j) || Spec.callTaints (curCore s) k
          else accTainted (curCore s) j) ∧
        (fl = 0 ∨ fl = flGSAT) ∧
        (fl = flGSAT ↔ i = .unorm f ∧ ∃ j, (Spec.ureg k f.ra).toNat / 8 ≤ j ∧ j < (Spec.ureg k f.ra).toNat / 8 + (Spec.ureg k f.rb).toNat ∧ (accNorm (accGet (curCore s) j)).2 = true)) ∧
    (∀ f : U2, ¬ Spec.spanOk s (Spec.ureg k f.ra).toNat (Spec.ureg k f.rb).toNat →
      (∃ t, exec (.uzero f) s = .next t ∧ Spec.CallFaults s t k) ∧ ∃ t, exec (.unorm f) s = .next t ∧ Spec.CallFaults s t k)

/-- R263 to R266, R169, R271: UKSTEP adds to each word of each row the exact dot product of the row's tile, cut to the plane budget, with the column's latch; a bad control word, latch pair or offset
faults the call. The product is the exact sum of R265, over the truncated mantissas of R263; the addition is that of R266 and R169: a zero word takes the exponent of what it first receives,
the sum is rounded once to nearest even, and it saturates. A word that is added to takes the taint of all that the step reads. -/
def Obligations.MatrixStepAccumulates : Prop :=
  (∀ (c : Core) (k : KCtl) (p a : Nat) (l : OpLatch) (col : Nat), p ≤ k.wa → Spec.sameEx (kdot c k p a l col) (Spec.dot c k p a l col)) ∧
  (∀ (w : Word) (x : Ex), 0 < x.d →
    (x.n = 0 → accAccum w x = (w, false)) ∧
    ∀ lg e : Int, x.n ≠ 0 → Spec.isLog x lg → e = (if Spec.wv w = 0 then max (-32768) (min lg 32767) else Spec.we w) →
      Spec.we (accAccum w x).1 = e ∧
      (32767 < lg → (accAccum w x).2 = true ∧ Spec.wv (accAccum w x).1 = if x.n < 0 then -(2^47 - 1) else 2^47 - 1) ∧
      (lg ≤ 32767 → ∃ q, Spec.nearest (x.mul (Ex.dyad 1 (39 - e))) q ∧ Spec.wv (accAccum w x).1 = max (-(2^47)) (min (2^47 - 1) (Spec.wv w + q)) ∧
        ((accAccum w x).2 = true ↔ Spec.wv w + q < -(2^47) ∨ 2^47 - 1 < Spec.wv w + q))) ∧
  ∀ (s : State) (k : Call) (f : UKs), (curCore s).call = some k →
    let r (i : Fin 8) : Nat := (Spec.ureg k i).toNat
    let ctl := kctlOf (r f.re)
    let word (m : Nat) : Nat := (r f.rb + m * r f.rd) % 2^64 / 8
    let tile (m : Nat) : Nat := (r f.ra + m * r f.rc) % 2^64
    let cols := classCols (latchOf (curCore s) (2 * ctl.pair)).cls
    let bad := kstepBad (curCore s) (curPword s) (r f.ra) (r f.rb) (r f.rc) (r f.rd) (r f.re)
    (bad = true → ∃ t, exec (.ukstep f) s = .next t ∧ Spec.CallFaults s t k) ∧
    (bad = false → Spec.rowsApart word ctl.rows ctl.ncols →
      ∃ acc taint fl cost, Spec.Runs (.ukstep f) s k { k with upc := k.upc + 1, flags := k.flags ||| fl } cost acc taint ∧ 1 ≤ cost ∧
        (∀ m < ctl.rows, ∀ n < ctl.ncols, Tbl.get 0 acc (word m + n) =
          (accAccum (accGet (curCore s) (word m + n))
            (kdot (curCore s) ctl (min k.budget ctl.wa) (tile m) (latchOf (curCore s) (if n < cols then 2 * ctl.pair else 2 * ctl.pair + 1)) (n % cols))).1) ∧
        (∀ m < ctl.rows, ∀ n < ctl.ncols, Tbl.get false taint (word m + n) = (accTainted (curCore s) (word m + n) || Spec.callTaints (curCore s) k ||
          kstepTaint (curCore s) (r f.ra) (r f.rc) (r f.re))) ∧
        (∀ j, (∀ m < ctl.rows, ¬ (word m ≤ j ∧ j < word m + ctl.ncols)) → Tbl.get 0 acc j = accGet (curCore s) j ∧ Tbl.get false taint j = accTainted (curCore s) j))

/-- R167, R168: normalising a word: the result is normal unless its exponent is the least, left shifts are exact, right shifts round to nearest even, and beyond the greatest exponent it saturates. -/
def Obligations.NormalisingAWord : Prop :=
  ∀ w : Word,
    ((accNorm w).2 = false → Spec.normal (Spec.wv (accNorm w).1) ∨ Spec.we (accNorm w).1 = -32768) ∧
    ((accNorm w).2 = false → Spec.we (accNorm w).1 ≤ Spec.we w → Spec.wv (accNorm w).1 = Spec.wv w * 2^(Spec.we w - Spec.we (accNorm w).1).toNat) ∧
    ((accNorm w).2 = false → Spec.we w ≤ Spec.we (accNorm w).1 →
      2 * (Spec.wv (accNorm w).1 * 2^(Spec.we (accNorm w).1 - Spec.we w).toNat - Spec.wv w).natAbs ≤ 2^(Spec.we (accNorm w).1 - Spec.we w).toNat) ∧
    ((accNorm w).2 = false → Spec.we w ≤ Spec.we (accNorm w).1 →
      2 * (Spec.wv (accNorm w).1 * 2^(Spec.we (accNorm w).1 - Spec.we w).toNat - Spec.wv w).natAbs = 2^(Spec.we (accNorm w).1 - Spec.we w).toNat → Spec.wv (accNorm w).1 % 2 = 0) ∧
    ((accNorm w).2 = true → Spec.we (accNorm w).1 = 32767 ∧ Spec.wv (accNorm w).1 = if Spec.wv w < 0 then -(2^47 - 1) else 2^47 - 1) ∧
    ((accNorm w).2 = true → 2^39 ≤ (Spec.wv w).natAbs ∧ 32758 < Spec.we w)

/-! ## Results landing -/

/-- R102, R103, R109 to R111: with each bundle of its bead every result in flight comes one nearer; one that is due lands as its kind says, n0, p0 and m0 discarding. Of any number that land
together on one scalar register, predicate, bit of a mask or lane of a window register the one of the highest slot remains, of one slot that of the later bundle; what none of them writes keeps its
value; two of different bundles on one destination set the collision flag; and the results enter their queues in that order, the one that remains last. -/
def Obligations.ResultsLand : Prop :=
  (∀ c : Core, (advanceCore c).inflight = (c.inflight.map fun l => { l with dist := l.dist - 1 }).filter (fun l => l.dist ≠ 0) ∧ (advanceCore c).bundleNo = c.bundleNo + 1 ∧
    (advanceCore c).series = c.series - 1 ∧ (advanceCore c).ops = c.ops ∧ (advanceCore c).ctrs = c.ctrs ∧ (advanceCore c).scratch = c.scratch ∧ (advanceCore c).acc = c.acc) ∧
  (∀ (c : Core) (r : Nat), r ≠ 0 →
    (∀ x, Spec.remains (Spec.dueOf c) (Spec.writesN r) x → (advanceCore c).getN r = x) ∧
    (∀ x, Spec.remains (Spec.dueOf c) (Spec.writesP r) x → (advanceCore c).getP r = x) ∧
    (∀ k < 128, ∀ x, Spec.remains (Spec.dueOf c) (Spec.writesM r k) x → (((advanceCore c).getM r).v.getLsbD k, ((advanceCore c).getM r).t.getLsbD k) = x) ∧
    (Spec.untouched (Spec.dueOf c) (Spec.writesN r) → ((advanceCore c).getN r).v = (c.getN r).v) ∧
    (Spec.untouched (Spec.dueOf c) (Spec.writesP r) → (advanceCore c).getP r = c.getP r) ∧
    ∀ k < 128, Spec.untouched (Spec.dueOf c) (Spec.writesM r k) → ((advanceCore c).getM r).v.getLsbD k = (c.getM r).v.getLsbD k) ∧
  (∀ (c : Core) (reg : Nat), (∀ l ∈ Spec.dueOf c, ∀ a b d e t, l.kind ≠ .hist a b d e t) → ∀ k < 128,
    (∀ x, Spec.remains (Spec.dueOf c) (Spec.writesV reg k) x → (laneOf ((advanceCore c).getW reg).v k, ((advanceCore c).getW reg).t.getLsbD k) = x) ∧
    (Spec.untouched (Spec.dueOf c) (Spec.writesV reg k) → laneOf ((advanceCore c).getW reg).v k = laneOf (c.getW reg).v k)) ∧
  (∀ c : Core, (∃ a ∈ Spec.dueOf c, ∃ b ∈ Spec.dueOf c, Spec.collide a b) → (advanceCore c).flg.getLsbD 5 = true) ∧
  (∀ c : Core, (∀ l ∈ Spec.dueOf c, Spec.plainResult l) → (∀ a ∈ Spec.dueOf c, ∀ b ∈ Spec.dueOf c, ¬ Spec.collide a b) → (advanceCore c).flg = c.flg) ∧
  (∀ (c : Core) (order : List Landing), (Spec.dueOf c).Perm order → order.Pairwise Spec.before → c.q.length ≤ 16 →
    (advanceCore c).q = ((order.filterMap Spec.enters).reverse ++ c.q).take 16) ∧
  (∀ (c : Core) (order : List Landing), (Spec.dueOf c).Perm order → order.Pairwise Spec.before → (∀ l ∈ order, Spec.plainResult l) → c.vq.length ≤ 16 →
    (∀ a ∈ order, ∀ b ∈ order, ∀ i j x y la lb, a ≠ b → a.kind = .vec i x la → b.kind = .vec j y lb → i ≠ j) →
    (advanceCore c).vq = ((order.filterMap (Spec.entersV c)).reverse ++ c.vq).take 16) ∧
  (∀ c : Core, (∀ l ∈ c.inflight, 2 ≤ l.dist) →
    advanceCore c = { c with inflight := c.inflight.map (fun l => { l with dist := l.dist - 1 }), bundleNo := c.bundleNo + 1, series := c.series - 1 }) ∧
  (∀ (c : Core) (b : Nat) (slot : Fin 8) (kind : LandKind), c.inflight = [⟨1, slot, b, kind⟩] → Spec.landsAlone kind →
    advanceCore c = { Spec.landed { c with inflight := [] } slot kind with bundleNo := c.bundleNo + 1, series := c.series - 1 }) ∧
  (∀ (c : Core) (b : Nat) (slot : Fin 8) (reg : Nat) (idx add : VWord) (lanes t : LaneMask), c.inflight = [⟨1, slot, b, .hist reg idx add lanes t⟩] →
    ∀ bin < 8, ∀ l < 128, laneOf ((advanceCore c).getW (reg + bin)).v l =
      if lanes.getLsbD l = true ∧ (laneOf idx l).toNat = bin then laneOf (c.getW (reg + bin)).v l + laneOf add l else laneOf (c.getW (reg + bin)).v l) ∧
  (∀ (c : Core) (a b : Nat) (sa sb : Fin 8) (r : Fin 32) (x y : TWord), c.inflight = [⟨1, sa, a, .scalar r x⟩, ⟨1, sb, b, .scalar r y⟩] → sa.val < sb.val → a ≠ b → r.val ≠ 0 →
    (advanceCore c).getN r.val = y ∧ (advanceCore c).q = (y :: x :: c.q).take 16 ∧ (advanceCore c).flg = c.flg ||| 0x20 ∧ (∀ k, k ≠ r.val → (advanceCore c).getN k = c.getN k))

/-! ## Steps and encodings -/

/-- R79, R86: a step runs the instruction that its slot word decodes to, in that word's context; with no word, the next event of the cycle; a word placed for fetching is the very next to run. That a slot word which does not decode traps with 0x0302 is the model's choice (log 43), and so is how inputs come in and how a word is placed (log 1). -/
def Obligations.StepRunsTheDecodedInstruction : Prop :=
  (∀ (s : State) (w : Pending) (rest : List Pending) (i : Instr), s.issue = w :: rest → decode w.kind w.word = .ok i →
    step s = exec i { s with issue := rest, cur := w.ctx }) ∧
  (∀ (s : State) (w : Pending) (rest : List Pending) (e : DecodeError) (r : PassRun), s.issue = w :: rest → decode w.kind w.word = .error e → (seqOf s w.ctx.unit).run = some r →
    step s = .next (takeTrap { s with issue := rest, cur := w.ctx } w.ctx.unit w.ctx.bead w.ctx.pos 0x0302 w.ctx.slot.val)) ∧
  (∀ (s : State) (e : Event) (rest : List Event), s.issue = [] → s.agenda = e :: rest → step s = exec e.instr { s with agenda := rest, ev := e.arg }) ∧
  (∀ (s : State) (t : Nat) (i : Input) (rest : List (Nat × Input)), s.issue = [] → s.agenda = [] → s.inputs = (t, i) :: rest → t ≤ s.cycle →
    step s = .next (takeInput { s with inputs := rest } i)) ∧
  (∀ s : State, s.issue = [] → s.agenda = [] → (∀ e ∈ s.inputs, s.cycle < e.1) → step s = .next (nextCycle s)) ∧
  (∀ (s : State) (nbits w : Nat) (i : Instr), decodeTableWord nbits w = some i →
    ∃ t ctx, step (s.withFetchWord nbits w) = exec i t ∧ t = { s with cur := ctx, seqs := t.seqs } ∧ ctx.unit = 0 ∧ ctx.bead = 0 ∧ (∀ q, q ≠ 0 → seqOf t q = seqOf s q))

/-- R79, R86 to R98, R268: what every well-formed instruction is encoded as decodes to it again, with every operand at every value the encoding admits. -/
def Obligations.DecodeOfEncode : Prop :=
  ∀ (i : Instr) (k : SlotKind) (w : Nat), i.wf = true → encode i = some (k, w) → decode k w = .ok i

/-- R79: no bit of a word is ignored: a word that decodes is the one encoding of a well-formed instruction. -/
def Obligations.EncodeOfDecode : Prop :=
  ∀ (k : SlotKind) (w : Nat) (i : Instr), decode k w = .ok i → i.wf = true ∧ encode i = some (k, w)

/-! ## Memory -/

/-- R5: memory and register windows hold what is written, little-endian, and nothing else changes; writing keeps the canonical form. -/
def Obligations.MemoryHoldsWhatIsWritten : Prop :=
  (∀ (s : State) (a v n : Nat), memVal (putBytes s a (leBytes v n)) a n = v % 256^n ∧
    (∀ b, b < a ∨ a + n ≤ b → memByte (putBytes s a (leBytes v n)) b = memByte s b) ∧
    (MemoryCanonical s → MemoryCanonical (putBytes s a (leBytes v n)))) ∧
  (∀ (s : State) (off v n : Nat), pfGet (pfSet s off n v) off n = v % 256^n ∧
    (∀ b, b < off ∨ off + n ≤ b → pfByte (pfSet s off n v) b = pfByte s b) ∧ (pfSet s off n v).mem = s.mem) ∧
  (∀ (s : State) (v off n x : Nat), bar0Get (bar0Set s v off n x) v off n = x % 256^n) ∧
  (∀ s t : State, MemoryCanonical s → MemoryCanonical t → (∀ a, memByte s a = memByte t a) → s.mem = t.mem)

/-- After every step memory has its canonical form again, nothing that has left the device is taken back, and the count of the free values drawn does not fall. All three rest on the model's own bookkeeping: the form of memory (log 3), the counter that free values are drawn with (log 8) and the list of what has left the device (log 41). -/
def Obligations.EveryStepKeepsMemoryCanonical : Prop :=
  ∀ s t : State, MemoryCanonical s → StepsTo s t → MemoryCanonical t ∧ s.out <+: t.out ∧ s.freeCtr ≤ t.freeCtr

/-! ## Operations performing -/

/-- R218, R222, R224, R225, R284, R293, R308: LOAD_COMPLETE writes the register with the extended number and its taint, or each listed lane of the window register, and the operation leaves its core. -/
def Obligations.LoadsComplete : Prop :=
  ∀ (s : State) (c : CoreId) (o : AOp), Spec.Ready s c o → Spec.NoLines s →
    (∀ (dst : Fin 32) (va n : Nat) (sg acq na : Bool), o.kind = .load dst va n sg acq na → 0 < n → Spec.near o va →
      exec .loadComplete s = .next (modCore s c.val fun x => removeOp ((if acq = true then { x with l1 := [] } else x).setN dst.val
        ⟨Spec.extended sg n (Spec.readNum s c.val o va n), Spec.readT s c.val o va n || o.taint⟩) o)) ∧
    (∀ (reg : Nat) (lanes : List (Nat × Nat × Bool)) (na : Bool), o.kind = .vload reg lanes na → (lanes.map (·.1)).Nodup → (∀ e ∈ lanes, e.1 < 128 ∧ Spec.near o e.2.1) →
      ∃ (x : TVec) (mask : LaneMask), exec .loadComplete s = .next (modCore s c.val fun k => removeOp (k.writeLanes reg x mask) o) ∧
        (∀ l < 128, mask.getLsbD l = true ↔ ∃ e ∈ lanes, e.1 = l) ∧
        ∀ e ∈ lanes, (laneOf x.v e.1).toNat = Spec.readNum s c.val o e.2.1 4 ∧ x.t.getLsbD e.1 = (Spec.readT s c.val o e.2.1 4 || e.2.2)) ∧
    (∀ (dst : Fin 32) (va n : Nat) (sg na : Bool), o.kind = .load dst va n sg false na → (n = 1 ∨ n = 2 ∨ n = 4 ∨ n = 8) → va % n = 0 → (∃ e ∈ o.pages, e.1 = va / 4096) →
      2 ≤ va / 2^60 % 16 → va / 2^60 % 16 ≠ 15 → Tbl.find? (coreGet s c.val).l1 (va / 64) = none →
      ∃ t l, exec .loadComplete s = .next t ∧ t.mem = s.mem ∧ Spec.OtherCores s t c.val ∧
        coreGet t c.val = removeOp ({ coreGet s c.val with l1 := l }.setN dst.val ⟨Spec.extended sg n (memVal s (paIn o.pages va) n), o.taint⟩) o) ∧
    (∀ x : Core, (removeOp x o).ops = x.ops.filter (fun e => e.id ≠ o.id) ∧ (removeOp x o).n = x.n ∧ (removeOp x o).win = x.win ∧ (removeOp x o).scratch = x.scratch ∧
      (o.ctr ≠ 0 → (removeOp x o).ctr o.ctr = x.ctr o.ctr - 1) ∧ ∀ j, j ≠ o.ctr → (removeOp x o).ctr j = x.ctr j)

/-- R223 to R225, R236, R294 to R298, R310: STORE_PERFORM, LINE_MERGE and ATOMIC_COMPLETE: the bytes the operation stores change and no other byte of memory, and a store taints and tags the sectors it touches as R310 gives; a reduction of C-die memory goes to an update-only line, in which further ones of its form accumulate, and reaches memory when the line merges: when it is due, or before a reduction of another form takes the line; one of host or peer memory changes it at once. -/
def Obligations.StoresAndAtomicsPerform : Prop :=
  (∀ (s : State) (c : CoreId) (o : AOp), Spec.Ready s c o → Spec.NoLines s → Spec.Unlogged s →
    (∀ (va n : Nat) (x : TWord) (rel : Bool), o.kind = .store va n x rel → va / 2^60 % 16 = 15 →
      exec .storePerform s = .next (modCore s c.val fun k => removeOp (scrWrite k (va % 2^60) (leBytes x.v.toNat n) x.t) o)) ∧
    (∀ (va n : Nat) (x : TWord) (rel : Bool), o.kind = .store va n x rel → va / 2^60 % 16 ≠ 15 →
      ∃ t l, exec .storePerform s = .next t ∧ Spec.MemoryChange s t (paIn o.pages va) n x.v.toNat ∧ Spec.OtherCores s t c.val ∧ t.pf = s.pf ∧
        coreGet t c.val = removeOp { coreGet s c.val with l1 := l } o) ∧
    (∀ l : List (Nat × Lane × Bool), o.kind = .vstore l → (∀ e ∈ l, e.1 / 2^60 % 16 ≠ 15) →
      l.Pairwise (fun a b => paIn o.pages a.1 + 4 ≤ paIn o.pages b.1 ∨ paIn o.pages b.1 + 4 ≤ paIn o.pages a.1) →
      ∃ t k, exec .storePerform s = .next t ∧ (∀ e ∈ l, memVal t (paIn o.pages e.1) 4 = e.2.1.toNat) ∧
        (∀ a, (∀ e ∈ l, a < paIn o.pages e.1 ∨ paIn o.pages e.1 + 4 ≤ a) → memByte t a = memByte s a) ∧ Spec.OtherCores s t c.val ∧
        coreGet t c.val = removeOp { coreGet s c.val with l1 := k } o) ∧
    (∀ (opc va : Nat) (x : TWord), o.kind = .red opc va x → va / 2^60 % 16 < 2 → s.xl.shoot = none →
      ∃ t due l, exec .storePerform s = .next t ∧ t.mem = s.mem ∧ t.secTaint = s.secTaint ∧ Spec.OtherCores s t c.val ∧ ((coreGet s c.val).l1.length < 2048 → l = (coreGet s c.val).l1) ∧
        coreGet t c.val = removeOp { coreGet s c.val with l1 := l, upd := [(paIn o.pages va / 64,
          ⟨opc, [(paIn o.pages va % 64 / redBytes opc, BitVec.ofNat 64 (redCombine opc (redIdentity opc) x.v.toNat))], partOfCore s c.val, due⟩)] } o) ∧
    (∀ (opc va : Nat) (x : TWord), o.kind = .red opc va x → (va / 2^60 % 16 = 4 ∨ va / 2^60 % 16 = 8) →
      ∃ t l, exec .storePerform s = .next t ∧ Spec.OtherCores s t c.val ∧ coreGet t c.val = removeOp { coreGet s c.val with l1 := l } o ∧
        Spec.MemoryChange s t (paIn o.pages va) (redBytes opc) (redCombine opc (memVal s (paIn o.pages va) (redBytes opc)) x.v.toNat)) ∧
    (∀ (va n : Nat) (x : TWord) (rel : Bool) (pa : Nat), o.kind = .store va n x rel → Spec.home o va → pa = paIn o.pages va → 0 < n →
      ∃ t, exec .storePerform s = .next t ∧ ∀ q,
        (pa / 32 ≤ q → 32 * q < pa + n → Tbl.get (0, 0, 0) t.secTag q = Spec.tags s c.val ∧
          Tbl.get false t.secTaint q = (x.t || (Tbl.get false s.secTaint q && !(decide (pa ≤ 32 * q) && decide (32 * q + 32 ≤ pa + n))) || Spec.races s c.val q)) ∧
        (q < pa / 32 ∨ pa + n ≤ 32 * q → Tbl.get (0, 0, 0) t.secTag q = Tbl.get (0, 0, 0) s.secTag q ∧ Tbl.get false t.secTaint q = Tbl.get false s.secTaint q)) ∧
    (∀ (opc va : Nat) (x : TWord), o.kind = .red opc va x → va / 2^60 % 16 = 15 →
      exec .storePerform s = .next (modCore s c.val fun k => removeOp (scrWrite k (va % 2^60)
        (leBytes (redCombine opc (Spec.scrNum (coreGet s c.val) (va % 2^60) (redBytes opc)) x.v.toNat) (redBytes opc))
        (Spec.scrT (coreGet s c.val) (va % 2^60) (redBytes opc) || opc == 7)) o)) ∧
    (∀ opc va : Nat, o.kind = .cache opc va →
      exec .storePerform s = .next (modCore s c.val fun k => removeOp (if opc = 2 then k else { k with l1 := Tbl.erase k.l1 (va / 64) }) o)) ∧
    (∀ (opc : Nat) (dst : Fin 32) (va : Nat) (x y : Word), o.kind = .atomic opc dst va x y → Spec.home o va → opc ≤ 2 →
      ∃ t, exec .atomicComplete s = .next t ∧ Spec.OtherCores s t c.val ∧
        Spec.MemoryChange s t (paIn o.pages va) 8 (Spec.atomNew opc (BitVec.ofNat 64 (memVal s (paIn o.pages va) 8)) x y).toNat ∧
        coreGet t c.val = removeOp ((coreGet s c.val).setN dst.val ⟨BitVec.ofNat 64 (memVal s (paIn o.pages va) 8), true⟩) o) ∧
    (∀ (opc : Nat) (dst : Fin 32) (va : Nat) (x y : Word), o.kind = .atomic opc dst va x y → va / 2^60 % 16 = 15 → opc ≤ 2 →
      ∃ t, exec .atomicComplete s = .next t ∧ t.mem = s.mem ∧ Spec.OtherCores s t c.val ∧
        (coreGet t c.val).getN dst.val = (if dst.val = 0 then ⟨0, false⟩ else ⟨BitVec.ofNat 64 (Spec.scrNum (coreGet s c.val) (va % 2^60) 8), true⟩) ∧
        Spec.scrNum (coreGet t c.val) (va % 2^60) 8 = (Spec.atomNew opc (BitVec.ofNat 64 (Spec.scrNum (coreGet s c.val) (va % 2^60) 8)) x y).toNat)) ∧
  (∀ (s : State) (c : CoreId) (o : AOp) (opc va pa : Nat) (x : TWord) (u : UpdLine), Spec.Ready s c o → Spec.Unlogged s → o.kind = .red opc va x → va / 2^60 % 16 < 2 → s.xl.shoot = none →
    pa = paIn o.pages va → Tbl.find? (coreGet s c.val).upd (pa / 64) = some u →
    (u.opc = opc → ∃ t, exec .storePerform s = .next t ∧ t.mem = s.mem ∧ t.secTaint = s.secTaint ∧ Spec.OtherCores s t c.val ∧
      ∀ v, v = { u with words := Spec.reduced opc u.words (pa % 64 / redBytes opc) x.v } →
        coreGet t c.val = removeOp { coreGet s c.val with upd := Tbl.insert (Tbl.erase (coreGet s c.val).upd (pa / 64)) (pa / 64) v } o) ∧
    (u.opc ≠ opc → (u.words.map (·.1)).Nodup → (∀ e ∈ u.words, redBytes u.opc * e.1 + redBytes u.opc ≤ 64) →
      ∃ t due, exec .storePerform s = .next t ∧ Spec.OtherCores s t c.val ∧
        (∀ v : UpdLine, v = ⟨opc, Spec.reduced opc [] (pa % 64 / redBytes opc) x.v, partOfCore s c.val, due⟩ →
          coreGet t c.val = removeOp { coreGet s c.val with upd := Tbl.insert (Tbl.erase (coreGet s c.val).upd (pa / 64)) (pa / 64) v } o) ∧
        (∀ e ∈ u.words, memVal t (pa / 64 * 64 + redBytes u.opc * e.1) (redBytes u.opc) =
          redCombine u.opc (memVal s (pa / 64 * 64 + redBytes u.opc * e.1) (redBytes u.opc)) e.2.toNat % 256^redBytes u.opc) ∧
        ∀ a, (∀ e ∈ u.words, a < pa / 64 * 64 + redBytes u.opc * e.1 ∨ pa / 64 * 64 + redBytes u.opc * e.1 + redBytes u.opc ≤ a) → memByte t a = memByte s a)) ∧
  (∀ (s : State) (c : CoreId) (line : Nat) (u : UpdLine), s.ev = .line c line → Tbl.find? (coreGet s c.val).upd line = some u → u.due ≤ s.cycle → s.xl.l2change = [] → Spec.Unlogged s →
    (u.words.map (·.1)).Nodup → (∀ e ∈ u.words, redBytes u.opc * e.1 + redBytes u.opc ≤ 64) →
    ∃ t, exec .lineMerge s = .next t ∧ Spec.OtherCores s t c.val ∧ (u.opc ≠ 7 → t.secTaint = s.secTaint ∧ t.secTag = s.secTag) ∧ coreGet t c.val = { coreGet s c.val with upd := Tbl.erase (coreGet s c.val).upd line } ∧
      (∀ e ∈ u.words, memVal t (64 * line + redBytes u.opc * e.1) (redBytes u.opc) =
        redCombine u.opc (memVal s (64 * line + redBytes u.opc * e.1) (redBytes u.opc)) e.2.toNat % 256^redBytes u.opc) ∧
      ∀ a, (∀ e ∈ u.words, a < 64 * line + redBytes u.opc * e.1 ∨ 64 * line + redBytes u.opc * e.1 + redBytes u.opc ≤ a) → memByte t a = memByte s a) ∧
  (∀ (s : State) (c : CoreId) (o : AOp) (opc : Nat) (dst : Fin 32) (va : Nat) (x y : Word), s.ev = .line c o.id → readyOp s c.val o.id = some o → o.kind = .atomic opc dst va x y →
    va / 2^60 % 16 = 4 → exec .atomicComplete s = .next (faultTrap s c.val o 0x0204 o.slot.val))

/-- R237, R292: MIGR_COMPLETE ends a migration of a resident page, goes on waiting for one under way, and lets the bead trap when the page cannot be had; a core that receives a serialise notes what it has issued, but for what waits with its bundle for a fault; FENCE.FAR ends when every core has acknowledged. -/
def Obligations.MigrationsAndFarFences : Prop :=
  (∀ (s : State) (c : CoreId) (o : AOp) (va deadline : Nat), Spec.Ready s c o → o.kind = .migr va deadline →
    (∀ s1 pa, resolve s (partOfCore s c.val) va false = (s1, .ok pa) → ∃ slip, exec .migrComplete s = .next (modCore s1 c.val fun x => removeOp { x with slip := slip } o) ∧
      ((o.acks = 1 ∧ deadline < ticksOf s c.val → slip = if (coreGet s1 c.val).slip = 255 then 255 else (coreGet s1 c.val).slip + 1) ∧
       (¬ (o.acks = 1 ∧ deadline < ticksOf s c.val) → slip = (coreGet s1 c.val).slip))) ∧
    (∀ s1, resolve s (partOfCore s c.val) va false = (s1, .wait) →
      exec .migrComplete s = .next (modCore s1 c.val fun x => { x with ops := x.ops.map fun e => if e.id = o.id then { e with acks := 1, due := s.cycle + 1 } else e })) ∧
    (∀ s1 code, resolve s (partOfCore s c.val) va false = (s1, .fail code) →
      exec .migrComplete s = .next (modCore s1 c.val fun x => { removeOp x o with failure := some (x.failure.getD (code, o.slot.val)) }))) ∧
  (∀ (s : State) (c src : CoreId) (o : AOp), s.ev = .op c (208 * o.id + src.val) → farOp s src.val o.id = some o → o.acks / 2^c.val % 2 = 0 →
    ∃ t, exec .serialiseReceive s = .next t ∧ t.mem = s.mem ∧
      (coreGet t src.val).ops = ((coreGet s src.val).ops.map fun e => if e.id = o.id then { e with acks := e.acks + 2^c.val } else e) ∧
      (coreGet t c.val).serial = (coreGet s c.val).serial ++
        (let l := ((coreGet s c.val).ops.filter fun e => e.path == 0 && !isFar e.kind && !e.waiting && !(Spec.heldByMate (coreGet s c.val) e)).map (·.id)
         if l = [] then [] else [(src.val, o.id, l)])) ∧
  (∀ (s : State) (c : CoreId) (o : AOp), s.ev = .op c o.id → farOp s c.val o.id = some o → farDone s c.val o = true →
    ∃ t, exec .fenceFarDone s = .next t ∧ t.mem = s.mem ∧ (coreGet t c.val).ops = (coreGet s c.val).ops.filter (fun e => e.id ≠ o.id) ∧
      ∀ i, (coreGet t i).serial = (coreGet s i).serial.filter fun x => !(x.1 == c.val && x.2.1 == o.id))

/-! ## The sequencer -/

/-- R74, R77, R80, R109, R117, R131, R314, R315, R317: BUNDLE_ISSUE gives every bead the words of the bundle at the program counter and moves on, two delay bundles before a pending target; a frozen or replaying unit issues nothing. A bundle that every bead issues in the cycle is checked on every bead: where it fails on one, that bead puts no word on issue, and the unit takes the trap of the lowest such bead, with the code and detail of the first check in the order of R314. That the words of a bundle are queued bead by bead in slot order (log 5), and that a stall of n cycles is kept as n + 1 (log 14), is the model's choice. -/
def Obligations.BundlesIssue : Prop :=
  ∀ (s : State) (q : RodUnit), s.ev = .unit q →
    (∀ (u : State) (b : BitVec 384) (next : Nat), u = Spec.cleared s q.val → Spec.CanCast u q.val → Spec.allFree u q.val →
      fetchAt (seqOf u q.val) (runTask u q.val) (seqOf u q.val).pc.toNat = .ok b next → callNeeds (seqOf u q.val) (runTask u q.val) b next = none →
      Spec.clearToIssue u q.val b next → 0 < widthOf (seqOf u q.val) →
      ∃ t, exec .bundleIssue s = .next t ∧ t.mem = s.mem ∧
        t.issue = s.issue ++ (List.range (widthOf (seqOf u q.val))).flatMap (fun p => wordsOf q.val p (seqOf u q.val).pc.toNat b) ∧
        (seqOf t q.val).stall = (if bStall b = 0 then 0 else bStall b + 1) ∧
        (bLend b = false → (seqOf u q.val).target = none → (seqOf t q.val).pc = BitVec.ofNat 64 next ∧ (seqOf t q.val).target = none) ∧
        (∀ w, bLend b = false → (seqOf u q.val).target = some (w, 2) → (seqOf t q.val).pc = BitVec.ofNat 64 next ∧ (seqOf t q.val).target = some (w, 1)) ∧
        (∀ w, bLend b = false → (seqOf u q.val).target = some (w, 1) → (seqOf t q.val).pc = w ∧ (seqOf t q.val).target = none) ∧
        ∀ i ∈ coresOf u q.val, (coreGet t i).bundleNo = (coreGet u i).bundleNo + 1 ∧ (coreGet t i).n = (advanceCore (coreGet u i)).n ∧ (coreGet t i).win = (advanceCore (coreGet u i)).win) ∧
    (∀ (u : State) (b : BitVec 384) (next p code detail : Nat) (r : PassRun), u = Spec.cleared s q.val → Spec.CanCast u q.val → Spec.allFree u q.val →
      fetchAt (seqOf u q.val) (runTask u q.val) (seqOf u q.val).pc.toNat = .ok b next → callNeeds (seqOf u q.val) (runTask u q.val) b next = none →
      Spec.noneWaits u q.val b next → Spec.MayTrap u q.val r → p < widthOf (seqOf u q.val) → Spec.trapOf u q.val b next p = some (code, detail) → (∀ i < p, Spec.trapOf u q.val b next i = none) →
      ∃ t, exec .bundleIssue s = .next t ∧
        t.issue = s.issue ++ (List.range (widthOf (seqOf u q.val))).flatMap (fun i => if Spec.trapOf u q.val b next i = none then wordsOf q.val i (seqOf u q.val).pc.toNat b else []) ∧
        ∃ st, (seqOf t q.val).stop = some st ∧ st.code = code ∧ st.detail = detail ∧ st.bead = p ∧ st.pos = (seqOf u q.val).pc.toNat ∧ st.cycle = s.cycle ∧ st.phase = .requested) ∧
    (∀ (u : State) (b : BitVec 384) (next p : Nat) (h : Head), Spec.headAt u q.val p b next = some h → (coreGet (Spec.metCores u q.val b next) (coreOf u q.val p)).parked = false →
      (∀ x, (coreGet (Spec.metCores u q.val b next) (coreOf u q.val p)).failure = some x → Spec.trapOf u q.val b next p = some x) ∧
      ((coreGet (Spec.metCores u q.val b next) (coreOf u q.val p)).failure = none →
        (Spec.trapOf u q.val b next p = none ↔ Spec.failed u q.val b next p = []) ∧
        (∀ x, Spec.trapOf u q.val b next p = some x → ∃ rank, (rank, x) ∈ Spec.failed u q.val b next p ∧ ∀ e ∈ Spec.failed u q.val b next p, rank ≤ e.1) ∧
        ∀ e ∈ Spec.failed u q.val b next p, (e.1 < 2 → e.2 = (0x0302, 0xFF) ∨ e.2 = (0x0303, 0xFF)) ∧ e.1 < 10 ∧ (2 ≤ e.1 → e.2.1 ≠ 0x0304 → e.2.1 ≠ 0x0305 → e.2.2 = e.1 - 2))) ∧
    (∀ r, (seqOf s q.val).run = some r → (seqOf s q.val).stop = none → (seqOf s q.val).copying = none → (seqOf s q.val).restoring = none → 0 < (seqOf s q.val).replay →
      ∃ t, exec .bundleIssue s = .next t ∧ t.issue = s.issue ∧ seqOf t q.val = { seqOf s q.val with replay := (seqOf s q.val).replay - 1 }) ∧
    (∀ r, (seqOf s q.val).run = some r → (seqOf s q.val).stop = none → (seqOf s q.val).copying = none → (seqOf s q.val).restoring = none → (seqOf s q.val).replay = 0 →
      (∃ i ∈ coresOf s q.val, clearMet (coreGet s i) = coreGet s i ∧ beadFrozen (coreGet s i) = true) →
      ∃ t, exec .bundleIssue s = .next t ∧ t.issue = s.issue ∧ t.seqs = s.seqs ∧ ∀ i, (coreGet t i).bundleNo = (coreGet s i).bundleNo ∧ (coreGet t i).inflight = (coreGet s i).inflight)

/-- R11, R12, R77, R83, R221, R302, R303: a fetched line arrives, the dictionary copy fills the stores of the pass, a stall ends, a held operation enters, and a barrier and a superstep release their unit. That the whole copy is read and checked in the cycle in which its time has run out (log 53), and that a stall ends at 1 (log 14), is the model's choice; R11 and R12 do not say it. -/
def Obligations.SequencerEvents : Prop :=
  (∀ (s : State) (q : RodUnit) (r : PassRun) (line due : Nat), s.ev = .unit q → (seqOf s q.val).run = some r → (seqOf s q.val).lineDue = some (line, due) → due ≤ s.cycle →
    (∀ s1 pa, resolve s r.part (64 * line) false = (s1, .ok pa) → Spec.NoLines s1 →
      exec .fetchLineArrive s = .next (modSeq s1 q.val fun u =>
        { u with lineDue := none, lines := Tbl.insert (Tbl.erase u.lines line) line (BitVec.ofNat 512 (memVal s1 pa 64)) })) ∧
    (∀ s1 code, resolve s r.part (64 * line) false = (s1, .fail code) →
      exec .fetchLineArrive s = .next (modSeq s1 q.val fun u => { u with lineDue := none, lineBad := Tbl.insert (Tbl.erase u.lineBad line) line code }))) ∧
  (∀ (s : State) (q : RodUnit) (r : PassRun) (due : Nat) (s1 : State) (pa base n : Nat) (img : BitVec 512) (l : List Byte),
    s.ev = .unit q → (seqOf s q.val).run = some r → (seqOf s q.val).copying = some due → due ≤ s.cycle → (seqOf s q.val).stop = none →
    img = (runTask s q.val).img → base = cmdField (runTask s q.val).cmd 16 8 → n = imgField img 8 4 →
    readImage s r.part (base + imgField img 12 4) (48 * n) = (s1, .ok pa, l) →
    (∀ i, (bundlesOf l n).findIdx? bundleBad = some i → exec .dictionaryCopy s = .next (takeTrap s1 q.val 0 0xFFFFFF 0x0302 i)) ∧
    ((bundlesOf l n).findIdx? bundleBad = none → ∀ (s2 : State) (pa2 : Nat) (l2 : List Byte) (rows : List (Nat × Nat × Nat)),
      readTable s1 r.part base (imgField img 28 4) (imgField img 32 2) 64 = (s2, .ok pa2, l2) → rows = routineRows l2 (imgField img 32 2) → routinesBad rows = false →
      ∀ (s3 : State) (pa3 : Nat) (ws : List (Nat × Nat × Nat × Nat)), readRoutines s2 r.part base (routineSpans rows) = (s3, .ok pa3, ws) →
      (∀ w, (ws.find? fun w => microBad w.2.2.1 w.2.1 w.2.2.2) = some w → exec .dictionaryCopy s = .next (takeTrap s3 q.val 0 0xFFFFFF 0x0305 w.1)) ∧
      ((ws.find? fun w => microBad w.2.2.1 w.2.1 w.2.2.2) = none → ∀ (s4 : State) (pa4 : Nat) (l4 : List Byte),
        readTable s3 r.part base (imgField img 36 4) (imgField img 34 2) 16 = (s4, .ok pa4, l4) →
        ∃ t, exec .dictionaryCopy s = .next t ∧ t.mem = s4.mem ∧ (seqOf t q.val).copying = none ∧
          (∀ i ∈ storeUnits q.val r.w, (seqOf t i).dict = some ⟨r.launch, bundlesOf l n, (scheduleRows l4 (imgField img 34 2)).map fun x => (x.1, x.2.1, x.2.2.1)⟩) ∧
          ∀ p < r.w, (coreGet t (coreOf t q.val p)).ulaunch = r.launch ∧ (coreGet t (coreOf t q.val p)).ulen = (routineSpans rows).zipIdx.map (fun e => (e.2, e.1.2.1, e.1.2.2))))) ∧
  (∀ (s : State) (q : RodUnit) (r : PassRun) (due : Nat) (s1 : State) (code : Nat) (l : List Byte),
    s.ev = .unit q → (seqOf s q.val).run = some r → (seqOf s q.val).copying = some due → due ≤ s.cycle → (seqOf s q.val).stop = none →
    readImage s r.part (cmdField (runTask s q.val).cmd 16 8 + imgField (runTask s q.val).img 12 4) (48 * imgField (runTask s q.val).img 8 4) = (s1, .fail code, l) →
    exec .dictionaryCopy s = .next (takeTrap s1 q.val 0 0xFFFFFF code 9)) ∧
  (∀ (s : State) (q : RodUnit), s.ev = .unit q → (seqOf s q.val).stall = 1 → exec .stallEnd s = .next (modSeq s q.val fun u => { u with stall := 0 })) ∧
  (∀ (s : State) (c : CoreId) (o : AOp) (rest : List AOp), s.ev = .core c → (coreGet s c.val).held = o :: rest →
    exec .heldOpEnter s = .next (if overLimit (coreGet s c.val) o.kind = true then s else enterOp (modCore s c.val fun x => { x with held := rest }) c.val o)) ∧
  (∀ (s : State) (q : RodUnit) (w : SyncWait), s.ev = .unit q → (seqOf s q.val).sync = some w →
    (∀ p < widthOf (seqOf s q.val), (barMask (seqOf s q.val) w.barrier).getLsbD p = true → p ∈ w.arrived) → w.cycle + 2 ≤ s.cycle → w.last + 2 ≤ s.cycle →
    ∃ t, exec .barrierRelease s = .next t ∧ seqOf t q.val = { seqOf s q.val with sync := none } ∧ t.mem = s.mem ∧ ∀ i, ∃ l, coreGet t i = { coreGet s i with bq := (coreGet s i).bq ++ l }) ∧
  (∀ (s : State) (q : RodUnit) (j due : Nat), s.ev = .unit q → (seqOf s q.val).stepWait = some j → (seqOf s q.val).release = some due → due ≤ s.cycle → (seqOf s q.val).stop = none →
    ∃ t, exec .superstepRelease s = .next t ∧ seqOf t q.val = { seqOf s q.val with steps := j, stepWait := none, release := none } ∧ t.mem = s.mem ∧
      ∀ i ∈ coresOf s q.val, (coreGet t i).l1 = [] ∧ ∀ o ∈ (coreGet t i).ops, ∀ d x cl f, o.kind ≠ .landAt d x cl f)

/-! ## Streams, copies and engine queues -/

/-- R35, R228 to R230, R233 to R235, R276, R341 to R351, R355, R356: streams take their descriptors, ask for their elements and take them, and store what is written to them; COPY and FILL move their rows chunk by chunk, COPYP writes the tiles of a window, MLAT loads its latch; engine operations perform; SELACC, TITHE, TMAP, TCLRD, KVALLOC and KVFREE leave the results the rules give, and the other EN commands their status. The model's choices, which no rule gives: a command performs all its accesses at once (log 7), a set bit of the KV bitmap is a free page (log 26), DRAW follows R345 where R376 prints other numbers (log 28), and the status of a RELEASE whose register has other bits set has task field 0 (log 64, R35). -/
def Obligations.StreamsCopiesAndEngines : Prop :=
  (∀ (s : State) (c : CoreId) (z : Fin 8) (o : AOp) (va d : Nat), s.ev = .stream c z → Spec.bindOf (coreGet s c.val) z o va → Spec.quiet (coreGet s c.val) z →
    mayPerform s c.val o = true → Spec.NoLines s → va % 64 = 0 → Spec.near o va → (va / 2^60 % 16 < 2 → ∃ e ∈ o.pages, e.1 = va / 4096) → d = Spec.readNum s c.val o va 64 →
    exec .streamDescriptorArrive s = .next (modCore s c.val fun k => removeOp (setStream k z.val
      { streamOf k z.val with desc := some (BitVec.ofNat 512 d), region := d / 2^132 % 16, code := ((streamBad (leBytes d 64)).map (256 + ·)).getD 0, slack := hdrField (taskOfCore s c.val).hdr (64 + 2 * (d / 2^132 % 16)) 2 - (streamOf k z.val).waited, waited := 0 }) o)) ∧
  (∀ (s : State) (c : CoreId) (z : Fin 8) (st : Stream) (va : Nat), s.ev = .stream c z → st = streamOf (coreGet s c.val) z.val → elementDue s (coreGet s c.val) z.val = false →
    (wantsElement (coreGet s c.val) z.val = false → exec .streamElementArrive s = .next s) ∧
    (wantsElement (coreGet s c.val) z.val = true → va = streamVa (coreGet s c.val) st (st.fetched + st.reqs.length) →
      (∀ code, addrTrap s (taskOfCore s c.val).pword (taskOfCore s c.val).det va 512 64 = some code →
        exec .streamElementArrive s = .next (modCore s c.val fun k => setStream k z.val { streamOf k z.val with code := code })) ∧
      (addrTrap s (taskOfCore s c.val).pword (taskOfCore s c.val).det va 512 64 = none → (va / 2^60 % 16 = 15 ∨ s.xl.l2change = [] ∧ ∃ pa, Spec.pieces s c.val va pa false) →
        ∃ t due, exec .streamElementArrive s = .next t ∧ t.mem = s.mem ∧ Spec.OtherCores s t c.val ∧
          coreGet t c.val = setStream (coreGet s c.val) z.val { st with reqs := st.reqs ++ [(due, 4 * (coreGet s c.val).bundleNo + 3)] } ∧
          (va / 2^60 % 16 = 15 → due = s.cycle + 1) ∧
          (va / 2^60 % 16 ≠ 15 → (taskOfCore s c.val).det = true → due = s.cycle + 600 ∨ due = s.cycle + 1100 ∨ due = s.cycle + 2400)))) ∧
  (∀ (s : State) (c : CoreId) (z : Fin 8) (st : Stream) (va due id : Nat) (rest : List (Nat × Nat)), s.ev = .stream c z → st = streamOf (coreGet s c.val) z.val → st.reqs = (due, id) :: rest →
    due ≤ s.cycle → (∀ r ∈ rest, s.cycle < r.1) → va = streamVa (coreGet s c.val) st st.fetched → elemBehind (coreGet s c.val) false va id = false →
    addrTrap s (taskOfCore s c.val).pword false va 512 64 = none → Spec.calm s → wantsElement (coreGet s c.val) z.val = false → (coreGet s c.val).fences = [] →
      (∀ pa, Spec.pieces s c.val va pa false →
        ∃ t e, exec .streamElementArrive s = .next t ∧ t.mem = s.mem ∧ Spec.OtherCores s t c.val ∧
          coreGet t c.val = setStream (coreGet s c.val) z.val { st with buf := st.buf ++ [e], fetched := st.fetched + 1, reqs := rest } ∧
          e.v = BitVec.ofNat 4096 (memVal s pa 512) ∧ ∀ l < 128, e.t.getLsbD l = Tbl.get false s.secTaint ((pa + 4 * l) / 32)) ∧
      (va / 2^60 % 16 = 15 →
        ∃ t e, exec .streamElementArrive s = .next t ∧ t.mem = s.mem ∧ Spec.OtherCores s t c.val ∧
          coreGet t c.val = setStream (coreGet s c.val) z.val { st with buf := st.buf ++ [e], fetched := st.fetched + 1, reqs := rest } ∧
          e.v = BitVec.ofNat 4096 (Spec.scrNum (coreGet s c.val) (va % 2^60) 512) ∧
          ∀ l < 128, e.t.getLsbD l = Tbl.get false (coreGet s c.val).scrTaint ((va % 2^60 + 4 * l) / 32))) ∧
  (∀ (s : State) (c : CoreId) (z : Fin 8) (e : OutElem), s.ev = .stream c z → nextOut (coreGet s c.val) z.val = some e →
    fenceHolds (coreGet s c.val) 3 e.id = false → elemBehind (coreGet s c.val) true e.va e.id = false →
    (∀ code, e.due = 0 → addrTrap s (taskOfCore s c.val).pword (taskOfCore s c.val).det e.va 512 64 = some code →
      ∃ t, exec .streamElementStore s = .next t ∧ t.mem = s.mem ∧ Spec.OtherCores s t c.val ∧ (coreGet t c.val).failure = some ((coreGet s c.val).failure.getD (code, e.slot)) ∧
        (coreGet t c.val).outq = (coreGet s c.val).outq.filter (fun x => x ≠ e)) ∧
    (e.due = 0 → addrTrap s (taskOfCore s c.val).pword (taskOfCore s c.val).det e.va 512 64 = none → (e.va / 2^60 % 16 = 15 ∨ s.xl.l2change = [] ∧ ∃ pa, Spec.pieces s c.val e.va pa true) →
      ∃ t due, exec .streamElementStore s = .next t ∧ t.mem = s.mem ∧ Spec.OtherCores s t c.val ∧
      coreGet t c.val = { coreGet s c.val with outq := (coreGet s c.val).outq.map fun x => if x = e then { x with due := due } else x } ∧
      (e.va / 2^60 % 16 = 15 → due = s.cycle + 1) ∧
      (e.va / 2^60 % 16 ≠ 15 → (taskOfCore s c.val).det = true → due = s.cycle + 600 ∨ due = s.cycle + 1100 ∨ due = s.cycle + 2400)) ∧
    (0 < e.due → e.due ≤ s.cycle → addrTrap s (taskOfCore s c.val).pword (taskOfCore s c.val).det e.va 512 64 = none → outTrap s (partOfCore s c.val) e.va 512 (e.x.t ≠ 0) = false →
      Spec.calm s →
      (∀ pa, Spec.pieces s c.val e.va pa true → ∃ t, exec .streamElementStore s = .next t ∧ Spec.OtherCores s t c.val ∧ Spec.MemoryChange s t pa 512 e.x.v.toNat ∧
        (coreGet t c.val).outq = (coreGet s c.val).outq.filter (fun x => x ≠ e) ∧ (coreGet t c.val).n = (coreGet s c.val).n ∧ (coreGet t c.val).win = (coreGet s c.val).win ∧
        (streamOf (coreGet t c.val) z.val).stored = (streamOf (coreGet s c.val) z.val).stored + (if (streamOf (coreGet s c.val) z.val).desc.isSome then 1 else 0)) ∧
      (e.va / 2^60 % 16 = 15 → ∃ t, exec .streamElementStore s = .next t ∧ t.mem = s.mem ∧ Spec.OtherCores s t c.val ∧
        Spec.scrNum (coreGet t c.val) (e.va % 2^60) 512 = e.x.v.toNat ∧ (coreGet t c.val).outq = (coreGet s c.val).outq.filter (fun x => x ≠ e) ∧
        ∀ a, a < e.va % 2^60 ∨ e.va % 2^60 + 512 ≤ a → Tbl.get (0 : Byte) (coreGet t c.val).scratch a = Tbl.get (0 : Byte) (coreGet s c.val).scratch a))) ∧
  (∀ (s : State) (c : CoreId) (o : AOp) (opc : Nat) (dst : Fin 32) (va : Nat) (s1 : State) (d : List Byte × Bool), Spec.Ready s c o → o.kind = .copy opc dst va →
    readCmd (cmdOf s c.val o) 0 s va 64 = .ok s1 d → Spec.landsInTurn s1 c.val o → ((taskOfCore s c.val).det = false ∨ o.acks ≠ 0 ∧ copyFar opc va d.1 = false) →
    (∀ off, copyBad opc d.1 = some off → exec .copyCommandComplete s = .next (failCmd s1 c.val o dst 0x0107 off 0)) ∧
    (∀ at_ : Nat → Nat, copyBad opc d.1 = none → opc = 0 ∨ opc = 2 → Spec.calm s1 →
      (∀ e ∈ Spec.copyChunksOf d.1, Spec.atHand s1 (cmdOf s c.val o) at_ e.1 e.2.2 true ∧ (opc = 0 → Spec.atHand s1 (cmdOf s c.val o) at_ e.2.1 e.2.2 false)) →
      ∃ (t : State) (k : Core), exec .copyCommandComplete s = .next t ∧ Spec.OtherCores s1 t c.val ∧
        (∀ p, Spec.byteAt t c.val p = (Spec.copyChunksOf d.1).foldl (Spec.chunkMoved at_ (if opc = 2 then some d.1 else none)) (Spec.byteAt s1 c.val) p) ∧
        coreGet t c.val = removeOp (k.setN dst.val ⟨BitVec.ofNat 64 (Nat.min (bfield d.1 20 4 * bfield d.1 16 4) 0xFFFFFFFF * 2^32), o.taint || d.2⟩) o ∧
        k.n = (coreGet s1 c.val).n ∧ k.win = (coreGet s1 c.val).win ∧ k.ops = (coreGet s1 c.val).ops) ∧
    (∀ (i e n T src va2 : Nat) (x : Win) (ms : Nat → Nat → List Int) (eu : Nat → Nat → Int) (q : Nat → Int × Int), copyBad opc d.1 = none → opc = 1 → Spec.calm s1 → x = winOf s1 i → x.blk ≤ 256 →
      n = bfield d.1 20 4 → src = bfield d.1 0 8 → va2 = bfield d.1 8 8 → T = Spec.tileSize x.w x.blk →
      src / 2^60 % 16 < 2 → (e + n) * (32 * fmtBits x.fmt) ≤ x.size → (∀ j < x.size, windowAt s1 (x.base + j) = some i) →
      (∀ b < n * (32 * fmtBits x.fmt), lookup s1 (cmdOf s c.val o).part ((src + b) % 2^64) false = .ok (x.base + e * (32 * fmtBits x.fmt) + b) ∧ (src + b) % 2^64 / 2^60 % 16 < 2) →
      (∀ t < n, Spec.bandFactor s1 x (256 * (e + t)) = some (q t) ∧ ∀ b < 256 / x.blk, alignBlock x.fmt x.w (Spec.blockValues s1 x (256 * (e + t)) b) = some (ms t b, eu t b)) →
      addrTrap s1 (cmdOf s c.val o).pword false va2 (n * T) 1 = none → outTrap s1 (cmdOf s c.val o).part va2 (n * T) true = false →
      ∃ (u : State) (k : Core), exec .copyCommandComplete s = .next u ∧ u.mem = s1.mem ∧ Spec.OtherCores s1 u c.val ∧
        coreGet u c.val = removeOp (k.setN dst.val ⟨BitVec.ofNat 64 (n * T * 2^32), o.taint || d.2⟩) o ∧ k.n = (coreGet s1 c.val).n ∧ k.win = (coreGet s1 c.val).win ∧ k.ops = (coreGet s1 c.val).ops ∧
        (∀ t < n, (∀ j < 256, Spec.tileElem k (va2 % 2^60 + t * T) x.w j = (BitVec.ofInt x.w ((ms t (j / x.blk)).getD (j % x.blk) 0)).toInt) ∧
          (∀ b < 256 / x.blk, Spec.scaleOf k (va2 % 2^60 + t * T) x.w b = ((BitVec.ofInt 16 ((Spec.blockFactor s1 x (256 * (e + t)) b).1 * (q t).1)).toInt,
            (BitVec.ofInt 16 (eu t b + (Spec.blockFactor s1 x (256 * (e + t)) b).2 + (q t).2)).toInt)) ∧
          ∀ j, 32 * x.w + 1024 / x.blk ≤ j → j < T → Tbl.get (0 : Byte) k.scratch (va2 % 2^60 + t * T + j) = 0) ∧
        ∀ a, a < va2 % 2^60 ∨ va2 % 2^60 + n * T ≤ a → Tbl.get (0 : Byte) k.scratch a = Tbl.get (0 : Byte) (coreGet s1 c.val).scratch a)) ∧
  (∀ (s : State) (c : CoreId) (o : AOp), Spec.Ready s c o →
    (∀ routine regs budget, o.kind = .eng (.call routine regs budget) →
      ((coreGet s c.val).call = none → routineAt (coreGet s c.val) routine = none → exec .engineOpComplete s = .next (modCore s c.val fun k => engineFail k o.id routine)) ∧
      (∀ at_ len, (coreGet s c.val).call = none → routineAt (coreGet s c.val) routine = some (at_, len) →
        ∃ t, exec .engineOpComplete s = .next t ∧ t.mem = s.mem ∧ Spec.OtherCores s t c.val ∧ (coreGet t c.val).call = some ⟨o.id, routine, at_, regs, budget, 0, false⟩ ∧
          (coreGet t c.val).n = (coreGet s c.val).n ∧ (coreGet t c.val).acc = (coreGet s c.val).acc) ∧
      (∀ k, (coreGet s c.val).call = some k → k.done = true →
        exec .engineOpComplete s = .next (modCore s c.val fun x => removeOp { x with call := none, flg := x.flg ||| k.flags } o)) ∧
      (∀ k, (coreGet s c.val).call = some k → k.done = false → (coreGet s c.val).unit < 48 → (coreGet s c.val).bead < 8 →
        ∃ p, exec .engineOpComplete s = .next { s with issue := s.issue ++ [p] } ∧ p.kind = .micro ∧ p.word = (storeWord (coreGet s c.val) k.upc).toNat ∧
          p.ctx.unit.val = (coreGet s c.val).unit ∧ p.ctx.bead.val = (coreGet s c.val).bead)) ∧
    (∀ e off, o.kind = .eng e → Spec.accOffset e = some off →
      ∃ t, exec .engineOpComplete s = .next t ∧ t.mem = s.mem ∧ Spec.OtherCores s t c.val ∧
        (coreGet t c.val).ops = (coreGet s c.val).ops.filter (fun x => x.id ≠ o.id) ∧ (coreGet t c.val).n = (coreGet s c.val).n ∧ (coreGet t c.val).win = (coreGet s c.val).win ∧
        (∀ l < 128, accGet (coreGet t c.val) (off / 8 + l) = (Spec.accAfter e l (accGet (coreGet s c.val) (off / 8 + l))).getD (accGet (coreGet s c.val) (off / 8 + l))) ∧
        ∀ j, j < off / 8 ∨ off / 8 + 128 ≤ j → accGet (coreGet t c.val) j = accGet (coreGet s c.val) j) ∧
    (∀ (reg off : Nat) (lanes tt : LaneMask) (rnd : BitVec 2), o.kind = .eng (.accrd reg off lanes tt rnd) →
      ∃ (x : TVec) (fl : Flags), exec .engineOpComplete s = .next (modCore s c.val fun k => removeOp { k.writeLanes reg x lanes with flg := k.flg ||| fl } o) ∧
        ∀ l < 128, (laneOf x.v l).toNat = (accToF32 rnd.toNat (accGet (coreGet s c.val) (off / 8 + l))).bits % 2^32 ∧
          x.t.getLsbD l = (accTainted (coreGet s c.val) (off / 8 + l) || tt.getLsbD l)) ∧
    (∀ (l : Fin 4) (off d : Nat), o.kind = .eng (.mlat l off) → mlatBad (coreGet s c.val) (scrBytes (taskOfCore s c.val).pword) off = some d →
      exec .engineOpComplete s = .next (modCore s c.val fun k => engineFail k o.id (0x8000 + d))) ∧
    (∀ (l : Fin 4) (off tile cols w b T : Nat), o.kind = .eng (.mlat l off) → tile = Spec.scrNum (coreGet s c.val) off 4 → cols = Spec.scrNum (coreGet s c.val) (off + 4) 2 →
      w = Spec.scrNum (coreGet s c.val) (off + 6) 1 → b = Spec.scrNum (coreGet s c.val) (off + 7) 1 → T = Spec.tileSize w (8 * 2^b) →
      tile % 64 = 0 → 2 ≤ w → w ≤ 16 → cols ≤ (if w ≤ 4 then 512 else if w ≤ 8 then 256 else 128) → b ≤ 2 → (cols = 0 ∨ tile + cols * T ≤ scrBytes (taskOfCore s c.val).pword) →
      (∀ i < 56, Spec.scrNum (coreGet s c.val) (off + 8 + i) 1 = 0) →
      ∃ (t : State) (L : OpLatch), exec .engineOpComplete s = .next t ∧ t.mem = s.mem ∧ Spec.OtherCores s t c.val ∧
        coreGet t c.val = removeOp { coreGet s c.val with latches := Tbl.set OpLatch.empty (coreGet s c.val).latches l.val L } o ∧
        L.filled = true ∧ L.cls = (if w ≤ 4 then 4 else if w ≤ 8 then 8 else 16) ∧ L.cols = cols ∧ L.w = w ∧ L.blk = 8 * 2^b ∧ L.tile = tile ∧
        (∀ n i, i < 256 → Tbl.get 0 L.mant (256 * n + i) = if n < cols then Spec.tileElem (coreGet s c.val) (tile + n * T) w i else 0) ∧
        (∀ n i, i < 256 / (8 * 2^b) → Tbl.get (0, 0) L.scale (n * (256 / (8 * 2^b)) + i) = if n < cols then Spec.scaleOf (coreGet s c.val) (tile + n * T) w i else (0, 0)) ∧
        L.taint = (Spec.scrT (coreGet s c.val) tile (cols * T) || o.taint || Spec.scrT (coreGet s c.val) off 64))) ∧
  (∀ (s : State) (c : CoreId) (o : AOp), Spec.Ready s c o →
    (∀ dst x, Spec.enNow s c.val o.kind = some (dst, x) → ((taskOfCore s c.val).det = false ∨ o.acks ≠ 0) → exec .enCommandComplete s = .next (finishCmd s c.val o dst ⟨x, o.taint⟩)) ∧
    (∀ dst, Spec.enReads o.kind = some dst → ((taskOfCore s c.val).det = false ∨ o.acks ≠ 0) →
      (∀ s1 x, enRun (cmdOf s c.val o) o.taint s o.kind = .ok s1 x → exec .enCommandComplete s = .next (finishCmd s1 c.val o dst x)) ∧
      (∀ s1 code detail n, enRun (cmdOf s c.val o) o.taint s o.kind = .fail s1 code detail n → exec .enCommandComplete s = .next (failCmd s1 c.val o dst code detail n))) ∧
    ((taskOfCore s c.val).det = false ∨ o.acks ≠ 0 → Spec.SelaccResult s c o ∧ Spec.KvallocResult s c o ∧ Spec.KvfreeResult s c o ∧ Spec.TitheResult s c o ∧ Spec.DirtyMapResult s c o) ∧
    (∀ dst va, o.kind = .launch dst va → va % 64 ≠ 0 → exec .enCommandComplete s = .next (finishCmd s c.val o dst ⟨0x00400107, o.taint⟩)) ∧
    (∀ dst t tm, o.kind = .release dst t tm → t.toNat / 8192 ≠ 0 → exec .enCommandComplete s = .next (finishCmd s c.val o dst ⟨0x00040107, o.taint⟩)) ∧
    (∀ dst t tm, o.kind = .release dst t tm → t.toNat / 8192 = 0 →
      ∃ u, exec .enCommandComplete s = .next u ∧ u.mem = s.mem ∧ u.rk = { s.rk with devQ := s.rk.devQ ++ [(c.val, o.id)] } ∧ Spec.OtherCores s u c.val ∧
        coreGet u c.val = { coreGet s c.val with ops := (coreGet s c.val).ops.map fun e => if e.id = o.id then { e with kind := .asked dst (BitVec.ofNat 512 (2 + t.toNat * 2^32 + tm.toNat * 2^320)), taint := o.taint } else e }) ∧
    (∀ dst va cmd, o.kind = .launch dst va → va % 64 = 0 → Spec.near o va → Spec.NoLines s → cmd = Spec.readNum s c.val o va 64 →
      (cmd % 256 ≠ 1 → exec .enCommandComplete s = .next (finishCmd s c.val o dst ⟨BitVec.ofNat 64 (0x0107 + cmd / 2^32 % 2^13 * 2^32), o.taint || Spec.readT s c.val o va 64⟩)) ∧
      (cmd % 256 = 1 → ∃ u, exec .enCommandComplete s = .next u ∧ u.mem = s.mem ∧ u.rk = { s.rk with devQ := s.rk.devQ ++ [(c.val, o.id)] } ∧ Spec.OtherCores s u c.val ∧
        coreGet u c.val = { coreGet s c.val with ops := (coreGet s c.val).ops.map fun e => if e.id = o.id then { e with kind := .asked dst (BitVec.ofNat 512 cmd), taint := o.taint || Spec.readT s c.val o va 64 } else e })))

/-! ## The network -/

/-- R239 to R243: NSEND hands its message over and completes when it is acknowledged, NRECV posts its buffer, a message that arrives on an entry whose packets no session takes goes to the oldest buffer, whatever its length, or is held within 256 KiB, NCOLL sends and gathers contributions and ends with the same result, and an abandoned connection fails the commands that use it. That an entry of another partition ends a command with 0x0202 and no trap, that a posted buffer is taken whatever the message's length and that 256 KiB bounds only messages without a buffer is the model's reading (log 25), and so is the trap of a collective whose contributions differ (log 75). -/
def Obligations.NetworkEvents : Prop :=
  (∀ (s : State) (c : CoreId) (o : AOp) (dst : Fin 32) (va : Nat), Spec.Starts s c o →
    (o.kind = .net 0 dst va →
      (netBehind s c.val o.id [(va, 64)] = true → exec .nsendComplete s = .next s) ∧
      (∀ s1 d, netBehind s c.val o.id [(va, 64)] = false → enDesc (cmdOf s c.val o) s va = .ok s1 d →
        (∀ e, nsendBad (cmdOf s c.val o) d.1 = some e → exec .nsendComplete s = .next (netFail s1 c.val o dst e.1 e.2)) ∧
        (nsendBad (cmdOf s c.val o) d.1 = none →
          (netBehind s1 c.val o.id [(bfield d.1 8 8, bfield d.1 4 4)] = true → exec .nsendComplete s = .next s1) ∧
          ∀ s2 b o', netBehind s1 c.val o.id [(bfield d.1 8 8, bfield d.1 4 4)] = false → readCmd (cmdOf s c.val o) 0 s1 (bfield d.1 8 8) (bfield d.1 4 4) = .ok s2 b →
            o' = { o with taint := o.taint || d.2 || b.2 } →
            (nctxOwned s2 (bfield d.1 0 2) (partOfCore s2 c.val) = false → exec .nsendComplete s = .next (netFinish s2 c.val o' dst ⟨0x0202, o'.taint⟩)) ∧
            (nctxOwned s2 (bfield d.1 0 2) (partOfCore s2 c.val) = true → bfield d.1 0 2 ∈ s2.net.abandoned → exec .nsendComplete s = .next (netFail s2 c.val o' dst 0x0502 (bfield d.1 0 2))) ∧
            (Spec.entryOpen s2 c.val (bfield d.1 0 2) →
              ∃ t, exec .nsendComplete s = .next t ∧ t.mem = s2.mem ∧ t.out = s2.out ++ [.message (bfield d.1 0 2) (BitVec.ofNat 64 (bfield d.1 16 8)) b.1] ∧
                Tbl.get [] t.net.sentQ (bfield d.1 0 2) = Tbl.get [] s2.net.sentQ (bfield d.1 0 2) ++ [(c.val, o.id)] ∧ Spec.OtherCores s2 t c.val ∧
                coreGet t c.val = { coreGet s2 c.val with ops := Spec.rekind (coreGet s2 c.val).ops o.id (.sent dst (bfield d.1 0 2) (bfield d.1 4 4)) true 1 o'.taint })))) ∧
    (o.kind = .net 1 dst va → netBehind s c.val o.id [(va, 64)] = false →
      ∀ s1 d, enDesc (cmdOf s c.val o) s va = .ok s1 d →
        (∀ e, nrecvBad (cmdOf s c.val o) d.1 = some e → exec .messageDelivery s = .next (netFail s1 c.val o dst e.1 e.2)) ∧
        (nrecvBad (cmdOf s c.val o) d.1 = none → Spec.entryOpen s1 c.val (bfield d.1 0 2) →
          (64 ≤ (Tbl.get [] s1.net.posted (bfield d.1 0 2)).length → exec .messageDelivery s = .next (netFail s1 c.val o dst 0x0107 0)) ∧
          ((Tbl.get [] s1.net.posted (bfield d.1 0 2)).length < 64 →
            ∃ t, exec .messageDelivery s = .next t ∧ t.mem = s1.mem ∧ Tbl.get [] t.net.posted (bfield d.1 0 2) = Tbl.get [] s1.net.posted (bfield d.1 0 2) ++ [(c.val, o.id)] ∧
              Spec.OtherCores s1 t c.val ∧ (coreGet t c.val).ops = (coreGet s1 c.val).ops.map fun e =>
                if e.id = o.id then { e with kind := .posted dst va (bfield d.1 0 2) (bfield d.1 4 4) (bfield d.1 8 8), taint := e.taint || d.2 } else e))) ∧
    (o.kind = .net 2 dst va → netBehind s c.val o.id [(va, 64)] = false →
      ∀ s1 s2 s3 x d g b ctxs, enDesc (cmdOf s c.val o) s va = .ok s1 x → d = x.1 → ncollBad (cmdOf s c.val o) d = none →
        netBehind s1 c.val o.id [(bfield d 24 8, 2 * bfield d 2 1), (bfield d 8 8, 4 * bfield d 4 4)] = false →
        readCmd (cmdOf s c.val o) 0 s1 (bfield d 24 8) (2 * bfield d 2 1) = .ok s2 g → readCmd (cmdOf s c.val o) 0 s2 (bfield d 8 8) (4 * bfield d 4 4) = .ok s3 b →
        ctxs = (List.range (bfield d 2 1)).map (fun j => bfield g.1 (2 * j) 2) → (cmdOf s c.val o).part = partOfCore s3 c.val →
        (∀ j < bfield d 2 1, j ≠ bfield d 1 1 → Spec.entryOpen s3 c.val (ctxs.getD j 0)) →
        ∃ t, exec .ncollContribution s = .next t ∧ t.mem = s3.mem ∧ Spec.OtherCores s3 t c.val ∧
          t.out = s3.out ++ (sendTo d).map (fun j => .contribution ⟨ctxs.getD j 0, Tbl.get 0 s3.net.collNo (groupKey ctxs (bfield d 1 1)), BitVec.ofNat 8 (bfield d 0 1),
            BitVec.ofNat 8 (bfield d 2 1), BitVec.ofNat 32 (bfield d 4 4), BitVec.ofNat 8 (bfield d 3 1), (word32s (bfield d 4 4) b.1).map (BitVec.ofNat 32)⟩) ∧
          Tbl.get 0 t.net.collNo (groupKey ctxs (bfield d 1 1)) = Tbl.get 0 s3.net.collNo (groupKey ctxs (bfield d 1 1)) + 1 ∧
          (coreGet t c.val).ops = Spec.rekind (coreGet s3 c.val).ops o.id
            (.coll dst (BitVec.ofNat 512 (leOf d)) ctxs (Tbl.get 0 s3.net.collNo (groupKey ctxs (bfield d 1 1)))) (!(sendTo d).isEmpty) (sendTo d).length (o.taint || x.2 || (g.2 || b.2)))) ∧
  (∀ (s : State) (c : CoreId) (o : AOp) (dst : Fin 32) (ctx len : Nat), s.ev = .op c o.id → liveOp s c.val o.id = some o → o.kind = .sent dst ctx len →
    (o.acks ≠ 0 → exec .nsendComplete s = .next s) ∧
    (o.acks = 0 → (taskOfCore s c.val).det = false → ∃ t, exec .nsendComplete s = .next t ∧ t.mem = s.mem ∧ Spec.OtherCores s t c.val ∧
      coreGet t c.val = removeOp ((coreGet s c.val).setN dst.val ⟨Spec.okStatus len, o.taint⟩) o) ∧
    (o.acks = 0 → (taskOfCore s c.val).det = true → ∃ t, exec .nsendComplete s = .next t ∧ t.mem = s.mem ∧ Spec.OtherCores s t c.val ∧
      coreGet t c.val = { coreGet s c.val with ops := (coreGet s c.val).ops.map fun e => if e.id = o.id then { e with kind := .landAt dst ⟨Spec.okStatus len, o.taint⟩ 4 none, path := 7 } else e })) ∧
  (∀ (s : State) (i : Fin 1024) (tag : Word) (payload : List Byte) (w : Nat), s.ev = .message i tag payload → w = pfGet s (0xF6000 + 8 * i.val) 8 →
    (bitsAt w 63 1 = 0 ∨ (matchEntry s (bitsAt w 56 2) (bitsAt w 32 16)).isSome = true → exec .messageDelivery s = .next s) ∧
    (bitsAt w 63 1 = 1 → matchEntry s (bitsAt w 56 2) (bitsAt w 32 16) = none →
      (openBuffers s i.val ≤ (Tbl.get [] s.net.held i.val).length → 262144 < heldBytes s i.val (openBuffers s i.val) + payload.length → exec .messageDelivery s = .next s) ∧
      (heldBytes s i.val 0 + payload.length ≤ 262144 → Tbl.get [] s.net.posted i.val = [] →
        ∃ t, exec .messageDelivery s = .next t ∧ t.cores = s.cores ∧ t.mem = s.mem ∧ Tbl.get [] t.net.held i.val = Tbl.get [] s.net.held i.val ++ [⟨tag, payload⟩]) ∧
      ∀ (c : CoreId) (id n : Nat) (rest : List (Nat × Nat)) (o : AOp) (dst : Fin 32) (va ctx size buf : Nat), Tbl.get [] s.net.held i.val = [] →
        n = Nat.min size payload.length → 0 < n → payload.length < 2^32 → Tbl.get [] s.net.posted i.val = (c.val, id) :: rest → liveOp s c.val id = some o → o.kind = .posted dst va ctx size buf →
        o.suspended = false → netBehind s c.val id (netWrites o.kind) = false →
        (nctxOwned s i.val (partOfCore s c.val) = false → exec .messageDelivery s = .next (netFinish { s with net := { s.net with held := Tbl.set [] s.net.held i.val [⟨tag, payload⟩] } } c.val o dst ⟨0x0202, o.taint⟩)) ∧
        (nctxOwned s i.val (partOfCore s c.val) = true → (taskOfCore s c.val).det = false → Spec.inScr s c.val buf n → Spec.inScr s c.val (va + 16) 12 →
        outTrap s (partOfCore s c.val) buf n true = false → outTrap s (partOfCore s c.val) (va + 16) 12 true = false →
        (buf + n ≤ va + 16 ∨ va + 28 ≤ buf) →
        ∃ (t : State) (k : Core), exec .messageDelivery s = .next t ∧ t.mem = s.mem ∧ Tbl.get [] t.net.held i.val = [] ∧ (c.val, id) ∉ Tbl.get [] t.net.posted i.val ∧
          coreGet t c.val = removeOp (k.setN dst.val ⟨BitVec.ofNat 64 ((if size < payload.length then 0x10000 else 0) + n * 2^32), o.taint || bitsAt w 62 1 == 1⟩) o ∧ k.n = (coreGet s c.val).n ∧
          (∀ j < n, Tbl.get (0 : Byte) k.scratch (buf % 2^60 + j) = payload.getD j 0) ∧
          Spec.scrNum k ((va + 16) % 2^60) 8 = tag.toNat ∧ Spec.scrNum k ((va + 24) % 2^60) 4 = payload.length))) ∧
  (∀ (s : State) (i : Fin 1024) (n : Nat) (op m : BitVec 8) (count : BitVec 32) (root : BitVec 8) (data : List Lane), s.ev = .contribution i n op m count root data →
    exec .ncollContribution s = .next (if bitsAt (pfGet s (0xF6000 + 8 * i.val) 8) 63 1 = 0 then s
      else { s with net := { s.net with contribs := s.net.contribs ++ [⟨i.val, n, op, m, count, root, data⟩] } })) ∧
  (∀ (s : State) (c : CoreId) (o : AOp) (dst : Fin 32) (desc : BitVec 512) (ctxs : List Nat) (n : Nat), Spec.Ready s c o → o.kind = .coll dst desc ctxs n →
    (∀ off, collDiffers s (leBytes desc.toNat 64) ctxs n = some off →
      ∃ t, exec .ncollComplete s = .next t ∧ t.mem = s.mem ∧ coreGet t c.val = coreGet (netFail s c.val o dst 0x0107 off) c.val) ∧
    (collDiffers s (leBytes desc.toNat 64) ctxs n = none → collReady s (leBytes desc.toNat 64) ctxs n o.acks = false → exec .ncollComplete s = .next s) ∧
    (∀ (xs : List (List Lane)) (bs : List Byte) (s1 : State), collDiffers s (leBytes desc.toNat 64) ctxs n = none → collReady s (leBytes desc.toNat 64) ctxs n o.acks = true → netBehind s c.val o.id (netWrites o.kind) = false → (taskOfCore s1 c.val).det = false →
      xs = (List.range ctxs.length).map (fun j => if j = bitsAt desc.toNat 8 8 then ((s.net.contribs.find? fun e => e.ctx == 65536 + c.val && e.n == o.id).map (·.data)).getD []
        else ((contribOf s ctxs n j).map (·.data)).getD []) →
      bs = (collResult (bitsAt desc.toNat 0 8) (bitsAt desc.toNat 24 8) xs).flatMap (fun x => leBytes x.toNat 4) →
      cmdWrite (cmdOf s c.val o) 0 false false (bs.length / 4096 + 2) s (bitsAt desc.toNat 128 64) bs = .ok s1 () →
      ∃ t, exec .ncollComplete s = .next t ∧ t.mem = s1.mem ∧ coreGet t c.val = removeOp ((coreGet s1 c.val).setN dst.val ⟨Spec.okStatus bs.length, o.taint⟩) o)) ∧
  (∀ (op root i n : Nat) (xs : List (List Lane)), op < 5 → xs ≠ [] → (∀ x ∈ xs, x.length = n) → i < n → (collResult op root xs).getD i 0 = Spec.collElement op xs i) ∧
  (∀ (s : State) (i : Fin 1024), s.ev = .ctx i → (s.cores.map (·.1)).Nodup →
    ∃ t, exec .connectionAbandon s = .next t ∧ t.mem = s.mem ∧ i.val ∈ t.net.abandoned ∧ Tbl.get [] t.net.held i.val = [] ∧ Tbl.get [] t.net.sentQ i.val = [] ∧
      (∀ c, (∀ o ∈ (coreGet s c).ops, usesCtx i.val o.kind = false) → coreGet t c = coreGet s c) ∧
      (∀ c, ∀ o ∈ (coreGet t c).ops, usesCtx i.val o.kind = false) ∧
      ∀ c o, (coreGet s c).ops.filter (fun o => usesCtx i.val o.kind) = [o] →
        coreGet t c = coreGet (netFail s c o (netDst o.kind) 0x0502 i.val) c ∧ ((taskOfCore s c).det = false → (coreGet t c).failure = some ((coreGet s c).failure.getD (0x0502, i.val))))

/-! ## Translation -/

/-- R249, R251, R253, R254, R257 to R259, R245, R247, R335, R370: walks, pulls from a die, a peer or the host and how they fail, host answers under the identity that was asked, invalidations of the identity they name, requests of peers, and shoot-downs. The model's choices are: a pull whose frame the partition has lost writes nothing (log 51), an answer goes to the oldest request of its partition for the page (log 65), and a failed page is answered with 0x0204 for two cycles (log 27). -/
def Obligations.TranslationEvents : Prop :=
  (∀ (s : State) (d : Die) (p : Part) (va : BitVec 47) (st : Bool), s.ev = .page d p va st → Spec.NoneWaits s → Spec.NoLines s → Spec.Unlogged s → s.xl.l2change = [] → d.val ∉ s.rk.lost →
    (Spec.rootOf s d.val p.val / 2^63 % 2 = 0 → exec .mtlbWalk s = .next s) ∧
    (Spec.rootOf s d.val p.val / 2^63 % 2 = 1 → Spec.entry0 s d.val p.val va.toNat % 2 = 0 → exec .mtlbWalk s = .next s) ∧
    (Spec.LeafAt1 s d.val p.val va.toNat →
      (Spec.entry1 s d.val p.val va.toNat / 2^6 % 4 = 0 → (st = true → Spec.entry1 s d.val p.val va.toNat / 4 % 2 = 1) →
        ∃ t, exec .mtlbWalk s = .next t ∧ t.cores = s.cores ∧
          memVal t (Spec.at1 s d.val p.val va.toNat) 8 = Spec.entry1 s d.val p.val va.toNat ||| (if st = true then 0x18 else 0x08) ∧
          (∀ a, a < Spec.at1 s d.val p.val va.toNat ∨ Spec.at1 s d.val p.val va.toNat + 8 ≤ a → memByte t a = memByte s a) ∧
          lookup t p.val (d.val * 2^60 + va.toNat) st = .ok (d.val * 2^60 + Spec.entry1 s d.val p.val va.toNat / 2^8 % 2^44 * 2^8 + va.toNat % 2^30)) ∧
      (∀ back, Spec.entry1 s d.val p.val va.toNat / 2^6 % 4 = 2 → back = pfGet s (0xE0400 + 0x200 * d.val + 8 * p.val) 8 → back ≠ 0 →
        (back / 2^60 % 16 = 8 → fenced s (back / 2^48 % 512) = true → ∃ t, exec .mtlbWalk s = .next t ∧ t.cores = s.cores ∧ t.xl = s.xl ∧
          Spec.MemoryChange s t (Spec.at1 s d.val p.val va.toNat) 8 (Spec.entry1 s d.val p.val va.toNat + 2^6)) ∧
        ((back / 2^60 % 16 = 8 → fenced s (back / 2^48 % 512) = false) →
        ∃ t due, exec .mtlbWalk s = .next t ∧ t.cores = s.cores ∧ Spec.MemoryChange s t (Spec.at1 s d.val p.val va.toNat) 8 (Spec.entry1 s d.val p.val va.toNat - 2^6) ∧
          t.xl.pulls = s.xl.pulls ++ [⟨d.val, p.val, va.toNat / 2^30 * 2^30, 2^30, Spec.at1 s d.val p.val va.toNat, Spec.entry1 s d.val p.val va.toNat / 2^8 % 2^44 * 2^8, back + va.toNat / 2^30 * 2^30, due, now s, 0⟩])))) ∧
  (∀ (s : State) (d : Die) (p : Part) (va : BitVec 47) (st : Bool) (x : Pull), s.ev = .page d p va st → Spec.Unlogged s →
    (x.entry + 8 ≤ x.die * 2^60 + x.frame ∨ x.die * 2^60 + x.frame + x.size ≤ x.entry) → memVal s x.entry 8 % 2 = 1 → memVal s x.entry 8 / 2^6 % 4 = 1 →
    (pullOf s d.val p.val va.toNat = some x → Spec.NoLines s → Memory.wf s.mem = true → s.xl.l2change = [] →
      (pullOwned s x = false → exec .pagePullComplete s = .next { s with xl := { s.xl with pulls := s.xl.pulls.filter (· ≠ x) } }) ∧
      (pullOwned s x = true → x.back / 2^60 % 16 = 8 → fenced s (x.back / 2^48 % 512) = true →
        ∃ t, exec .pagePullComplete s = .next t ∧ t.cores = s.cores ∧ t.pf = s.pf ∧ x ∉ t.xl.pulls ∧ Spec.MemoryChange s t x.entry 8 (memVal s x.entry 8 + 2^7)) ∧
      ∀ src : Nat → Nat, pullOwned s x = true →
        (x.back / 2^60 % 16 ≠ 4 ∧ (x.back / 2^60 % 16 = 8 → fenced s (x.back / 2^48 % 512) = false) ∧ (∀ k, src k = x.back + 4096 * k) ∨
         x.back / 2^60 % 16 = 4 ∧ x.done = 0 ∧ x.die * 2^60 + x.frame + x.size ≤ 2^61 ∧ ∀ k < x.size / 4096, lookup s x.part (x.back + 4096 * k) false = .ok (src k)) →
        x.size % 4096 = 0 →
        ∃ t, exec .pagePullComplete s = .next t ∧ t.cores = s.cores ∧ x ∉ t.xl.pulls ∧ memVal t x.entry 8 = memVal s x.entry 8 - 2^6 ∧
          (∀ k < x.size / 4096, ∀ i < 4096, memByte t (x.die * 2^60 + x.frame + 4096 * k + i) = memByte s (src k + i)) ∧
          ∀ a, (a < x.die * 2^60 + x.frame ∨ x.die * 2^60 + x.frame + x.size ≤ a) → (a < x.entry ∨ x.entry + 8 ≤ a) → memByte t a = memByte s a) ∧
    (s.xl.pulls.find? (fun e => e.die == d.val && e.part == p.val && e.va == va.toNat) = some x →
      (x.back / 2^60 % 16 ≠ 8 → Spec.NoLines s → ∃ t, exec .pagePullFail s = .next t ∧ x ∉ t.xl.pulls ∧ Spec.MemoryChange s t x.entry 8 (memVal s x.entry 8 + 2^7) ∧ t.cores = s.cores ∧ t.pf = s.pf) ∧
      (x.back / 2^60 % 16 ≠ 8 → memVal (mergeRange s x.entry 8) x.entry 8 % 2 = 1 → memVal (mergeRange s x.entry 8) x.entry 8 / 2^6 % 4 = 1 →
        ∃ t, exec .pagePullFail s = .next t ∧ x ∉ t.xl.pulls ∧ Spec.MemoryChange (mergeRange s x.entry 8) t x.entry 8 (memVal (mergeRange s x.entry 8) x.entry 8 + 2^7)) ∧
      (x.back / 2^60 % 16 = 8 → now s < x.since + 100000 → ∃ e, exec .pagePullFail s = .next { s with inputs := (s.cycle + 1, .event e) :: s.inputs }) ∧
      (x.back / 2^60 % 16 = 8 → x.since + 100000 ≤ now s →
        ∃ t, exec .pagePullFail s = .next t ∧ fenced t (x.back / 2^48 % 512) = true ∧ (∀ y, y ∈ t.xl.pulls ↔ y ∈ s.xl.pulls ∧ ¬ Spec.pullsFrom y (x.back / 2^48 % 512)) ∧
          (Spec.NoLines s → (∀ y ∈ s.xl.pulls, Spec.pullsFrom y (x.back / 2^48 % 512) → y = x) → Spec.MemoryChange s t x.entry 8 (memVal s x.entry 8 + 2^7))))) ∧
  (∀ (s : State) (p : Part) (a : AtsAnswer) (size page : Nat) (r : AtsReq), s.ev = .ats p a → Spec.NoneWaits s → size = max 4096 (2^a.sizeLog2.val) → page = a.page.toNat % 2^60 / size * size →
    reqFor s p.val page size false = some r →
    ((∃ e ∈ r.covered, e.1 < page + size ∧ page < e.1 + e.2) → ∃ t, exec .atsTranslationCompletion s = .next t ∧ t.cores = s.cores ∧ t.out = s.out ++ [.atsRequest r.part r.ident r.page r.write] ∧ t.xl.atc = s.xl.atc ∧
      t.xl.reqs = s.xl.reqs.filter (fun x => x ≠ r) ++ [{ r with pri := false, covered := [] }]) ∧
    ((∀ e ∈ r.covered, ¬ (e.1 < page + size ∧ page < e.1 + e.2)) →
      ((a.read = true ∨ r.read = false) → (a.write = true ∨ r.write = false) →
        ∃ t l, exec .atsTranslationCompletion s = .next t ∧ t.cores = s.cores ∧ t.mem = s.mem ∧ t.xl.reqs = s.xl.reqs.filter (fun x => x ≠ r) ∧
          t.xl.atc = ⟨r.ident, r.part, page, size, a.target.toNat, a.read, a.write⟩ :: l ∧ l.length ≤ 4095 ∧ ∀ e ∈ l, e ∈ s.xl.atc) ∧
      ((a.read = false ∧ r.read = true ∨ a.write = false ∧ r.write = true) → (priList s).length < 256 →
        ∃ t, exec .atsTranslationCompletion s = .next t ∧ t.cores = s.cores ∧ t.out = s.out ++ [.pageRequest r.part r.ident r.page r.write] ∧
          t.xl.reqs = s.xl.reqs.filter (fun x => x ≠ r) ++ [{ r with pri := true }]))) ∧
  (∀ (s : State) (p : Part) (page : Word) (ok : Bool) (r : AtsReq), s.ev = .prg p page ok → Spec.NoneWaits s → reqFor s p.val (page.toNat % 2^60) 4096 true = some r → (priList s).length ≤ 256 →
    (ok = true → ∃ t, exec .prgResponse s = .next t ∧ t.cores = s.cores ∧ t.out = s.out ++ [.atsRequest r.part r.ident r.page r.write] ∧
      t.xl.reqs = s.xl.reqs.filter (fun x => x ≠ r) ++ [{ r with pri := false, covered := [] }]) ∧
    (ok = false → ∃ t, exec .prgResponse s = .next t ∧ t.cores = s.cores ∧ t.out = s.out ∧ t.xl.reqs = s.xl.reqs.filter (fun x => x ≠ r) ∧ (r.part, r.page, s.cycle + 2) ∈ t.xl.failed)) ∧
  (∀ (s : State) (ident : BitVec 28) (page : Word) (lg : Fin 64) (tag : BitVec 8) (size lo : Nat), s.ev = .inval ident page lg tag → size = max 4096 (2^lg.val) → lo = page.toNat % 2^60 / size * size →
    ∃ t ops, exec .atsInvalidationRequest s = .next t ∧ t.cores = s.cores ∧ t.mem = s.mem ∧ t.out = s.out ∧ t.xl.invals = s.xl.invals ++ [(ident.toNat, tag, ops)] ∧
      (∀ e, e ∈ t.xl.atc ↔ e ∈ s.xl.atc ∧ ¬ (e.ident = ident.toNat ∧ e.page < lo + size ∧ lo < e.page + e.size)) ∧
      t.xl.reqs = s.xl.reqs.map (fun r => if r.pri = false ∧ r.ident = ident.toNat then { r with covered := r.covered ++ [(lo, size)] } else r) ∧
      ∀ (c : Nat) (x : Core) (o : AOp), (c, x) ∈ s.cores → o ∈ x.ops → o.waiting = false →
        (hostIdent s (partOfCore s c) = some ident.toNat ∨ ∃ e ∈ s.xl.atc, e.ident = ident.toNat ∧ e.part = partOfCore s c ∧ e.page < lo + size ∧ lo < e.page + e.size) →
        (∃ g ∈ o.pages, g.1 * 4096 / 2^60 % 16 = 4 ∧ g.1 * 4096 % 2^60 < lo + size ∧ lo < g.1 * 4096 % 2^60 + 4096) → (c, o.id) ∈ ops) ∧
  (∀ (s : State) (tag : BitVec 8) (e : Nat × BitVec 8 × List (Nat × Nat)), s.ev = .tag tag → s.xl.invals.find? (fun e => e.2.1 == tag && !opsLive s e.2.2) = some e →
    ∃ t, exec .atsInvalidationCompletion s = .next t ∧ t.cores = s.cores ∧ t.out = s.out ++ [.invalidationDone tag] ∧ t.xl.invals = s.xl.invals.filter (fun x => x ≠ e)) ∧
  (∀ (s : State) (r : PeerReq), s.ev = .peer r →
    (fenced s r.chip.toNat = true ∨ peerPart s r.chip.toNat r.part.val = none → exec .peerRequest s = .next { s with out := s.out ++ [.peerAnswer r.chip.toNat false []] }) ∧
    (∀ p pa, fenced s r.chip.toNat = false → peerPart s r.chip.toNat r.part.val = some p → Spec.NoLines s → Spec.Unlogged s → s.xl.l2change = [] → 0 < r.bytes.val → r.va.toNat % 4096 + r.bytes.val ≤ 4096 →
      lookup s p (r.die.val * 2^60 + r.va.toNat) r.data.isSome = .ok pa →
      (r.data = none → exec .peerRequest s = .next { s with out := s.out ++ [.peerAnswer r.chip.toNat true ((List.range r.bytes.val).map fun i => memByte s (pa + i))] }) ∧
      (∀ bs, r.data = some bs → bs.length = r.bytes.val →
        ∃ t, exec .peerRequest s = .next t ∧ t.cores = s.cores ∧ t.out = s.out ++ [.peerAnswer r.chip.toNat true []] ∧ Spec.MemoryChange s t pa r.bytes.val (leOf bs)))) ∧
  (∀ (s : State) (v : Word) (w : Nat), s.ev = .val v → w = v.toNat % 2^32 →
    (w / 2^31 = 0 → ∃ t, exec .shootdown s = .next t ∧ t.xl = s.xl ∧ Spec.RegisterChange s t 0xE1008 4 (w &&& 0x0F3F0000)) ∧
    (w / 2^31 = 1 → (s.xl.shoot.isSome = true ∨ w / 2^24 % 4 = 3) → ∃ t, exec .shootdown s = .next t ∧ Spec.RegisterChange s t 0xE1010 4 (pfGet s 0xE1010 4 ||| 1)) ∧
    (w / 2^31 = 1 → s.xl.shoot = none → w / 2^24 % 4 ≠ 3 → Spec.NoLines s →
      ∃ t x, exec .shootdown s = .next t ∧ t.mem = s.mem ∧ t.xl.shoot = some x ∧ x.scope = w / 2^26 % 4 ∧ x.addr = pfGet s 0xE1000 8 ∧
        x.size = (if w / 2^24 % 4 = 0 then 2^16 else if w / 2^24 % 4 = 1 then 2^21 else 2^30) ∧ x.part = w / 2^16 % 64 ∧ x.release = false ∧
        x.targets = [0, 1, 2, 3] ++ (shootChips s).map (fun c => 1000 + c) ∧ t.out = s.out ++ (shootChips s).map (fun c => .shootdown c) ∧
        pfGet t 0xE1010 4 / 2^31 % 2 = 1 ∧ (∀ e, e ∈ t.xl.mtlb ↔ e ∈ s.xl.mtlb ∧ shootHits x e.die e.part e.va e.size e.frame = false) ∧
        (∀ e, e ∈ t.xl.atc ↔ e ∈ s.xl.atc ∧ ¬ (x.scope = 3 ∨ x.scope = 1 ∧ (e.part = x.part ∨ hostIdent s x.part = some e.ident))) ∧ ∀ i, (x.scope = 3 ∨ x.scope = 1 ∧ (coreGet s i).part = x.part) → (coreGet t i).l1 = [])) ∧
  (∀ (s : State) (n : Nat) (x : Shoot), s.ev = .target n → s.xl.shoot = some x → mayAck s x n = true →
    (x.targets.filter (fun e => e ≠ n) ≠ [] → exec .shootdownAck s = .next { s with xl := { s.xl with shoot := some { x with targets := x.targets.filter (fun e => e ≠ n) } } }) ∧
    (x.targets.filter (fun e => e ≠ n) = [] → s.xl.shootQ = [] →
      ∃ t, exec .shootdownAck s = .next t ∧ t.xl.shoot = none ∧ t.cores = s.cores ∧ t.mem = s.mem ∧ pfGet t 0xE1010 4 = pfGet s 0xE1010 4 % 2^31 ∧
        (x.release = false → t.xl = { s.xl with shoot := none }) ∧ (x.release = true → ∃ due, (x.addr / 2^60 % 16, x.addr % 2^60 / 65536, due) ∈ t.xl.scrub))) ∧
  (∀ (s : State) (c : BitVec 9) (x : Shoot), s.ev = .chip c → s.xl.shoot = some x → (1000 + c.toNat) ∈ x.targets →
    (now s < x.sent.toNat + 100000 → exec .shootdownFenceTimeout s = .next s) ∧
    (x.sent.toNat + 100000 ≤ now s → (∀ y ∈ s.xl.pulls, ¬ Spec.pullsFrom y c.toNat) → x.targets.filter (fun e => e ≠ 1000 + c.toNat) ≠ [] →
      ∃ t, exec .shootdownFenceTimeout s = .next t ∧ t.mem = s.mem ∧ fenced t c.toNat = true ∧ pfGet t 0xE1010 4 / 2 % 2 = 1 ∧
        t.xl.shoot = some { x with targets := x.targets.filter (fun e => e ≠ 1000 + c.toNat) } ∧
        ∀ i l, 64 * l / 2^60 % 16 = 8 → 64 * l / 2^48 % 512 = c.toNat → Tbl.find? (coreGet t i).l1 l = none)) ∧
  (∀ (s : State) (chip : BitVec 9) (addr : Word) (ctl : BitVec 32), s.ev = .peerShootdown chip addr ctl →
    ∃ t, exec .peerShootdownReceive s = .next t ∧ t.mem = s.mem ∧ t.xl = s.xl ∧ t.out = s.out ++ [.shootdownAck chip.toNat] ∧
      ∀ i l, (64 * l / 2^60 % 16 = 8 → 64 * l / 2^48 % 512 = chip.toNat → ctl.toNat / 2^26 % 4 ≠ 0 → Tbl.find? (coreGet t i).l1 l = none) ∧
        (64 * l / 2^60 % 16 ≠ 8 ∨ 64 * l / 2^48 % 512 ≠ chip.toNat → Tbl.find? (coreGet t i).l1 l = Tbl.find? (coreGet s i).l1 l)) ∧
  (∀ (s : State) (j : Fin 8) (v : Word), s.ev = .pfence j v →
    ∃ t, exec .pfenceWrite s = .next t ∧ Spec.RegisterChange s t (0xE1100 + 8 * j.val) 8 ((BitVec.ofNat 64 (pfGet s (0xE1100 + 8 * j.val) 8)) &&& ~~~v).toNat)

/-! ## Frames and format windows -/

/-- R161, R162, R255, R256: the frame commands change the states of frames from the first on, up to the first that they cannot take, and report; a scrubbed frame is zero and clean; a window's control word is taken, refused, or starts a discard that ends. That a window of size 0 may be enabled is the model's choice (log 74). -/
def Obligations.FramesAndWindows : Prop :=
  (∀ (s : State) (d : Die) (v : Word) (n f part : Nat), s.ev = .dieVal d v → v.toNat < 2^63 → n = Spec.frameCount s d.val → f = Spec.firstFrame s d.val → part = v.toNat / 2^8 % 2^6 →
    (¬ Spec.fsIdle s d.val → ∃ t, exec .frameAssign s = .next t ∧ exec .frameRelease s = .next t ∧ exec .frameScrub s = .next t ∧ exec .frameQuery s = .next t ∧
      Spec.RegisterChange s t (Spec.fsAt d.val + 24) 8 (pfGet s (Spec.fsAt d.val + 24) 8 ||| 1)) ∧
    (Spec.fsIdle s d.val → stacksRun s d.val = true → f + n ≤ 3145728 → (∀ i < n, Spec.frameAt s d.val (f + i) = .clean) → (part < 40 ∨ part = 62) →
      ∃ t, exec .frameAssign s = .next t ∧ t.mem = s.mem ∧ t.cores = s.cores ∧ (∀ i < n, Spec.frameAt t d.val (f + i) = .owned part) ∧
        (∀ g, g < f ∨ f + n ≤ g → Spec.frameAt t d.val g = Spec.frameAt s d.val g) ∧ pfGet t (Spec.fsAt d.val + 24) 8 = Spec.fsStatus s d.val n false none) ∧
    (Spec.fsIdle s d.val → stacksRun s d.val = true → 0 < n → (3145728 ≤ f ∨ Spec.frameAt s d.val f ≠ .clean ∨ 40 ≤ part ∧ part ≠ 62) →
      ∃ t, exec .frameAssign s = .next t ∧ t.xl = s.xl ∧ t.mem = s.mem ∧ pfGet t (Spec.fsAt d.val + 24) 8 = Spec.fsStatus s d.val 0 true none) ∧
    (∀ k < n, Spec.fsIdle s d.val → stacksRun s d.val = true → (part < 40 ∨ part = 62) → (∀ i < k, f + i < 3145728 ∧ Spec.frameAt s d.val (f + i) = .clean) →
        (3145728 ≤ f + k ∨ Spec.frameAt s d.val (f + k) ≠ .clean) →
      ∃ t, exec .frameAssign s = .next t ∧ t.mem = s.mem ∧ t.cores = s.cores ∧ (∀ i < k, Spec.frameAt t d.val (f + i) = .owned part) ∧
        (∀ g, g < f ∨ f + k ≤ g → Spec.frameAt t d.val g = Spec.frameAt s d.val g) ∧ pfGet t (Spec.fsAt d.val + 24) 8 = Spec.fsStatus s d.val k true none) ∧
    (∀ k ≤ n, Spec.fsIdle s d.val → (s.xl.shoot = none → s.xl.shootQ = []) → (∀ i < k, f + i < 3145728 ∧ ∃ o, Spec.frameAt s d.val (f + i) = .owned o ∧ o ≠ 63) →
        (k < n → 3145728 ≤ f + k ∨ Spec.frameAt s d.val (f + k) = .owned 63 ∨ ∀ o, Spec.frameAt s d.val (f + k) ≠ .owned o) →
      ∃ t, exec .frameRelease s = .next t ∧ (∀ i < k, Spec.frameAt t d.val (f + i) = .queued) ∧ (∀ g, g < f ∨ f + k ≤ g → Spec.frameAt t d.val g = Spec.frameAt s d.val g) ∧
        (t.xl.shoot.toList ++ t.xl.shootQ).map (fun x => (x.scope, x.addr, x.release)) =
          (s.xl.shoot.toList ++ s.xl.shootQ).map (fun x => (x.scope, x.addr, x.release)) ++ (List.range k).map (fun i => (2, d.val * 2^60 + (f + i) * 65536, true)) ∧
        pfGet t (Spec.fsAt d.val + 24) 8 = Spec.fsStatus s d.val k (decide (k < n)) none) ∧
    (∀ k ≤ n, Spec.fsIdle s d.val → stacksRun s d.val = true → (∀ i < k, f + i < 3145728 ∧ Spec.frameAt s d.val (f + i) = .free) →
        (k < n → 3145728 ≤ f + k ∨ Spec.frameAt s d.val (f + k) ≠ .free) →
      ∃ t, exec .frameScrub s = .next t ∧ t.mem = s.mem ∧ t.cores = s.cores ∧ (∀ g, g < f ∨ f + k ≤ g → Spec.frameAt t d.val g = Spec.frameAt s d.val g) ∧
        pfGet t (Spec.fsAt d.val + 24) 8 = Spec.fsStatus s d.val k (decide (k < n)) none ∧
        ((∃ e ∈ s.xl.scrub, e.1 = d.val ∧ e.2.2 ≠ 0) → (∀ i < k, Spec.frameAt t d.val (f + i) = .queued) ∧ t.xl.scrub = s.xl.scrub ++ (List.range k).map (fun i => (d.val, f + i, 0))) ∧
        ((∀ e ∈ s.xl.scrub, e.1 ≠ d.val) → 0 < k → Spec.frameAt t d.val f = .scrubbing ∧ (∀ i < k, 0 < i → Spec.frameAt t d.val (f + i) = .queued) ∧
          ∃ due, t.xl.scrub = s.xl.scrub ++ (d.val, f, due) :: (List.range (k - 1)).map (fun i => (d.val, f + 1 + i, 0)))) ∧
    (∀ o, Spec.fsIdle s d.val → n = 1 → f < 3145728 → Spec.frameAt s d.val f = .owned o → o ≠ 63 →
      ∃ t, exec .frameRelease s = .next t ∧ Spec.frameAt t d.val f = .queued ∧ t.xl.shoot.isSome = true ∧ (∀ g, g ≠ f → Spec.frameAt t d.val g = Spec.frameAt s d.val g) ∧
        pfGet t (Spec.fsAt d.val + 24) 8 = Spec.fsStatus s d.val 1 false none) ∧
    (Spec.fsIdle s d.val → 0 < n → (3145728 ≤ f ∨ Spec.frameAt s d.val f = .owned 63 ∨ ∀ o, Spec.frameAt s d.val f ≠ .owned o) →
      ∃ t, exec .frameRelease s = .next t ∧ t.xl = s.xl ∧ t.mem = s.mem ∧ pfGet t (Spec.fsAt d.val + 24) 8 = Spec.fsStatus s d.val 0 true none) ∧
    (Spec.fsIdle s d.val → stacksRun s d.val = true → n = 1 → f < 3145728 → Spec.frameAt s d.val f = .free → s.xl.scrub = [] →
      ∃ t due, exec .frameScrub s = .next t ∧ Spec.frameAt t d.val f = .scrubbing ∧ t.xl.scrub = [(d.val, f, due)] ∧ t.mem = s.mem ∧ pfGet t (Spec.fsAt d.val + 24) 8 = Spec.fsStatus s d.val 1 false none) ∧
    (Spec.fsIdle s d.val → f < 3145728 →
      ∃ t, exec .frameQuery s = .next t ∧ t.xl = s.xl ∧ t.mem = s.mem ∧ pfGet t (Spec.fsAt d.val + 24) 8 = Spec.fsStatus s d.val 1 false (some (match Spec.frameAt s d.val f with
        | .free | .queued => 0
        | .scrubbing => 1
        | .clean => 2
        | .owned o => (0x80 + o) % 2^32)))) ∧
  (∀ (s : State) (d : Die) (f : Word) (due : Nat), s.ev = .dieVal d f → s.xl.scrub.find? (fun e => e.1 == d.val && e.2.1 == f.toNat && e.2.2 ≠ 0 && decide (e.2.2 ≤ s.cycle)) = some (d.val, f.toNat, due) → s.xl.l2change = [] →
    (∀ e ∈ s.xl.scrub, e.1 = d.val → e.2.1 = f.toNat → e = (d.val, f.toNat, due)) →
    ∃ t, exec .scrubComplete s = .next t ∧ t.cores = s.cores ∧ t.pf = s.pf ∧ Spec.frameAt t d.val f.toNat = .clean ∧ (d.val, f.toNat, due) ∉ t.xl.scrub ∧
      (∀ i < 65536, memByte t (d.val * 2^60 + f.toNat * 65536 + i) = 0) ∧
      ∀ a, a < d.val * 2^60 + f.toNat * 65536 ∨ d.val * 2^60 + f.toNat * 65536 + 65536 ≤ a → memByte t a = memByte s a) ∧
  (∀ (s : State) (d : Die) (c : Fin 4) (w : Fin 16) (v : Word) (new : Nat), s.ev = .window d c w v → new = (v &&& 0x800FCF7F).toNat →
    ((Spec.winCtl s d c w / 2^30 % 2 = 1 ∨ (Spec.winCtl s d c w / 2^31 % 2 = 1 ∧ (new / 2^31 % 2 = 1 ∨ ¬ (new % 16 ≤ 9 ∧ new / 16 % 8 ≤ 2 ∧ new / 256 % 16 ≠ 0 ∧ new / 2^14 % 4 ≠ 3)))) →
      ∃ t, exec .fmwctlWrite s = .next t ∧ Spec.RegisterChange s t 0xC4000 4 (pfGet s 0xC4000 4 ||| 1)) ∧
    (Spec.winCtl s d c w / 2^30 % 4 = 2 → new / 2^31 % 2 = 0 → new % 16 ≤ 9 ∧ new / 16 % 8 ≤ 2 ∧ new / 256 % 16 ≠ 0 ∧ new / 2^14 % 4 ≠ 3 →
      ∃ t due, exec .fmwctlWrite s = .next t ∧ pfGet t (Spec.winAt d c w + 16) 8 = new + 2^30 ∧ t.mem = s.mem ∧
        t.xl = { s.xl with discard := s.xl.discard ++ [(64 * d.val + 16 * c.val + w.val, due)] }) ∧
    (Spec.winCtl s d c w / 2^30 % 4 = 0 → new / 2^31 % 2 = 1 →
      (fmwMayEnable s d c.val (Spec.winAt d c w) new = true → ∃ t, exec .fmwctlWrite s = .next t ∧ Spec.RegisterChange s t (Spec.winAt d c w + 16) 8 new) ∧
      ((new % 16 = 4 ∨ new % 16 = 5) ∧ pfGet s (Spec.winAt d c w + 8) 8 % 196608 ≠ 0 ∨ pfGet s (Spec.winAt d c w + 8) 8 % 65536 ≠ 0 ∨ pfGet s (Spec.winAt d c w) 8 % 65536 ≠ 0 →
        fmwMayEnable s d c.val (Spec.winAt d c w) new = false) ∧
      (fmwMayEnable s d c.val (Spec.winAt d c w) new = false → ∃ t, exec .fmwctlWrite s = .next t ∧ Spec.RegisterChange s t 0xC4000 4 (pfGet s 0xC4000 4 ||| 1))) ∧
    (Spec.winCtl s d c w / 2^30 % 4 = 0 → new / 2^31 % 2 = 0 →
      ((new % 16 ≤ 9 ∧ new / 16 % 8 ≤ 2 ∧ new / 256 % 16 ≠ 0 ∧ new / 2^14 % 4 ≠ 3) → ∃ t, exec .fmwctlWrite s = .next t ∧ Spec.RegisterChange s t (Spec.winAt d c w + 16) 8 new) ∧
      (¬ (new % 16 ≤ 9 ∧ new / 16 % 8 ≤ 2 ∧ new / 256 % 16 ≠ 0 ∧ new / 2^14 % 4 ≠ 3) → ∃ t, exec .fmwctlWrite s = .next t ∧ Spec.RegisterChange s t 0xC4000 4 (pfGet s 0xC4000 4 ||| 1)))) ∧
  (∀ (s : State) (d : Die) (c : Fin 4) (w : Fin 16) (v : Word) (due : Nat), s.ev = .window d c w v →
    s.xl.discard.find? (fun e => e.1 == 64 * d.val + 16 * c.val + w.val && decide (e.2 ≤ s.cycle)) = some (64 * d.val + 16 * c.val + w.val, due) →
    ∃ t, exec .fmwDiscardDone s = .next t ∧ t.mem = s.mem ∧ pfGet t (Spec.winAt d c w + 16) 8 = ((BitVec.ofNat 64 (Spec.winCtl s d c w)) &&& ~~~0x40000000).toNat ∧
      (64 * d.val + 16 * c.val + w.val, due) ∉ t.xl.discard)

/-! ## Commands and requests -/

/-- R23 to R33, R37, R39, R45 to R47, R56: a SUBMIT makes a task or is refused by its signal or on its path, releases set the effective time, NOPs do nothing, rings hand their entries over, packets release tasks, and a task whose time has come is readied or skipped. The model's choices are: a matched packet whose session has no valid record or whose buffer has another owner than a C-die counts a miss (log 54), a timestamp outside R39's bounds is taken at the nearest within them (log 66), skips and what a signal of theirs holds (log 29), and firmware rings (log 30). -/
def Obligations.CommandsAndRequests : Prop :=
  (∀ (s : State) (v : Vf) (e : Fin 4096) (p : Part) (c : Command), s.ev = .req (.host v e) p c → c.toNat % 256 = 1 →
    (∀ d, submitBad s (.host v e) p.val c = some d →
      (signalBad c = true → ∃ t, exec .submit s = .next t ∧ Spec.RefusedByRing s t v e 2 0x0107 d) ∧
      (signalBad c = false → ∃ t w, exec .submit s = .next t ∧ t.rk.tasks = s.rk.tasks ∧ t.bar0 = s.bar0 ∧ t.rk.nextFree = s.cycle + 4 ∧ t.rk.sigQ = s.rk.sigQ ++ [w] ∧
        w.addr = cmdField c 24 8 ∧ w.part = p.val ∧ w.wait = none ∧ w.bytes = Spec.refusalBytes s c 0x0107 d)) ∧
    (submitBad s (.host v e) p.val c = none → signalBad c = true → ∃ t, exec .submit s = .next t ∧ Spec.RefusedByRing s t v e 2 0x0107 24) ∧
    (∀ s1 d, submitBad s (.host v e) p.val c = none → signalBad c = false → readHeaders s p.val c = (s1, .bad d) →
      ∃ t w, exec .submit s = .next t ∧ t.rk.tasks = s1.rk.tasks ∧ t.rk.sigQ = s1.rk.sigQ ++ [w] ∧ w.addr = cmdField c 24 8 ∧ w.bytes = Spec.refusalBytes s1 c 0x0106 d) ∧
    (∀ s1 h i rs ss, submitBad s (.host v e) p.val c = none → signalBad c = false → readHeaders s p.val c = (s1, .ok h i rs ss) →
      (∀ code, admission s1 p.val (newTask s1 (.host v e) p.val (takenAt s) c h i rs ss) (c.toNat / 2^8 % 2 = 1) = .error code →
        ∃ t w, exec .submit s = .next t ∧ t.rk.tasks = s1.rk.tasks ∧ t.rk.sigQ = s1.rk.sigQ ++ [w] ∧ w.bytes = Spec.refusalBytes s1 c code 0) ∧
      (∀ u dd ti, admission s1 p.val (newTask s1 (.host v e) p.val (takenAt s) c h i rs ss) (c.toNat / 2^8 % 2 = 1) = .ok (u, dd) → absTask s1 p.val (cmdField c 4 2) = some ti →
        (∀ x, (newTask s1 (.host v e) p.val (takenAt s) c h i rs ss).eff = some x → now s1 < x.toNat) →
        ∃ t, exec .submit s = .next t ∧ t.mem = s1.mem ∧ taskOf t ti = { newTask s1 (.host v e) p.val (takenAt s) c h i rs ss with util := u, slots := dd } ∧
          (taskOf t ti).st = .pending ∧ (taskOf t ti).cmd = c ∧ (taskOf t ti).hdr = h ∧ (taskOf t ti).img = i ∧ (∀ j, j ≠ ti → taskOf t j = taskOf s1 j) ∧
          partField t p.val 4 4 = (partField s1 p.val 4 4 + u) % 2^32))) ∧
  (∀ (s : State) (p : Nat) (t : Task),
    (∀ dl, t.deadline = some dl → dl ≤ now s → admission s p t false = .error 0x0101) ∧
    (t.cls = 2 → admission s p t true = if kvEnabled s p = true ∧ kvFree s p < bitsAt (kvCtl s p) 32 20 then .error 0x0105 else .ok (0, 0)) ∧
    (t.cls ≠ 2 → utilisation s p t = none → admission s p t true = .error 0x0103) ∧
    (∀ u, t.cls ≠ 2 → utilisation s p t = some u → admission s p t true =
      if partField s p 0 4 < partField s p 4 4 + u then .error 0x0103
      else if groupsServe s p t.mirrored = false ∨ reservedSlots s p t.cls < heldSlots s p t.cls + demandOf s t then .error 0x0104
      else .ok (u, demandOf s t))) ∧
  (∀ (s : State) (v : Vf) (e : Fin 4096) (p : Part) (c : Command), s.ev = .req (.host v e) p c → c.toNat % 256 = 2 →
    (∀ d, releaseBad s (.host v e) p.val c = some d → ∃ t, exec .releaseCommand s = .next t ∧ Spec.RefusedByRing s t v e 16 0x0107 d) ∧
    (∀ ti, releaseBad s (.host v e) p.val c = none → absTask s p.val (cmdField c 4 2) = some ti →
      (¬ Spec.AwaitsRelease (taskOf s ti) → ∃ t, exec .releaseCommand s = .next t ∧ t.rk.tasks = s.rk.tasks ∧ t.rk.sigQ = s.rk.sigQ ∧ Spec.qstat t v = Spec.qstat s v ||| 4) ∧
      (∀ x, Spec.AwaitsRelease (taskOf s ti) → x = Spec.effective (taskOf s ti) (max (cmdField c 40 8) (now s)) → now s < x →
        ∃ t, exec .releaseCommand s = .next t ∧ t.mem = s.mem ∧ t.bar0 = s.bar0 ∧ taskOf t ti = { taskOf s ti with relTaken := true, eff := some (BitVec.ofNat 64 x) } ∧ ∀ j, j ≠ ti → taskOf t j = taskOf s j))) ∧
  (∀ (s : State) (k : CoreId) (op : Nat) (p : Part) (c cmd : Command) (o : AOp) (dst : Fin 32), s.ev = .req (.device k op) p c → c.toNat % 256 = 2 → liveOp s k.val op = some o → o.kind = .asked dst cmd →
    absTask s p.val (cmdField c 4 2) = none →
    ∃ t, exec .releaseCommand s = .next t ∧ t.mem = s.mem ∧ t.rk.tasks = s.rk.tasks ∧ (k.val, op) ∉ t.rk.devQ ∧
      coreGet t k.val = removeOp ((coreGet s k.val).setN dst.val ⟨BitVec.ofNat 64 (0x0107 + 4 * 2^16 + cmdField c 4 2 % 2^13 * 2^32), o.taint⟩) o) ∧
  (∀ (s : State) (p : Part) (c : Command),
    (∀ src, s.ev = .req src p c → c.toNat = 0 → (∀ k op, src ≠ .device k op) → (∀ cp e, src ≠ .firmware cp e) →
      exec .nopCommand s = .next { s with rk := { s.rk with nextFree := s.cycle + 4, busy := none } }) ∧
    (∀ (cp : Fin 4) (e : Fin 64), s.ev = .req (.firmware cp e) p c → 2 < c.toNat % 256 →
      ∃ t, exec .nopCommand s = .next t ∧ t.mem = s.mem ∧ t.rk.tasks = s.rk.tasks ∧ cpRingGet t cp.val (64 * e.val + 60) 4 = 0x0107 ∧ t.bar0 = s.bar0) ∧
    (∀ v e, s.ev = .req (.host v e) p c → 2 < c.toNat % 256 → ∃ t, exec .nopCommand s = .next t ∧ Spec.RefusedByRing s t v e 16 0x0107 0)) ∧
  (∀ (s : State) (v : Vf) (x : BitVec 32) (old : Nat), s.ev = .vfVal v x → old = bar0Get s v.val 0 4 →
    (old / 2^31 % 2 = 0 → 4 ≤ x.toNat % 16 → x.toNat % 16 ≤ 12 → x.toNat / 2^31 = 1 →
      ∃ t, exec .qcfgWrite s = .next t ∧ t.mem = s.mem ∧ t.rk = s.rk ∧ bar0Get t v.val 0 4 = 2^31 + x.toNat % 16 ∧ bar0Get t v.val 8 4 = 0 ∧ bar0Get t v.val 0x10 4 = 0) ∧
    (x.toNat / 2^31 = 0 → ∃ t, exec .qcfgWrite s = .next t ∧ t.rk = s.rk ∧ bar0Get t v.val 0 4 / 2^31 = 0 ∧ bar0Get t v.val 8 4 = bar0Get s v.val 8 4 ∧ bar0Get t v.val 0x10 4 = bar0Get s v.val 0x10 4) ∧
    (old / 2^31 % 2 = 1 → x.toNat < 2^(old % 16) → ∃ t, exec .qtailWrite s = .next t ∧ t.mem = s.mem ∧ t.rk = s.rk ∧ bar0Get t v.val 8 4 = x.toNat ∧ bar0Get t v.val 0 4 = old ∧ Spec.qstat t v = Spec.qstat s v) ∧
    ((old / 2^31 % 2 = 0 ∨ 2^(old % 16) ≤ x.toNat) → ∃ t, exec .qtailWrite s = .next t ∧ t.mem = s.mem ∧ bar0Get t v.val 8 4 = bar0Get s v.val 8 4 ∧ Spec.qstat t v = Spec.qstat s v ||| 1)) ∧
  (∀ (s : State) (v : Vf), s.ev = .vf v →
    (ringReady s v.val = false ∨ takesRequest s = false → exec .ringEntryRead s = .next s) ∧
    (∀ head c, ringReady s v.val = true → takesRequest s = true → head = bar0Get s v.val 0x10 4 → c = BitVec.ofNat 512 (bar2Get s v.val (64 * head) 64) →
      ∃ t, exec .ringEntryRead s = .next t ∧ t.mem = s.mem ∧ bar0Get t v.val 0x10 4 = (head + 1) % 2^(bar0Get s v.val 0 4 % 16) ∧ t.rk.nextFree = s.cycle + 4 ∧ t.rk.rr = v.val + 1 ∧ t.rk.tasks = s.rk.tasks ∧
        t.agenda = ⟨Spec.opOf c, .req (.host v (Fin.ofNat 4096 head)) (Fin.ofNat 40 ((vfOwner s v.val).getD 0)) c⟩ :: s.agenda)) ∧
  (∀ (s : State) (cp : Fin 4) (i : Nat) (c : Command), s.ev = .cp cp → takesRequest s = true → cp.val ∉ s.plat.cpReset → i = Tbl.get 0 s.rk.cpRead cp.val → c = BitVec.ofNat 512 (cpRingGet s cp.val (64 * i) 64) →
    ∃ t, exec .firmwareRingEntry s = .next t ∧ t.mem = s.mem ∧ Tbl.get 0 t.rk.cpRead cp.val = (i + 1) % 64 ∧ t.rk.nextFree = s.cycle + 4 ∧ t.rk.tasks = s.rk.tasks ∧
      t.agenda = ⟨Spec.opOf c, .req (.firmware cp (Fin.ofNat 64 i)) (Fin.ofNat 40 (cmdField c 1 1 / 4)) c⟩ :: s.agenda) ∧
  (∀ (s : State) (port : Fin 4) (ctx : BitVec 16) (stamp : Word) (payload : List Byte) (T : Nat) (s1 : State), s.ev = .packet port ctx stamp payload → T = Spec.ingressOf s port.val stamp → s1 = Spec.stampedAt s port.val stamp →
    (∀ e r, s.net.packets = e :: r → ∀ i, matchEntry s e.1 e.2.1 = some i → packetIn { s1 with net := { s1.net with packets := r ++ [(port.val, ctx.toNat, BitVec.ofNat 64 T, payload)] } } i e.2.2.1 e.2.2.2 = none →
      ∃ t, exec .packetMatch s = .next t ∧ (Spec.NoLines s → t.cores = s.cores) ∧ t.rk.tasks = s.rk.tasks ∧ t.rk.netQ = s.rk.netQ ∧ t.net.packets = s.net.packets ++ [(port.val, ctx.toNat, BitVec.ofNat 64 T, payload)]) ∧
    (s.net.packets = [] → matchEntry s port.val ctx.toNat = none →
      (nctxFor s port.val ctx.toNat = none → exec .packetMatch s = .next s1) ∧
      ∀ i, nctxFor s port.val ctx.toNat = some i → Tbl.get [] s.net.posted i = [] →
        (heldBytes s i 0 + payload.length ≤ 262144 → ∃ t m, exec .packetMatch s = .next t ∧ t.mem = s.mem ∧ t.cores = s.cores ∧ t.rk = s.rk ∧ Tbl.get [] t.net.held i = Tbl.get [] s.net.held i ++ [m] ∧ m.payload = payload) ∧
        (262144 < heldBytes s i 0 + payload.length → ∃ t, exec .packetMatch s = .next t ∧ t.mem = s.mem ∧ t.cores = s.cores ∧ t.rk = s.rk ∧ t.net = s1.net)) ∧
    (∀ i, s.net.packets = [] → matchEntry s port.val ctx.toNat = some i →
      ((sessionPart s (pfGet s (0x60000 + 32 * i + 4) 2) = none ∨ 1 < pfGet s (0x60000 + 32 * i + 8) 8 / 2^60 % 16) →
        ∃ t, exec .packetMatch s = .next t ∧ t.mem = s.mem ∧ t.rk = s.rk ∧ t.net = s1.net ∧ pfGet t (0x60000 + 32 * i + 24) 8 = T ∧
          pfGet t (0x60000 + 32 * i + 20) 4 = min 0xFFFFFFFF (pfGet s (0x60000 + 32 * i + 20) 4 + 1)) ∧
      (∀ p pa bs buf, sessionPart s (pfGet s (0x60000 + 32 * i + 4) 2) = some p → buf = pfGet s (0x60000 + 32 * i + 8) 8 → buf / 2^60 % 16 < 2 → bs = payload.take (pfGet s (0x60000 + 32 * i + 16) 4) →
        0 < bs.length → buf % 4096 + bs.length ≤ 4096 → lookup s p buf true = .ok pa → s.xl.l2change = [] → Spec.NoLines s → Spec.Unlogged s →
        ∃ t, exec .packetMatch s = .next t ∧ Spec.MemoryChange s t pa bs.length (leOf bs) ∧ t.rk = { s.rk with netQ := s.rk.netQ ++ [(i, BitVec.ofNat 64 T)] } ∧ t.net = s1.net ∧
          pfGet t (0x60000 + 32 * i + 24) 8 = T ∧ pfGet t (0x60000 + 32 * i + 20) 4 = pfGet s (0x60000 + 32 * i + 20) 4))) ∧
  (∀ (s : State) (i : Fin 4096) (stamp : Word), s.ev = .netRelease i stamp →
    ((i.val, stamp) ∉ s.rk.netQ → exec .networkRelease s = .next s) ∧
    (∀ p ti, (i.val, stamp) ∈ s.rk.netQ → sessionPart s (pfGet s (0x60000 + 32 * i.val + 4) 2) = some p → absTask s p (pfGet s (0x60000 + 32 * i.val + 6) 2) = some ti →
      (¬ Spec.AwaitsRelease (taskOf s ti) → ∃ t, exec .networkRelease s = .next t ∧ t.mem = s.mem ∧ t.rk.tasks = s.rk.tasks ∧ t.rk.netQ = s.rk.netQ.erase (i.val, stamp) ∧ t.rk.nextFree = s.cycle + 4 ∧
        pfGet t (0x60000 + 32 * i.val + 20) 4 = min 0xFFFFFFFF (pfGet s (0x60000 + 32 * i.val + 20) 4 + 1)) ∧
      (Spec.AwaitsRelease (taskOf s ti) → now s < Spec.effective (taskOf s ti) stamp.toNat →
        ∃ t, exec .networkRelease s = .next t ∧ t.mem = s.mem ∧ t.pf = s.pf ∧ t.rk.netQ = s.rk.netQ.erase (i.val, stamp) ∧
          taskOf t ti = { taskOf s ti with relTaken := true, eff := some (BitVec.ofNat 64 (Spec.effective (taskOf s ti) stamp.toNat)) } ∧ ∀ j, j ≠ ti → taskOf t j = taskOf s j))) ∧
  (∀ (s : State) (ti : TaskId) (k : Task) (e : Word), s.ev = .task ti → k = taskOf s ti.val → k.eff = some e →
    (now s < e.toNat → exec .taskReleaseTime s = .next s) ∧
    (k.st = .pending → e.toNat ≤ now s →
      ((k.cls = 2 ∨ (k.cls = 0 ∧ levelOf s k.part < 3) ∨ (k.cls = 1 ∧ levelOf s k.part < 2)) →
        ∃ t, exec .taskReleaseTime s = .next t ∧ t.mem = s.mem ∧ t.pf = s.pf ∧ t.rk.launches = s.rk.launches + 1 ∧ taskOf t ti.val = Spec.readied s k ∧ ∀ j, j ≠ ti.val → taskOf t j = taskOf s j) ∧
      (k.cls = 1 → 2 ≤ levelOf s k.part → pfGet s (0x20000 + 64 * k.session) 1 / 4 % 2 = 0 →
        ∃ t, exec .taskReleaseTime s = .next t ∧ t.mem = s.mem ∧ pfGet t (0x20000 + 64 * k.session) 1 = pfGet s (0x20000 + 64 * k.session) 1 + 4 ∧ taskOf t ti.val = Spec.readied s k) ∧
      (k.cls = 1 → 2 ≤ levelOf s k.part → pfGet s (0x20000 + 64 * k.session) 1 / 4 % 2 = 1 → k.period = 0 →
        ∃ t w, exec .taskReleaseTime s = .next t ∧ t.mem = s.mem ∧ (taskOf t ti.val).st = .free ∧ t.rk.sigQ = s.rk.sigQ ++ [w] ∧ w.addr = cmdField k.cmd 24 8 ∧ leOf ((w.bytes.drop 24).take 2) = 0x0109) ∧
      (k.cls = 0 → levelOf s k.part = 3 → (Tbl.get ⟨false, 0⟩ s.rk.sess k.session).sent = false → k.period = 0 →
        ∃ t w, exec .taskReleaseTime s = .next t ∧ t.mem = s.mem ∧ (taskOf t ti.val).st = .free ∧ t.rk.sigQ = s.rk.sigQ ++ [w] ∧ w.addr = cmdField k.cmd 24 8 ∧ leOf ((w.bytes.drop 24).take 2) = 0x0109)))

/-! ## Dispatch, ends and time -/

/-- R38, R40, R44, R49 to R58, R60, R141, R336 to R340, R379: a free unit takes the earliest-ordered work and its beads start afresh; requests, deadlines, budgets and margins take effect when their time has come; a pass ends, an end is signalled or queued; and the clock registers are written. The model's choices are: a complete pass keeps its unit until it has performed everything (log 67), %SLIP of a launch is the sum over its beads (log 32), budgets are in cycles (log 35), a launch that comes back to a core finds its pool kept (log 36), a queue entry is written untranslated (log 29), and TSET clears the fraction of the clock (log 58). -/
def Obligations.DispatchAndTime : Prop :=
  (∀ (s : State) (q : RodUnit), s.ev = .unit q →
    (chooseTask s q.val = none → exec .passDispatch s = .next s) ∧
    (∀ ti, chooseTask s q.val = some ti →
      (∃ p, rodOwner s (q.val / 2) (q.val % 2) = some p ∧ hasWork s p ti q.val = true ∧ ∀ e ∈ s.rk.tasks, hasWork s p e.1 q.val = true → keyLt (orderKey s e.1) (orderKey s ti) = false) ∧
      (∀ (k : Task) (pass : Nat), savedOn s ti q.val = none → k = taskOf s ti → pass = Spec.nextPass s ti q.val → ((List.range k.w).map (coreOf s q.val)).Nodup → Spec.NoLines s →
          (∀ z < 8, Spec.bindAt k z ≠ 0 → addrTrap s k.pword k.det (Spec.bindAt k z) 64 64 = none ∧ ∃ pa, lookup s k.part (Spec.bindAt k z / 4096 * 4096) false = .ok pa) →
        ∃ t, exec .passDispatch s = .next t ∧ t.mem = s.mem ∧ t.pf = s.pf ∧
          (seqOf t q.val).run = some ⟨ti, k.launch, copyFor k q.val, pass, k.w, k.skew, BitVec.ofNat 2 (levelOf s k.part), k.part⟩ ∧
          (seqOf t q.val).pc = BitVec.ofNat 64 (imgField k.img 24 4) ∧ (seqOf t q.val).target = none ∧ (seqOf t q.val).loops = [] ∧
          (taskOf t ti).st = .running ∧ (taskOf t ti).start = some (k.start.getD (BitVec.ofNat 64 (now s))) ∧
          (taskOf t ti).copies = k.copies.mapIdx (fun i x => if i = copyFor k q.val then { x with next := pass + 1 } else x) ∧
          ∀ p < k.w, Spec.BeadStart k q.val p pass (coreGet s (coreOf s q.val p)) (coreGet t (coreOf s q.val p)) ∧ (∀ z : Fin 8, Spec.streamStart k (coreGet t (coreOf s q.val p)) z) ∧
            ((∀ z < 8, Spec.bindAt k z = 0) → (coreGet t (coreOf s q.val p)).ops = [])) ∧
      (∀ (k : Task) (z : Nat), savedOn s ti q.val = none → k = taskOf s ti → k.copies.length = 1 → Spec.nextPass s ti q.val * k.w < k.total → z < 8 → Spec.bindAt k z ≠ 0 →
          (addrTrap s k.pword k.det (Spec.bindAt k z) 64 64).isSome = true → 0 < k.w → ((List.range k.w).map (coreOf s q.val)).Nodup → ti < 8192 →
        ∃ t code, exec .passDispatch s = .next t ∧ (taskOf t ti).ending = some (code, 9, false)) ∧
      (∀ key x r, savedOn s ti q.val = some (key, x) → x.seq.run = some r →
        ∃ t due, exec .passDispatch s = .next t ∧ t.mem = s.mem ∧ (seqOf t q.val).run = some r ∧ (seqOf t q.val).restoring = some (key % 8, due) ∧ (seqOf t q.val).cycles = x.seq.cycles ∧ (taskOf t ti).st = .running)) ∧
    (∀ c, Tbl.find? s.rk.asks q.val = some c → (s.cycle < c → exec .preemptRequestArrive s = .next s) ∧
      (c ≤ s.cycle → (seqOf s q.val).run.isSome = true → ∃ t, exec .preemptRequestArrive s = .next t ∧ t.mem = s.mem ∧ t.cores = s.cores ∧ Tbl.find? t.rk.asks q.val = none ∧
        seqOf t q.val = { seqOf s q.val with preempt := some s.cycle })) ∧
    (overBudget s q.val = false → exec .budgetOverrun s = .next s) ∧
    (∀ r b, (seqOf s q.val).run = some r → (seqOf s q.val).complete = false → (∀ st, (seqOf s q.val).stop = some st → st.phase = .requested ∨ (st.phase = .draining ∧ st.cause ≠ .abort ∧ st.cause ≠ .flr)) →
      b = (runTask s q.val).budget → 0 < b → 256 * b ≤ (seqOf s q.val).cycles → exec .budgetOverrun s = .next (takeTrap s q.val 0 0xFFFFFF 0x0102 0))) ∧
  (∀ (s : State) (ti : TaskId) (k : Task) (dl : Nat), s.ev = .task ti → k = taskOf s ti.val → k.deadline = some dl →
    (now s < dl → exec .deadlineExpiry s = .next s) ∧
    (dl ≤ now s → taskLive k = true → k.cls = 0 → k.ending = none → k.copies.length ≠ 2 →
      ∃ t, exec .deadlineExpiry s = .next t ∧ t.cores = s.cores ∧ (taskOf t ti.val).ending = some (0x0101, 0, false) ∧ (taskOf t ti.val).hold = none ∧
        ∀ q < 48, ∀ r, (seqOf s q).run = some r → r.task = ti.val → r.launch = k.launch → (seqOf s q).stop = none →
          ∃ st, (seqOf t q).stop = some st ∧ st.cause = .abort ∧ st.phase = .requested ∧ st.code = 0x0101) ∧
    (dl ≤ now s → taskLive k = true → k.cls = 0 → k.ending = none → k.copies.length = 2 →
      ∃ t w, exec .deadlineExpiry s = .next t ∧ t.rk.sigQ = s.rk.sigQ ++ [w] ∧ w.addr = cmdField k.cmd 24 8 ∧ leOf ((w.bytes.drop 24).take 2) = (firstTrapOr k 0x0101 0).1 % 2^16 ∧
        ∀ q < 48, ∀ r, (seqOf s q).run = some r → r.task = ti.val → r.launch = k.launch → r.copy < 2 → (seqOf s q).stop = none →
          ∃ st, (seqOf t q).stop = some st ∧ st.cause = .abort ∧ st.phase = .requested ∧ st.code = 0x0101) ∧
    (taskLive k = true → k.copies.length = 2 → k.margin = false → dl ≤ now s + pfGet s (0x20008 + 64 * k.session) 4 → exec .mirrorMarginExpiry s = .next (setTask s ti.val { k with margin := true, marginAt := s.cycle })) ∧
    (now s + pfGet s (0x20008 + 64 * k.session) 4 < dl → exec .mirrorMarginExpiry s = .next s)) ∧
  (∀ (s : State) (ti : TaskId) (k : Task), s.ev = .task ti → k = taskOf s ti.val →
    (sendCopy s k = none → exec .chunkSend s = .next s) ∧
    (∀ (pr se : CopyState) (p : Nat), taskLive k = true → k.copies.length = 2 → k.ending = none → endpointRuns s = true → p = pfGet s (0x20000 + 64 * k.session) 1 / 2 % 2 → k.copies[p]? = some pr → k.copies[1 - p]? = some se →
      (∀ a, pr.ready = some a → k.struck = false → (k.margin = false ∧ a ≤ s.cycle ∨ k.margin = true ∧ a ≤ k.marginAt) → sendCopy s k = some p) ∧
      (∀ a b, pr.ready = some a → se.ready = some b → (k.struck = true ∨ (k.margin = true ∧ k.marginAt < a)) → sendCopy s k = if b < a then some (1 - p) else some p) ∧
      (∀ a, pr.ready = some a → se.ready = none → sendCopy s k = some p) ∧
      (∀ b, pr.ready = none → se.ready = some b → (k.struck = true ∨ Spec.marginOver s k → sendCopy s k = some (1 - p)) ∧ (k.struck = false → ¬ Spec.marginOver s k → sendCopy s k = none)) ∧
      (pr.ready = none → se.ready = none → sendCopy s k = none)) ∧
    (∀ i s1 pa b, sendCopy s k = some i → readChunk s k.part k.session i = (s1, .ok pa, b) → taskOf s1 ti.val = k → k.cls = 0 →
      ∃ t l w, exec .chunkSend s = .next t ∧ .chunk k.session (pfGet s1 (0x2000C + 64 * k.session) 2) (pfGet s1 (0x2000E + 64 * k.session) 1) (BitVec.ofNat 64 (now s1)) b ∈ t.out ∧ t.rk.sigQ = l ++ [w] ∧ w.addr = cmdField k.cmd 24 8 ∧
        leOf ((w.bytes.drop 24).take 2) = if i = primaryOf s k then 0 else 0x0503) ∧
    (∀ code detail m x, k.copies = [x] → taskLive k = true → k.ending = some (code, detail, m) → taskRuns s ti.val = false → (code ≠ 0 ∨ k.cls ≠ 1) →
      ∃ t w, exec .completionSignalWrite s = .next t ∧ t.mem = s.mem ∧ t.cores = s.cores ∧ t.rk.sigQ = s.rk.sigQ ++ [w] ∧ w.wait = none ∧ w.addr = cmdField k.cmd 24 8 ∧ w.vf = k.vf ∧
        w.bytes = Spec.signalOf k (now s) code detail m x.slip ∧
        (k.period = 0 → taskOf t ti.val = Task.empty ∧ partField t k.part 4 4 = partField s k.part 4 4 - k.util) ∧
        (k.period ≠ 0 → k.retire = false → (taskOf t ti.val).st = .pending ∧ (taskOf t ti.val).relField = k.eff.getD 0 + BitVec.ofNat 64 k.period ∧ (taskOf t ti.val).ends = k.ends + 1 ∧
          (taskOf t ti.val).relTaken = false))) ∧
  (∀ (s : State) (i : Nat) (w : SigWrite), s.ev = .target i → signalReady s i = some w → w.bytes.length = 30 →
    (∀ pa, w.vf = none → w.addr % 4096 + 32 ≤ 4096 → lookup s w.part w.addr true = .ok pa → s.xl.l2change = [] → Spec.NoLines s → Spec.Unlogged s →
      ∃ t, exec .completionSignalWrite s = .next t ∧ Spec.MemoryChange s t pa 32 (leOf w.bytes) ∧ t.rk = { s.rk with sigQ := s.rk.sigQ.eraseIdx i }) ∧
    (∀ v : Vf, w.vf = some v.val → bar0Get s v.val 0x28 4 / 2^31 % 2 = 1 → cqFull s v.val = false →
      ∃ t, exec .completionSignalWrite s = .next t ∧ t.rk.sigQ = s.rk.sigQ.eraseIdx i ∧
        Spec.MemoryChange s t (Spec.cqPlace s v) 32 (leOf (w.bytes ++ leBytes (w.task % 8192 + bar0Get s v.val 0x3A 1 % 2 * 2^15) 2)) ∧
        bar0Get t v.val 0x38 2 = Spec.cqNext s v ∧ bar0Get t v.val 0x3A 1 = (if Spec.cqNext s v = 0 then 1 - bar0Get s v.val 0x3A 1 % 2 else bar0Get s v.val 0x3A 1 % 2)) ∧
    (∀ v : Vf, w.vf = some v.val → bar0Get s v.val 0x28 4 / 2^31 % 2 = 1 → cqFull s v.val = true →
      ∃ t, exec .completionSignalWrite s = .next t ∧ bar0Get t v.val 0x38 2 = bar0Get s v.val 0x38 2 ∧ Spec.qstat t v = Spec.qstat s v ||| 8)) ∧
  (∀ (s : State) (v : Word) (k : Task), s.ev = .val v → k = taskOf s (v.toNat % 8192) →
    (k.st = .free → exec .tretireWrite s = .next s) ∧
    (k.st = .pending → ∃ t, exec .tretireWrite s = .next t ∧ t.mem = s.mem ∧ taskOf t (v.toNat % 8192) = Task.empty ∧ partField t k.part 4 4 = partField s k.part 4 4 - k.util) ∧
    (taskLive k = true → exec .tretireWrite s = .next (setTask s (v.toNat % 8192) { k with retire := true })) ∧
    ((BitVec.ofNat 32 v.toNat).toInt.natAbs ≤ 0x20C49C → ∃ t, exec .tadjWrite s = .next t ∧ Spec.RegisterChange s t 0x10 4 v.toNat) ∧
    (0x20C49C < (BitVec.ofNat 32 v.toNat).toInt.natAbs → ∃ t, exec .tadjWrite s = .next t ∧ Spec.RegisterChange s t 0x20 4 (pfGet s 0x20 4 ||| 1)) ∧
    ((∀ e ∈ s.rk.tasks, e.2.st = .free) → ∃ t, exec .tsetWrite s = .next t ∧ t.mem = s.mem ∧ now t = v.toNat ∧ pfGet t 0x18 8 = v.toNat) ∧
    ((∃ e ∈ s.rk.tasks, e.2.st ≠ .free) → ∃ t, exec .tsetWrite s = .next t ∧ now t = now s ∧ Spec.RegisterChange s t 0x20 4 (pfGet s 0x20 4 ||| 1))) ∧
  (∀ (s : State) (p : Part) (v : Word) (al : Nat), s.ev = .taskRange p 48 4 v → al = (if v.toNat / 2^9 % 2 = 1 then 0 else Spec.dlctl s p.val / 2^9 % 2 * 2^9) →
    (v.toNat / 2^31 % 2 = 1 → v.toNat / 2^10 % 4 ≠ 3 →
      ∃ t, exec .dlctlWrite s = .next t ∧ t.mem = s.mem ∧ t.out = s.out ∧ Spec.dlctl t p.val = v.toNat / 2^10 % 4 + al + v.toNat / 2^10 % 4 * 2^10 + 2^31) ∧
    (v.toNat / 2^31 % 2 = 1 → v.toNat / 2^10 % 4 = 3 → Spec.dlctl s p.val % 4 ≠ 3 →
      ∃ t, exec .dlctlWrite s = .next t ∧ t.mem = s.mem ∧ ((0, 2) ∉ s.plat.msixMask → t.out = s.out ++ [.msixPf 2]) ∧ ((0, 2) ∈ s.plat.msixMask → t.out = s.out ∧ (0, 2) ∈ t.plat.msixPend) ∧ Spec.dlctl t p.val = 3 + 2^9 + 3 * 2^10 + 2^31) ∧
    (v.toNat / 2^31 % 2 = 0 → ∃ t, exec .dlctlWrite s = .next t ∧ t.mem = s.mem ∧ Spec.dlctl t p.val = Spec.dlctl s p.val % 4 + al + v.toNat / 2^10 % 4 * 2^10)) ∧
  (∀ (s : State) (q : RodUnit) (b : Fin 8) (r : PassRun) (cid : Nat), s.ev = .unitBead q b → (seqOf s q.val).run = some r → b.val < r.w → cid = coreOf s q.val b.val →
    (mayRetire (coreGet s cid) = true → (∃ i ∈ coresOf s q.val, i ≠ cid ∧ (coreGet s i).retired = false) →
      exec .kernelEndRetire s = .next (modCore s cid fun c => { landRest 64 c with retired := true, limits := none, drain := none })) ∧
    (∀ x s1, s1 = (if mayRetire (coreGet s cid) = true then modCore s cid fun c => { landRest 64 c with retired := true, limits := none, drain := none } else s) →
      passRetired s1 q.val = true → (seqOf s q.val).complete = false → (seqOf s q.val).stop = none → r.task < 8192 → (taskOf s r.task).launch = r.launch → (taskOf s r.task).copies = [x] → r.copy = 0 →
      ∃ t, exec .kernelEndRetire s = .next t ∧ (passDone s1 q.val = true → (seqOf t q.val).run = none) ∧ (passDone s1 q.val = false → (seqOf t q.val).run = some r ∧ (seqOf t q.val).complete = true) ∧
        (taskOf t r.task).copies = [{ x with done := x.done + 1, slip := x.slip + (coresOf s q.val).foldl (fun a i => a + (coreGet s1 i).slip.toNat) 0 }] ∧
        (x.done + 1 = (taskOf s r.task).passes → (taskOf s r.task).hold = none → (taskOf s r.task).ending = none → (taskOf t r.task).ending = some (0, 0, false)) ∧
        (x.done + 1 ≠ (taskOf s r.task).passes → (taskOf t r.task).ending = (taskOf s r.task).ending))) ∧
  (∀ (s : State) (v : Vf),
    (∀ x : BitVec 32, s.ev = .vfVal v x → bar0Get s v.val 0x28 4 / 2^31 % 2 = 0 → x.toNat / 2^31 = 1 → 4 ≤ x.toNat % 16 → x.toNat % 16 ≤ 12 →
      ∃ t, exec .cqcfgWrite s = .next t ∧ t.mem = s.mem ∧ t.rk = s.rk ∧ bar0Get t v.val 0x28 4 = 2^31 + x.toNat % 16 ∧ bar0Get t v.val 0x30 4 = 0 ∧ bar0Get t v.val 0x38 2 = 0 ∧ bar0Get t v.val 0x3A 1 = 1) ∧
    (∀ n pend old, s.ev = .vf v → n = bar0Get s v.val 0x41 2 → pend = Tbl.get 0 s.rk.cqPending v.val → old = (Tbl.get (0 : Word) s.rk.cqOldest v.val).toNat →
      (n ≠ 0 → pend ≠ 0 → old + 1000 * n ≤ now s → ∃ t, exec .cqCoalesceTimer s = .next t ∧ t.mem = s.mem ∧ ((v.val + 1, 0) ∉ s.plat.msixMask → t.out = s.out ++ [.msixVf v.val]) ∧ ((v.val + 1, 0) ∈ s.plat.msixMask → t.out = s.out ∧ (v.val + 1, 0) ∈ t.plat.msixPend) ∧ Tbl.get 0 t.rk.cqPending v.val = 0) ∧
      ((n = 0 ∨ pend = 0 ∨ now s < old + 1000 * n) → exec .cqCoalesceTimer s = .next s)))

/-! ## Placement and register writes -/

/-- R41, R42, R64 to R70, R144, R348: writes of the place block are taken whole or refused, a half that changes its owner finds its pool zeroed, set ranges and registers take their writable bits, a pool is enabled with its pages free, and a service ring is emptied. The model's choices are: busy follows every accepted write of a set range (log 61), a half whose write moves it zeroes the cores it has from then on (log 62), a retired core ends with a changed map (log 56), the widths that the tables leave open (log 23), and a service ring's base is stored as it stands (log 72). -/
def Obligations.PlacementWrites : Prop :=
  (∀ (s : State) (n : Fin 24) (v : Word) (new : Nat), s.ev = .rod n v → new = (v &&& 0xFFFFFF0F7F7F).toNat →
    (rownBad s n.val new = true → ∃ t, exec .rownWrite s = .next t ∧ Spec.PlaceRefused s t) ∧
    (rownBad s n.val new = false → ∃ t, exec .rownWrite s = .next t ∧ t.mem = s.mem ∧ t.seqs = s.seqs ∧ rown t n.val = new ∧ (∀ m, m ≠ n.val → m < 24 → rown t m = rown s m) ∧
      (∀ h < 2, Spec.ownerField (rown s n.val) h ≠ Spec.ownerField new h → Tbl.get 0 t.rk.notBefore (2 * n.val + h) = s.cycle + 2048 ∧ ∀ p < 4, Spec.Zeroed (coreGet t (coreOf t (2 * n.val + h) p))) ∧
      ((∀ h < 2, Spec.ownerField (rown s n.val) h = Spec.ownerField new h) → t.cores = s.cores))) ∧
  (∀ (s : State) (c : CoreId) (v : Word), s.ev = .coreVal c v →
    ((∃ i < 10, 8 < v.toNat / 2^(4 * i) % 16) → ∃ t, exec .cplaceWrite s = .next t ∧ Spec.PlaceRefused s t) ∧
    (∀ q, unitOfCore s c.val = some q → (unitRuns s q = true ∨ unitSaved s q = true) → ∃ t, exec .cplaceWrite s = .next t ∧ Spec.PlaceRefused s t) ∧
    ((∀ i < 10, v.toNat / 2^(4 * i) % 16 ≤ 8) → (∀ q, unitOfCore s c.val = some q → unitRuns s q = false ∧ unitSaved s q = false) →
      ∃ t, exec .cplaceWrite s = .next t ∧ t.mem = s.mem ∧ t.seqs = s.seqs ∧ pfGet t (0x81000 + 8 * c.val) 8 = v.toNat % 2^40 ∧ Spec.OtherCores s t c.val ∧
        coreGet t c.val = { coreGet s c.val with win := [] } ∧
        t.rk = if pfGet s (0x81000 + 8 * c.val) 8 = v.toNat % 2^40 then s.rk else { s.rk with retired := s.rk.retired.filter (· ≠ (1, c.val)) })) ∧
  (∀ (s : State) (d : Die) (k : Fin 41) (v : BitVec 32) (o : Nat), s.ev = .l2 d k v → o = 0x82000 + 0x100 * d.val + 4 * k.val →
    ((pfGet s o 4 / 2^31 = 1 ∨ 6 < v.toNat / 2^8 % 8 ∨ v.toNat % 2^6 % 2^(v.toNat / 2^8 % 8) ≠ 0) → ∃ t, exec .l2srWrite s = .next t ∧ Spec.PlaceRefused s t) ∧
    (pfGet s o 4 / 2^31 = 0 → v.toNat / 2^8 % 8 ≤ 6 → v.toNat % 2^6 % 2^(v.toNat / 2^8 % 8) = 0 →
      ∃ t due, exec .l2srWrite s = .next t ∧ t.mem = s.mem ∧ t.cores = s.cores ∧ pfGet t o 4 = pfGet s o 4 ||| 2^31 ∧
        t.xl = { s.xl with l2change := s.xl.l2change ++ [(d.val, k.val, v.toNat / 2^8 % 8 * 2^8 + v.toNat % 2^6, due)] }) ∧
    (∀ x due, s.xl.l2change.find? (fun e => e.1 == d.val && e.2.1 == k.val && decide (e.2.2.2 ≤ s.cycle)) = some (d.val, k.val, x, due) →
      (s.xl.devWrites = [] → ∃ t, exec .l2srChangeDone s = .next t ∧ t.mem = s.mem ∧ pfGet t o 4 = x % 2^32 ∧ (d.val, k.val, x, due) ∉ t.xl.l2change) ∧
      ∀ (a : Nat) (bs : List Byte) (alarm : Bool), s.xl.devWrites = [(a, bs, alarm)] → Spec.Unlogged s → a / 2^60 % 16 < 2 →
        (∀ e ∈ s.xl.l2change, e ≠ (d.val, k.val, x, due) → e.1 ≠ a / 2^60 % 16 ∨ e.2.1 ≠ 40) →
        ∃ t, exec .l2srChangeDone s = .next t ∧ Spec.MemoryChange s t a bs.length (leOf bs) ∧ t.xl.devWrites = [] ∧ pfGet t o 4 = x % 2^32 ∧ (d.val, k.val, x, due) ∉ t.xl.l2change)) ∧
  (∀ (s : State) (d : Die) (v : Word), s.ev = .dieVal d v →
    (isPerm8 (v.toNat % 2^24) = true → d.val ∉ s.xl.left → ∃ t, exec .cgplaceWrite s = .next t ∧ Spec.RegisterChange s t (0x82200 + 8 * d.val) 8 (v.toNat % 2^24)) ∧
    ((isPerm8 (v.toNat % 2^24) = false ∨ d.val ∈ s.xl.left) → ∃ t, exec .cgplaceWrite s = .next t ∧ Spec.PlaceRefused s t)) ∧
  (∀ (s : State) (p : Part) (v : Word) (base count : Nat), s.ev = .taskRange p 40 4 v → base = v.toNat % 2^16 → count = v.toNat / 2^16 % 2^16 →
    (rangeBad s p.val base count = false → ∃ t, exec .taskRangeWrite s = .next t ∧ t.mem = s.mem ∧ t.rk = s.rk ∧ partField t p.val 40 2 = base ∧ partField t p.val 42 2 = count) ∧
    (rangeBad s p.val base count = true → (base ≠ partField s p.val 40 2 ∨ count ≠ partField s p.val 42 2) → ∃ t, exec .taskRangeWrite s = .next t ∧ Spec.PlaceRefused s t)) ∧
  (∀ (s : State) (sp : RegSpace) (off size : Nat) (v : Word), s.ev = .reg sp off size v → (sp = .pf ∨ ∃ c, sp = .cpPf c) →
    (∀ ws rw w1c, Spec.quietRegister off → pfRule off = some (ws, rw, w1c) →
      (size ∉ ws → 0xC4000 ≤ off → exec .registerWrite s = .next s) ∧
      (size ∉ ws → off < 0xC0000 → ∃ t, exec .registerWrite s = .next t ∧ Spec.PlaceRefused s t) ∧
      (size ∈ ws → ∃ t, exec .registerWrite s = .next t ∧ Spec.RegisterChange s t off size (Spec.stored (BitVec.ofNat 64 (pfGet s off size)) (BitVec.ofNat 64 rw) (BitVec.ofNat 64 w1c) v).toNat)) ∧
    (∀ (d : Die) (c : Fin 4) (w : Fin 16) (limit : Nat), off = Spec.winAt d c w + 8 → size = 8 → limit = (if Spec.winCtl s d c w % 16 = 4 ∨ Spec.winCtl s d c w % 16 = 5 then 196608 else 65536) →
      ((Spec.winCtl s d c w / 2^30 % 4 ≠ 0 ∨ v.toNat % limit ≠ 0) → ∃ t, exec .registerWrite s = .next t ∧ Spec.RegisterChange s t 0xC4000 4 (pfGet s 0xC4000 4 ||| 1)) ∧
      (Spec.winCtl s d c w / 2^30 % 4 = 0 → v.toNat % limit = 0 → ∃ t, exec .registerWrite s = .next t ∧ Spec.RegisterChange s t off 8 v.toNat)) ∧
    (recordMask off = none → pfRule off = none → (off < 0x80000 ∨ 0xC0000 ≤ off) → exec .registerWrite s = .next s) ∧
    (recordMask off = none → pfRule off = none → 0x80000 ≤ off → off < 0xC0000 → ∃ t, exec .registerWrite s = .next t ∧ Spec.PlaceRefused s t) ∧
    (0x82400 ≤ off → off < 0x82460 → (size ≠ 1 ∧ size ≠ 2 ∧ size ≠ 4 ∧ size ≠ 8 ∨ off % size ≠ 0) → ∃ t, exec .registerWrite s = .next t ∧ Spec.PlaceRefused s t) ∧
    (0x60000 ≤ off → off < 0x80000 → (size = 1 ∨ size = 2 ∨ size = 4 ∨ size = 8) → off % size = 0 →
      ∃ t, exec .registerWrite s = .next t ∧ { t with pf := s.pf } = s ∧ (∀ a, a < off ∨ off + size ≤ a → pfByte t a = pfByte s a) ∧
        ∀ i < size, ∀ m, recordMask (off + i) = some m → pfByte t (off + i) = (pfByte s (off + i) &&& ~~~(BitVec.ofNat 8 m)) ||| (BitVec.ofNat 8 (v.toNat / 256^i) &&& BitVec.ofNat 8 m))) ∧
  (∀ (s : State) (off size : Nat) (v : Word),
    (∀ x : Vf, s.ev = .reg (.ring x) off size v → off + size ≤ 2^18 → size ≤ 8 → ∃ t, exec .registerWrite s = .next t ∧ bar2Get t x.val off size = v.toNat % 256^size ∧ t.mem = s.mem ∧ t.pf = s.pf) ∧
    (∀ c : Fin 4, s.ev = .reg (.cpRing c) off size v → off + size ≤ 4096 → size ≤ 8 → ∃ t, exec .registerWrite s = .next t ∧ cpRingGet t c.val off size = v.toNat % 256^size ∧ t.mem = s.mem ∧ t.pf = s.pf) ∧
    (∀ x : Vf, s.ev = .reg (.vf x) 0x18 4 v → ∃ t, exec .registerWrite s = .next t ∧ Spec.qstat t x = (BitVec.ofNat 32 (Spec.qstat s x) &&& ~~~(BitVec.ofNat 32 (v.toNat % 32))).toNat ∧ t.mem = s.mem ∧ t.pf = s.pf)) ∧
  (∀ (s : State) (p : Part) (v : Word), s.ev = .part p v →
    (kvEnabled s p.val = true → v.toNat / 2^63 = 1 → exec .kvpctlWrite s = .next s) ∧
    (kvEnabled s p.val = true → v.toNat / 2^63 = 0 → ∃ t, exec .kvpctlWrite s = .next t ∧ Spec.RegisterChange s t (0xF5008 + 32 * p.val) 8 (pfGet s (0xF5008 + 32 * p.val) 8 % 2^63)) ∧
    (kvEnabled s p.val = false → v.toNat / 2^63 = 1 → (v.toNat % 2^20 = 0 ∨ pfGet s (0xF5000 + 32 * p.val) 8 % 2^16 ≠ 0 ∨ 1 < pfGet s (0xF5000 + 32 * p.val) 8 / 2^60 % 16) → exec .kvpctlWrite s = .next s) ∧
    (kvEnabled s p.val = false → v.toNat / 2^63 = 1 → v.toNat % 2^20 ≠ 0 → pfGet s (0xF5000 + 32 * p.val) 8 % 2^16 = 0 → pfGet s (0xF5000 + 32 * p.val) 8 / 2^60 % 16 ≤ 1 → Spec.Unlogged s →
      ∃ t, exec .kvpctlWrite s = .next t ∧ t.cores = s.cores ∧ kvEnabled t p.val = true ∧ kvCount t p.val = v.toNat % 2^20 ∧ kvFree t p.val = v.toNat % 2^20 ∧
        (∀ i < 2^20, kvIsFree t p.val i = decide (i < v.toNat % 2^20)) ∧ ∀ a, a < kvMap s p.val ∨ kvMap s p.val + 2^17 ≤ a → memByte t a = memByte s a) ∧
    (∃ t, exec .svcbaseWrite s = .next t ∧ t.mem = s.mem ∧ t.rk = s.rk ∧ Spec.svcBase t p.val = v.toNat ∧ Spec.svcHead t p.val = 0 ∧ Spec.svcTail t p.val = 0 ∧ Spec.svcLost t p.val = Spec.svcLost s p.val))

/-! ## Stops, saves, errors and migration -/

/-- R316 to R324, R326 to R333: a stop drains, then saves its pass unit by unit, is kept in place or frees its unit; a save that ends is valid and a restore brings it back; held tasks resume or abort; a function-level reset ends a VF's tasks; errors are recorded and retire units; a lost die runs nothing; and the migration operations run or are refused. The model's choices are: what the migration record carries beyond R333's fields (log 40), the order of the save units (log 48), PENDING tasks at a reset (log 33), the corners of a drain (log 31), and how the areas of a slot are packed (log 11). -/
def Obligations.StopsSavesAndMigration : Prop :=
  (∀ (s : State) (q : RodUnit) (r : PassRun) (st : StopState), s.ev = .unit q → Spec.Stopping s q.val r st →
    (st.phase = .requested → exec .stopDrainComplete s = .next s) ∧
    (st.phase = .draining → (savesPass st.cause = true → Spec.Whole s q.val) → (coresOf s q.val).Nodup → (∃ i ∈ coresOf s q.val, ((coreGet s i).ops.map (·.id)).Nodup ∧ ∃ o ∈ (coreGet s i).ops, opClass o.kind = 0 ∧ o.suspended = false ∧ ∀ d x k e, o.kind ≠ .landAt d x k e) →
      ∃ t, exec .stopDrainComplete s = .next t ∧ t.mem = s.mem ∧ t.seqs = s.seqs ∧ ∀ i ∈ coresOf s q.val, coreGet t i = drainCore (savesPass st.cause) (coreGet s i)) ∧
    (st.phase = .draining → Spec.idleCores s q.val → (∀ i ∈ coresOf s q.val, (coreGet s i).inflight = []) → s.xl.l2change = [] → savesPass st.cause = false → ∃ t, exec .stopDrainComplete s = .next t ∧ (seqOf t q.val).run = none ∧ (seqOf t q.val).stop = none) ∧
    (∀ j, st.phase = .draining → Spec.idleCores s q.val → Spec.Whole s q.val → savesPass st.cause = true → s.xl.l2change = [] → slotFree s r.part q.val = some j →
      ∃ t due, exec .stopDrainComplete s = .next t ∧ (seqOf t q.val).run = some r ∧ (seqOf t q.val).stop = some { st with phase := .saving, slot := some j, due := due }) ∧
    (st.phase = .draining → Spec.idleCores s q.val → Spec.Whole s q.val → savesPass st.cause = true → s.xl.l2change = [] → slotFree s r.part q.val = none →
      ∃ t, exec .stopDrainComplete s = .next t ∧ (seqOf t q.val).run = some r ∧ (seqOf t q.val).stop = some { st with phase := .kept } ∧ (seqOf t q.val).pc = (seqOf s q.val).pc) ∧
    (∀ (b cid code detail : Nat), st.phase = .draining → savesPass st.cause = true → (seqOf s q.val).restoring = none → (coresOf s q.val).Nodup → (coresOf s q.val)[b]? = some cid → (coreGet s cid).failure = some (code, detail) →
      (∀ (b' c' : Nat), b' < b → (coresOf s q.val)[b']? = some c' → (coreGet s c').failure = none) → isHold code = false → Spec.LaunchStands s r → (taskOf s r.task).hold = none → (taskOf s r.task).copies.length ≠ 2 →
      ∃ t st', exec .stopDrainComplete s = .next t ∧ (taskOf t r.task).ending = some (code, detail, false) ∧ (seqOf t q.val).run = some r ∧ (seqOf t q.val).stop = some st' ∧ st'.cause = .abort ∧ st'.code = code) ∧
    (∀ j due, st.phase = .draining → savesPass st.cause = true → st.kind ≠ 1 → (seqOf s q.val).restoring = some (j, due) →
      ∃ t, exec .stopDrainComplete s = .next t ∧ t.mem = s.mem ∧ (seqOf t q.val).run = none ∧ ∀ x, Tbl.find? s.rk.saved (8 * q.val + j) = some x → ∃ y, Tbl.find? t.rk.saved (8 * q.val + j) = some y ∧ y.cores = x.cores) ∧
    (saveDue s q.val = false → exec .saveComplete s = .next s) ∧
    (∀ j a, saveDue s q.val = true → s.xl.l2change = [] → st.slot = some j → a = slotAddr s r.part q.val j →
      (rangesOwned s a [(0, 4096)] = false → exec .saveComplete s = .next (failSave s q.val 3)) ∧
      (rangesOwned s a [(0, 4096)] = true → ¬ Spec.LaunchStands s r →
        ∃ t, exec .saveComplete s = .next t ∧ (seqOf t q.val).run = none ∧ t.rk.saved = s.rk.saved ∧ memVal t a 4 = 0) ∧
      (rangesOwned s a [(0, 4096)] = true → Spec.LaunchStands s r →
        ∃ t x, exec .saveComplete s = .next t ∧ (seqOf t q.val).run = none ∧ Tbl.find? t.rk.saved (8 * q.val + j) = some x ∧ memVal t a 4 = 2 ∧
          x.cores = (coresOf s q.val).map (coreGet s) ∧ x.kind = st.kind ∧ x.part = r.part ∧ x.seq.run = some r ∧ x.seq.pc = (seqOf s q.val).pc ∧ x.seq.loops = (seqOf s q.val).loops ∧
          x.seq.target = (seqOf s q.val).target ∧ x.seq.gang = (seqOf s q.val).gang)) ∧
    (∀ (j a p off : Nat) (x : Core), st.phase = .saving → savesPass st.cause = true → s.xl.l2change = [] → st.slot = some j → a = slotAddr s r.part q.val j → unitEnds s q.val st = true → (unitsDone s q.val st).getLast? = some off →
      (rangesOwned s a [(0, 4096), (off, 4096)] = false → saveStep s q.val = failSave s q.val 3) ∧
      (rangesOwned s a [(0, 4096), (off, 4096)] = true → off = 0x1000 + p * 0x640000 → (coresOf s q.val)[p]? = some (coreOf s q.val p) → x = coreGet s (coreOf s q.val p) →
        (∀ i < 32, memVal (saveStep s q.val) (a + off + 8 * i) 8 = (x.getN i).v.toNat) ∧ (saveStep s q.val).cores = s.cores ∧ (saveStep s q.val).seqs = s.seqs ∧
        ∀ b, b < a + off ∨ a + off + 4096 ≤ b → memByte (saveStep s q.val) b = memByte s b)) ∧
    (∀ j, st.phase = .saving → st.slot = some j → slotHeld s r.part q.val j = true →
      saveStep s q.val = modSeq s q.val (fun u => { u with stop := some { st with due := st.due + 1 } }) ∧ exec .saveComplete s = .next s) ∧
    exec .saveDrainTimeout s = .next (if saveLate s q.val = true then failSave s q.val 1 else s)) ∧
  (∀ (s : State) (q : RodUnit) (r : PassRun) (j due : Nat), s.ev = .unit q → (seqOf s q.val).run = some r → (seqOf s q.val).restoring = some (j, due) → (seqOf s q.val).stop = none → (seqOf s q.val).copying = none →
    (s.cycle < due → exec .restoreComplete s = .next s) ∧
    (slotHeld s r.part q.val j = true → exec .restoreComplete s = .next s) ∧
    (∀ x, due ≤ s.cycle → s.xl.l2change = [] → Tbl.find? s.rk.saved (8 * q.val + j) = some x → memVal s (slotAddr s r.part q.val j) 4 = 2 → memVal s (slotAddr s r.part q.val j + 4) 2 = r.task →
      ((List.range x.cores.length).map (coreOf s q.val)).Nodup →
      ∃ t, exec .restoreComplete s = .next t ∧ (seqOf t q.val).run = some r ∧ (seqOf t q.val).pc = x.seq.pc ∧ (seqOf t q.val).loops = x.seq.loops ∧ (seqOf t q.val).target = x.seq.target ∧
        (seqOf t q.val).gang = x.seq.gang ∧ (seqOf t q.val).cycles = (seqOf s q.val).cycles ∧ Tbl.find? t.rk.saved (8 * q.val + j) = none ∧
        ∀ p c, x.cores[p]? = some c → (∀ i < 32, 0 < i → (coreGet t (coreOf s q.val p)).getN i = ⟨BitVec.ofNat 64 (memVal s (slotAddr s r.part q.val j + 0x1000 + p * 0x640000 + 8 * i) 8), (c.getN i).t⟩) ∧ (coreGet t (coreOf s q.val p)).p = c.p ∧ (coreGet t (coreOf s q.val p)).m = c.m ∧
          (coreGet t (coreOf s q.val p)).ctrs = c.ctrs ∧ (coreGet t (coreOf s q.val p)).inflight = c.inflight)) ∧
  (∀ (s : State) (ti : TaskId) (h : Nat × Nat × Nat × Nat), s.ev = .task ti →
    (isHeld s ti.val = false → exec .tractResume s = .next s ∧ exec .tractAbort s = .next s) ∧
    (isHeld s ti.val = true → ∃ t, exec .tractResume s = .next t ∧ t.mem = s.mem ∧ (taskOf t ti.val).hold = none) ∧
    (isHeld s ti.val = true → (taskOf s ti.val).hold = some h → (taskOf s ti.val).copies.length ≠ 2 →
      ∃ t, exec .tractAbort s = .next t ∧ t.cores = s.cores ∧ (taskOf t ti.val).ending = some (h.1, h.2.1, false) ∧ (taskOf t ti.val).hold = none)) ∧
  (∀ (s : State) (v : Vf), s.ev = .vf v →
    (∃ t, exec .functionLevelReset s = .next t ∧ bar0Get t v.val 0 4 = bar0Get s v.val 0 4 % 16 ∧ bar0Get t v.val 8 4 = 0 ∧ bar0Get t v.val 0x10 4 = 0 ∧ Spec.qstat t v = 0 ∧
      v.val ∈ t.plat.flr ∧ v.val ∉ t.plat.vfReady ∧
      ∀ ti < 8192, (taskOf s ti).vf = some v.val → taskLive (taskOf s ti) = true → (taskOf t ti).ending = some (0x0601, v.val, false) ∧ (taskOf t ti).retire = true) ∧
    (flrQuiet s v.val = false → exec .functionLevelResetEnd s = .next s) ∧
    ((∃ e ∈ s.xl.l2change, e.1 < 2 ∧ e.2.1 = 40) → exec .functionLevelResetEnd s = .next s) ∧
    (flrQuiet s v.val = true → s.xl.l2change = [] → ∃ t, exec .functionLevelResetEnd s = .next t ∧ t.cores = s.cores ∧ v.val ∉ t.plat.flr ∧ v.val ∈ t.plat.vfReady ∧ ∀ e ∈ t.rk.saved, e.2.vf ≠ some v.val)) ∧
  (∀ (s : State) (e : ErrorInfo) (base head : Nat), s.ev = .error e → base = pfGet s 0xF2000 8 → head = pfGet s 0xF2008 1 →
    (e.lasting = false → base = 0 → (0, 4) ∉ s.plat.msixMask → exec .errorDetected s = .next { s with out := s.out ++ [.msixPf 4] }) ∧
    (e.lasting = false → base = 0 → (0, 4) ∈ s.plat.msixMask → ∃ t, exec .errorDetected s = .next t ∧ t.out = s.out ∧ t.mem = s.mem ∧ t.rk = s.rk ∧ (0, 4) ∈ t.plat.msixPend) ∧
    (e.lasting = false → (0, 4) ∉ s.plat.msixMask → base ≠ 0 → (head + 1) % 256 = pfGet s 0xF2010 1 → ∃ t, exec .errorDetected s = .next t ∧ t.mem = s.mem ∧ t.out = s.out ++ [.msixPf 4] ∧ pfGet t 0xF2018 4 % 2 = 1 ∧ pfGet t 0xF2008 1 = head) ∧
    (e.lasting = false → (0, 4) ∉ s.plat.msixMask → base ≠ 0 → (head + 1) % 256 ≠ pfGet s 0xF2010 1 → s.xl.l2change = [] → Spec.Unlogged s →
      ∃ t, exec .errorDetected s = .next t ∧ t.out = s.out ++ [.msixPf 4] ∧ pfGet t 0xF2008 1 = (head + 1) % 256 ∧
        Spec.MemoryChange s t (base + 32 * head) 32 (leOf (errorBytes e.kind.val e.die.val 0 e.unit.toNat (now s) ((blastSet s e).foldl (fun a p => a + 2^p) 0) e.addr.toNat))) ∧
    (e.lasting = false → base ≠ 0 → (head + 1) % 256 ≠ pfGet s 0xF2010 1 → (base + 32 * head) / 2^60 % 16 < 2 → l2Changing s ((base + 32 * head) / 2^60 % 16) 40 = true →
      ∃ t bs, exec .errorDetected s = .next t ∧ t.mem = s.mem ∧ t.out = s.out ∧ t.xl.devWrites = s.xl.devWrites ++ [(base + 32 * head, bs, true)] ∧
        bs = errorBytes e.kind.val e.die.val 0 e.unit.toNat (now s) ((blastSet s e).foldl (fun a p => a + 2^p) 0) e.addr.toNat) ∧
    (e.lasting = true → (e.kind = 4 ∨ e.kind = 11) → ∃ t, exec .errorDetected s = .next t ∧ Spec.frameAt t e.die.val (e.addr.toNat % 2^60 / 2^16) = .owned 63 ∧
      (4, e.die.val * 2^24 + e.addr.toNat % 2^60 / 2^16) ∈ t.rk.retired)) ∧
  (∀ (s : State) (d : Die), s.ev = .die d →
    (d.val ∈ s.rk.lost → exec .dieLost s = .next s) ∧
    (d.val ∉ s.rk.lost → ∃ t, exec .dieLost s = .next t ∧ d.val ∈ t.rk.lost ∧ (∀ q < 48, q / 24 = d.val → (seqOf t q).run = none) ∧ ∀ q < 48, q / 24 ≠ d.val → (seqOf t q).run = (seqOf s q).run)) ∧
  (∀ (s : State) (v : Vf) (x : Word), s.ev = .reg .pf (Spec.migAt v) 4 x →
    ∃ t, exec .registerWrite s = .next t ∧ t.mem = s.mem ∧ t.rk = s.rk ∧ pfGet t (Spec.migAt v + 8) 4 % 2 = 1 ∧ pfGet t (Spec.migAt v) 4 / 2^8 % 2 = x.toNat / 2^8 % 2 ∧ pfGet t (Spec.migAt v) 4 / 2^31 % 2 = pfGet s (Spec.migAt v) 4 / 2^31 % 2) ∧
  (∀ (s u : State) (v : Vf) (x : BitVec 32) (p : Nat), s.ev = .vfVal v x → u = Spec.migWritten s v x →
    (v.val ∉ s.plat.flr → (pfGet s (Spec.migAt v) 4 / 2^31 % 2 = 1 ∨ migPart s v.val = none) → ∃ t, Spec.MigRefused u t v ∧ ∀ i ∈ Spec.migSteps, exec i s = .next t) ∧
    (Spec.MayMigrate s v p →
      (∃ t, exec .migrationRound s = .next t ∧ t.mem = s.mem ∧ pfGet t (Spec.migAt v) 4 / 2^7 % 2 = 1 - pfGet s (Spec.migAt v) 4 / 2^7 % 2 ∧ pfGet t (Spec.migAt v) 4 / 2^8 % 2 = x.toNat / 2^8 % 2) ∧
      (slotsServe u p = false → ∃ t, exec .migrationStop s = .next t ∧ Spec.MigRefused u t v) ∧
      (slotsServe u p = true → ∃ t, exec .migrationStop s = .next t ∧ t.mem = s.mem ∧ t.cores = s.cores ∧ (partDyn t p).stopped = true ∧ v.val ∈ t.rk.migStop ∧ pfGet t (Spec.migAt v) 4 / 2^31 % 2 = 1 ∧
        ∀ q < 48, ∀ r, (seqOf s q).run = some r → r.part = p → (seqOf s q).stop = none → (seqOf s q).complete = false → ∃ st, (seqOf t q).stop = some st ∧ st.cause = .migration ∧ st.phase = .requested ∧ st.kind = 2) ∧
      (∀ a b, a = pfGet u (Spec.migAt v + 0x30) 8 → b = recordBytes u v.val p →
        ((stopDone u v.val p = false ∨ rangesOwned u a [(0, b.length)] = false) → ∃ t, exec .migrationExport s = .next t ∧ Spec.MigRefused u t v) ∧
        (stopDone u v.val p = true → rangesOwned u a [(0, b.length)] = true → s.xl.l2change = [] → Spec.NoLines u → Spec.Unlogged u →
          ∃ t, exec .migrationExport s = .next t ∧ t.cores = s.cores ∧ Spec.MemoryChange u t a b.length (leOf b) ∧ memVal t a 4 = 0x4752494D ∧ memVal t (a + 4) 2 = 1)) ∧
      (∀ a, a = pfGet u (Spec.migAt v + 0x30) 8 → s.xl.l2change = [] →
        ((inHyp u a = false ∨ memVal u a 4 ≠ 0x4752494D ∨ memVal u (a + 24) 8 ≠ halvesOf u p) → ∃ t, exec .migrationImport s = .next t ∧ Spec.MigRefused u t v) ∧
        (inHyp u a = true → memVal u a 4 = 0x4752494D → memVal u (a + 4) 2 = 1 → memVal u (a + 6) 1 = p → memVal u (a + 7) 1 = v.val → memVal u (a + 24) 8 = halvesOf u p → partTasks u p = [] →
          memVal u (a + 16) 4 = 0 → memVal u (a + 20) 4 = 0 →
          ∃ t, exec .migrationImport s = .next t ∧ t.mem = s.mem ∧ t.cores = s.cores ∧ (partDyn t p).stopped = true ∧ bar0Get t v.val 0 4 = memVal u (a + 0x40) 4 ∧ bar0Get t v.val 0x10 4 = memVal u (a + 0x44) 4 ∧
            bar0Get t v.val 8 4 = memVal u (a + 0x48) 4 ∧ ∀ i < 64, partField t p i 1 = memVal u (a + 0x80 + i) 1)) ∧
      (stopDone u v.val p = true → ∃ t, exec .migrationResume s = .next t ∧ t.mem = s.mem ∧ (partDyn t p).stopped = false) ∧
      (stopDone u v.val p = false → ∃ t, exec .migrationResume s = .next t ∧ Spec.MigRefused u t v)))

/-! ## The platform -/

/-- R358 to R368: power-good, the start of the units, configuration requests, VFs, security versions, attestation, the watchdog, temperatures, trips and thresholds; a fuse advances and a trip ends only by a write of the PF. The bytes of the SPDM responses are presumed (log 10); the model's choices are the checks of an image (log 9), the watchdog counted in cycles and TRIPCLR's bits (log 34), and when a VF is ready (log 33). -/
def Obligations.PlatformEvents : Prop :=
  (∀ s : State, (s.plat.power = true → exec .powerGood s = .next s) ∧
    (s.plat.power = false → ∃ t, exec .powerGood s = .next t ∧ t.plat.power = true ∧ t.mem = s.mem ∧ t.pf = s.pf ∧ t.rk = s.rk ∧ t.plat.started = s.plat.started)) ∧
  (∀ (s : State) (i : Fin 26), s.ev = .startUnit i →
    (unitDue s ≠ some i.val → exec .unitReady s = .next s) ∧
    (unitDue s = some i.val → (i.val = 0 → ∀ k ∈ [1, 2, 3], (acceptedSlot s k).isSome = true) →
      ∃ t, exec .unitReady s = .next t ∧ t.mem = s.mem ∧ t.rk = s.rk ∧ pfGet t 0xF8000 8 = pfGet s 0xF8000 8 ||| 2^i.val ∧ t.plat.started = i.val + 1 ∧ t.plat.recovery = false ∧
        (i.val = 3 → t.devTime = 0) ∧ (i.val ≠ 3 → t.devTime = s.devTime) ∧ (i.val = 4 → t.plat.pfReady = true) ∧ (i.val ≠ 4 → t.plat.pfReady = s.plat.pfReady)) ∧
    (unitDue s = some 0 → i.val = 0 → (∃ k ∈ [1, 2, 3], acceptedSlot s k = none) →
      ∃ t, exec .unitReady s = .next t ∧ t.mem = s.mem ∧ t.plat.recovery = true ∧ t.plat.pfReady = true ∧ pfGet t 0xF8000 8 = pfGet s 0xF8000 8 ∧ unitDue t = none)) ∧
  (∀ (s : State) (f : Fin 97), s.ev = .function f →
    exec .configRequest s = .next { s with out := s.out ++ [if s.plat.pfReady = true then .configDone f.val else .configRetry f.val] }) ∧
  (∀ (s : State) (v : Vf), s.ev = .vf v →
    (Tbl.find? s.plat.vfEnabled v.val = none → Spec.Answers s →
      ∃ t due, exec .vfEnable s = .next t ∧ t.mem = s.mem ∧ Tbl.find? t.plat.vfEnabled v.val = some due ∧ due ≤ s.cycle + 15000 ∧ ∀ off < 2^18, bar2Get t v.val off 1 = 0) ∧
    (∀ due, Tbl.find? s.plat.vfEnabled v.val = some due → due ≤ s.cycle → v.val ∉ s.plat.flr → v.val ∉ s.plat.vfReady →
      exec .vfEnable s = .next { s with plat := { s.plat with vfReady := v.val :: s.plat.vfReady } }) ∧
    (∀ due, Tbl.find? s.plat.vfEnabled v.val = some due → s.cycle < due → exec .vfEnable s = .next s)) ∧
  (∀ (s : State) (v : Word), s.ev = .val v →
    (∃ t, exec .svncommitWrite s = .next t ∧ t.mem = s.mem ∧ t.rk = s.rk ∧
      (∀ k, 1 ≤ k → k ≤ 3 → Tbl.get 0 t.plat.minSvn k = (match Tbl.find? s.plat.image k with
        | some (0, svn) => if v.toNat / 2^(k - 1) % 2 = 1 then max svn (Tbl.get 0 s.plat.minSvn k) else Tbl.get 0 s.plat.minSvn k
        | _ => Tbl.get 0 s.plat.minSvn k)) ∧
      ((∃ k, 1 ≤ k ∧ k ≤ 3 ∧ v.toNat / 2^(k - 1) % 2 = 1 ∧ ∀ svn, Tbl.find? s.plat.image k ≠ some (0, svn)) → pfGet t 0xF8010 8 / 2^8 % 2 = 1)) ∧
    (∃ t, exec .tripclrWrite s = .next t ∧ t.mem = s.mem ∧ t.pf = s.pf ∧
      (∀ e ∈ t.plat.tripped, ∃ x ∈ s.plat.tripped, x.1 = e.1 ∧ x.2 % 64 = e.2 % 64) ∧
      (∀ e ∈ t.plat.tripped, v.toNat / 2^e.1 % 2 = 1 → monWell s (e.2 % 64) = false) ∧
      ∀ e ∈ s.plat.tripped, v.toNat / 2^e.1 % 2 = 0 → e.2 < 64 → e ∈ t.plat.tripped)) ∧
  (∀ (s : State) (c : Fin 4) (off size : Nat) (v : Word), (decodePfWrite off size v).instr = .svncommitWrite ∨ (decodePfWrite off size v).instr = .tripclrWrite →
    takeInput s (.write (.cpPf c) off size v) = s) ∧
  (∀ (s : State) (e : Event), e.instr = .svncommitWrite ∨ e.instr = .tripclrWrite → s.plat.pfReady = false ∨ s.plat.recovery = true → takeInput s (.event e) = s) ∧
  (∀ (s : State) (req : List Byte), s.ev = .spdm req →
    (∀ i b, Spec.response s req i = some b → (¬ Spec.Answers s → exec i s = .next s) ∧ (Spec.Answers s → exec i s = .next (Spec.replies s b))) ∧
    (measured s 1 = sha384 (Config.romBytes ()) ∧ (∀ k, 1 ≤ k → k ≤ 3 → ∀ slot svn, Tbl.find? s.plat.image k = some (slot, svn) → measured s (k + 1) = sha384 (signedContent (flashOf s k slot))) ∧
      measured s 6 = [s.plat.debug] ∧ (∀ k, k < 3 → (measured s 5)[k]? = some (BitVec.ofNat 8 (Tbl.get 0 s.plat.minSvn (k + 1)))) ∧ (measured s 5)[3]? = some (BitVec.ofNat 8 (pfGet s 0xF8010 8 / 2^9 % 8))) ∧
    (∀ i, i = .keyExchange ∨ i = .pskExchange → (¬ Spec.Answers s → exec i s = .next s) ∧ (Spec.Answers s → exec i s = .next (Spec.replies s [0x13, 0x7F, 0x07, req.getD 1 0])))) ∧
  (∀ (s : State) (c : Fin 4), s.ev = .cp c →
    (∃ t, exec .cpHeartbeat s = .next t ∧ t.mem = s.mem ∧ t.pf = s.pf ∧ Tbl.find? t.plat.heartbeat c.val = some s.cycle ∧ c.val ∉ t.plat.cpReset) ∧
    (∀ b, Tbl.find? s.plat.heartbeat c.val = some b →
      (s.cycle < b + 150000000 → exec .watchdogExpiry s = .next s) ∧
      (b + 150000000 ≤ s.cycle → ∃ t, exec .watchdogExpiry s = .next t ∧ t.mem = s.mem ∧ ((0, 6) ∉ s.plat.msixMask → t.out = s.out ++ [.msixPf 6]) ∧ ((0, 6) ∈ s.plat.msixMask → t.out = s.out ∧ (0, 6) ∈ t.plat.msixPend) ∧ c.val ∈ t.plat.cpReset ∧ Tbl.find? t.plat.heartbeat c.val = some s.cycle ∧
        pfGet t 0xF8010 1 = min 255 (pfGet s 0xF8010 1 + 1)))) ∧
  (∀ (s : State) (i : Fin 64), s.ev = .monitor i →
    (i.val < 16 → Spec.warnAt s ≤ Spec.tempOf s i.val → i.val ∉ s.plat.crossed → (0, 5) ∉ s.plat.msixMask →
      exec .temperatureWarn s = .next { s with plat := { s.plat with crossed := i.val :: s.plat.crossed }, out := s.out ++ [.msixPf 5] }) ∧
    (i.val < 16 → Spec.warnAt s ≤ Spec.tempOf s i.val → i.val ∉ s.plat.crossed → (0, 5) ∈ s.plat.msixMask →
      ∃ t, exec .temperatureWarn s = .next t ∧ t.out = s.out ∧ t.plat.crossed = i.val :: s.plat.crossed ∧ (0, 5) ∈ t.plat.msixPend) ∧
    ((16 ≤ i.val ∨ Spec.tempOf s i.val < Spec.warnAt s ∨ i.val ∈ s.plat.crossed) → exec .temperatureWarn s = .next s) ∧
    (i.val < 16 → Spec.tempOf s i.val < Spec.critAt s → exec .dieTrip s = .next s) ∧
    (i.val < 16 → Spec.critAt s ≤ Spec.tempOf s i.val → tripStands s (Config.monitorDie i).val i.val = false →
      ∃ t, exec .dieTrip s = .next t ∧ t.cores = s.cores ∧ ((Config.monitorDie i).val, i.val) ∈ t.plat.tripped ∧
        ∀ q < 48, ∀ r, q / 24 = (Config.monitorDie i).val → Spec.MayTrap s q r → ∃ st, (seqOf t q).stop = some st ∧ st.code = 0x0504 ∧ st.detail = i.val ∧ st.cause = .abort)) ∧
  (∀ (s : State) (crit : Bool) (v : BitVec 32), s.ev = .threshold crit v →
    (crit = true → Spec.warnAt s < (BitVec.ofNat 16 v.toNat).toInt → ∃ t, exec .tempThresholdWrite s = .next t ∧ Spec.ThresholdTaken s t 0xF8308 v.toNat) ∧
    (crit = true → (BitVec.ofNat 16 v.toNat).toInt ≤ Spec.warnAt s → exec .tempThresholdWrite s = .next s) ∧
    (crit = false → (BitVec.ofNat 16 v.toNat).toInt < Spec.critAt s → ∃ t, exec .tempThresholdWrite s = .next t ∧ Spec.ThresholdTaken s t 0xF8300 v.toNat) ∧
    (crit = false → Spec.critAt s ≤ (BitVec.ofNat 16 v.toNat).toInt → exec .tempThresholdWrite s = .next s))

/-! ## Reset and words written out by hand -/

/-- What reset leaves. The values of R28, R64, R67, R68, R70, R71, R255, R338 and R367 as the manual states them: the Rods' owners and maps, the core and channel-group placements, the
set ranges, the frame count and state, the sizes of rings and queues, the temperature thresholds, every task FREE, device time 0. By the model's choice (log 2, 3, 23 and 57): no MSI-X vector is masked, memory lists nothing and reads 0, and before the first pass a core holds its pass-start values. -/
def Obligations.ResetState : Prop :=
  (∀ n < 24, pfGet State.reset (0x80000 + 8 * n) 8 = 0xFAC688 * 2^24 + n % 12 * 2^16 ∧ rodOwner State.reset n 0 = none ∧ rodOwner State.reset n 1 = none ∧
    ∀ b < 8, coreAt State.reset n b = 104 * (n / 12) + 8 * (n % 12) + b) ∧
  (∀ c < 208, pfGet State.reset (0x81000 + 8 * c) 8 = 0x8888888888) ∧
  (∀ d < 2, (∀ t < 41, pfGet State.reset (0x82000 + 256 * d + 4 * t) 4 = 0x600) ∧ pfGet State.reset (0x82200 + 8 * d) 8 = 0xFAC688 ∧
    pfGet State.reset (0xE2008 + 64 * d) 1 = 1) ∧
  (∀ v < 96, bar0Get State.reset v 0 4 = 4 ∧ bar0Get State.reset v 0x28 4 = 6 ∧ bar0Get State.reset v 0x3A 1 = 1) ∧
  pfGet State.reset 0xF8300 2 = 760 ∧ pfGet State.reset 0xF8308 2 = 840 ∧
  now State.reset = 0 ∧ curPword State.reset = 0xE706 ∧ State.reset.plat.power = false ∧ State.reset.plat.msixMask = [] ∧ State.reset.plat.msixPend = [] ∧
  (∀ t, (taskOf State.reset t).st = .free) ∧ (∀ q, (seqOf State.reset q).run = none) ∧ (∀ d pa, frameState State.reset d pa = .free) ∧
  MemoryCanonical State.reset ∧ (∀ a, memByte State.reset a = 0) ∧
  (∀ c, (coreGet State.reset c).cmk = 0xFF ∧ (coreGet State.reset c).mprec = 16 ∧ (∀ r, ((coreGet State.reset c).getN r).v = 0))

/-- R79, R86 to R98, R268, R269: words written out from the manual's encodings, each decoding to the instruction it stands for, one or more from every family, and words that break a check, refused. -/
def Obligations.HandWrittenWordsDecode : Prop :=
  ((decode .scalar 0x0101051800).toOption = some (.add ⟨⟨0, false⟩, 4, .n 5, .n 6⟩) ∧
    (decode .scalar 0x5001C0FFFE).toOption = some (.movi ⟨⟨0, false⟩, 7, 0xFFFE⟩) ∧
    (decode .scalar 0x190146080B).toOption = some (.bfxu ⟨⟨0, false⟩, 5, .n 6, 8, 11⟩) ∧
    (decode .scalar 0x5101C2BEEF).toOption = some (.movk ⟨⟨0, false⟩, 7, 2, 0xBEEF⟩) ∧
    (decode .scalar 0x1650431000).toOption = some (.sel ⟨⟨2, true⟩, 1, .n 3, .n 4⟩) ∧
    (decode .scalar 0x3200430002).toOption = some (.cmplti ⟨⟨0, false⟩, 1, .n 3, 2⟩) ∧
    (decode .scalar 0x2600C10800).toOption = some (.pand ⟨⟨0, false⟩, 3, 1, 2⟩) ∧
    (decode .scalar 0x6100020001).toOption = some (.mts ⟨⟨0, false⟩, .n 2, .rnd⟩)) ∧
  ((decode .scalar 0x8170000006).toOption = some (.brany ⟨⟨3, true⟩, 6⟩) ∧
    (decode .scalar 0x850C80FFD8).toOption = some (.call ⟨2, 0xFFD8⟩) ∧
    (decode .scalar 0x8800440000).toOption = some (.loop ⟨true, .n 4⟩) ∧
    (decode .scalar 0x8C00FFFFF0).toOption = some (.wait ⟨0, 15, 15, 15, 15, 15⟩) ∧
    (decode .scalar 0x9000000123).toOption = some (.trap ⟨⟨0, false⟩, 0x123⟩)) ∧
  ((decode .vector 0x0200101214).toOption = some (.vfma ⟨0, .f32, false, .v 8, .v 9, .v 10⟩) ∧
    (decode .vector 0x1000282A00).toOption = some (.vxred ⟨0, .addf32, .v 20, .v 21⟩) ∧
    (decode .vector 0x1200504022).toOption = some (.vbcx ⟨false, 40, 32, 1, 2, false⟩) ∧
    (decode .vector 0x1900061005).toOption = some (.jget ⟨0, 3, 8, 2⟩) ∧
    (decode .vector 0x1B80281821).toOption = some (.jdiv ⟨0, 20, 12, 16⟩)) ∧
  ((decode .special 0x04058600).toOption = some (.rcp ⟨0, .f32, 0, .dyn, false, .v 11, .v 12⟩)) ∧
  ((decode .memory 0x03012200000808).toOption = some (.ld32u ⟨0, 9, .n 4, 0x10, false⟩) ∧
    (decode .memory 0x10010200000100).toOption = some (.vld ⟨0, 8, .n 4, 2, false⟩) ∧
    (decode .memory 0x0B00427FFFFF98).toOption = some (.st64 ⟨0, .n 2, .n 4, 0xFFFFFF, true⟩) ∧
    (decode .memory 0x40040000000008).toOption = some (.fenceX ⟨0, 1, 0⟩) ∧
    (decode .memory 0x4AA20200001008).toOption = some (.redminI32 ⟨5, .n 16, .n 4, 0x20⟩) ∧
    (decode .memory 0x6000A000000008).toOption = some (.sync ⟨5⟩) ∧
    (decode .memory 0x70102000000008).toOption = some (.mcall ⟨0, 129⟩) ∧
    (decode .memory 0xE000A300000008).toOption = some (.launch ⟨0, 5, .n 6, 0⟩)) ∧
  ((decode .micro 0x0414E00000000000).toOption = some (.ukstep ⟨0, 1, 2, 3, 4⟩) ∧
    (decode .micro 0x0C0C000000000000).toOption = some (.uadd ⟨0, 0, 6⟩) ∧
    (decode .micro 0x1280000000000000).toOption = some (.uloop ⟨5, 0⟩) ∧
    (decode .micro 0).toOption = some .uend) ∧
  (decode .scalar 0x0100000001).toOption = none ∧ (decode .scalar 0x40_00000000).toOption = none ∧ (decode .special 0x04058603).toOption = none ∧
  (decode .memory 0x03012200000809).toOption = none ∧ (decode .micro 0x2000000000000000).toOption = none
end

