-- ==== Sys2Proof/Laws/Encoding.lean ====
section
/-! SUPPORT. Every form's decoder reads back what its encoder wrote: one lemma per form, and the fields they rest on. -/

set_option linter.unusedSimpArgs false

namespace Sys2Proof

theorem decSOp_of (o : SOp) (c : Nat) (h : c % 64 = encSOp o) : decSOp c = o := by
  unfold decSOp
  cases o with
  | n i => have := i.isLt; simp only [encSOp] at h; rw [if_pos (by omega)]; congr 1; apply Fin.ext; simp only [Fin.val_ofNat]; omega
  | q i => have := i.isLt; simp only [encSOp] at h; rw [if_neg (by omega), if_pos (by omega)]; congr 1; apply Fin.ext; simp only [Fin.val_ofNat]; omega
  | g i => have := i.isLt; simp only [encSOp] at h; rw [if_neg (by omega), if_neg (by omega)]; congr 1; apply Fin.ext; simp only [Fin.val_ofNat]; omega

theorem encSOp_lt (o : SOp) : encSOp o < 64 := by cases o <;> simp only [encSOp] <;> omega

theorem decVOp_of (o : VOp) (c : Nat) (h : c % 256 = encVOp o) : decVOp c = o := by
  unfold decVOp
  cases o with
  | v i => have := i.isLt; simp only [encVOp] at h; rw [dif_pos (by omega)]; congr 1; apply Fin.ext; exact h
  | z i => have := i.isLt; simp only [encVOp] at h; rw [dif_neg (by omega), if_pos (by omega)]; congr 1; apply Fin.ext; simp only [Fin.val_ofNat]; omega
  | vq i => have := i.isLt; simp only [encVOp] at h; rw [dif_neg (by omega), if_neg (by omega)]; congr 1; apply Fin.ext; simp only [Fin.val_ofNat]; omega

theorem encVOp_lt (o : VOp) : encVOp o < 256 := by cases o <;> simp only [encVOp] <;> omega

theorem encGuard_form (g : Guard) : ∃ n, n < 16 ∧ encGuard g = n * 2^28 := by
  obtain ⟨p, n⟩ := g
  have := p.isLt
  cases n
  · exact ⟨2 * p.val, by omega, by simp only [encGuard, Bool.false_eq_true, if_false]; omega⟩
  · exact ⟨2 * p.val + 1, by omega, by simp only [encGuard, if_true]; omega⟩

theorem decGuard_of (g : Guard) (w n : Nat) (hg : encGuard g = n * 2^28) (h : w / 2^28 % 16 = n) : decGuard w = g := by
  obtain ⟨p, b⟩ := g
  have := p.isLt
  have hp : f3 w 29 = p := Fin.ext (by cases b <;> simp only [encGuard, if_true, if_false, Bool.false_eq_true] at hg <;> simp only [f3, Fin.val_ofNat] <;> omega)
  have hb : b1 w 28 = b := by
    cases b <;> simp only [encGuard, if_true, if_false, Bool.false_eq_true] at hg <;> simp only [b1, beq_eq_false_iff_ne, beq_iff_eq, ne_eq] <;> omega
  unfold decGuard
  rw [hp, hb]

/-- A Boolean field as a number. -/
theorem bool_form (b : Bool) : ∃ n : Nat, n ≤ 1 ∧ b = (n == 1) ∧ ∀ x : Nat, (if b = true then x else 0) = n * x := by
  cases b
  · exact ⟨0, by omega, rfl, fun x => by simp⟩
  · exact ⟨1, by omega, rfl, fun x => by simp⟩

theorem encVTy_lt (t : VTy) : encVTy t < 8 := by cases t <;> decide
theorem decVTy_of (t : VTy) (c : Nat) (h : c % 8 = encVTy t) : decVTy c = t := by unfold decVTy; rw [h]; cases t <;> rfl
theorem encSReg_lt (r : SReg) : encSReg r < 1024 := by
  cases r <;> simp only [encSReg] <;> omega
theorem decSReg_of (r : SReg) (c : Nat) (h : c = encSReg r) : decSReg c = some r := by
  subst h
  cases r with
  | blc i => revert i; decide
  | gang i => revert i; decide
  | _ => rfl
theorem encLogicOp_lt (o : LogicOp) : encLogicOp o < 5 := by cases o <;> decide
theorem encCvt_lt (o : CvtOp) : encCvt o < 8 := by cases o <;> decide
theorem encNarrow_lt (o : NarrowFmt) : encNarrow o < 5 := by cases o <;> decide
theorem encPack_lt (o : PackOp) : encPack o < 5 := by cases o <;> decide
theorem encRed_lt (o : RedOp) : encRed o < 6 := by cases o <;> decide
theorem encFTy_lt (o : FTy) : encFTy o < 3 := by cases o <;> decide
theorem encFRnd_lt (o : FRnd) : encFRnd o < 3 := by cases o <;> decide

theorem decSR_enc (k : SR → Instr) (oc : Nat) (f : SR) : decSR k (oc * 2^32 + encSR f) = .ok (k f) := by
  obtain ⟨g, dst, a, b⟩ := f
  obtain ⟨gn, hgn, hg⟩ := encGuard_form g
  have h_dst := dst.isLt
  have h_a := encSOp_lt a
  have h_b := encSOp_lt b
  generalize hw : oc * 2^32 + encSR ⟨g, dst, a, b⟩ = w
  simp only [encSR, hg] at hw
  have e1 : decGuard w = g := decGuard_of g w gn hg (by omega)
  have e2 : f5 w 22 = dst := Fin.ext (by simp only [f3, f4, f5, f6, Fin.val_ofNat, vb, mdata, mimm]; omega)
  have e3 : decSOp (w / 2^16) = a := decSOp_of a _ (by (try simp only [mbase, mdata, va]); omega)
  have e4 : decSOp (w / 2^10) = b := decSOp_of b _ (by (try simp only [mbase, mdata, va]); omega)
  unfold decSR
  simp only [e1, e2, e3, e4, need, decWin, decLevel, decPath, decBar, Fin.is_lt, dite_true, if_true, Fin.eta]
  (repeat rw [if_pos (by (try simp only [mflag1, mflag0, mflag1na, mflag0na, vj, only7, code03, jetOnly, dstOk, unguarded, Bool.and_eq_true, Bool.or_eq_true, beq_iff_eq, decide_eq_true_eq, Bool.not_eq_true', beq_eq_false_iff_ne, bne_iff_ne, ne_eq]); (try simp only [mdata, mimm, mbase, vcode, vdst, va, vb]); omega)])

theorem decSU_enc (k : SU → Instr) (oc : Nat) (f : SU) : decSU k (oc * 2^32 + encSU f) = .ok (k f) := by
  obtain ⟨g, dst, a⟩ := f
  obtain ⟨gn, hgn, hg⟩ := encGuard_form g
  have h_dst := dst.isLt
  have h_a := encSOp_lt a
  generalize hw : oc * 2^32 + encSU ⟨g, dst, a⟩ = w
  simp only [encSU, hg] at hw
  have e1 : decGuard w = g := decGuard_of g w gn hg (by omega)
  have e2 : f5 w 22 = dst := Fin.ext (by simp only [f3, f4, f5, f6, Fin.val_ofNat, vb, mdata, mimm]; omega)
  have e3 : decSOp (w / 2^16) = a := decSOp_of a _ (by (try simp only [mbase, mdata, va]); omega)
  unfold decSU
  simp only [e1, e2, e3, need, decWin, decLevel, decPath, decBar, Fin.is_lt, dite_true, if_true, Fin.eta]
  (repeat rw [if_pos (by (try simp only [mflag1, mflag0, mflag1na, mflag0na, vj, only7, code03, jetOnly, dstOk, unguarded, Bool.and_eq_true, Bool.or_eq_true, beq_iff_eq, decide_eq_true_eq, Bool.not_eq_true', beq_eq_false_iff_ne, bne_iff_ne, ne_eq]); (try simp only [mdata, mimm, mbase, vcode, vdst, va, vb]); omega)])

theorem decSI_enc (k : SI → Instr) (oc : Nat) (f : SI) : decSI k (oc * 2^32 + encSI f) = .ok (k f) := by
  obtain ⟨g, dst, a, imm⟩ := f
  obtain ⟨gn, hgn, hg⟩ := encGuard_form g
  have h_dst := dst.isLt
  have h_a := encSOp_lt a
  have h_imm := imm.isLt
  generalize hw : oc * 2^32 + encSI ⟨g, dst, a, imm⟩ = w
  simp only [encSI, hg] at hw
  have e1 : decGuard w = g := decGuard_of g w gn hg (by omega)
  have e2 : f5 w 22 = dst := Fin.ext (by simp only [f3, f4, f5, f6, Fin.val_ofNat, vb, mdata, mimm]; omega)
  have e3 : decSOp (w / 2^16) = a := decSOp_of a _ (by (try simp only [mbase, mdata, va]); omega)
  have e4 : imm16 w = imm := BitVec.eq_of_toNat_eq (by simp only [imm16, imm24, mimm, vb, BitVec.toNat_ofNat]; omega)
  unfold decSI
  simp only [e1, e2, e3, e4, need, decWin, decLevel, decPath, decBar, Fin.is_lt, dite_true, if_true, Fin.eta]
  (repeat rw [if_pos (by (try simp only [mflag1, mflag0, mflag1na, mflag0na, vj, only7, code03, jetOnly, dstOk, unguarded, Bool.and_eq_true, Bool.or_eq_true, beq_iff_eq, decide_eq_true_eq, Bool.not_eq_true', beq_eq_false_iff_ne, bne_iff_ne, ne_eq]); (try simp only [mdata, mimm, mbase, vcode, vdst, va, vb]); omega)])

theorem decSSh_enc (k : SSh → Instr) (oc : Nat) (f : SSh) : decSSh k (oc * 2^32 + encSSh f) = .ok (k f) := by
  obtain ⟨g, dst, a, sh⟩ := f
  obtain ⟨gn, hgn, hg⟩ := encGuard_form g
  have h_dst := dst.isLt
  have h_a := encSOp_lt a
  have h_sh := sh.isLt
  generalize hw : oc * 2^32 + encSSh ⟨g, dst, a, sh⟩ = w
  simp only [encSSh, hg] at hw
  have e1 : decGuard w = g := decGuard_of g w gn hg (by omega)
  have e2 : f5 w 22 = dst := Fin.ext (by simp only [f3, f4, f5, f6, Fin.val_ofNat, vb, mdata, mimm]; omega)
  have e3 : decSOp (w / 2^16) = a := decSOp_of a _ (by (try simp only [mbase, mdata, va]); omega)
  have e4 : f6 w 0 = sh := Fin.ext (by simp only [f3, f4, f5, f6, Fin.val_ofNat, vb, mdata, mimm]; omega)
  unfold decSSh
  simp only [e1, e2, e3, e4, need, decWin, decLevel, decPath, decBar, Fin.is_lt, dite_true, if_true, Fin.eta]
  (repeat rw [if_pos (by (try simp only [mflag1, mflag0, mflag1na, mflag0na, vj, only7, code03, jetOnly, dstOk, unguarded, Bool.and_eq_true, Bool.or_eq_true, beq_iff_eq, decide_eq_true_eq, Bool.not_eq_true', beq_eq_false_iff_ne, bne_iff_ne, ne_eq]); (try simp only [mdata, mimm, mbase, vcode, vdst, va, vb]); omega)])

theorem decSBf_enc (k : SBf → Instr) (oc : Nat) (f : SBf) : decSBf k (oc * 2^32 + encSBf f) = .ok (k f) := by
  obtain ⟨g, dst, a, lsb, lenM1⟩ := f
  obtain ⟨gn, hgn, hg⟩ := encGuard_form g
  have h_dst := dst.isLt
  have h_a := encSOp_lt a
  have h_lsb := lsb.isLt
  have h_lenM1 := lenM1.isLt
  generalize hw : oc * 2^32 + encSBf ⟨g, dst, a, lsb, lenM1⟩ = w
  simp only [encSBf, hg] at hw
  have e1 : decGuard w = g := decGuard_of g w gn hg (by omega)
  have e2 : f5 w 22 = dst := Fin.ext (by simp only [f3, f4, f5, f6, Fin.val_ofNat, vb, mdata, mimm]; omega)
  have e3 : decSOp (w / 2^16) = a := decSOp_of a _ (by (try simp only [mbase, mdata, va]); omega)
  have e4 : f6 w 8 = lsb := Fin.ext (by simp only [f3, f4, f5, f6, Fin.val_ofNat, vb, mdata, mimm]; omega)
  have e5 : f6 w 0 = lenM1 := Fin.ext (by simp only [f3, f4, f5, f6, Fin.val_ofNat, vb, mdata, mimm]; omega)
  unfold decSBf
  simp only [e1, e2, e3, e4, e5, need, decWin, decLevel, decPath, decBar, Fin.is_lt, dite_true, if_true, Fin.eta]
  (repeat rw [if_pos (by (try simp only [mflag1, mflag0, mflag1na, mflag0na, vj, only7, code03, jetOnly, dstOk, unguarded, Bool.and_eq_true, Bool.or_eq_true, beq_iff_eq, decide_eq_true_eq, Bool.not_eq_true', beq_eq_false_iff_ne, bne_iff_ne, ne_eq]); (try simp only [mdata, mimm, mbase, vcode, vdst, va, vb]); omega)])

theorem decSMovi_enc (k : SMovi → Instr) (oc : Nat) (f : SMovi) : decSMovi k (oc * 2^32 + encSMovi f) = .ok (k f) := by
  obtain ⟨g, dst, imm⟩ := f
  obtain ⟨gn, hgn, hg⟩ := encGuard_form g
  have h_dst := dst.isLt
  have h_imm := imm.isLt
  generalize hw : oc * 2^32 + encSMovi ⟨g, dst, imm⟩ = w
  simp only [encSMovi, hg] at hw
  have e1 : decGuard w = g := decGuard_of g w gn hg (by omega)
  have e2 : f5 w 22 = dst := Fin.ext (by simp only [f3, f4, f5, f6, Fin.val_ofNat, vb, mdata, mimm]; omega)
  have e3 : imm16 w = imm := BitVec.eq_of_toNat_eq (by simp only [imm16, imm24, mimm, vb, BitVec.toNat_ofNat]; omega)
  unfold decSMovi
  simp only [e1, e2, e3, need, decWin, decLevel, decPath, decBar, Fin.is_lt, dite_true, if_true, Fin.eta]
  (repeat rw [if_pos (by (try simp only [mflag1, mflag0, mflag1na, mflag0na, vj, only7, code03, jetOnly, dstOk, unguarded, Bool.and_eq_true, Bool.or_eq_true, beq_iff_eq, decide_eq_true_eq, Bool.not_eq_true', beq_eq_false_iff_ne, bne_iff_ne, ne_eq]); (try simp only [mdata, mimm, mbase, vcode, vdst, va, vb]); omega)])

theorem decSK_enc (k : SK → Instr) (oc : Nat) (f : SK) : decSK k (oc * 2^32 + encSK f) = .ok (k f) := by
  obtain ⟨g, dst, h, imm⟩ := f
  obtain ⟨gn, hgn, hg⟩ := encGuard_form g
  have h_dst := dst.isLt
  have h_h := h.isLt
  have h_imm := imm.isLt
  generalize hw : oc * 2^32 + encSK ⟨g, dst, h, imm⟩ = w
  simp only [encSK, hg] at hw
  have e1 : decGuard w = g := decGuard_of g w gn hg (by omega)
  have e2 : f5 w 22 = dst := Fin.ext (by simp only [f3, f4, f5, f6, Fin.val_ofNat, vb, mdata, mimm]; omega)
  have e3 : Fin.ofNat 4 (w / 2^16) = h := Fin.ext (by simp only [f3, f4, f5, f6, Fin.val_ofNat, vb, mdata, mimm]; omega)
  have e4 : imm16 w = imm := BitVec.eq_of_toNat_eq (by simp only [imm16, imm24, mimm, vb, BitVec.toNat_ofNat]; omega)
  unfold decSK
  simp only [e1, e2, e3, e4, need, decWin, decLevel, decPath, decBar, Fin.is_lt, dite_true, if_true, Fin.eta]
  (repeat rw [if_pos (by (try simp only [mflag1, mflag0, mflag1na, mflag0na, vj, only7, code03, jetOnly, dstOk, unguarded, Bool.and_eq_true, Bool.or_eq_true, beq_iff_eq, decide_eq_true_eq, Bool.not_eq_true', beq_eq_false_iff_ne, bne_iff_ne, ne_eq]); (try simp only [mdata, mimm, mbase, vcode, vdst, va, vb]); omega)])

theorem decSP_enc (k : SP → Instr) (oc : Nat) (f : SP) : decSP k (oc * 2^32 + encSP f) = .ok (k f) := by
  obtain ⟨g, pd, a, b⟩ := f
  obtain ⟨gn, hgn, hg⟩ := encGuard_form g
  have h_pd := pd.isLt
  have h_a := encSOp_lt a
  have h_b := encSOp_lt b
  generalize hw : oc * 2^32 + encSP ⟨g, pd, a, b⟩ = w
  simp only [encSP, hg] at hw
  have e1 : decGuard w = g := decGuard_of g w gn hg (by omega)
  have e2 : f3 w 22 = pd := Fin.ext (by simp only [f3, f4, f5, f6, Fin.val_ofNat, vb, mdata, mimm]; omega)
  have e3 : decSOp (w / 2^16) = a := decSOp_of a _ (by (try simp only [mbase, mdata, va]); omega)
  have e4 : decSOp (w / 2^10) = b := decSOp_of b _ (by (try simp only [mbase, mdata, va]); omega)
  unfold decSP
  simp only [e1, e2, e3, e4, need, decWin, decLevel, decPath, decBar, Fin.is_lt, dite_true, if_true, Fin.eta]
  (repeat rw [if_pos (by (try simp only [mflag1, mflag0, mflag1na, mflag0na, vj, only7, code03, jetOnly, dstOk, unguarded, Bool.and_eq_true, Bool.or_eq_true, beq_iff_eq, decide_eq_true_eq, Bool.not_eq_true', beq_eq_false_iff_ne, bne_iff_ne, ne_eq]); (try simp only [mdata, mimm, mbase, vcode, vdst, va, vb]); omega)])

theorem decSPI_enc (k : SPI → Instr) (oc : Nat) (f : SPI) : decSPI k (oc * 2^32 + encSPI f) = .ok (k f) := by
  obtain ⟨g, pd, a, imm⟩ := f
  obtain ⟨gn, hgn, hg⟩ := encGuard_form g
  have h_pd := pd.isLt
  have h_a := encSOp_lt a
  have h_imm := imm.isLt
  generalize hw : oc * 2^32 + encSPI ⟨g, pd, a, imm⟩ = w
  simp only [encSPI, hg] at hw
  have e1 : decGuard w = g := decGuard_of g w gn hg (by omega)
  have e2 : f3 w 22 = pd := Fin.ext (by simp only [f3, f4, f5, f6, Fin.val_ofNat, vb, mdata, mimm]; omega)
  have e3 : decSOp (w / 2^16) = a := decSOp_of a _ (by (try simp only [mbase, mdata, va]); omega)
  have e4 : imm16 w = imm := BitVec.eq_of_toNat_eq (by simp only [imm16, imm24, mimm, vb, BitVec.toNat_ofNat]; omega)
  unfold decSPI
  simp only [e1, e2, e3, e4, need, decWin, decLevel, decPath, decBar, Fin.is_lt, dite_true, if_true, Fin.eta]
  (repeat rw [if_pos (by (try simp only [mflag1, mflag0, mflag1na, mflag0na, vj, only7, code03, jetOnly, dstOk, unguarded, Bool.and_eq_true, Bool.or_eq_true, beq_iff_eq, decide_eq_true_eq, Bool.not_eq_true', beq_eq_false_iff_ne, bne_iff_ne, ne_eq]); (try simp only [mdata, mimm, mbase, vcode, vdst, va, vb]); omega)])

theorem decSQ_enc (k : SQ → Instr) (oc : Nat) (f : SQ) : decSQ k (oc * 2^32 + encSQ f) = .ok (k f) := by
  obtain ⟨g, pd, pa, pb⟩ := f
  obtain ⟨gn, hgn, hg⟩ := encGuard_form g
  have h_pd := pd.isLt
  have h_pa := pa.isLt
  have h_pb := pb.isLt
  generalize hw : oc * 2^32 + encSQ ⟨g, pd, pa, pb⟩ = w
  simp only [encSQ, hg] at hw
  have e1 : decGuard w = g := decGuard_of g w gn hg (by omega)
  have e2 : f3 w 22 = pd := Fin.ext (by simp only [f3, f4, f5, f6, Fin.val_ofNat, vb, mdata, mimm]; omega)
  have e3 : f3 w 16 = pa := Fin.ext (by simp only [f3, f4, f5, f6, Fin.val_ofNat, vb, mdata, mimm]; omega)
  have e4 : f3 w 10 = pb := Fin.ext (by simp only [f3, f4, f5, f6, Fin.val_ofNat, vb, mdata, mimm]; omega)
  unfold decSQ
  simp only [e1, e2, e3, e4, need, decWin, decLevel, decPath, decBar, Fin.is_lt, dite_true, if_true, Fin.eta]
  (repeat rw [if_pos (by (try simp only [mflag1, mflag0, mflag1na, mflag0na, vj, only7, code03, jetOnly, dstOk, unguarded, Bool.and_eq_true, Bool.or_eq_true, beq_iff_eq, decide_eq_true_eq, Bool.not_eq_true', beq_eq_false_iff_ne, bne_iff_ne, ne_eq]); (try simp only [mdata, mimm, mbase, vcode, vdst, va, vb]); omega)])

theorem decSMfs_enc (k : SMfs → Instr) (oc : Nat) (f : SMfs) : decSMfs k (oc * 2^32 + encSMfs f) = .ok (k f) := by
  obtain ⟨g, dst, reg⟩ := f
  obtain ⟨gn, hgn, hg⟩ := encGuard_form g
  have h_dst := dst.isLt
  have h_reg := encSReg_lt reg
  generalize hw : oc * 2^32 + encSMfs ⟨g, dst, reg⟩ = w
  simp only [encSMfs, hg] at hw
  have e1 : decGuard w = g := decGuard_of g w gn hg (by omega)
  have e2 : f5 w 22 = dst := Fin.ext (by simp only [f3, f4, f5, f6, Fin.val_ofNat, vb, mdata, mimm]; omega)
  have e3 : decSReg (w % 1024) = some reg := decSReg_of reg _ (by omega)
  unfold decSMfs
  simp only [e1, e2, e3, need, decWin, decLevel, decPath, decBar, Fin.is_lt, dite_true, if_true, Fin.eta]
  (repeat rw [if_pos (by (try simp only [mflag1, mflag0, mflag1na, mflag0na, vj, only7, code03, jetOnly, dstOk, unguarded, Bool.and_eq_true, Bool.or_eq_true, beq_iff_eq, decide_eq_true_eq, Bool.not_eq_true', beq_eq_false_iff_ne, bne_iff_ne, ne_eq]); (try simp only [mdata, mimm, mbase, vcode, vdst, va, vb]); omega)])

theorem decSMts_enc (k : SMts → Instr) (oc : Nat) (f : SMts) : decSMts k (oc * 2^32 + encSMts f) = .ok (k f) := by
  obtain ⟨g, a, reg⟩ := f
  obtain ⟨gn, hgn, hg⟩ := encGuard_form g
  have h_a := encSOp_lt a
  have h_reg := encSReg_lt reg
  generalize hw : oc * 2^32 + encSMts ⟨g, a, reg⟩ = w
  simp only [encSMts, hg] at hw
  have e1 : decGuard w = g := decGuard_of g w gn hg (by omega)
  have e2 : decSOp (w / 2^16) = a := decSOp_of a _ (by (try simp only [mbase, mdata, va]); omega)
  have e3 : decSReg (w % 1024) = some reg := decSReg_of reg _ (by omega)
  unfold decSMts
  simp only [e1, e2, e3, need, decWin, decLevel, decPath, decBar, Fin.is_lt, dite_true, if_true, Fin.eta]
  (repeat rw [if_pos (by (try simp only [mflag1, mflag0, mflag1na, mflag0na, vj, only7, code03, jetOnly, dstOk, unguarded, Bool.and_eq_true, Bool.or_eq_true, beq_iff_eq, decide_eq_true_eq, Bool.not_eq_true', beq_eq_false_iff_ne, bne_iff_ne, ne_eq]); (try simp only [mdata, mimm, mbase, vcode, vdst, va, vb]); omega)])

theorem decSLevel_enc (k : SLevel → Instr) (oc : Nat) (f : SLevel) : decSLevel k (oc * 2^32 + encSLevel f) = .ok (k f) := by
  obtain ⟨g, dst, level⟩ := f
  obtain ⟨gn, hgn, hg⟩ := encGuard_form g
  have h_dst := dst.isLt
  have h_level := level.isLt
  generalize hw : oc * 2^32 + encSLevel ⟨g, dst, level⟩ = w
  simp only [encSLevel, hg] at hw
  have e1 : decGuard w = g := decGuard_of g w gn hg (by omega)
  have e2 : f5 w 22 = dst := Fin.ext (by simp only [f3, f4, f5, f6, Fin.val_ofNat, vb, mdata, mimm]; omega)
  have e3 : w % 65536 = level.val := by (try simp only [vcode, vdst, va, vb, mdata]); omega
  unfold decSLevel
  simp only [e1, e2, e3, need, decWin, decLevel, decPath, decBar, Fin.is_lt, dite_true, if_true, Fin.eta]
  (repeat rw [if_pos (by (try simp only [mflag1, mflag0, mflag1na, mflag0na, vj, only7, code03, jetOnly, dstOk, unguarded, Bool.and_eq_true, Bool.or_eq_true, beq_iff_eq, decide_eq_true_eq, Bool.not_eq_true', beq_eq_false_iff_ne, bne_iff_ne, ne_eq]); (try simp only [mdata, mimm, mbase, vcode, vdst, va, vb]); omega)])

theorem decCTest_enc (k : CTest → Instr) (oc : Nat) (f : CTest) : decCTest k (oc * 2^32 + encCTest f) = .ok (k f) := by
  obtain ⟨t, imm⟩ := f
  obtain ⟨gn, hgn, hg⟩ := encGuard_form t
  have h_imm := imm.isLt
  generalize hw : oc * 2^32 + encCTest ⟨t, imm⟩ = w
  simp only [encCTest, hg] at hw
  have e1 : decGuard w = t := decGuard_of t w gn hg (by omega)
  have e2 : imm16 w = imm := BitVec.eq_of_toNat_eq (by simp only [imm16, imm24, mimm, vb, BitVec.toNat_ofNat]; omega)
  unfold decCTest
  simp only [e1, e2, need, decWin, decLevel, decPath, decBar, Fin.is_lt, dite_true, if_true, Fin.eta]
  (repeat rw [if_pos (by (try simp only [mflag1, mflag0, mflag1na, mflag0na, vj, only7, code03, jetOnly, dstOk, unguarded, Bool.and_eq_true, Bool.or_eq_true, beq_iff_eq, decide_eq_true_eq, Bool.not_eq_true', beq_eq_false_iff_ne, bne_iff_ne, ne_eq]); (try simp only [mdata, mimm, mbase, vcode, vdst, va, vb]); omega)])

theorem decCGangA_enc (k : CGang → Instr) (oc : Nat) (f : CGang) : decCGangA k (oc * 2^32 + encCGangA f) = .ok (k f) := by
  obtain ⟨g, imm⟩ := f
  have h_g := g.isLt
  have h_imm := imm.isLt
  generalize hw : oc * 2^32 + encCGangA ⟨g, imm⟩ = w
  simp only [encCGangA] at hw
  have e1 : f4 w 16 = g := Fin.ext (by simp only [f3, f4, f5, f6, Fin.val_ofNat, vb, mdata, mimm]; omega)
  have e2 : imm16 w = imm := BitVec.eq_of_toNat_eq (by simp only [imm16, imm24, mimm, vb, BitVec.toNat_ofNat]; omega)
  unfold decCGangA
  simp only [e1, e2, need, decWin, decLevel, decPath, decBar, Fin.is_lt, dite_true, if_true, Fin.eta]
  (repeat rw [if_pos (by (try simp only [mflag1, mflag0, mflag1na, mflag0na, vj, only7, code03, jetOnly, dstOk, unguarded, Bool.and_eq_true, Bool.or_eq_true, beq_iff_eq, decide_eq_true_eq, Bool.not_eq_true', beq_eq_false_iff_ne, bne_iff_ne, ne_eq]); (try simp only [mdata, mimm, mbase, vcode, vdst, va, vb]); omega)])

theorem decCGangD_enc (k : CGang → Instr) (oc : Nat) (f : CGang) : decCGangD k (oc * 2^32 + encCGangD f) = .ok (k f) := by
  obtain ⟨g, imm⟩ := f
  have h_g := g.isLt
  have h_imm := imm.isLt
  generalize hw : oc * 2^32 + encCGangD ⟨g, imm⟩ = w
  simp only [encCGangD] at hw
  have e1 : f4 w 22 = g := Fin.ext (by simp only [f3, f4, f5, f6, Fin.val_ofNat, vb, mdata, mimm]; omega)
  have e2 : imm16 w = imm := BitVec.eq_of_toNat_eq (by simp only [imm16, imm24, mimm, vb, BitVec.toNat_ofNat]; omega)
  unfold decCGangD
  simp only [e1, e2, need, decWin, decLevel, decPath, decBar, Fin.is_lt, dite_true, if_true, Fin.eta]
  (repeat rw [if_pos (by (try simp only [mflag1, mflag0, mflag1na, mflag0na, vj, only7, code03, jetOnly, dstOk, unguarded, Bool.and_eq_true, Bool.or_eq_true, beq_iff_eq, decide_eq_true_eq, Bool.not_eq_true', beq_eq_false_iff_ne, bne_iff_ne, ne_eq]); (try simp only [mdata, mimm, mbase, vcode, vdst, va, vb]); omega)])

theorem decCLoop_enc (k : CLoop → Instr) (oc : Nat) (f : CLoop) : decCLoop k (oc * 2^32 + encCLoop f) = .ok (k f) := by
  obtain ⟨p, a⟩ := f
  obtain ⟨n_p, l_p, d_p, i_p⟩ := bool_form p
  have h_a := encSOp_lt a
  generalize hw : oc * 2^32 + encCLoop ⟨p, a⟩ = w
  simp only [encCLoop, i_p] at hw
  have e1 : b1 w 22 = p := by rw [d_p]; simp only [b1, vj]; exact congrArg (· == 1) (by omega)
  have e2 : decSOp (w / 2^16) = a := decSOp_of a _ (by (try simp only [mbase, mdata, va]); omega)
  unfold decCLoop
  simp only [e1, e2, need, decWin, decLevel, decPath, decBar, Fin.is_lt, dite_true, if_true, Fin.eta]
  (repeat rw [if_pos (by (try simp only [mflag1, mflag0, mflag1na, mflag0na, vj, only7, code03, jetOnly, dstOk, unguarded, Bool.and_eq_true, Bool.or_eq_true, beq_iff_eq, decide_eq_true_eq, Bool.not_eq_true', beq_eq_false_iff_ne, bne_iff_ne, ne_eq]); (try simp only [mdata, mimm, mbase, vcode, vdst, va, vb]); omega)])

theorem decCLoopI_enc (k : CLoopI → Instr) (oc : Nat) (f : CLoopI) : decCLoopI k (oc * 2^32 + encCLoopI f) = .ok (k f) := by
  obtain ⟨p, count⟩ := f
  obtain ⟨n_p, l_p, d_p, i_p⟩ := bool_form p
  have h_count := count.isLt
  generalize hw : oc * 2^32 + encCLoopI ⟨p, count⟩ = w
  simp only [encCLoopI, i_p] at hw
  have e1 : b1 w 22 = p := by rw [d_p]; simp only [b1, vj]; exact congrArg (· == 1) (by omega)
  have e2 : imm16 w = count := BitVec.eq_of_toNat_eq (by simp only [imm16, imm24, mimm, vb, BitVec.toNat_ofNat]; omega)
  unfold decCLoopI
  simp only [e1, e2, need, decWin, decLevel, decPath, decBar, Fin.is_lt, dite_true, if_true, Fin.eta]
  (repeat rw [if_pos (by (try simp only [mflag1, mflag0, mflag1na, mflag0na, vj, only7, code03, jetOnly, dstOk, unguarded, Bool.and_eq_true, Bool.or_eq_true, beq_iff_eq, decide_eq_true_eq, Bool.not_eq_true', beq_eq_false_iff_ne, bne_iff_ne, ne_eq]); (try simp only [mdata, mimm, mbase, vcode, vdst, va, vb]); omega)])

theorem decCLidx_enc (k : CLidx → Instr) (oc : Nat) (f : CLidx) : decCLidx k (oc * 2^32 + encCLidx f) = .ok (k f) := by
  obtain ⟨dst, level⟩ := f
  have h_dst := dst.isLt
  have h_level := level.isLt
  generalize hw : oc * 2^32 + encCLidx ⟨dst, level⟩ = w
  simp only [encCLidx] at hw
  have e1 : f5 w 22 = dst := Fin.ext (by simp only [f3, f4, f5, f6, Fin.val_ofNat, vb, mdata, mimm]; omega)
  have e2 : w % 65536 = level.val := by (try simp only [vcode, vdst, va, vb, mdata]); omega
  unfold decCLidx
  simp only [e1, e2, need, decWin, decLevel, decPath, decBar, Fin.is_lt, dite_true, if_true, Fin.eta]
  (repeat rw [if_pos (by (try simp only [mflag1, mflag0, mflag1na, mflag0na, vj, only7, code03, jetOnly, dstOk, unguarded, Bool.and_eq_true, Bool.or_eq_true, beq_iff_eq, decide_eq_true_eq, Bool.not_eq_true', beq_eq_false_iff_ne, bne_iff_ne, ne_eq]); (try simp only [mdata, mimm, mbase, vcode, vdst, va, vb]); omega)])

theorem decCWait_enc (k : CWait → Instr) (oc : Nat) (f : CWait) : decCWait k (oc * 2^32 + encCWait f) = .ok (k f) := by
  obtain ⟨ld, st, cp, mx, en, nw⟩ := f
  have h_ld := ld.isLt
  have h_st := st.isLt
  have h_cp := cp.isLt
  have h_mx := mx.isLt
  have h_en := en.isLt
  have h_nw := nw.isLt
  generalize hw : oc * 2^32 + encCWait ⟨ld, st, cp, mx, en, nw⟩ = w
  simp only [encCWait] at hw
  have e1 : f4 w 24 = ld := Fin.ext (by simp only [f3, f4, f5, f6, Fin.val_ofNat, vb, mdata, mimm]; omega)
  have e2 : f4 w 20 = st := Fin.ext (by simp only [f3, f4, f5, f6, Fin.val_ofNat, vb, mdata, mimm]; omega)
  have e3 : f4 w 16 = cp := Fin.ext (by simp only [f3, f4, f5, f6, Fin.val_ofNat, vb, mdata, mimm]; omega)
  have e4 : f4 w 12 = mx := Fin.ext (by simp only [f3, f4, f5, f6, Fin.val_ofNat, vb, mdata, mimm]; omega)
  have e5 : f4 w 8 = en := Fin.ext (by simp only [f3, f4, f5, f6, Fin.val_ofNat, vb, mdata, mimm]; omega)
  have e6 : f4 w 4 = nw := Fin.ext (by simp only [f3, f4, f5, f6, Fin.val_ofNat, vb, mdata, mimm]; omega)
  unfold decCWait
  simp only [e1, e2, e3, e4, e5, e6, need, decWin, decLevel, decPath, decBar, Fin.is_lt, dite_true, if_true, Fin.eta]
  (repeat rw [if_pos (by (try simp only [mflag1, mflag0, mflag1na, mflag0na, vj, only7, code03, jetOnly, dstOk, unguarded, Bool.and_eq_true, Bool.or_eq_true, beq_iff_eq, decide_eq_true_eq, Bool.not_eq_true', beq_eq_false_iff_ne, bne_iff_ne, ne_eq]); (try simp only [mdata, mimm, mbase, vcode, vdst, va, vb]); omega)])

theorem decCT_enc (k : CT → Instr) (oc : Nat) (f : CT) : decCT k (oc * 2^32 + encCT f) = .ok (k f) := by
  obtain ⟨g, imm⟩ := f
  obtain ⟨gn, hgn, hg⟩ := encGuard_form g
  have h_imm := imm.isLt
  generalize hw : oc * 2^32 + encCT ⟨g, imm⟩ = w
  simp only [encCT, hg] at hw
  have e1 : decGuard w = g := decGuard_of g w gn hg (by omega)
  have e2 : imm16 w = imm := BitVec.eq_of_toNat_eq (by simp only [imm16, imm24, mimm, vb, BitVec.toNat_ofNat]; omega)
  unfold decCT
  simp only [e1, e2, need, decWin, decLevel, decPath, decBar, Fin.is_lt, dite_true, if_true, Fin.eta]
  (repeat rw [if_pos (by (try simp only [mflag1, mflag0, mflag1na, mflag0na, vj, only7, code03, jetOnly, dstOk, unguarded, Bool.and_eq_true, Bool.or_eq_true, beq_iff_eq, decide_eq_true_eq, Bool.not_eq_true', beq_eq_false_iff_ne, bne_iff_ne, ne_eq]); (try simp only [mdata, mimm, mbase, vcode, vdst, va, vb]); omega)])

theorem decCSavem_enc (k : CSavem → Instr) (oc : Nat) (f : CSavem) : decCSavem k (oc * 2^32 + encCSavem f) = .ok (k f) := by
  obtain ⟨g, a⟩ := f
  obtain ⟨gn, hgn, hg⟩ := encGuard_form g
  have h_a := encSOp_lt a
  generalize hw : oc * 2^32 + encCSavem ⟨g, a⟩ = w
  simp only [encCSavem, hg] at hw
  have e1 : decGuard w = g := decGuard_of g w gn hg (by omega)
  have e2 : decSOp (w / 2^16) = a := decSOp_of a _ (by (try simp only [mbase, mdata, va]); omega)
  unfold decCSavem
  simp only [e1, e2, need, decWin, decLevel, decPath, decBar, Fin.is_lt, dite_true, if_true, Fin.eta]
  (repeat rw [if_pos (by (try simp only [mflag1, mflag0, mflag1na, mflag0na, vj, only7, code03, jetOnly, dstOk, unguarded, Bool.and_eq_true, Bool.or_eq_true, beq_iff_eq, decide_eq_true_eq, Bool.not_eq_true', beq_eq_false_iff_ne, bne_iff_ne, ne_eq]); (try simp only [mdata, mimm, mbase, vcode, vdst, va, vb]); omega)])

theorem decCSlack_enc (k : CSlack → Instr) (oc : Nat) (f : CSlack) : decCSlack k (oc * 2^32 + encCSlack f) = .ok (k f) := by
  obtain ⟨g, region⟩ := f
  obtain ⟨gn, hgn, hg⟩ := encGuard_form g
  have h_region := region.isLt
  generalize hw : oc * 2^32 + encCSlack ⟨g, region⟩ = w
  simp only [encCSlack, hg] at hw
  have e1 : decGuard w = g := decGuard_of g w gn hg (by omega)
  have e2 : f4 w 0 = region := Fin.ext (by simp only [f3, f4, f5, f6, Fin.val_ofNat, vb, mdata, mimm]; omega)
  unfold decCSlack
  simp only [e1, e2, need, decWin, decLevel, decPath, decBar, Fin.is_lt, dite_true, if_true, Fin.eta]
  (repeat rw [if_pos (by (try simp only [mflag1, mflag0, mflag1na, mflag0na, vj, only7, code03, jetOnly, dstOk, unguarded, Bool.and_eq_true, Bool.or_eq_true, beq_iff_eq, decide_eq_true_eq, Bool.not_eq_true', beq_eq_false_iff_ne, bne_iff_ne, ne_eq]); (try simp only [mdata, mimm, mbase, vcode, vdst, va, vb]); omega)])

theorem decVB_enc (k : VB → Instr) (oc : Nat) (f : VB) : decVB k (oc * 2^31 + encVB f) = .ok (k f) := by
  obtain ⟨m, ty, j, dst, a, b⟩ := f
  have h_m := m.isLt
  have h_ty := encVTy_lt ty
  obtain ⟨n_j, l_j, d_j, i_j⟩ := bool_form j
  have h_dst := encVOp_lt dst
  have h_a := encVOp_lt a
  have h_b := encVOp_lt b
  generalize hw : oc * 2^31 + encVB ⟨m, ty, j, dst, a, b⟩ = w
  simp only [encVB, i_j] at hw
  have e1 : f3 w 25 = m := Fin.ext (by simp only [f3, f4, f5, f6, Fin.val_ofNat, vb, mdata, mimm]; omega)
  have e2 : decVTy (vcode w) = ty := decVTy_of ty _ (by simp only [vcode]; omega)
  have e3 : vj w = j := by rw [d_j]; simp only [b1, vj]; exact congrArg (· == 1) (by omega)
  have e4 : decVOp (vdst w) = dst := decVOp_of dst _ (by (try simp only [mdata, vdst, va, vb]); omega)
  have e5 : decVOp (va w) = a := decVOp_of a _ (by (try simp only [mdata, vdst, va, vb]); omega)
  have e6 : decVOp (vb w) = b := decVOp_of b _ (by (try simp only [mdata, vdst, va, vb]); omega)
  unfold decVB
  simp only [e1, e2, e3, e4, e5, e6, need, decWin, decLevel, decPath, decBar, Fin.is_lt, dite_true, if_true, Fin.eta]
  (repeat rw [if_pos (by (try simp only [mflag1, mflag0, mflag1na, mflag0na, vj, only7, code03, jetOnly, dstOk, unguarded, Bool.and_eq_true, Bool.or_eq_true, beq_iff_eq, decide_eq_true_eq, Bool.not_eq_true', beq_eq_false_iff_ne, bne_iff_ne, ne_eq]); (try simp only [mdata, mimm, mbase, vcode, vdst, va, vb]); omega)])

theorem decVU_enc (k : VU → Instr) (oc : Nat) (f : VU) : decVU k (oc * 2^31 + encVU f) = .ok (k f) := by
  obtain ⟨m, ty, j, dst, a⟩ := f
  have h_m := m.isLt
  have h_ty := encVTy_lt ty
  obtain ⟨n_j, l_j, d_j, i_j⟩ := bool_form j
  have h_dst := encVOp_lt dst
  have h_a := encVOp_lt a
  generalize hw : oc * 2^31 + encVU ⟨m, ty, j, dst, a⟩ = w
  simp only [encVU, i_j] at hw
  have e1 : f3 w 25 = m := Fin.ext (by simp only [f3, f4, f5, f6, Fin.val_ofNat, vb, mdata, mimm]; omega)
  have e2 : decVTy (vcode w) = ty := decVTy_of ty _ (by simp only [vcode]; omega)
  have e3 : vj w = j := by rw [d_j]; simp only [b1, vj]; exact congrArg (· == 1) (by omega)
  have e4 : decVOp (vdst w) = dst := decVOp_of dst _ (by (try simp only [mdata, vdst, va, vb]); omega)
  have e5 : decVOp (va w) = a := decVOp_of a _ (by (try simp only [mdata, vdst, va, vb]); omega)
  unfold decVU
  simp only [e1, e2, e3, e4, e5, need, decWin, decLevel, decPath, decBar, Fin.is_lt, dite_true, if_true, Fin.eta]
  (repeat rw [if_pos (by (try simp only [mflag1, mflag0, mflag1na, mflag0na, vj, only7, code03, jetOnly, dstOk, unguarded, Bool.and_eq_true, Bool.or_eq_true, beq_iff_eq, decide_eq_true_eq, Bool.not_eq_true', beq_eq_false_iff_ne, bne_iff_ne, ne_eq]); (try simp only [mdata, mimm, mbase, vcode, vdst, va, vb]); omega)])

theorem decVCmp_enc (k : VCmp → Instr) (oc : Nat) (f : VCmp) : decVCmp k (oc * 2^31 + encVCmp f) = .ok (k f) := by
  obtain ⟨m, ty, md, a, b⟩ := f
  have h_m := m.isLt
  have h_ty := encVTy_lt ty
  have h_md := md.isLt
  have h_a := encVOp_lt a
  have h_b := encVOp_lt b
  generalize hw : oc * 2^31 + encVCmp ⟨m, ty, md, a, b⟩ = w
  simp only [encVCmp] at hw
  have e1 : f3 w 25 = m := Fin.ext (by simp only [f3, f4, f5, f6, Fin.val_ofNat, vb, mdata, mimm]; omega)
  have e2 : decVTy (vcode w) = ty := decVTy_of ty _ (by simp only [vcode]; omega)
  have e3 : f3 w 17 = md := Fin.ext (by simp only [f3, f4, f5, f6, Fin.val_ofNat, vb, mdata, mimm]; omega)
  have e4 : decVOp (va w) = a := decVOp_of a _ (by (try simp only [mdata, vdst, va, vb]); omega)
  have e5 : decVOp (vb w) = b := decVOp_of b _ (by (try simp only [mdata, vdst, va, vb]); omega)
  unfold decVCmp
  simp only [e1, e2, e3, e4, e5, need, decWin, decLevel, decPath, decBar, Fin.is_lt, dite_true, if_true, Fin.eta]
  (repeat rw [if_pos (by (try simp only [mflag1, mflag0, mflag1na, mflag0na, vj, only7, code03, jetOnly, dstOk, unguarded, Bool.and_eq_true, Bool.or_eq_true, beq_iff_eq, decide_eq_true_eq, Bool.not_eq_true', beq_eq_false_iff_ne, bne_iff_ne, ne_eq]); (try simp only [mdata, mimm, mbase, vcode, vdst, va, vb]); omega)])

theorem decVLogicF_enc (k : VLogicF → Instr) (oc : Nat) (f : VLogicF) : decVLogicF k (oc * 2^31 + encVLogicF f) = .ok (k f) := by
  obtain ⟨m, op, dst, a, b⟩ := f
  have h_m := m.isLt
  have h_op := encLogicOp_lt op
  have h_dst := encVOp_lt dst
  have h_a := encVOp_lt a
  have h_b := encVOp_lt b
  generalize hw : oc * 2^31 + encVLogicF ⟨m, op, dst, a, b⟩ = w
  simp only [encVLogicF] at hw
  have e1 : f3 w 25 = m := Fin.ext (by simp only [f3, f4, f5, f6, Fin.val_ofNat, vb, mdata, mimm]; omega)
  have e2 : vcode w = encLogicOp op := by (try simp only [vcode, vdst, va, vb, mdata]); omega
  have e3 : decVOp (vdst w) = dst := decVOp_of dst _ (by (try simp only [mdata, vdst, va, vb]); omega)
  have e4 : decVOp (va w) = a := decVOp_of a _ (by (try simp only [mdata, vdst, va, vb]); omega)
  have e5 : decVOp (vb w) = b := decVOp_of b _ (by (try simp only [mdata, vdst, va, vb]); omega)
  unfold decVLogicF
  simp only [e1, e2, e3, e4, e5, need, decWin, decLevel, decPath, decBar, Fin.is_lt, dite_true, if_true, Fin.eta]
  (repeat rw [if_pos (by (try simp only [mflag1, mflag0, mflag1na, mflag0na, vj, only7, code03, jetOnly, dstOk, unguarded, Bool.and_eq_true, Bool.or_eq_true, beq_iff_eq, decide_eq_true_eq, Bool.not_eq_true', beq_eq_false_iff_ne, bne_iff_ne, ne_eq]); (try simp only [mdata, mimm, mbase, vcode, vdst, va, vb]); omega)])
  all_goals (cases op) <;> rfl

theorem decVCvtF_enc (k : VCvtF → Instr) (oc : Nat) (f : VCvtF) : decVCvtF k (oc * 2^31 + encVCvtF f) = .ok (k f) := by
  obtain ⟨m, op, dst, a⟩ := f
  have h_m := m.isLt
  have h_op := encCvt_lt op
  have h_dst := encVOp_lt dst
  have h_a := encVOp_lt a
  generalize hw : oc * 2^31 + encVCvtF ⟨m, op, dst, a⟩ = w
  simp only [encVCvtF] at hw
  have e1 : f3 w 25 = m := Fin.ext (by simp only [f3, f4, f5, f6, Fin.val_ofNat, vb, mdata, mimm]; omega)
  have e2 : vcode w = encCvt op := by (try simp only [vcode, vdst, va, vb, mdata]); omega
  have e3 : decVOp (vdst w) = dst := decVOp_of dst _ (by (try simp only [mdata, vdst, va, vb]); omega)
  have e4 : decVOp (va w) = a := decVOp_of a _ (by (try simp only [mdata, vdst, va, vb]); omega)
  unfold decVCvtF
  simp only [e1, e2, e3, e4, need, decWin, decLevel, decPath, decBar, Fin.is_lt, dite_true, if_true, Fin.eta]
  (repeat rw [if_pos (by (try simp only [mflag1, mflag0, mflag1na, mflag0na, vj, only7, code03, jetOnly, dstOk, unguarded, Bool.and_eq_true, Bool.or_eq_true, beq_iff_eq, decide_eq_true_eq, Bool.not_eq_true', beq_eq_false_iff_ne, bne_iff_ne, ne_eq]); (try simp only [mdata, mimm, mbase, vcode, vdst, va, vb]); omega)])
  all_goals (cases op) <;> rfl

theorem decVNarrowF_enc (k : VNarrowF → Instr) (oc : Nat) (f : VNarrowF) : decVNarrowF k (oc * 2^31 + encVNarrowF f) = .ok (k f) := by
  obtain ⟨m, fmt, dst, a⟩ := f
  have h_m := m.isLt
  have h_fmt := encNarrow_lt fmt
  have h_dst := encVOp_lt dst
  have h_a := encVOp_lt a
  generalize hw : oc * 2^31 + encVNarrowF ⟨m, fmt, dst, a⟩ = w
  simp only [encVNarrowF] at hw
  have e1 : f3 w 25 = m := Fin.ext (by simp only [f3, f4, f5, f6, Fin.val_ofNat, vb, mdata, mimm]; omega)
  have e2 : vcode w = encNarrow fmt := by (try simp only [vcode, vdst, va, vb, mdata]); omega
  have e3 : decVOp (vdst w) = dst := decVOp_of dst _ (by (try simp only [mdata, vdst, va, vb]); omega)
  have e4 : decVOp (va w) = a := decVOp_of a _ (by (try simp only [mdata, vdst, va, vb]); omega)
  unfold decVNarrowF
  simp only [e1, e2, e3, e4, need, decWin, decLevel, decPath, decBar, Fin.is_lt, dite_true, if_true, Fin.eta]
  (repeat rw [if_pos (by (try simp only [mflag1, mflag0, mflag1na, mflag0na, vj, only7, code03, jetOnly, dstOk, unguarded, Bool.and_eq_true, Bool.or_eq_true, beq_iff_eq, decide_eq_true_eq, Bool.not_eq_true', beq_eq_false_iff_ne, bne_iff_ne, ne_eq]); (try simp only [mdata, mimm, mbase, vcode, vdst, va, vb]); omega)])
  all_goals (cases fmt) <;> rfl

theorem decVPackF_enc (k : VPackF → Instr) (oc : Nat) (f : VPackF) : decVPackF k (oc * 2^31 + encVPackF f) = .ok (k f) := by
  obtain ⟨m, op, dst, a, b⟩ := f
  have h_m := m.isLt
  have h_op := encPack_lt op
  have h_dst := encVOp_lt dst
  have h_a := encVOp_lt a
  have h_b := encVOp_lt b
  generalize hw : oc * 2^31 + encVPackF ⟨m, op, dst, a, b⟩ = w
  simp only [encVPackF] at hw
  have e1 : f3 w 25 = m := Fin.ext (by simp only [f3, f4, f5, f6, Fin.val_ofNat, vb, mdata, mimm]; omega)
  have e2 : vcode w = encPack op := by (try simp only [vcode, vdst, va, vb, mdata]); omega
  have e3 : decVOp (vdst w) = dst := decVOp_of dst _ (by (try simp only [mdata, vdst, va, vb]); omega)
  have e4 : decVOp (va w) = a := decVOp_of a _ (by (try simp only [mdata, vdst, va, vb]); omega)
  have e5 : decVOp (vb w) = b := decVOp_of b _ (by (try simp only [mdata, vdst, va, vb]); omega)
  unfold decVPackF
  simp only [e1, e2, e3, e4, e5, need, decWin, decLevel, decPath, decBar, Fin.is_lt, dite_true, if_true, Fin.eta]
  (repeat rw [if_pos (by (try simp only [mflag1, mflag0, mflag1na, mflag0na, vj, only7, code03, jetOnly, dstOk, unguarded, Bool.and_eq_true, Bool.or_eq_true, beq_iff_eq, decide_eq_true_eq, Bool.not_eq_true', beq_eq_false_iff_ne, bne_iff_ne, ne_eq]); (try simp only [mdata, mimm, mbase, vcode, vdst, va, vb]); omega)])
  all_goals (cases op) <;> rfl

theorem decVRedF_enc (k : VRedF → Instr) (oc : Nat) (f : VRedF) : decVRedF k (oc * 2^31 + encVRedF f) = .ok (k f) := by
  obtain ⟨m, op, dst, a⟩ := f
  have h_m := m.isLt
  have h_op := encRed_lt op
  have h_dst := encVOp_lt dst
  have h_a := encVOp_lt a
  generalize hw : oc * 2^31 + encVRedF ⟨m, op, dst, a⟩ = w
  simp only [encVRedF] at hw
  have e1 : f3 w 25 = m := Fin.ext (by simp only [f3, f4, f5, f6, Fin.val_ofNat, vb, mdata, mimm]; omega)
  have e2 : vcode w = encRed op := by (try simp only [vcode, vdst, va, vb, mdata]); omega
  have e3 : decVOp (vdst w) = dst := decVOp_of dst _ (by (try simp only [mdata, vdst, va, vb]); omega)
  have e4 : decVOp (va w) = a := decVOp_of a _ (by (try simp only [mdata, vdst, va, vb]); omega)
  unfold decVRedF
  simp only [e1, e2, e3, e4, need, decWin, decLevel, decPath, decBar, Fin.is_lt, dite_true, if_true, Fin.eta]
  (repeat rw [if_pos (by (try simp only [mflag1, mflag0, mflag1na, mflag0na, vj, only7, code03, jetOnly, dstOk, unguarded, Bool.and_eq_true, Bool.or_eq_true, beq_iff_eq, decide_eq_true_eq, Bool.not_eq_true', beq_eq_false_iff_ne, bne_iff_ne, ne_eq]); (try simp only [mdata, mimm, mbase, vcode, vdst, va, vb]); omega)])
  all_goals (cases op) <;> rfl

theorem decVBcstF_enc (k : VBcstF → Instr) (oc : Nat) (f : VBcstF) : decVBcstF k (oc * 2^31 + encVBcstF f) = .ok (k f) := by
  obtain ⟨m, dst, a⟩ := f
  have h_m := m.isLt
  have h_dst := encVOp_lt dst
  have h_a := encSOp_lt a
  generalize hw : oc * 2^31 + encVBcstF ⟨m, dst, a⟩ = w
  simp only [encVBcstF] at hw
  have e1 : f3 w 25 = m := Fin.ext (by simp only [f3, f4, f5, f6, Fin.val_ofNat, vb, mdata, mimm]; omega)
  have e2 : decVOp (vdst w) = dst := decVOp_of dst _ (by (try simp only [mdata, vdst, va, vb]); omega)
  have e3 : decSOp (va w) = a := decSOp_of a _ (by (try simp only [mbase, mdata, va]); omega)
  unfold decVBcstF
  simp only [e1, e2, e3, need, decWin, decLevel, decPath, decBar, Fin.is_lt, dite_true, if_true, Fin.eta]
  (repeat rw [if_pos (by (try simp only [mflag1, mflag0, mflag1na, mflag0na, vj, only7, code03, jetOnly, dstOk, unguarded, Bool.and_eq_true, Bool.or_eq_true, beq_iff_eq, decide_eq_true_eq, Bool.not_eq_true', beq_eq_false_iff_ne, bne_iff_ne, ne_eq]); (try simp only [mdata, mimm, mbase, vcode, vdst, va, vb]); omega)])

theorem decVExtF_enc (k : VExtF → Instr) (oc : Nat) (f : VExtF) : decVExtF k (oc * 2^31 + encVExtF f) = .ok (k f) := by
  obtain ⟨dst, a, lane⟩ := f
  have h_dst := dst.isLt
  have h_a := encVOp_lt a
  have h_lane := lane.isLt
  generalize hw : oc * 2^31 + encVExtF ⟨dst, a, lane⟩ = w
  simp only [encVExtF] at hw
  have e1 : f5 w 17 = dst := Fin.ext (by simp only [f3, f4, f5, f6, Fin.val_ofNat, vb, mdata, mimm]; omega)
  have e2 : decVOp (va w) = a := decVOp_of a _ (by (try simp only [mdata, vdst, va, vb]); omega)
  have e3 : Fin.ofNat 128 (w / 2) = lane := Fin.ext (by simp only [f3, f4, f5, f6, Fin.val_ofNat, vb, mdata, mimm]; omega)
  unfold decVExtF
  simp only [e1, e2, e3, need, decWin, decLevel, decPath, decBar, Fin.is_lt, dite_true, if_true, Fin.eta]
  (repeat rw [if_pos (by (try simp only [mflag1, mflag0, mflag1na, mflag0na, vj, only7, code03, jetOnly, dstOk, unguarded, Bool.and_eq_true, Bool.or_eq_true, beq_iff_eq, decide_eq_true_eq, Bool.not_eq_true', beq_eq_false_iff_ne, bne_iff_ne, ne_eq]); (try simp only [mdata, mimm, mbase, vcode, vdst, va, vb]); omega)])

theorem decVInsF_enc (k : VInsF → Instr) (oc : Nat) (f : VInsF) : decVInsF k (oc * 2^31 + encVInsF f) = .ok (k f) := by
  obtain ⟨dst, a, lane⟩ := f
  have h_dst := dst.isLt
  have h_a := encSOp_lt a
  have h_lane := lane.isLt
  generalize hw : oc * 2^31 + encVInsF ⟨dst, a, lane⟩ = w
  simp only [encVInsF] at hw
  have e1 : vdst w % 256 = dst.val := by (try simp only [vcode, vdst, va, vb, mdata]); omega
  have e2 : decSOp (va w) = a := decSOp_of a _ (by (try simp only [mbase, mdata, va]); omega)
  have e3 : Fin.ofNat 128 (w / 2) = lane := Fin.ext (by simp only [f3, f4, f5, f6, Fin.val_ofNat, vb, mdata, mimm]; omega)
  unfold decVInsF
  simp only [e1, e2, e3, need, decWin, decLevel, decPath, decBar, Fin.is_lt, dite_true, if_true, Fin.eta]
  (repeat rw [if_pos (by (try simp only [mflag1, mflag0, mflag1na, mflag0na, vj, only7, code03, jetOnly, dstOk, unguarded, Bool.and_eq_true, Bool.or_eq_true, beq_iff_eq, decide_eq_true_eq, Bool.not_eq_true', beq_eq_false_iff_ne, bne_iff_ne, ne_eq]); (try simp only [mdata, mimm, mbase, vcode, vdst, va, vb]); omega)])

theorem decVPermF_enc (k : VPermF → Instr) (oc : Nat) (f : VPermF) : decVPermF k (oc * 2^31 + encVPermF f) = .ok (k f) := by
  obtain ⟨m, dst, a, b⟩ := f
  have h_m := m.isLt
  have h_dst := encVOp_lt dst
  have h_a := encVOp_lt a
  have h_b := encVOp_lt b
  generalize hw : oc * 2^31 + encVPermF ⟨m, dst, a, b⟩ = w
  simp only [encVPermF] at hw
  have e1 : f3 w 25 = m := Fin.ext (by simp only [f3, f4, f5, f6, Fin.val_ofNat, vb, mdata, mimm]; omega)
  have e2 : decVOp (vdst w) = dst := decVOp_of dst _ (by (try simp only [mdata, vdst, va, vb]); omega)
  have e3 : decVOp (va w) = a := decVOp_of a _ (by (try simp only [mdata, vdst, va, vb]); omega)
  have e4 : decVOp (vb w) = b := decVOp_of b _ (by (try simp only [mdata, vdst, va, vb]); omega)
  unfold decVPermF
  simp only [e1, e2, e3, e4, need, decWin, decLevel, decPath, decBar, Fin.is_lt, dite_true, if_true, Fin.eta]
  (repeat rw [if_pos (by (try simp only [mflag1, mflag0, mflag1na, mflag0na, vj, only7, code03, jetOnly, dstOk, unguarded, Bool.and_eq_true, Bool.or_eq_true, beq_iff_eq, decide_eq_true_eq, Bool.not_eq_true', beq_eq_false_iff_ne, bne_iff_ne, ne_eq]); (try simp only [mdata, mimm, mbase, vcode, vdst, va, vb]); omega)])

theorem decVHistF_enc (k : VHistF → Instr) (oc : Nat) (f : VHistF) : decVHistF k (oc * 2^31 + encVHistF f) = .ok (k f) := by
  obtain ⟨m, d, a, b⟩ := f
  have h_m := m.isLt
  have h_d := d.isLt
  have h_a := encVOp_lt a
  have h_b := encVOp_lt b
  generalize hw : oc * 2^31 + encVHistF ⟨m, d, a, b⟩ = w
  simp only [encVHistF] at hw
  have e1 : f3 w 25 = m := Fin.ext (by simp only [f3, f4, f5, f6, Fin.val_ofNat, vb, mdata, mimm]; omega)
  have e2 : vdst w % 256 = d.val := by (try simp only [vcode, vdst, va, vb, mdata]); omega
  have e3 : decVOp (va w) = a := decVOp_of a _ (by (try simp only [mdata, vdst, va, vb]); omega)
  have e4 : decVOp (vb w) = b := decVOp_of b _ (by (try simp only [mdata, vdst, va, vb]); omega)
  unfold decVHistF
  simp only [e1, e2, e3, e4, need, decWin, decLevel, decPath, decBar, Fin.is_lt, dite_true, if_true, Fin.eta]
  (repeat rw [if_pos (by (try simp only [mflag1, mflag0, mflag1na, mflag0na, vj, only7, code03, jetOnly, dstOk, unguarded, Bool.and_eq_true, Bool.or_eq_true, beq_iff_eq, decide_eq_true_eq, Bool.not_eq_true', beq_eq_false_iff_ne, bne_iff_ne, ne_eq]); (try simp only [mdata, mimm, mbase, vcode, vdst, va, vb]); omega)])

theorem decVBmrgF_enc (k : VBmrgF → Instr) (oc : Nat) (f : VBmrgF) : decVBmrgF k (oc * 2^31 + encVBmrgF f) = .ok (k f) := by
  obtain ⟨m, dst, a⟩ := f
  have h_m := m.isLt
  have h_dst := encVOp_lt dst
  have h_a := a.isLt
  generalize hw : oc * 2^31 + encVBmrgF ⟨m, dst, a⟩ = w
  simp only [encVBmrgF] at hw
  have e1 : f3 w 25 = m := Fin.ext (by simp only [f3, f4, f5, f6, Fin.val_ofNat, vb, mdata, mimm]; omega)
  have e2 : decVOp (vdst w) = dst := decVOp_of dst _ (by (try simp only [mdata, vdst, va, vb]); omega)
  have e3 : va w % 256 = a.val := by (try simp only [vcode, vdst, va, vb, mdata]); omega
  unfold decVBmrgF
  simp only [e1, e2, e3, need, decWin, decLevel, decPath, decBar, Fin.is_lt, dite_true, if_true, Fin.eta]
  (repeat rw [if_pos (by (try simp only [mflag1, mflag0, mflag1na, mflag0na, vj, only7, code03, jetOnly, dstOk, unguarded, Bool.and_eq_true, Bool.or_eq_true, beq_iff_eq, decide_eq_true_eq, Bool.not_eq_true', beq_eq_false_iff_ne, bne_iff_ne, ne_eq]); (try simp only [mdata, mimm, mbase, vcode, vdst, va, vb]); omega)])

theorem decVArgF_enc (k : VArgF → Instr) (oc : Nat) (f : VArgF) : decVArgF k (oc * 2^31 + encVArgF f) = .ok (k f) := by
  obtain ⟨m, int, dst, a, b⟩ := f
  have h_m := m.isLt
  obtain ⟨n_int, l_int, d_int, i_int⟩ := bool_form int
  have h_dst := dst.isLt
  have h_a := encVOp_lt a
  have h_b := encVOp_lt b
  generalize hw : oc * 2^31 + encVArgF ⟨m, int, dst, a, b⟩ = w
  simp only [encVArgF, i_int] at hw
  have e1 : f3 w 25 = m := Fin.ext (by simp only [f3, f4, f5, f6, Fin.val_ofNat, vb, mdata, mimm]; omega)
  have e2 : vdst w % 256 = dst.val := by (try simp only [vcode, vdst, va, vb, mdata]); omega
  have e3 : decVOp (va w) = a := decVOp_of a _ (by (try simp only [mdata, vdst, va, vb]); omega)
  have e4 : decVOp (vb w) = b := decVOp_of b _ (by (try simp only [mdata, vdst, va, vb]); omega)
  have e5 : (vcode w == 3) = int := by
    rw [d_int]; simp only [vcode]
    rcases (show n_int = 0 ∨ n_int = 1 by omega) with rfl | rfl
    · rw [show w / 2^28 % 8 = 0 by omega]; rfl
    · rw [show w / 2^28 % 8 = 3 by omega]; rfl
  have c03 : code03 w = true := by
    have hv : w / 2^28 % 8 = 3 * n_int := by omega
    simp only [code03, vj, vcode, hv, Bool.and_eq_true, Bool.or_eq_true, beq_iff_eq, Bool.not_eq_true', beq_eq_false_iff_ne, ne_eq]
    omega
  unfold decVArgF
  simp only [e1, e2, e3, e4, e5, c03, need, decWin, decLevel, decPath, decBar, Fin.is_lt, dite_true, if_true, Fin.eta]
  (repeat rw [if_pos (by (try simp only [mflag1, mflag0, mflag1na, mflag0na, vj, only7, code03, jetOnly, dstOk, unguarded, Bool.and_eq_true, Bool.or_eq_true, beq_iff_eq, decide_eq_true_eq, Bool.not_eq_true', beq_eq_false_iff_ne, bne_iff_ne, ne_eq]); (try simp only [mdata, mimm, mbase, vcode, vdst, va, vb]); omega)])

theorem decVBcxF_enc (k : VBcxF → Instr) (oc : Nat) (f : VBcxF) (hk : 1 ≤ f.k.val) : decVBcxF k (oc * 2^31 + encVBcxF f) = .ok (k f) := by
  obtain ⟨int, dst, a, j, kk, desc⟩ := f
  obtain ⟨n_int, l_int, d_int, i_int⟩ := bool_form int
  have h_dst := dst.isLt
  have h_a := a.isLt
  have h_j := j.isLt
  have h_kk := kk.isLt
  obtain ⟨n_desc, l_desc, d_desc, i_desc⟩ := bool_form desc
  simp only at hk
  generalize hw : oc * 2^31 + encVBcxF ⟨int, dst, a, j, kk, desc⟩ = w
  simp only [encVBcxF, i_int, i_desc] at hw
  have e1 : vdst w % 256 = dst.val := by (try simp only [vcode, vdst, va, vb, mdata]); omega
  have e2 : va w % 256 = a.val := by (try simp only [vcode, vdst, va, vb, mdata]); omega
  have e3 : f3 w 1 = j := Fin.ext (by simp only [f3, f4, f5, f6, Fin.val_ofNat, vb, mdata, mimm]; omega)
  have e4 : Fin.ofNat 8 (vb w / 16 % 8 + 1) = kk := Fin.ext (by simp only [f3, f4, f5, f6, Fin.val_ofNat, vb, mdata, mimm]; omega)
  have e5 : (vcode w == 3) = int := by
    rw [d_int]; simp only [vcode]
    rcases (show n_int = 0 ∨ n_int = 1 by omega) with rfl | rfl
    · rw [show w / 2^28 % 8 = 0 by omega]; rfl
    · rw [show w / 2^28 % 8 = 3 by omega]; rfl
  have e6 : (vb w / 128 == 1) = desc := by rw [d_desc]; simp only [vb]; exact congrArg (· == 1) (by omega)
  have c03 : code03 w = true := by
    have hv : w / 2^28 % 8 = 3 * n_int := by omega
    simp only [code03, vj, vcode, hv, Bool.and_eq_true, Bool.or_eq_true, beq_iff_eq, Bool.not_eq_true', beq_eq_false_iff_ne, ne_eq]
    omega
  unfold decVBcxF
  simp only [e1, e2, e3, e4, e5, e6, c03, need, decWin, decLevel, decPath, decBar, Fin.is_lt, dite_true, if_true, Fin.eta]
  (repeat rw [if_pos (by (try simp only [mflag1, mflag0, mflag1na, mflag0na, vj, only7, code03, jetOnly, dstOk, unguarded, Bool.and_eq_true, Bool.or_eq_true, beq_iff_eq, decide_eq_true_eq, Bool.not_eq_true', beq_eq_false_iff_ne, bne_iff_ne, ne_eq]); (try simp only [mdata, mimm, mbase, vcode, vdst, va, vb]); omega)])

theorem decJBin_enc (k : JBin → Instr) (oc : Nat) (f : JBin) : decJBin k (oc * 2^31 + encJBin f) = .ok (k f) := by
  obtain ⟨m, dst, a, b⟩ := f
  have h_m := m.isLt
  have h_dst := dst.isLt
  have h_a := a.isLt
  have h_b := b.isLt
  generalize hw : oc * 2^31 + encJBin ⟨m, dst, a, b⟩ = w
  simp only [encJBin] at hw
  have e1 : f3 w 25 = m := Fin.ext (by simp only [f3, f4, f5, f6, Fin.val_ofNat, vb, mdata, mimm]; omega)
  have e2 : vdst w % 256 = dst.val := by (try simp only [vcode, vdst, va, vb, mdata]); omega
  have e3 : va w % 256 = a.val := by (try simp only [vcode, vdst, va, vb, mdata]); omega
  have e4 : vb w % 256 = b.val := by (try simp only [vcode, vdst, va, vb, mdata]); omega
  unfold decJBin
  simp only [e1, e2, e3, e4, need, decWin, decLevel, decPath, decBar, Fin.is_lt, dite_true, if_true, Fin.eta]
  (repeat rw [if_pos (by (try simp only [mflag1, mflag0, mflag1na, mflag0na, vj, only7, code03, jetOnly, dstOk, unguarded, Bool.and_eq_true, Bool.or_eq_true, beq_iff_eq, decide_eq_true_eq, Bool.not_eq_true', beq_eq_false_iff_ne, bne_iff_ne, ne_eq]); (try simp only [mdata, mimm, mbase, vcode, vdst, va, vb]); omega)])

theorem decJUn_enc (k : JUn → Instr) (oc : Nat) (f : JUn) : decJUn k (oc * 2^31 + encJUn f) = .ok (k f) := by
  obtain ⟨m, dst, a⟩ := f
  have h_m := m.isLt
  have h_dst := dst.isLt
  have h_a := a.isLt
  generalize hw : oc * 2^31 + encJUn ⟨m, dst, a⟩ = w
  simp only [encJUn] at hw
  have e1 : f3 w 25 = m := Fin.ext (by simp only [f3, f4, f5, f6, Fin.val_ofNat, vb, mdata, mimm]; omega)
  have e2 : vdst w % 256 = dst.val := by (try simp only [vcode, vdst, va, vb, mdata]); omega
  have e3 : va w % 256 = a.val := by (try simp only [vcode, vdst, va, vb, mdata]); omega
  unfold decJUn
  simp only [e1, e2, e3, need, decWin, decLevel, decPath, decBar, Fin.is_lt, dite_true, if_true, Fin.eta]
  (repeat rw [if_pos (by (try simp only [mflag1, mflag0, mflag1na, mflag0na, vj, only7, code03, jetOnly, dstOk, unguarded, Bool.and_eq_true, Bool.or_eq_true, beq_iff_eq, decide_eq_true_eq, Bool.not_eq_true', beq_eq_false_iff_ne, bne_iff_ne, ne_eq]); (try simp only [mdata, mimm, mbase, vcode, vdst, va, vb]); omega)])

theorem decJIdx_enc (k : JIdx → Instr) (oc : Nat) (f : JIdx) : decJIdx k (oc * 2^31 + encJIdx f) = .ok (k f) := by
  obtain ⟨m, dst, a, i⟩ := f
  have h_m := m.isLt
  have h_dst := dst.isLt
  have h_a := a.isLt
  have h_i := i.isLt
  generalize hw : oc * 2^31 + encJIdx ⟨m, dst, a, i⟩ = w
  simp only [encJIdx] at hw
  have e1 : f3 w 25 = m := Fin.ext (by simp only [f3, f4, f5, f6, Fin.val_ofNat, vb, mdata, mimm]; omega)
  have e2 : vdst w % 256 = dst.val := by (try simp only [vcode, vdst, va, vb, mdata]); omega
  have e3 : va w % 256 = a.val := by (try simp only [vcode, vdst, va, vb, mdata]); omega
  have e4 : f3 w 1 = i := Fin.ext (by simp only [f3, f4, f5, f6, Fin.val_ofNat, vb, mdata, mimm]; omega)
  unfold decJIdx
  simp only [e1, e2, e3, e4, need, decWin, decLevel, decPath, decBar, Fin.is_lt, dite_true, if_true, Fin.eta]
  (repeat rw [if_pos (by (try simp only [mflag1, mflag0, mflag1na, mflag0na, vj, only7, code03, jetOnly, dstOk, unguarded, Bool.and_eq_true, Bool.or_eq_true, beq_iff_eq, decide_eq_true_eq, Bool.not_eq_true', beq_eq_false_iff_ne, bne_iff_ne, ne_eq]); (try simp only [mdata, mimm, mbase, vcode, vdst, va, vb]); omega)])

theorem decJDerF_enc (k : JDerF → Instr) (oc : Nat) (f : JDerF) : decJDerF k (oc * 2^31 + encJDerF f) = .ok (k f) := by
  obtain ⟨m, dst, a, inv⟩ := f
  have h_m := m.isLt
  have h_dst := dst.isLt
  have h_a := a.isLt
  obtain ⟨n_inv, l_inv, d_inv, i_inv⟩ := bool_form inv
  generalize hw : oc * 2^31 + encJDerF ⟨m, dst, a, inv⟩ = w
  simp only [encJDerF, i_inv] at hw
  have e1 : f3 w 25 = m := Fin.ext (by simp only [f3, f4, f5, f6, Fin.val_ofNat, vb, mdata, mimm]; omega)
  have e2 : vdst w % 256 = dst.val := by (try simp only [vcode, vdst, va, vb, mdata]); omega
  have e3 : va w % 256 = a.val := by (try simp only [vcode, vdst, va, vb, mdata]); omega
  have e4 : b1 w 1 = inv := by rw [d_inv]; simp only [b1, vj]; exact congrArg (· == 1) (by omega)
  unfold decJDerF
  simp only [e1, e2, e3, e4, need, decWin, decLevel, decPath, decBar, Fin.is_lt, dite_true, if_true, Fin.eta]
  (repeat rw [if_pos (by (try simp only [mflag1, mflag0, mflag1na, mflag0na, vj, only7, code03, jetOnly, dstOk, unguarded, Bool.and_eq_true, Bool.or_eq_true, beq_iff_eq, decide_eq_true_eq, Bool.not_eq_true', beq_eq_false_iff_ne, bne_iff_ne, ne_eq]); (try simp only [mdata, mimm, mbase, vcode, vdst, va, vb]); omega)])

theorem decJShiftF_enc (k : JShiftF → Instr) (oc : Nat) (f : JShiftF) : decJShiftF k (oc * 2^31 + encJShiftF f) = .ok (k f) := by
  obtain ⟨m, dst, a, up, s⟩ := f
  have h_m := m.isLt
  have h_dst := dst.isLt
  have h_a := a.isLt
  obtain ⟨n_up, l_up, d_up, i_up⟩ := bool_form up
  have h_s := s.isLt
  generalize hw : oc * 2^31 + encJShiftF ⟨m, dst, a, up, s⟩ = w
  simp only [encJShiftF, i_up] at hw
  have e1 : f3 w 25 = m := Fin.ext (by simp only [f3, f4, f5, f6, Fin.val_ofNat, vb, mdata, mimm]; omega)
  have e2 : vdst w % 256 = dst.val := by (try simp only [vcode, vdst, va, vb, mdata]); omega
  have e3 : va w % 256 = a.val := by (try simp only [vcode, vdst, va, vb, mdata]); omega
  have e4 : f3 w 1 = s := Fin.ext (by simp only [f3, f4, f5, f6, Fin.val_ofNat, vb, mdata, mimm]; omega)
  have e5 : (vb w / 128 == 1) = up := by rw [d_up]; simp only [vb]; exact congrArg (· == 1) (by omega)
  unfold decJShiftF
  simp only [e1, e2, e3, e4, e5, need, decWin, decLevel, decPath, decBar, Fin.is_lt, dite_true, if_true, Fin.eta]
  (repeat rw [if_pos (by (try simp only [mflag1, mflag0, mflag1na, mflag0na, vj, only7, code03, jetOnly, dstOk, unguarded, Bool.and_eq_true, Bool.or_eq_true, beq_iff_eq, decide_eq_true_eq, Bool.not_eq_true', beq_eq_false_iff_ne, bne_iff_ne, ne_eq]); (try simp only [mdata, mimm, mbase, vcode, vdst, va, vb]); omega)])

theorem decJPowF_enc (k : JPowF → Instr) (oc : Nat) (f : JPowF) : decJPowF k (oc * 2^31 + encJPowF f) = .ok (k f) := by
  obtain ⟨m, dst, a, p⟩ := f
  have h_m := m.isLt
  have h_dst := dst.isLt
  have h_a := a.isLt
  have h_p := p.isLt
  generalize hw : oc * 2^31 + encJPowF ⟨m, dst, a, p⟩ = w
  simp only [encJPowF] at hw
  have e1 : f3 w 25 = m := Fin.ext (by simp only [f3, f4, f5, f6, Fin.val_ofNat, vb, mdata, mimm]; omega)
  have e2 : vdst w % 256 = dst.val := by (try simp only [vcode, vdst, va, vb, mdata]); omega
  have e3 : va w % 256 = a.val := by (try simp only [vcode, vdst, va, vb, mdata]); omega
  have e4 : BitVec.ofNat 8 (vb w) = p := BitVec.eq_of_toNat_eq (by simp only [imm16, imm24, mimm, vb, BitVec.toNat_ofNat]; omega)
  unfold decJPowF
  simp only [e1, e2, e3, e4, need, decWin, decLevel, decPath, decBar, Fin.is_lt, dite_true, if_true, Fin.eta]
  (repeat rw [if_pos (by (try simp only [mflag1, mflag0, mflag1na, mflag0na, vj, only7, code03, jetOnly, dstOk, unguarded, Bool.and_eq_true, Bool.or_eq_true, beq_iff_eq, decide_eq_true_eq, Bool.not_eq_true', beq_eq_false_iff_ne, bne_iff_ne, ne_eq]); (try simp only [mdata, mimm, mbase, vcode, vdst, va, vb]); omega)])

theorem decFForm_enc (k : FForm → Instr) (oc : Nat) (f : FForm) : decFForm k (oc * 2^26 + encFForm f) = .ok (k f) := by
  obtain ⟨m, ty, level, rnd, j, dst, src⟩ := f
  have h_m := m.isLt
  have h_ty := encFTy_lt ty
  have h_level := level.isLt
  have h_rnd := encFRnd_lt rnd
  obtain ⟨n_j, l_j, d_j, i_j⟩ := bool_form j
  have h_dst := encVOp_lt dst
  have h_src := encVOp_lt src
  generalize hw : oc * 2^26 + encFForm ⟨m, ty, level, rnd, j, dst, src⟩ = w
  simp only [encFForm, i_j] at hw
  have e1 : f3 w 23 = m := Fin.ext (by simp only [f3, f4, f5, f6, Fin.val_ofNat, vb, mdata, mimm]; omega)
  have e2 : b1 w 6 = j := by rw [d_j]; simp only [b1, vj]; exact congrArg (· == 1) (by omega)
  have e3 : decVOp (w / 2^15) = dst := decVOp_of dst _ (by (try simp only [mdata, vdst, va, vb]); omega)
  have e4 : decVOp (w / 2^7) = src := decVOp_of src _ (by (try simp only [mdata, vdst, va, vb]); omega)
  have e5 : w / 16 % 4 = encFTy ty := by (try simp only [vcode, vdst, va, vb, mdata]); omega
  have e6 : Fin.ofNat 3 (w / 4 % 4) = level := Fin.ext (by simp only [f3, f4, f5, f6, Fin.val_ofNat, vb, mdata, mimm]; omega)
  have e7 : w % 4 = encFRnd rnd := by (try simp only [vcode, vdst, va, vb, mdata]); omega
  unfold decFForm
  simp only [e1, e2, e3, e4, e5, e6, e7, need, decWin, decLevel, decPath, decBar, Fin.is_lt, dite_true, if_true, Fin.eta]
  (repeat rw [if_pos (by (try simp only [mflag1, mflag0, mflag1na, mflag0na, vj, only7, code03, jetOnly, dstOk, unguarded, Bool.and_eq_true, Bool.or_eq_true, beq_iff_eq, decide_eq_true_eq, Bool.not_eq_true', beq_eq_false_iff_ne, bne_iff_ne, ne_eq]); (try simp only [mdata, mimm, mbase, vcode, vdst, va, vb]); omega)])
  all_goals (cases ty <;> cases rnd) <;> rfl

theorem decMLd_enc (k : MLd → Instr) (oc : Nat) (f : MLd) : decMLd k (oc * 2^48 + encMLd f) = .ok (k f) := by
  obtain ⟨p, dst, base, imm, na⟩ := f
  have h_p := p.isLt
  have h_dst := dst.isLt
  have h_base := encSOp_lt base
  have h_imm := imm.isLt
  obtain ⟨n_na, l_na, d_na, i_na⟩ := bool_form na
  generalize hw : oc * 2^48 + encMLd ⟨p, dst, base, imm, na⟩ = w
  simp only [encMLd, i_na] at hw
  have e1 : f3 w 45 = p := Fin.ext (by simp only [f3, f4, f5, f6, Fin.val_ofNat, vb, mdata, mimm]; omega)
  have e2 : f5 w 37 = dst := Fin.ext (by simp only [f3, f4, f5, f6, Fin.val_ofNat, vb, mdata, mimm]; omega)
  have e3 : decSOp (mbase w) = base := decSOp_of base _ (by (try simp only [mbase, mdata, va]); omega)
  have e4 : imm24 w = imm := BitVec.eq_of_toNat_eq (by simp only [imm16, imm24, mimm, vb, BitVec.toNat_ofNat]; omega)
  have e5 : b1 w 4 = na := by rw [d_na]; simp only [b1, vj]; exact congrArg (· == 1) (by omega)
  unfold decMLd
  simp only [e1, e2, e3, e4, e5, need, decWin, decLevel, decPath, decBar, Fin.is_lt, dite_true, if_true, Fin.eta]
  (repeat rw [if_pos (by (try simp only [mflag1, mflag0, mflag1na, mflag0na, vj, only7, code03, jetOnly, dstOk, unguarded, Bool.and_eq_true, Bool.or_eq_true, beq_iff_eq, decide_eq_true_eq, Bool.not_eq_true', beq_eq_false_iff_ne, bne_iff_ne, ne_eq]); (try simp only [mdata, mimm, mbase, vcode, vdst, va, vb]); omega)])

theorem decMSt_enc (k : MSt → Instr) (oc : Nat) (f : MSt) : decMSt k (oc * 2^48 + encMSt f) = .ok (k f) := by
  obtain ⟨p, data, base, imm, na⟩ := f
  have h_p := p.isLt
  have h_data := encSOp_lt data
  have h_base := encSOp_lt base
  have h_imm := imm.isLt
  obtain ⟨n_na, l_na, d_na, i_na⟩ := bool_form na
  generalize hw : oc * 2^48 + encMSt ⟨p, data, base, imm, na⟩ = w
  simp only [encMSt, i_na] at hw
  have e1 : f3 w 45 = p := Fin.ext (by simp only [f3, f4, f5, f6, Fin.val_ofNat, vb, mdata, mimm]; omega)
  have e2 : decSOp (mdata w) = data := decSOp_of data _ (by (try simp only [mbase, mdata, va]); omega)
  have e3 : decSOp (mbase w) = base := decSOp_of base _ (by (try simp only [mbase, mdata, va]); omega)
  have e4 : imm24 w = imm := BitVec.eq_of_toNat_eq (by simp only [imm16, imm24, mimm, vb, BitVec.toNat_ofNat]; omega)
  have e5 : b1 w 4 = na := by rw [d_na]; simp only [b1, vj]; exact congrArg (· == 1) (by omega)
  unfold decMSt
  simp only [e1, e2, e3, e4, e5, need, decWin, decLevel, decPath, decBar, Fin.is_lt, dite_true, if_true, Fin.eta]
  (repeat rw [if_pos (by (try simp only [mflag1, mflag0, mflag1na, mflag0na, vj, only7, code03, jetOnly, dstOk, unguarded, Bool.and_eq_true, Bool.or_eq_true, beq_iff_eq, decide_eq_true_eq, Bool.not_eq_true', beq_eq_false_iff_ne, bne_iff_ne, ne_eq]); (try simp only [mdata, mimm, mbase, vcode, vdst, va, vb]); omega)])

theorem decMVec_enc (k : MVec → Instr) (oc : Nat) (f : MVec) : decMVec k (oc * 2^48 + encMVec f) = .ok (k f) := by
  obtain ⟨m, reg, base, imm, na⟩ := f
  have h_m := m.isLt
  have h_reg := reg.isLt
  have h_base := encSOp_lt base
  have h_imm := imm.isLt
  obtain ⟨n_na, l_na, d_na, i_na⟩ := bool_form na
  generalize hw : oc * 2^48 + encMVec ⟨m, reg, base, imm, na⟩ = w
  simp only [encMVec, i_na] at hw
  have e1 : f3 w 45 = m := Fin.ext (by simp only [f3, f4, f5, f6, Fin.val_ofNat, vb, mdata, mimm]; omega)
  have e2 : mdata w % 256 = reg.val := by (try simp only [vcode, vdst, va, vb, mdata]); omega
  have e3 : decSOp (mbase w) = base := decSOp_of base _ (by (try simp only [mbase, mdata, va]); omega)
  have e4 : imm24 w = imm := BitVec.eq_of_toNat_eq (by simp only [imm16, imm24, mimm, vb, BitVec.toNat_ofNat]; omega)
  have e5 : b1 w 4 = na := by rw [d_na]; simp only [b1, vj]; exact congrArg (· == 1) (by omega)
  unfold decMVec
  simp only [e1, e2, e3, e4, e5, need, decWin, decLevel, decPath, decBar, Fin.is_lt, dite_true, if_true, Fin.eta]
  (repeat rw [if_pos (by (try simp only [mflag1, mflag0, mflag1na, mflag0na, vj, only7, code03, jetOnly, dstOk, unguarded, Bool.and_eq_true, Bool.or_eq_true, beq_iff_eq, decide_eq_true_eq, Bool.not_eq_true', beq_eq_false_iff_ne, bne_iff_ne, ne_eq]); (try simp only [mdata, mimm, mbase, vcode, vdst, va, vb]); omega)])

theorem decMAddr_enc (k : MAddr → Instr) (oc : Nat) (f : MAddr) : decMAddr k (oc * 2^48 + encMAddr f) = .ok (k f) := by
  obtain ⟨p, base, imm⟩ := f
  have h_p := p.isLt
  have h_base := encSOp_lt base
  have h_imm := imm.isLt
  generalize hw : oc * 2^48 + encMAddr ⟨p, base, imm⟩ = w
  simp only [encMAddr] at hw
  have e1 : f3 w 45 = p := Fin.ext (by simp only [f3, f4, f5, f6, Fin.val_ofNat, vb, mdata, mimm]; omega)
  have e2 : decSOp (mbase w) = base := decSOp_of base _ (by (try simp only [mbase, mdata, va]); omega)
  have e3 : imm24 w = imm := BitVec.eq_of_toNat_eq (by simp only [imm16, imm24, mimm, vb, BitVec.toNat_ofNat]; omega)
  unfold decMAddr
  simp only [e1, e2, e3, need, decWin, decLevel, decPath, decBar, Fin.is_lt, dite_true, if_true, Fin.eta]
  (repeat rw [if_pos (by (try simp only [mflag1, mflag0, mflag1na, mflag0na, vj, only7, code03, jetOnly, dstOk, unguarded, Bool.and_eq_true, Bool.or_eq_true, beq_iff_eq, decide_eq_true_eq, Bool.not_eq_true', beq_eq_false_iff_ne, bne_iff_ne, ne_eq]); (try simp only [mdata, mimm, mbase, vcode, vdst, va, vb]); omega)])

theorem decMBind_enc (k : MBind → Instr) (oc : Nat) (f : MBind) : decMBind k (oc * 2^48 + encMBind f) = .ok (k f) := by
  obtain ⟨z, base, imm⟩ := f
  have h_z := z.isLt
  have h_base := encSOp_lt base
  have h_imm := imm.isLt
  generalize hw : oc * 2^48 + encMBind ⟨z, base, imm⟩ = w
  simp only [encMBind] at hw
  have e1 : f3 w 37 = z := Fin.ext (by simp only [f3, f4, f5, f6, Fin.val_ofNat, vb, mdata, mimm]; omega)
  have e2 : decSOp (mbase w) = base := decSOp_of base _ (by (try simp only [mbase, mdata, va]); omega)
  have e3 : imm24 w = imm := BitVec.eq_of_toNat_eq (by simp only [imm16, imm24, mimm, vb, BitVec.toNat_ofNat]; omega)
  unfold decMBind
  simp only [e1, e2, e3, need, decWin, decLevel, decPath, decBar, Fin.is_lt, dite_true, if_true, Fin.eta]
  (repeat rw [if_pos (by (try simp only [mflag1, mflag0, mflag1na, mflag0na, vj, only7, code03, jetOnly, dstOk, unguarded, Bool.and_eq_true, Bool.or_eq_true, beq_iff_eq, decide_eq_true_eq, Bool.not_eq_true', beq_eq_false_iff_ne, bne_iff_ne, ne_eq]); (try simp only [mdata, mimm, mbase, vcode, vdst, va, vb]); omega)])

theorem decMSpos_enc (k : MSpos → Instr) (oc : Nat) (f : MSpos) : decMSpos k (oc * 2^48 + encMSpos f) = .ok (k f) := by
  obtain ⟨p, dst, z⟩ := f
  have h_p := p.isLt
  have h_dst := dst.isLt
  have h_z := z.isLt
  generalize hw : oc * 2^48 + encMSpos ⟨p, dst, z⟩ = w
  simp only [encMSpos] at hw
  have e1 : f3 w 45 = p := Fin.ext (by simp only [f3, f4, f5, f6, Fin.val_ofNat, vb, mdata, mimm]; omega)
  have e2 : f5 w 37 = dst := Fin.ext (by simp only [f3, f4, f5, f6, Fin.val_ofNat, vb, mdata, mimm]; omega)
  have e3 : f3 w 7 = z := Fin.ext (by simp only [f3, f4, f5, f6, Fin.val_ofNat, vb, mdata, mimm]; omega)
  unfold decMSpos
  simp only [e1, e2, e3, need, decWin, decLevel, decPath, decBar, Fin.is_lt, dite_true, if_true, Fin.eta]
  (repeat rw [if_pos (by (try simp only [mflag1, mflag0, mflag1na, mflag0na, vj, only7, code03, jetOnly, dstOk, unguarded, Bool.and_eq_true, Bool.or_eq_true, beq_iff_eq, decide_eq_true_eq, Bool.not_eq_true', beq_eq_false_iff_ne, bne_iff_ne, ne_eq]); (try simp only [mdata, mimm, mbase, vcode, vdst, va, vb]); omega)])

theorem decMDesc_enc (k : MDesc → Instr) (oc : Nat) (f : MDesc) : decMDesc k (oc * 2^48 + encMDesc f) = .ok (k f) := by
  obtain ⟨p, dst, base, imm⟩ := f
  have h_p := p.isLt
  have h_dst := dst.isLt
  have h_base := encSOp_lt base
  have h_imm := imm.isLt
  generalize hw : oc * 2^48 + encMDesc ⟨p, dst, base, imm⟩ = w
  simp only [encMDesc] at hw
  have e1 : f3 w 45 = p := Fin.ext (by simp only [f3, f4, f5, f6, Fin.val_ofNat, vb, mdata, mimm]; omega)
  have e2 : f5 w 37 = dst := Fin.ext (by simp only [f3, f4, f5, f6, Fin.val_ofNat, vb, mdata, mimm]; omega)
  have e3 : decSOp (mbase w) = base := decSOp_of base _ (by (try simp only [mbase, mdata, va]); omega)
  have e4 : imm24 w = imm := BitVec.eq_of_toNat_eq (by simp only [imm16, imm24, mimm, vb, BitVec.toNat_ofNat]; omega)
  unfold decMDesc
  simp only [e1, e2, e3, e4, need, decWin, decLevel, decPath, decBar, Fin.is_lt, dite_true, if_true, Fin.eta]
  (repeat rw [if_pos (by (try simp only [mflag1, mflag0, mflag1na, mflag0na, vj, only7, code03, jetOnly, dstOk, unguarded, Bool.and_eq_true, Bool.or_eq_true, beq_iff_eq, decide_eq_true_eq, Bool.not_eq_true', beq_eq_false_iff_ne, bne_iff_ne, ne_eq]); (try simp only [mdata, mimm, mbase, vcode, vdst, va, vb]); omega)])

theorem decMMigr_enc (k : MMigr → Instr) (oc : Nat) (f : MMigr) : decMMigr k (oc * 2^48 + encMMigr f) = .ok (k f) := by
  obtain ⟨p, t, base, imm⟩ := f
  have h_p := p.isLt
  have h_t := encSOp_lt t
  have h_base := encSOp_lt base
  have h_imm := imm.isLt
  generalize hw : oc * 2^48 + encMMigr ⟨p, t, base, imm⟩ = w
  simp only [encMMigr] at hw
  have e1 : f3 w 45 = p := Fin.ext (by simp only [f3, f4, f5, f6, Fin.val_ofNat, vb, mdata, mimm]; omega)
  have e2 : decSOp (mdata w) = t := decSOp_of t _ (by (try simp only [mbase, mdata, va]); omega)
  have e3 : decSOp (mbase w) = base := decSOp_of base _ (by (try simp only [mbase, mdata, va]); omega)
  have e4 : imm24 w = imm := BitVec.eq_of_toNat_eq (by simp only [imm16, imm24, mimm, vb, BitVec.toNat_ofNat]; omega)
  unfold decMMigr
  simp only [e1, e2, e3, e4, need, decWin, decLevel, decPath, decBar, Fin.is_lt, dite_true, if_true, Fin.eta]
  (repeat rw [if_pos (by (try simp only [mflag1, mflag0, mflag1na, mflag0na, vj, only7, code03, jetOnly, dstOk, unguarded, Bool.and_eq_true, Bool.or_eq_true, beq_iff_eq, decide_eq_true_eq, Bool.not_eq_true', beq_eq_false_iff_ne, bne_iff_ne, ne_eq]); (try simp only [mdata, mimm, mbase, vcode, vdst, va, vb]); omega)])

theorem decMFence_enc (k : MFence → Instr) (oc : Nat) (f : MFence) : decMFence k (oc * 2^48 + encMFence f) = .ok (k f) := by
  obtain ⟨p, first, later⟩ := f
  have h_p := p.isLt
  have h_first := first.isLt
  have h_later := later.isLt
  generalize hw : oc * 2^48 + encMFence ⟨p, first, later⟩ = w
  simp only [encMFence] at hw
  have e1 : f3 w 45 = p := Fin.ext (by simp only [f3, f4, f5, f6, Fin.val_ofNat, vb, mdata, mimm]; omega)
  have e2 : mdata w / 32 = first.val := by (try simp only [vcode, vdst, va, vb, mdata]); omega
  have e3 : mdata w / 4 % 8 = later.val := by (try simp only [vcode, vdst, va, vb, mdata]); omega
  unfold decMFence
  simp only [e1, e2, e3, need, decWin, decLevel, decPath, decBar, Fin.is_lt, dite_true, if_true, Fin.eta]
  (repeat rw [if_pos (by (try simp only [mflag1, mflag0, mflag1na, mflag0na, vj, only7, code03, jetOnly, dstOk, unguarded, Bool.and_eq_true, Bool.or_eq_true, beq_iff_eq, decide_eq_true_eq, Bool.not_eq_true', beq_eq_false_iff_ne, bne_iff_ne, ne_eq]); (try simp only [mdata, mimm, mbase, vcode, vdst, va, vb]); omega)])

theorem decMPred_enc (k : MPred → Instr) (oc : Nat) (f : MPred) : decMPred k (oc * 2^48 + encMPred f) = .ok (k f) := by
  obtain ⟨p⟩ := f
  have h_p := p.isLt
  generalize hw : oc * 2^48 + encMPred ⟨p⟩ = w
  simp only [encMPred] at hw
  have e1 : f3 w 45 = p := Fin.ext (by simp only [f3, f4, f5, f6, Fin.val_ofNat, vb, mdata, mimm]; omega)
  unfold decMPred
  simp only [e1, need, decWin, decLevel, decPath, decBar, Fin.is_lt, dite_true, if_true, Fin.eta]
  (repeat rw [if_pos (by (try simp only [mflag1, mflag0, mflag1na, mflag0na, vj, only7, code03, jetOnly, dstOk, unguarded, Bool.and_eq_true, Bool.or_eq_true, beq_iff_eq, decide_eq_true_eq, Bool.not_eq_true', beq_eq_false_iff_ne, bne_iff_ne, ne_eq]); (try simp only [mdata, mimm, mbase, vcode, vdst, va, vb]); omega)])

theorem decMDrain_enc (k : MDrain → Instr) (oc : Nat) (f : MDrain) : decMDrain k (oc * 2^48 + encMDrain f) = .ok (k f) := by
  obtain ⟨p, scope⟩ := f
  have h_p := p.isLt
  have h_scope := scope.isLt
  generalize hw : oc * 2^48 + encMDrain ⟨p, scope⟩ = w
  simp only [encMDrain] at hw
  have e1 : f3 w 45 = p := Fin.ext (by simp only [f3, f4, f5, f6, Fin.val_ofNat, vb, mdata, mimm]; omega)
  have e2 : Fin.ofNat 5 (w / 16 % 8) = scope := Fin.ext (by simp only [f3, f4, f5, f6, Fin.val_ofNat, vb, mdata, mimm]; omega)
  unfold decMDrain
  simp only [e1, e2, need, decWin, decLevel, decPath, decBar, Fin.is_lt, dite_true, if_true, Fin.eta]
  (repeat rw [if_pos (by (try simp only [mflag1, mflag0, mflag1na, mflag0na, vj, only7, code03, jetOnly, dstOk, unguarded, Bool.and_eq_true, Bool.or_eq_true, beq_iff_eq, decide_eq_true_eq, Bool.not_eq_true', beq_eq_false_iff_ne, bne_iff_ne, ne_eq]); (try simp only [mdata, mimm, mbase, vcode, vdst, va, vb]); omega)])

theorem decMRed_enc (k : MRed → Instr) (oc : Nat) (f : MRed) : decMRed k (oc * 2^48 + encMRed f) = .ok (k f) := by
  obtain ⟨p, data, base, imm⟩ := f
  have h_p := p.isLt
  have h_data := encSOp_lt data
  have h_base := encSOp_lt base
  have h_imm := imm.isLt
  generalize hw : oc * 2^48 + encMRed ⟨p, data, base, imm⟩ = w
  simp only [encMRed] at hw
  have e1 : f3 w 45 = p := Fin.ext (by simp only [f3, f4, f5, f6, Fin.val_ofNat, vb, mdata, mimm]; omega)
  have e2 : decSOp (mdata w) = data := decSOp_of data _ (by (try simp only [mbase, mdata, va]); omega)
  have e3 : decSOp (mbase w) = base := decSOp_of base _ (by (try simp only [mbase, mdata, va]); omega)
  have e4 : imm24 w = imm := BitVec.eq_of_toNat_eq (by simp only [imm16, imm24, mimm, vb, BitVec.toNat_ofNat]; omega)
  unfold decMRed
  simp only [e1, e2, e3, e4, need, decWin, decLevel, decPath, decBar, Fin.is_lt, dite_true, if_true, Fin.eta]
  (repeat rw [if_pos (by (try simp only [mflag1, mflag0, mflag1na, mflag0na, vj, only7, code03, jetOnly, dstOk, unguarded, Bool.and_eq_true, Bool.or_eq_true, beq_iff_eq, decide_eq_true_eq, Bool.not_eq_true', beq_eq_false_iff_ne, bne_iff_ne, ne_eq]); (try simp only [mdata, mimm, mbase, vcode, vdst, va, vb]); omega)])

theorem decMAtom_enc (k : MAtom → Instr) (oc : Nat) (f : MAtom) : decMAtom k (oc * 2^48 + encMAtom f) = .ok (k f) := by
  obtain ⟨p, d, base, imm⟩ := f
  have h_p := p.isLt
  have h_d := d.isLt
  have h_base := encSOp_lt base
  have h_imm := imm.isLt
  generalize hw : oc * 2^48 + encMAtom ⟨p, d, base, imm⟩ = w
  simp only [encMAtom] at hw
  have e1 : f3 w 45 = p := Fin.ext (by simp only [f3, f4, f5, f6, Fin.val_ofNat, vb, mdata, mimm]; omega)
  have e2 : f5 w 37 = d := Fin.ext (by simp only [f3, f4, f5, f6, Fin.val_ofNat, vb, mdata, mimm]; omega)
  have e3 : decSOp (mbase w) = base := decSOp_of base _ (by (try simp only [mbase, mdata, va]); omega)
  have e4 : imm24 w = imm := BitVec.eq_of_toNat_eq (by simp only [imm16, imm24, mimm, vb, BitVec.toNat_ofNat]; omega)
  unfold decMAtom
  simp only [e1, e2, e3, e4, need, decWin, decLevel, decPath, decBar, Fin.is_lt, dite_true, if_true, Fin.eta]
  (repeat rw [if_pos (by (try simp only [mflag1, mflag0, mflag1na, mflag0na, vj, only7, code03, jetOnly, dstOk, unguarded, Bool.and_eq_true, Bool.or_eq_true, beq_iff_eq, decide_eq_true_eq, Bool.not_eq_true', beq_eq_false_iff_ne, bne_iff_ne, ne_eq]); (try simp only [mdata, mimm, mbase, vcode, vdst, va, vb]); omega)])

theorem decMSync_enc (k : MSync → Instr) (oc : Nat) (f : MSync) : decMSync k (oc * 2^48 + encMSync f) = .ok (k f) := by
  obtain ⟨b⟩ := f
  have h_b := b.isLt
  generalize hw : oc * 2^48 + encMSync ⟨b⟩ = w
  simp only [encMSync] at hw
  have e1 : mdata w = b.val := by (try simp only [vcode, vdst, va, vb, mdata]); omega
  unfold decMSync
  simp only [e1, need, decWin, decLevel, decPath, decBar, Fin.is_lt, dite_true, if_true, Fin.eta]
  (repeat rw [if_pos (by (try simp only [mflag1, mflag0, mflag1na, mflag0na, vj, only7, code03, jetOnly, dstOk, unguarded, Bool.and_eq_true, Bool.or_eq_true, beq_iff_eq, decide_eq_true_eq, Bool.not_eq_true', beq_eq_false_iff_ne, bne_iff_ne, ne_eq]); (try simp only [mdata, mimm, mbase, vcode, vdst, va, vb]); omega)])

theorem decMBarcfg_enc (k : MBarcfg → Instr) (oc : Nat) (f : MBarcfg) : decMBarcfg k (oc * 2^48 + encMBarcfg f) = .ok (k f) := by
  obtain ⟨p, b, base⟩ := f
  have h_p := p.isLt
  have h_b := b.isLt
  have h_base := encSOp_lt base
  generalize hw : oc * 2^48 + encMBarcfg ⟨p, b, base⟩ = w
  simp only [encMBarcfg] at hw
  have e1 : f3 w 45 = p := Fin.ext (by simp only [f3, f4, f5, f6, Fin.val_ofNat, vb, mdata, mimm]; omega)
  have e2 : mdata w = b.val := by (try simp only [vcode, vdst, va, vb, mdata]); omega
  have e3 : decSOp (mbase w) = base := decSOp_of base _ (by (try simp only [mbase, mdata, va]); omega)
  unfold decMBarcfg
  simp only [e1, e2, e3, need, decWin, decLevel, decPath, decBar, Fin.is_lt, dite_true, if_true, Fin.eta]
  (repeat rw [if_pos (by (try simp only [mflag1, mflag0, mflag1na, mflag0na, vj, only7, code03, jetOnly, dstOk, unguarded, Bool.and_eq_true, Bool.or_eq_true, beq_iff_eq, decide_eq_true_eq, Bool.not_eq_true', beq_eq_false_iff_ne, bne_iff_ne, ne_eq]); (try simp only [mdata, mimm, mbase, vcode, vdst, va, vb]); omega)])

theorem decMCallF_enc (k : MCallF → Instr) (oc : Nat) (f : MCallF) : decMCallF k (oc * 2^48 + encMCallF f) = .ok (k f) := by
  obtain ⟨p, routine⟩ := f
  have h_p := p.isLt
  have h_routine := routine.isLt
  generalize hw : oc * 2^48 + encMCallF ⟨p, routine⟩ = w
  simp only [encMCallF] at hw
  have e1 : f3 w 45 = p := Fin.ext (by simp only [f3, f4, f5, f6, Fin.val_ofNat, vb, mdata, mimm]; omega)
  have e2 : Fin.ofNat 256 (mdata w) = routine := Fin.ext (by simp only [f3, f4, f5, f6, Fin.val_ofNat, vb, mdata, mimm]; omega)
  unfold decMCallF
  simp only [e1, e2, need, decWin, decLevel, decPath, decBar, Fin.is_lt, dite_true, if_true, Fin.eta]
  (repeat rw [if_pos (by (try simp only [mflag1, mflag0, mflag1na, mflag0na, vj, only7, code03, jetOnly, dstOk, unguarded, Bool.and_eq_true, Bool.or_eq_true, beq_iff_eq, decide_eq_true_eq, Bool.not_eq_true', beq_eq_false_iff_ne, bne_iff_ne, ne_eq]); (try simp only [mdata, mimm, mbase, vcode, vdst, va, vb]); omega)])

theorem decMLatF_enc (k : MLatF → Instr) (oc : Nat) (f : MLatF) : decMLatF k (oc * 2^48 + encMLatF f) = .ok (k f) := by
  obtain ⟨p, l, base, imm⟩ := f
  have h_p := p.isLt
  have h_l := l.isLt
  have h_base := encSOp_lt base
  have h_imm := imm.isLt
  generalize hw : oc * 2^48 + encMLatF ⟨p, l, base, imm⟩ = w
  simp only [encMLatF] at hw
  have e1 : f3 w 45 = p := Fin.ext (by simp only [f3, f4, f5, f6, Fin.val_ofNat, vb, mdata, mimm]; omega)
  have e2 : Fin.ofNat 4 (mdata w) = l := Fin.ext (by simp only [f3, f4, f5, f6, Fin.val_ofNat, vb, mdata, mimm]; omega)
  have e3 : decSOp (mbase w) = base := decSOp_of base _ (by (try simp only [mbase, mdata, va]); omega)
  have e4 : imm24 w = imm := BitVec.eq_of_toNat_eq (by simp only [imm16, imm24, mimm, vb, BitVec.toNat_ofNat]; omega)
  unfold decMLatF
  simp only [e1, e2, e3, e4, need, decWin, decLevel, decPath, decBar, Fin.is_lt, dite_true, if_true, Fin.eta]
  (repeat rw [if_pos (by (try simp only [mflag1, mflag0, mflag1na, mflag0na, vj, only7, code03, jetOnly, dstOk, unguarded, Bool.and_eq_true, Bool.or_eq_true, beq_iff_eq, decide_eq_true_eq, Bool.not_eq_true', beq_eq_false_iff_ne, bne_iff_ne, ne_eq]); (try simp only [mdata, mimm, mbase, vcode, vdst, va, vb]); omega)])

theorem decMSetpF_enc (k : MSetpF → Instr) (oc : Nat) (f : MSetpF) : decMSetpF k (oc * 2^48 + encMSetpF f) = .ok (k f) := by
  obtain ⟨p, planes⟩ := f
  have h_p := p.isLt
  have h_planes := planes.isLt
  generalize hw : oc * 2^48 + encMSetpF ⟨p, planes⟩ = w
  simp only [encMSetpF] at hw
  have e1 : f3 w 45 = p := Fin.ext (by simp only [f3, f4, f5, f6, Fin.val_ofNat, vb, mdata, mimm]; omega)
  have e2 : Fin.ofNat 17 (mdata w) = planes := Fin.ext (by simp only [f3, f4, f5, f6, Fin.val_ofNat, vb, mdata, mimm]; omega)
  unfold decMSetpF
  simp only [e1, e2, need, decWin, decLevel, decPath, decBar, Fin.is_lt, dite_true, if_true, Fin.eta]
  (repeat rw [if_pos (by (try simp only [mflag1, mflag0, mflag1na, mflag0na, vj, only7, code03, jetOnly, dstOk, unguarded, Bool.and_eq_true, Bool.or_eq_true, beq_iff_eq, decide_eq_true_eq, Bool.not_eq_true', beq_eq_false_iff_ne, bne_iff_ne, ne_eq]); (try simp only [mdata, mimm, mbase, vcode, vdst, va, vb]); omega)])

theorem decMParmF_enc (k : MParmF → Instr) (oc : Nat) (f : MParmF) : decMParmF k (oc * 2^48 + encMParmF f) = .ok (k f) := by
  obtain ⟨p, i, base⟩ := f
  have h_p := p.isLt
  have h_i := i.isLt
  have h_base := encSOp_lt base
  generalize hw : oc * 2^48 + encMParmF ⟨p, i, base⟩ = w
  simp only [encMParmF] at hw
  have e1 : f3 w 45 = p := Fin.ext (by simp only [f3, f4, f5, f6, Fin.val_ofNat, vb, mdata, mimm]; omega)
  have e2 : f3 w 37 = i := Fin.ext (by simp only [f3, f4, f5, f6, Fin.val_ofNat, vb, mdata, mimm]; omega)
  have e3 : decSOp (mbase w) = base := decSOp_of base _ (by (try simp only [mbase, mdata, va]); omega)
  unfold decMParmF
  simp only [e1, e2, e3, need, decWin, decLevel, decPath, decBar, Fin.is_lt, dite_true, if_true, Fin.eta]
  (repeat rw [if_pos (by (try simp only [mflag1, mflag0, mflag1na, mflag0na, vj, only7, code03, jetOnly, dstOk, unguarded, Bool.and_eq_true, Bool.or_eq_true, beq_iff_eq, decide_eq_true_eq, Bool.not_eq_true', beq_eq_false_iff_ne, bne_iff_ne, ne_eq]); (try simp only [mdata, mimm, mbase, vcode, vdst, va, vb]); omega)])

theorem decMAcc_enc (k : MAcc → Instr) (oc : Nat) (f : MAcc) : decMAcc k (oc * 2^48 + encMAcc f) = .ok (k f) := by
  obtain ⟨m, base, imm⟩ := f
  have h_m := m.isLt
  have h_base := encSOp_lt base
  have h_imm := imm.isLt
  generalize hw : oc * 2^48 + encMAcc ⟨m, base, imm⟩ = w
  simp only [encMAcc] at hw
  have e1 : f3 w 45 = m := Fin.ext (by simp only [f3, f4, f5, f6, Fin.val_ofNat, vb, mdata, mimm]; omega)
  have e2 : decSOp (mbase w) = base := decSOp_of base _ (by (try simp only [mbase, mdata, va]); omega)
  have e3 : imm24 w = imm := BitVec.eq_of_toNat_eq (by simp only [imm16, imm24, mimm, vb, BitVec.toNat_ofNat]; omega)
  unfold decMAcc
  simp only [e1, e2, e3, need, decWin, decLevel, decPath, decBar, Fin.is_lt, dite_true, if_true, Fin.eta]
  (repeat rw [if_pos (by (try simp only [mflag1, mflag0, mflag1na, mflag0na, vj, only7, code03, jetOnly, dstOk, unguarded, Bool.and_eq_true, Bool.or_eq_true, beq_iff_eq, decide_eq_true_eq, Bool.not_eq_true', beq_eq_false_iff_ne, bne_iff_ne, ne_eq]); (try simp only [mdata, mimm, mbase, vcode, vdst, va, vb]); omega)])

theorem decMAccR_enc (k : MAccR → Instr) (oc : Nat) (f : MAccR) : decMAccR k (oc * 2^48 + encMAccR f) = .ok (k f) := by
  obtain ⟨m, reg, base, imm⟩ := f
  have h_m := m.isLt
  have h_reg := reg.isLt
  have h_base := encSOp_lt base
  have h_imm := imm.isLt
  generalize hw : oc * 2^48 + encMAccR ⟨m, reg, base, imm⟩ = w
  simp only [encMAccR] at hw
  have e1 : f3 w 45 = m := Fin.ext (by simp only [f3, f4, f5, f6, Fin.val_ofNat, vb, mdata, mimm]; omega)
  have e2 : mdata w % 256 = reg.val := by (try simp only [vcode, vdst, va, vb, mdata]); omega
  have e3 : decSOp (mbase w) = base := decSOp_of base _ (by (try simp only [mbase, mdata, va]); omega)
  have e4 : imm24 w = imm := BitVec.eq_of_toNat_eq (by simp only [imm16, imm24, mimm, vb, BitVec.toNat_ofNat]; omega)
  unfold decMAccR
  simp only [e1, e2, e3, e4, need, decWin, decLevel, decPath, decBar, Fin.is_lt, dite_true, if_true, Fin.eta]
  (repeat rw [if_pos (by (try simp only [mflag1, mflag0, mflag1na, mflag0na, vj, only7, code03, jetOnly, dstOk, unguarded, Bool.and_eq_true, Bool.or_eq_true, beq_iff_eq, decide_eq_true_eq, Bool.not_eq_true', beq_eq_false_iff_ne, bne_iff_ne, ne_eq]); (try simp only [mdata, mimm, mbase, vcode, vdst, va, vb]); omega)])

theorem decMPair_enc (k : MPair → Instr) (oc : Nat) (f : MPair) : decMPair k (oc * 2^48 + encMPair f) = .ok (k f) := by
  obtain ⟨p, dst, base⟩ := f
  have h_p := p.isLt
  have h_dst := dst.isLt
  have h_base := base.isLt
  generalize hw : oc * 2^48 + encMPair ⟨p, dst, base⟩ = w
  simp only [encMPair] at hw
  have e1 : f3 w 45 = p := Fin.ext (by simp only [f3, f4, f5, f6, Fin.val_ofNat, vb, mdata, mimm]; omega)
  have e2 : f5 w 37 = dst := Fin.ext (by simp only [f3, f4, f5, f6, Fin.val_ofNat, vb, mdata, mimm]; omega)
  have e3 : f5 w 31 = base := Fin.ext (by simp only [f3, f4, f5, f6, Fin.val_ofNat, vb, mdata, mimm]; omega)
  unfold decMPair
  simp only [e1, e2, e3, need, decWin, decLevel, decPath, decBar, Fin.is_lt, dite_true, if_true, Fin.eta]
  (repeat rw [if_pos (by (try simp only [mflag1, mflag0, mflag1na, mflag0na, vj, only7, code03, jetOnly, dstOk, unguarded, Bool.and_eq_true, Bool.or_eq_true, beq_iff_eq, decide_eq_true_eq, Bool.not_eq_true', beq_eq_false_iff_ne, bne_iff_ne, ne_eq]); (try simp only [mdata, mimm, mbase, vcode, vdst, va, vb]); omega)])

theorem decMKvcount_enc (k : MKvcount → Instr) (oc : Nat) (f : MKvcount) : decMKvcount k (oc * 2^48 + encMKvcount f) = .ok (k f) := by
  obtain ⟨p, dst⟩ := f
  have h_p := p.isLt
  have h_dst := dst.isLt
  generalize hw : oc * 2^48 + encMKvcount ⟨p, dst⟩ = w
  simp only [encMKvcount] at hw
  have e1 : f3 w 45 = p := Fin.ext (by simp only [f3, f4, f5, f6, Fin.val_ofNat, vb, mdata, mimm]; omega)
  have e2 : f5 w 37 = dst := Fin.ext (by simp only [f3, f4, f5, f6, Fin.val_ofNat, vb, mdata, mimm]; omega)
  unfold decMKvcount
  simp only [e1, e2, need, decWin, decLevel, decPath, decBar, Fin.is_lt, dite_true, if_true, Fin.eta]
  (repeat rw [if_pos (by (try simp only [mflag1, mflag0, mflag1na, mflag0na, vj, only7, code03, jetOnly, dstOk, unguarded, Bool.and_eq_true, Bool.or_eq_true, beq_iff_eq, decide_eq_true_eq, Bool.not_eq_true', beq_eq_false_iff_ne, bne_iff_ne, ne_eq]); (try simp only [mdata, mimm, mbase, vcode, vdst, va, vb]); omega)])

theorem decMRelease_enc (k : MRelease → Instr) (oc : Nat) (f : MRelease) : decMRelease k (oc * 2^48 + encMRelease f) = .ok (k f) := by
  obtain ⟨p, dst, task, delay⟩ := f
  have h_p := p.isLt
  have h_dst := dst.isLt
  have h_task := encSOp_lt task
  have h_delay := delay.isLt
  generalize hw : oc * 2^48 + encMRelease ⟨p, dst, task, delay⟩ = w
  simp only [encMRelease] at hw
  have e1 : f3 w 45 = p := Fin.ext (by simp only [f3, f4, f5, f6, Fin.val_ofNat, vb, mdata, mimm]; omega)
  have e2 : f5 w 37 = dst := Fin.ext (by simp only [f3, f4, f5, f6, Fin.val_ofNat, vb, mdata, mimm]; omega)
  have e3 : decSOp (mbase w) = task := decSOp_of task _ (by (try simp only [mbase, mdata, va]); omega)
  have e4 : BitVec.ofNat 23 (mimm w) = delay := BitVec.eq_of_toNat_eq (by simp only [imm16, imm24, mimm, vb, BitVec.toNat_ofNat]; omega)
  unfold decMRelease
  simp only [e1, e2, e3, e4, need, decWin, decLevel, decPath, decBar, Fin.is_lt, dite_true, if_true, Fin.eta]
  (repeat rw [if_pos (by (try simp only [mflag1, mflag0, mflag1na, mflag0na, vj, only7, code03, jetOnly, dstOk, unguarded, Bool.and_eq_true, Bool.or_eq_true, beq_iff_eq, decide_eq_true_eq, Bool.not_eq_true', beq_eq_false_iff_ne, bne_iff_ne, ne_eq]); (try simp only [mdata, mimm, mbase, vcode, vdst, va, vb]); omega)])

theorem encVUnpkF_lt (f : VUnpkF) : encVUnpkF f < 2^31 := by
  obtain ⟨m, op, dst, a⟩ := f
  have h_m := m.isLt
  have h_dst := encVOp_lt dst
  have h_a := encVOp_lt a
  cases op with
  | i8 s => obtain ⟨n, l, d, i⟩ := bool_form s; simp only [encVUnpkF, i]; omega
  | _ => simp only [encVUnpkF]; omega

theorem decVUnpkF_enc (k : VUnpkF → Instr) (oc : Nat) (f : VUnpkF) : decVUnpkF k (oc * 2^31 + encVUnpkF f) = .ok (k f) := by
  obtain ⟨m, op, dst, a⟩ := f
  have h_m := m.isLt
  have h_dst := encVOp_lt dst
  have h_a := encVOp_lt a
  obtain ⟨c, s, hc, hs, hop⟩ : ∃ c s, c < 4 ∧ s < 2 ∧ encVUnpkF ⟨m, op, dst, a⟩ = c * 2^28 + m.val * 2^25 + encVOp dst * 2^17 + encVOp a * 2^9 + s * 2 ∧
      (op = if c = 0 then .i16 else if c = 1 then .i8 (s == 1) else if c = 2 then .bf16 else .f16) ∧ (c ≠ 1 → s = 0) := by
    cases op with
    | i16 => exact ⟨0, 0, by omega, by omega, by simp only [encVUnpkF]; omega, rfl, fun _ => rfl⟩
    | i8 s =>
      cases s
      · exact ⟨1, 0, by omega, by omega, by simp only [encVUnpkF, Bool.false_eq_true, if_false]; omega, rfl, fun h => rfl⟩
      · exact ⟨1, 1, by omega, by omega, by simp only [encVUnpkF, if_true]; omega, rfl, fun h => absurd rfl h⟩
    | bf16 => exact ⟨2, 0, by omega, by omega, by simp only [encVUnpkF]; omega, rfl, fun _ => rfl⟩
    | f16 => exact ⟨3, 0, by omega, by omega, by simp only [encVUnpkF]; omega, rfl, fun _ => rfl⟩
  obtain ⟨he, ho, hz⟩ := hop
  generalize hw : oc * 2^31 + encVUnpkF ⟨m, op, dst, a⟩ = w
  rw [he] at hw
  have e1 : f3 w 25 = m := Fin.ext (by simp only [f3, Fin.val_ofNat]; omega)
  have e2 : vcode w = c := by simp only [vcode]; omega
  have e3 : decVOp (vdst w) = dst := decVOp_of dst _ (by simp only [vdst]; omega)
  have e4 : decVOp (va w) = a := decVOp_of a _ (by simp only [va]; omega)
  have e5 : b1 w 1 = (s == 1) := by simp only [b1]; exact congrArg (· == 1) (by omega)
  have e6 : vb w = s := by simp only [vb]; omega
  have e7 : vj w = false := by simp only [vj, beq_eq_false_iff_ne, ne_eq]; omega
  unfold decVUnpkF
  simp only [e1, e2, e3, e4, e5, e6, e7, need, Bool.not_false, if_true]
  rcases (show c = 0 ∨ c = 1 ∨ c = 2 ∨ c = 3 by omega) with rfl | rfl | rfl | rfl
  · rw [hz (by omega)]; simp [ho]
  · rcases (show s = 0 ∨ s = 1 by omega) with rfl | rfl <;> simp [ho]
  · rw [hz (by omega)]; simp [ho]
  · rw [hz (by omega)]; simp [ho]

theorem encSR_lt (f : SR) : encSR f < 2^32 := by
  obtain ⟨g, dst, a, b⟩ := f
  obtain ⟨gn, hgn, hg⟩ := encGuard_form g
  have h_dst := dst.isLt
  have h_a := encSOp_lt a
  have h_b := encSOp_lt b
  simp only [encSR, hg]
  omega

theorem encSU_lt (f : SU) : encSU f < 2^32 := by
  obtain ⟨g, dst, a⟩ := f
  obtain ⟨gn, hgn, hg⟩ := encGuard_form g
  have h_dst := dst.isLt
  have h_a := encSOp_lt a
  simp only [encSU, hg]
  omega

theorem encSI_lt (f : SI) : encSI f < 2^32 := by
  obtain ⟨g, dst, a, imm⟩ := f
  obtain ⟨gn, hgn, hg⟩ := encGuard_form g
  have h_dst := dst.isLt
  have h_a := encSOp_lt a
  have h_imm := imm.isLt
  simp only [encSI, hg]
  omega

theorem encSSh_lt (f : SSh) : encSSh f < 2^32 := by
  obtain ⟨g, dst, a, sh⟩ := f
  obtain ⟨gn, hgn, hg⟩ := encGuard_form g
  have h_dst := dst.isLt
  have h_a := encSOp_lt a
  have h_sh := sh.isLt
  simp only [encSSh, hg]
  omega

theorem encSBf_lt (f : SBf) : encSBf f < 2^32 := by
  obtain ⟨g, dst, a, lsb, lenM1⟩ := f
  obtain ⟨gn, hgn, hg⟩ := encGuard_form g
  have h_dst := dst.isLt
  have h_a := encSOp_lt a
  have h_lsb := lsb.isLt
  have h_lenM1 := lenM1.isLt
  simp only [encSBf, hg]
  omega

theorem encSMovi_lt (f : SMovi) : encSMovi f < 2^32 := by
  obtain ⟨g, dst, imm⟩ := f
  obtain ⟨gn, hgn, hg⟩ := encGuard_form g
  have h_dst := dst.isLt
  have h_imm := imm.isLt
  simp only [encSMovi, hg]
  omega

theorem encSK_lt (f : SK) : encSK f < 2^32 := by
  obtain ⟨g, dst, h, imm⟩ := f
  obtain ⟨gn, hgn, hg⟩ := encGuard_form g
  have h_dst := dst.isLt
  have h_h := h.isLt
  have h_imm := imm.isLt
  simp only [encSK, hg]
  omega

theorem encSP_lt (f : SP) : encSP f < 2^32 := by
  obtain ⟨g, pd, a, b⟩ := f
  obtain ⟨gn, hgn, hg⟩ := encGuard_form g
  have h_pd := pd.isLt
  have h_a := encSOp_lt a
  have h_b := encSOp_lt b
  simp only [encSP, hg]
  omega

theorem encSPI_lt (f : SPI) : encSPI f < 2^32 := by
  obtain ⟨g, pd, a, imm⟩ := f
  obtain ⟨gn, hgn, hg⟩ := encGuard_form g
  have h_pd := pd.isLt
  have h_a := encSOp_lt a
  have h_imm := imm.isLt
  simp only [encSPI, hg]
  omega

theorem encSQ_lt (f : SQ) : encSQ f < 2^32 := by
  obtain ⟨g, pd, pa, pb⟩ := f
  obtain ⟨gn, hgn, hg⟩ := encGuard_form g
  have h_pd := pd.isLt
  have h_pa := pa.isLt
  have h_pb := pb.isLt
  simp only [encSQ, hg]
  omega

theorem encSMfs_lt (f : SMfs) : encSMfs f < 2^32 := by
  obtain ⟨g, dst, reg⟩ := f
  obtain ⟨gn, hgn, hg⟩ := encGuard_form g
  have h_dst := dst.isLt
  have h_reg := encSReg_lt reg
  simp only [encSMfs, hg]
  omega

theorem encSMts_lt (f : SMts) : encSMts f < 2^32 := by
  obtain ⟨g, a, reg⟩ := f
  obtain ⟨gn, hgn, hg⟩ := encGuard_form g
  have h_a := encSOp_lt a
  have h_reg := encSReg_lt reg
  simp only [encSMts, hg]
  omega

theorem encSLevel_lt (f : SLevel) : encSLevel f < 2^32 := by
  obtain ⟨g, dst, level⟩ := f
  obtain ⟨gn, hgn, hg⟩ := encGuard_form g
  have h_dst := dst.isLt
  have h_level := level.isLt
  simp only [encSLevel, hg]
  omega

theorem encCTest_lt (f : CTest) : encCTest f < 2^32 := by
  obtain ⟨t, imm⟩ := f
  obtain ⟨gn, hgn, hg⟩ := encGuard_form t
  have h_imm := imm.isLt
  simp only [encCTest, hg]
  omega

theorem encCGangA_lt (f : CGang) : encCGangA f < 2^32 := by
  obtain ⟨g, imm⟩ := f
  have h_g := g.isLt
  have h_imm := imm.isLt
  simp only [encCGangA]
  omega

theorem encCGangD_lt (f : CGang) : encCGangD f < 2^32 := by
  obtain ⟨g, imm⟩ := f
  have h_g := g.isLt
  have h_imm := imm.isLt
  simp only [encCGangD]
  omega

theorem encCLoop_lt (f : CLoop) : encCLoop f < 2^32 := by
  obtain ⟨p, a⟩ := f
  obtain ⟨n_p, l_p, d_p, i_p⟩ := bool_form p
  have h_a := encSOp_lt a
  simp only [encCLoop, i_p]
  omega

theorem encCLoopI_lt (f : CLoopI) : encCLoopI f < 2^32 := by
  obtain ⟨p, count⟩ := f
  obtain ⟨n_p, l_p, d_p, i_p⟩ := bool_form p
  have h_count := count.isLt
  simp only [encCLoopI, i_p]
  omega

theorem encCLidx_lt (f : CLidx) : encCLidx f < 2^32 := by
  obtain ⟨dst, level⟩ := f
  have h_dst := dst.isLt
  have h_level := level.isLt
  simp only [encCLidx]
  omega

theorem encCWait_lt (f : CWait) : encCWait f < 2^32 := by
  obtain ⟨ld, st, cp, mx, en, nw⟩ := f
  have h_ld := ld.isLt
  have h_st := st.isLt
  have h_cp := cp.isLt
  have h_mx := mx.isLt
  have h_en := en.isLt
  have h_nw := nw.isLt
  simp only [encCWait]
  omega

theorem encCT_lt (f : CT) : encCT f < 2^32 := by
  obtain ⟨g, imm⟩ := f
  obtain ⟨gn, hgn, hg⟩ := encGuard_form g
  have h_imm := imm.isLt
  simp only [encCT, hg]
  omega

theorem encCSavem_lt (f : CSavem) : encCSavem f < 2^32 := by
  obtain ⟨g, a⟩ := f
  obtain ⟨gn, hgn, hg⟩ := encGuard_form g
  have h_a := encSOp_lt a
  simp only [encCSavem, hg]
  omega

theorem encCSlack_lt (f : CSlack) : encCSlack f < 2^32 := by
  obtain ⟨g, region⟩ := f
  obtain ⟨gn, hgn, hg⟩ := encGuard_form g
  have h_region := region.isLt
  simp only [encCSlack, hg]
  omega

theorem encVB_lt (f : VB) : encVB f < 2^31 := by
  obtain ⟨m, ty, j, dst, a, b⟩ := f
  have h_m := m.isLt
  have h_ty := encVTy_lt ty
  obtain ⟨n_j, l_j, d_j, i_j⟩ := bool_form j
  have h_dst := encVOp_lt dst
  have h_a := encVOp_lt a
  have h_b := encVOp_lt b
  simp only [encVB, i_j]
  omega

theorem encVU_lt (f : VU) : encVU f < 2^31 := by
  obtain ⟨m, ty, j, dst, a⟩ := f
  have h_m := m.isLt
  have h_ty := encVTy_lt ty
  obtain ⟨n_j, l_j, d_j, i_j⟩ := bool_form j
  have h_dst := encVOp_lt dst
  have h_a := encVOp_lt a
  simp only [encVU, i_j]
  omega

theorem encVCmp_lt (f : VCmp) : encVCmp f < 2^31 := by
  obtain ⟨m, ty, md, a, b⟩ := f
  have h_m := m.isLt
  have h_ty := encVTy_lt ty
  have h_md := md.isLt
  have h_a := encVOp_lt a
  have h_b := encVOp_lt b
  simp only [encVCmp]
  omega

theorem encVLogicF_lt (f : VLogicF) : encVLogicF f < 2^31 := by
  obtain ⟨m, op, dst, a, b⟩ := f
  have h_m := m.isLt
  have h_op := encLogicOp_lt op
  have h_dst := encVOp_lt dst
  have h_a := encVOp_lt a
  have h_b := encVOp_lt b
  simp only [encVLogicF]
  omega

theorem encVCvtF_lt (f : VCvtF) : encVCvtF f < 2^31 := by
  obtain ⟨m, op, dst, a⟩ := f
  have h_m := m.isLt
  have h_op := encCvt_lt op
  have h_dst := encVOp_lt dst
  have h_a := encVOp_lt a
  simp only [encVCvtF]
  omega

theorem encVNarrowF_lt (f : VNarrowF) : encVNarrowF f < 2^31 := by
  obtain ⟨m, fmt, dst, a⟩ := f
  have h_m := m.isLt
  have h_fmt := encNarrow_lt fmt
  have h_dst := encVOp_lt dst
  have h_a := encVOp_lt a
  simp only [encVNarrowF]
  omega

theorem encVPackF_lt (f : VPackF) : encVPackF f < 2^31 := by
  obtain ⟨m, op, dst, a, b⟩ := f
  have h_m := m.isLt
  have h_op := encPack_lt op
  have h_dst := encVOp_lt dst
  have h_a := encVOp_lt a
  have h_b := encVOp_lt b
  simp only [encVPackF]
  omega

theorem encVRedF_lt (f : VRedF) : encVRedF f < 2^31 := by
  obtain ⟨m, op, dst, a⟩ := f
  have h_m := m.isLt
  have h_op := encRed_lt op
  have h_dst := encVOp_lt dst
  have h_a := encVOp_lt a
  simp only [encVRedF]
  omega

theorem encVBcstF_lt (f : VBcstF) : encVBcstF f < 2^31 := by
  obtain ⟨m, dst, a⟩ := f
  have h_m := m.isLt
  have h_dst := encVOp_lt dst
  have h_a := encSOp_lt a
  simp only [encVBcstF]
  omega

theorem encVExtF_lt (f : VExtF) : encVExtF f < 2^31 := by
  obtain ⟨dst, a, lane⟩ := f
  have h_dst := dst.isLt
  have h_a := encVOp_lt a
  have h_lane := lane.isLt
  simp only [encVExtF]
  omega

theorem encVInsF_lt (f : VInsF) : encVInsF f < 2^31 := by
  obtain ⟨dst, a, lane⟩ := f
  have h_dst := dst.isLt
  have h_a := encSOp_lt a
  have h_lane := lane.isLt
  simp only [encVInsF]
  omega

theorem encVPermF_lt (f : VPermF) : encVPermF f < 2^31 := by
  obtain ⟨m, dst, a, b⟩ := f
  have h_m := m.isLt
  have h_dst := encVOp_lt dst
  have h_a := encVOp_lt a
  have h_b := encVOp_lt b
  simp only [encVPermF]
  omega

theorem encVHistF_lt (f : VHistF) : encVHistF f < 2^31 := by
  obtain ⟨m, d, a, b⟩ := f
  have h_m := m.isLt
  have h_d := d.isLt
  have h_a := encVOp_lt a
  have h_b := encVOp_lt b
  simp only [encVHistF]
  omega

theorem encVBmrgF_lt (f : VBmrgF) : encVBmrgF f < 2^31 := by
  obtain ⟨m, dst, a⟩ := f
  have h_m := m.isLt
  have h_dst := encVOp_lt dst
  have h_a := a.isLt
  simp only [encVBmrgF]
  omega

theorem encVArgF_lt (f : VArgF) : encVArgF f < 2^31 := by
  obtain ⟨m, int, dst, a, b⟩ := f
  have h_m := m.isLt
  obtain ⟨n_int, l_int, d_int, i_int⟩ := bool_form int
  have h_dst := dst.isLt
  have h_a := encVOp_lt a
  have h_b := encVOp_lt b
  simp only [encVArgF, i_int]
  omega

theorem encVBcxF_lt (f : VBcxF) : encVBcxF f < 2^31 := by
  obtain ⟨int, dst, a, j, kk, desc⟩ := f
  obtain ⟨n_int, l_int, d_int, i_int⟩ := bool_form int
  have h_dst := dst.isLt
  have h_a := a.isLt
  have h_j := j.isLt
  have h_kk := kk.isLt
  obtain ⟨n_desc, l_desc, d_desc, i_desc⟩ := bool_form desc
  simp only [encVBcxF, i_int, i_desc]
  omega

theorem encJBin_lt (f : JBin) : encJBin f < 2^31 := by
  obtain ⟨m, dst, a, b⟩ := f
  have h_m := m.isLt
  have h_dst := dst.isLt
  have h_a := a.isLt
  have h_b := b.isLt
  simp only [encJBin]
  omega

theorem encJUn_lt (f : JUn) : encJUn f < 2^31 := by
  obtain ⟨m, dst, a⟩ := f
  have h_m := m.isLt
  have h_dst := dst.isLt
  have h_a := a.isLt
  simp only [encJUn]
  omega

theorem encJIdx_lt (f : JIdx) : encJIdx f < 2^31 := by
  obtain ⟨m, dst, a, i⟩ := f
  have h_m := m.isLt
  have h_dst := dst.isLt
  have h_a := a.isLt
  have h_i := i.isLt
  simp only [encJIdx]
  omega

theorem encJDerF_lt (f : JDerF) : encJDerF f < 2^31 := by
  obtain ⟨m, dst, a, inv⟩ := f
  have h_m := m.isLt
  have h_dst := dst.isLt
  have h_a := a.isLt
  obtain ⟨n_inv, l_inv, d_inv, i_inv⟩ := bool_form inv
  simp only [encJDerF, i_inv]
  omega

theorem encJShiftF_lt (f : JShiftF) : encJShiftF f < 2^31 := by
  obtain ⟨m, dst, a, up, s⟩ := f
  have h_m := m.isLt
  have h_dst := dst.isLt
  have h_a := a.isLt
  obtain ⟨n_up, l_up, d_up, i_up⟩ := bool_form up
  have h_s := s.isLt
  simp only [encJShiftF, i_up]
  omega

theorem encJPowF_lt (f : JPowF) : encJPowF f < 2^31 := by
  obtain ⟨m, dst, a, p⟩ := f
  have h_m := m.isLt
  have h_dst := dst.isLt
  have h_a := a.isLt
  have h_p := p.isLt
  simp only [encJPowF]
  omega

theorem encFForm_lt (f : FForm) : encFForm f < 2^26 := by
  obtain ⟨m, ty, level, rnd, j, dst, src⟩ := f
  have h_m := m.isLt
  have h_ty := encFTy_lt ty
  have h_level := level.isLt
  have h_rnd := encFRnd_lt rnd
  obtain ⟨n_j, l_j, d_j, i_j⟩ := bool_form j
  have h_dst := encVOp_lt dst
  have h_src := encVOp_lt src
  simp only [encFForm, i_j]
  omega

theorem encMLd_lt (f : MLd) : encMLd f < 2^48 := by
  obtain ⟨p, dst, base, imm, na⟩ := f
  have h_p := p.isLt
  have h_dst := dst.isLt
  have h_base := encSOp_lt base
  have h_imm := imm.isLt
  obtain ⟨n_na, l_na, d_na, i_na⟩ := bool_form na
  simp only [encMLd, i_na]
  omega

theorem encMSt_lt (f : MSt) : encMSt f < 2^48 := by
  obtain ⟨p, data, base, imm, na⟩ := f
  have h_p := p.isLt
  have h_data := encSOp_lt data
  have h_base := encSOp_lt base
  have h_imm := imm.isLt
  obtain ⟨n_na, l_na, d_na, i_na⟩ := bool_form na
  simp only [encMSt, i_na]
  omega

theorem encMVec_lt (f : MVec) : encMVec f < 2^48 := by
  obtain ⟨m, reg, base, imm, na⟩ := f
  have h_m := m.isLt
  have h_reg := reg.isLt
  have h_base := encSOp_lt base
  have h_imm := imm.isLt
  obtain ⟨n_na, l_na, d_na, i_na⟩ := bool_form na
  simp only [encMVec, i_na]
  omega

theorem encMAddr_lt (f : MAddr) : encMAddr f < 2^48 := by
  obtain ⟨p, base, imm⟩ := f
  have h_p := p.isLt
  have h_base := encSOp_lt base
  have h_imm := imm.isLt
  simp only [encMAddr]
  omega

theorem encMBind_lt (f : MBind) : encMBind f < 2^48 := by
  obtain ⟨z, base, imm⟩ := f
  have h_z := z.isLt
  have h_base := encSOp_lt base
  have h_imm := imm.isLt
  simp only [encMBind]
  omega

theorem encMSpos_lt (f : MSpos) : encMSpos f < 2^48 := by
  obtain ⟨p, dst, z⟩ := f
  have h_p := p.isLt
  have h_dst := dst.isLt
  have h_z := z.isLt
  simp only [encMSpos]
  omega

theorem encMDesc_lt (f : MDesc) : encMDesc f < 2^48 := by
  obtain ⟨p, dst, base, imm⟩ := f
  have h_p := p.isLt
  have h_dst := dst.isLt
  have h_base := encSOp_lt base
  have h_imm := imm.isLt
  simp only [encMDesc]
  omega

theorem encMMigr_lt (f : MMigr) : encMMigr f < 2^48 := by
  obtain ⟨p, t, base, imm⟩ := f
  have h_p := p.isLt
  have h_t := encSOp_lt t
  have h_base := encSOp_lt base
  have h_imm := imm.isLt
  simp only [encMMigr]
  omega

theorem encMFence_lt (f : MFence) : encMFence f < 2^48 := by
  obtain ⟨p, first, later⟩ := f
  have h_p := p.isLt
  have h_first := first.isLt
  have h_later := later.isLt
  simp only [encMFence]
  omega

theorem encMPred_lt (f : MPred) : encMPred f < 2^48 := by
  obtain ⟨p⟩ := f
  have h_p := p.isLt
  simp only [encMPred]
  omega

theorem encMDrain_lt (f : MDrain) : encMDrain f < 2^48 := by
  obtain ⟨p, scope⟩ := f
  have h_p := p.isLt
  have h_scope := scope.isLt
  simp only [encMDrain]
  omega

theorem encMRed_lt (f : MRed) : encMRed f < 2^48 := by
  obtain ⟨p, data, base, imm⟩ := f
  have h_p := p.isLt
  have h_data := encSOp_lt data
  have h_base := encSOp_lt base
  have h_imm := imm.isLt
  simp only [encMRed]
  omega

theorem encMAtom_lt (f : MAtom) : encMAtom f < 2^48 := by
  obtain ⟨p, d, base, imm⟩ := f
  have h_p := p.isLt
  have h_d := d.isLt
  have h_base := encSOp_lt base
  have h_imm := imm.isLt
  simp only [encMAtom]
  omega

theorem encMSync_lt (f : MSync) : encMSync f < 2^48 := by
  obtain ⟨b⟩ := f
  have h_b := b.isLt
  simp only [encMSync]
  omega

theorem encMBarcfg_lt (f : MBarcfg) : encMBarcfg f < 2^48 := by
  obtain ⟨p, b, base⟩ := f
  have h_p := p.isLt
  have h_b := b.isLt
  have h_base := encSOp_lt base
  simp only [encMBarcfg]
  omega

theorem encMCallF_lt (f : MCallF) : encMCallF f < 2^48 := by
  obtain ⟨p, routine⟩ := f
  have h_p := p.isLt
  have h_routine := routine.isLt
  simp only [encMCallF]
  omega

theorem encMLatF_lt (f : MLatF) : encMLatF f < 2^48 := by
  obtain ⟨p, l, base, imm⟩ := f
  have h_p := p.isLt
  have h_l := l.isLt
  have h_base := encSOp_lt base
  have h_imm := imm.isLt
  simp only [encMLatF]
  omega

theorem encMSetpF_lt (f : MSetpF) : encMSetpF f < 2^48 := by
  obtain ⟨p, planes⟩ := f
  have h_p := p.isLt
  have h_planes := planes.isLt
  simp only [encMSetpF]
  omega

theorem encMParmF_lt (f : MParmF) : encMParmF f < 2^48 := by
  obtain ⟨p, i, base⟩ := f
  have h_p := p.isLt
  have h_i := i.isLt
  have h_base := encSOp_lt base
  simp only [encMParmF]
  omega

theorem encMAcc_lt (f : MAcc) : encMAcc f < 2^48 := by
  obtain ⟨m, base, imm⟩ := f
  have h_m := m.isLt
  have h_base := encSOp_lt base
  have h_imm := imm.isLt
  simp only [encMAcc]
  omega

theorem encMAccR_lt (f : MAccR) : encMAccR f < 2^48 := by
  obtain ⟨m, reg, base, imm⟩ := f
  have h_m := m.isLt
  have h_reg := reg.isLt
  have h_base := encSOp_lt base
  have h_imm := imm.isLt
  simp only [encMAccR]
  omega

theorem encMPair_lt (f : MPair) : encMPair f < 2^48 := by
  obtain ⟨p, dst, base⟩ := f
  have h_p := p.isLt
  have h_dst := dst.isLt
  have h_base := base.isLt
  simp only [encMPair]
  omega

theorem encMKvcount_lt (f : MKvcount) : encMKvcount f < 2^48 := by
  obtain ⟨p, dst⟩ := f
  have h_p := p.isLt
  have h_dst := dst.isLt
  simp only [encMKvcount]
  omega

theorem encMRelease_lt (f : MRelease) : encMRelease f < 2^48 := by
  obtain ⟨p, dst, task, delay⟩ := f
  have h_p := p.isLt
  have h_dst := dst.isLt
  have h_task := encSOp_lt task
  have h_delay := delay.isLt
  simp only [encMRelease]
  omega

/-- A word whose row's decoder gives a well-formed instruction decodes to it. -/
theorem decode_scalar (w : Nat) (i : Instr) (hw : w < 2^40) (h : decodeScalarRaw w = .ok i) (hi : i.wf = true) : decode .scalar w = .ok i := by
  simp only [decode, SlotKind.width, hw, if_true, h, keepWf, hi]
theorem decode_vector (w : Nat) (i : Instr) (hw : w < 2^37) (h : decodeVectorRaw w = .ok i) (hi : i.wf = true) : decode .vector w = .ok i := by
  simp only [decode, SlotKind.width, hw, if_true, h, keepWf, hi]
theorem decode_special (w : Nat) (i : Instr) (hw : w < 2^32) (h : decodeSpecialRaw w = .ok i) (hi : i.wf = true) : decode .special w = .ok i := by
  simp only [decode, SlotKind.width, hw, if_true, h, keepWf, hi]
theorem decode_memory (w : Nat) (i : Instr) (hw : w < 2^56) (h : decodeMemoryRaw w = .ok i) (hi : i.wf = true) : decode .memory w = .ok i := by
  simp only [decode, SlotKind.width, hw, if_true, h, keepWf, hi]
theorem decode_micro (w : Nat) (i : Instr) (hw : w < 2^64) (h : decodeMicroRaw w = .ok i) (hi : i.wf = true) : decode .micro w = .ok i := by
  simp only [decode, SlotKind.width, hw, if_true, h, keepWf, hi]

end Sys2Proof
end

