-- ==== Sys2Proof/Laws/State.lean ====
section
/-! SUPPORT. What each update of State leaves and writes, field by field, so that no proof unfolds a record update. -/

namespace Sys2Proof.Machine

open Sys2Proof

/-! ## setSeq -/

@[simp] theorem setSeq_cycle (s : State) (q : Nat) (x : Seq) : (setSeq s q x).cycle = s.cycle := rfl
@[simp] theorem setSeq_devTime (s : State) (q : Nat) (x : Seq) : (setSeq s q x).devTime = s.devTime := rfl
@[simp] theorem setSeq_devRem (s : State) (q : Nat) (x : Seq) : (setSeq s q x).devRem = s.devRem := rfl
@[simp] theorem setSeq_mem (s : State) (q : Nat) (x : Seq) : (setSeq s q x).mem = s.mem := rfl
@[simp] theorem setSeq_secTaint (s : State) (q : Nat) (x : Seq) : (setSeq s q x).secTaint = s.secTaint := rfl
@[simp] theorem setSeq_secTag (s : State) (q : Nat) (x : Seq) : (setSeq s q x).secTag = s.secTag := rfl
@[simp] theorem setSeq_pf (s : State) (q : Nat) (x : Seq) : (setSeq s q x).pf = s.pf := rfl
@[simp] theorem setSeq_bar0 (s : State) (q : Nat) (x : Seq) : (setSeq s q x).bar0 = s.bar0 := rfl
@[simp] theorem setSeq_bar2 (s : State) (q : Nat) (x : Seq) : (setSeq s q x).bar2 = s.bar2 := rfl
@[simp] theorem setSeq_cpRing (s : State) (q : Nat) (x : Seq) : (setSeq s q x).cpRing = s.cpRing := rfl
@[simp] theorem setSeq_seqs (s : State) (q : Nat) (x : Seq) : (setSeq s q x).seqs = Tbl.set Seq.idle s.seqs q x := rfl
@[simp] theorem setSeq_cores (s : State) (q : Nat) (x : Seq) : (setSeq s q x).cores = s.cores := rfl
@[simp] theorem setSeq_rk (s : State) (q : Nat) (x : Seq) : (setSeq s q x).rk = s.rk := rfl
@[simp] theorem setSeq_xl (s : State) (q : Nat) (x : Seq) : (setSeq s q x).xl = s.xl := rfl
@[simp] theorem setSeq_net (s : State) (q : Nat) (x : Seq) : (setSeq s q x).net = s.net := rfl
@[simp] theorem setSeq_plat (s : State) (q : Nat) (x : Seq) : (setSeq s q x).plat = s.plat := rfl
@[simp] theorem setSeq_issue (s : State) (q : Nat) (x : Seq) : (setSeq s q x).issue = s.issue := rfl
@[simp] theorem setSeq_agenda (s : State) (q : Nat) (x : Seq) : (setSeq s q x).agenda = s.agenda := rfl
@[simp] theorem setSeq_cur (s : State) (q : Nat) (x : Seq) : (setSeq s q x).cur = s.cur := rfl
@[simp] theorem setSeq_ev (s : State) (q : Nat) (x : Seq) : (setSeq s q x).ev = s.ev := rfl
@[simp] theorem setSeq_inputs (s : State) (q : Nat) (x : Seq) : (setSeq s q x).inputs = s.inputs := rfl
@[simp] theorem setSeq_out (s : State) (q : Nat) (x : Seq) : (setSeq s q x).out = s.out := rfl
@[simp] theorem setSeq_freeCtr (s : State) (q : Nat) (x : Seq) : (setSeq s q x).freeCtr = s.freeCtr := rfl

/-! ## modSeq -/

@[simp] theorem modSeq_cycle (s : State) (q : Nat) (f : Seq → Seq) : (modSeq s q f).cycle = s.cycle := rfl
@[simp] theorem modSeq_devTime (s : State) (q : Nat) (f : Seq → Seq) : (modSeq s q f).devTime = s.devTime := rfl
@[simp] theorem modSeq_devRem (s : State) (q : Nat) (f : Seq → Seq) : (modSeq s q f).devRem = s.devRem := rfl
@[simp] theorem modSeq_mem (s : State) (q : Nat) (f : Seq → Seq) : (modSeq s q f).mem = s.mem := rfl
@[simp] theorem modSeq_secTaint (s : State) (q : Nat) (f : Seq → Seq) : (modSeq s q f).secTaint = s.secTaint := rfl
@[simp] theorem modSeq_secTag (s : State) (q : Nat) (f : Seq → Seq) : (modSeq s q f).secTag = s.secTag := rfl
@[simp] theorem modSeq_pf (s : State) (q : Nat) (f : Seq → Seq) : (modSeq s q f).pf = s.pf := rfl
@[simp] theorem modSeq_bar0 (s : State) (q : Nat) (f : Seq → Seq) : (modSeq s q f).bar0 = s.bar0 := rfl
@[simp] theorem modSeq_bar2 (s : State) (q : Nat) (f : Seq → Seq) : (modSeq s q f).bar2 = s.bar2 := rfl
@[simp] theorem modSeq_cpRing (s : State) (q : Nat) (f : Seq → Seq) : (modSeq s q f).cpRing = s.cpRing := rfl
@[simp] theorem modSeq_seqs (s : State) (q : Nat) (f : Seq → Seq) : (modSeq s q f).seqs = Tbl.set Seq.idle s.seqs q (f (seqOf s q)) := rfl
@[simp] theorem modSeq_cores (s : State) (q : Nat) (f : Seq → Seq) : (modSeq s q f).cores = s.cores := rfl
@[simp] theorem modSeq_rk (s : State) (q : Nat) (f : Seq → Seq) : (modSeq s q f).rk = s.rk := rfl
@[simp] theorem modSeq_xl (s : State) (q : Nat) (f : Seq → Seq) : (modSeq s q f).xl = s.xl := rfl
@[simp] theorem modSeq_net (s : State) (q : Nat) (f : Seq → Seq) : (modSeq s q f).net = s.net := rfl
@[simp] theorem modSeq_plat (s : State) (q : Nat) (f : Seq → Seq) : (modSeq s q f).plat = s.plat := rfl
@[simp] theorem modSeq_issue (s : State) (q : Nat) (f : Seq → Seq) : (modSeq s q f).issue = s.issue := rfl
@[simp] theorem modSeq_agenda (s : State) (q : Nat) (f : Seq → Seq) : (modSeq s q f).agenda = s.agenda := rfl
@[simp] theorem modSeq_cur (s : State) (q : Nat) (f : Seq → Seq) : (modSeq s q f).cur = s.cur := rfl
@[simp] theorem modSeq_ev (s : State) (q : Nat) (f : Seq → Seq) : (modSeq s q f).ev = s.ev := rfl
@[simp] theorem modSeq_inputs (s : State) (q : Nat) (f : Seq → Seq) : (modSeq s q f).inputs = s.inputs := rfl
@[simp] theorem modSeq_out (s : State) (q : Nat) (f : Seq → Seq) : (modSeq s q f).out = s.out := rfl
@[simp] theorem modSeq_freeCtr (s : State) (q : Nat) (f : Seq → Seq) : (modSeq s q f).freeCtr = s.freeCtr := rfl

/-! ## setCore -/

@[simp] theorem setCore_cycle (s : State) (c : Nat) (x : Core) : (setCore s c x).cycle = s.cycle := rfl
@[simp] theorem setCore_devTime (s : State) (c : Nat) (x : Core) : (setCore s c x).devTime = s.devTime := rfl
@[simp] theorem setCore_devRem (s : State) (c : Nat) (x : Core) : (setCore s c x).devRem = s.devRem := rfl
@[simp] theorem setCore_mem (s : State) (c : Nat) (x : Core) : (setCore s c x).mem = s.mem := rfl
@[simp] theorem setCore_secTaint (s : State) (c : Nat) (x : Core) : (setCore s c x).secTaint = s.secTaint := rfl
@[simp] theorem setCore_secTag (s : State) (c : Nat) (x : Core) : (setCore s c x).secTag = s.secTag := rfl
@[simp] theorem setCore_pf (s : State) (c : Nat) (x : Core) : (setCore s c x).pf = s.pf := rfl
@[simp] theorem setCore_bar0 (s : State) (c : Nat) (x : Core) : (setCore s c x).bar0 = s.bar0 := rfl
@[simp] theorem setCore_bar2 (s : State) (c : Nat) (x : Core) : (setCore s c x).bar2 = s.bar2 := rfl
@[simp] theorem setCore_cpRing (s : State) (c : Nat) (x : Core) : (setCore s c x).cpRing = s.cpRing := rfl
@[simp] theorem setCore_seqs (s : State) (c : Nat) (x : Core) : (setCore s c x).seqs = s.seqs := rfl
@[simp] theorem setCore_cores (s : State) (c : Nat) (x : Core) : (setCore s c x).cores = Tbl.set Core.blank s.cores c x := rfl
@[simp] theorem setCore_rk (s : State) (c : Nat) (x : Core) : (setCore s c x).rk = s.rk := rfl
@[simp] theorem setCore_xl (s : State) (c : Nat) (x : Core) : (setCore s c x).xl = s.xl := rfl
@[simp] theorem setCore_net (s : State) (c : Nat) (x : Core) : (setCore s c x).net = s.net := rfl
@[simp] theorem setCore_plat (s : State) (c : Nat) (x : Core) : (setCore s c x).plat = s.plat := rfl
@[simp] theorem setCore_issue (s : State) (c : Nat) (x : Core) : (setCore s c x).issue = s.issue := rfl
@[simp] theorem setCore_agenda (s : State) (c : Nat) (x : Core) : (setCore s c x).agenda = s.agenda := rfl
@[simp] theorem setCore_cur (s : State) (c : Nat) (x : Core) : (setCore s c x).cur = s.cur := rfl
@[simp] theorem setCore_ev (s : State) (c : Nat) (x : Core) : (setCore s c x).ev = s.ev := rfl
@[simp] theorem setCore_inputs (s : State) (c : Nat) (x : Core) : (setCore s c x).inputs = s.inputs := rfl
@[simp] theorem setCore_out (s : State) (c : Nat) (x : Core) : (setCore s c x).out = s.out := rfl
@[simp] theorem setCore_freeCtr (s : State) (c : Nat) (x : Core) : (setCore s c x).freeCtr = s.freeCtr := rfl

/-! ## modCore -/

@[simp] theorem modCore_cycle (s : State) (c : Nat) (f : Core → Core) : (modCore s c f).cycle = s.cycle := rfl
@[simp] theorem modCore_devTime (s : State) (c : Nat) (f : Core → Core) : (modCore s c f).devTime = s.devTime := rfl
@[simp] theorem modCore_devRem (s : State) (c : Nat) (f : Core → Core) : (modCore s c f).devRem = s.devRem := rfl
@[simp] theorem modCore_mem (s : State) (c : Nat) (f : Core → Core) : (modCore s c f).mem = s.mem := rfl
@[simp] theorem modCore_secTaint (s : State) (c : Nat) (f : Core → Core) : (modCore s c f).secTaint = s.secTaint := rfl
@[simp] theorem modCore_secTag (s : State) (c : Nat) (f : Core → Core) : (modCore s c f).secTag = s.secTag := rfl
@[simp] theorem modCore_pf (s : State) (c : Nat) (f : Core → Core) : (modCore s c f).pf = s.pf := rfl
@[simp] theorem modCore_bar0 (s : State) (c : Nat) (f : Core → Core) : (modCore s c f).bar0 = s.bar0 := rfl
@[simp] theorem modCore_bar2 (s : State) (c : Nat) (f : Core → Core) : (modCore s c f).bar2 = s.bar2 := rfl
@[simp] theorem modCore_cpRing (s : State) (c : Nat) (f : Core → Core) : (modCore s c f).cpRing = s.cpRing := rfl
@[simp] theorem modCore_seqs (s : State) (c : Nat) (f : Core → Core) : (modCore s c f).seqs = s.seqs := rfl
@[simp] theorem modCore_cores (s : State) (c : Nat) (f : Core → Core) : (modCore s c f).cores = Tbl.set Core.blank s.cores c (f (coreGet s c)) := rfl
@[simp] theorem modCore_rk (s : State) (c : Nat) (f : Core → Core) : (modCore s c f).rk = s.rk := rfl
@[simp] theorem modCore_xl (s : State) (c : Nat) (f : Core → Core) : (modCore s c f).xl = s.xl := rfl
@[simp] theorem modCore_net (s : State) (c : Nat) (f : Core → Core) : (modCore s c f).net = s.net := rfl
@[simp] theorem modCore_plat (s : State) (c : Nat) (f : Core → Core) : (modCore s c f).plat = s.plat := rfl
@[simp] theorem modCore_issue (s : State) (c : Nat) (f : Core → Core) : (modCore s c f).issue = s.issue := rfl
@[simp] theorem modCore_agenda (s : State) (c : Nat) (f : Core → Core) : (modCore s c f).agenda = s.agenda := rfl
@[simp] theorem modCore_cur (s : State) (c : Nat) (f : Core → Core) : (modCore s c f).cur = s.cur := rfl
@[simp] theorem modCore_ev (s : State) (c : Nat) (f : Core → Core) : (modCore s c f).ev = s.ev := rfl
@[simp] theorem modCore_inputs (s : State) (c : Nat) (f : Core → Core) : (modCore s c f).inputs = s.inputs := rfl
@[simp] theorem modCore_out (s : State) (c : Nat) (f : Core → Core) : (modCore s c f).out = s.out := rfl
@[simp] theorem modCore_freeCtr (s : State) (c : Nat) (f : Core → Core) : (modCore s c f).freeCtr = s.freeCtr := rfl

/-! ## modCur -/

@[simp] theorem modCur_cycle (s : State) (f : Core → Core) : (modCur s f).cycle = s.cycle := rfl
@[simp] theorem modCur_devTime (s : State) (f : Core → Core) : (modCur s f).devTime = s.devTime := rfl
@[simp] theorem modCur_devRem (s : State) (f : Core → Core) : (modCur s f).devRem = s.devRem := rfl
@[simp] theorem modCur_mem (s : State) (f : Core → Core) : (modCur s f).mem = s.mem := rfl
@[simp] theorem modCur_secTaint (s : State) (f : Core → Core) : (modCur s f).secTaint = s.secTaint := rfl
@[simp] theorem modCur_secTag (s : State) (f : Core → Core) : (modCur s f).secTag = s.secTag := rfl
@[simp] theorem modCur_pf (s : State) (f : Core → Core) : (modCur s f).pf = s.pf := rfl
@[simp] theorem modCur_bar0 (s : State) (f : Core → Core) : (modCur s f).bar0 = s.bar0 := rfl
@[simp] theorem modCur_bar2 (s : State) (f : Core → Core) : (modCur s f).bar2 = s.bar2 := rfl
@[simp] theorem modCur_cpRing (s : State) (f : Core → Core) : (modCur s f).cpRing = s.cpRing := rfl
@[simp] theorem modCur_seqs (s : State) (f : Core → Core) : (modCur s f).seqs = s.seqs := rfl
@[simp] theorem modCur_cores (s : State) (f : Core → Core) : (modCur s f).cores = Tbl.set Core.blank s.cores (curId s) (f (curCore s)) := rfl
@[simp] theorem modCur_rk (s : State) (f : Core → Core) : (modCur s f).rk = s.rk := rfl
@[simp] theorem modCur_xl (s : State) (f : Core → Core) : (modCur s f).xl = s.xl := rfl
@[simp] theorem modCur_net (s : State) (f : Core → Core) : (modCur s f).net = s.net := rfl
@[simp] theorem modCur_plat (s : State) (f : Core → Core) : (modCur s f).plat = s.plat := rfl
@[simp] theorem modCur_issue (s : State) (f : Core → Core) : (modCur s f).issue = s.issue := rfl
@[simp] theorem modCur_agenda (s : State) (f : Core → Core) : (modCur s f).agenda = s.agenda := rfl
@[simp] theorem modCur_cur (s : State) (f : Core → Core) : (modCur s f).cur = s.cur := rfl
@[simp] theorem modCur_ev (s : State) (f : Core → Core) : (modCur s f).ev = s.ev := rfl
@[simp] theorem modCur_inputs (s : State) (f : Core → Core) : (modCur s f).inputs = s.inputs := rfl
@[simp] theorem modCur_out (s : State) (f : Core → Core) : (modCur s f).out = s.out := rfl
@[simp] theorem modCur_freeCtr (s : State) (f : Core → Core) : (modCur s f).freeCtr = s.freeCtr := rfl

/-! ## modCurSeq -/

@[simp] theorem modCurSeq_cycle (s : State) (f : Seq → Seq) : (modCurSeq s f).cycle = s.cycle := rfl
@[simp] theorem modCurSeq_devTime (s : State) (f : Seq → Seq) : (modCurSeq s f).devTime = s.devTime := rfl
@[simp] theorem modCurSeq_devRem (s : State) (f : Seq → Seq) : (modCurSeq s f).devRem = s.devRem := rfl
@[simp] theorem modCurSeq_mem (s : State) (f : Seq → Seq) : (modCurSeq s f).mem = s.mem := rfl
@[simp] theorem modCurSeq_secTaint (s : State) (f : Seq → Seq) : (modCurSeq s f).secTaint = s.secTaint := rfl
@[simp] theorem modCurSeq_secTag (s : State) (f : Seq → Seq) : (modCurSeq s f).secTag = s.secTag := rfl
@[simp] theorem modCurSeq_pf (s : State) (f : Seq → Seq) : (modCurSeq s f).pf = s.pf := rfl
@[simp] theorem modCurSeq_bar0 (s : State) (f : Seq → Seq) : (modCurSeq s f).bar0 = s.bar0 := rfl
@[simp] theorem modCurSeq_bar2 (s : State) (f : Seq → Seq) : (modCurSeq s f).bar2 = s.bar2 := rfl
@[simp] theorem modCurSeq_cpRing (s : State) (f : Seq → Seq) : (modCurSeq s f).cpRing = s.cpRing := rfl
@[simp] theorem modCurSeq_seqs (s : State) (f : Seq → Seq) : (modCurSeq s f).seqs = Tbl.set Seq.idle s.seqs s.cur.unit (f (curSeq s)) := rfl
@[simp] theorem modCurSeq_cores (s : State) (f : Seq → Seq) : (modCurSeq s f).cores = s.cores := rfl
@[simp] theorem modCurSeq_rk (s : State) (f : Seq → Seq) : (modCurSeq s f).rk = s.rk := rfl
@[simp] theorem modCurSeq_xl (s : State) (f : Seq → Seq) : (modCurSeq s f).xl = s.xl := rfl
@[simp] theorem modCurSeq_net (s : State) (f : Seq → Seq) : (modCurSeq s f).net = s.net := rfl
@[simp] theorem modCurSeq_plat (s : State) (f : Seq → Seq) : (modCurSeq s f).plat = s.plat := rfl
@[simp] theorem modCurSeq_issue (s : State) (f : Seq → Seq) : (modCurSeq s f).issue = s.issue := rfl
@[simp] theorem modCurSeq_agenda (s : State) (f : Seq → Seq) : (modCurSeq s f).agenda = s.agenda := rfl
@[simp] theorem modCurSeq_cur (s : State) (f : Seq → Seq) : (modCurSeq s f).cur = s.cur := rfl
@[simp] theorem modCurSeq_ev (s : State) (f : Seq → Seq) : (modCurSeq s f).ev = s.ev := rfl
@[simp] theorem modCurSeq_inputs (s : State) (f : Seq → Seq) : (modCurSeq s f).inputs = s.inputs := rfl
@[simp] theorem modCurSeq_out (s : State) (f : Seq → Seq) : (modCurSeq s f).out = s.out := rfl
@[simp] theorem modCurSeq_freeCtr (s : State) (f : Seq → Seq) : (modCurSeq s f).freeCtr = s.freeCtr := rfl

/-! ## emit -/

@[simp] theorem emit_cycle (s : State) (d : Nat) (k : LandKind) : (emit s d k).cycle = s.cycle := rfl
@[simp] theorem emit_devTime (s : State) (d : Nat) (k : LandKind) : (emit s d k).devTime = s.devTime := rfl
@[simp] theorem emit_devRem (s : State) (d : Nat) (k : LandKind) : (emit s d k).devRem = s.devRem := rfl
@[simp] theorem emit_mem (s : State) (d : Nat) (k : LandKind) : (emit s d k).mem = s.mem := rfl
@[simp] theorem emit_secTaint (s : State) (d : Nat) (k : LandKind) : (emit s d k).secTaint = s.secTaint := rfl
@[simp] theorem emit_secTag (s : State) (d : Nat) (k : LandKind) : (emit s d k).secTag = s.secTag := rfl
@[simp] theorem emit_pf (s : State) (d : Nat) (k : LandKind) : (emit s d k).pf = s.pf := rfl
@[simp] theorem emit_bar0 (s : State) (d : Nat) (k : LandKind) : (emit s d k).bar0 = s.bar0 := rfl
@[simp] theorem emit_bar2 (s : State) (d : Nat) (k : LandKind) : (emit s d k).bar2 = s.bar2 := rfl
@[simp] theorem emit_cpRing (s : State) (d : Nat) (k : LandKind) : (emit s d k).cpRing = s.cpRing := rfl
@[simp] theorem emit_seqs (s : State) (d : Nat) (k : LandKind) : (emit s d k).seqs = s.seqs := rfl
@[simp] theorem emit_cores (s : State) (d : Nat) (k : LandKind) : (emit s d k).cores = Tbl.set Core.blank s.cores (curId s) { curCore s with inflight := (curCore s).inflight ++ [⟨d, s.cur.slot, (curCore s).bundleNo, k⟩] } := rfl
@[simp] theorem emit_rk (s : State) (d : Nat) (k : LandKind) : (emit s d k).rk = s.rk := rfl
@[simp] theorem emit_xl (s : State) (d : Nat) (k : LandKind) : (emit s d k).xl = s.xl := rfl
@[simp] theorem emit_net (s : State) (d : Nat) (k : LandKind) : (emit s d k).net = s.net := rfl
@[simp] theorem emit_plat (s : State) (d : Nat) (k : LandKind) : (emit s d k).plat = s.plat := rfl
@[simp] theorem emit_issue (s : State) (d : Nat) (k : LandKind) : (emit s d k).issue = s.issue := rfl
@[simp] theorem emit_agenda (s : State) (d : Nat) (k : LandKind) : (emit s d k).agenda = s.agenda := rfl
@[simp] theorem emit_cur (s : State) (d : Nat) (k : LandKind) : (emit s d k).cur = s.cur := rfl
@[simp] theorem emit_ev (s : State) (d : Nat) (k : LandKind) : (emit s d k).ev = s.ev := rfl
@[simp] theorem emit_inputs (s : State) (d : Nat) (k : LandKind) : (emit s d k).inputs = s.inputs := rfl
@[simp] theorem emit_out (s : State) (d : Nat) (k : LandKind) : (emit s d k).out = s.out := rfl
@[simp] theorem emit_freeCtr (s : State) (d : Nat) (k : LandKind) : (emit s d k).freeCtr = s.freeCtr := rfl

/-! ## emitOn -/

@[simp] theorem emitOn_cycle (s : State) (c d : Nat) (k : LandKind) : (emitOn s c d k).cycle = s.cycle := rfl
@[simp] theorem emitOn_devTime (s : State) (c d : Nat) (k : LandKind) : (emitOn s c d k).devTime = s.devTime := rfl
@[simp] theorem emitOn_devRem (s : State) (c d : Nat) (k : LandKind) : (emitOn s c d k).devRem = s.devRem := rfl
@[simp] theorem emitOn_mem (s : State) (c d : Nat) (k : LandKind) : (emitOn s c d k).mem = s.mem := rfl
@[simp] theorem emitOn_secTaint (s : State) (c d : Nat) (k : LandKind) : (emitOn s c d k).secTaint = s.secTaint := rfl
@[simp] theorem emitOn_secTag (s : State) (c d : Nat) (k : LandKind) : (emitOn s c d k).secTag = s.secTag := rfl
@[simp] theorem emitOn_pf (s : State) (c d : Nat) (k : LandKind) : (emitOn s c d k).pf = s.pf := rfl
@[simp] theorem emitOn_bar0 (s : State) (c d : Nat) (k : LandKind) : (emitOn s c d k).bar0 = s.bar0 := rfl
@[simp] theorem emitOn_bar2 (s : State) (c d : Nat) (k : LandKind) : (emitOn s c d k).bar2 = s.bar2 := rfl
@[simp] theorem emitOn_cpRing (s : State) (c d : Nat) (k : LandKind) : (emitOn s c d k).cpRing = s.cpRing := rfl
@[simp] theorem emitOn_seqs (s : State) (c d : Nat) (k : LandKind) : (emitOn s c d k).seqs = s.seqs := rfl
@[simp] theorem emitOn_cores (s : State) (c d : Nat) (k : LandKind) : (emitOn s c d k).cores = Tbl.set Core.blank s.cores c { coreGet s c with inflight := (coreGet s c).inflight ++ [⟨d, s.cur.slot, (coreGet s c).bundleNo, k⟩] } := rfl
@[simp] theorem emitOn_rk (s : State) (c d : Nat) (k : LandKind) : (emitOn s c d k).rk = s.rk := rfl
@[simp] theorem emitOn_xl (s : State) (c d : Nat) (k : LandKind) : (emitOn s c d k).xl = s.xl := rfl
@[simp] theorem emitOn_net (s : State) (c d : Nat) (k : LandKind) : (emitOn s c d k).net = s.net := rfl
@[simp] theorem emitOn_plat (s : State) (c d : Nat) (k : LandKind) : (emitOn s c d k).plat = s.plat := rfl
@[simp] theorem emitOn_issue (s : State) (c d : Nat) (k : LandKind) : (emitOn s c d k).issue = s.issue := rfl
@[simp] theorem emitOn_agenda (s : State) (c d : Nat) (k : LandKind) : (emitOn s c d k).agenda = s.agenda := rfl
@[simp] theorem emitOn_cur (s : State) (c d : Nat) (k : LandKind) : (emitOn s c d k).cur = s.cur := rfl
@[simp] theorem emitOn_ev (s : State) (c d : Nat) (k : LandKind) : (emitOn s c d k).ev = s.ev := rfl
@[simp] theorem emitOn_inputs (s : State) (c d : Nat) (k : LandKind) : (emitOn s c d k).inputs = s.inputs := rfl
@[simp] theorem emitOn_out (s : State) (c d : Nat) (k : LandKind) : (emitOn s c d k).out = s.out := rfl
@[simp] theorem emitOn_freeCtr (s : State) (c d : Nat) (k : LandKind) : (emitOn s c d k).freeCtr = s.freeCtr := rfl

/-! ## transfer -/

@[simp] theorem transfer_cycle (s : State) (t : Word) : (transfer s t).cycle = s.cycle := rfl
@[simp] theorem transfer_devTime (s : State) (t : Word) : (transfer s t).devTime = s.devTime := rfl
@[simp] theorem transfer_devRem (s : State) (t : Word) : (transfer s t).devRem = s.devRem := rfl
@[simp] theorem transfer_mem (s : State) (t : Word) : (transfer s t).mem = s.mem := rfl
@[simp] theorem transfer_secTaint (s : State) (t : Word) : (transfer s t).secTaint = s.secTaint := rfl
@[simp] theorem transfer_secTag (s : State) (t : Word) : (transfer s t).secTag = s.secTag := rfl
@[simp] theorem transfer_pf (s : State) (t : Word) : (transfer s t).pf = s.pf := rfl
@[simp] theorem transfer_bar0 (s : State) (t : Word) : (transfer s t).bar0 = s.bar0 := rfl
@[simp] theorem transfer_bar2 (s : State) (t : Word) : (transfer s t).bar2 = s.bar2 := rfl
@[simp] theorem transfer_cpRing (s : State) (t : Word) : (transfer s t).cpRing = s.cpRing := rfl
@[simp] theorem transfer_seqs (s : State) (t : Word) : (transfer s t).seqs = Tbl.set Seq.idle s.seqs s.cur.unit { curSeq s with target := some (t, 2) } := rfl
@[simp] theorem transfer_cores (s : State) (t : Word) : (transfer s t).cores = s.cores := rfl
@[simp] theorem transfer_rk (s : State) (t : Word) : (transfer s t).rk = s.rk := rfl
@[simp] theorem transfer_xl (s : State) (t : Word) : (transfer s t).xl = s.xl := rfl
@[simp] theorem transfer_net (s : State) (t : Word) : (transfer s t).net = s.net := rfl
@[simp] theorem transfer_plat (s : State) (t : Word) : (transfer s t).plat = s.plat := rfl
@[simp] theorem transfer_issue (s : State) (t : Word) : (transfer s t).issue = s.issue := rfl
@[simp] theorem transfer_agenda (s : State) (t : Word) : (transfer s t).agenda = s.agenda := rfl
@[simp] theorem transfer_cur (s : State) (t : Word) : (transfer s t).cur = s.cur := rfl
@[simp] theorem transfer_ev (s : State) (t : Word) : (transfer s t).ev = s.ev := rfl
@[simp] theorem transfer_inputs (s : State) (t : Word) : (transfer s t).inputs = s.inputs := rfl
@[simp] theorem transfer_out (s : State) (t : Word) : (transfer s t).out = s.out := rfl
@[simp] theorem transfer_freeCtr (s : State) (t : Word) : (transfer s t).freeCtr = s.freeCtr := rfl

/-! ## setTask -/

@[simp] theorem setTask_cycle (s : State) (t : Nat) (x : Task) : (setTask s t x).cycle = s.cycle := rfl
@[simp] theorem setTask_devTime (s : State) (t : Nat) (x : Task) : (setTask s t x).devTime = s.devTime := rfl
@[simp] theorem setTask_devRem (s : State) (t : Nat) (x : Task) : (setTask s t x).devRem = s.devRem := rfl
@[simp] theorem setTask_mem (s : State) (t : Nat) (x : Task) : (setTask s t x).mem = s.mem := rfl
@[simp] theorem setTask_secTaint (s : State) (t : Nat) (x : Task) : (setTask s t x).secTaint = s.secTaint := rfl
@[simp] theorem setTask_secTag (s : State) (t : Nat) (x : Task) : (setTask s t x).secTag = s.secTag := rfl
@[simp] theorem setTask_pf (s : State) (t : Nat) (x : Task) : (setTask s t x).pf = s.pf := rfl
@[simp] theorem setTask_bar0 (s : State) (t : Nat) (x : Task) : (setTask s t x).bar0 = s.bar0 := rfl
@[simp] theorem setTask_bar2 (s : State) (t : Nat) (x : Task) : (setTask s t x).bar2 = s.bar2 := rfl
@[simp] theorem setTask_cpRing (s : State) (t : Nat) (x : Task) : (setTask s t x).cpRing = s.cpRing := rfl
@[simp] theorem setTask_seqs (s : State) (t : Nat) (x : Task) : (setTask s t x).seqs = s.seqs := rfl
@[simp] theorem setTask_cores (s : State) (t : Nat) (x : Task) : (setTask s t x).cores = s.cores := rfl
@[simp] theorem setTask_rk (s : State) (t : Nat) (x : Task) : (setTask s t x).rk = { s.rk with tasks := Tbl.set Task.empty s.rk.tasks t x } := rfl
@[simp] theorem setTask_xl (s : State) (t : Nat) (x : Task) : (setTask s t x).xl = s.xl := rfl
@[simp] theorem setTask_net (s : State) (t : Nat) (x : Task) : (setTask s t x).net = s.net := rfl
@[simp] theorem setTask_plat (s : State) (t : Nat) (x : Task) : (setTask s t x).plat = s.plat := rfl
@[simp] theorem setTask_issue (s : State) (t : Nat) (x : Task) : (setTask s t x).issue = s.issue := rfl
@[simp] theorem setTask_agenda (s : State) (t : Nat) (x : Task) : (setTask s t x).agenda = s.agenda := rfl
@[simp] theorem setTask_cur (s : State) (t : Nat) (x : Task) : (setTask s t x).cur = s.cur := rfl
@[simp] theorem setTask_ev (s : State) (t : Nat) (x : Task) : (setTask s t x).ev = s.ev := rfl
@[simp] theorem setTask_inputs (s : State) (t : Nat) (x : Task) : (setTask s t x).inputs = s.inputs := rfl
@[simp] theorem setTask_out (s : State) (t : Nat) (x : Task) : (setTask s t x).out = s.out := rfl
@[simp] theorem setTask_freeCtr (s : State) (t : Nat) (x : Task) : (setTask s t x).freeCtr = s.freeCtr := rfl

/-! ## modTask -/

@[simp] theorem modTask_cycle (s : State) (t : Nat) (f : Task → Task) : (modTask s t f).cycle = s.cycle := rfl
@[simp] theorem modTask_devTime (s : State) (t : Nat) (f : Task → Task) : (modTask s t f).devTime = s.devTime := rfl
@[simp] theorem modTask_devRem (s : State) (t : Nat) (f : Task → Task) : (modTask s t f).devRem = s.devRem := rfl
@[simp] theorem modTask_mem (s : State) (t : Nat) (f : Task → Task) : (modTask s t f).mem = s.mem := rfl
@[simp] theorem modTask_secTaint (s : State) (t : Nat) (f : Task → Task) : (modTask s t f).secTaint = s.secTaint := rfl
@[simp] theorem modTask_secTag (s : State) (t : Nat) (f : Task → Task) : (modTask s t f).secTag = s.secTag := rfl
@[simp] theorem modTask_pf (s : State) (t : Nat) (f : Task → Task) : (modTask s t f).pf = s.pf := rfl
@[simp] theorem modTask_bar0 (s : State) (t : Nat) (f : Task → Task) : (modTask s t f).bar0 = s.bar0 := rfl
@[simp] theorem modTask_bar2 (s : State) (t : Nat) (f : Task → Task) : (modTask s t f).bar2 = s.bar2 := rfl
@[simp] theorem modTask_cpRing (s : State) (t : Nat) (f : Task → Task) : (modTask s t f).cpRing = s.cpRing := rfl
@[simp] theorem modTask_seqs (s : State) (t : Nat) (f : Task → Task) : (modTask s t f).seqs = s.seqs := rfl
@[simp] theorem modTask_cores (s : State) (t : Nat) (f : Task → Task) : (modTask s t f).cores = s.cores := rfl
@[simp] theorem modTask_rk (s : State) (t : Nat) (f : Task → Task) : (modTask s t f).rk = { s.rk with tasks := Tbl.set Task.empty s.rk.tasks t (f (taskOf s t)) } := rfl
@[simp] theorem modTask_xl (s : State) (t : Nat) (f : Task → Task) : (modTask s t f).xl = s.xl := rfl
@[simp] theorem modTask_net (s : State) (t : Nat) (f : Task → Task) : (modTask s t f).net = s.net := rfl
@[simp] theorem modTask_plat (s : State) (t : Nat) (f : Task → Task) : (modTask s t f).plat = s.plat := rfl
@[simp] theorem modTask_issue (s : State) (t : Nat) (f : Task → Task) : (modTask s t f).issue = s.issue := rfl
@[simp] theorem modTask_agenda (s : State) (t : Nat) (f : Task → Task) : (modTask s t f).agenda = s.agenda := rfl
@[simp] theorem modTask_cur (s : State) (t : Nat) (f : Task → Task) : (modTask s t f).cur = s.cur := rfl
@[simp] theorem modTask_ev (s : State) (t : Nat) (f : Task → Task) : (modTask s t f).ev = s.ev := rfl
@[simp] theorem modTask_inputs (s : State) (t : Nat) (f : Task → Task) : (modTask s t f).inputs = s.inputs := rfl
@[simp] theorem modTask_out (s : State) (t : Nat) (f : Task → Task) : (modTask s t f).out = s.out := rfl
@[simp] theorem modTask_freeCtr (s : State) (t : Nat) (f : Task → Task) : (modTask s t f).freeCtr = s.freeCtr := rfl

/-! ## putByte -/

@[simp] theorem putByte_cycle (s : State) (a : Nat) (b : Byte) : (putByte s a b).cycle = s.cycle := rfl
@[simp] theorem putByte_devTime (s : State) (a : Nat) (b : Byte) : (putByte s a b).devTime = s.devTime := rfl
@[simp] theorem putByte_devRem (s : State) (a : Nat) (b : Byte) : (putByte s a b).devRem = s.devRem := rfl
@[simp] theorem putByte_mem (s : State) (a : Nat) (b : Byte) : (putByte s a b).mem = Tbl.set 0 s.mem a b := rfl
@[simp] theorem putByte_secTaint (s : State) (a : Nat) (b : Byte) : (putByte s a b).secTaint = s.secTaint := rfl
@[simp] theorem putByte_secTag (s : State) (a : Nat) (b : Byte) : (putByte s a b).secTag = s.secTag := rfl
@[simp] theorem putByte_pf (s : State) (a : Nat) (b : Byte) : (putByte s a b).pf = s.pf := rfl
@[simp] theorem putByte_bar0 (s : State) (a : Nat) (b : Byte) : (putByte s a b).bar0 = s.bar0 := rfl
@[simp] theorem putByte_bar2 (s : State) (a : Nat) (b : Byte) : (putByte s a b).bar2 = s.bar2 := rfl
@[simp] theorem putByte_cpRing (s : State) (a : Nat) (b : Byte) : (putByte s a b).cpRing = s.cpRing := rfl
@[simp] theorem putByte_seqs (s : State) (a : Nat) (b : Byte) : (putByte s a b).seqs = s.seqs := rfl
@[simp] theorem putByte_cores (s : State) (a : Nat) (b : Byte) : (putByte s a b).cores = s.cores := rfl
@[simp] theorem putByte_rk (s : State) (a : Nat) (b : Byte) : (putByte s a b).rk = s.rk := rfl
@[simp] theorem putByte_xl (s : State) (a : Nat) (b : Byte) : (putByte s a b).xl = s.xl := rfl
@[simp] theorem putByte_net (s : State) (a : Nat) (b : Byte) : (putByte s a b).net = s.net := rfl
@[simp] theorem putByte_plat (s : State) (a : Nat) (b : Byte) : (putByte s a b).plat = s.plat := rfl
@[simp] theorem putByte_issue (s : State) (a : Nat) (b : Byte) : (putByte s a b).issue = s.issue := rfl
@[simp] theorem putByte_agenda (s : State) (a : Nat) (b : Byte) : (putByte s a b).agenda = s.agenda := rfl
@[simp] theorem putByte_cur (s : State) (a : Nat) (b : Byte) : (putByte s a b).cur = s.cur := rfl
@[simp] theorem putByte_ev (s : State) (a : Nat) (b : Byte) : (putByte s a b).ev = s.ev := rfl
@[simp] theorem putByte_inputs (s : State) (a : Nat) (b : Byte) : (putByte s a b).inputs = s.inputs := rfl
@[simp] theorem putByte_out (s : State) (a : Nat) (b : Byte) : (putByte s a b).out = s.out := rfl
@[simp] theorem putByte_freeCtr (s : State) (a : Nat) (b : Byte) : (putByte s a b).freeCtr = s.freeCtr := rfl

/-! ## send -/

@[simp] theorem send_cycle (s : State) (m : OutMsg) : (send s m).cycle = s.cycle := rfl
@[simp] theorem send_devTime (s : State) (m : OutMsg) : (send s m).devTime = s.devTime := rfl
@[simp] theorem send_devRem (s : State) (m : OutMsg) : (send s m).devRem = s.devRem := rfl
@[simp] theorem send_mem (s : State) (m : OutMsg) : (send s m).mem = s.mem := rfl
@[simp] theorem send_secTaint (s : State) (m : OutMsg) : (send s m).secTaint = s.secTaint := rfl
@[simp] theorem send_secTag (s : State) (m : OutMsg) : (send s m).secTag = s.secTag := rfl
@[simp] theorem send_pf (s : State) (m : OutMsg) : (send s m).pf = s.pf := rfl
@[simp] theorem send_bar0 (s : State) (m : OutMsg) : (send s m).bar0 = s.bar0 := rfl
@[simp] theorem send_bar2 (s : State) (m : OutMsg) : (send s m).bar2 = s.bar2 := rfl
@[simp] theorem send_cpRing (s : State) (m : OutMsg) : (send s m).cpRing = s.cpRing := rfl
@[simp] theorem send_seqs (s : State) (m : OutMsg) : (send s m).seqs = s.seqs := rfl
@[simp] theorem send_cores (s : State) (m : OutMsg) : (send s m).cores = s.cores := rfl
@[simp] theorem send_rk (s : State) (m : OutMsg) : (send s m).rk = s.rk := rfl
@[simp] theorem send_xl (s : State) (m : OutMsg) : (send s m).xl = s.xl := rfl
@[simp] theorem send_net (s : State) (m : OutMsg) : (send s m).net = s.net := rfl
@[simp] theorem send_plat (s : State) (m : OutMsg) : (send s m).plat = s.plat := rfl
@[simp] theorem send_issue (s : State) (m : OutMsg) : (send s m).issue = s.issue := rfl
@[simp] theorem send_agenda (s : State) (m : OutMsg) : (send s m).agenda = s.agenda := rfl
@[simp] theorem send_cur (s : State) (m : OutMsg) : (send s m).cur = s.cur := rfl
@[simp] theorem send_ev (s : State) (m : OutMsg) : (send s m).ev = s.ev := rfl
@[simp] theorem send_inputs (s : State) (m : OutMsg) : (send s m).inputs = s.inputs := rfl
@[simp] theorem send_out (s : State) (m : OutMsg) : (send s m).out = s.out ++ [m] := rfl
@[simp] theorem send_freeCtr (s : State) (m : OutMsg) : (send s m).freeCtr = s.freeCtr := rfl

/-! ## setFrame -/

@[simp] theorem setFrame_cycle (s : State) (d n : Nat) (f : FrameState) : (setFrame s d n f).cycle = s.cycle := rfl
@[simp] theorem setFrame_devTime (s : State) (d n : Nat) (f : FrameState) : (setFrame s d n f).devTime = s.devTime := rfl
@[simp] theorem setFrame_devRem (s : State) (d n : Nat) (f : FrameState) : (setFrame s d n f).devRem = s.devRem := rfl
@[simp] theorem setFrame_mem (s : State) (d n : Nat) (f : FrameState) : (setFrame s d n f).mem = s.mem := rfl
@[simp] theorem setFrame_secTaint (s : State) (d n : Nat) (f : FrameState) : (setFrame s d n f).secTaint = s.secTaint := rfl
@[simp] theorem setFrame_secTag (s : State) (d n : Nat) (f : FrameState) : (setFrame s d n f).secTag = s.secTag := rfl
@[simp] theorem setFrame_pf (s : State) (d n : Nat) (f : FrameState) : (setFrame s d n f).pf = s.pf := rfl
@[simp] theorem setFrame_bar0 (s : State) (d n : Nat) (f : FrameState) : (setFrame s d n f).bar0 = s.bar0 := rfl
@[simp] theorem setFrame_bar2 (s : State) (d n : Nat) (f : FrameState) : (setFrame s d n f).bar2 = s.bar2 := rfl
@[simp] theorem setFrame_cpRing (s : State) (d n : Nat) (f : FrameState) : (setFrame s d n f).cpRing = s.cpRing := rfl
@[simp] theorem setFrame_seqs (s : State) (d n : Nat) (f : FrameState) : (setFrame s d n f).seqs = s.seqs := rfl
@[simp] theorem setFrame_cores (s : State) (d n : Nat) (f : FrameState) : (setFrame s d n f).cores = s.cores := rfl
@[simp] theorem setFrame_rk (s : State) (d n : Nat) (f : FrameState) : (setFrame s d n f).rk = s.rk := rfl
@[simp] theorem setFrame_net (s : State) (d n : Nat) (f : FrameState) : (setFrame s d n f).net = s.net := rfl
@[simp] theorem setFrame_plat (s : State) (d n : Nat) (f : FrameState) : (setFrame s d n f).plat = s.plat := rfl
@[simp] theorem setFrame_issue (s : State) (d n : Nat) (f : FrameState) : (setFrame s d n f).issue = s.issue := rfl
@[simp] theorem setFrame_agenda (s : State) (d n : Nat) (f : FrameState) : (setFrame s d n f).agenda = s.agenda := rfl
@[simp] theorem setFrame_cur (s : State) (d n : Nat) (f : FrameState) : (setFrame s d n f).cur = s.cur := rfl
@[simp] theorem setFrame_ev (s : State) (d n : Nat) (f : FrameState) : (setFrame s d n f).ev = s.ev := rfl
@[simp] theorem setFrame_inputs (s : State) (d n : Nat) (f : FrameState) : (setFrame s d n f).inputs = s.inputs := rfl
@[simp] theorem setFrame_out (s : State) (d n : Nat) (f : FrameState) : (setFrame s d n f).out = s.out := rfl
@[simp] theorem setFrame_freeCtr (s : State) (d n : Nat) (f : FrameState) : (setFrame s d n f).freeCtr = s.freeCtr := rfl

/-! ## putBytes -/

@[simp] theorem putBytes_cycle (s : State) (a : Nat) (l : List Byte) : (putBytes s a l).cycle = s.cycle := by
  induction l generalizing s a with
  | nil => rfl
  | cons b r ih => exact ih _ _
@[simp] theorem putBytes_devTime (s : State) (a : Nat) (l : List Byte) : (putBytes s a l).devTime = s.devTime := by
  induction l generalizing s a with
  | nil => rfl
  | cons b r ih => exact ih _ _
@[simp] theorem putBytes_devRem (s : State) (a : Nat) (l : List Byte) : (putBytes s a l).devRem = s.devRem := by
  induction l generalizing s a with
  | nil => rfl
  | cons b r ih => exact ih _ _
@[simp] theorem putBytes_secTaint (s : State) (a : Nat) (l : List Byte) : (putBytes s a l).secTaint = s.secTaint := by
  induction l generalizing s a with
  | nil => rfl
  | cons b r ih => exact ih _ _
@[simp] theorem putBytes_secTag (s : State) (a : Nat) (l : List Byte) : (putBytes s a l).secTag = s.secTag := by
  induction l generalizing s a with
  | nil => rfl
  | cons b r ih => exact ih _ _
@[simp] theorem putBytes_pf (s : State) (a : Nat) (l : List Byte) : (putBytes s a l).pf = s.pf := by
  induction l generalizing s a with
  | nil => rfl
  | cons b r ih => exact ih _ _
@[simp] theorem putBytes_bar0 (s : State) (a : Nat) (l : List Byte) : (putBytes s a l).bar0 = s.bar0 := by
  induction l generalizing s a with
  | nil => rfl
  | cons b r ih => exact ih _ _
@[simp] theorem putBytes_bar2 (s : State) (a : Nat) (l : List Byte) : (putBytes s a l).bar2 = s.bar2 := by
  induction l generalizing s a with
  | nil => rfl
  | cons b r ih => exact ih _ _
@[simp] theorem putBytes_cpRing (s : State) (a : Nat) (l : List Byte) : (putBytes s a l).cpRing = s.cpRing := by
  induction l generalizing s a with
  | nil => rfl
  | cons b r ih => exact ih _ _
@[simp] theorem putBytes_seqs (s : State) (a : Nat) (l : List Byte) : (putBytes s a l).seqs = s.seqs := by
  induction l generalizing s a with
  | nil => rfl
  | cons b r ih => exact ih _ _
@[simp] theorem putBytes_cores (s : State) (a : Nat) (l : List Byte) : (putBytes s a l).cores = s.cores := by
  induction l generalizing s a with
  | nil => rfl
  | cons b r ih => exact ih _ _
@[simp] theorem putBytes_rk (s : State) (a : Nat) (l : List Byte) : (putBytes s a l).rk = s.rk := by
  induction l generalizing s a with
  | nil => rfl
  | cons b r ih => exact ih _ _
@[simp] theorem putBytes_xl (s : State) (a : Nat) (l : List Byte) : (putBytes s a l).xl = s.xl := by
  induction l generalizing s a with
  | nil => rfl
  | cons b r ih => exact ih _ _
@[simp] theorem putBytes_net (s : State) (a : Nat) (l : List Byte) : (putBytes s a l).net = s.net := by
  induction l generalizing s a with
  | nil => rfl
  | cons b r ih => exact ih _ _
@[simp] theorem putBytes_plat (s : State) (a : Nat) (l : List Byte) : (putBytes s a l).plat = s.plat := by
  induction l generalizing s a with
  | nil => rfl
  | cons b r ih => exact ih _ _
@[simp] theorem putBytes_issue (s : State) (a : Nat) (l : List Byte) : (putBytes s a l).issue = s.issue := by
  induction l generalizing s a with
  | nil => rfl
  | cons b r ih => exact ih _ _
@[simp] theorem putBytes_agenda (s : State) (a : Nat) (l : List Byte) : (putBytes s a l).agenda = s.agenda := by
  induction l generalizing s a with
  | nil => rfl
  | cons b r ih => exact ih _ _
@[simp] theorem putBytes_cur (s : State) (a : Nat) (l : List Byte) : (putBytes s a l).cur = s.cur := by
  induction l generalizing s a with
  | nil => rfl
  | cons b r ih => exact ih _ _
@[simp] theorem putBytes_ev (s : State) (a : Nat) (l : List Byte) : (putBytes s a l).ev = s.ev := by
  induction l generalizing s a with
  | nil => rfl
  | cons b r ih => exact ih _ _
@[simp] theorem putBytes_inputs (s : State) (a : Nat) (l : List Byte) : (putBytes s a l).inputs = s.inputs := by
  induction l generalizing s a with
  | nil => rfl
  | cons b r ih => exact ih _ _
@[simp] theorem putBytes_out (s : State) (a : Nat) (l : List Byte) : (putBytes s a l).out = s.out := by
  induction l generalizing s a with
  | nil => rfl
  | cons b r ih => exact ih _ _
@[simp] theorem putBytes_freeCtr (s : State) (a : Nat) (l : List Byte) : (putBytes s a l).freeCtr = s.freeCtr := by
  induction l generalizing s a with
  | nil => rfl
  | cons b r ih => exact ih _ _

/-! ## pfPutBytes -/

@[simp] theorem pfPutBytes_cycle (s : State) (a : Nat) (l : List Byte) : (pfPutBytes s a l).cycle = s.cycle := by
  induction l generalizing s a with
  | nil => rfl
  | cons b r ih => exact ih _ _
@[simp] theorem pfPutBytes_devTime (s : State) (a : Nat) (l : List Byte) : (pfPutBytes s a l).devTime = s.devTime := by
  induction l generalizing s a with
  | nil => rfl
  | cons b r ih => exact ih _ _
@[simp] theorem pfPutBytes_devRem (s : State) (a : Nat) (l : List Byte) : (pfPutBytes s a l).devRem = s.devRem := by
  induction l generalizing s a with
  | nil => rfl
  | cons b r ih => exact ih _ _
@[simp] theorem pfPutBytes_mem (s : State) (a : Nat) (l : List Byte) : (pfPutBytes s a l).mem = s.mem := by
  induction l generalizing s a with
  | nil => rfl
  | cons b r ih => exact ih _ _
@[simp] theorem pfPutBytes_secTaint (s : State) (a : Nat) (l : List Byte) : (pfPutBytes s a l).secTaint = s.secTaint := by
  induction l generalizing s a with
  | nil => rfl
  | cons b r ih => exact ih _ _
@[simp] theorem pfPutBytes_secTag (s : State) (a : Nat) (l : List Byte) : (pfPutBytes s a l).secTag = s.secTag := by
  induction l generalizing s a with
  | nil => rfl
  | cons b r ih => exact ih _ _
@[simp] theorem pfPutBytes_bar0 (s : State) (a : Nat) (l : List Byte) : (pfPutBytes s a l).bar0 = s.bar0 := by
  induction l generalizing s a with
  | nil => rfl
  | cons b r ih => exact ih _ _
@[simp] theorem pfPutBytes_bar2 (s : State) (a : Nat) (l : List Byte) : (pfPutBytes s a l).bar2 = s.bar2 := by
  induction l generalizing s a with
  | nil => rfl
  | cons b r ih => exact ih _ _
@[simp] theorem pfPutBytes_cpRing (s : State) (a : Nat) (l : List Byte) : (pfPutBytes s a l).cpRing = s.cpRing := by
  induction l generalizing s a with
  | nil => rfl
  | cons b r ih => exact ih _ _
@[simp] theorem pfPutBytes_seqs (s : State) (a : Nat) (l : List Byte) : (pfPutBytes s a l).seqs = s.seqs := by
  induction l generalizing s a with
  | nil => rfl
  | cons b r ih => exact ih _ _
@[simp] theorem pfPutBytes_cores (s : State) (a : Nat) (l : List Byte) : (pfPutBytes s a l).cores = s.cores := by
  induction l generalizing s a with
  | nil => rfl
  | cons b r ih => exact ih _ _
@[simp] theorem pfPutBytes_rk (s : State) (a : Nat) (l : List Byte) : (pfPutBytes s a l).rk = s.rk := by
  induction l generalizing s a with
  | nil => rfl
  | cons b r ih => exact ih _ _
@[simp] theorem pfPutBytes_xl (s : State) (a : Nat) (l : List Byte) : (pfPutBytes s a l).xl = s.xl := by
  induction l generalizing s a with
  | nil => rfl
  | cons b r ih => exact ih _ _
@[simp] theorem pfPutBytes_net (s : State) (a : Nat) (l : List Byte) : (pfPutBytes s a l).net = s.net := by
  induction l generalizing s a with
  | nil => rfl
  | cons b r ih => exact ih _ _
@[simp] theorem pfPutBytes_plat (s : State) (a : Nat) (l : List Byte) : (pfPutBytes s a l).plat = s.plat := by
  induction l generalizing s a with
  | nil => rfl
  | cons b r ih => exact ih _ _
@[simp] theorem pfPutBytes_issue (s : State) (a : Nat) (l : List Byte) : (pfPutBytes s a l).issue = s.issue := by
  induction l generalizing s a with
  | nil => rfl
  | cons b r ih => exact ih _ _
@[simp] theorem pfPutBytes_agenda (s : State) (a : Nat) (l : List Byte) : (pfPutBytes s a l).agenda = s.agenda := by
  induction l generalizing s a with
  | nil => rfl
  | cons b r ih => exact ih _ _
@[simp] theorem pfPutBytes_cur (s : State) (a : Nat) (l : List Byte) : (pfPutBytes s a l).cur = s.cur := by
  induction l generalizing s a with
  | nil => rfl
  | cons b r ih => exact ih _ _
@[simp] theorem pfPutBytes_ev (s : State) (a : Nat) (l : List Byte) : (pfPutBytes s a l).ev = s.ev := by
  induction l generalizing s a with
  | nil => rfl
  | cons b r ih => exact ih _ _
@[simp] theorem pfPutBytes_inputs (s : State) (a : Nat) (l : List Byte) : (pfPutBytes s a l).inputs = s.inputs := by
  induction l generalizing s a with
  | nil => rfl
  | cons b r ih => exact ih _ _
@[simp] theorem pfPutBytes_out (s : State) (a : Nat) (l : List Byte) : (pfPutBytes s a l).out = s.out := by
  induction l generalizing s a with
  | nil => rfl
  | cons b r ih => exact ih _ _
@[simp] theorem pfPutBytes_freeCtr (s : State) (a : Nat) (l : List Byte) : (pfPutBytes s a l).freeCtr = s.freeCtr := by
  induction l generalizing s a with
  | nil => rfl
  | cons b r ih => exact ih _ _

/-! ## bar0PutBytes -/

@[simp] theorem bar0PutBytes_cycle (s : State) (a : Nat) (l : List Byte) : (bar0PutBytes s a l).cycle = s.cycle := by
  induction l generalizing s a with
  | nil => rfl
  | cons b r ih => exact ih _ _
@[simp] theorem bar0PutBytes_devTime (s : State) (a : Nat) (l : List Byte) : (bar0PutBytes s a l).devTime = s.devTime := by
  induction l generalizing s a with
  | nil => rfl
  | cons b r ih => exact ih _ _
@[simp] theorem bar0PutBytes_devRem (s : State) (a : Nat) (l : List Byte) : (bar0PutBytes s a l).devRem = s.devRem := by
  induction l generalizing s a with
  | nil => rfl
  | cons b r ih => exact ih _ _
@[simp] theorem bar0PutBytes_mem (s : State) (a : Nat) (l : List Byte) : (bar0PutBytes s a l).mem = s.mem := by
  induction l generalizing s a with
  | nil => rfl
  | cons b r ih => exact ih _ _
@[simp] theorem bar0PutBytes_secTaint (s : State) (a : Nat) (l : List Byte) : (bar0PutBytes s a l).secTaint = s.secTaint := by
  induction l generalizing s a with
  | nil => rfl
  | cons b r ih => exact ih _ _
@[simp] theorem bar0PutBytes_secTag (s : State) (a : Nat) (l : List Byte) : (bar0PutBytes s a l).secTag = s.secTag := by
  induction l generalizing s a with
  | nil => rfl
  | cons b r ih => exact ih _ _
@[simp] theorem bar0PutBytes_pf (s : State) (a : Nat) (l : List Byte) : (bar0PutBytes s a l).pf = s.pf := by
  induction l generalizing s a with
  | nil => rfl
  | cons b r ih => exact ih _ _
@[simp] theorem bar0PutBytes_bar2 (s : State) (a : Nat) (l : List Byte) : (bar0PutBytes s a l).bar2 = s.bar2 := by
  induction l generalizing s a with
  | nil => rfl
  | cons b r ih => exact ih _ _
@[simp] theorem bar0PutBytes_cpRing (s : State) (a : Nat) (l : List Byte) : (bar0PutBytes s a l).cpRing = s.cpRing := by
  induction l generalizing s a with
  | nil => rfl
  | cons b r ih => exact ih _ _
@[simp] theorem bar0PutBytes_seqs (s : State) (a : Nat) (l : List Byte) : (bar0PutBytes s a l).seqs = s.seqs := by
  induction l generalizing s a with
  | nil => rfl
  | cons b r ih => exact ih _ _
@[simp] theorem bar0PutBytes_cores (s : State) (a : Nat) (l : List Byte) : (bar0PutBytes s a l).cores = s.cores := by
  induction l generalizing s a with
  | nil => rfl
  | cons b r ih => exact ih _ _
@[simp] theorem bar0PutBytes_rk (s : State) (a : Nat) (l : List Byte) : (bar0PutBytes s a l).rk = s.rk := by
  induction l generalizing s a with
  | nil => rfl
  | cons b r ih => exact ih _ _
@[simp] theorem bar0PutBytes_xl (s : State) (a : Nat) (l : List Byte) : (bar0PutBytes s a l).xl = s.xl := by
  induction l generalizing s a with
  | nil => rfl
  | cons b r ih => exact ih _ _
@[simp] theorem bar0PutBytes_net (s : State) (a : Nat) (l : List Byte) : (bar0PutBytes s a l).net = s.net := by
  induction l generalizing s a with
  | nil => rfl
  | cons b r ih => exact ih _ _
@[simp] theorem bar0PutBytes_plat (s : State) (a : Nat) (l : List Byte) : (bar0PutBytes s a l).plat = s.plat := by
  induction l generalizing s a with
  | nil => rfl
  | cons b r ih => exact ih _ _
@[simp] theorem bar0PutBytes_issue (s : State) (a : Nat) (l : List Byte) : (bar0PutBytes s a l).issue = s.issue := by
  induction l generalizing s a with
  | nil => rfl
  | cons b r ih => exact ih _ _
@[simp] theorem bar0PutBytes_agenda (s : State) (a : Nat) (l : List Byte) : (bar0PutBytes s a l).agenda = s.agenda := by
  induction l generalizing s a with
  | nil => rfl
  | cons b r ih => exact ih _ _
@[simp] theorem bar0PutBytes_cur (s : State) (a : Nat) (l : List Byte) : (bar0PutBytes s a l).cur = s.cur := by
  induction l generalizing s a with
  | nil => rfl
  | cons b r ih => exact ih _ _
@[simp] theorem bar0PutBytes_ev (s : State) (a : Nat) (l : List Byte) : (bar0PutBytes s a l).ev = s.ev := by
  induction l generalizing s a with
  | nil => rfl
  | cons b r ih => exact ih _ _
@[simp] theorem bar0PutBytes_inputs (s : State) (a : Nat) (l : List Byte) : (bar0PutBytes s a l).inputs = s.inputs := by
  induction l generalizing s a with
  | nil => rfl
  | cons b r ih => exact ih _ _
@[simp] theorem bar0PutBytes_out (s : State) (a : Nat) (l : List Byte) : (bar0PutBytes s a l).out = s.out := by
  induction l generalizing s a with
  | nil => rfl
  | cons b r ih => exact ih _ _
@[simp] theorem bar0PutBytes_freeCtr (s : State) (a : Nat) (l : List Byte) : (bar0PutBytes s a l).freeCtr = s.freeCtr := by
  induction l generalizing s a with
  | nil => rfl
  | cons b r ih => exact ih _ _

/-! ## bar2PutBytes -/

@[simp] theorem bar2PutBytes_cycle (s : State) (a : Nat) (l : List Byte) : (bar2PutBytes s a l).cycle = s.cycle := by
  induction l generalizing s a with
  | nil => rfl
  | cons b r ih => exact ih _ _
@[simp] theorem bar2PutBytes_devTime (s : State) (a : Nat) (l : List Byte) : (bar2PutBytes s a l).devTime = s.devTime := by
  induction l generalizing s a with
  | nil => rfl
  | cons b r ih => exact ih _ _
@[simp] theorem bar2PutBytes_devRem (s : State) (a : Nat) (l : List Byte) : (bar2PutBytes s a l).devRem = s.devRem := by
  induction l generalizing s a with
  | nil => rfl
  | cons b r ih => exact ih _ _
@[simp] theorem bar2PutBytes_mem (s : State) (a : Nat) (l : List Byte) : (bar2PutBytes s a l).mem = s.mem := by
  induction l generalizing s a with
  | nil => rfl
  | cons b r ih => exact ih _ _
@[simp] theorem bar2PutBytes_secTaint (s : State) (a : Nat) (l : List Byte) : (bar2PutBytes s a l).secTaint = s.secTaint := by
  induction l generalizing s a with
  | nil => rfl
  | cons b r ih => exact ih _ _
@[simp] theorem bar2PutBytes_secTag (s : State) (a : Nat) (l : List Byte) : (bar2PutBytes s a l).secTag = s.secTag := by
  induction l generalizing s a with
  | nil => rfl
  | cons b r ih => exact ih _ _
@[simp] theorem bar2PutBytes_pf (s : State) (a : Nat) (l : List Byte) : (bar2PutBytes s a l).pf = s.pf := by
  induction l generalizing s a with
  | nil => rfl
  | cons b r ih => exact ih _ _
@[simp] theorem bar2PutBytes_bar0 (s : State) (a : Nat) (l : List Byte) : (bar2PutBytes s a l).bar0 = s.bar0 := by
  induction l generalizing s a with
  | nil => rfl
  | cons b r ih => exact ih _ _
@[simp] theorem bar2PutBytes_cpRing (s : State) (a : Nat) (l : List Byte) : (bar2PutBytes s a l).cpRing = s.cpRing := by
  induction l generalizing s a with
  | nil => rfl
  | cons b r ih => exact ih _ _
@[simp] theorem bar2PutBytes_seqs (s : State) (a : Nat) (l : List Byte) : (bar2PutBytes s a l).seqs = s.seqs := by
  induction l generalizing s a with
  | nil => rfl
  | cons b r ih => exact ih _ _
@[simp] theorem bar2PutBytes_cores (s : State) (a : Nat) (l : List Byte) : (bar2PutBytes s a l).cores = s.cores := by
  induction l generalizing s a with
  | nil => rfl
  | cons b r ih => exact ih _ _
@[simp] theorem bar2PutBytes_rk (s : State) (a : Nat) (l : List Byte) : (bar2PutBytes s a l).rk = s.rk := by
  induction l generalizing s a with
  | nil => rfl
  | cons b r ih => exact ih _ _
@[simp] theorem bar2PutBytes_xl (s : State) (a : Nat) (l : List Byte) : (bar2PutBytes s a l).xl = s.xl := by
  induction l generalizing s a with
  | nil => rfl
  | cons b r ih => exact ih _ _
@[simp] theorem bar2PutBytes_net (s : State) (a : Nat) (l : List Byte) : (bar2PutBytes s a l).net = s.net := by
  induction l generalizing s a with
  | nil => rfl
  | cons b r ih => exact ih _ _
@[simp] theorem bar2PutBytes_plat (s : State) (a : Nat) (l : List Byte) : (bar2PutBytes s a l).plat = s.plat := by
  induction l generalizing s a with
  | nil => rfl
  | cons b r ih => exact ih _ _
@[simp] theorem bar2PutBytes_issue (s : State) (a : Nat) (l : List Byte) : (bar2PutBytes s a l).issue = s.issue := by
  induction l generalizing s a with
  | nil => rfl
  | cons b r ih => exact ih _ _
@[simp] theorem bar2PutBytes_agenda (s : State) (a : Nat) (l : List Byte) : (bar2PutBytes s a l).agenda = s.agenda := by
  induction l generalizing s a with
  | nil => rfl
  | cons b r ih => exact ih _ _
@[simp] theorem bar2PutBytes_cur (s : State) (a : Nat) (l : List Byte) : (bar2PutBytes s a l).cur = s.cur := by
  induction l generalizing s a with
  | nil => rfl
  | cons b r ih => exact ih _ _
@[simp] theorem bar2PutBytes_ev (s : State) (a : Nat) (l : List Byte) : (bar2PutBytes s a l).ev = s.ev := by
  induction l generalizing s a with
  | nil => rfl
  | cons b r ih => exact ih _ _
@[simp] theorem bar2PutBytes_inputs (s : State) (a : Nat) (l : List Byte) : (bar2PutBytes s a l).inputs = s.inputs := by
  induction l generalizing s a with
  | nil => rfl
  | cons b r ih => exact ih _ _
@[simp] theorem bar2PutBytes_out (s : State) (a : Nat) (l : List Byte) : (bar2PutBytes s a l).out = s.out := by
  induction l generalizing s a with
  | nil => rfl
  | cons b r ih => exact ih _ _
@[simp] theorem bar2PutBytes_freeCtr (s : State) (a : Nat) (l : List Byte) : (bar2PutBytes s a l).freeCtr = s.freeCtr := by
  induction l generalizing s a with
  | nil => rfl
  | cons b r ih => exact ih _ _

/-! ## cpRingPutBytes -/

@[simp] theorem cpRingPutBytes_cycle (s : State) (a : Nat) (l : List Byte) : (cpRingPutBytes s a l).cycle = s.cycle := by
  induction l generalizing s a with
  | nil => rfl
  | cons b r ih => exact ih _ _
@[simp] theorem cpRingPutBytes_devTime (s : State) (a : Nat) (l : List Byte) : (cpRingPutBytes s a l).devTime = s.devTime := by
  induction l generalizing s a with
  | nil => rfl
  | cons b r ih => exact ih _ _
@[simp] theorem cpRingPutBytes_devRem (s : State) (a : Nat) (l : List Byte) : (cpRingPutBytes s a l).devRem = s.devRem := by
  induction l generalizing s a with
  | nil => rfl
  | cons b r ih => exact ih _ _
@[simp] theorem cpRingPutBytes_mem (s : State) (a : Nat) (l : List Byte) : (cpRingPutBytes s a l).mem = s.mem := by
  induction l generalizing s a with
  | nil => rfl
  | cons b r ih => exact ih _ _
@[simp] theorem cpRingPutBytes_secTaint (s : State) (a : Nat) (l : List Byte) : (cpRingPutBytes s a l).secTaint = s.secTaint := by
  induction l generalizing s a with
  | nil => rfl
  | cons b r ih => exact ih _ _
@[simp] theorem cpRingPutBytes_secTag (s : State) (a : Nat) (l : List Byte) : (cpRingPutBytes s a l).secTag = s.secTag := by
  induction l generalizing s a with
  | nil => rfl
  | cons b r ih => exact ih _ _
@[simp] theorem cpRingPutBytes_pf (s : State) (a : Nat) (l : List Byte) : (cpRingPutBytes s a l).pf = s.pf := by
  induction l generalizing s a with
  | nil => rfl
  | cons b r ih => exact ih _ _
@[simp] theorem cpRingPutBytes_bar0 (s : State) (a : Nat) (l : List Byte) : (cpRingPutBytes s a l).bar0 = s.bar0 := by
  induction l generalizing s a with
  | nil => rfl
  | cons b r ih => exact ih _ _
@[simp] theorem cpRingPutBytes_bar2 (s : State) (a : Nat) (l : List Byte) : (cpRingPutBytes s a l).bar2 = s.bar2 := by
  induction l generalizing s a with
  | nil => rfl
  | cons b r ih => exact ih _ _
@[simp] theorem cpRingPutBytes_seqs (s : State) (a : Nat) (l : List Byte) : (cpRingPutBytes s a l).seqs = s.seqs := by
  induction l generalizing s a with
  | nil => rfl
  | cons b r ih => exact ih _ _
@[simp] theorem cpRingPutBytes_cores (s : State) (a : Nat) (l : List Byte) : (cpRingPutBytes s a l).cores = s.cores := by
  induction l generalizing s a with
  | nil => rfl
  | cons b r ih => exact ih _ _
@[simp] theorem cpRingPutBytes_rk (s : State) (a : Nat) (l : List Byte) : (cpRingPutBytes s a l).rk = s.rk := by
  induction l generalizing s a with
  | nil => rfl
  | cons b r ih => exact ih _ _
@[simp] theorem cpRingPutBytes_xl (s : State) (a : Nat) (l : List Byte) : (cpRingPutBytes s a l).xl = s.xl := by
  induction l generalizing s a with
  | nil => rfl
  | cons b r ih => exact ih _ _
@[simp] theorem cpRingPutBytes_net (s : State) (a : Nat) (l : List Byte) : (cpRingPutBytes s a l).net = s.net := by
  induction l generalizing s a with
  | nil => rfl
  | cons b r ih => exact ih _ _
@[simp] theorem cpRingPutBytes_plat (s : State) (a : Nat) (l : List Byte) : (cpRingPutBytes s a l).plat = s.plat := by
  induction l generalizing s a with
  | nil => rfl
  | cons b r ih => exact ih _ _
@[simp] theorem cpRingPutBytes_issue (s : State) (a : Nat) (l : List Byte) : (cpRingPutBytes s a l).issue = s.issue := by
  induction l generalizing s a with
  | nil => rfl
  | cons b r ih => exact ih _ _
@[simp] theorem cpRingPutBytes_agenda (s : State) (a : Nat) (l : List Byte) : (cpRingPutBytes s a l).agenda = s.agenda := by
  induction l generalizing s a with
  | nil => rfl
  | cons b r ih => exact ih _ _
@[simp] theorem cpRingPutBytes_cur (s : State) (a : Nat) (l : List Byte) : (cpRingPutBytes s a l).cur = s.cur := by
  induction l generalizing s a with
  | nil => rfl
  | cons b r ih => exact ih _ _
@[simp] theorem cpRingPutBytes_ev (s : State) (a : Nat) (l : List Byte) : (cpRingPutBytes s a l).ev = s.ev := by
  induction l generalizing s a with
  | nil => rfl
  | cons b r ih => exact ih _ _
@[simp] theorem cpRingPutBytes_inputs (s : State) (a : Nat) (l : List Byte) : (cpRingPutBytes s a l).inputs = s.inputs := by
  induction l generalizing s a with
  | nil => rfl
  | cons b r ih => exact ih _ _
@[simp] theorem cpRingPutBytes_out (s : State) (a : Nat) (l : List Byte) : (cpRingPutBytes s a l).out = s.out := by
  induction l generalizing s a with
  | nil => rfl
  | cons b r ih => exact ih _ _
@[simp] theorem cpRingPutBytes_freeCtr (s : State) (a : Nat) (l : List Byte) : (cpRingPutBytes s a l).freeCtr = s.freeCtr := by
  induction l generalizing s a with
  | nil => rfl
  | cons b r ih => exact ih _ _

/-! ## pfSet -/

@[simp] theorem pfSet_cycle (s : State) (o n v : Nat) : (pfSet s o n v).cycle = s.cycle := pfPutBytes_cycle _ _ _
@[simp] theorem pfSet_devTime (s : State) (o n v : Nat) : (pfSet s o n v).devTime = s.devTime := pfPutBytes_devTime _ _ _
@[simp] theorem pfSet_devRem (s : State) (o n v : Nat) : (pfSet s o n v).devRem = s.devRem := pfPutBytes_devRem _ _ _
@[simp] theorem pfSet_mem (s : State) (o n v : Nat) : (pfSet s o n v).mem = s.mem := pfPutBytes_mem _ _ _
@[simp] theorem pfSet_secTaint (s : State) (o n v : Nat) : (pfSet s o n v).secTaint = s.secTaint := pfPutBytes_secTaint _ _ _
@[simp] theorem pfSet_secTag (s : State) (o n v : Nat) : (pfSet s o n v).secTag = s.secTag := pfPutBytes_secTag _ _ _
@[simp] theorem pfSet_bar0 (s : State) (o n v : Nat) : (pfSet s o n v).bar0 = s.bar0 := pfPutBytes_bar0 _ _ _
@[simp] theorem pfSet_bar2 (s : State) (o n v : Nat) : (pfSet s o n v).bar2 = s.bar2 := pfPutBytes_bar2 _ _ _
@[simp] theorem pfSet_cpRing (s : State) (o n v : Nat) : (pfSet s o n v).cpRing = s.cpRing := pfPutBytes_cpRing _ _ _
@[simp] theorem pfSet_seqs (s : State) (o n v : Nat) : (pfSet s o n v).seqs = s.seqs := pfPutBytes_seqs _ _ _
@[simp] theorem pfSet_cores (s : State) (o n v : Nat) : (pfSet s o n v).cores = s.cores := pfPutBytes_cores _ _ _
@[simp] theorem pfSet_rk (s : State) (o n v : Nat) : (pfSet s o n v).rk = s.rk := pfPutBytes_rk _ _ _
@[simp] theorem pfSet_xl (s : State) (o n v : Nat) : (pfSet s o n v).xl = s.xl := pfPutBytes_xl _ _ _
@[simp] theorem pfSet_net (s : State) (o n v : Nat) : (pfSet s o n v).net = s.net := pfPutBytes_net _ _ _
@[simp] theorem pfSet_plat (s : State) (o n v : Nat) : (pfSet s o n v).plat = s.plat := pfPutBytes_plat _ _ _
@[simp] theorem pfSet_issue (s : State) (o n v : Nat) : (pfSet s o n v).issue = s.issue := pfPutBytes_issue _ _ _
@[simp] theorem pfSet_agenda (s : State) (o n v : Nat) : (pfSet s o n v).agenda = s.agenda := pfPutBytes_agenda _ _ _
@[simp] theorem pfSet_cur (s : State) (o n v : Nat) : (pfSet s o n v).cur = s.cur := pfPutBytes_cur _ _ _
@[simp] theorem pfSet_ev (s : State) (o n v : Nat) : (pfSet s o n v).ev = s.ev := pfPutBytes_ev _ _ _
@[simp] theorem pfSet_inputs (s : State) (o n v : Nat) : (pfSet s o n v).inputs = s.inputs := pfPutBytes_inputs _ _ _
@[simp] theorem pfSet_out (s : State) (o n v : Nat) : (pfSet s o n v).out = s.out := pfPutBytes_out _ _ _
@[simp] theorem pfSet_freeCtr (s : State) (o n v : Nat) : (pfSet s o n v).freeCtr = s.freeCtr := pfPutBytes_freeCtr _ _ _

/-! ## pfOr -/

@[simp] theorem pfOr_cycle (s : State) (o n v : Nat) : (pfOr s o n v).cycle = s.cycle := pfPutBytes_cycle _ _ _
@[simp] theorem pfOr_devTime (s : State) (o n v : Nat) : (pfOr s o n v).devTime = s.devTime := pfPutBytes_devTime _ _ _
@[simp] theorem pfOr_devRem (s : State) (o n v : Nat) : (pfOr s o n v).devRem = s.devRem := pfPutBytes_devRem _ _ _
@[simp] theorem pfOr_mem (s : State) (o n v : Nat) : (pfOr s o n v).mem = s.mem := pfPutBytes_mem _ _ _
@[simp] theorem pfOr_secTaint (s : State) (o n v : Nat) : (pfOr s o n v).secTaint = s.secTaint := pfPutBytes_secTaint _ _ _
@[simp] theorem pfOr_secTag (s : State) (o n v : Nat) : (pfOr s o n v).secTag = s.secTag := pfPutBytes_secTag _ _ _
@[simp] theorem pfOr_bar0 (s : State) (o n v : Nat) : (pfOr s o n v).bar0 = s.bar0 := pfPutBytes_bar0 _ _ _
@[simp] theorem pfOr_bar2 (s : State) (o n v : Nat) : (pfOr s o n v).bar2 = s.bar2 := pfPutBytes_bar2 _ _ _
@[simp] theorem pfOr_cpRing (s : State) (o n v : Nat) : (pfOr s o n v).cpRing = s.cpRing := pfPutBytes_cpRing _ _ _
@[simp] theorem pfOr_seqs (s : State) (o n v : Nat) : (pfOr s o n v).seqs = s.seqs := pfPutBytes_seqs _ _ _
@[simp] theorem pfOr_cores (s : State) (o n v : Nat) : (pfOr s o n v).cores = s.cores := pfPutBytes_cores _ _ _
@[simp] theorem pfOr_rk (s : State) (o n v : Nat) : (pfOr s o n v).rk = s.rk := pfPutBytes_rk _ _ _
@[simp] theorem pfOr_xl (s : State) (o n v : Nat) : (pfOr s o n v).xl = s.xl := pfPutBytes_xl _ _ _
@[simp] theorem pfOr_net (s : State) (o n v : Nat) : (pfOr s o n v).net = s.net := pfPutBytes_net _ _ _
@[simp] theorem pfOr_plat (s : State) (o n v : Nat) : (pfOr s o n v).plat = s.plat := pfPutBytes_plat _ _ _
@[simp] theorem pfOr_issue (s : State) (o n v : Nat) : (pfOr s o n v).issue = s.issue := pfPutBytes_issue _ _ _
@[simp] theorem pfOr_agenda (s : State) (o n v : Nat) : (pfOr s o n v).agenda = s.agenda := pfPutBytes_agenda _ _ _
@[simp] theorem pfOr_cur (s : State) (o n v : Nat) : (pfOr s o n v).cur = s.cur := pfPutBytes_cur _ _ _
@[simp] theorem pfOr_ev (s : State) (o n v : Nat) : (pfOr s o n v).ev = s.ev := pfPutBytes_ev _ _ _
@[simp] theorem pfOr_inputs (s : State) (o n v : Nat) : (pfOr s o n v).inputs = s.inputs := pfPutBytes_inputs _ _ _
@[simp] theorem pfOr_out (s : State) (o n v : Nat) : (pfOr s o n v).out = s.out := pfPutBytes_out _ _ _
@[simp] theorem pfOr_freeCtr (s : State) (o n v : Nat) : (pfOr s o n v).freeCtr = s.freeCtr := pfPutBytes_freeCtr _ _ _

/-! ## bar0Set -/

@[simp] theorem bar0Set_cycle (s : State) (v o n x : Nat) : (bar0Set s v o n x).cycle = s.cycle := bar0PutBytes_cycle _ _ _
@[simp] theorem bar0Set_devTime (s : State) (v o n x : Nat) : (bar0Set s v o n x).devTime = s.devTime := bar0PutBytes_devTime _ _ _
@[simp] theorem bar0Set_devRem (s : State) (v o n x : Nat) : (bar0Set s v o n x).devRem = s.devRem := bar0PutBytes_devRem _ _ _
@[simp] theorem bar0Set_mem (s : State) (v o n x : Nat) : (bar0Set s v o n x).mem = s.mem := bar0PutBytes_mem _ _ _
@[simp] theorem bar0Set_secTaint (s : State) (v o n x : Nat) : (bar0Set s v o n x).secTaint = s.secTaint := bar0PutBytes_secTaint _ _ _
@[simp] theorem bar0Set_secTag (s : State) (v o n x : Nat) : (bar0Set s v o n x).secTag = s.secTag := bar0PutBytes_secTag _ _ _
@[simp] theorem bar0Set_pf (s : State) (v o n x : Nat) : (bar0Set s v o n x).pf = s.pf := bar0PutBytes_pf _ _ _
@[simp] theorem bar0Set_bar2 (s : State) (v o n x : Nat) : (bar0Set s v o n x).bar2 = s.bar2 := bar0PutBytes_bar2 _ _ _
@[simp] theorem bar0Set_cpRing (s : State) (v o n x : Nat) : (bar0Set s v o n x).cpRing = s.cpRing := bar0PutBytes_cpRing _ _ _
@[simp] theorem bar0Set_seqs (s : State) (v o n x : Nat) : (bar0Set s v o n x).seqs = s.seqs := bar0PutBytes_seqs _ _ _
@[simp] theorem bar0Set_cores (s : State) (v o n x : Nat) : (bar0Set s v o n x).cores = s.cores := bar0PutBytes_cores _ _ _
@[simp] theorem bar0Set_rk (s : State) (v o n x : Nat) : (bar0Set s v o n x).rk = s.rk := bar0PutBytes_rk _ _ _
@[simp] theorem bar0Set_xl (s : State) (v o n x : Nat) : (bar0Set s v o n x).xl = s.xl := bar0PutBytes_xl _ _ _
@[simp] theorem bar0Set_net (s : State) (v o n x : Nat) : (bar0Set s v o n x).net = s.net := bar0PutBytes_net _ _ _
@[simp] theorem bar0Set_plat (s : State) (v o n x : Nat) : (bar0Set s v o n x).plat = s.plat := bar0PutBytes_plat _ _ _
@[simp] theorem bar0Set_issue (s : State) (v o n x : Nat) : (bar0Set s v o n x).issue = s.issue := bar0PutBytes_issue _ _ _
@[simp] theorem bar0Set_agenda (s : State) (v o n x : Nat) : (bar0Set s v o n x).agenda = s.agenda := bar0PutBytes_agenda _ _ _
@[simp] theorem bar0Set_cur (s : State) (v o n x : Nat) : (bar0Set s v o n x).cur = s.cur := bar0PutBytes_cur _ _ _
@[simp] theorem bar0Set_ev (s : State) (v o n x : Nat) : (bar0Set s v o n x).ev = s.ev := bar0PutBytes_ev _ _ _
@[simp] theorem bar0Set_inputs (s : State) (v o n x : Nat) : (bar0Set s v o n x).inputs = s.inputs := bar0PutBytes_inputs _ _ _
@[simp] theorem bar0Set_out (s : State) (v o n x : Nat) : (bar0Set s v o n x).out = s.out := bar0PutBytes_out _ _ _
@[simp] theorem bar0Set_freeCtr (s : State) (v o n x : Nat) : (bar0Set s v o n x).freeCtr = s.freeCtr := bar0PutBytes_freeCtr _ _ _

/-! ## setPartField -/

@[simp] theorem setPartField_cycle (s : State) (p o n v : Nat) : (setPartField s p o n v).cycle = s.cycle := pfPutBytes_cycle _ _ _
@[simp] theorem setPartField_devTime (s : State) (p o n v : Nat) : (setPartField s p o n v).devTime = s.devTime := pfPutBytes_devTime _ _ _
@[simp] theorem setPartField_devRem (s : State) (p o n v : Nat) : (setPartField s p o n v).devRem = s.devRem := pfPutBytes_devRem _ _ _
@[simp] theorem setPartField_mem (s : State) (p o n v : Nat) : (setPartField s p o n v).mem = s.mem := pfPutBytes_mem _ _ _
@[simp] theorem setPartField_secTaint (s : State) (p o n v : Nat) : (setPartField s p o n v).secTaint = s.secTaint := pfPutBytes_secTaint _ _ _
@[simp] theorem setPartField_secTag (s : State) (p o n v : Nat) : (setPartField s p o n v).secTag = s.secTag := pfPutBytes_secTag _ _ _
@[simp] theorem setPartField_bar0 (s : State) (p o n v : Nat) : (setPartField s p o n v).bar0 = s.bar0 := pfPutBytes_bar0 _ _ _
@[simp] theorem setPartField_bar2 (s : State) (p o n v : Nat) : (setPartField s p o n v).bar2 = s.bar2 := pfPutBytes_bar2 _ _ _
@[simp] theorem setPartField_cpRing (s : State) (p o n v : Nat) : (setPartField s p o n v).cpRing = s.cpRing := pfPutBytes_cpRing _ _ _
@[simp] theorem setPartField_seqs (s : State) (p o n v : Nat) : (setPartField s p o n v).seqs = s.seqs := pfPutBytes_seqs _ _ _
@[simp] theorem setPartField_cores (s : State) (p o n v : Nat) : (setPartField s p o n v).cores = s.cores := pfPutBytes_cores _ _ _
@[simp] theorem setPartField_rk (s : State) (p o n v : Nat) : (setPartField s p o n v).rk = s.rk := pfPutBytes_rk _ _ _
@[simp] theorem setPartField_xl (s : State) (p o n v : Nat) : (setPartField s p o n v).xl = s.xl := pfPutBytes_xl _ _ _
@[simp] theorem setPartField_net (s : State) (p o n v : Nat) : (setPartField s p o n v).net = s.net := pfPutBytes_net _ _ _
@[simp] theorem setPartField_plat (s : State) (p o n v : Nat) : (setPartField s p o n v).plat = s.plat := pfPutBytes_plat _ _ _
@[simp] theorem setPartField_issue (s : State) (p o n v : Nat) : (setPartField s p o n v).issue = s.issue := pfPutBytes_issue _ _ _
@[simp] theorem setPartField_agenda (s : State) (p o n v : Nat) : (setPartField s p o n v).agenda = s.agenda := pfPutBytes_agenda _ _ _
@[simp] theorem setPartField_cur (s : State) (p o n v : Nat) : (setPartField s p o n v).cur = s.cur := pfPutBytes_cur _ _ _
@[simp] theorem setPartField_ev (s : State) (p o n v : Nat) : (setPartField s p o n v).ev = s.ev := pfPutBytes_ev _ _ _
@[simp] theorem setPartField_inputs (s : State) (p o n v : Nat) : (setPartField s p o n v).inputs = s.inputs := pfPutBytes_inputs _ _ _
@[simp] theorem setPartField_out (s : State) (p o n v : Nat) : (setPartField s p o n v).out = s.out := pfPutBytes_out _ _ _
@[simp] theorem setPartField_freeCtr (s : State) (p o n v : Nat) : (setPartField s p o n v).freeCtr = s.freeCtr := pfPutBytes_freeCtr _ _ _

end Sys2Proof.Machine
end

