-- ==== Sys2Proof/Laws/Memory.lean ====
section
/-! SUPPORT. Tables and byte memory: reading after writing, and that every memory operation keeps the canonical form. -/

namespace Sys2Proof.Machine

open Sys2Proof

/-! ## Tables -/

variable {α : Type}

theorem Tbl.find?_erase (t : Tbl α) (k k' : Nat) : Tbl.find? (Tbl.erase t k) k' = if k = k' then none else Tbl.find? t k' := by
  induction t with
  | nil => simp [Tbl.erase, Tbl.find?]
  | cons e r ih =>
    obtain ⟨a, v⟩ := e
    simp only [Tbl.erase]
    split <;> rename_i h
    · subst h; rw [ih]; split <;> simp_all [Tbl.find?]
    · simp only [Tbl.find?]
      split <;> rename_i h2
      · subst h2; simp [Ne.symm h]
      · exact ih

theorem Tbl.find?_insert (t : Tbl α) (k k' : Nat) (v : α) (h : Tbl.find? t k = none) :
    Tbl.find? (Tbl.insert t k v) k' = if k = k' then some v else Tbl.find? t k' := by
  induction t with
  | nil => simp [Tbl.insert, Tbl.find?]
  | cons e r ih =>
    obtain ⟨a, w⟩ := e
    simp only [Tbl.find?] at h
    split at h <;> rename_i ha
    · cases h
    · simp only [Tbl.insert]
      split <;> rename_i hk
      · simp [Tbl.find?]
      · simp only [Tbl.find?]
        split <;> rename_i h2
        · subst h2; simp [Ne.symm ha]
        · exact ih h

theorem Tbl.find?_set [DecidableEq α] (d : α) (t : Tbl α) (k k' : Nat) (v : α) :
    Tbl.find? (Tbl.set d t k v) k' = if k = k' then (if v = d then none else some v) else Tbl.find? t k' := by
  unfold Tbl.set
  split <;> rename_i h
  · rw [find?_erase]
  · rw [find?_insert _ _ _ _ (by rw [find?_erase]; simp), find?_erase]; split <;> rfl

/-- Reading an entry after writing one. -/
theorem Tbl.get_set [DecidableEq α] (d : α) (t : Tbl α) (k k' : Nat) (v : α) :
    Tbl.get d (Tbl.set d t k v) k' = if k = k' then v else Tbl.get d t k' := by
  unfold Tbl.get
  rw [find?_set]
  split
  · split <;> simp_all
  · rfl

@[simp] theorem Tbl.get_set_self [DecidableEq α] (d : α) (t : Tbl α) (k : Nat) (v : α) : Tbl.get d (Tbl.set d t k v) k = v := by
  simp [Tbl.get_set]

theorem Tbl.get_set_ne [DecidableEq α] (d : α) (t : Tbl α) (k k' : Nat) (v : α) (h : k ≠ k') :
    Tbl.get d (Tbl.set d t k v) k' = Tbl.get d t k' := by
  simp [Tbl.get_set, h]

/-! ## The canonical form -/

theorem Tbl.sortedFrom_mono (t : Tbl α) (a b : Nat) (h : a ≤ b) (hs : Tbl.sortedFrom b t = true) : Tbl.sortedFrom a t = true := by
  cases t with
  | nil => rfl
  | cons e r => simp only [sortedFrom, Bool.and_eq_true, decide_eq_true_eq] at hs ⊢; exact ⟨by omega, hs.2⟩

theorem Tbl.sortedFrom_filter (p : Nat × α → Bool) (t : Tbl α) (b : Nat) (h : Tbl.sortedFrom b t = true) :
    Tbl.sortedFrom b (t.filter p) = true := by
  induction t generalizing b with
  | nil => rfl
  | cons e r ih =>
    simp only [sortedFrom, Bool.and_eq_true, decide_eq_true_eq] at h
    simp only [List.filter]
    split
    · simp only [sortedFrom, Bool.and_eq_true, decide_eq_true_eq]; exact ⟨h.1, ih _ h.2⟩
    · exact sortedFrom_mono _ _ (e.1 + 1) (by omega) (ih _ h.2)

theorem Tbl.erase_eq_filter (t : Tbl α) (k : Nat) : Tbl.erase t k = t.filter fun e => !decide (e.1 = k) := by
  induction t with
  | nil => rfl
  | cons e r ih => simp only [erase, List.filter]; split <;> simp_all

theorem Tbl.sortedFrom_insert (t : Tbl α) (k b : Nat) (v : α) (hb : b ≤ k) (h : Tbl.sortedFrom b t = true)
    (hk : Tbl.find? t k = none) : Tbl.sortedFrom b (Tbl.insert t k v) = true := by
  induction t generalizing b with
  | nil => simp [insert, sortedFrom, hb]
  | cons e r ih =>
    obtain ⟨a, w⟩ := e
    simp only [sortedFrom, Bool.and_eq_true, decide_eq_true_eq] at h
    simp only [find?] at hk
    split at hk <;> rename_i ha
    · cases hk
    · simp only [insert]
      split <;> rename_i hlt
      · simp only [sortedFrom, Bool.and_eq_true, decide_eq_true_eq]
        exact ⟨hb, by omega, h.2⟩
      · simp only [sortedFrom, Bool.and_eq_true, decide_eq_true_eq]
        exact ⟨h.1, ih (a + 1) (by omega) h.2 hk⟩

theorem Tbl.all_insert (p : Nat × α → Bool) (t : Tbl α) (k : Nat) (v : α) (hp : p (k, v) = true) (h : t.all p = true) :
    (Tbl.insert t k v).all p = true := by
  induction t with
  | nil => simp [insert, hp]
  | cons e r ih =>
    simp only [List.all_cons, Bool.and_eq_true] at h
    simp only [insert]
    split <;> simp_all

theorem Tbl.wf_filter [DecidableEq α] (d : α) (p : Nat × α → Bool) (t : Tbl α) (h : Tbl.wf d t = true) : Tbl.wf d (t.filter p) = true := by
  simp only [wf, Bool.and_eq_true] at h ⊢
  refine ⟨sortedFrom_filter p t 0 h.1, ?_⟩
  rw [List.all_eq_true] at h ⊢
  exact fun e he => h.2 e (List.mem_filter.mp he).1

theorem Tbl.wf_set [DecidableEq α] (d : α) (t : Tbl α) (k : Nat) (v : α) (h : Tbl.wf d t = true) : Tbl.wf d (Tbl.set d t k v) = true := by
  have he : Tbl.wf d (Tbl.erase t k) = true := by rw [erase_eq_filter]; exact wf_filter d _ t h
  unfold set
  split <;> rename_i hv
  · exact he
  · simp only [wf, Bool.and_eq_true] at he ⊢
    refine ⟨sortedFrom_insert _ _ _ _ (Nat.zero_le k) he.1 (by rw [find?_erase]; simp), ?_⟩
    exact all_insert _ _ _ _ (by simp [hv]) he.2

/-! ## Byte memory -/

/-- Reading a byte after writing one. -/
theorem memByte_putByte (s : State) (a b : Nat) (x : Byte) : memByte (putByte s a x) b = if a = b then x else memByte s b := by
  simp [memByte, Tbl.get_set]

/-- Reading a byte outside the bytes written. -/
theorem memByte_putBytes_ne (s : State) (a b : Nat) (l : List Byte) (h : b < a ∨ a + l.length ≤ b) :
    memByte (putBytes s a l) b = memByte s b := by
  induction l generalizing s a with
  | nil => rfl
  | cons x r ih =>
    simp only [List.length_cons] at h
    rw [putBytes, ih _ _ (by omega), memByte_putByte, if_neg (by omega)]

/-- Reading a byte that was written. -/
theorem memByte_putBytes (s : State) (a i : Nat) (l : List Byte) (h : i < l.length) :
    memByte (putBytes s a l) (a + i) = l[i] := by
  induction l generalizing s a i with
  | nil => simp at h
  | cons x r ih =>
    rw [putBytes]
    cases i with
    | zero => rw [memByte_putBytes_ne _ _ _ _ (by omega), memByte_putByte]; simp
    | succ n =>
      have := ih (putByte s a x) (a + 1) n (by simpa using h)
      rw [show a + (n + 1) = a + 1 + n by omega, this]; rfl

theorem putByte_canonical (s : State) (a : Nat) (x : Byte) (h : MemoryCanonical s) : MemoryCanonical (putByte s a x) :=
  Tbl.wf_set _ _ _ _ h

theorem putBytes_canonical (s : State) (a : Nat) (l : List Byte) (h : MemoryCanonical s) : MemoryCanonical (putBytes s a l) := by
  induction l generalizing s a with
  | nil => exact h
  | cons x r ih => exact ih _ _ (putByte_canonical s a x h)

/-- A property of states that every step of a fold keeps. -/
theorem foldl_keeps {β : Type} (P : State → Prop) (f : State → β → State) (l : List β) (hf : ∀ s x, P s → P (f s x)) (s : State) (h : P s) :
    P (l.foldl f s) := by
  induction l generalizing s with
  | nil => exact h
  | cons x r ih => exact ih _ (hf s x h)

theorem logDirty_canonical (s : State) (pa : Nat) (h : MemoryCanonical s) : MemoryCanonical (logDirty s pa) := by
  unfold logDirty
  split
  · split
    · refine foldl_keeps MemoryCanonical _ _ (fun s v h => ?_) s h
      dsimp only
      split
      · exact putByte_canonical _ _ _ h
      · exact h
    · exact h
  · exact h

theorem performBytes_canonical (s : State) (pa : Nat) (l : List Byte) (h : MemoryCanonical s) : MemoryCanonical (performBytes s pa l) :=
  putBytes_canonical _ _ _ (logDirty_canonical s pa h)

theorem reset_canonical : MemoryCanonical State.reset := rfl

end Sys2Proof.Machine
end

