-- ==== Sys2Proof/Laws/Keeps.lean ====
section
/-! SUPPORT. The relation that every instruction and device event keeps: how it composes, and the updates it holds of at once. -/

namespace Sys2Proof

open Sys2Proof.Machine

theorem Keeps.refl (s : State) : Keeps s s := ⟨id, rfl, List.prefix_refl _, Nat.le_refl _⟩

theorem Keeps.trans {s t u : State} (h : Keeps s t) (g : Keeps t u) : Keeps s u :=
  ⟨g.canonical ∘ h.canonical, g.cycle.trans h.cycle, h.out.trans g.out, Nat.le_trans h.freeCtr g.freeCtr⟩

/-- An update of other fields. -/
theorem Keeps.same {s t u : State} (h : Keeps s t) (hm : u.mem = t.mem) (hc : u.cycle = t.cycle) (ho : u.out = t.out) (hf : u.freeCtr = t.freeCtr) :
    Keeps s u := by
  refine ⟨fun x => ?_, hc.trans h.cycle, ho ▸ h.out, hf ▸ h.freeCtr⟩
  have := h.canonical x
  unfold MemoryCanonical at this ⊢
  rw [hm]; exact this

/-- Drawing a free value, beside updates of other fields. -/
theorem Keeps.draw {s t u : State} (h : Keeps s t) (hm : u.mem = t.mem) (hc : u.cycle = t.cycle) (ho : u.out = t.out) (hf : u.freeCtr = t.freeCtr + 1) :
    Keeps s u := by
  refine ⟨fun x => ?_, hc.trans h.cycle, ho ▸ h.out, hf ▸ Nat.le_succ_of_le h.freeCtr⟩
  have := h.canonical x
  unfold MemoryCanonical at this ⊢
  rw [hm]; exact this

/-- Listing fewer bytes. -/
theorem Keeps.filter {s t u : State} (p : Host.Cell → Bool) (h : Keeps s t) (hm : u.mem = t.mem.filter p) (hc : u.cycle = t.cycle)
    (ho : u.out = t.out) (hf : u.freeCtr = t.freeCtr) : Keeps s u := by
  refine ⟨fun x => ?_, hc.trans h.cycle, ho ▸ h.out, hf ▸ h.freeCtr⟩
  have := h.canonical x
  unfold MemoryCanonical at this ⊢
  rw [hm]; exact Tbl.wf_filter _ _ _ this

/-- A record update of other fields, field by field. -/
theorem Keeps.put {s0 s : State} (devTime_ : Nat) (devRem_ : Nat) (secTaint_ : Tbl Bool) (secTag_ : Tbl (Nat × Nat × Nat)) (pf_ : Memory) (bar0_ : Memory) (bar2_ : Memory)
      (cpRing_ : Memory) (seqs_ : Tbl Seq) (cores_ : Tbl Core) (rk_ : Reckoner) (xl_ : Xlat) (net_ : Network) (plat_ : Platform) (issue_ : List Pending) (agenda_ : List
      Event) (cur_ : Ctx) (ev_ : EvArg) (inputs_ : List (Nat × Input))
    (h : Keeps s0 s) :
    Keeps s0 ⟨s.cycle, devTime_, devRem_, s.mem, secTaint_, secTag_, pf_, bar0_, bar2_, cpRing_, seqs_, cores_, rk_, xl_, net_, plat_, issue_, agenda_, cur_, ev_, inputs_,
      s.out, s.freeCtr⟩ :=
  h.same rfl rfl rfl rfl

/-- A record update that draws a free value. -/
theorem Keeps.putDraw {s0 s : State} (devTime_ : Nat) (devRem_ : Nat) (secTaint_ : Tbl Bool) (secTag_ : Tbl (Nat × Nat × Nat)) (pf_ : Memory) (bar0_ : Memory) (bar2_ :
      Memory) (cpRing_ : Memory) (seqs_ : Tbl Seq) (cores_ : Tbl Core) (rk_ : Reckoner) (xl_ : Xlat) (net_ : Network) (plat_ : Platform) (issue_ : List Pending) (agenda_ :
      List Event) (cur_ : Ctx) (ev_ : EvArg) (inputs_ : List (Nat × Input))
    (h : Keeps s0 s) :
    Keeps s0 ⟨s.cycle, devTime_, devRem_, s.mem, secTaint_, secTag_, pf_, bar0_, bar2_, cpRing_, seqs_, cores_, rk_, xl_, net_, plat_, issue_, agenda_, cur_, ev_, inputs_,
      s.out, (s.freeCtr + 1)⟩ :=
  h.draw rfl rfl rfl rfl

/-- A record update that lists fewer bytes. -/
theorem Keeps.putFilter {s0 s : State} (p : Host.Cell → Bool) (devTime_ : Nat) (devRem_ : Nat) (secTaint_ : Tbl Bool) (secTag_ : Tbl (Nat × Nat × Nat)) (pf_ : Memory) (bar0_
      : Memory) (bar2_ : Memory) (cpRing_ : Memory) (seqs_ : Tbl Seq) (cores_ : Tbl Core) (rk_ : Reckoner) (xl_ : Xlat) (net_ : Network) (plat_ : Platform) (issue_ : List
      Pending) (agenda_ : List Event) (cur_ : Ctx) (ev_ : EvArg) (inputs_ : List (Nat × Input))
    (h : Keeps s0 s) :
    Keeps s0 ⟨s.cycle, devTime_, devRem_, (s.mem.filter p), secTaint_, secTag_, pf_, bar0_, bar2_, cpRing_, seqs_, cores_, rk_, xl_, net_, plat_, issue_, agenda_, cur_, ev_,
      inputs_, s.out, s.freeCtr⟩ :=
  h.filter p rfl rfl rfl rfl

theorem Keeps.foldl {β : Type} {s0 : State} (f : State → β → State) (l : List β) (s : State)
    (hf : ∀ s x, Keeps s0 s → Keeps s0 (f s x)) (h : Keeps s0 s) : Keeps s0 (l.foldl f s) := by
  induction l generalizing s with
  | nil => exact h
  | cons x r ih => exact ih _ (hf s x h)

end Sys2Proof

namespace Sys2Proof.Machine

open Sys2Proof

theorem putByte_keeps {s0 s : State} (a : Nat) (x : Byte) (h : Keeps s0 s) : Keeps s0 (putByte s a x) :=
  ⟨fun g => putByte_canonical _ _ _ (h.canonical g), h.cycle, h.out, h.freeCtr⟩

theorem putBytes_keeps {s0 s : State} (a : Nat) (l : List Byte) (h : Keeps s0 s) : Keeps s0 (putBytes s a l) := by
  induction l generalizing s a with
  | nil => exact h
  | cons x r ih => exact ih _ (putByte_keeps a x h)

theorem send_keeps {s0 s : State} (m : OutMsg) (h : Keeps s0 s) : Keeps s0 (send s m) :=
  ⟨h.canonical, h.cycle, h.out.trans (List.prefix_append _ _), h.freeCtr⟩

theorem pfPutBytes_keeps {s0 s : State} (a : Nat) (l : List Byte) (h : Keeps s0 s) : Keeps s0 (pfPutBytes s a l) :=
  h.same (pfPutBytes_mem _ _ _) (pfPutBytes_cycle _ _ _) (pfPutBytes_out _ _ _) (pfPutBytes_freeCtr _ _ _)

theorem bar0PutBytes_keeps {s0 s : State} (a : Nat) (l : List Byte) (h : Keeps s0 s) : Keeps s0 (bar0PutBytes s a l) :=
  h.same (bar0PutBytes_mem _ _ _) (bar0PutBytes_cycle _ _ _) (bar0PutBytes_out _ _ _) (bar0PutBytes_freeCtr _ _ _)

theorem bar2PutBytes_keeps {s0 s : State} (a : Nat) (l : List Byte) (h : Keeps s0 s) : Keeps s0 (bar2PutBytes s a l) :=
  h.same (bar2PutBytes_mem _ _ _) (bar2PutBytes_cycle _ _ _) (bar2PutBytes_out _ _ _) (bar2PutBytes_freeCtr _ _ _)

theorem cpRingPutBytes_keeps {s0 s : State} (a : Nat) (l : List Byte) (h : Keeps s0 s) : Keeps s0 (cpRingPutBytes s a l) :=
  h.same (cpRingPutBytes_mem _ _ _) (cpRingPutBytes_cycle _ _ _) (cpRingPutBytes_out _ _ _) (cpRingPutBytes_freeCtr _ _ _)

theorem drawLatency_keeps {s0 s : State} (h : Keeps s0 s) : Keeps s0 (drawLatency s).2 := h.draw rfl rfl rfl rfl
theorem drawDevice_keeps {s0 s : State} (h : Keeps s0 s) : Keeps s0 (drawDevice s).2 := h.draw rfl rfl rfl rfl

end Sys2Proof.Machine
end

