-- ==== Sys2Proof/Laws/KeepsCore.lean ====
section
/-! SUPPORT. Registers, results in flight, traps, and the scalar, vector and special-function slots: each keeps the relation `Keeps`. -/

namespace Sys2Proof.Machine

open Sys2Proof

set_option simprocs false

/-! ## Ops -/

theorem pfSet_keeps {s0 : State} {s : State} (off : Nat) (n : Nat) (v : Nat) (h : Keeps s0 s) : Keeps s0 (pfSet s off n v) := by
  unfold pfSet
  repeat' first | with_reducible assumption | with_reducible apply pfPutBytes_keeps | intro _ | split | dsimp only

theorem pfOr_keeps {s0 : State} {s : State} (off : Nat) (n : Nat) (v : Nat) (h : Keeps s0 s) : Keeps s0 (pfOr s off n v) := by
  unfold pfOr
  repeat' first | with_reducible assumption | with_reducible apply pfSet_keeps | intro _ | split | dsimp only

theorem bar0Set_keeps {s0 : State} {s : State} (v : Nat) (off : Nat) (n : Nat) (x : Nat) (h : Keeps s0 s) : Keeps s0 (bar0Set s v off n x) := by
  unfold bar0Set
  repeat' first | with_reducible assumption | with_reducible apply bar0PutBytes_keeps | intro _ | split | dsimp only

theorem setSeq_keeps {s0 : State} {s : State} (q : Nat) (x : Seq) (h : Keeps s0 s) : Keeps s0 (setSeq s q x) := by
  unfold setSeq
  repeat' first
    | with_reducible assumption
    | intro _
    | split
    | dsimp only
    | with_reducible apply Keeps.put

theorem modSeq_keeps {s0 : State} {s : State} (q : Nat) (f : Seq → Seq) (h : Keeps s0 s) : Keeps s0 (modSeq s q f) := by
  unfold modSeq
  repeat' first | with_reducible assumption | with_reducible apply setSeq_keeps | intro _ | split | dsimp only

theorem setCore_keeps {s0 : State} {s : State} (c : Nat) (x : Core) (h : Keeps s0 s) : Keeps s0 (setCore s c x) := by
  unfold setCore
  repeat' first
    | with_reducible assumption
    | intro _
    | split
    | dsimp only
    | with_reducible apply Keeps.put

theorem modCore_keeps {s0 : State} {s : State} (c : Nat) (f : Core → Core) (h : Keeps s0 s) : Keeps s0 (modCore s c f) := by
  unfold modCore
  repeat' first | with_reducible assumption | with_reducible apply setCore_keeps | intro _ | split | dsimp only

theorem modCur_keeps {s0 : State} {s : State} (f : Core → Core) (h : Keeps s0 s) : Keeps s0 (modCur s f) := by
  unfold modCur
  repeat' first | with_reducible assumption | with_reducible apply modCore_keeps | intro _ | split | dsimp only

theorem modCurSeq_keeps {s0 : State} {s : State} (f : Seq → Seq) (h : Keeps s0 s) : Keeps s0 (modCurSeq s f) := by
  unfold modCurSeq
  repeat' first | with_reducible assumption | with_reducible apply modSeq_keeps | intro _ | split | dsimp only

theorem setTask_keeps {s0 : State} {s : State} (t : Nat) (x : Task) (h : Keeps s0 s) : Keeps s0 (setTask s t x) := by
  unfold setTask
  repeat' first
    | with_reducible assumption
    | intro _
    | split
    | dsimp only
    | with_reducible apply Keeps.put

theorem modTask_keeps {s0 : State} {s : State} (t : Nat) (f : Task → Task) (h : Keeps s0 s) : Keeps s0 (modTask s t f) := by
  unfold modTask
  repeat' first | with_reducible assumption | with_reducible apply setTask_keeps | intro _ | split | dsimp only

theorem setPartField_keeps {s0 : State} {s : State} (p : Nat) (off : Nat) (n : Nat) (v : Nat) (h : Keeps s0 s) : Keeps s0 (setPartField s p off n v) := by
  unfold setPartField
  repeat' first | with_reducible assumption | with_reducible apply pfSet_keeps | intro _ | split | dsimp only

theorem setFrame_keeps {s0 : State} {s : State} (d : Nat) (frame : Nat) (f : FrameState) (h : Keeps s0 s) : Keeps s0 (setFrame s d frame f) := by
  unfold setFrame
  repeat' first
    | with_reducible assumption
    | intro _
    | split
    | dsimp only
    | with_reducible apply Keeps.put

theorem logDirty_keeps {s0 : State} {s : State} (pa : Nat) (h : Keeps s0 s) : Keeps s0 (logDirty s pa) := by
  unfold logDirty
  repeat' first | with_reducible assumption | with_reducible apply putByte_keeps | with_reducible apply Keeps.foldl | intro _ | split | dsimp only

theorem dropCopies_keeps {s0 : State} {s : State} (line : Nat) (h : Keeps s0 s) : Keeps s0 (dropCopies s line) := by
  unfold dropCopies
  repeat' first
    | with_reducible assumption
    | intro _
    | split
    | dsimp only
    | with_reducible apply Keeps.put

theorem performBytes_keeps {s0 : State} {s : State} (pa : Nat) (bs : List Byte) (h : Keeps s0 s) : Keeps s0 (performBytes s pa bs) := by
  unfold performBytes
  repeat' first | with_reducible assumption | with_reducible apply logDirty_keeps | with_reducible apply putBytes_keeps | intro _ | split | dsimp only

theorem emit_keeps {s0 : State} {s : State} (dist : Nat) (k : LandKind) (h : Keeps s0 s) : Keeps s0 (emit s dist k) := by
  unfold emit
  repeat' first
    | with_reducible assumption
    | with_reducible apply modCur_keeps
    | intro _
    | split
    | dsimp only
    | with_reducible apply Keeps.put

theorem emitAll_keeps {s0 : State} {s : State} (dist : Nat) (ks : List LandKind) (h : Keeps s0 s) : Keeps s0 (emitAll s dist ks) := by
  unfold emitAll
  repeat' first | with_reducible assumption | with_reducible apply emit_keeps | with_reducible apply Keeps.foldl | intro _ | split | dsimp only

theorem requestStop_keeps {s0 : State} {s : State} (q : Nat) (cause : StopCause) (kind : Nat) (code : Nat) (detail : Nat) (bead : Nat) (pos : Nat) (now : Bool) (h : Keeps s0 s) : Keeps s0 (requestStop s q cause kind code detail bead pos now) := by
  unfold requestStop
  repeat' first
    | with_reducible assumption
    | with_reducible apply modSeq_keeps
    | intro _
    | split
    | dsimp only
    | with_reducible apply Keeps.put

theorem stopLaunch_keeps {s0 : State} {s : State} (task : Nat) (launch : Nat) (copy : Option Nat) (cause : StopCause) (kind : Nat) (code : Nat) (detail : Nat) (trapUnit : Nat) (bead : Nat) (pos : Nat) (h : Keeps s0 s) : Keeps s0 (stopLaunch s task launch copy cause kind code detail trapUnit bead pos) := by
  unfold stopLaunch
  repeat' first | with_reducible assumption | with_reducible apply requestStop_keeps | with_reducible apply Keeps.foldl | intro _ | split | dsimp only

theorem raiseMsix_keeps {s0 : State} {s : State} (fn : Nat) (vec : Nat) (h : Keeps s0 s) : Keeps s0 (raiseMsix s fn vec) := by
  unfold raiseMsix
  repeat' first | with_reducible assumption | with_reducible apply send_keeps | intro _ | split | dsimp only | with_reducible apply Keeps.put

theorem deviceWrite_keeps {s0 : State} {s : State} (a : Nat) (bs : List Byte) (alarm : Bool) (h : Keeps s0 s) : Keeps s0 (deviceWrite s a bs alarm) := by
  unfold deviceWrite
  repeat' first
    | with_reducible assumption
    | with_reducible apply raiseMsix_keeps
    | with_reducible apply performBytes_keeps
    | intro _
    | split
    | dsimp only
    | with_reducible apply Keeps.put

theorem releaseWrites_keeps {s0 : State} {s : State} (h : Keeps s0 s) : Keeps s0 (releaseWrites s) := by
  unfold releaseWrites
  repeat' first
    | with_reducible assumption
    | with_reducible apply deviceWrite_keeps
    | with_reducible apply Keeps.foldl
    | intro _
    | with_reducible apply Keeps.put

theorem addSavedSlip_keeps {s0 : State} {s : State} (x : Saved) (h : Keeps s0 s) : Keeps s0 (addSavedSlip s x) := by
  unfold addSavedSlip
  repeat' first | with_reducible assumption | with_reducible apply modTask_keeps | intro _ | split | dsimp only

theorem markSlot_keeps {s0 : State} {s : State} (p : Nat) (q : Nat) (j : Nat) (st : Nat) (h : Keeps s0 s) : Keeps s0 (markSlot s p q j st) := by
  unfold markSlot
  repeat' first | with_reducible assumption | with_reducible apply deviceWrite_keeps | intro _ | split | dsimp only

theorem dropNames_keeps {s0 : State} {s : State} (k : Nat) (h : Keeps s0 s) : Keeps s0 (dropNames s k) := by
  unfold dropNames
  repeat' first
    | with_reducible assumption
    | with_reducible apply modCore_keeps
    | with_reducible apply Keeps.foldl
    | intro _
    | split
    | dsimp only
    | with_reducible apply Keeps.put

theorem freeSlots_keeps {s0 : State} {s : State} (task : Nat) (copy : Option Nat) (h : Keeps s0 s) : Keeps s0 (freeSlots s task copy) := by
  unfold freeSlots
  repeat' first
    | with_reducible assumption
    | with_reducible apply addSavedSlip_keeps
    | with_reducible apply dropNames_keeps
    | with_reducible apply markSlot_keeps
    | with_reducible apply Keeps.foldl
    | intro _
    | split
    | dsimp only
    | with_reducible apply Keeps.put

theorem abortLaunch_keeps {s0 : State} {s : State} (task : Nat) (copy : Option Nat) (code : Nat) (detail : Nat) (trapUnit : Nat) (bead : Nat) (pos : Nat) (h : Keeps s0 s) : Keeps s0 (abortLaunch s task copy code detail trapUnit bead pos) := by
  unfold abortLaunch
  repeat' first
    | with_reducible assumption
    | with_reducible apply freeSlots_keeps
    | with_reducible apply modTask_keeps
    | with_reducible apply stopLaunch_keeps
    | intro _
    | split
    | dsimp only
    | with_reducible apply Keeps.put

theorem takeTrap_keeps {s0 : State} {s : State} (q : Nat) (bead : Nat) (pos : Nat) (code : Nat) (detail : Nat) (h : Keeps s0 s) : Keeps s0 (takeTrap s q bead pos code detail) := by
  unfold takeTrap
  repeat' first
    | with_reducible assumption
    | with_reducible apply abortLaunch_keeps
    | with_reducible apply modTask_keeps
    | with_reducible apply stopLaunch_keeps
    | intro _
    | split
    | dsimp only
    | with_reducible apply Keeps.put

theorem trapHere_keeps {s0 : State} {s : State} (code : Nat) (detail : Nat) (h : Keeps s0 s) : Keeps s0 (trapHere s code detail) := by
  unfold trapHere
  repeat' first | with_reducible assumption | with_reducible apply takeTrap_keeps | intro _ | split | dsimp only

theorem clearHold_keeps {s0 : State} {s : State} (task : Nat) (h : Keeps s0 s) : Keeps s0 (clearHold s task) := by
  unfold clearHold
  repeat' first
    | with_reducible assumption
    | with_reducible apply modCore_keeps
    | with_reducible apply modSeq_keeps
    | with_reducible apply modTask_keeps
    | with_reducible apply Keeps.foldl
    | intro _
    | split
    | dsimp only
    | with_reducible apply Keeps.put

/-! ## Scalar -/

theorem writeN_keeps {s0 : State} {s : State} (g : Guard) (lat : Nat) (dst : Fin 32) (x : TWord) (h : Keeps s0 s) : Keeps s0 (writeN s g lat dst x) := by
  unfold writeN
  repeat' first | with_reducible assumption | with_reducible apply emit_keeps | intro _ | split | dsimp only

theorem writeP_keeps {s0 : State} {s : State} (g : Guard) (dst : Fin 8) (x : TBit) (h : Keeps s0 s) : Keeps s0 (writeP s g dst x) := by
  unfold writeP
  repeat' first | with_reducible assumption | with_reducible apply emit_keeps | intro _ | split | dsimp only

theorem runSR_keeps {s0 : State} (op : Word → Word → Word) (lat : Nat) (f : SR) {s : State} (h : Keeps s0 s) : Keeps s0 (runSR op lat f s) := by
  unfold runSR
  repeat' first | with_reducible assumption | with_reducible apply writeN_keeps | intro _ | split | dsimp only

theorem runSI_keeps {s0 : State} (op : Word → Word → Word) (lat : Nat) (f : SI) {s : State} (h : Keeps s0 s) : Keeps s0 (runSI op lat f s) := by
  unfold runSI
  repeat' first | with_reducible assumption | with_reducible apply writeN_keeps | intro _ | split | dsimp only

theorem runSSh_keeps {s0 : State} (op : Word → Word → Word) (f : SSh) {s : State} (h : Keeps s0 s) : Keeps s0 (runSSh op f s) := by
  unfold runSSh
  repeat' first | with_reducible assumption | with_reducible apply writeN_keeps | intro _ | split | dsimp only

theorem runSU_keeps {s0 : State} (op : Word → Word) (f : SU) {s : State} (h : Keeps s0 s) : Keeps s0 (runSU op f s) := by
  unfold runSU
  repeat' first | with_reducible assumption | with_reducible apply writeN_keeps | intro _ | split | dsimp only

theorem runSP_keeps {s0 : State} (rel : Word → Word → Bool) (f : SP) {s : State} (h : Keeps s0 s) : Keeps s0 (runSP rel f s) := by
  unfold runSP
  repeat' first | with_reducible assumption | with_reducible apply writeP_keeps | intro _ | split | dsimp only

theorem runSPI_keeps {s0 : State} (rel : Word → Word → Bool) (zx : Bool) (f : SPI) {s : State} (h : Keeps s0 s) : Keeps s0 (runSPI rel zx f s) := by
  unfold runSPI
  repeat' first | with_reducible assumption | with_reducible apply writeP_keeps | intro _ | split | dsimp only

theorem runSQ_keeps {s0 : State} (op : Bool → Bool → Bool) (f : SQ) {s : State} (h : Keeps s0 s) : Keeps s0 (runSQ op f s) := by
  unfold runSQ
  repeat' first | with_reducible assumption | with_reducible apply writeP_keeps | intro _ | split | dsimp only

theorem execNop_keeps {s : State} {t : State} (h : execNop s = .next t) : Keeps s t := by
  dsimp only [execNop] at h
  cases h
  have h := Keeps.refl s
  repeat' first | with_reducible assumption | intro _ | split | dsimp only

theorem execAdd_keeps (f : SR) {s : State} {t : State} (h : execAdd f s = .next t) : Keeps s t := by
  dsimp only [execAdd] at h
  cases h
  have h := Keeps.refl s
  repeat' first | with_reducible assumption | with_reducible apply runSR_keeps | intro _ | split | dsimp only

theorem execSub_keeps (f : SR) {s : State} {t : State} (h : execSub f s = .next t) : Keeps s t := by
  dsimp only [execSub] at h
  cases h
  have h := Keeps.refl s
  repeat' first | with_reducible assumption | with_reducible apply runSR_keeps | intro _ | split | dsimp only

theorem execAnd_keeps (f : SR) {s : State} {t : State} (h : execAnd f s = .next t) : Keeps s t := by
  dsimp only [execAnd] at h
  cases h
  have h := Keeps.refl s
  repeat' first | with_reducible assumption | with_reducible apply runSR_keeps | intro _ | split | dsimp only

theorem execOr_keeps (f : SR) {s : State} {t : State} (h : execOr f s = .next t) : Keeps s t := by
  dsimp only [execOr] at h
  cases h
  have h := Keeps.refl s
  repeat' first | with_reducible assumption | with_reducible apply runSR_keeps | intro _ | split | dsimp only

theorem execXor_keeps (f : SR) {s : State} {t : State} (h : execXor f s = .next t) : Keeps s t := by
  dsimp only [execXor] at h
  cases h
  have h := Keeps.refl s
  repeat' first | with_reducible assumption | with_reducible apply runSR_keeps | intro _ | split | dsimp only

theorem execAndn_keeps (f : SR) {s : State} {t : State} (h : execAndn f s = .next t) : Keeps s t := by
  dsimp only [execAndn] at h
  cases h
  have h := Keeps.refl s
  repeat' first | with_reducible assumption | with_reducible apply runSR_keeps | intro _ | split | dsimp only

theorem execShl_keeps (f : SR) {s : State} {t : State} (h : execShl f s = .next t) : Keeps s t := by
  dsimp only [execShl] at h
  cases h
  have h := Keeps.refl s
  repeat' first | with_reducible assumption | with_reducible apply runSR_keeps | intro _ | split | dsimp only

theorem execShr_keeps (f : SR) {s : State} {t : State} (h : execShr f s = .next t) : Keeps s t := by
  dsimp only [execShr] at h
  cases h
  have h := Keeps.refl s
  repeat' first | with_reducible assumption | with_reducible apply runSR_keeps | intro _ | split | dsimp only

theorem execSar_keeps (f : SR) {s : State} {t : State} (h : execSar f s = .next t) : Keeps s t := by
  dsimp only [execSar] at h
  cases h
  have h := Keeps.refl s
  repeat' first | with_reducible assumption | with_reducible apply runSR_keeps | intro _ | split | dsimp only

theorem execRol_keeps (f : SR) {s : State} {t : State} (h : execRol f s = .next t) : Keeps s t := by
  dsimp only [execRol] at h
  cases h
  have h := Keeps.refl s
  repeat' first | with_reducible assumption | with_reducible apply runSR_keeps | intro _ | split | dsimp only

theorem execMin_keeps (f : SR) {s : State} {t : State} (h : execMin f s = .next t) : Keeps s t := by
  dsimp only [execMin] at h
  cases h
  have h := Keeps.refl s
  repeat' first | with_reducible assumption | with_reducible apply runSR_keeps | intro _ | split | dsimp only

theorem execMax_keeps (f : SR) {s : State} {t : State} (h : execMax f s = .next t) : Keeps s t := by
  dsimp only [execMax] at h
  cases h
  have h := Keeps.refl s
  repeat' first | with_reducible assumption | with_reducible apply runSR_keeps | intro _ | split | dsimp only

theorem execMinu_keeps (f : SR) {s : State} {t : State} (h : execMinu f s = .next t) : Keeps s t := by
  dsimp only [execMinu] at h
  cases h
  have h := Keeps.refl s
  repeat' first | with_reducible assumption | with_reducible apply runSR_keeps | intro _ | split | dsimp only

theorem execMaxu_keeps (f : SR) {s : State} {t : State} (h : execMaxu f s = .next t) : Keeps s t := by
  dsimp only [execMaxu] at h
  cases h
  have h := Keeps.refl s
  repeat' first | with_reducible assumption | with_reducible apply runSR_keeps | intro _ | split | dsimp only

theorem execMul_keeps (f : SR) {s : State} {t : State} (h : execMul f s = .next t) : Keeps s t := by
  dsimp only [execMul] at h
  cases h
  have h := Keeps.refl s
  repeat' first | with_reducible assumption | with_reducible apply runSR_keeps | intro _ | split | dsimp only

theorem execMulh_keeps (f : SR) {s : State} {t : State} (h : execMulh f s = .next t) : Keeps s t := by
  dsimp only [execMulh] at h
  cases h
  have h := Keeps.refl s
  repeat' first | with_reducible assumption | with_reducible apply runSR_keeps | intro _ | split | dsimp only

theorem execMulhu_keeps (f : SR) {s : State} {t : State} (h : execMulhu f s = .next t) : Keeps s t := by
  dsimp only [execMulhu] at h
  cases h
  have h := Keeps.refl s
  repeat' first | with_reducible assumption | with_reducible apply runSR_keeps | intro _ | split | dsimp only

theorem execDiv_keeps (f : SR) {s : State} {t : State} (h : execDiv f s = .next t) : Keeps s t := by
  dsimp only [execDiv] at h
  cases h
  have h := Keeps.refl s
  repeat' first | with_reducible assumption | with_reducible apply runSR_keeps | intro _ | split | dsimp only

theorem execDivu_keeps (f : SR) {s : State} {t : State} (h : execDivu f s = .next t) : Keeps s t := by
  dsimp only [execDivu] at h
  cases h
  have h := Keeps.refl s
  repeat' first | with_reducible assumption | with_reducible apply runSR_keeps | intro _ | split | dsimp only

theorem execRem_keeps (f : SR) {s : State} {t : State} (h : execRem f s = .next t) : Keeps s t := by
  dsimp only [execRem] at h
  cases h
  have h := Keeps.refl s
  repeat' first | with_reducible assumption | with_reducible apply runSR_keeps | intro _ | split | dsimp only

theorem execRemu_keeps (f : SR) {s : State} {t : State} (h : execRemu f s = .next t) : Keeps s t := by
  dsimp only [execRemu] at h
  cases h
  have h := Keeps.refl s
  repeat' first | with_reducible assumption | with_reducible apply runSR_keeps | intro _ | split | dsimp only

theorem execSel_keeps (f : SR) {s : State} {t : State} (h : execSel f s = .next t) : Keeps s t := by
  dsimp only [execSel] at h
  cases h
  have h := Keeps.refl s
  repeat' first | with_reducible assumption | with_reducible apply emit_keeps | intro _ | split | dsimp only

theorem execBfx_keeps (f : SBf) {s : State} {t : State} (h : execBfx f s = .next t) : Keeps s t := by
  dsimp only [execBfx] at h
  cases h
  have h := Keeps.refl s
  repeat' first | with_reducible assumption | with_reducible apply writeN_keeps | intro _ | split | dsimp only

theorem execBfxu_keeps (f : SBf) {s : State} {t : State} (h : execBfxu f s = .next t) : Keeps s t := by
  dsimp only [execBfxu] at h
  cases h
  have h := Keeps.refl s
  repeat' first | with_reducible assumption | with_reducible apply writeN_keeps | intro _ | split | dsimp only

theorem execBfi_keeps (f : SBf) {s : State} {t : State} (h : execBfi f s = .next t) : Keeps s t := by
  dsimp only [execBfi] at h
  cases h
  have h := Keeps.refl s
  repeat' first | with_reducible assumption | with_reducible apply writeN_keeps | intro _ | split | dsimp only

theorem execClz_keeps (f : SU) {s : State} {t : State} (h : execClz f s = .next t) : Keeps s t := by
  dsimp only [execClz] at h
  cases h
  have h := Keeps.refl s
  repeat' first | with_reducible assumption | with_reducible apply runSU_keeps | intro _ | split | dsimp only

theorem execCtz_keeps (f : SU) {s : State} {t : State} (h : execCtz f s = .next t) : Keeps s t := by
  dsimp only [execCtz] at h
  cases h
  have h := Keeps.refl s
  repeat' first | with_reducible assumption | with_reducible apply runSU_keeps | intro _ | split | dsimp only

theorem execPopc_keeps (f : SU) {s : State} {t : State} (h : execPopc f s = .next t) : Keeps s t := by
  dsimp only [execPopc] at h
  cases h
  have h := Keeps.refl s
  repeat' first | with_reducible assumption | with_reducible apply runSU_keeps | intro _ | split | dsimp only

theorem execBrev_keeps (f : SU) {s : State} {t : State} (h : execBrev f s = .next t) : Keeps s t := by
  dsimp only [execBrev] at h
  cases h
  have h := Keeps.refl s
  repeat' first | with_reducible assumption | with_reducible apply runSU_keeps | intro _ | split | dsimp only

theorem execCmpeq_keeps (f : SP) {s : State} {t : State} (h : execCmpeq f s = .next t) : Keeps s t := by
  dsimp only [execCmpeq] at h
  cases h
  have h := Keeps.refl s
  repeat' first | with_reducible assumption | with_reducible apply runSP_keeps | intro _ | split | dsimp only

theorem execCmpne_keeps (f : SP) {s : State} {t : State} (h : execCmpne f s = .next t) : Keeps s t := by
  dsimp only [execCmpne] at h
  cases h
  have h := Keeps.refl s
  repeat' first | with_reducible assumption | with_reducible apply runSP_keeps | intro _ | split | dsimp only

theorem execCmplt_keeps (f : SP) {s : State} {t : State} (h : execCmplt f s = .next t) : Keeps s t := by
  dsimp only [execCmplt] at h
  cases h
  have h := Keeps.refl s
  repeat' first | with_reducible assumption | with_reducible apply runSP_keeps | intro _ | split | dsimp only

theorem execCmple_keeps (f : SP) {s : State} {t : State} (h : execCmple f s = .next t) : Keeps s t := by
  dsimp only [execCmple] at h
  cases h
  have h := Keeps.refl s
  repeat' first | with_reducible assumption | with_reducible apply runSP_keeps | intro _ | split | dsimp only

theorem execCmpltu_keeps (f : SP) {s : State} {t : State} (h : execCmpltu f s = .next t) : Keeps s t := by
  dsimp only [execCmpltu] at h
  cases h
  have h := Keeps.refl s
  repeat' first | with_reducible assumption | with_reducible apply runSP_keeps | intro _ | split | dsimp only

theorem execCmpleu_keeps (f : SP) {s : State} {t : State} (h : execCmpleu f s = .next t) : Keeps s t := by
  dsimp only [execCmpleu] at h
  cases h
  have h := Keeps.refl s
  repeat' first | with_reducible assumption | with_reducible apply runSP_keeps | intro _ | split | dsimp only

theorem execCmpeqi_keeps (f : SPI) {s : State} {t : State} (h : execCmpeqi f s = .next t) : Keeps s t := by
  dsimp only [execCmpeqi] at h
  cases h
  have h := Keeps.refl s
  repeat' first | with_reducible assumption | with_reducible apply runSPI_keeps | intro _ | split | dsimp only

theorem execCmpnei_keeps (f : SPI) {s : State} {t : State} (h : execCmpnei f s = .next t) : Keeps s t := by
  dsimp only [execCmpnei] at h
  cases h
  have h := Keeps.refl s
  repeat' first | with_reducible assumption | with_reducible apply runSPI_keeps | intro _ | split | dsimp only

theorem execCmplti_keeps (f : SPI) {s : State} {t : State} (h : execCmplti f s = .next t) : Keeps s t := by
  dsimp only [execCmplti] at h
  cases h
  have h := Keeps.refl s
  repeat' first | with_reducible assumption | with_reducible apply runSPI_keeps | intro _ | split | dsimp only

theorem execCmplei_keeps (f : SPI) {s : State} {t : State} (h : execCmplei f s = .next t) : Keeps s t := by
  dsimp only [execCmplei] at h
  cases h
  have h := Keeps.refl s
  repeat' first | with_reducible assumption | with_reducible apply runSPI_keeps | intro _ | split | dsimp only

theorem execCmpltui_keeps (f : SPI) {s : State} {t : State} (h : execCmpltui f s = .next t) : Keeps s t := by
  dsimp only [execCmpltui] at h
  cases h
  have h := Keeps.refl s
  repeat' first | with_reducible assumption | with_reducible apply runSPI_keeps | intro _ | split | dsimp only

theorem execCmpleui_keeps (f : SPI) {s : State} {t : State} (h : execCmpleui f s = .next t) : Keeps s t := by
  dsimp only [execCmpleui] at h
  cases h
  have h := Keeps.refl s
  repeat' first | with_reducible assumption | with_reducible apply runSPI_keeps | intro _ | split | dsimp only

theorem execPand_keeps (f : SQ) {s : State} {t : State} (h : execPand f s = .next t) : Keeps s t := by
  dsimp only [execPand] at h
  cases h
  have h := Keeps.refl s
  repeat' first | with_reducible assumption | with_reducible apply runSQ_keeps | intro _ | split | dsimp only

theorem execPor_keeps (f : SQ) {s : State} {t : State} (h : execPor f s = .next t) : Keeps s t := by
  dsimp only [execPor] at h
  cases h
  have h := Keeps.refl s
  repeat' first | with_reducible assumption | with_reducible apply runSQ_keeps | intro _ | split | dsimp only

theorem execPxor_keeps (f : SQ) {s : State} {t : State} (h : execPxor f s = .next t) : Keeps s t := by
  dsimp only [execPxor] at h
  cases h
  have h := Keeps.refl s
  repeat' first | with_reducible assumption | with_reducible apply runSQ_keeps | intro _ | split | dsimp only

theorem execAddi_keeps (f : SI) {s : State} {t : State} (h : execAddi f s = .next t) : Keeps s t := by
  dsimp only [execAddi] at h
  cases h
  have h := Keeps.refl s
  repeat' first | with_reducible assumption | with_reducible apply runSI_keeps | intro _ | split | dsimp only

theorem execSubi_keeps (f : SI) {s : State} {t : State} (h : execSubi f s = .next t) : Keeps s t := by
  dsimp only [execSubi] at h
  cases h
  have h := Keeps.refl s
  repeat' first | with_reducible assumption | with_reducible apply runSI_keeps | intro _ | split | dsimp only

theorem execAndi_keeps (f : SI) {s : State} {t : State} (h : execAndi f s = .next t) : Keeps s t := by
  dsimp only [execAndi] at h
  cases h
  have h := Keeps.refl s
  repeat' first | with_reducible assumption | with_reducible apply runSI_keeps | intro _ | split | dsimp only

theorem execOri_keeps (f : SI) {s : State} {t : State} (h : execOri f s = .next t) : Keeps s t := by
  dsimp only [execOri] at h
  cases h
  have h := Keeps.refl s
  repeat' first | with_reducible assumption | with_reducible apply runSI_keeps | intro _ | split | dsimp only

theorem execXori_keeps (f : SI) {s : State} {t : State} (h : execXori f s = .next t) : Keeps s t := by
  dsimp only [execXori] at h
  cases h
  have h := Keeps.refl s
  repeat' first | with_reducible assumption | with_reducible apply runSI_keeps | intro _ | split | dsimp only

theorem execShli_keeps (f : SSh) {s : State} {t : State} (h : execShli f s = .next t) : Keeps s t := by
  dsimp only [execShli] at h
  cases h
  have h := Keeps.refl s
  repeat' first | with_reducible assumption | with_reducible apply runSSh_keeps | intro _ | split | dsimp only

theorem execShri_keeps (f : SSh) {s : State} {t : State} (h : execShri f s = .next t) : Keeps s t := by
  dsimp only [execShri] at h
  cases h
  have h := Keeps.refl s
  repeat' first | with_reducible assumption | with_reducible apply runSSh_keeps | intro _ | split | dsimp only

theorem execSari_keeps (f : SSh) {s : State} {t : State} (h : execSari f s = .next t) : Keeps s t := by
  dsimp only [execSari] at h
  cases h
  have h := Keeps.refl s
  repeat' first | with_reducible assumption | with_reducible apply runSSh_keeps | intro _ | split | dsimp only

theorem execMini_keeps (f : SI) {s : State} {t : State} (h : execMini f s = .next t) : Keeps s t := by
  dsimp only [execMini] at h
  cases h
  have h := Keeps.refl s
  repeat' first | with_reducible assumption | with_reducible apply runSI_keeps | intro _ | split | dsimp only

theorem execMaxi_keeps (f : SI) {s : State} {t : State} (h : execMaxi f s = .next t) : Keeps s t := by
  dsimp only [execMaxi] at h
  cases h
  have h := Keeps.refl s
  repeat' first | with_reducible assumption | with_reducible apply runSI_keeps | intro _ | split | dsimp only

theorem execMuli_keeps (f : SI) {s : State} {t : State} (h : execMuli f s = .next t) : Keeps s t := by
  dsimp only [execMuli] at h
  cases h
  have h := Keeps.refl s
  repeat' first | with_reducible assumption | with_reducible apply runSI_keeps | intro _ | split | dsimp only

theorem execMovi_keeps (f : SMovi) {s : State} {t : State} (h : execMovi f s = .next t) : Keeps s t := by
  dsimp only [execMovi] at h
  cases h
  have h := Keeps.refl s
  repeat' first | with_reducible assumption | with_reducible apply writeN_keeps | intro _ | split | dsimp only

theorem execMovk_keeps (f : SK) {s : State} {t : State} (h : execMovk f s = .next t) : Keeps s t := by
  dsimp only [execMovk] at h
  cases h
  have h := Keeps.refl s
  repeat' first | with_reducible assumption | with_reducible apply writeN_keeps | intro _ | split | dsimp only

theorem execMfs_keeps (f : SMfs) {s : State} {t : State} (h : execMfs f s = .next t) : Keeps s t := by
  dsimp only [execMfs] at h
  cases h
  have h := Keeps.refl s
  repeat' first | with_reducible assumption | with_reducible apply emit_keeps | with_reducible apply writeN_keeps | intro _ | split | dsimp only

theorem setGang_keeps {s0 : State} {s : State} (i : Fin 16) (x : TWord) (h : Keeps s0 s) : Keeps s0 (setGang s i x) := by
  unfold setGang
  repeat' first
    | with_reducible assumption
    | with_reducible apply modCurSeq_keeps
    | intro _
    | split
    | dsimp only
    | with_reducible apply Keeps.put

theorem execMts_keeps (f : SMts) {s : State} {t : State} (h : execMts f s = .next t) : Keeps s t := by
  dsimp only [execMts] at h
  cases h
  have h := Keeps.refl s
  repeat' first
    | with_reducible assumption
    | with_reducible apply emit_keeps
    | with_reducible apply setGang_keeps
    | with_reducible apply trapHere_keeps
    | intro _
    | split
    | dsimp only

theorem execWidf_keeps (f : SLevel) {s : State} {t : State} (h : execWidf f s = .next t) : Keeps s t := by
  dsimp only [execWidf] at h
  cases h
  have h := Keeps.refl s
  repeat' first | with_reducible assumption | with_reducible apply writeN_keeps | with_reducible apply Keeps.foldl | intro _ | split | dsimp only

/-! ## Control -/

theorem transfer_keeps {s0 : State} {s : State} (target : Word) (h : Keeps s0 s) : Keeps s0 (transfer s target) := by
  unfold transfer
  repeat' first
    | with_reducible assumption
    | with_reducible apply modCurSeq_keeps
    | intro _
    | split
    | dsimp only
    | with_reducible apply Keeps.put

theorem emitOn_keeps {s0 : State} {s : State} (c : Nat) (dist : Nat) (k : LandKind) (h : Keeps s0 s) : Keeps s0 (emitOn s c dist k) := by
  unfold emitOn
  repeat' first
    | with_reducible assumption
    | with_reducible apply modCore_keeps
    | intro _
    | split
    | dsimp only
    | with_reducible apply Keeps.put

theorem taintControl_keeps {s0 : State} {s : State} (t : Bool) (h : Keeps s0 s) : Keeps s0 (taintControl s t) := by
  unfold taintControl
  repeat' first | with_reducible assumption | with_reducible apply emitOn_keeps | with_reducible apply Keeps.foldl | intro _ | split | dsimp only

theorem execBr_keeps (imm : BitVec 16) {s : State} {t : State} (h : execBr imm s = .next t) : Keeps s t := by
  dsimp only [execBr] at h
  cases h
  have h := Keeps.refl s
  repeat' first | with_reducible assumption | with_reducible apply transfer_keeps | intro _ | split | dsimp only

theorem execBrany_keeps (f : CTest) {s : State} {t : State} (h : execBrany f s = .next t) : Keeps s t := by
  dsimp only [execBrany] at h
  cases h
  have h := Keeps.refl s
  repeat' first | with_reducible assumption | with_reducible apply taintControl_keeps | with_reducible apply transfer_keeps | intro _ | split | dsimp only

theorem execBrall_keeps (f : CTest) {s : State} {t : State} (h : execBrall f s = .next t) : Keeps s t := by
  dsimp only [execBrall] at h
  cases h
  have h := Keeps.refl s
  repeat' first | with_reducible assumption | with_reducible apply taintControl_keeps | with_reducible apply transfer_keeps | intro _ | split | dsimp only

theorem execBrgz_keeps (f : CGang) {s : State} {t : State} (h : execBrgz f s = .next t) : Keeps s t := by
  dsimp only [execBrgz] at h
  cases h
  have h := Keeps.refl s
  repeat' first | with_reducible assumption | with_reducible apply taintControl_keeps | with_reducible apply transfer_keeps | intro _ | split | dsimp only

theorem execBrgnz_keeps (f : CGang) {s : State} {t : State} (h : execBrgnz f s = .next t) : Keeps s t := by
  dsimp only [execBrgnz] at h
  cases h
  have h := Keeps.refl s
  repeat' first | with_reducible assumption | with_reducible apply taintControl_keeps | with_reducible apply transfer_keeps | intro _ | split | dsimp only

theorem execCall_keeps (f : CGang) {s : State} {t : State} (h : execCall f s = .next t) : Keeps s t := by
  dsimp only [execCall] at h
  cases h
  have h := Keeps.refl s
  repeat' first | with_reducible assumption | with_reducible apply setGang_keeps | with_reducible apply transfer_keeps | intro _ | split | dsimp only

theorem execRet_keeps (g : Fin 16) {s : State} {t : State} (h : execRet g s = .next t) : Keeps s t := by
  dsimp only [execRet] at h
  cases h
  have h := Keeps.refl s
  repeat' first | with_reducible assumption | with_reducible apply transfer_keeps | intro _ | split | dsimp only

theorem pushLoop_keeps {s0 : State} {s : State} (p : Bool) (count : BitVec 32) (tnt : Bool) (h : Keeps s0 s) : Keeps s0 (pushLoop s p count tnt) := by
  unfold pushLoop
  repeat' first
    | with_reducible assumption
    | with_reducible apply modCurSeq_keeps
    | with_reducible apply trapHere_keeps
    | with_reducible apply taintControl_keeps
    | intro _
    | split
    | dsimp only
    | with_reducible apply Keeps.put

theorem execLoop_keeps (f : CLoop) {s : State} {t : State} (h : execLoop f s = .next t) : Keeps s t := by
  dsimp only [execLoop] at h
  cases h
  have h := Keeps.refl s
  repeat' first | with_reducible assumption | with_reducible apply pushLoop_keeps | with_reducible apply taintControl_keeps | intro _ | split | dsimp only

theorem execLoopi_keeps (f : CLoopI) {s : State} {t : State} (h : execLoopi f s = .next t) : Keeps s t := by
  dsimp only [execLoopi] at h
  cases h
  have h := Keeps.refl s
  repeat' first | with_reducible assumption | with_reducible apply pushLoop_keeps | intro _ | split | dsimp only

theorem execLbrk_keeps (g : Guard) {s : State} {t : State} (h : execLbrk g s = .next t) : Keeps s t := by
  dsimp only [execLbrk] at h
  cases h
  have h := Keeps.refl s
  repeat' first
    | with_reducible assumption
    | with_reducible apply modCurSeq_keeps
    | with_reducible apply taintControl_keeps
    | with_reducible apply trapHere_keeps
    | intro _
    | split
    | dsimp only

theorem execLidx_keeps (f : CLidx) {s : State} {t : State} (h : execLidx f s = .next t) : Keeps s t := by
  dsimp only [execLidx] at h
  cases h
  have h := Keeps.refl s
  repeat' first | with_reducible assumption | with_reducible apply emit_keeps | with_reducible apply trapHere_keeps | intro _ | split | dsimp only

theorem execWait_keeps (f : CWait) {s : State} {t : State} (h : execWait f s = .next t) : Keeps s t := by
  dsimp only [execWait] at h
  cases h
  have h := Keeps.refl s
  repeat' first
    | with_reducible assumption
    | with_reducible apply modCur_keeps
    | intro _
    | split
    | dsimp only
    | with_reducible apply Keeps.put

theorem execSchsel_keeps {s : State} {t : State} (h : execSchsel s = .next t) : Keeps s t := by
  dsimp only [execSchsel] at h
  cases h
  have h := Keeps.refl s
  repeat' first | with_reducible assumption | with_reducible apply transfer_keeps | with_reducible apply trapHere_keeps | intro _ | split | dsimp only

theorem execEndK_keeps {s : State} {t : State} (h : execEndK s = .next t) : Keeps s t := by
  dsimp only [execEndK] at h
  cases h
  have h := Keeps.refl s
  repeat' first
    | with_reducible assumption
    | with_reducible apply modCurSeq_keeps
    | with_reducible apply modCur_keeps
    | intro _
    | split
    | dsimp only
    | with_reducible apply Keeps.put

theorem execTrap_keeps (f : CT) {s : State} {t : State} (h : execTrap f s = .next t) : Keeps s t := by
  dsimp only [execTrap] at h
  cases h
  have h := Keeps.refl s
  repeat' first | with_reducible assumption | with_reducible apply trapHere_keeps | intro _ | split | dsimp only

theorem execBrk_keeps (g : Guard) {s : State} {t : State} (h : execBrk g s = .next t) : Keeps s t := by
  dsimp only [execBrk] at h
  cases h
  have h := Keeps.refl s
  repeat' first | with_reducible assumption | with_reducible apply trapHere_keeps | intro _ | split | dsimp only

theorem postService_keeps {s0 : State} {s : State} (p : Nat) (rec_ : List Byte) (h : Keeps s0 s) : Keeps s0 (postService s p rec_) := by
  unfold postService
  repeat' first | with_reducible assumption | with_reducible apply performBytes_keeps | with_reducible apply pfSet_keeps | intro _ | split | dsimp only

theorem execSvc_keeps (f : CT) {s : State} {t : State} (h : execSvc f s = .next t) : Keeps s t := by
  dsimp only [execSvc] at h
  cases h
  have h := Keeps.refl s
  repeat' first | with_reducible assumption | with_reducible apply modCur_keeps | intro _ | split | dsimp only

theorem execSavem_keeps (f : CSavem) {s : State} {t : State} (h : execSavem f s = .next t) : Keeps s t := by
  dsimp only [execSavem] at h
  cases h
  have h := Keeps.refl s
  repeat' first | with_reducible assumption | with_reducible apply emit_keeps | intro _ | split | dsimp only

theorem execSlack_keeps (f : CSlack) {s : State} {t : State} (h : execSlack f s = .next t) : Keeps s t := by
  dsimp only [execSlack] at h
  cases h
  have h := Keeps.refl s
  repeat' first
    | with_reducible assumption
    | with_reducible apply modCur_keeps
    | with_reducible apply Keeps.foldl
    | intro _
    | split
    | dsimp only
    | with_reducible apply Keeps.put

/-! ## Lanes -/

theorem emitVec_keeps {s0 : State} {s : State} (lat : Nat) (dst : VOp) (x : VWord) (t : LaneMask) (lanes : LaneMask) (fl : Flags) (h : Keeps s0 s) : Keeps s0 (emitVec s lat dst x t lanes fl) := by
  unfold emitVec
  repeat' first
    | with_reducible assumption
    | with_reducible apply emit_keeps
    | with_reducible apply Res.bind_keeps
    | with_reducible apply ResKeeps.of_ok
    | with_reducible apply ResKeeps.of_fail
    | with_reducible exact ResKeeps.of_wait
    | intro _
    | split
    | dsimp only

theorem runLanes_keeps {s0 : State} {s : State} (m : Fin 8) (dst : VOp) (lat : Nat) (srcs : List TVec) (f : List Nat → Nat × Flags) (h : Keeps s0 s) : Keeps s0 (runLanes s m dst lat srcs f) := by
  unfold runLanes
  repeat' first | with_reducible assumption | with_reducible apply emitVec_keeps | intro _ | split | dsimp only

theorem runCross_keeps {s0 : State} {s : State} (m : Fin 8) (dst : VOp) (lat : Nat) (read : Bool) (f : Nat → Nat × Flags) (h : Keeps s0 s) : Keeps s0 (runCross s m dst lat read f) := by
  unfold runCross
  repeat' first | with_reducible assumption | with_reducible apply emitVec_keeps | intro _ | split | dsimp only

theorem jetSlot_keeps {s0 : State} {s : State} (bases : List Nat) (prod : Bool) (run : State → State) (h_run : ∀ s, Keeps s0 s → Keeps s0 (run s)) (h : Keeps s0 s) : Keeps s0 (jetSlot s bases prod run) := by
  unfold jetSlot
  repeat' first
    | with_reducible assumption
    | with_reducible apply modCur_keeps
    | with_reducible apply trapHere_keeps
    | with_reducible apply h_run
    | intro _
    | split
    | dsimp only
    | with_reducible apply Keeps.put

theorem emitJet_keeps {s0 : State} {s : State} (lat : Nat) (base : Nat) (n : Nat) (t : LaneMask) (lanes : LaneMask) (f : Nat → List FRes) (h : Keeps s0 s) : Keeps s0 (emitJet s lat base n t lanes f) := by
  unfold emitJet
  repeat' first | with_reducible assumption | with_reducible apply emit_keeps | with_reducible apply Keeps.foldl | intro _ | split | dsimp only

theorem runJet_keeps {s0 : State} {s : State} (m : Fin 8) (dst : Nat) (lat : Nat) (groups : List (List TVec)) (f : List (List Nat) → List FRes) (h : Keeps s0 s) : Keeps s0 (runJet s m dst lat groups f) := by
  unfold runJet
  repeat' first | with_reducible assumption | with_reducible apply emitJet_keeps | intro _ | split | dsimp only

/-! ## VectorArith -/

theorem runVB_keeps {s0 : State} (f : VB) {s : State} (lat : Nat) (jlat : Nat) (prod : Bool) (ff : RMode → Fmt → List Nat → FRes) (fi : Nat → List Nat → Nat) (jf : RMode → Nat → List Nat → List Nat → List FRes) (h : Keeps s0 s) : Keeps s0 (runVB f s lat jlat prod ff fi jf) := by
  unfold runVB
  repeat' first
    | with_reducible assumption
    | with_reducible apply jetSlot_keeps
    | with_reducible apply runJet_keeps
    | with_reducible apply runLanes_keeps
    | intro _
    | split
    | dsimp only

theorem execVadd_keeps (f : VB) {s : State} {t : State} (h : execVadd f s = .next t) : Keeps s t := by
  dsimp only [execVadd] at h
  cases h
  have h := Keeps.refl s
  repeat' first | with_reducible assumption | with_reducible apply runVB_keeps | intro _ | split | dsimp only

theorem execVsub_keeps (f : VB) {s : State} {t : State} (h : execVsub f s = .next t) : Keeps s t := by
  dsimp only [execVsub] at h
  cases h
  have h := Keeps.refl s
  repeat' first | with_reducible assumption | with_reducible apply runVB_keeps | intro _ | split | dsimp only

theorem execVmul_keeps (f : VB) {s : State} {t : State} (h : execVmul f s = .next t) : Keeps s t := by
  dsimp only [execVmul] at h
  cases h
  have h := Keeps.refl s
  repeat' first | with_reducible assumption | with_reducible apply runVB_keeps | intro _ | split | dsimp only

theorem runFma_keeps {s0 : State} (f : VB) (sub : Bool) {s : State} (h : Keeps s0 s) : Keeps s0 (runFma f sub s) := by
  unfold runFma
  repeat' first
    | with_reducible assumption
    | with_reducible apply jetSlot_keeps
    | with_reducible apply runJet_keeps
    | with_reducible apply runLanes_keeps
    | intro _
    | split
    | dsimp only

theorem execVfma_keeps (f : VB) {s : State} {t : State} (h : execVfma f s = .next t) : Keeps s t := by
  dsimp only [execVfma] at h
  cases h
  have h := Keeps.refl s
  repeat' first | with_reducible assumption | with_reducible apply runFma_keeps | intro _ | split | dsimp only

theorem execVfnma_keeps (f : VB) {s : State} {t : State} (h : execVfnma f s = .next t) : Keeps s t := by
  dsimp only [execVfnma] at h
  cases h
  have h := Keeps.refl s
  repeat' first | with_reducible assumption | with_reducible apply runFma_keeps | intro _ | split | dsimp only

theorem execVmin_keeps (f : VB) {s : State} {t : State} (h : execVmin f s = .next t) : Keeps s t := by
  dsimp only [execVmin] at h
  cases h
  have h := Keeps.refl s
  repeat' first | with_reducible assumption | with_reducible apply runVB_keeps | intro _ | split | dsimp only

theorem execVmax_keeps (f : VB) {s : State} {t : State} (h : execVmax f s = .next t) : Keeps s t := by
  dsimp only [execVmax] at h
  cases h
  have h := Keeps.refl s
  repeat' first | with_reducible assumption | with_reducible apply runVB_keeps | intro _ | split | dsimp only

theorem runVU_keeps {s0 : State} (f : VU) {s : State} (ff : Fmt → List Nat → FRes) (fi : Nat → List Nat → Nat) (jf : List Nat → List FRes) (h : Keeps s0 s) : Keeps s0 (runVU f s ff fi jf) := by
  unfold runVU
  repeat' first
    | with_reducible assumption
    | with_reducible apply jetSlot_keeps
    | with_reducible apply runJet_keeps
    | with_reducible apply runLanes_keeps
    | intro _
    | split
    | dsimp only

theorem execVabs_keeps (f : VU) {s : State} {t : State} (h : execVabs f s = .next t) : Keeps s t := by
  dsimp only [execVabs] at h
  cases h
  have h := Keeps.refl s
  repeat' first | with_reducible assumption | with_reducible apply runVU_keeps | intro _ | split | dsimp only

theorem execVneg_keeps (f : VU) {s : State} {t : State} (h : execVneg f s = .next t) : Keeps s t := by
  dsimp only [execVneg] at h
  cases h
  have h := Keeps.refl s
  repeat' first | with_reducible assumption | with_reducible apply runVU_keeps | intro _ | split | dsimp only

theorem runVCmp_keeps {s0 : State} (op : Fin 4) (f : VCmp) {s : State} (h : Keeps s0 s) : Keeps s0 (runVCmp op f s) := by
  unfold runVCmp
  repeat' first | with_reducible assumption | with_reducible apply emit_keeps | with_reducible apply Keeps.foldl | intro _ | split | dsimp only

theorem execVcmpeq_keeps (f : VCmp) {s : State} {t : State} (h : execVcmpeq f s = .next t) : Keeps s t := by
  dsimp only [execVcmpeq] at h
  cases h
  have h := Keeps.refl s
  repeat' first | with_reducible assumption | with_reducible apply runVCmp_keeps | intro _ | split | dsimp only

theorem execVcmpne_keeps (f : VCmp) {s : State} {t : State} (h : execVcmpne f s = .next t) : Keeps s t := by
  dsimp only [execVcmpne] at h
  cases h
  have h := Keeps.refl s
  repeat' first | with_reducible assumption | with_reducible apply runVCmp_keeps | intro _ | split | dsimp only

theorem execVcmplt_keeps (f : VCmp) {s : State} {t : State} (h : execVcmplt f s = .next t) : Keeps s t := by
  dsimp only [execVcmplt] at h
  cases h
  have h := Keeps.refl s
  repeat' first | with_reducible assumption | with_reducible apply runVCmp_keeps | intro _ | split | dsimp only

theorem execVcmple_keeps (f : VCmp) {s : State} {t : State} (h : execVcmple f s = .next t) : Keeps s t := by
  dsimp only [execVcmple] at h
  cases h
  have h := Keeps.refl s
  repeat' first | with_reducible assumption | with_reducible apply runVCmp_keeps | intro _ | split | dsimp only

theorem execVsel_keeps (f : VB) {s : State} {t : State} (h : execVsel f s = .next t) : Keeps s t := by
  dsimp only [execVsel] at h
  cases h
  have h := Keeps.refl s
  repeat' first
    | with_reducible assumption
    | with_reducible apply emitJet_keeps
    | with_reducible apply emitVec_keeps
    | with_reducible apply jetSlot_keeps
    | intro _
    | split
    | dsimp only

theorem execVmov_keeps (f : VU) {s : State} {t : State} (h : execVmov f s = .next t) : Keeps s t := by
  dsimp only [execVmov] at h
  cases h
  have h := Keeps.refl s
  repeat' first | with_reducible assumption | with_reducible apply runVU_keeps | intro _ | split | dsimp only

theorem execVlogic_keeps (f : VLogicF) {s : State} {t : State} (h : execVlogic f s = .next t) : Keeps s t := by
  dsimp only [execVlogic] at h
  cases h
  have h := Keeps.refl s
  repeat' first | with_reducible assumption | with_reducible apply runLanes_keeps | intro _ | split | dsimp only

theorem shiftRow_keeps {s0 : State} (f : VB) {s : State} (op : Nat → Nat → Nat → Nat) (h : Keeps s0 s) : Keeps s0 (shiftRow f s op) := by
  unfold shiftRow
  repeat' first | with_reducible assumption | with_reducible apply runLanes_keeps | intro _ | split | dsimp only

theorem execVshl_keeps (f : VB) {s : State} {t : State} (h : execVshl f s = .next t) : Keeps s t := by
  dsimp only [execVshl] at h
  cases h
  have h := Keeps.refl s
  repeat' first | with_reducible assumption | with_reducible apply shiftRow_keeps | intro _ | split | dsimp only

theorem execVshr_keeps (f : VB) {s : State} {t : State} (h : execVshr f s = .next t) : Keeps s t := by
  dsimp only [execVshr] at h
  cases h
  have h := Keeps.refl s
  repeat' first | with_reducible assumption | with_reducible apply shiftRow_keeps | intro _ | split | dsimp only

theorem execVsar_keeps (f : VB) {s : State} {t : State} (h : execVsar f s = .next t) : Keeps s t := by
  dsimp only [execVsar] at h
  cases h
  have h := Keeps.refl s
  repeat' first | with_reducible assumption | with_reducible apply shiftRow_keeps | intro _ | split | dsimp only

theorem execVclamp_keeps (f : VB) {s : State} {t : State} (h : execVclamp f s = .next t) : Keeps s t := by
  dsimp only [execVclamp] at h
  cases h
  have h := Keeps.refl s
  repeat' first | with_reducible assumption | with_reducible apply runLanes_keeps | intro _ | split | dsimp only

/-! ## VectorMove -/

theorem execVcvt_keeps (f : VCvtF) {s : State} {t : State} (h : execVcvt f s = .next t) : Keeps s t := by
  dsimp only [execVcvt] at h
  cases h
  have h := Keeps.refl s
  repeat' first | with_reducible assumption | with_reducible apply runLanes_keeps | intro _ | split | dsimp only

theorem execVcvtn_keeps (f : VNarrowF) {s : State} {t : State} (h : execVcvtn f s = .next t) : Keeps s t := by
  dsimp only [execVcvtn] at h
  cases h
  have h := Keeps.refl s
  repeat' first | with_reducible assumption | with_reducible apply runLanes_keeps | intro _ | split | dsimp only

theorem execVcvtw_keeps (f : VNarrowF) {s : State} {t : State} (h : execVcvtw f s = .next t) : Keeps s t := by
  dsimp only [execVcvtw] at h
  cases h
  have h := Keeps.refl s
  repeat' first | with_reducible assumption | with_reducible apply runLanes_keeps | intro _ | split | dsimp only

theorem execVpack_keeps (f : VPackF) {s : State} {t : State} (h : execVpack f s = .next t) : Keeps s t := by
  dsimp only [execVpack] at h
  cases h
  have h := Keeps.refl s
  repeat' first | with_reducible assumption | with_reducible apply runLanes_keeps | intro _ | split | dsimp only

theorem execVunpkl_keeps (f : VUnpkF) {s : State} {t : State} (h : execVunpkl f s = .next t) : Keeps s t := by
  dsimp only [execVunpkl] at h
  cases h
  have h := Keeps.refl s
  repeat' first | with_reducible assumption | with_reducible apply runLanes_keeps | intro _ | split | dsimp only

theorem execVunpkh_keeps (f : VUnpkF) {s : State} {t : State} (h : execVunpkh f s = .next t) : Keeps s t := by
  dsimp only [execVunpkh] at h
  cases h
  have h := Keeps.refl s
  repeat' first | with_reducible assumption | with_reducible apply runLanes_keeps | intro _ | split | dsimp only

theorem execVbcst_keeps (f : VBcstF) {s : State} {t : State} (h : execVbcst f s = .next t) : Keeps s t := by
  dsimp only [execVbcst] at h
  cases h
  have h := Keeps.refl s
  repeat' first | with_reducible assumption | with_reducible apply runCross_keeps | intro _ | split | dsimp only

theorem execVext_keeps (f : VExtF) {s : State} {t : State} (h : execVext f s = .next t) : Keeps s t := by
  dsimp only [execVext] at h
  cases h
  have h := Keeps.refl s
  repeat' first | with_reducible assumption | with_reducible apply emit_keeps | intro _ | split | dsimp only

theorem execVins_keeps (f : VInsF) {s : State} {t : State} (h : execVins f s = .next t) : Keeps s t := by
  dsimp only [execVins] at h
  cases h
  have h := Keeps.refl s
  repeat' first | with_reducible assumption | with_reducible apply emitVec_keeps | intro _ | split | dsimp only

theorem execVperm_keeps (f : VPermF) {s : State} {t : State} (h : execVperm f s = .next t) : Keeps s t := by
  dsimp only [execVperm] at h
  cases h
  have h := Keeps.refl s
  repeat' first | with_reducible assumption | with_reducible apply runCross_keeps | intro _ | split | dsimp only

theorem execVxcopy_keeps (f : VPermF) {s : State} {t : State} (h : execVxcopy f s = .next t) : Keeps s t := by
  dsimp only [execVxcopy] at h
  cases h
  have h := Keeps.refl s
  repeat' first | with_reducible assumption | with_reducible apply runCross_keeps | intro _ | split | dsimp only

theorem execVred_keeps (f : VRedF) {s : State} {t : State} (h : execVred f s = .next t) : Keeps s t := by
  dsimp only [execVred] at h
  cases h
  have h := Keeps.refl s
  repeat' first | with_reducible assumption | with_reducible apply runCross_keeps | intro _ | split | dsimp only

theorem execVxred_keeps (f : VRedF) {s : State} {t : State} (h : execVxred f s = .next t) : Keeps s t := by
  dsimp only [execVxred] at h
  cases h
  have h := Keeps.refl s
  repeat' first | with_reducible assumption | with_reducible apply runCross_keeps | intro _ | split | dsimp only

theorem execVscan_keeps (f : VRedF) {s : State} {t : State} (h : execVscan f s = .next t) : Keeps s t := by
  dsimp only [execVscan] at h
  cases h
  have h := Keeps.refl s
  repeat' first | with_reducible assumption | with_reducible apply runCross_keeps | intro _ | split | dsimp only

theorem execVhist_keeps (f : VHistF) {s : State} {t : State} (h : execVhist f s = .next t) : Keeps s t := by
  dsimp only [execVhist] at h
  cases h
  have h := Keeps.refl s
  repeat' first | with_reducible assumption | with_reducible apply emit_keeps | intro _ | split | dsimp only

theorem execVbmrg_keeps (f : VBmrgF) {s : State} {t : State} (h : execVbmrg f s = .next t) : Keeps s t := by
  dsimp only [execVbmrg] at h
  cases h
  have h := Keeps.refl s
  repeat' first | with_reducible assumption | with_reducible apply emitVec_keeps | with_reducible apply Keeps.foldl | intro _ | split | dsimp only

theorem runBcx_keeps {s0 : State} (lat : Nat) (f : VBcxF) {s : State} (h : Keeps s0 s) : Keeps s0 (runBcx lat f s) := by
  unfold runBcx
  repeat' first | with_reducible assumption | with_reducible apply emitVec_keeps | with_reducible apply emit_keeps | intro _ | split | dsimp only

theorem execVbcx_keeps (f : VBcxF) {s : State} {t : State} (h : execVbcx f s = .next t) : Keeps s t := by
  dsimp only [execVbcx] at h
  cases h
  have h := Keeps.refl s
  repeat' first | with_reducible assumption | with_reducible apply runBcx_keeps | intro _ | split | dsimp only

theorem execVbcxx_keeps (f : VBcxF) {s : State} {t : State} (h : execVbcxx f s = .next t) : Keeps s t := by
  dsimp only [execVbcxx] at h
  cases h
  have h := Keeps.refl s
  repeat' first | with_reducible assumption | with_reducible apply runBcx_keeps | intro _ | split | dsimp only

theorem execVargmax_keeps (f : VArgF) {s : State} {t : State} (h : execVargmax f s = .next t) : Keeps s t := by
  dsimp only [execVargmax] at h
  cases h
  have h := Keeps.refl s
  repeat' first | with_reducible assumption | with_reducible apply emit_keeps | intro _ | split | dsimp only

/-! ## JetForms -/

theorem rawGroup_keeps {s0 : State} {s : State} (m : Fin 8) (dst : Nat) (srcs : List TVec) (f : Nat → Nat → Nat) (h : Keeps s0 s) : Keeps s0 (rawGroup s m dst srcs f) := by
  unfold rawGroup
  repeat' first | with_reducible assumption | with_reducible apply emitJet_keeps | intro _ | split | dsimp only

theorem execJseed_keeps (f : JBin) {s : State} {t : State} (h : execJseed f s = .next t) : Keeps s t := by
  dsimp only [execJseed] at h
  cases h
  have h := Keeps.refl s
  repeat' first | with_reducible assumption | with_reducible apply jetSlot_keeps | with_reducible apply rawGroup_keeps | intro _ | split | dsimp only

theorem execJconst_keeps (f : JUn) {s : State} {t : State} (h : execJconst f s = .next t) : Keeps s t := by
  dsimp only [execJconst] at h
  cases h
  have h := Keeps.refl s
  repeat' first | with_reducible assumption | with_reducible apply jetSlot_keeps | with_reducible apply rawGroup_keeps | intro _ | split | dsimp only

theorem execJget_keeps (f : JIdx) {s : State} {t : State} (h : execJget f s = .next t) : Keeps s t := by
  dsimp only [execJget] at h
  cases h
  have h := Keeps.refl s
  repeat' first | with_reducible assumption | with_reducible apply emitJet_keeps | with_reducible apply jetSlot_keeps | intro _ | split | dsimp only

theorem execJput_keeps (f : JIdx) {s : State} {t : State} (h : execJput f s = .next t) : Keeps s t := by
  dsimp only [execJput] at h
  cases h
  have h := Keeps.refl s
  repeat' first | with_reducible assumption | with_reducible apply emitJet_keeps | with_reducible apply jetSlot_keeps | intro _ | split | dsimp only

theorem execJder_keeps (f : JDerF) {s : State} {t : State} (h : execJder f s = .next t) : Keeps s t := by
  dsimp only [execJder] at h
  cases h
  have h := Keeps.refl s
  repeat' first | with_reducible assumption | with_reducible apply jetSlot_keeps | with_reducible apply runJet_keeps | intro _ | split | dsimp only

theorem execJshift_keeps (f : JShiftF) {s : State} {t : State} (h : execJshift f s = .next t) : Keeps s t := by
  dsimp only [execJshift] at h
  cases h
  have h := Keeps.refl s
  repeat' first | with_reducible assumption | with_reducible apply jetSlot_keeps | with_reducible apply rawGroup_keeps | intro _ | split | dsimp only

theorem execJscale_keeps (f : JBin) {s : State} {t : State} (h : execJscale f s = .next t) : Keeps s t := by
  dsimp only [execJscale] at h
  cases h
  have h := Keeps.refl s
  repeat' first | with_reducible assumption | with_reducible apply jetSlot_keeps | with_reducible apply runJet_keeps | intro _ | split | dsimp only

theorem execJdiv_keeps (f : JBin) {s : State} {t : State} (h : execJdiv f s = .next t) : Keeps s t := by
  dsimp only [execJdiv] at h
  cases h
  have h := Keeps.refl s
  repeat' first | with_reducible assumption | with_reducible apply jetSlot_keeps | with_reducible apply runJet_keeps | intro _ | split | dsimp only

theorem execJpowi_keeps (f : JPowF) {s : State} {t : State} (h : execJpowi f s = .next t) : Keeps s t := by
  dsimp only [execJpowi] at h
  cases h
  have h := Keeps.refl s
  repeat' first | with_reducible assumption | with_reducible apply jetSlot_keeps | with_reducible apply runJet_keeps | intro _ | split | dsimp only

theorem execJflagClear_keeps (a : SOp) {s : State} {t : State} (h : execJflagClear a s = .next t) : Keeps s t := by
  dsimp only [execJflagClear] at h
  cases h
  have h := Keeps.refl s
  repeat' first | with_reducible assumption | with_reducible apply emit_keeps | intro _ | split | dsimp only

theorem execJflagGet_keeps (d : Fin 232) {s : State} {t : State} (h : execJflagGet d s = .next t) : Keeps s t := by
  dsimp only [execJflagGet] at h
  cases h
  have h := Keeps.refl s
  repeat' first | with_reducible assumption | with_reducible apply emitVec_keeps | intro _ | split | dsimp only

/-! ## Special -/

theorem runFn_keeps {s0 : State} (fn : Fn) (l0 : Nat) (f : FForm) {s : State} (h : Keeps s0 s) : Keeps s0 (runFn fn l0 f s) := by
  unfold runFn
  repeat' first
    | with_reducible assumption
    | with_reducible apply jetSlot_keeps
    | with_reducible apply runJet_keeps
    | with_reducible apply runLanes_keeps
    | intro _
    | split
    | dsimp only

theorem execFnop_keeps {s : State} {t : State} (h : execFnop s = .next t) : Keeps s t := by
  dsimp only [execFnop] at h
  cases h
  have h := Keeps.refl s
  repeat' first | with_reducible assumption | intro _ | split | dsimp only

theorem execRcp_keeps (f : FForm) {s : State} {t : State} (h : execRcp f s = .next t) : Keeps s t := by
  dsimp only [execRcp] at h
  cases h
  have h := Keeps.refl s
  repeat' first | with_reducible assumption | with_reducible apply runFn_keeps | intro _ | split | dsimp only

theorem execRsq_keeps (f : FForm) {s : State} {t : State} (h : execRsq f s = .next t) : Keeps s t := by
  dsimp only [execRsq] at h
  cases h
  have h := Keeps.refl s
  repeat' first | with_reducible assumption | with_reducible apply runFn_keeps | intro _ | split | dsimp only

theorem execSqrt_keeps (f : FForm) {s : State} {t : State} (h : execSqrt f s = .next t) : Keeps s t := by
  dsimp only [execSqrt] at h
  cases h
  have h := Keeps.refl s
  repeat' first | with_reducible assumption | with_reducible apply runFn_keeps | intro _ | split | dsimp only

theorem execExp2_keeps (f : FForm) {s : State} {t : State} (h : execExp2 f s = .next t) : Keeps s t := by
  dsimp only [execExp2] at h
  cases h
  have h := Keeps.refl s
  repeat' first | with_reducible assumption | with_reducible apply runFn_keeps | intro _ | split | dsimp only

theorem execLog2_keeps (f : FForm) {s : State} {t : State} (h : execLog2 f s = .next t) : Keeps s t := by
  dsimp only [execLog2] at h
  cases h
  have h := Keeps.refl s
  repeat' first | with_reducible assumption | with_reducible apply runFn_keeps | intro _ | split | dsimp only

theorem execExp_keeps (f : FForm) {s : State} {t : State} (h : execExp f s = .next t) : Keeps s t := by
  dsimp only [execExp] at h
  cases h
  have h := Keeps.refl s
  repeat' first | with_reducible assumption | with_reducible apply runFn_keeps | intro _ | split | dsimp only

theorem execLog_keeps (f : FForm) {s : State} {t : State} (h : execLog f s = .next t) : Keeps s t := by
  dsimp only [execLog] at h
  cases h
  have h := Keeps.refl s
  repeat' first | with_reducible assumption | with_reducible apply runFn_keeps | intro _ | split | dsimp only

theorem execSin_keeps (f : FForm) {s : State} {t : State} (h : execSin f s = .next t) : Keeps s t := by
  dsimp only [execSin] at h
  cases h
  have h := Keeps.refl s
  repeat' first | with_reducible assumption | with_reducible apply runFn_keeps | intro _ | split | dsimp only

theorem execCos_keeps (f : FForm) {s : State} {t : State} (h : execCos f s = .next t) : Keeps s t := by
  dsimp only [execCos] at h
  cases h
  have h := Keeps.refl s
  repeat' first | with_reducible assumption | with_reducible apply runFn_keeps | intro _ | split | dsimp only

theorem execTanh_keeps (f : FForm) {s : State} {t : State} (h : execTanh f s = .next t) : Keeps s t := by
  dsimp only [execTanh] at h
  cases h
  have h := Keeps.refl s
  repeat' first | with_reducible assumption | with_reducible apply runFn_keeps | intro _ | split | dsimp only

theorem execSigm_keeps (f : FForm) {s : State} {t : State} (h : execSigm f s = .next t) : Keeps s t := by
  dsimp only [execSigm] at h
  cases h
  have h := Keeps.refl s
  repeat' first | with_reducible assumption | with_reducible apply runFn_keeps | intro _ | split | dsimp only

theorem runStep_keeps {s0 : State} (rsq : Bool) (f : FForm) {s : State} (h : Keeps s0 s) : Keeps s0 (runStep rsq f s) := by
  unfold runStep
  repeat' first | with_reducible assumption | with_reducible apply runLanes_keeps | intro _ | split | dsimp only

theorem execRcpstep_keeps (f : FForm) {s : State} {t : State} (h : execRcpstep f s = .next t) : Keeps s t := by
  dsimp only [execRcpstep] at h
  cases h
  have h := Keeps.refl s
  repeat' first | with_reducible assumption | with_reducible apply runStep_keeps | intro _ | split | dsimp only

theorem execRsqstep_keeps (f : FForm) {s : State} {t : State} (h : execRsqstep f s = .next t) : Keeps s t := by
  dsimp only [execRsqstep] at h
  cases h
  have h := Keeps.refl s
  repeat' first | with_reducible assumption | with_reducible apply runStep_keeps | intro _ | split | dsimp only

theorem execJsincos_keeps (f : FForm) {s : State} {t : State} (h : execJsincos f s = .next t) : Keeps s t := by
  dsimp only [execJsincos] at h
  cases h
  have h := Keeps.refl s
  repeat' first
    | with_reducible assumption
    | with_reducible apply emitJet_keeps
    | with_reducible apply jetSlot_keeps
    | with_reducible apply trapHere_keeps
    | intro _
    | split
    | dsimp only

end Sys2Proof.Machine
end

