-- ==== Sys2Proof/Laws/KeepsMemory.lean ====
section
/-! SUPPORT. Accesses and the memory/engine slot forms: each keeps the relation `Keeps`. -/

namespace Sys2Proof.Machine

open Sys2Proof

set_option simprocs false

/-! ## Access -/

theorem taintSectors_keeps {s0 : State} {s : State} (pa : Nat) (n : Nat) (t : Bool) (h : Keeps s0 s) : Keeps s0 (taintSectors s pa n t) := by
  unfold taintSectors
  repeat' first
    | with_reducible assumption
    | with_reducible apply Keeps.foldl
    | intro _
    | split
    | dsimp only
    | with_reducible apply Keeps.put

theorem mergeLineOf_keeps {s0 : State} {s : State} (c : Nat) (line : Nat) (h : Keeps s0 s) : Keeps s0 (mergeLineOf s c line) := by
  unfold mergeLineOf
  repeat' first
    | with_reducible assumption
    | with_reducible apply modCore_keeps
    | with_reducible apply performBytes_keeps
    | with_reducible apply taintSectors_keeps
    | with_reducible apply Keeps.foldl
    | intro _
    | split
    | dsimp only
    | with_reducible apply Keeps.put

theorem mergeLine_keeps {s0 : State} {s : State} (line : Nat) (h : Keeps s0 s) : Keeps s0 (mergeLine s line) := by
  unfold mergeLine
  repeat' first | with_reducible assumption | with_reducible apply mergeLineOf_keeps | with_reducible apply Keeps.foldl | intro _ | split | dsimp only

theorem mergeRange_keeps {s0 : State} {s : State} (pa : Nat) (n : Nat) (h : Keeps s0 s) : Keeps s0 (mergeRange s pa n) := by
  unfold mergeRange
  repeat' first | with_reducible assumption | with_reducible apply mergeLine_keeps | with_reducible apply Keeps.foldl | intro _ | split | dsimp only

theorem readPhys_keeps {s0 : State} {s : State} (pa : Nat) (n : Nat) (h : Keeps s0 s) : Keeps s0 (readPhys s pa n).2 := by
  unfold readPhys
  repeat' first | with_reducible assumption | with_reducible apply mergeRange_keeps | intro _ | split | dsimp only

theorem writePhys_keeps {s0 : State} {s : State} (pa : Nat) (bs : List Byte) (h : Keeps s0 s) : Keeps s0 (writePhys s pa bs) := by
  unfold writePhys
  repeat' first | with_reducible assumption | with_reducible apply mergeRange_keeps | with_reducible apply performBytes_keeps | intro _ | split | dsimp only

theorem descend_keeps {s0 : State} (d p va fuel : Nat) {s : State} (lv a : Nat) (h : Keeps s0 s) : Keeps s0 (descend s d p va fuel lv a).1 := by
  induction fuel generalizing s lv a with
  | zero => exact h
  | succ n ih =>
    rw [descend]
    generalize d * 2^60 + a + 8 * levelIndex lv va = ea
    have h1 := readPhys_keeps ea 8 h
    generalize readPhys s ea 8 = r at h1
    dsimp only
    repeat' first | exact h1 | exact ih _ _ h1 | split

theorem cacheLeaf_keeps {s0 : State} {s : State} (d : Nat) (p : Nat) (va : Nat) (lv : Nat) (e : Nat) (h : Keeps s0 s) : Keeps s0 (cacheLeaf s d p va lv e) := by
  unfold cacheLeaf
  repeat' first
    | with_reducible assumption
    | intro _
    | split
    | dsimp only
    | with_reducible apply Keeps.put

theorem walkLeaf_keeps {s0 : State} {s : State} (d : Nat) (p : Nat) (va : Nat) (store : Bool) (ea : Nat) (e : Nat) (lv : Nat) (h : Keeps s0 s) : Keeps s0 (walkLeaf s d p va store ea e lv).1 := by
  unfold walkLeaf
  repeat' first
    | with_reducible assumption
    | with_reducible apply cacheLeaf_keeps
    | with_reducible apply drawDevice_keeps
    | with_reducible apply performBytes_keeps
    | intro _
    | split
    | dsimp only
    | with_reducible apply Keeps.put

theorem doWalk_keeps {s0 s : State} (d p va : Nat) (store : Bool) (h : Keeps s0 s) : Keeps s0 (doWalk s d p va store).1 := by
  unfold doWalk
  generalize pfGet s (0xE0000 + 0x200 * d + 8 * p) 8 = root
  dsimp only
  have h1 := descend_keeps d p va 4 0 (bitsAt root 11 41 * 2048) h
  generalize descend s d p va 4 0 (bitsAt root 11 41 * 2048) = r at h1
  obtain ⟨s1, x⟩ := r
  split
  · exact h
  · split
    · exact h
    · split
      · exact h
      · cases x
        · exact h1
        · exact walkLeaf_keeps _ _ _ _ _ _ _ h1

theorem askHost_keeps {s0 : State} {s : State} (p : Nat) (va : Nat) (store : Bool) (h : Keeps s0 s) : Keeps s0 (askHost s p va store) := by
  unfold askHost
  repeat' first
    | with_reducible assumption
    | with_reducible apply send_keeps
    | intro _
    | split
    | dsimp only
    | with_reducible apply Keeps.put

theorem resolve_keeps {s0 : State} {s : State} (p : Nat) (va : Nat) (store : Bool) (h : Keeps s0 s) : Keeps s0 (resolve s p va store).1 := by
  unfold resolve
  repeat' first | with_reducible assumption | with_reducible apply askHost_keeps | with_reducible apply doWalk_keeps | intro _ | split | dsimp only

theorem resolvePiece_keeps {s0 : State} {s : State} (p va n : Nat) (store : Bool) (h : Keeps s0 s) : Keeps s0 (resolvePiece s p va n store).1 := by
  have h1 := resolve_keeps p va store h
  unfold resolvePiece
  generalize resolve s p va store = r at h1
  obtain ⟨s1, x⟩ := r
  cases x
  · dsimp only; split <;> exact h1
  · exact h1
  · exact h1

theorem resolveRange_keeps {s0 : State} (p : Nat) (store : Bool) (fuel : Nat) {s : State} (va n : Nat) (h : Keeps s0 s) :
    Keeps s0 (resolveRange s p store fuel va n).1 := by
  induction fuel generalizing s va n with
  | zero => exact h
  | succ k ih =>
    unfold resolveRange
    split
    · exact h
    · have h1 := resolvePiece_keeps (s := s) p va (pageRest va n) store h
      dsimp only
      generalize resolvePiece s p va (pageRest va n) store = r at h1
      obtain ⟨s1, x⟩ := r
      cases x <;> first | exact h1 | exact ih _ _ h1

theorem readPieces_keeps {s0 : State} (l : List (Nat × Nat)) {s : State} (h : Keeps s0 s) : Keeps s0 (readPieces s l).2.2 := by
  induction l generalizing s with
  | nil => exact h
  | cons e r ih => exact ih (mergeRange_keeps e.1 e.2 h)

theorem tagSectors_keeps {s0 : State} {s : State} (tags : Option (Nat × Nat × Nat)) (pa : Nat) (n : Nat) (t : Bool) (h : Keeps s0 s) : Keeps s0 (tagSectors s tags pa n t) := by
  unfold tagSectors
  repeat' first
    | with_reducible assumption
    | with_reducible apply Keeps.foldl
    | intro _
    | split
    | dsimp only
    | with_reducible apply Keeps.put

theorem noteTaint_keeps {s0 : State} {s : State} (q : Nat) (p : Nat) (va : Nat) (n : Nat) (t : Bool) (h : Keeps s0 s) : Keeps s0 (noteTaint s q p va n t) := by
  unfold noteTaint
  repeat' first
    | with_reducible assumption
    | with_reducible apply modTask_keeps
    | intro _
    | split
    | dsimp only
    | with_reducible apply Keeps.put

theorem storeBytes_keeps {s0 : State} {s : State} (c : Nat) (p : Nat) (va : Nat) (pa : Nat) (bs : List Byte) (t : Bool) (race : Bool) (h : Keeps s0 s) : Keeps s0 (storeBytes s c p va pa bs t race) := by
  unfold storeBytes
  repeat' first
    | with_reducible assumption
    | with_reducible apply mergeRange_keeps
    | with_reducible apply modCore_keeps
    | with_reducible apply noteTaint_keeps
    | with_reducible apply performBytes_keeps
    | with_reducible apply tagSectors_keeps
    | intro _
    | split
    | dsimp only

theorem l1Evicted_keeps {s0 : State} {s : State} (h : Keeps s0 s) : Keeps s0 (l1Evicted s).2 := by
  unfold l1Evicted
  repeat' first
    | with_reducible assumption
    | intro _
    | split
    | dsimp only
    | with_reducible apply Keeps.put
    | with_reducible apply Keeps.putDraw

theorem l1Room_keeps {s0 : State} {s : State} (c : Nat) (h : Keeps s0 s) : Keeps s0 (l1Room s c) := by
  unfold l1Room
  dsimp only
  split
  · exact h
  · have h1 := Keeps.draw (u := { s with freeCtr := s.freeCtr + 1 }) h rfl rfl rfl rfl
    split
    · split
      · exact modCore_keeps _ _ h1
      · exact mergeLineOf_keeps _ _ h1
    · exact modCore_keeps _ _ h1

theorem loadBytes_keeps {s0 : State} {s : State} (c : Nat) (va : Nat) (pa : Nat) (n : Nat) (na : Bool) (h : Keeps s0 s) : Keeps s0 (loadBytes s c va pa n na).2.2 := by
  unfold loadBytes
  split
  · exact readPieces_keeps _ h
  · dsimp only
    have h1 : Keeps s0 (if (Tbl.find? (coreGet s c).l1 (va / 64)).isSome = true then l1Evicted s else (false, s)).2 := by
      split
      · exact l1Evicted_keeps h
      · exact h
    generalize (if (Tbl.find? (coreGet s c).l1 (va / 64)).isSome = true then l1Evicted s else (false, s)) = ev at h1
    split
    · exact h1
    · dsimp only
      split
      · exact modCore_keeps _ _ h1
      · exact modCore_keeps _ _ (l1Room_keeps _ (modCore_keeps _ _ h1))

/-! ## Issue -/

theorem opDue_keeps {s0 : State} {s : State} (det : Bool) (path : Nat) (k : AKind) (h : Keeps s0 s) : Keeps s0 (opDue s det path k).2 := by
  unfold opDue
  repeat' first
    | with_reducible assumption
    | with_reducible apply drawLatency_keeps
    | intro _
    | split
    | dsimp only
    | with_reducible apply Keeps.put
    | with_reducible apply Keeps.putDraw

theorem faultTrap_keeps {s0 : State} {s : State} (c : Nat) (o : AOp) (code : Nat) (detail : Nat) (h : Keeps s0 s) : Keeps s0 (faultTrap s c o code detail) := by
  unfold faultTrap
  repeat' first
    | with_reducible assumption
    | with_reducible apply modCore_keeps
    | with_reducible apply takeTrap_keeps
    | with_reducible apply Res.bind_keeps
    | with_reducible apply ResKeeps.of_ok
    | with_reducible apply ResKeeps.of_fail
    | with_reducible exact ResKeeps.of_wait
    | intro _
    | split
    | dsimp only
    | with_reducible apply Keeps.put

theorem peekRegion_keeps {s0 : State} {s : State} (c : Nat) (va : Nat) (h : Keeps s0 s) : Keeps s0 (peekRegion s c va).2 := by
  unfold peekRegion
  repeat' first
    | with_reducible assumption
    | with_reducible apply readPhys_keeps
    | intro _
    | split
    | dsimp only

theorem translated_keeps {s0 : State} {s : State} (c : Nat) (k : AKind) (h : Keeps s0 s) : Keeps s0 (translated s c k) := by
  cases k
  case bind z va r =>
    dsimp only [translated]
    exact modCore_keeps _ _ (peekRegion_keeps c va h)
  all_goals exact h

theorem askPages_keeps {s0 : State} {s : State} (p : Nat) (store : Bool) (pages : List Nat) (h : Keeps s0 s) : Keeps s0 (askPages s p store pages) := by
  unfold askPages
  repeat' first | with_reducible assumption | with_reducible apply askHost_keeps | with_reducible apply Keeps.foldl | intro _ | split | dsimp only

theorem enterOp_keeps {s0 : State} {s : State} (c : Nat) (o : AOp) (h : Keeps s0 s) : Keeps s0 (enterOp s c o) := by
  unfold enterOp
  repeat' first
    | with_reducible assumption
    | with_reducible apply askPages_keeps
    | with_reducible apply drawDevice_keeps
    | with_reducible apply faultTrap_keeps
    | with_reducible apply modCore_keeps
    | with_reducible apply opDue_keeps
    | with_reducible apply translated_keeps
    | intro _
    | split
    | dsimp only
    | with_reducible apply Keeps.put

theorem issueOp_keeps {s0 : State} {s : State} (path : Nat) (store : Bool) (t : Bool) (k : AKind) (h : Keeps s0 s) : Keeps s0 (issueOp s path store t k) := by
  unfold issueOp
  repeat' first
    | with_reducible assumption
    | with_reducible apply enterOp_keeps
    | with_reducible apply modCur_keeps
    | intro _
    | split
    | dsimp only
    | with_reducible apply Keeps.put

theorem orTrap_keeps {s0 s k : State} (code : Option Nat) (h : Keeps s0 s) (hk : Keeps s0 k) : Keeps s0 (orTrap s code k) := by
  unfold orTrap
  split
  · exact trapHere_keeps _ _ h
  · exact hk

theorem countLocal_keeps {s0 : State} {s : State} (h : Keeps s0 s) : Keeps s0 (countLocal s) := by
  unfold countLocal
  repeat' first
    | with_reducible assumption
    | with_reducible apply modCur_keeps
    | intro _
    | split
    | dsimp only
    | with_reducible apply Keeps.put

/-! ## MemForms -/

theorem runLoad_keeps {s0 : State} (f : MLd) (n : Nat) (signed : Bool) {s : State} (h : Keeps s0 s) : Keeps s0 (runLoad f n signed s) := by
  unfold runLoad
  repeat' first
    | with_reducible assumption
    | with_reducible apply countLocal_keeps
    | with_reducible apply emit_keeps
    | with_reducible apply issueOp_keeps
    | with_reducible apply orTrap_keeps
    | intro _
    | split
    | dsimp only

theorem execLd8u_keeps (f : MLd) {s : State} {t : State} (h : execLd8u f s = .next t) : Keeps s t := by
  dsimp only [execLd8u] at h
  cases h
  have h := Keeps.refl s
  repeat' first | with_reducible assumption | with_reducible apply runLoad_keeps | intro _ | split | dsimp only

theorem execLd16u_keeps (f : MLd) {s : State} {t : State} (h : execLd16u f s = .next t) : Keeps s t := by
  dsimp only [execLd16u] at h
  cases h
  have h := Keeps.refl s
  repeat' first | with_reducible assumption | with_reducible apply runLoad_keeps | intro _ | split | dsimp only

theorem execLd32u_keeps (f : MLd) {s : State} {t : State} (h : execLd32u f s = .next t) : Keeps s t := by
  dsimp only [execLd32u] at h
  cases h
  have h := Keeps.refl s
  repeat' first | with_reducible assumption | with_reducible apply runLoad_keeps | intro _ | split | dsimp only

theorem execLd64_keeps (f : MLd) {s : State} {t : State} (h : execLd64 f s = .next t) : Keeps s t := by
  dsimp only [execLd64] at h
  cases h
  have h := Keeps.refl s
  repeat' first | with_reducible assumption | with_reducible apply runLoad_keeps | intro _ | split | dsimp only

theorem execLd8s_keeps (f : MLd) {s : State} {t : State} (h : execLd8s f s = .next t) : Keeps s t := by
  dsimp only [execLd8s] at h
  cases h
  have h := Keeps.refl s
  repeat' first | with_reducible assumption | with_reducible apply runLoad_keeps | intro _ | split | dsimp only

theorem execLd16s_keeps (f : MLd) {s : State} {t : State} (h : execLd16s f s = .next t) : Keeps s t := by
  dsimp only [execLd16s] at h
  cases h
  have h := Keeps.refl s
  repeat' first | with_reducible assumption | with_reducible apply runLoad_keeps | intro _ | split | dsimp only

theorem execLd32s_keeps (f : MLd) {s : State} {t : State} (h : execLd32s f s = .next t) : Keeps s t := by
  dsimp only [execLd32s] at h
  cases h
  have h := Keeps.refl s
  repeat' first | with_reducible assumption | with_reducible apply runLoad_keeps | intro _ | split | dsimp only

theorem runStore_keeps {s0 : State} (f : MSt) (n : Nat) {s : State} (h : Keeps s0 s) : Keeps s0 (runStore f n s) := by
  unfold runStore
  repeat' first | with_reducible assumption | with_reducible apply issueOp_keeps | with_reducible apply orTrap_keeps | intro _ | split | dsimp only

theorem execSt8_keeps (f : MSt) {s : State} {t : State} (h : execSt8 f s = .next t) : Keeps s t := by
  dsimp only [execSt8] at h
  cases h
  have h := Keeps.refl s
  repeat' first | with_reducible assumption | with_reducible apply runStore_keeps | intro _ | split | dsimp only

theorem execSt16_keeps (f : MSt) {s : State} {t : State} (h : execSt16 f s = .next t) : Keeps s t := by
  dsimp only [execSt16] at h
  cases h
  have h := Keeps.refl s
  repeat' first | with_reducible assumption | with_reducible apply runStore_keeps | intro _ | split | dsimp only

theorem execSt32_keeps (f : MSt) {s : State} {t : State} (h : execSt32 f s = .next t) : Keeps s t := by
  dsimp only [execSt32] at h
  cases h
  have h := Keeps.refl s
  repeat' first | with_reducible assumption | with_reducible apply runStore_keeps | intro _ | split | dsimp only

theorem execSt64_keeps (f : MSt) {s : State} {t : State} (h : execSt64 f s = .next t) : Keeps s t := by
  dsimp only [execSt64] at h
  cases h
  have h := Keeps.refl s
  repeat' first | with_reducible assumption | with_reducible apply runStore_keeps | intro _ | split | dsimp only

theorem loadLanes_keeps {s0 : State} (f : MVec) (local_ : Bool) (lanes : LaneMask) (l : List (Nat × Nat × Bool)) {s : State} (h : Keeps s0 s) : Keeps s0 (loadLanes f local_ lanes l s) := by
  unfold loadLanes
  repeat' first
    | with_reducible assumption
    | with_reducible apply countLocal_keeps
    | with_reducible apply emit_keeps
    | with_reducible apply issueOp_keeps
    | intro _
    | split
    | dsimp only

theorem execVld_keeps (f : MVec) {s : State} {t : State} (h : execVld f s = .next t) : Keeps s t := by
  dsimp only [execVld] at h
  cases h
  have h := Keeps.refl s
  repeat' first | with_reducible assumption | with_reducible apply loadLanes_keeps | with_reducible apply orTrap_keeps | intro _ | split | dsimp only

theorem storeLanes_keeps {s0 : State} (l : List (Nat × Lane × Bool)) {s : State} (h : Keeps s0 s) : Keeps s0 (storeLanes l s) := by
  unfold storeLanes
  repeat' first | with_reducible assumption | with_reducible apply issueOp_keeps | intro _ | split | dsimp only

theorem execVst_keeps (f : MVec) {s : State} {t : State} (h : execVst f s = .next t) : Keeps s t := by
  dsimp only [execVst] at h
  cases h
  have h := Keeps.refl s
  repeat' first | with_reducible assumption | with_reducible apply orTrap_keeps | with_reducible apply storeLanes_keeps | intro _ | split | dsimp only

theorem execVgath_keeps (f : MVec) {s : State} {t : State} (h : execVgath f s = .next t) : Keeps s t := by
  dsimp only [execVgath] at h
  cases h
  have h := Keeps.refl s
  repeat' first | with_reducible assumption | with_reducible apply loadLanes_keeps | with_reducible apply orTrap_keeps | intro _ | split | dsimp only

theorem execVscat_keeps (f : MVec) {s : State} {t : State} (h : execVscat f s = .next t) : Keeps s t := by
  dsimp only [execVscat] at h
  cases h
  have h := Keeps.refl s
  repeat' first | with_reducible assumption | with_reducible apply orTrap_keeps | with_reducible apply storeLanes_keeps | intro _ | split | dsimp only

theorem execMnop_keeps {s : State} {t : State} (h : execMnop s = .next t) : Keeps s t := by
  dsimp only [execMnop] at h
  cases h
  have h := Keeps.refl s
  repeat' first | with_reducible assumption | intro _ | split | dsimp only

theorem execPrf_keeps (_f : MAddr) {s : State} {t : State} (h : execPrf _f s = .next t) : Keeps s t := by
  dsimp only [execPrf] at h
  cases h
  have h := Keeps.refl s
  repeat' first | with_reducible assumption | intro _ | split | dsimp only

theorem execSbind_keeps (f : MBind) {s : State} {t : State} (h : execSbind f s = .next t) : Keeps s t := by
  dsimp only [execSbind] at h
  cases h
  have h := Keeps.refl s
  repeat' first
    | with_reducible assumption
    | with_reducible apply issueOp_keeps
    | with_reducible apply modCur_keeps
    | with_reducible apply orTrap_keeps
    | with_reducible apply Res.bind_keeps
    | with_reducible apply ResKeeps.of_ok
    | with_reducible apply ResKeeps.of_fail
    | with_reducible exact ResKeeps.of_wait
    | intro _
    | split
    | dsimp only

theorem execSunbind_keeps (z : Fin 8) {s : State} {t : State} (h : execSunbind z s = .next t) : Keeps s t := by
  dsimp only [execSunbind] at h
  cases h
  have h := Keeps.refl s
  repeat' first | with_reducible assumption | with_reducible apply modCur_keeps | intro _ | split | dsimp only

theorem execSpos_keeps (f : MSpos) {s : State} {t : State} (h : execSpos f s = .next t) : Keeps s t := by
  dsimp only [execSpos] at h
  cases h
  have h := Keeps.refl s
  repeat' first | with_reducible assumption | with_reducible apply emit_keeps | intro _ | split | dsimp only

theorem runCopy_keeps {s0 : State} (opc : Nat) (path : Nat) (f : MDesc) {s : State} (h : Keeps s0 s) : Keeps s0 (runCopy opc path f s) := by
  unfold runCopy
  repeat' first | with_reducible assumption | with_reducible apply issueOp_keeps | with_reducible apply orTrap_keeps | intro _ | split | dsimp only

theorem execCopy_keeps (f : MDesc) {s : State} {t : State} (h : execCopy f s = .next t) : Keeps s t := by
  dsimp only [execCopy] at h
  cases h
  have h := Keeps.refl s
  repeat' first | with_reducible assumption | with_reducible apply runCopy_keeps | intro _ | split | dsimp only

theorem execCopyp_keeps (f : MDesc) {s : State} {t : State} (h : execCopyp f s = .next t) : Keeps s t := by
  dsimp only [execCopyp] at h
  cases h
  have h := Keeps.refl s
  repeat' first | with_reducible assumption | with_reducible apply runCopy_keeps | intro _ | split | dsimp only

theorem execFill_keeps (f : MDesc) {s : State} {t : State} (h : execFill f s = .next t) : Keeps s t := by
  dsimp only [execFill] at h
  cases h
  have h := Keeps.refl s
  repeat' first | with_reducible assumption | with_reducible apply runCopy_keeps | intro _ | split | dsimp only

theorem runCache_keeps {s0 : State} (opc : Nat) (f : MAddr) {s : State} (h : Keeps s0 s) : Keeps s0 (runCache opc f s) := by
  unfold runCache
  repeat' first | with_reducible assumption | with_reducible apply issueOp_keeps | with_reducible apply orTrap_keeps | intro _ | split | dsimp only

theorem execCflush_keeps (f : MAddr) {s : State} {t : State} (h : execCflush f s = .next t) : Keeps s t := by
  dsimp only [execCflush] at h
  cases h
  have h := Keeps.refl s
  repeat' first | with_reducible assumption | with_reducible apply runCache_keeps | intro _ | split | dsimp only

theorem execCinv_keeps (f : MAddr) {s : State} {t : State} (h : execCinv f s = .next t) : Keeps s t := by
  dsimp only [execCinv] at h
  cases h
  have h := Keeps.refl s
  repeat' first | with_reducible assumption | with_reducible apply runCache_keeps | intro _ | split | dsimp only

theorem execCclean_keeps (f : MAddr) {s : State} {t : State} (h : execCclean f s = .next t) : Keeps s t := by
  dsimp only [execCclean] at h
  cases h
  have h := Keeps.refl s
  repeat' first | with_reducible assumption | with_reducible apply runCache_keeps | intro _ | split | dsimp only

theorem execMigr_keeps (f : MMigr) {s : State} {t : State} (h : execMigr f s = .next t) : Keeps s t := by
  dsimp only [execMigr] at h
  cases h
  have h := Keeps.refl s
  repeat' first | with_reducible assumption | with_reducible apply issueOp_keeps | with_reducible apply orTrap_keeps | intro _ | split | dsimp only

/-! ## Sync -/

theorem execFenceX_keeps (f : MFence) {s : State} {t : State} (h : execFenceX f s = .next t) : Keeps s t := by
  dsimp only [execFenceX] at h
  cases h
  have h := Keeps.refl s
  repeat' first
    | with_reducible assumption
    | with_reducible apply modCur_keeps
    | intro _
    | split
    | dsimp only
    | with_reducible apply Keeps.put

theorem execFenceOwn_keeps (_f : MPred) {s : State} {t : State} (h : execFenceOwn _f s = .next t) : Keeps s t := by
  dsimp only [execFenceOwn] at h
  cases h
  have h := Keeps.refl s
  repeat' first | with_reducible assumption | intro _ | split | dsimp only

theorem execFenceFar_keeps (f : MAddr) {s : State} {t : State} (h : execFenceFar f s = .next t) : Keeps s t := by
  dsimp only [execFenceFar] at h
  cases h
  have h := Keeps.refl s
  repeat' first | with_reducible assumption | with_reducible apply issueOp_keeps | with_reducible apply orTrap_keeps | intro _ | split | dsimp only

theorem execDrain_keeps (f : MDrain) {s : State} {t : State} (h : execDrain f s = .next t) : Keeps s t := by
  dsimp only [execDrain] at h
  cases h
  have h := Keeps.refl s
  repeat' first
    | with_reducible assumption
    | with_reducible apply modCur_keeps
    | intro _
    | split
    | dsimp only
    | with_reducible apply Keeps.put

theorem execLdacq_keeps (f : MAtom) {s : State} {t : State} (h : execLdacq f s = .next t) : Keeps s t := by
  dsimp only [execLdacq] at h
  cases h
  have h := Keeps.refl s
  repeat' first | with_reducible assumption | with_reducible apply issueOp_keeps | with_reducible apply orTrap_keeps | intro _ | split | dsimp only

theorem execStrel_keeps (f : MRed) {s : State} {t : State} (h : execStrel f s = .next t) : Keeps s t := by
  dsimp only [execStrel] at h
  cases h
  have h := Keeps.refl s
  repeat' first | with_reducible assumption | with_reducible apply issueOp_keeps | with_reducible apply orTrap_keeps | intro _ | split | dsimp only

theorem runRed_keeps {s0 : State} (opc : Nat) (f : MRed) {s : State} (h : Keeps s0 s) : Keeps s0 (runRed opc f s) := by
  unfold runRed
  repeat' first | with_reducible assumption | with_reducible apply issueOp_keeps | with_reducible apply orTrap_keeps | intro _ | split | dsimp only

theorem execRedaddI32_keeps (f : MRed) {s : State} {t : State} (h : execRedaddI32 f s = .next t) : Keeps s t := by
  dsimp only [execRedaddI32] at h
  cases h
  have h := Keeps.refl s
  repeat' first | with_reducible assumption | with_reducible apply runRed_keeps | intro _ | split | dsimp only

theorem execRedaddq_keeps (f : MRed) {s : State} {t : State} (h : execRedaddq f s = .next t) : Keeps s t := by
  dsimp only [execRedaddq] at h
  cases h
  have h := Keeps.refl s
  repeat' first | with_reducible assumption | with_reducible apply runRed_keeps | intro _ | split | dsimp only

theorem execRedminI32_keeps (f : MRed) {s : State} {t : State} (h : execRedminI32 f s = .next t) : Keeps s t := by
  dsimp only [execRedminI32] at h
  cases h
  have h := Keeps.refl s
  repeat' first | with_reducible assumption | with_reducible apply runRed_keeps | intro _ | split | dsimp only

theorem execRedmaxI32_keeps (f : MRed) {s : State} {t : State} (h : execRedmaxI32 f s = .next t) : Keeps s t := by
  dsimp only [execRedmaxI32] at h
  cases h
  have h := Keeps.refl s
  repeat' first | with_reducible assumption | with_reducible apply runRed_keeps | intro _ | split | dsimp only

theorem execRedand_keeps (f : MRed) {s : State} {t : State} (h : execRedand f s = .next t) : Keeps s t := by
  dsimp only [execRedand] at h
  cases h
  have h := Keeps.refl s
  repeat' first | with_reducible assumption | with_reducible apply runRed_keeps | intro _ | split | dsimp only

theorem execRedor_keeps (f : MRed) {s : State} {t : State} (h : execRedor f s = .next t) : Keeps s t := by
  dsimp only [execRedor] at h
  cases h
  have h := Keeps.refl s
  repeat' first | with_reducible assumption | with_reducible apply runRed_keeps | intro _ | split | dsimp only

theorem execRedxor_keeps (f : MRed) {s : State} {t : State} (h : execRedxor f s = .next t) : Keeps s t := by
  dsimp only [execRedxor] at h
  cases h
  have h := Keeps.refl s
  repeat' first | with_reducible assumption | with_reducible apply runRed_keeps | intro _ | split | dsimp only

theorem execRedaddF32_keeps (f : MRed) {s : State} {t : State} (h : execRedaddF32 f s = .next t) : Keeps s t := by
  dsimp only [execRedaddF32] at h
  cases h
  have h := Keeps.refl s
  repeat' first | with_reducible assumption | with_reducible apply runRed_keeps | intro _ | split | dsimp only

theorem runAtom_keeps {s0 : State} (opc : Nat) (f : MAtom) {s : State} (h : Keeps s0 s) : Keeps s0 (runAtom opc f s) := by
  unfold runAtom
  repeat' first | with_reducible assumption | with_reducible apply issueOp_keeps | with_reducible apply orTrap_keeps | intro _ | split | dsimp only

theorem execAtomadd_keeps (f : MAtom) {s : State} {t : State} (h : execAtomadd f s = .next t) : Keeps s t := by
  dsimp only [execAtomadd] at h
  cases h
  have h := Keeps.refl s
  repeat' first | with_reducible assumption | with_reducible apply runAtom_keeps | intro _ | split | dsimp only

theorem execAtomswp_keeps (f : MAtom) {s : State} {t : State} (h : execAtomswp f s = .next t) : Keeps s t := by
  dsimp only [execAtomswp] at h
  cases h
  have h := Keeps.refl s
  repeat' first | with_reducible assumption | with_reducible apply runAtom_keeps | intro _ | split | dsimp only

theorem execAtomcas_keeps (f : MAtom) {s : State} {t : State} (h : execAtomcas f s = .next t) : Keeps s t := by
  dsimp only [execAtomcas] at h
  cases h
  have h := Keeps.refl s
  repeat' first | with_reducible assumption | with_reducible apply runAtom_keeps | intro _ | split | dsimp only

theorem execSync_keeps (f : MSync) {s : State} {t : State} (h : execSync f s = .next t) : Keeps s t := by
  dsimp only [execSync] at h
  cases h
  have h := Keeps.refl s
  repeat' first
    | with_reducible assumption
    | with_reducible apply modCurSeq_keeps
    | intro _
    | split
    | dsimp only
    | with_reducible apply Keeps.put

theorem execBarcfg_keeps (f : MBarcfg) {s : State} {t : State} (h : execBarcfg f s = .next t) : Keeps s t := by
  dsimp only [execBarcfg] at h
  cases h
  have h := Keeps.refl s
  repeat' first
    | with_reducible assumption
    | with_reducible apply modCurSeq_keeps
    | with_reducible apply orTrap_keeps
    | intro _
    | split
    | dsimp only
    | with_reducible apply Keeps.put

theorem execSstep_keeps {s : State} {t : State} (h : execSstep s = .next t) : Keeps s t := by
  dsimp only [execSstep] at h
  cases h
  have h := Keeps.refl s
  repeat' first
    | with_reducible assumption
    | with_reducible apply modCurSeq_keeps
    | intro _
    | split
    | dsimp only
    | with_reducible apply Keeps.put

theorem execTaintrdScalar_keeps (f : MTaintRdS) {s : State} {t : State} (h : execTaintrdScalar f s = .next t) : Keeps s t := by
  dsimp only [execTaintrdScalar] at h
  cases h
  have h := Keeps.refl s
  repeat' first | with_reducible assumption | with_reducible apply emit_keeps | intro _ | split | dsimp only

theorem execTaintrdVector_keeps (f : MTaintRdV) {s : State} {t : State} (h : execTaintrdVector f s = .next t) : Keeps s t := by
  dsimp only [execTaintrdVector] at h
  cases h
  have h := Keeps.refl s
  repeat' first | with_reducible assumption | with_reducible apply emit_keeps | intro _ | split | dsimp only

theorem execTaintclrScalar_keeps (f : MTaintClrS) {s : State} {t : State} (h : execTaintclrScalar f s = .next t) : Keeps s t := by
  dsimp only [execTaintclrScalar] at h
  cases h
  have h := Keeps.refl s
  repeat' first | with_reducible assumption | with_reducible apply emit_keeps | intro _ | split | dsimp only

theorem execTaintclrVector_keeps (f : MTaintClrV) {s : State} {t : State} (h : execTaintclrVector f s = .next t) : Keeps s t := by
  dsimp only [execTaintclrVector] at h
  cases h
  have h := Keeps.refl s
  repeat' first | with_reducible assumption | with_reducible apply emit_keeps | intro _ | split | dsimp only

/-! ## Matrix -/

theorem modCall_keeps {s0 : State} {s : State} (cost : Nat) (f : Call → Call) (h : Keeps s0 s) : Keeps s0 (modCall s cost f) := by
  unfold modCall
  repeat' first
    | with_reducible assumption
    | with_reducible apply modCur_keeps
    | intro _
    | split
    | dsimp only
    | with_reducible apply Keeps.put

theorem callFault_keeps {s0 : State} {s : State} (h : Keeps s0 s) : Keeps s0 (callFault s) := by
  unfold callFault
  repeat' first
    | with_reducible assumption
    | with_reducible apply modCur_keeps
    | intro _
    | split
    | dsimp only
    | with_reducible apply Keeps.put

theorem execUend_keeps {s : State} {t : State} (h : execUend s = .next t) : Keeps s t := by
  dsimp only [execUend] at h
  cases h
  have h := Keeps.refl s
  repeat' first
    | with_reducible assumption
    | with_reducible apply modCall_keeps
    | intro _
    | split
    | dsimp only
    | with_reducible apply Keeps.put

theorem execUkstep_keeps (f : UKs) {s : State} {t : State} (h : execUkstep f s = .next t) : Keeps s t := by
  dsimp only [execUkstep] at h
  cases h
  have h := Keeps.refl s
  repeat' first
    | with_reducible assumption
    | with_reducible apply callFault_keeps
    | with_reducible apply modCall_keeps
    | with_reducible apply modCur_keeps
    | intro _
    | split
    | dsimp only
    | with_reducible apply Keeps.put

theorem execUaddi_keeps (f : UImm) {s : State} {t : State} (h : execUaddi f s = .next t) : Keeps s t := by
  dsimp only [execUaddi] at h
  cases h
  have h := Keeps.refl s
  repeat' first | with_reducible assumption | with_reducible apply modCall_keeps | intro _ | split | dsimp only

theorem execUadd_keeps (f : U3) {s : State} {t : State} (h : execUadd f s = .next t) : Keeps s t := by
  dsimp only [execUadd] at h
  cases h
  have h := Keeps.refl s
  repeat' first | with_reducible assumption | with_reducible apply modCall_keeps | intro _ | split | dsimp only

theorem execUmovi_keeps (f : UMoviF) {s : State} {t : State} (h : execUmovi f s = .next t) : Keeps s t := by
  dsimp only [execUmovi] at h
  cases h
  have h := Keeps.refl s
  repeat' first | with_reducible assumption | with_reducible apply modCall_keeps | intro _ | split | dsimp only

theorem execUloop_keeps (f : ULoopF) {s : State} {t : State} (h : execUloop f s = .next t) : Keeps s t := by
  dsimp only [execUloop] at h
  cases h
  have h := Keeps.refl s
  repeat' first
    | with_reducible assumption
    | with_reducible apply modCall_keeps
    | intro _
    | split
    | dsimp only
    | with_reducible apply Keeps.put

theorem runSpan_keeps {s0 : State} (keep : Bool) (f : U2) (g : Word → Word × Bool) {s : State} (h : Keeps s0 s) : Keeps s0 (runSpan keep f g s) := by
  unfold runSpan
  repeat' first
    | with_reducible assumption
    | with_reducible apply callFault_keeps
    | with_reducible apply modCall_keeps
    | with_reducible apply modCur_keeps
    | intro _
    | split
    | dsimp only
    | with_reducible apply Keeps.put

theorem execUnorm_keeps (f : U2) {s : State} {t : State} (h : execUnorm f s = .next t) : Keeps s t := by
  dsimp only [execUnorm] at h
  cases h
  have h := Keeps.refl s
  repeat' first | with_reducible assumption | with_reducible apply runSpan_keeps | intro _ | split | dsimp only

theorem execUzero_keeps (f : U2) {s : State} {t : State} (h : execUzero f s = .next t) : Keeps s t := by
  dsimp only [execUzero] at h
  cases h
  have h := Keeps.refl s
  repeat' first | with_reducible assumption | with_reducible apply runSpan_keeps | intro _ | split | dsimp only

theorem execMcall_keeps (f : MCallF) {s : State} {t : State} (h : execMcall f s = .next t) : Keeps s t := by
  dsimp only [execMcall] at h
  cases h
  have h := Keeps.refl s
  repeat' first | with_reducible assumption | with_reducible apply issueOp_keeps | with_reducible apply trapHere_keeps | intro _ | split | dsimp only

theorem execMlat_keeps (f : MLatF) {s : State} {t : State} (h : execMlat f s = .next t) : Keeps s t := by
  dsimp only [execMlat] at h
  cases h
  have h := Keeps.refl s
  repeat' first | with_reducible assumption | with_reducible apply issueOp_keeps | with_reducible apply orTrap_keeps | intro _ | split | dsimp only

theorem execMsetp_keeps (f : MSetpF) {s : State} {t : State} (h : execMsetp f s = .next t) : Keeps s t := by
  dsimp only [execMsetp] at h
  cases h
  have h := Keeps.refl s
  repeat' first | with_reducible assumption | with_reducible apply emit_keeps | intro _ | split | dsimp only

theorem execMparm_keeps (f : MParmF) {s : State} {t : State} (h : execMparm f s = .next t) : Keeps s t := by
  dsimp only [execMparm] at h
  cases h
  have h := Keeps.refl s
  repeat' first | with_reducible assumption | with_reducible apply emit_keeps | intro _ | split | dsimp only

theorem runAcc_keeps {s0 : State} (base : SOp) (imm : BitVec 24) (e : EngOp) {s : State} (h : Keeps s0 s) : Keeps s0 (runAcc base imm e s) := by
  unfold runAcc
  repeat' first | with_reducible assumption | with_reducible apply issueOp_keeps | with_reducible apply orTrap_keeps | intro _ | split | dsimp only

theorem execAccz_keeps (f : MAcc) {s : State} {t : State} (h : execAccz f s = .next t) : Keeps s t := by
  dsimp only [execAccz] at h
  cases h
  have h := Keeps.refl s
  repeat' first | with_reducible assumption | with_reducible apply runAcc_keeps | intro _ | split | dsimp only

theorem execNorm_keeps (f : MAcc) {s : State} {t : State} (h : execNorm f s = .next t) : Keeps s t := by
  dsimp only [execNorm] at h
  cases h
  have h := Keeps.refl s
  repeat' first | with_reducible assumption | with_reducible apply runAcc_keeps | intro _ | split | dsimp only

theorem execAccrd_keeps (f : MAccR) {s : State} {t : State} (h : execAccrd f s = .next t) : Keeps s t := by
  dsimp only [execAccrd] at h
  cases h
  have h := Keeps.refl s
  repeat' first | with_reducible assumption | with_reducible apply runAcc_keeps | intro _ | split | dsimp only

theorem execAccwr_keeps (f : MAccR) {s : State} {t : State} (h : execAccwr f s = .next t) : Keeps s t := by
  dsimp only [execAccwr] at h
  cases h
  have h := Keeps.refl s
  repeat' first | with_reducible assumption | with_reducible apply runAcc_keeps | intro _ | split | dsimp only

/-! ## EngineForms -/

theorem runDesc_keeps {s0 : State} (path : Nat) (k : Nat → AKind) (f : MDesc) {s : State} (h : Keeps s0 s) : Keeps s0 (runDesc path k f s) := by
  unfold runDesc
  repeat' first | with_reducible assumption | with_reducible apply issueOp_keeps | intro _ | split | dsimp only

theorem execNsend_keeps (f : MDesc) {s : State} {t : State} (h : execNsend f s = .next t) : Keeps s t := by
  dsimp only [execNsend] at h
  cases h
  have h := Keeps.refl s
  repeat' first | with_reducible assumption | with_reducible apply runDesc_keeps | intro _ | split | dsimp only

theorem execNrecv_keeps (f : MDesc) {s : State} {t : State} (h : execNrecv f s = .next t) : Keeps s t := by
  dsimp only [execNrecv] at h
  cases h
  have h := Keeps.refl s
  repeat' first | with_reducible assumption | with_reducible apply runDesc_keeps | intro _ | split | dsimp only

theorem execNcoll_keeps (f : MDesc) {s : State} {t : State} (h : execNcoll f s = .next t) : Keeps s t := by
  dsimp only [execNcoll] at h
  cases h
  have h := Keeps.refl s
  repeat' first | with_reducible assumption | with_reducible apply runDesc_keeps | intro _ | split | dsimp only

theorem execSelacc_keeps (f : MDesc) {s : State} {t : State} (h : execSelacc f s = .next t) : Keeps s t := by
  dsimp only [execSelacc] at h
  cases h
  have h := Keeps.refl s
  repeat' first | with_reducible assumption | with_reducible apply runDesc_keeps | intro _ | split | dsimp only

theorem execTithe_keeps (f : MDesc) {s : State} {t : State} (h : execTithe f s = .next t) : Keeps s t := by
  dsimp only [execTithe] at h
  cases h
  have h := Keeps.refl s
  repeat' first | with_reducible assumption | with_reducible apply runDesc_keeps | intro _ | split | dsimp only

theorem execTmap_keeps (f : MDesc) {s : State} {t : State} (h : execTmap f s = .next t) : Keeps s t := by
  dsimp only [execTmap] at h
  cases h
  have h := Keeps.refl s
  repeat' first | with_reducible assumption | with_reducible apply runDesc_keeps | intro _ | split | dsimp only

theorem execTclrd_keeps (f : MDesc) {s : State} {t : State} (h : execTclrd f s = .next t) : Keeps s t := by
  dsimp only [execTclrd] at h
  cases h
  have h := Keeps.refl s
  repeat' first | with_reducible assumption | with_reducible apply runDesc_keeps | intro _ | split | dsimp only

theorem execDraw_keeps (f : MPair) {s : State} {t : State} (h : execDraw f s = .next t) : Keeps s t := by
  dsimp only [execDraw] at h
  cases h
  have h := Keeps.refl s
  repeat' first | with_reducible assumption | with_reducible apply issueOp_keeps | intro _ | split | dsimp only

theorem runKv_keeps {s0 : State} (opc : Nat) (f : MPair) {s : State} (h : Keeps s0 s) : Keeps s0 (runKv opc f s) := by
  unfold runKv
  repeat' first | with_reducible assumption | with_reducible apply issueOp_keeps | intro _ | split | dsimp only

theorem execKvalloc_keeps (f : MPair) {s : State} {t : State} (h : execKvalloc f s = .next t) : Keeps s t := by
  dsimp only [execKvalloc] at h
  cases h
  have h := Keeps.refl s
  repeat' first | with_reducible assumption | with_reducible apply runKv_keeps | intro _ | split | dsimp only

theorem execKvfree_keeps (f : MPair) {s : State} {t : State} (h : execKvfree f s = .next t) : Keeps s t := by
  dsimp only [execKvfree] at h
  cases h
  have h := Keeps.refl s
  repeat' first | with_reducible assumption | with_reducible apply runKv_keeps | intro _ | split | dsimp only

theorem execKvcount_keeps (f : MKvcount) {s : State} {t : State} (h : execKvcount f s = .next t) : Keeps s t := by
  dsimp only [execKvcount] at h
  cases h
  have h := Keeps.refl s
  repeat' first | with_reducible assumption | with_reducible apply issueOp_keeps | intro _ | split | dsimp only

theorem execLaunch_keeps (f : MDesc) {s : State} {t : State} (h : execLaunch f s = .next t) : Keeps s t := by
  dsimp only [execLaunch] at h
  cases h
  have h := Keeps.refl s
  repeat' first | with_reducible assumption | with_reducible apply issueOp_keeps | with_reducible apply orTrap_keeps | intro _ | split | dsimp only

theorem execRelease_keeps (f : MRelease) {s : State} {t : State} (h : execRelease f s = .next t) : Keeps s t := by
  dsimp only [execRelease] at h
  cases h
  have h := Keeps.refl s
  repeat' first | with_reducible assumption | with_reducible apply issueOp_keeps | intro _ | split | dsimp only

end Sys2Proof.Machine
end

