-- ==== Sys2Proof/Laws/Ops.lean ====
section
/-! SUPPORT. Reading a core, sequencer, task or register byte after writing one, and everything that putting a result in flight can do. -/

namespace Sys2Proof.Machine

open Sys2Proof

/-! ## Tables of cores, sequencers and tasks -/

theorem coreGet_setCore (s : State) (c k : Nat) (x : Core) : coreGet (setCore s c x) k = if c = k then x else coreGet s k := Tbl.get_set _ _ _ _ _

theorem coreGet_modCore (s : State) (c k : Nat) (f : Core → Core) : coreGet (modCore s c f) k = if c = k then f (coreGet s c) else coreGet s k :=
  coreGet_setCore _ _ _ _

theorem seqOf_setSeq (s : State) (q k : Nat) (x : Seq) : seqOf (setSeq s q x) k = if q = k then x else seqOf s k := Tbl.get_set _ _ _ _ _

theorem seqOf_modSeq (s : State) (q k : Nat) (f : Seq → Seq) : seqOf (modSeq s q f) k = if q = k then f (seqOf s q) else seqOf s k :=
  seqOf_setSeq _ _ _ _

theorem taskOf_setTask (s : State) (t k : Nat) (x : Task) : taskOf (setTask s t x) k = if t = k then x else taskOf s k := Tbl.get_set _ _ _ _ _

theorem taskOf_modTask (s : State) (t k : Nat) (f : Task → Task) : taskOf (modTask s t f) k = if t = k then f (taskOf s t) else taskOf s k :=
  taskOf_setTask _ _ _ _

theorem memByte_modCore (s : State) (c a : Nat) (f : Core → Core) : memByte (modCore s c f) a = memByte s a := rfl
theorem pfByte_modCore (s : State) (c a : Nat) (f : Core → Core) : pfByte (modCore s c f) a = pfByte s a := rfl

/-! ## The core that executes -/

@[simp] theorem curId_modCore (s : State) (c : Nat) (f : Core → Core) : curId (modCore s c f) = curId s := rfl
@[simp] theorem curId_emit (s : State) (d : Nat) (k : LandKind) : curId (emit s d k) = curId s := rfl

theorem curCore_modCur (s : State) (f : Core → Core) : curCore (modCur s f) = f (curCore s) := by
  simp [curCore, modCur, coreGet_modCore]

/-- A guard is met on no parked bead (02 R19). -/
theorem guardMet_parked (c : Core) (g : Guard) (h : c.parked = true) : guardMet c g = false := by
  simp [guardMet, h]

/-! ## Results in flight -/

/-- Putting a result in flight adds one entry to the bead's own core and does nothing else. -/
theorem curCore_emit (s : State) (d : Nat) (k : LandKind) :
    curCore (emit s d k) = { curCore s with inflight := (curCore s).inflight ++ [⟨d, s.cur.slot, (curCore s).bundleNo, k⟩] } :=
  curCore_modCur _ _

theorem coreGet_emit_ne (s : State) (d c : Nat) (k : LandKind) (h : c ≠ curId s) : coreGet (emit s d k) c = coreGet s c := by
  simp [emit, modCur, coreGet_modCore, Ne.symm h]

/-! ## The L1 -/

theorem Tbl.length_erase_le {α : Type} (t : Tbl α) (k : Nat) : (Tbl.erase t k).length ≤ t.length := by
  induction t with
  | nil => simp [Tbl.erase]
  | cons e r ih => simp only [Tbl.erase]; split <;> simp <;> omega

theorem Tbl.length_insert {α : Type} (t : Tbl α) (k : Nat) (v : α) : (Tbl.insert t k v).length ≤ t.length + 1 := by
  induction t with
  | nil => simp [Tbl.insert]
  | cons e r ih => simp only [Tbl.insert]; split <;> simp <;> omega

/-- An L1 never holds more than its 2048 lines, copies and update-only lines together (11 R220). -/
theorem l1Fill_length (c : Core) (line : Nat) (l : BitVec 512) (h : c.l1.length + c.upd.length ≤ 2048) :
    (l1Fill c line l).l1.length + (l1Fill c line l).upd.length ≤ 2048 := by
  have h1 := Tbl.length_erase_le c.l1 line
  have h2 := Tbl.length_insert (Tbl.erase c.l1 line) line l
  unfold l1Fill
  dsimp only
  split <;> omega

/-! ## Interrupt vectors -/

/-- Raising a vector sends its message, or leaves a masked one pending (17 R340); nothing else changes. -/
theorem raiseMsix_open (s : State) (fn vec : Nat) (h : (fn, vec) ∉ s.plat.msixMask) : raiseMsix s fn vec = send s (if fn = 0 then .msixPf vec else .msixVf (fn - 1)) := by
  simp [raiseMsix, h]

theorem raiseMsix_masked (s : State) (fn vec : Nat) (h : (fn, vec) ∈ s.plat.msixMask) :
    raiseMsix s fn vec = { s with plat := { s.plat with msixPend := (fn, vec) :: s.plat.msixPend.filter (· ≠ (fn, vec)) } } := by
  simp [raiseMsix, h]

theorem raiseMsix_rest (s : State) (fn vec : Nat) : { raiseMsix s fn vec with plat := s.plat, out := s.out } = s := by
  unfold raiseMsix; split <;> rfl

theorem setMsixMask_masks (s : State) (fn vec : Nat) (on : Bool) (e : Nat × Nat) :
    e ∈ (setMsixMask s fn vec on).plat.msixMask ↔ if e = (fn, vec) then on = true else e ∈ s.plat.msixMask := by
  unfold setMsixMask raiseMsix
  cases on <;> by_cases h : e = (fn, vec) <;> simp [h] <;> (repeat' split) <;> simp_all [send]

end Sys2Proof.Machine

namespace Sys2Proof

open Machine

theorem Spec.OnlyInFlight.refl (s : State) : Spec.OnlyInFlight s s := ⟨rfl, fun _ _ => rfl, ⟨[], by simp⟩, fun _ => rfl⟩

theorem Spec.OnlyInFlight.curId_eq {s t : State} (h : Spec.OnlyInFlight s t) : curId t = curId s := by
  rw [← h.rest]; rfl

theorem Spec.OnlyInFlight.emit {s t : State} (h : Spec.OnlyInFlight s t) (d : Nat) (k : LandKind) : Spec.OnlyInFlight s (Machine.emit t d k) where
  rest := by rw [← h.rest]; rfl
  others c hc := by rw [← h.others c hc]; exact coreGet_emit_ne _ _ _ _ (by rwa [h.curId_eq])
  own := by
    obtain ⟨l, hl⟩ := h.own
    have := curCore_emit t d k
    simp only [curCore, curId_emit, h.curId_eq, hl] at this
    exact ⟨l ++ [⟨d, t.cur.slot, (coreGet s (curId s)).bundleNo, k⟩], this.trans (by rw [List.append_assoc])⟩
  memory a := by rw [← h.memory a]; rfl

theorem Spec.OnlyInFlight.emitVec {s t : State} (h : Spec.OnlyInFlight s t) (lat : Nat) (dst : VOp) (x : VWord) (tn lanes : LaneMask) (fl : Flags) :
    Spec.OnlyInFlight s (Machine.emitVec t lat dst x tn lanes fl) := by
  unfold Machine.emitVec
  dsimp only
  split
  · exact h.emit _ _
  · exact (h.emit _ _).emit _ _

end Sys2Proof
end

