-- ==== Sys2Proof/Laws/PerInstr.lean ====
section
/-! SUPPORT. The family Encode: every instruction's slot word decodes to the instruction, one lemma per constructor. A device event has no word. -/

set_option linter.unusedSimpArgs false

namespace Sys2Proof.Laws.Encode

open Sys2Proof

/-- The words that stand for a well-formed instruction decode to it. -/
def Statement (i : Instr) : Prop := ∀ k w, i.wf = true → encode i = some (k, w) → decode k w = .ok i

theorem of_word {i : Instr} (k : SlotKind) (w : Nat) (he : encode i = some (k, w)) (hd : i.wf = true → decode k w = .ok i) : Statement i := by
  intro k' w' hi h
  rw [he] at h
  cases h
  exact hd hi

/-- A device event. -/
theorem of_none {i : Instr} (he : encode i = none) : Statement i := fun _ _ _ h => by rw [he] at h; cases h

theorem of_scalar {i : Instr} (op n : Nat) (he : encode i = sw op n) (hn : n < 2^32) (ho : op < 2^8)
    (hd : i.wf = true → ∀ w, w = op * 2^32 + n → w / 2^32 = op → decodeScalarRaw w = .ok i) : Statement i :=
  of_word .scalar _ he fun h => decode_scalar _ _ (by omega) (hd h _ rfl (by omega)) h

theorem of_vector {i : Instr} (op n : Nat) (he : encode i = vw op n) (hn : n < 2^31) (ho : op < 2^6)
    (hd : i.wf = true → ∀ w, w = op * 2^31 + n → w / 2^31 = op → decodeVectorRaw w = .ok i) : Statement i :=
  of_word .vector _ he fun h => decode_vector _ _ (by omega) (hd h _ rfl (by omega)) h

theorem of_special {i : Instr} (op n : Nat) (he : encode i = fw op n) (hn : n < 2^26) (ho : op < 2^6)
    (hd : i.wf = true → ∀ w, w = op * 2^26 + n → w / 2^26 = op → decodeSpecialRaw w = .ok i) : Statement i :=
  of_word .special _ he fun h => decode_special _ _ (by omega) (hd h _ rfl (by omega)) h

theorem of_memory {i : Instr} (op n : Nat) (he : encode i = mw op n) (hn : n < 2^48) (ho : op < 2^8)
    (hd : i.wf = true → ∀ w, w = op * 2^48 + n → w / 2^48 = op → decodeMemoryRaw w = .ok i) : Statement i :=
  of_word .memory _ he fun h => decode_memory _ _ (by omega) (hd h _ rfl (by omega)) h

theorem of_micro {i : Instr} (op n : Nat) (he : encode i = uw op n) (hn : n < 2^58) (ho : op < 2^6)
    (hd : i.wf = true → ∀ w, w = op * 2^58 + n → w / 2^58 = op → decodeMicroRaw w = .ok i) : Statement i :=
  of_word .micro _ he fun h => decode_micro _ _ (by omega) (hd h _ rfl (by omega)) h

theorem nop : Statement .nop := of_word .scalar 0 rfl fun _ => rfl

theorem add (f : SR) : Statement (.add f) :=
  of_scalar 0x01 _ rfl (encSR_lt f) (by omega) fun _ w hw hq => by
    have hr : decodeScalarRaw w = decSR .add w := by unfold decodeScalarRaw; rw [hq]; rfl
    rw [hr, hw]
    exact decSR_enc .add _ f

theorem sub (f : SR) : Statement (.sub f) :=
  of_scalar 0x02 _ rfl (encSR_lt f) (by omega) fun _ w hw hq => by
    have hr : decodeScalarRaw w = decSR .sub w := by unfold decodeScalarRaw; rw [hq]; rfl
    rw [hr, hw]
    exact decSR_enc .sub _ f

theorem and (f : SR) : Statement (.and f) :=
  of_scalar 0x03 _ rfl (encSR_lt f) (by omega) fun _ w hw hq => by
    have hr : decodeScalarRaw w = decSR .and w := by unfold decodeScalarRaw; rw [hq]; rfl
    rw [hr, hw]
    exact decSR_enc .and _ f

theorem or (f : SR) : Statement (.or f) :=
  of_scalar 0x04 _ rfl (encSR_lt f) (by omega) fun _ w hw hq => by
    have hr : decodeScalarRaw w = decSR .or w := by unfold decodeScalarRaw; rw [hq]; rfl
    rw [hr, hw]
    exact decSR_enc .or _ f

theorem xor (f : SR) : Statement (.xor f) :=
  of_scalar 0x05 _ rfl (encSR_lt f) (by omega) fun _ w hw hq => by
    have hr : decodeScalarRaw w = decSR .xor w := by unfold decodeScalarRaw; rw [hq]; rfl
    rw [hr, hw]
    exact decSR_enc .xor _ f

theorem andn (f : SR) : Statement (.andn f) :=
  of_scalar 0x06 _ rfl (encSR_lt f) (by omega) fun _ w hw hq => by
    have hr : decodeScalarRaw w = decSR .andn w := by unfold decodeScalarRaw; rw [hq]; rfl
    rw [hr, hw]
    exact decSR_enc .andn _ f

theorem shl (f : SR) : Statement (.shl f) :=
  of_scalar 0x07 _ rfl (encSR_lt f) (by omega) fun _ w hw hq => by
    have hr : decodeScalarRaw w = decSR .shl w := by unfold decodeScalarRaw; rw [hq]; rfl
    rw [hr, hw]
    exact decSR_enc .shl _ f

theorem shr (f : SR) : Statement (.shr f) :=
  of_scalar 0x08 _ rfl (encSR_lt f) (by omega) fun _ w hw hq => by
    have hr : decodeScalarRaw w = decSR .shr w := by unfold decodeScalarRaw; rw [hq]; rfl
    rw [hr, hw]
    exact decSR_enc .shr _ f

theorem sar (f : SR) : Statement (.sar f) :=
  of_scalar 0x09 _ rfl (encSR_lt f) (by omega) fun _ w hw hq => by
    have hr : decodeScalarRaw w = decSR .sar w := by unfold decodeScalarRaw; rw [hq]; rfl
    rw [hr, hw]
    exact decSR_enc .sar _ f

theorem rol (f : SR) : Statement (.rol f) :=
  of_scalar 0x0A _ rfl (encSR_lt f) (by omega) fun _ w hw hq => by
    have hr : decodeScalarRaw w = decSR .rol w := by unfold decodeScalarRaw; rw [hq]; rfl
    rw [hr, hw]
    exact decSR_enc .rol _ f

theorem min (f : SR) : Statement (.min f) :=
  of_scalar 0x0B _ rfl (encSR_lt f) (by omega) fun _ w hw hq => by
    have hr : decodeScalarRaw w = decSR .min w := by unfold decodeScalarRaw; rw [hq]; rfl
    rw [hr, hw]
    exact decSR_enc .min _ f

theorem max (f : SR) : Statement (.max f) :=
  of_scalar 0x0C _ rfl (encSR_lt f) (by omega) fun _ w hw hq => by
    have hr : decodeScalarRaw w = decSR .max w := by unfold decodeScalarRaw; rw [hq]; rfl
    rw [hr, hw]
    exact decSR_enc .max _ f

theorem minu (f : SR) : Statement (.minu f) :=
  of_scalar 0x0D _ rfl (encSR_lt f) (by omega) fun _ w hw hq => by
    have hr : decodeScalarRaw w = decSR .minu w := by unfold decodeScalarRaw; rw [hq]; rfl
    rw [hr, hw]
    exact decSR_enc .minu _ f

theorem maxu (f : SR) : Statement (.maxu f) :=
  of_scalar 0x0E _ rfl (encSR_lt f) (by omega) fun _ w hw hq => by
    have hr : decodeScalarRaw w = decSR .maxu w := by unfold decodeScalarRaw; rw [hq]; rfl
    rw [hr, hw]
    exact decSR_enc .maxu _ f

theorem mul (f : SR) : Statement (.mul f) :=
  of_scalar 0x0F _ rfl (encSR_lt f) (by omega) fun _ w hw hq => by
    have hr : decodeScalarRaw w = decSR .mul w := by unfold decodeScalarRaw; rw [hq]; rfl
    rw [hr, hw]
    exact decSR_enc .mul _ f

theorem mulh (f : SR) : Statement (.mulh f) :=
  of_scalar 0x10 _ rfl (encSR_lt f) (by omega) fun _ w hw hq => by
    have hr : decodeScalarRaw w = decSR .mulh w := by unfold decodeScalarRaw; rw [hq]; rfl
    rw [hr, hw]
    exact decSR_enc .mulh _ f

theorem mulhu (f : SR) : Statement (.mulhu f) :=
  of_scalar 0x11 _ rfl (encSR_lt f) (by omega) fun _ w hw hq => by
    have hr : decodeScalarRaw w = decSR .mulhu w := by unfold decodeScalarRaw; rw [hq]; rfl
    rw [hr, hw]
    exact decSR_enc .mulhu _ f

theorem div (f : SR) : Statement (.div f) :=
  of_scalar 0x12 _ rfl (encSR_lt f) (by omega) fun _ w hw hq => by
    have hr : decodeScalarRaw w = decSR .div w := by unfold decodeScalarRaw; rw [hq]; rfl
    rw [hr, hw]
    exact decSR_enc .div _ f

theorem divu (f : SR) : Statement (.divu f) :=
  of_scalar 0x13 _ rfl (encSR_lt f) (by omega) fun _ w hw hq => by
    have hr : decodeScalarRaw w = decSR .divu w := by unfold decodeScalarRaw; rw [hq]; rfl
    rw [hr, hw]
    exact decSR_enc .divu _ f

theorem rem (f : SR) : Statement (.rem f) :=
  of_scalar 0x14 _ rfl (encSR_lt f) (by omega) fun _ w hw hq => by
    have hr : decodeScalarRaw w = decSR .rem w := by unfold decodeScalarRaw; rw [hq]; rfl
    rw [hr, hw]
    exact decSR_enc .rem _ f

theorem remu (f : SR) : Statement (.remu f) :=
  of_scalar 0x15 _ rfl (encSR_lt f) (by omega) fun _ w hw hq => by
    have hr : decodeScalarRaw w = decSR .remu w := by unfold decodeScalarRaw; rw [hq]; rfl
    rw [hr, hw]
    exact decSR_enc .remu _ f

theorem sel (f : SR) : Statement (.sel f) :=
  of_scalar 0x16 _ rfl (encSR_lt f) (by omega) fun _ w hw hq => by
    have hr : decodeScalarRaw w = decSR .sel w := by unfold decodeScalarRaw; rw [hq]; rfl
    rw [hr, hw]
    exact decSR_enc .sel _ f

theorem bfx (f : SBf) : Statement (.bfx f) :=
  of_scalar 0x18 _ rfl (encSBf_lt f) (by omega) fun _ w hw hq => by
    have hr : decodeScalarRaw w = decSBf .bfx w := by unfold decodeScalarRaw; rw [hq]; rfl
    rw [hr, hw]
    exact decSBf_enc .bfx _ f

theorem bfxu (f : SBf) : Statement (.bfxu f) :=
  of_scalar 0x19 _ rfl (encSBf_lt f) (by omega) fun _ w hw hq => by
    have hr : decodeScalarRaw w = decSBf .bfxu w := by unfold decodeScalarRaw; rw [hq]; rfl
    rw [hr, hw]
    exact decSBf_enc .bfxu _ f

theorem bfi (f : SBf) : Statement (.bfi f) :=
  of_scalar 0x1A _ rfl (encSBf_lt f) (by omega) fun _ w hw hq => by
    have hr : decodeScalarRaw w = decSBf .bfi w := by unfold decodeScalarRaw; rw [hq]; rfl
    rw [hr, hw]
    exact decSBf_enc .bfi _ f

theorem clz (f : SU) : Statement (.clz f) :=
  of_scalar 0x1B _ rfl (encSU_lt f) (by omega) fun _ w hw hq => by
    have hr : decodeScalarRaw w = decSU .clz w := by unfold decodeScalarRaw; rw [hq]; rfl
    rw [hr, hw]
    exact decSU_enc .clz _ f

theorem ctz (f : SU) : Statement (.ctz f) :=
  of_scalar 0x1C _ rfl (encSU_lt f) (by omega) fun _ w hw hq => by
    have hr : decodeScalarRaw w = decSU .ctz w := by unfold decodeScalarRaw; rw [hq]; rfl
    rw [hr, hw]
    exact decSU_enc .ctz _ f

theorem popc (f : SU) : Statement (.popc f) :=
  of_scalar 0x1D _ rfl (encSU_lt f) (by omega) fun _ w hw hq => by
    have hr : decodeScalarRaw w = decSU .popc w := by unfold decodeScalarRaw; rw [hq]; rfl
    rw [hr, hw]
    exact decSU_enc .popc _ f

theorem brev (f : SU) : Statement (.brev f) :=
  of_scalar 0x1E _ rfl (encSU_lt f) (by omega) fun _ w hw hq => by
    have hr : decodeScalarRaw w = decSU .brev w := by unfold decodeScalarRaw; rw [hq]; rfl
    rw [hr, hw]
    exact decSU_enc .brev _ f

theorem cmpeq (f : SP) : Statement (.cmpeq f) :=
  of_scalar 0x20 _ rfl (encSP_lt f) (by omega) fun _ w hw hq => by
    have hr : decodeScalarRaw w = decSP .cmpeq w := by unfold decodeScalarRaw; rw [hq]; rfl
    rw [hr, hw]
    exact decSP_enc .cmpeq _ f

theorem cmpne (f : SP) : Statement (.cmpne f) :=
  of_scalar 0x21 _ rfl (encSP_lt f) (by omega) fun _ w hw hq => by
    have hr : decodeScalarRaw w = decSP .cmpne w := by unfold decodeScalarRaw; rw [hq]; rfl
    rw [hr, hw]
    exact decSP_enc .cmpne _ f

theorem cmplt (f : SP) : Statement (.cmplt f) :=
  of_scalar 0x22 _ rfl (encSP_lt f) (by omega) fun _ w hw hq => by
    have hr : decodeScalarRaw w = decSP .cmplt w := by unfold decodeScalarRaw; rw [hq]; rfl
    rw [hr, hw]
    exact decSP_enc .cmplt _ f

theorem cmple (f : SP) : Statement (.cmple f) :=
  of_scalar 0x23 _ rfl (encSP_lt f) (by omega) fun _ w hw hq => by
    have hr : decodeScalarRaw w = decSP .cmple w := by unfold decodeScalarRaw; rw [hq]; rfl
    rw [hr, hw]
    exact decSP_enc .cmple _ f

theorem cmpltu (f : SP) : Statement (.cmpltu f) :=
  of_scalar 0x24 _ rfl (encSP_lt f) (by omega) fun _ w hw hq => by
    have hr : decodeScalarRaw w = decSP .cmpltu w := by unfold decodeScalarRaw; rw [hq]; rfl
    rw [hr, hw]
    exact decSP_enc .cmpltu _ f

theorem cmpleu (f : SP) : Statement (.cmpleu f) :=
  of_scalar 0x25 _ rfl (encSP_lt f) (by omega) fun _ w hw hq => by
    have hr : decodeScalarRaw w = decSP .cmpleu w := by unfold decodeScalarRaw; rw [hq]; rfl
    rw [hr, hw]
    exact decSP_enc .cmpleu _ f

theorem cmpeqi (f : SPI) : Statement (.cmpeqi f) :=
  of_scalar 0x30 _ rfl (encSPI_lt f) (by omega) fun _ w hw hq => by
    have hr : decodeScalarRaw w = decSPI .cmpeqi w := by unfold decodeScalarRaw; rw [hq]; rfl
    rw [hr, hw]
    exact decSPI_enc .cmpeqi _ f

theorem cmpnei (f : SPI) : Statement (.cmpnei f) :=
  of_scalar 0x31 _ rfl (encSPI_lt f) (by omega) fun _ w hw hq => by
    have hr : decodeScalarRaw w = decSPI .cmpnei w := by unfold decodeScalarRaw; rw [hq]; rfl
    rw [hr, hw]
    exact decSPI_enc .cmpnei _ f

theorem cmplti (f : SPI) : Statement (.cmplti f) :=
  of_scalar 0x32 _ rfl (encSPI_lt f) (by omega) fun _ w hw hq => by
    have hr : decodeScalarRaw w = decSPI .cmplti w := by unfold decodeScalarRaw; rw [hq]; rfl
    rw [hr, hw]
    exact decSPI_enc .cmplti _ f

theorem cmplei (f : SPI) : Statement (.cmplei f) :=
  of_scalar 0x33 _ rfl (encSPI_lt f) (by omega) fun _ w hw hq => by
    have hr : decodeScalarRaw w = decSPI .cmplei w := by unfold decodeScalarRaw; rw [hq]; rfl
    rw [hr, hw]
    exact decSPI_enc .cmplei _ f

theorem cmpltui (f : SPI) : Statement (.cmpltui f) :=
  of_scalar 0x34 _ rfl (encSPI_lt f) (by omega) fun _ w hw hq => by
    have hr : decodeScalarRaw w = decSPI .cmpltui w := by unfold decodeScalarRaw; rw [hq]; rfl
    rw [hr, hw]
    exact decSPI_enc .cmpltui _ f

theorem cmpleui (f : SPI) : Statement (.cmpleui f) :=
  of_scalar 0x35 _ rfl (encSPI_lt f) (by omega) fun _ w hw hq => by
    have hr : decodeScalarRaw w = decSPI .cmpleui w := by unfold decodeScalarRaw; rw [hq]; rfl
    rw [hr, hw]
    exact decSPI_enc .cmpleui _ f

theorem pand (f : SQ) : Statement (.pand f) :=
  of_scalar 0x26 _ rfl (encSQ_lt f) (by omega) fun _ w hw hq => by
    have hr : decodeScalarRaw w = decSQ .pand w := by unfold decodeScalarRaw; rw [hq]; rfl
    rw [hr, hw]
    exact decSQ_enc .pand _ f

theorem por (f : SQ) : Statement (.por f) :=
  of_scalar 0x27 _ rfl (encSQ_lt f) (by omega) fun _ w hw hq => by
    have hr : decodeScalarRaw w = decSQ .por w := by unfold decodeScalarRaw; rw [hq]; rfl
    rw [hr, hw]
    exact decSQ_enc .por _ f

theorem pxor (f : SQ) : Statement (.pxor f) :=
  of_scalar 0x28 _ rfl (encSQ_lt f) (by omega) fun _ w hw hq => by
    have hr : decodeScalarRaw w = decSQ .pxor w := by unfold decodeScalarRaw; rw [hq]; rfl
    rw [hr, hw]
    exact decSQ_enc .pxor _ f

theorem addi (f : SI) : Statement (.addi f) :=
  of_scalar 0x41 _ rfl (encSI_lt f) (by omega) fun _ w hw hq => by
    have hr : decodeScalarRaw w = decSI .addi w := by unfold decodeScalarRaw; rw [hq]; rfl
    rw [hr, hw]
    exact decSI_enc .addi _ f

theorem subi (f : SI) : Statement (.subi f) :=
  of_scalar 0x42 _ rfl (encSI_lt f) (by omega) fun _ w hw hq => by
    have hr : decodeScalarRaw w = decSI .subi w := by unfold decodeScalarRaw; rw [hq]; rfl
    rw [hr, hw]
    exact decSI_enc .subi _ f

theorem andi (f : SI) : Statement (.andi f) :=
  of_scalar 0x43 _ rfl (encSI_lt f) (by omega) fun _ w hw hq => by
    have hr : decodeScalarRaw w = decSI .andi w := by unfold decodeScalarRaw; rw [hq]; rfl
    rw [hr, hw]
    exact decSI_enc .andi _ f

theorem ori (f : SI) : Statement (.ori f) :=
  of_scalar 0x44 _ rfl (encSI_lt f) (by omega) fun _ w hw hq => by
    have hr : decodeScalarRaw w = decSI .ori w := by unfold decodeScalarRaw; rw [hq]; rfl
    rw [hr, hw]
    exact decSI_enc .ori _ f

theorem xori (f : SI) : Statement (.xori f) :=
  of_scalar 0x45 _ rfl (encSI_lt f) (by omega) fun _ w hw hq => by
    have hr : decodeScalarRaw w = decSI .xori w := by unfold decodeScalarRaw; rw [hq]; rfl
    rw [hr, hw]
    exact decSI_enc .xori _ f

theorem shli (f : SSh) : Statement (.shli f) :=
  of_scalar 0x47 _ rfl (encSSh_lt f) (by omega) fun _ w hw hq => by
    have hr : decodeScalarRaw w = decSSh .shli w := by unfold decodeScalarRaw; rw [hq]; rfl
    rw [hr, hw]
    exact decSSh_enc .shli _ f

theorem shri (f : SSh) : Statement (.shri f) :=
  of_scalar 0x48 _ rfl (encSSh_lt f) (by omega) fun _ w hw hq => by
    have hr : decodeScalarRaw w = decSSh .shri w := by unfold decodeScalarRaw; rw [hq]; rfl
    rw [hr, hw]
    exact decSSh_enc .shri _ f

theorem sari (f : SSh) : Statement (.sari f) :=
  of_scalar 0x49 _ rfl (encSSh_lt f) (by omega) fun _ w hw hq => by
    have hr : decodeScalarRaw w = decSSh .sari w := by unfold decodeScalarRaw; rw [hq]; rfl
    rw [hr, hw]
    exact decSSh_enc .sari _ f

theorem mini (f : SI) : Statement (.mini f) :=
  of_scalar 0x4B _ rfl (encSI_lt f) (by omega) fun _ w hw hq => by
    have hr : decodeScalarRaw w = decSI .mini w := by unfold decodeScalarRaw; rw [hq]; rfl
    rw [hr, hw]
    exact decSI_enc .mini _ f

theorem maxi (f : SI) : Statement (.maxi f) :=
  of_scalar 0x4C _ rfl (encSI_lt f) (by omega) fun _ w hw hq => by
    have hr : decodeScalarRaw w = decSI .maxi w := by unfold decodeScalarRaw; rw [hq]; rfl
    rw [hr, hw]
    exact decSI_enc .maxi _ f

theorem muli (f : SI) : Statement (.muli f) :=
  of_scalar 0x4F _ rfl (encSI_lt f) (by omega) fun _ w hw hq => by
    have hr : decodeScalarRaw w = decSI .muli w := by unfold decodeScalarRaw; rw [hq]; rfl
    rw [hr, hw]
    exact decSI_enc .muli _ f

theorem movi (f : SMovi) : Statement (.movi f) :=
  of_scalar 0x50 _ rfl (encSMovi_lt f) (by omega) fun _ w hw hq => by
    have hr : decodeScalarRaw w = decSMovi .movi w := by unfold decodeScalarRaw; rw [hq]; rfl
    rw [hr, hw]
    exact decSMovi_enc .movi _ f

theorem movk (f : SK) : Statement (.movk f) :=
  of_scalar 0x51 _ rfl (encSK_lt f) (by omega) fun _ w hw hq => by
    have hr : decodeScalarRaw w = decSK .movk w := by unfold decodeScalarRaw; rw [hq]; rfl
    rw [hr, hw]
    exact decSK_enc .movk _ f

theorem mfs (f : SMfs) : Statement (.mfs f) :=
  of_scalar 0x60 _ rfl (encSMfs_lt f) (by omega) fun _ w hw hq => by
    have hr : decodeScalarRaw w = decSMfs .mfs w := by unfold decodeScalarRaw; rw [hq]; rfl
    rw [hr, hw]
    exact decSMfs_enc .mfs _ f

theorem mts (f : SMts) : Statement (.mts f) :=
  of_scalar 0x61 _ rfl (encSMts_lt f) (by omega) fun _ w hw hq => by
    have hr : decodeScalarRaw w = decSMts .mts w := by unfold decodeScalarRaw; rw [hq]; rfl
    rw [hr, hw]
    exact decSMts_enc .mts _ f

theorem widf (f : SLevel) : Statement (.widf f) :=
  of_scalar 0x62 _ rfl (encSLevel_lt f) (by omega) fun _ w hw hq => by
    have hr : decodeScalarRaw w = decSLevel .widf w := by unfold decodeScalarRaw; rw [hq]; rfl
    rw [hr, hw]
    exact decSLevel_enc .widf _ f

theorem br (imm : BitVec 16) : Statement (.br imm) :=
  of_scalar 0x80 _ rfl (by have := imm.isLt; omega) (by omega) fun _ w hw hq => by
    have hr : decodeScalarRaw w = decBr w := by unfold decodeScalarRaw; rw [hq]; rfl
    rw [hr]
    have hi := imm.isLt
    have e : imm16 w = imm := BitVec.eq_of_toNat_eq (by simp only [imm16, BitVec.toNat_ofNat]; omega)
    simp only [decBr, e, need]
    (repeat rw [if_pos (by (try simp only [mflag1, mflag0, mflag1na, mflag0na, vj, only7, code03, jetOnly, dstOk, unguarded, Bool.and_eq_true, Bool.or_eq_true, beq_iff_eq, decide_eq_true_eq, Bool.not_eq_true', beq_eq_false_iff_ne, bne_iff_ne, ne_eq]); (try simp only [mdata, mimm, mbase, vcode, vdst, va, vb]); omega)])

theorem brany (f : CTest) : Statement (.brany f) :=
  of_scalar 0x81 _ rfl (encCTest_lt f) (by omega) fun _ w hw hq => by
    have hr : decodeScalarRaw w = decCTest .brany w := by unfold decodeScalarRaw; rw [hq]; rfl
    rw [hr, hw]
    exact decCTest_enc .brany _ f

theorem brall (f : CTest) : Statement (.brall f) :=
  of_scalar 0x82 _ rfl (encCTest_lt f) (by omega) fun _ w hw hq => by
    have hr : decodeScalarRaw w = decCTest .brall w := by unfold decodeScalarRaw; rw [hq]; rfl
    rw [hr, hw]
    exact decCTest_enc .brall _ f

theorem brgz (f : CGang) : Statement (.brgz f) :=
  of_scalar 0x83 _ rfl (encCGangA_lt f) (by omega) fun _ w hw hq => by
    have hr : decodeScalarRaw w = decCGangA .brgz w := by unfold decodeScalarRaw; rw [hq]; rfl
    rw [hr, hw]
    exact decCGangA_enc .brgz _ f

theorem brgnz (f : CGang) : Statement (.brgnz f) :=
  of_scalar 0x84 _ rfl (encCGangA_lt f) (by omega) fun _ w hw hq => by
    have hr : decodeScalarRaw w = decCGangA .brgnz w := by unfold decodeScalarRaw; rw [hq]; rfl
    rw [hr, hw]
    exact decCGangA_enc .brgnz _ f

theorem call (f : CGang) : Statement (.call f) :=
  of_scalar 0x85 _ rfl (encCGangD_lt f) (by omega) fun _ w hw hq => by
    have hr : decodeScalarRaw w = decCGangD .call w := by unfold decodeScalarRaw; rw [hq]; rfl
    rw [hr, hw]
    exact decCGangD_enc .call _ f

theorem ret (g : Fin 16) : Statement (.ret g) :=
  of_scalar 0x86 _ rfl (by have := g.isLt; omega) (by omega) fun _ w hw hq => by
    have hr : decodeScalarRaw w = decRet w := by unfold decodeScalarRaw; rw [hq]; rfl
    rw [hr]
    have hi := g.isLt
    have e : f4 w 16 = g := Fin.ext (by simp only [f4, Fin.val_ofNat]; omega)
    simp only [decRet, e, need]
    (repeat rw [if_pos (by (try simp only [mflag1, mflag0, mflag1na, mflag0na, vj, only7, code03, jetOnly, dstOk, unguarded, Bool.and_eq_true, Bool.or_eq_true, beq_iff_eq, decide_eq_true_eq, Bool.not_eq_true', beq_eq_false_iff_ne, bne_iff_ne, ne_eq]); (try simp only [mdata, mimm, mbase, vcode, vdst, va, vb]); omega)])

theorem loop (f : CLoop) : Statement (.loop f) :=
  of_scalar 0x88 _ rfl (encCLoop_lt f) (by omega) fun _ w hw hq => by
    have hr : decodeScalarRaw w = decCLoop .loop w := by unfold decodeScalarRaw; rw [hq]; rfl
    rw [hr, hw]
    exact decCLoop_enc .loop _ f

theorem loopi (f : CLoopI) : Statement (.loopi f) :=
  of_scalar 0x89 _ rfl (encCLoopI_lt f) (by omega) fun _ w hw hq => by
    have hr : decodeScalarRaw w = decCLoopI .loopi w := by unfold decodeScalarRaw; rw [hq]; rfl
    rw [hr, hw]
    exact decCLoopI_enc .loopi _ f

theorem lbrk (g : Guard) : Statement (.lbrk g) :=
  of_scalar 0x8A _ rfl (by obtain ⟨n, hn, hg⟩ := encGuard_form g; rw [hg]; omega) (by omega) fun _ w hw hq => by
    have hr : decodeScalarRaw w = decLbrk w := by unfold decodeScalarRaw; rw [hq]; rfl
    rw [hr]
    obtain ⟨n, hn, hg⟩ := encGuard_form g
    rw [hg] at hw
    have e : decGuard w = g := decGuard_of g w n hg (by omega)
    simp only [decLbrk, e, need]
    (repeat rw [if_pos (by (try simp only [mflag1, mflag0, mflag1na, mflag0na, vj, only7, code03, jetOnly, dstOk, unguarded, Bool.and_eq_true, Bool.or_eq_true, beq_iff_eq, decide_eq_true_eq, Bool.not_eq_true', beq_eq_false_iff_ne, bne_iff_ne, ne_eq]); (try simp only [mdata, mimm, mbase, vcode, vdst, va, vb]); omega)])

theorem lidx (f : CLidx) : Statement (.lidx f) :=
  of_scalar 0x8B _ rfl (encCLidx_lt f) (by omega) fun _ w hw hq => by
    have hr : decodeScalarRaw w = decCLidx .lidx w := by unfold decodeScalarRaw; rw [hq]; rfl
    rw [hr, hw]
    exact decCLidx_enc .lidx _ f

theorem wait (f : CWait) : Statement (.wait f) :=
  of_scalar 0x8C _ rfl (encCWait_lt f) (by omega) fun _ w hw hq => by
    have hr : decodeScalarRaw w = decCWait .wait w := by unfold decodeScalarRaw; rw [hq]; rfl
    rw [hr, hw]
    exact decCWait_enc .wait _ f

theorem schsel : Statement .schsel := of_word .scalar _ rfl fun _ => rfl

theorem endK : Statement .endK := of_word .scalar _ rfl fun _ => rfl

theorem trap (f : CT) : Statement (.trap f) :=
  of_scalar 0x90 _ rfl (encCT_lt f) (by omega) fun _ w hw hq => by
    have hr : decodeScalarRaw w = decCT .trap w := by unfold decodeScalarRaw; rw [hq]; rfl
    rw [hr, hw]
    exact decCT_enc .trap _ f

theorem brk (g : Guard) : Statement (.brk g) :=
  of_scalar 0x91 _ rfl (by obtain ⟨n, hn, hg⟩ := encGuard_form g; rw [hg]; omega) (by omega) fun _ w hw hq => by
    have hr : decodeScalarRaw w = decBrk w := by unfold decodeScalarRaw; rw [hq]; rfl
    rw [hr]
    obtain ⟨n, hn, hg⟩ := encGuard_form g
    rw [hg] at hw
    have e : decGuard w = g := decGuard_of g w n hg (by omega)
    simp only [decBrk, e, need]
    (repeat rw [if_pos (by (try simp only [mflag1, mflag0, mflag1na, mflag0na, vj, only7, code03, jetOnly, dstOk, unguarded, Bool.and_eq_true, Bool.or_eq_true, beq_iff_eq, decide_eq_true_eq, Bool.not_eq_true', beq_eq_false_iff_ne, bne_iff_ne, ne_eq]); (try simp only [mdata, mimm, mbase, vcode, vdst, va, vb]); omega)])

theorem svc (f : CT) : Statement (.svc f) :=
  of_scalar 0x92 _ rfl (encCT_lt f) (by omega) fun _ w hw hq => by
    have hr : decodeScalarRaw w = decCT .svc w := by unfold decodeScalarRaw; rw [hq]; rfl
    rw [hr, hw]
    exact decCT_enc .svc _ f

theorem savem (f : CSavem) : Statement (.savem f) :=
  of_scalar 0x93 _ rfl (encCSavem_lt f) (by omega) fun _ w hw hq => by
    have hr : decodeScalarRaw w = decCSavem .savem w := by unfold decodeScalarRaw; rw [hq]; rfl
    rw [hr, hw]
    exact decCSavem_enc .savem _ f

theorem slack (f : CSlack) : Statement (.slack f) :=
  of_scalar 0x94 _ rfl (encCSlack_lt f) (by omega) fun _ w hw hq => by
    have hr : decodeScalarRaw w = decCSlack .slack w := by unfold decodeScalarRaw; rw [hq]; rfl
    rw [hr, hw]
    exact decCSlack_enc .slack _ f

theorem vadd (f : VB) : Statement (.vadd f) :=
  of_vector 0x01 _ rfl (encVB_lt f) (by omega) fun _ w hw hq => by
    have hr : decodeVectorRaw w = decVB .vadd w := by unfold decodeVectorRaw; rw [hq]; rfl
    rw [hr, hw]
    exact decVB_enc .vadd _ f

theorem vsub (f : VB) : Statement (.vsub f) :=
  of_vector 0x02 _ rfl (encVB_lt f) (by omega) fun _ w hw hq => by
    have hr : decodeVectorRaw w = decVB .vsub w := by unfold decodeVectorRaw; rw [hq]; rfl
    rw [hr, hw]
    exact decVB_enc .vsub _ f

theorem vmul (f : VB) : Statement (.vmul f) :=
  of_vector 0x03 _ rfl (encVB_lt f) (by omega) fun _ w hw hq => by
    have hr : decodeVectorRaw w = decVB .vmul w := by unfold decodeVectorRaw; rw [hq]; rfl
    rw [hr, hw]
    exact decVB_enc .vmul _ f

theorem vfma (f : VB) : Statement (.vfma f) :=
  of_vector 0x04 _ rfl (encVB_lt f) (by omega) fun _ w hw hq => by
    have hr : decodeVectorRaw w = decVB .vfma w := by unfold decodeVectorRaw; rw [hq]; rfl
    rw [hr, hw]
    exact decVB_enc .vfma _ f

theorem vfnma (f : VB) : Statement (.vfnma f) :=
  of_vector 0x05 _ rfl (encVB_lt f) (by omega) fun _ w hw hq => by
    have hr : decodeVectorRaw w = decVB .vfnma w := by unfold decodeVectorRaw; rw [hq]; rfl
    rw [hr, hw]
    exact decVB_enc .vfnma _ f

theorem vmin (f : VB) : Statement (.vmin f) :=
  of_vector 0x06 _ rfl (encVB_lt f) (by omega) fun _ w hw hq => by
    have hr : decodeVectorRaw w = decVB .vmin w := by unfold decodeVectorRaw; rw [hq]; rfl
    rw [hr, hw]
    exact decVB_enc .vmin _ f

theorem vmax (f : VB) : Statement (.vmax f) :=
  of_vector 0x07 _ rfl (encVB_lt f) (by omega) fun _ w hw hq => by
    have hr : decodeVectorRaw w = decVB .vmax w := by unfold decodeVectorRaw; rw [hq]; rfl
    rw [hr, hw]
    exact decVB_enc .vmax _ f

theorem vabs (f : VU) : Statement (.vabs f) :=
  of_vector 0x08 _ rfl (encVU_lt f) (by omega) fun _ w hw hq => by
    have hr : decodeVectorRaw w = decVU .vabs w := by unfold decodeVectorRaw; rw [hq]; rfl
    rw [hr, hw]
    exact decVU_enc .vabs _ f

theorem vneg (f : VU) : Statement (.vneg f) :=
  of_vector 0x09 _ rfl (encVU_lt f) (by omega) fun _ w hw hq => by
    have hr : decodeVectorRaw w = decVU .vneg w := by unfold decodeVectorRaw; rw [hq]; rfl
    rw [hr, hw]
    exact decVU_enc .vneg _ f

theorem vcmpeq (f : VCmp) : Statement (.vcmpeq f) :=
  of_vector 0x0A _ rfl (encVCmp_lt f) (by omega) fun _ w hw hq => by
    have hr : decodeVectorRaw w = decVCmp .vcmpeq w := by unfold decodeVectorRaw; rw [hq]; rfl
    rw [hr, hw]
    exact decVCmp_enc .vcmpeq _ f

theorem vcmpne (f : VCmp) : Statement (.vcmpne f) :=
  of_vector 0x0B _ rfl (encVCmp_lt f) (by omega) fun _ w hw hq => by
    have hr : decodeVectorRaw w = decVCmp .vcmpne w := by unfold decodeVectorRaw; rw [hq]; rfl
    rw [hr, hw]
    exact decVCmp_enc .vcmpne _ f

theorem vcmplt (f : VCmp) : Statement (.vcmplt f) :=
  of_vector 0x0C _ rfl (encVCmp_lt f) (by omega) fun _ w hw hq => by
    have hr : decodeVectorRaw w = decVCmp .vcmplt w := by unfold decodeVectorRaw; rw [hq]; rfl
    rw [hr, hw]
    exact decVCmp_enc .vcmplt _ f

theorem vcmple (f : VCmp) : Statement (.vcmple f) :=
  of_vector 0x0D _ rfl (encVCmp_lt f) (by omega) fun _ w hw hq => by
    have hr : decodeVectorRaw w = decVCmp .vcmple w := by unfold decodeVectorRaw; rw [hq]; rfl
    rw [hr, hw]
    exact decVCmp_enc .vcmple _ f

theorem vsel (f : VB) : Statement (.vsel f) :=
  of_vector 0x0E _ rfl (encVB_lt f) (by omega) fun _ w hw hq => by
    have hr : decodeVectorRaw w = decVB .vsel w := by unfold decodeVectorRaw; rw [hq]; rfl
    rw [hr, hw]
    exact decVB_enc .vsel _ f

theorem vmov (f : VU) : Statement (.vmov f) :=
  of_vector 0x0F _ rfl (encVU_lt f) (by omega) fun _ w hw hq => by
    have hr : decodeVectorRaw w = decVU .vmov w := by unfold decodeVectorRaw; rw [hq]; rfl
    rw [hr, hw]
    exact decVU_enc .vmov _ f

theorem vlogic (f : VLogicF) : Statement (.vlogic f) :=
  of_vector 0x10 _ rfl (encVLogicF_lt f) (by omega) fun _ w hw hq => by
    have hr : decodeVectorRaw w = decVLogicF .vlogic w := by unfold decodeVectorRaw; rw [hq]; rfl
    rw [hr, hw]
    exact decVLogicF_enc .vlogic _ f

theorem vshl (f : VB) : Statement (.vshl f) :=
  of_vector 0x11 _ rfl (encVB_lt f) (by omega) fun _ w hw hq => by
    have hr : decodeVectorRaw w = decVB .vshl w := by unfold decodeVectorRaw; rw [hq]; rfl
    rw [hr, hw]
    exact decVB_enc .vshl _ f

theorem vshr (f : VB) : Statement (.vshr f) :=
  of_vector 0x12 _ rfl (encVB_lt f) (by omega) fun _ w hw hq => by
    have hr : decodeVectorRaw w = decVB .vshr w := by unfold decodeVectorRaw; rw [hq]; rfl
    rw [hr, hw]
    exact decVB_enc .vshr _ f

theorem vsar (f : VB) : Statement (.vsar f) :=
  of_vector 0x13 _ rfl (encVB_lt f) (by omega) fun _ w hw hq => by
    have hr : decodeVectorRaw w = decVB .vsar w := by unfold decodeVectorRaw; rw [hq]; rfl
    rw [hr, hw]
    exact decVB_enc .vsar _ f

theorem vcvt (f : VCvtF) : Statement (.vcvt f) :=
  of_vector 0x14 _ rfl (encVCvtF_lt f) (by omega) fun _ w hw hq => by
    have hr : decodeVectorRaw w = decVCvtF .vcvt w := by unfold decodeVectorRaw; rw [hq]; rfl
    rw [hr, hw]
    exact decVCvtF_enc .vcvt _ f

theorem vcvtn (f : VNarrowF) : Statement (.vcvtn f) :=
  of_vector 0x15 _ rfl (encVNarrowF_lt f) (by omega) fun _ w hw hq => by
    have hr : decodeVectorRaw w = decVNarrowF .vcvtn w := by unfold decodeVectorRaw; rw [hq]; rfl
    rw [hr, hw]
    exact decVNarrowF_enc .vcvtn _ f

theorem vcvtw (f : VNarrowF) : Statement (.vcvtw f) :=
  of_vector 0x16 _ rfl (encVNarrowF_lt f) (by omega) fun _ w hw hq => by
    have hr : decodeVectorRaw w = decVNarrowF .vcvtw w := by unfold decodeVectorRaw; rw [hq]; rfl
    rw [hr, hw]
    exact decVNarrowF_enc .vcvtw _ f

theorem vpack (f : VPackF) : Statement (.vpack f) :=
  of_vector 0x17 _ rfl (encVPackF_lt f) (by omega) fun _ w hw hq => by
    have hr : decodeVectorRaw w = decVPackF .vpack w := by unfold decodeVectorRaw; rw [hq]; rfl
    rw [hr, hw]
    exact decVPackF_enc .vpack _ f

theorem vunpkl (f : VUnpkF) : Statement (.vunpkl f) :=
  of_vector 0x18 _ rfl (encVUnpkF_lt f) (by omega) fun _ w hw hq => by
    have hr : decodeVectorRaw w = decVUnpkF .vunpkl w := by unfold decodeVectorRaw; rw [hq]; rfl
    rw [hr, hw]
    exact decVUnpkF_enc .vunpkl _ f

theorem vunpkh (f : VUnpkF) : Statement (.vunpkh f) :=
  of_vector 0x19 _ rfl (encVUnpkF_lt f) (by omega) fun _ w hw hq => by
    have hr : decodeVectorRaw w = decVUnpkF .vunpkh w := by unfold decodeVectorRaw; rw [hq]; rfl
    rw [hr, hw]
    exact decVUnpkF_enc .vunpkh _ f

theorem vbcst (f : VBcstF) : Statement (.vbcst f) :=
  of_vector 0x1A _ rfl (encVBcstF_lt f) (by omega) fun _ w hw hq => by
    have hr : decodeVectorRaw w = decVBcstF .vbcst w := by unfold decodeVectorRaw; rw [hq]; rfl
    rw [hr, hw]
    exact decVBcstF_enc .vbcst _ f

theorem vext (f : VExtF) : Statement (.vext f) :=
  of_vector 0x1B _ rfl (encVExtF_lt f) (by omega) fun _ w hw hq => by
    have hr : decodeVectorRaw w = decVExtF .vext w := by unfold decodeVectorRaw; rw [hq]; rfl
    rw [hr, hw]
    exact decVExtF_enc .vext _ f

theorem vins (f : VInsF) : Statement (.vins f) :=
  of_vector 0x1C _ rfl (encVInsF_lt f) (by omega) fun _ w hw hq => by
    have hr : decodeVectorRaw w = decVInsF .vins w := by unfold decodeVectorRaw; rw [hq]; rfl
    rw [hr, hw]
    exact decVInsF_enc .vins _ f

theorem vperm (f : VPermF) : Statement (.vperm f) :=
  of_vector 0x1D _ rfl (encVPermF_lt f) (by omega) fun _ w hw hq => by
    have hr : decodeVectorRaw w = decVPermF .vperm w := by unfold decodeVectorRaw; rw [hq]; rfl
    rw [hr, hw]
    exact decVPermF_enc .vperm _ f

theorem vxcopy (f : VPermF) : Statement (.vxcopy f) :=
  of_vector 0x1E _ rfl (encVPermF_lt f) (by omega) fun _ w hw hq => by
    have hr : decodeVectorRaw w = decVPermF .vxcopy w := by unfold decodeVectorRaw; rw [hq]; rfl
    rw [hr, hw]
    exact decVPermF_enc .vxcopy _ f

theorem vred (f : VRedF) : Statement (.vred f) :=
  of_vector 0x1F _ rfl (encVRedF_lt f) (by omega) fun _ w hw hq => by
    have hr : decodeVectorRaw w = decVRedF .vred w := by unfold decodeVectorRaw; rw [hq]; rfl
    rw [hr, hw]
    exact decVRedF_enc .vred _ f

theorem vxred (f : VRedF) : Statement (.vxred f) :=
  of_vector 0x20 _ rfl (encVRedF_lt f) (by omega) fun _ w hw hq => by
    have hr : decodeVectorRaw w = decVRedF .vxred w := by unfold decodeVectorRaw; rw [hq]; rfl
    rw [hr, hw]
    exact decVRedF_enc .vxred _ f

theorem vscan (f : VRedF) : Statement (.vscan f) :=
  of_vector 0x21 _ rfl (encVRedF_lt f) (by omega) fun _ w hw hq => by
    have hr : decodeVectorRaw w = decVRedF .vscan w := by unfold decodeVectorRaw; rw [hq]; rfl
    rw [hr, hw]
    exact decVRedF_enc .vscan _ f

theorem vhist (f : VHistF) : Statement (.vhist f) :=
  of_vector 0x22 _ rfl (encVHistF_lt f) (by omega) fun _ w hw hq => by
    have hr : decodeVectorRaw w = decVHistF .vhist w := by unfold decodeVectorRaw; rw [hq]; rfl
    rw [hr, hw]
    exact decVHistF_enc .vhist _ f

theorem vbmrg (f : VBmrgF) : Statement (.vbmrg f) :=
  of_vector 0x23 _ rfl (encVBmrgF_lt f) (by omega) fun _ w hw hq => by
    have hr : decodeVectorRaw w = decVBmrgF .vbmrg w := by unfold decodeVectorRaw; rw [hq]; rfl
    rw [hr, hw]
    exact decVBmrgF_enc .vbmrg _ f

theorem vbcx (f : VBcxF) : Statement (.vbcx f) :=
  of_vector 0x24 _ rfl (encVBcxF_lt f) (by omega) fun h w hw hq => by
    have hr : decodeVectorRaw w = decVBcxF .vbcx w := by unfold decodeVectorRaw; rw [hq]; rfl
    rw [hr, hw]
    exact decVBcxF_enc .vbcx _ f (by simp only [Instr.wf, Bool.and_eq_true, decide_eq_true_eq] at h; omega)

theorem vbcxx (f : VBcxF) : Statement (.vbcxx f) :=
  of_vector 0x25 _ rfl (encVBcxF_lt f) (by omega) fun h w hw hq => by
    have hr : decodeVectorRaw w = decVBcxF .vbcxx w := by unfold decodeVectorRaw; rw [hq]; rfl
    rw [hr, hw]
    exact decVBcxF_enc .vbcxx _ f (by simp only [Instr.wf, Bool.and_eq_true, decide_eq_true_eq] at h; omega)

theorem vargmax (f : VArgF) : Statement (.vargmax f) :=
  of_vector 0x26 _ rfl (encVArgF_lt f) (by omega) fun _ w hw hq => by
    have hr : decodeVectorRaw w = decVArgF .vargmax w := by unfold decodeVectorRaw; rw [hq]; rfl
    rw [hr, hw]
    exact decVArgF_enc .vargmax _ f

theorem vclamp (f : VB) : Statement (.vclamp f) :=
  of_vector 0x27 _ rfl (encVB_lt f) (by omega) fun _ w hw hq => by
    have hr : decodeVectorRaw w = decVB .vclamp w := by unfold decodeVectorRaw; rw [hq]; rfl
    rw [hr, hw]
    exact decVB_enc .vclamp _ f

theorem jseed (f : JBin) : Statement (.jseed f) :=
  of_vector 0x30 _ rfl (encJBin_lt f) (by omega) fun _ w hw hq => by
    have hr : decodeVectorRaw w = decJBin .jseed w := by unfold decodeVectorRaw; rw [hq]; rfl
    rw [hr, hw]
    exact decJBin_enc .jseed _ f

theorem jconst (f : JUn) : Statement (.jconst f) :=
  of_vector 0x31 _ rfl (encJUn_lt f) (by omega) fun _ w hw hq => by
    have hr : decodeVectorRaw w = decJUn .jconst w := by unfold decodeVectorRaw; rw [hq]; rfl
    rw [hr, hw]
    exact decJUn_enc .jconst _ f

theorem jget (f : JIdx) : Statement (.jget f) :=
  of_vector 0x32 _ rfl (encJIdx_lt f) (by omega) fun _ w hw hq => by
    have hr : decodeVectorRaw w = decJIdx .jget w := by unfold decodeVectorRaw; rw [hq]; rfl
    rw [hr, hw]
    exact decJIdx_enc .jget _ f

theorem jput (f : JIdx) : Statement (.jput f) :=
  of_vector 0x33 _ rfl (encJIdx_lt f) (by omega) fun _ w hw hq => by
    have hr : decodeVectorRaw w = decJIdx .jput w := by unfold decodeVectorRaw; rw [hq]; rfl
    rw [hr, hw]
    exact decJIdx_enc .jput _ f

theorem jder (f : JDerF) : Statement (.jder f) :=
  of_vector 0x34 _ rfl (encJDerF_lt f) (by omega) fun _ w hw hq => by
    have hr : decodeVectorRaw w = decJDerF .jder w := by unfold decodeVectorRaw; rw [hq]; rfl
    rw [hr, hw]
    exact decJDerF_enc .jder _ f

theorem jshift (f : JShiftF) : Statement (.jshift f) :=
  of_vector 0x35 _ rfl (encJShiftF_lt f) (by omega) fun _ w hw hq => by
    have hr : decodeVectorRaw w = decJShiftF .jshift w := by unfold decodeVectorRaw; rw [hq]; rfl
    rw [hr, hw]
    exact decJShiftF_enc .jshift _ f

theorem jscale (f : JBin) : Statement (.jscale f) :=
  of_vector 0x36 _ rfl (encJBin_lt f) (by omega) fun _ w hw hq => by
    have hr : decodeVectorRaw w = decJBin .jscale w := by unfold decodeVectorRaw; rw [hq]; rfl
    rw [hr, hw]
    exact decJBin_enc .jscale _ f

theorem jdiv (f : JBin) : Statement (.jdiv f) :=
  of_vector 0x37 _ rfl (encJBin_lt f) (by omega) fun _ w hw hq => by
    have hr : decodeVectorRaw w = decJBin .jdiv w := by unfold decodeVectorRaw; rw [hq]; rfl
    rw [hr, hw]
    exact decJBin_enc .jdiv _ f

theorem jpowi (f : JPowF) : Statement (.jpowi f) :=
  of_vector 0x38 _ rfl (encJPowF_lt f) (by omega) fun _ w hw hq => by
    have hr : decodeVectorRaw w = decJPowF .jpowi w := by unfold decodeVectorRaw; rw [hq]; rfl
    rw [hr, hw]
    exact decJPowF_enc .jpowi _ f

theorem jflagClear (a : SOp) : Statement (.jflagClear a) :=
  of_vector 0x39 _ rfl (by have := encSOp_lt a; omega) (by omega) fun _ w hw hq => by
    have hr : decodeVectorRaw w = decJflag w := by unfold decodeVectorRaw; rw [hq]; rfl
    rw [hr]
    have ha := encSOp_lt a
    have e : decSOp (va w) = a := decSOp_of a _ (by simp only [va]; omega)
    have e2 : vcode w = 0 := by simp only [vcode]; omega
    simp only [decJflag, e, e2, need]
    (repeat rw [if_pos (by (try simp only [mflag1, mflag0, mflag1na, mflag0na, vj, only7, code03, jetOnly, dstOk, unguarded, Bool.and_eq_true, Bool.or_eq_true, beq_iff_eq, decide_eq_true_eq, Bool.not_eq_true', beq_eq_false_iff_ne, bne_iff_ne, ne_eq]); (try simp only [mdata, mimm, mbase, vcode, vdst, va, vb]); omega)])

theorem jflagGet (d : Fin 232) : Statement (.jflagGet d) :=
  of_vector 0x39 _ rfl (by have := d.isLt; omega) (by omega) fun _ w hw hq => by
    have hr : decodeVectorRaw w = decJflag w := by unfold decodeVectorRaw; rw [hq]; rfl
    rw [hr]
    have hd := d.isLt
    have e : vdst w % 256 = d.val := by simp only [vdst]; omega
    have e2 : vcode w = 1 := by simp only [vcode]; omega
    simp only [decJflag, decWin, e, e2, need, Fin.is_lt, dite_true, Fin.eta]
    (repeat rw [if_pos (by (try simp only [mflag1, mflag0, mflag1na, mflag0na, vj, only7, code03, jetOnly, dstOk, unguarded, Bool.and_eq_true, Bool.or_eq_true, beq_iff_eq, decide_eq_true_eq, Bool.not_eq_true', beq_eq_false_iff_ne, bne_iff_ne, ne_eq]); (try simp only [mdata, mimm, mbase, vcode, vdst, va, vb]); omega)])

theorem fnop : Statement .fnop := of_word .special 0 rfl fun _ => rfl

theorem rcp (f : FForm) : Statement (.rcp f) :=
  of_special 0x01 _ rfl (encFForm_lt f) (by omega) fun _ w hw hq => by
    have hr : decodeSpecialRaw w = decFForm .rcp w := by unfold decodeSpecialRaw; rw [hq]; rfl
    rw [hr, hw]
    exact decFForm_enc .rcp _ f

theorem rsq (f : FForm) : Statement (.rsq f) :=
  of_special 0x02 _ rfl (encFForm_lt f) (by omega) fun _ w hw hq => by
    have hr : decodeSpecialRaw w = decFForm .rsq w := by unfold decodeSpecialRaw; rw [hq]; rfl
    rw [hr, hw]
    exact decFForm_enc .rsq _ f

theorem sqrt (f : FForm) : Statement (.sqrt f) :=
  of_special 0x03 _ rfl (encFForm_lt f) (by omega) fun _ w hw hq => by
    have hr : decodeSpecialRaw w = decFForm .sqrt w := by unfold decodeSpecialRaw; rw [hq]; rfl
    rw [hr, hw]
    exact decFForm_enc .sqrt _ f

theorem exp2 (f : FForm) : Statement (.exp2 f) :=
  of_special 0x04 _ rfl (encFForm_lt f) (by omega) fun _ w hw hq => by
    have hr : decodeSpecialRaw w = decFForm .exp2 w := by unfold decodeSpecialRaw; rw [hq]; rfl
    rw [hr, hw]
    exact decFForm_enc .exp2 _ f

theorem log2 (f : FForm) : Statement (.log2 f) :=
  of_special 0x05 _ rfl (encFForm_lt f) (by omega) fun _ w hw hq => by
    have hr : decodeSpecialRaw w = decFForm .log2 w := by unfold decodeSpecialRaw; rw [hq]; rfl
    rw [hr, hw]
    exact decFForm_enc .log2 _ f

theorem exp (f : FForm) : Statement (.exp f) :=
  of_special 0x06 _ rfl (encFForm_lt f) (by omega) fun _ w hw hq => by
    have hr : decodeSpecialRaw w = decFForm .exp w := by unfold decodeSpecialRaw; rw [hq]; rfl
    rw [hr, hw]
    exact decFForm_enc .exp _ f

theorem log (f : FForm) : Statement (.log f) :=
  of_special 0x07 _ rfl (encFForm_lt f) (by omega) fun _ w hw hq => by
    have hr : decodeSpecialRaw w = decFForm .log w := by unfold decodeSpecialRaw; rw [hq]; rfl
    rw [hr, hw]
    exact decFForm_enc .log _ f

theorem sin (f : FForm) : Statement (.sin f) :=
  of_special 0x08 _ rfl (encFForm_lt f) (by omega) fun _ w hw hq => by
    have hr : decodeSpecialRaw w = decFForm .sin w := by unfold decodeSpecialRaw; rw [hq]; rfl
    rw [hr, hw]
    exact decFForm_enc .sin _ f

theorem cos (f : FForm) : Statement (.cos f) :=
  of_special 0x09 _ rfl (encFForm_lt f) (by omega) fun _ w hw hq => by
    have hr : decodeSpecialRaw w = decFForm .cos w := by unfold decodeSpecialRaw; rw [hq]; rfl
    rw [hr, hw]
    exact decFForm_enc .cos _ f

theorem tanh (f : FForm) : Statement (.tanh f) :=
  of_special 0x0A _ rfl (encFForm_lt f) (by omega) fun _ w hw hq => by
    have hr : decodeSpecialRaw w = decFForm .tanh w := by unfold decodeSpecialRaw; rw [hq]; rfl
    rw [hr, hw]
    exact decFForm_enc .tanh _ f

theorem sigm (f : FForm) : Statement (.sigm f) :=
  of_special 0x0B _ rfl (encFForm_lt f) (by omega) fun _ w hw hq => by
    have hr : decodeSpecialRaw w = decFForm .sigm w := by unfold decodeSpecialRaw; rw [hq]; rfl
    rw [hr, hw]
    exact decFForm_enc .sigm _ f

theorem rcpstep (f : FForm) : Statement (.rcpstep f) :=
  of_special 0x0C _ rfl (encFForm_lt f) (by omega) fun _ w hw hq => by
    have hr : decodeSpecialRaw w = decFForm .rcpstep w := by unfold decodeSpecialRaw; rw [hq]; rfl
    rw [hr, hw]
    exact decFForm_enc .rcpstep _ f

theorem rsqstep (f : FForm) : Statement (.rsqstep f) :=
  of_special 0x0D _ rfl (encFForm_lt f) (by omega) fun _ w hw hq => by
    have hr : decodeSpecialRaw w = decFForm .rsqstep w := by unfold decodeSpecialRaw; rw [hq]; rfl
    rw [hr, hw]
    exact decFForm_enc .rsqstep _ f

theorem jsincos (f : FForm) : Statement (.jsincos f) :=
  of_special 0x10 _ rfl (encFForm_lt f) (by omega) fun _ w hw hq => by
    have hr : decodeSpecialRaw w = decFForm .jsincos w := by unfold decodeSpecialRaw; rw [hq]; rfl
    rw [hr, hw]
    exact decFForm_enc .jsincos _ f

theorem mnop : Statement .mnop := of_word .memory 0 rfl fun _ => rfl

theorem ld8u (f : MLd) : Statement (.ld8u f) :=
  of_memory 0x01 _ rfl (encMLd_lt f) (by omega) fun _ w hw hq => by
    have hr : decodeMemoryRaw w = decMLd .ld8u w := by unfold decodeMemoryRaw; rw [hq]; rfl
    rw [hr, hw]
    exact decMLd_enc .ld8u _ f

theorem ld16u (f : MLd) : Statement (.ld16u f) :=
  of_memory 0x02 _ rfl (encMLd_lt f) (by omega) fun _ w hw hq => by
    have hr : decodeMemoryRaw w = decMLd .ld16u w := by unfold decodeMemoryRaw; rw [hq]; rfl
    rw [hr, hw]
    exact decMLd_enc .ld16u _ f

theorem ld32u (f : MLd) : Statement (.ld32u f) :=
  of_memory 0x03 _ rfl (encMLd_lt f) (by omega) fun _ w hw hq => by
    have hr : decodeMemoryRaw w = decMLd .ld32u w := by unfold decodeMemoryRaw; rw [hq]; rfl
    rw [hr, hw]
    exact decMLd_enc .ld32u _ f

theorem ld64 (f : MLd) : Statement (.ld64 f) :=
  of_memory 0x04 _ rfl (encMLd_lt f) (by omega) fun _ w hw hq => by
    have hr : decodeMemoryRaw w = decMLd .ld64 w := by unfold decodeMemoryRaw; rw [hq]; rfl
    rw [hr, hw]
    exact decMLd_enc .ld64 _ f

theorem ld8s (f : MLd) : Statement (.ld8s f) :=
  of_memory 0x05 _ rfl (encMLd_lt f) (by omega) fun _ w hw hq => by
    have hr : decodeMemoryRaw w = decMLd .ld8s w := by unfold decodeMemoryRaw; rw [hq]; rfl
    rw [hr, hw]
    exact decMLd_enc .ld8s _ f

theorem ld16s (f : MLd) : Statement (.ld16s f) :=
  of_memory 0x06 _ rfl (encMLd_lt f) (by omega) fun _ w hw hq => by
    have hr : decodeMemoryRaw w = decMLd .ld16s w := by unfold decodeMemoryRaw; rw [hq]; rfl
    rw [hr, hw]
    exact decMLd_enc .ld16s _ f

theorem ld32s (f : MLd) : Statement (.ld32s f) :=
  of_memory 0x07 _ rfl (encMLd_lt f) (by omega) fun _ w hw hq => by
    have hr : decodeMemoryRaw w = decMLd .ld32s w := by unfold decodeMemoryRaw; rw [hq]; rfl
    rw [hr, hw]
    exact decMLd_enc .ld32s _ f

theorem st8 (f : MSt) : Statement (.st8 f) :=
  of_memory 0x08 _ rfl (encMSt_lt f) (by omega) fun _ w hw hq => by
    have hr : decodeMemoryRaw w = decMSt .st8 w := by unfold decodeMemoryRaw; rw [hq]; rfl
    rw [hr, hw]
    exact decMSt_enc .st8 _ f

theorem st16 (f : MSt) : Statement (.st16 f) :=
  of_memory 0x09 _ rfl (encMSt_lt f) (by omega) fun _ w hw hq => by
    have hr : decodeMemoryRaw w = decMSt .st16 w := by unfold decodeMemoryRaw; rw [hq]; rfl
    rw [hr, hw]
    exact decMSt_enc .st16 _ f

theorem st32 (f : MSt) : Statement (.st32 f) :=
  of_memory 0x0A _ rfl (encMSt_lt f) (by omega) fun _ w hw hq => by
    have hr : decodeMemoryRaw w = decMSt .st32 w := by unfold decodeMemoryRaw; rw [hq]; rfl
    rw [hr, hw]
    exact decMSt_enc .st32 _ f

theorem st64 (f : MSt) : Statement (.st64 f) :=
  of_memory 0x0B _ rfl (encMSt_lt f) (by omega) fun _ w hw hq => by
    have hr : decodeMemoryRaw w = decMSt .st64 w := by unfold decodeMemoryRaw; rw [hq]; rfl
    rw [hr, hw]
    exact decMSt_enc .st64 _ f

theorem vld (f : MVec) : Statement (.vld f) :=
  of_memory 0x10 _ rfl (encMVec_lt f) (by omega) fun _ w hw hq => by
    have hr : decodeMemoryRaw w = decMVec .vld w := by unfold decodeMemoryRaw; rw [hq]; rfl
    rw [hr, hw]
    exact decMVec_enc .vld _ f

theorem vst (f : MVec) : Statement (.vst f) :=
  of_memory 0x11 _ rfl (encMVec_lt f) (by omega) fun _ w hw hq => by
    have hr : decodeMemoryRaw w = decMVec .vst w := by unfold decodeMemoryRaw; rw [hq]; rfl
    rw [hr, hw]
    exact decMVec_enc .vst _ f

theorem vgath (f : MVec) : Statement (.vgath f) :=
  of_memory 0x12 _ rfl (encMVec_lt f) (by omega) fun _ w hw hq => by
    have hr : decodeMemoryRaw w = decMVec .vgath w := by unfold decodeMemoryRaw; rw [hq]; rfl
    rw [hr, hw]
    exact decMVec_enc .vgath _ f

theorem vscat (f : MVec) : Statement (.vscat f) :=
  of_memory 0x13 _ rfl (encMVec_lt f) (by omega) fun _ w hw hq => by
    have hr : decodeMemoryRaw w = decMVec .vscat w := by unfold decodeMemoryRaw; rw [hq]; rfl
    rw [hr, hw]
    exact decMVec_enc .vscat _ f

theorem prf (f : MAddr) : Statement (.prf f) :=
  of_memory 0x14 _ rfl (encMAddr_lt f) (by omega) fun _ w hw hq => by
    have hr : decodeMemoryRaw w = decMAddr .prf w := by unfold decodeMemoryRaw; rw [hq]; rfl
    rw [hr, hw]
    exact decMAddr_enc .prf _ f

theorem sbind (f : MBind) : Statement (.sbind f) :=
  of_memory 0x20 _ rfl (encMBind_lt f) (by omega) fun _ w hw hq => by
    have hr : decodeMemoryRaw w = decMBind .sbind w := by unfold decodeMemoryRaw; rw [hq]; rfl
    rw [hr, hw]
    exact decMBind_enc .sbind _ f

theorem sunbind (z : Fin 8) : Statement (.sunbind z) :=
  of_memory 0x21 _ rfl (by have := z.isLt; omega) (by omega) fun _ w hw hq => by
    have hr : decodeMemoryRaw w = decSunbind w := by unfold decodeMemoryRaw; rw [hq]; rfl
    rw [hr]
    have hz := z.isLt
    have e : f3 w 37 = z := Fin.ext (by simp only [f3, Fin.val_ofNat]; omega)
    simp only [decSunbind, e, need]
    (repeat rw [if_pos (by (try simp only [mflag1, mflag0, mflag1na, mflag0na, vj, only7, code03, jetOnly, dstOk, unguarded, Bool.and_eq_true, Bool.or_eq_true, beq_iff_eq, decide_eq_true_eq, Bool.not_eq_true', beq_eq_false_iff_ne, bne_iff_ne, ne_eq]); (try simp only [mdata, mimm, mbase, vcode, vdst, va, vb]); omega)])

theorem spos (f : MSpos) : Statement (.spos f) :=
  of_memory 0x22 _ rfl (encMSpos_lt f) (by omega) fun _ w hw hq => by
    have hr : decodeMemoryRaw w = decMSpos .spos w := by unfold decodeMemoryRaw; rw [hq]; rfl
    rw [hr, hw]
    exact decMSpos_enc .spos _ f

theorem copy (f : MDesc) : Statement (.copy f) :=
  of_memory 0x28 _ rfl (encMDesc_lt f) (by omega) fun _ w hw hq => by
    have hr : decodeMemoryRaw w = decMDesc .copy w := by unfold decodeMemoryRaw; rw [hq]; rfl
    rw [hr, hw]
    exact decMDesc_enc .copy _ f

theorem copyp (f : MDesc) : Statement (.copyp f) :=
  of_memory 0x29 _ rfl (encMDesc_lt f) (by omega) fun _ w hw hq => by
    have hr : decodeMemoryRaw w = decMDesc .copyp w := by unfold decodeMemoryRaw; rw [hq]; rfl
    rw [hr, hw]
    exact decMDesc_enc .copyp _ f

theorem fill (f : MDesc) : Statement (.fill f) :=
  of_memory 0x2A _ rfl (encMDesc_lt f) (by omega) fun _ w hw hq => by
    have hr : decodeMemoryRaw w = decMDesc .fill w := by unfold decodeMemoryRaw; rw [hq]; rfl
    rw [hr, hw]
    exact decMDesc_enc .fill _ f

theorem cflush (f : MAddr) : Statement (.cflush f) :=
  of_memory 0x30 _ rfl (encMAddr_lt f) (by omega) fun _ w hw hq => by
    have hr : decodeMemoryRaw w = decMAddr .cflush w := by unfold decodeMemoryRaw; rw [hq]; rfl
    rw [hr, hw]
    exact decMAddr_enc .cflush _ f

theorem cinv (f : MAddr) : Statement (.cinv f) :=
  of_memory 0x31 _ rfl (encMAddr_lt f) (by omega) fun _ w hw hq => by
    have hr : decodeMemoryRaw w = decMAddr .cinv w := by unfold decodeMemoryRaw; rw [hq]; rfl
    rw [hr, hw]
    exact decMAddr_enc .cinv _ f

theorem cclean (f : MAddr) : Statement (.cclean f) :=
  of_memory 0x32 _ rfl (encMAddr_lt f) (by omega) fun _ w hw hq => by
    have hr : decodeMemoryRaw w = decMAddr .cclean w := by unfold decodeMemoryRaw; rw [hq]; rfl
    rw [hr, hw]
    exact decMAddr_enc .cclean _ f

theorem migr (f : MMigr) : Statement (.migr f) :=
  of_memory 0x34 _ rfl (encMMigr_lt f) (by omega) fun _ w hw hq => by
    have hr : decodeMemoryRaw w = decMMigr .migr w := by unfold decodeMemoryRaw; rw [hq]; rfl
    rw [hr, hw]
    exact decMMigr_enc .migr _ f

theorem fenceX (f : MFence) : Statement (.fenceX f) :=
  of_memory 0x40 _ rfl (encMFence_lt f) (by omega) fun _ w hw hq => by
    have hr : decodeMemoryRaw w = decMFence .fenceX w := by unfold decodeMemoryRaw; rw [hq]; rfl
    rw [hr, hw]
    exact decMFence_enc .fenceX _ f

theorem fenceOwn (f : MPred) : Statement (.fenceOwn f) :=
  of_memory 0x41 _ rfl (encMPred_lt f) (by omega) fun _ w hw hq => by
    have hr : decodeMemoryRaw w = decMPred .fenceOwn w := by unfold decodeMemoryRaw; rw [hq]; rfl
    rw [hr, hw]
    exact decMPred_enc .fenceOwn _ f

theorem fenceFar (f : MAddr) : Statement (.fenceFar f) :=
  of_memory 0x42 _ rfl (encMAddr_lt f) (by omega) fun _ w hw hq => by
    have hr : decodeMemoryRaw w = decMAddr .fenceFar w := by unfold decodeMemoryRaw; rw [hq]; rfl
    rw [hr, hw]
    exact decMAddr_enc .fenceFar _ f

theorem drain (f : MDrain) : Statement (.drain f) :=
  of_memory 0x43 _ rfl (encMDrain_lt f) (by omega) fun _ w hw hq => by
    have hr : decodeMemoryRaw w = decMDrain .drain w := by unfold decodeMemoryRaw; rw [hq]; rfl
    rw [hr, hw]
    exact decMDrain_enc .drain _ f

theorem ldacq (f : MAtom) : Statement (.ldacq f) :=
  of_memory 0x44 _ rfl (encMAtom_lt f) (by omega) fun _ w hw hq => by
    have hr : decodeMemoryRaw w = decMAtom .ldacq w := by unfold decodeMemoryRaw; rw [hq]; rfl
    rw [hr, hw]
    exact decMAtom_enc .ldacq _ f

theorem strel (f : MRed) : Statement (.strel f) :=
  of_memory 0x45 _ rfl (encMRed_lt f) (by omega) fun _ w hw hq => by
    have hr : decodeMemoryRaw w = decMRed .strel w := by unfold decodeMemoryRaw; rw [hq]; rfl
    rw [hr, hw]
    exact decMRed_enc .strel _ f

theorem redaddI32 (f : MRed) : Statement (.redaddI32 f) :=
  of_memory 0x48 _ rfl (encMRed_lt f) (by omega) fun _ w hw hq => by
    have hr : decodeMemoryRaw w = decMRed .redaddI32 w := by unfold decodeMemoryRaw; rw [hq]; rfl
    rw [hr, hw]
    exact decMRed_enc .redaddI32 _ f

theorem redaddq (f : MRed) : Statement (.redaddq f) :=
  of_memory 0x49 _ rfl (encMRed_lt f) (by omega) fun _ w hw hq => by
    have hr : decodeMemoryRaw w = decMRed .redaddq w := by unfold decodeMemoryRaw; rw [hq]; rfl
    rw [hr, hw]
    exact decMRed_enc .redaddq _ f

theorem redminI32 (f : MRed) : Statement (.redminI32 f) :=
  of_memory 0x4A _ rfl (encMRed_lt f) (by omega) fun _ w hw hq => by
    have hr : decodeMemoryRaw w = decMRed .redminI32 w := by unfold decodeMemoryRaw; rw [hq]; rfl
    rw [hr, hw]
    exact decMRed_enc .redminI32 _ f

theorem redmaxI32 (f : MRed) : Statement (.redmaxI32 f) :=
  of_memory 0x4B _ rfl (encMRed_lt f) (by omega) fun _ w hw hq => by
    have hr : decodeMemoryRaw w = decMRed .redmaxI32 w := by unfold decodeMemoryRaw; rw [hq]; rfl
    rw [hr, hw]
    exact decMRed_enc .redmaxI32 _ f

theorem redand (f : MRed) : Statement (.redand f) :=
  of_memory 0x4C _ rfl (encMRed_lt f) (by omega) fun _ w hw hq => by
    have hr : decodeMemoryRaw w = decMRed .redand w := by unfold decodeMemoryRaw; rw [hq]; rfl
    rw [hr, hw]
    exact decMRed_enc .redand _ f

theorem redor (f : MRed) : Statement (.redor f) :=
  of_memory 0x4D _ rfl (encMRed_lt f) (by omega) fun _ w hw hq => by
    have hr : decodeMemoryRaw w = decMRed .redor w := by unfold decodeMemoryRaw; rw [hq]; rfl
    rw [hr, hw]
    exact decMRed_enc .redor _ f

theorem redxor (f : MRed) : Statement (.redxor f) :=
  of_memory 0x4E _ rfl (encMRed_lt f) (by omega) fun _ w hw hq => by
    have hr : decodeMemoryRaw w = decMRed .redxor w := by unfold decodeMemoryRaw; rw [hq]; rfl
    rw [hr, hw]
    exact decMRed_enc .redxor _ f

theorem redaddF32 (f : MRed) : Statement (.redaddF32 f) :=
  of_memory 0x4F _ rfl (encMRed_lt f) (by omega) fun _ w hw hq => by
    have hr : decodeMemoryRaw w = decMRed .redaddF32 w := by unfold decodeMemoryRaw; rw [hq]; rfl
    rw [hr, hw]
    exact decMRed_enc .redaddF32 _ f

theorem atomadd (f : MAtom) : Statement (.atomadd f) :=
  of_memory 0x50 _ rfl (encMAtom_lt f) (by omega) fun _ w hw hq => by
    have hr : decodeMemoryRaw w = decMAtom .atomadd w := by unfold decodeMemoryRaw; rw [hq]; rfl
    rw [hr, hw]
    exact decMAtom_enc .atomadd _ f

theorem atomswp (f : MAtom) : Statement (.atomswp f) :=
  of_memory 0x51 _ rfl (encMAtom_lt f) (by omega) fun _ w hw hq => by
    have hr : decodeMemoryRaw w = decMAtom .atomswp w := by unfold decodeMemoryRaw; rw [hq]; rfl
    rw [hr, hw]
    exact decMAtom_enc .atomswp _ f

theorem atomcas (f : MAtom) : Statement (.atomcas f) :=
  of_memory 0x52 _ rfl (encMAtom_lt f) (by omega) fun _ w hw hq => by
    have hr : decodeMemoryRaw w = decMAtom .atomcas w := by unfold decodeMemoryRaw; rw [hq]; rfl
    rw [hr, hw]
    exact decMAtom_enc .atomcas _ f

theorem sync (f : MSync) : Statement (.sync f) :=
  of_memory 0x60 _ rfl (encMSync_lt f) (by omega) fun _ w hw hq => by
    have hr : decodeMemoryRaw w = decMSync .sync w := by unfold decodeMemoryRaw; rw [hq]; rfl
    rw [hr, hw]
    exact decMSync_enc .sync _ f

theorem barcfg (f : MBarcfg) : Statement (.barcfg f) :=
  of_memory 0x61 _ rfl (encMBarcfg_lt f) (by omega) fun _ w hw hq => by
    have hr : decodeMemoryRaw w = decMBarcfg .barcfg w := by unfold decodeMemoryRaw; rw [hq]; rfl
    rw [hr, hw]
    exact decMBarcfg_enc .barcfg _ f

theorem sstep : Statement .sstep := of_word .memory _ rfl fun _ => rfl

theorem taintrdScalar (f : MTaintRdS) : Statement (.taintrdScalar f) :=
  of_memory 0x63 _ rfl (by obtain ⟨p, src, dst⟩ := f; have hp := p.isLt; have hs := encSOp_lt src; have hd := dst.isLt; simp only [encMTaintRdS]; omega) (by omega) fun _ w hw hq => by
    have hr : decodeMemoryRaw w = decTaintRd w := by unfold decodeMemoryRaw; rw [hq]; rfl
    rw [hr]
    obtain ⟨p, src, dst⟩ := f
    have hp := p.isLt
    have hs := encSOp_lt src
    have hd := dst.isLt
    simp only [encMTaintRdS] at hw
    have e0 : f3 w 45 = p := Fin.ext (by simp only [f3, Fin.val_ofNat]; omega)
    have e1 : decSOp (mdata w) = src := decSOp_of src _ (by simp only [mdata]; omega)
    have e2 : f5 w 31 = dst := Fin.ext (by simp only [f5, Fin.val_ofNat]; omega)
    simp only [decTaintRd, need, decWin, e0, e1, e2, Fin.is_lt, dite_true, Fin.eta]
    rw [if_pos (by (try simp only [mflag1, mflag0, mflag1na, mflag0na, vj, only7, code03, jetOnly, dstOk, unguarded, Bool.and_eq_true, Bool.or_eq_true, beq_iff_eq, decide_eq_true_eq, Bool.not_eq_true', beq_eq_false_iff_ne, bne_iff_ne, ne_eq]); (try simp only [mdata, mimm, mbase, vcode, vdst, va, vb]); omega)]
    first
    | rw [if_pos (show mflag1 w = true by  (try simp only [mflag1, mflag0, mflag1na, mflag0na, vj, only7, code03, jetOnly, dstOk, unguarded, Bool.and_eq_true, Bool.or_eq_true, beq_iff_eq, decide_eq_true_eq, Bool.not_eq_true', beq_eq_false_iff_ne, bne_iff_ne, ne_eq]); (try simp only [mdata, mimm, mbase, vcode, vdst, va, vb]); omega), if_pos (by (try simp only [mflag1, mflag0, mflag1na, mflag0na, vj, only7, code03, jetOnly, dstOk, unguarded, Bool.and_eq_true, Bool.or_eq_true, beq_iff_eq, decide_eq_true_eq, Bool.not_eq_true', beq_eq_false_iff_ne, bne_iff_ne, ne_eq]); (try simp only [mdata, mimm, mbase, vcode, vdst, va, vb]); omega)]
    | rw [if_pos (show mflag1 w = true by  (try simp only [mflag1, mflag0, mflag1na, mflag0na, vj, only7, code03, jetOnly, dstOk, unguarded, Bool.and_eq_true, Bool.or_eq_true, beq_iff_eq, decide_eq_true_eq, Bool.not_eq_true', beq_eq_false_iff_ne, bne_iff_ne, ne_eq]); (try simp only [mdata, mimm, mbase, vcode, vdst, va, vb]); omega)]
    | rw [if_neg (show ¬ mflag1 w = true by (simp only [mflag1, beq_iff_eq]); omega)]
    (repeat rw [if_pos (by (try simp only [mflag1, mflag0, mflag1na, mflag0na, vj, only7, code03, jetOnly, dstOk, unguarded, Bool.and_eq_true, Bool.or_eq_true, beq_iff_eq, decide_eq_true_eq, Bool.not_eq_true', beq_eq_false_iff_ne, bne_iff_ne, ne_eq]); (try simp only [mdata, mimm, mbase, vcode, vdst, va, vb]); omega)])

theorem taintrdVector (f : MTaintRdV) : Statement (.taintrdVector f) :=
  of_memory 0x63 _ rfl (by obtain ⟨m, src, md⟩ := f; have hp := m.isLt; have hs := encVOp_lt src; have hd := md.isLt; simp only [encMTaintRdV]; omega) (by omega) fun _ w hw hq => by
    have hr : decodeMemoryRaw w = decTaintRd w := by unfold decodeMemoryRaw; rw [hq]; rfl
    rw [hr]
    obtain ⟨m, src, md⟩ := f
    have hp := m.isLt
    have hs := encVOp_lt src
    have hd := md.isLt
    simp only [encMTaintRdV] at hw
    have e0 : f3 w 45 = m := Fin.ext (by simp only [f3, Fin.val_ofNat]; omega)
    have e1 : decVOp (mdata w) = src := decVOp_of src _ (by simp only [mdata]; omega)
    have e2 : f3 w 31 = md := Fin.ext (by simp only [f3, Fin.val_ofNat]; omega)
    simp only [decTaintRd, need, decWin, e0, e1, e2, Fin.is_lt, dite_true, Fin.eta]
    rw [if_pos (by (try simp only [mflag1, mflag0, mflag1na, mflag0na, vj, only7, code03, jetOnly, dstOk, unguarded, Bool.and_eq_true, Bool.or_eq_true, beq_iff_eq, decide_eq_true_eq, Bool.not_eq_true', beq_eq_false_iff_ne, bne_iff_ne, ne_eq]); (try simp only [mdata, mimm, mbase, vcode, vdst, va, vb]); omega)]
    first
    | rw [if_pos (show mflag1 w = true by  (try simp only [mflag1, mflag0, mflag1na, mflag0na, vj, only7, code03, jetOnly, dstOk, unguarded, Bool.and_eq_true, Bool.or_eq_true, beq_iff_eq, decide_eq_true_eq, Bool.not_eq_true', beq_eq_false_iff_ne, bne_iff_ne, ne_eq]); (try simp only [mdata, mimm, mbase, vcode, vdst, va, vb]); omega), if_pos (by (try simp only [mflag1, mflag0, mflag1na, mflag0na, vj, only7, code03, jetOnly, dstOk, unguarded, Bool.and_eq_true, Bool.or_eq_true, beq_iff_eq, decide_eq_true_eq, Bool.not_eq_true', beq_eq_false_iff_ne, bne_iff_ne, ne_eq]); (try simp only [mdata, mimm, mbase, vcode, vdst, va, vb]); omega)]
    | rw [if_pos (show mflag1 w = true by  (try simp only [mflag1, mflag0, mflag1na, mflag0na, vj, only7, code03, jetOnly, dstOk, unguarded, Bool.and_eq_true, Bool.or_eq_true, beq_iff_eq, decide_eq_true_eq, Bool.not_eq_true', beq_eq_false_iff_ne, bne_iff_ne, ne_eq]); (try simp only [mdata, mimm, mbase, vcode, vdst, va, vb]); omega)]
    | rw [if_neg (show ¬ mflag1 w = true by (simp only [mflag1, beq_iff_eq]); omega)]
    (repeat rw [if_pos (by (try simp only [mflag1, mflag0, mflag1na, mflag0na, vj, only7, code03, jetOnly, dstOk, unguarded, Bool.and_eq_true, Bool.or_eq_true, beq_iff_eq, decide_eq_true_eq, Bool.not_eq_true', beq_eq_false_iff_ne, bne_iff_ne, ne_eq]); (try simp only [mdata, mimm, mbase, vcode, vdst, va, vb]); omega)])

theorem taintclrScalar (f : MTaintClrS) : Statement (.taintclrScalar f) :=
  of_memory 0x64 _ rfl (by obtain ⟨p, r⟩ := f; have hp := p.isLt; have hd := r.isLt; simp only [encMTaintClrS]; omega) (by omega) fun _ w hw hq => by
    have hr : decodeMemoryRaw w = decTaintClr w := by unfold decodeMemoryRaw; rw [hq]; rfl
    rw [hr]
    obtain ⟨p, r⟩ := f
    have hp := p.isLt
    have hd := r.isLt
    simp only [encMTaintClrS] at hw
    have e0 : f3 w 45 = p := Fin.ext (by simp only [f3, Fin.val_ofNat]; omega)
    have e1 : f5 w 37 = r := Fin.ext (by simp only [f5, Fin.val_ofNat]; omega)
    simp only [decTaintClr, need, decWin, e0, e1, Fin.is_lt, dite_true, Fin.eta]
    rw [if_pos (by (try simp only [mflag1, mflag0, mflag1na, mflag0na, vj, only7, code03, jetOnly, dstOk, unguarded, Bool.and_eq_true, Bool.or_eq_true, beq_iff_eq, decide_eq_true_eq, Bool.not_eq_true', beq_eq_false_iff_ne, bne_iff_ne, ne_eq]); (try simp only [mdata, mimm, mbase, vcode, vdst, va, vb]); omega)]
    first
    | rw [if_pos (show mflag1 w = true by  (try simp only [mflag1, mflag0, mflag1na, mflag0na, vj, only7, code03, jetOnly, dstOk, unguarded, Bool.and_eq_true, Bool.or_eq_true, beq_iff_eq, decide_eq_true_eq, Bool.not_eq_true', beq_eq_false_iff_ne, bne_iff_ne, ne_eq]); (try simp only [mdata, mimm, mbase, vcode, vdst, va, vb]); omega), if_pos (by (try simp only [mflag1, mflag0, mflag1na, mflag0na, vj, only7, code03, jetOnly, dstOk, unguarded, Bool.and_eq_true, Bool.or_eq_true, beq_iff_eq, decide_eq_true_eq, Bool.not_eq_true', beq_eq_false_iff_ne, bne_iff_ne, ne_eq]); (try simp only [mdata, mimm, mbase, vcode, vdst, va, vb]); omega)]
    | rw [if_pos (show mflag1 w = true by  (try simp only [mflag1, mflag0, mflag1na, mflag0na, vj, only7, code03, jetOnly, dstOk, unguarded, Bool.and_eq_true, Bool.or_eq_true, beq_iff_eq, decide_eq_true_eq, Bool.not_eq_true', beq_eq_false_iff_ne, bne_iff_ne, ne_eq]); (try simp only [mdata, mimm, mbase, vcode, vdst, va, vb]); omega)]
    | rw [if_neg (show ¬ mflag1 w = true by (simp only [mflag1, beq_iff_eq]); omega)]
    (repeat rw [if_pos (by (try simp only [mflag1, mflag0, mflag1na, mflag0na, vj, only7, code03, jetOnly, dstOk, unguarded, Bool.and_eq_true, Bool.or_eq_true, beq_iff_eq, decide_eq_true_eq, Bool.not_eq_true', beq_eq_false_iff_ne, bne_iff_ne, ne_eq]); (try simp only [mdata, mimm, mbase, vcode, vdst, va, vb]); omega)])

theorem taintclrVector (f : MTaintClrV) : Statement (.taintclrVector f) :=
  of_memory 0x64 _ rfl (by obtain ⟨m, r⟩ := f; have hp := m.isLt; have hd := r.isLt; simp only [encMTaintClrV]; omega) (by omega) fun _ w hw hq => by
    have hr : decodeMemoryRaw w = decTaintClr w := by unfold decodeMemoryRaw; rw [hq]; rfl
    rw [hr]
    obtain ⟨m, r⟩ := f
    have hp := m.isLt
    have hd := r.isLt
    simp only [encMTaintClrV] at hw
    have e0 : f3 w 45 = m := Fin.ext (by simp only [f3, Fin.val_ofNat]; omega)
    have e1 : mdata w % 256 = r.val := by simp only [mdata]; omega
    simp only [decTaintClr, need, decWin, e0, e1, Fin.is_lt, dite_true, Fin.eta]
    rw [if_pos (by (try simp only [mflag1, mflag0, mflag1na, mflag0na, vj, only7, code03, jetOnly, dstOk, unguarded, Bool.and_eq_true, Bool.or_eq_true, beq_iff_eq, decide_eq_true_eq, Bool.not_eq_true', beq_eq_false_iff_ne, bne_iff_ne, ne_eq]); (try simp only [mdata, mimm, mbase, vcode, vdst, va, vb]); omega)]
    first
    | rw [if_pos (show mflag1 w = true by  (try simp only [mflag1, mflag0, mflag1na, mflag0na, vj, only7, code03, jetOnly, dstOk, unguarded, Bool.and_eq_true, Bool.or_eq_true, beq_iff_eq, decide_eq_true_eq, Bool.not_eq_true', beq_eq_false_iff_ne, bne_iff_ne, ne_eq]); (try simp only [mdata, mimm, mbase, vcode, vdst, va, vb]); omega), if_pos (by (try simp only [mflag1, mflag0, mflag1na, mflag0na, vj, only7, code03, jetOnly, dstOk, unguarded, Bool.and_eq_true, Bool.or_eq_true, beq_iff_eq, decide_eq_true_eq, Bool.not_eq_true', beq_eq_false_iff_ne, bne_iff_ne, ne_eq]); (try simp only [mdata, mimm, mbase, vcode, vdst, va, vb]); omega)]
    | rw [if_pos (show mflag1 w = true by  (try simp only [mflag1, mflag0, mflag1na, mflag0na, vj, only7, code03, jetOnly, dstOk, unguarded, Bool.and_eq_true, Bool.or_eq_true, beq_iff_eq, decide_eq_true_eq, Bool.not_eq_true', beq_eq_false_iff_ne, bne_iff_ne, ne_eq]); (try simp only [mdata, mimm, mbase, vcode, vdst, va, vb]); omega)]
    | rw [if_neg (show ¬ mflag1 w = true by (simp only [mflag1, beq_iff_eq]); omega)]
    (repeat rw [if_pos (by (try simp only [mflag1, mflag0, mflag1na, mflag0na, vj, only7, code03, jetOnly, dstOk, unguarded, Bool.and_eq_true, Bool.or_eq_true, beq_iff_eq, decide_eq_true_eq, Bool.not_eq_true', beq_eq_false_iff_ne, bne_iff_ne, ne_eq]); (try simp only [mdata, mimm, mbase, vcode, vdst, va, vb]); omega)])

theorem mcall (f : MCallF) : Statement (.mcall f) :=
  of_memory 0x70 _ rfl (encMCallF_lt f) (by omega) fun _ w hw hq => by
    have hr : decodeMemoryRaw w = decMCallF .mcall w := by unfold decodeMemoryRaw; rw [hq]; rfl
    rw [hr, hw]
    exact decMCallF_enc .mcall _ f

theorem mlat (f : MLatF) : Statement (.mlat f) :=
  of_memory 0x71 _ rfl (encMLatF_lt f) (by omega) fun _ w hw hq => by
    have hr : decodeMemoryRaw w = decMLatF .mlat w := by unfold decodeMemoryRaw; rw [hq]; rfl
    rw [hr, hw]
    exact decMLatF_enc .mlat _ f

theorem msetp (f : MSetpF) : Statement (.msetp f) :=
  of_memory 0x72 _ rfl (encMSetpF_lt f) (by omega) fun _ w hw hq => by
    have hr : decodeMemoryRaw w = decMSetpF .msetp w := by unfold decodeMemoryRaw; rw [hq]; rfl
    rw [hr, hw]
    exact decMSetpF_enc .msetp _ f

theorem mparm (f : MParmF) : Statement (.mparm f) :=
  of_memory 0x73 _ rfl (encMParmF_lt f) (by omega) fun _ w hw hq => by
    have hr : decodeMemoryRaw w = decMParmF .mparm w := by unfold decodeMemoryRaw; rw [hq]; rfl
    rw [hr, hw]
    exact decMParmF_enc .mparm _ f

theorem accz (f : MAcc) : Statement (.accz f) :=
  of_memory 0x74 _ rfl (encMAcc_lt f) (by omega) fun _ w hw hq => by
    have hr : decodeMemoryRaw w = decMAcc .accz w := by unfold decodeMemoryRaw; rw [hq]; rfl
    rw [hr, hw]
    exact decMAcc_enc .accz _ f

theorem accrd (f : MAccR) : Statement (.accrd f) :=
  of_memory 0x75 _ rfl (encMAccR_lt f) (by omega) fun _ w hw hq => by
    have hr : decodeMemoryRaw w = decMAccR .accrd w := by unfold decodeMemoryRaw; rw [hq]; rfl
    rw [hr, hw]
    exact decMAccR_enc .accrd _ f

theorem accwr (f : MAccR) : Statement (.accwr f) :=
  of_memory 0x76 _ rfl (encMAccR_lt f) (by omega) fun _ w hw hq => by
    have hr : decodeMemoryRaw w = decMAccR .accwr w := by unfold decodeMemoryRaw; rw [hq]; rfl
    rw [hr, hw]
    exact decMAccR_enc .accwr _ f

theorem norm (f : MAcc) : Statement (.norm f) :=
  of_memory 0x77 _ rfl (encMAcc_lt f) (by omega) fun _ w hw hq => by
    have hr : decodeMemoryRaw w = decMAcc .norm w := by unfold decodeMemoryRaw; rw [hq]; rfl
    rw [hr, hw]
    exact decMAcc_enc .norm _ f

theorem nsend (f : MDesc) : Statement (.nsend f) :=
  of_memory 0xA0 _ rfl (encMDesc_lt f) (by omega) fun _ w hw hq => by
    have hr : decodeMemoryRaw w = decMDesc .nsend w := by unfold decodeMemoryRaw; rw [hq]; rfl
    rw [hr, hw]
    exact decMDesc_enc .nsend _ f

theorem nrecv (f : MDesc) : Statement (.nrecv f) :=
  of_memory 0xA1 _ rfl (encMDesc_lt f) (by omega) fun _ w hw hq => by
    have hr : decodeMemoryRaw w = decMDesc .nrecv w := by unfold decodeMemoryRaw; rw [hq]; rfl
    rw [hr, hw]
    exact decMDesc_enc .nrecv _ f

theorem ncoll (f : MDesc) : Statement (.ncoll f) :=
  of_memory 0xA2 _ rfl (encMDesc_lt f) (by omega) fun _ w hw hq => by
    have hr : decodeMemoryRaw w = decMDesc .ncoll w := by unfold decodeMemoryRaw; rw [hq]; rfl
    rw [hr, hw]
    exact decMDesc_enc .ncoll _ f

theorem selacc (f : MDesc) : Statement (.selacc f) :=
  of_memory 0xC0 _ rfl (encMDesc_lt f) (by omega) fun _ w hw hq => by
    have hr : decodeMemoryRaw w = decMDesc .selacc w := by unfold decodeMemoryRaw; rw [hq]; rfl
    rw [hr, hw]
    exact decMDesc_enc .selacc _ f

theorem draw (f : MPair) : Statement (.draw f) :=
  of_memory 0xC1 _ rfl (encMPair_lt f) (by omega) fun _ w hw hq => by
    have hr : decodeMemoryRaw w = decMPair .draw w := by unfold decodeMemoryRaw; rw [hq]; rfl
    rw [hr, hw]
    exact decMPair_enc .draw _ f

theorem kvalloc (f : MPair) : Statement (.kvalloc f) :=
  of_memory 0xC2 _ rfl (encMPair_lt f) (by omega) fun _ w hw hq => by
    have hr : decodeMemoryRaw w = decMPair .kvalloc w := by unfold decodeMemoryRaw; rw [hq]; rfl
    rw [hr, hw]
    exact decMPair_enc .kvalloc _ f

theorem kvfree (f : MPair) : Statement (.kvfree f) :=
  of_memory 0xC3 _ rfl (encMPair_lt f) (by omega) fun _ w hw hq => by
    have hr : decodeMemoryRaw w = decMPair .kvfree w := by unfold decodeMemoryRaw; rw [hq]; rfl
    rw [hr, hw]
    exact decMPair_enc .kvfree _ f

theorem kvcount (f : MKvcount) : Statement (.kvcount f) :=
  of_memory 0xC4 _ rfl (encMKvcount_lt f) (by omega) fun _ w hw hq => by
    have hr : decodeMemoryRaw w = decMKvcount .kvcount w := by unfold decodeMemoryRaw; rw [hq]; rfl
    rw [hr, hw]
    exact decMKvcount_enc .kvcount _ f

theorem tithe (f : MDesc) : Statement (.tithe f) :=
  of_memory 0xC8 _ rfl (encMDesc_lt f) (by omega) fun _ w hw hq => by
    have hr : decodeMemoryRaw w = decMDesc .tithe w := by unfold decodeMemoryRaw; rw [hq]; rfl
    rw [hr, hw]
    exact decMDesc_enc .tithe _ f

theorem tmap (f : MDesc) : Statement (.tmap f) :=
  of_memory 0xC9 _ rfl (encMDesc_lt f) (by omega) fun _ w hw hq => by
    have hr : decodeMemoryRaw w = decMDesc .tmap w := by unfold decodeMemoryRaw; rw [hq]; rfl
    rw [hr, hw]
    exact decMDesc_enc .tmap _ f

theorem tclrd (f : MDesc) : Statement (.tclrd f) :=
  of_memory 0xCA _ rfl (encMDesc_lt f) (by omega) fun _ w hw hq => by
    have hr : decodeMemoryRaw w = decMDesc .tclrd w := by unfold decodeMemoryRaw; rw [hq]; rfl
    rw [hr, hw]
    exact decMDesc_enc .tclrd _ f

theorem launch (f : MDesc) : Statement (.launch f) :=
  of_memory 0xE0 _ rfl (encMDesc_lt f) (by omega) fun _ w hw hq => by
    have hr : decodeMemoryRaw w = decMDesc .launch w := by unfold decodeMemoryRaw; rw [hq]; rfl
    rw [hr, hw]
    exact decMDesc_enc .launch _ f

theorem release (f : MRelease) : Statement (.release f) :=
  of_memory 0xE1 _ rfl (encMRelease_lt f) (by omega) fun _ w hw hq => by
    have hr : decodeMemoryRaw w = decMRelease .release w := by unfold decodeMemoryRaw; rw [hq]; rfl
    rw [hr, hw]
    exact decMRelease_enc .release _ f

theorem uend : Statement .uend := of_word .micro 0 rfl fun _ => rfl

theorem ukstep (f : UKs) : Statement (.ukstep f) :=
  of_micro 1 _ rfl (by obtain ⟨ra, rb, rc, rd, re⟩ := f; have h_ra := ra.isLt; have h_rb := rb.isLt; have h_rc := rc.isLt; have h_rd := rd.isLt; have h_re := re.isLt; simp only [encUKs]; omega) (by omega) fun _ w hw hq => by
    have hr : decodeMicroRaw w = need (w / 2^32 % 2^11 == 0) .reserved (need (w % 2^32 == 0) .reserved (.ok (.ukstep ⟨f3 w 55, f3 w 52, f3 w 49, f3 w 46, f3 w 43⟩))) := by unfold decodeMicroRaw; rw [hq]; rfl
    rw [hr]
    obtain ⟨ra, rb, rc, rd, re⟩ := f
    have h_ra := ra.isLt; have h_rb := rb.isLt; have h_rc := rc.isLt; have h_rd := rd.isLt; have h_re := re.isLt
    simp only [encUKs] at hw
    have e0 : f3 w 55 = ra := Fin.ext (by simp only [f3, Fin.val_ofNat]; omega)
    have e1 : f3 w 52 = rb := Fin.ext (by simp only [f3, Fin.val_ofNat]; omega)
    have e2 : f3 w 49 = rc := Fin.ext (by simp only [f3, Fin.val_ofNat]; omega)
    have e3 : f3 w 46 = rd := Fin.ext (by simp only [f3, Fin.val_ofNat]; omega)
    have e4 : f3 w 43 = re := Fin.ext (by simp only [f3, Fin.val_ofNat]; omega)
    simp only [need, e0, e1, e2, e3, e4]
    (repeat rw [if_pos (by (try simp only [mflag1, mflag0, mflag1na, mflag0na, vj, only7, code03, jetOnly, dstOk, unguarded, Bool.and_eq_true, Bool.or_eq_true, beq_iff_eq, decide_eq_true_eq, Bool.not_eq_true', beq_eq_false_iff_ne, bne_iff_ne, ne_eq]); (try simp only [mdata, mimm, mbase, vcode, vdst, va, vb]); omega)])

theorem uaddi (f : UImm) : Statement (.uaddi f) :=
  of_micro 2 _ rfl (by obtain ⟨ra, rb, imm⟩ := f; have h_ra := ra.isLt; have h_rb := rb.isLt; have h_imm := imm.isLt; simp only [encUImm]; omega) (by omega) fun _ w hw hq => by
    have hr : decodeMicroRaw w = need (w / 2^32 % 2^11 == 0) .reserved (need (w / 2^43 % 2^9 == 0) .reserved (.ok (.uaddi ⟨f3 w 55, f3 w 52, BitVec.ofNat 32 w⟩))) := by unfold decodeMicroRaw; rw [hq]; rfl
    rw [hr]
    obtain ⟨ra, rb, imm⟩ := f
    have h_ra := ra.isLt; have h_rb := rb.isLt; have h_imm := imm.isLt
    simp only [encUImm] at hw
    have e0 : f3 w 55 = ra := Fin.ext (by simp only [f3, Fin.val_ofNat]; omega)
    have e1 : f3 w 52 = rb := Fin.ext (by simp only [f3, Fin.val_ofNat]; omega)
    have e2 : BitVec.ofNat 32 w = imm := BitVec.eq_of_toNat_eq (by simp only [BitVec.toNat_ofNat]; omega)
    simp only [need, e0, e1, e2]
    (repeat rw [if_pos (by (try simp only [mflag1, mflag0, mflag1na, mflag0na, vj, only7, code03, jetOnly, dstOk, unguarded, Bool.and_eq_true, Bool.or_eq_true, beq_iff_eq, decide_eq_true_eq, Bool.not_eq_true', beq_eq_false_iff_ne, bne_iff_ne, ne_eq]); (try simp only [mdata, mimm, mbase, vcode, vdst, va, vb]); omega)])

theorem uadd (f : U3) : Statement (.uadd f) :=
  of_micro 3 _ rfl (by obtain ⟨ra, rb, rc⟩ := f; have h_ra := ra.isLt; have h_rb := rb.isLt; have h_rc := rc.isLt; simp only [encU3]; omega) (by omega) fun _ w hw hq => by
    have hr : decodeMicroRaw w = need (w / 2^32 % 2^11 == 0) .reserved (need (w % 2^49 == 0) .reserved (.ok (.uadd ⟨f3 w 55, f3 w 52, f3 w 49⟩))) := by unfold decodeMicroRaw; rw [hq]; rfl
    rw [hr]
    obtain ⟨ra, rb, rc⟩ := f
    have h_ra := ra.isLt; have h_rb := rb.isLt; have h_rc := rc.isLt
    simp only [encU3] at hw
    have e0 : f3 w 55 = ra := Fin.ext (by simp only [f3, Fin.val_ofNat]; omega)
    have e1 : f3 w 52 = rb := Fin.ext (by simp only [f3, Fin.val_ofNat]; omega)
    have e2 : f3 w 49 = rc := Fin.ext (by simp only [f3, Fin.val_ofNat]; omega)
    simp only [need, e0, e1, e2]
    (repeat rw [if_pos (by (try simp only [mflag1, mflag0, mflag1na, mflag0na, vj, only7, code03, jetOnly, dstOk, unguarded, Bool.and_eq_true, Bool.or_eq_true, beq_iff_eq, decide_eq_true_eq, Bool.not_eq_true', beq_eq_false_iff_ne, bne_iff_ne, ne_eq]); (try simp only [mdata, mimm, mbase, vcode, vdst, va, vb]); omega)])

theorem uloop (f : ULoopF) : Statement (.uloop f) :=
  of_micro 4 _ rfl (by obtain ⟨ra, target⟩ := f; have h_ra := ra.isLt; have h_target := target.isLt; simp only [encULoopF]; omega) (by omega) fun _ w hw hq => by
    have hr : decodeMicroRaw w = need (w / 2^32 % 2^11 == 0) .reserved (need (w / 2^43 % 2^12 == 0 && w % 2^32 < 2048) .reserved (.ok (.uloop ⟨f3 w 55, Fin.ofNat 2048 w⟩))) := by unfold decodeMicroRaw; rw [hq]; rfl
    rw [hr]
    obtain ⟨ra, target⟩ := f
    have h_ra := ra.isLt; have h_target := target.isLt
    simp only [encULoopF] at hw
    have e0 : f3 w 55 = ra := Fin.ext (by simp only [f3, Fin.val_ofNat]; omega)
    have e1 : Fin.ofNat 2048 w = target := Fin.ext (by simp only [Fin.val_ofNat]; omega)
    simp only [need, e0, e1]
    (repeat rw [if_pos (by (try simp only [mflag1, mflag0, mflag1na, mflag0na, vj, only7, code03, jetOnly, dstOk, unguarded, Bool.and_eq_true, Bool.or_eq_true, beq_iff_eq, decide_eq_true_eq, Bool.not_eq_true', beq_eq_false_iff_ne, bne_iff_ne, ne_eq]); (try simp only [mdata, mimm, mbase, vcode, vdst, va, vb]); omega)])

theorem unorm (f : U2) : Statement (.unorm f) :=
  of_micro 5 _ rfl (by obtain ⟨ra, rb⟩ := f; have h_ra := ra.isLt; have h_rb := rb.isLt; simp only [encU2]; omega) (by omega) fun _ w hw hq => by
    have hr : decodeMicroRaw w = need (w / 2^32 % 2^11 == 0) .reserved (need (w % 2^52 == 0) .reserved (.ok (.unorm ⟨f3 w 55, f3 w 52⟩))) := by unfold decodeMicroRaw; rw [hq]; rfl
    rw [hr]
    obtain ⟨ra, rb⟩ := f
    have h_ra := ra.isLt; have h_rb := rb.isLt
    simp only [encU2] at hw
    have e0 : f3 w 55 = ra := Fin.ext (by simp only [f3, Fin.val_ofNat]; omega)
    have e1 : f3 w 52 = rb := Fin.ext (by simp only [f3, Fin.val_ofNat]; omega)
    simp only [need, e0, e1]
    (repeat rw [if_pos (by (try simp only [mflag1, mflag0, mflag1na, mflag0na, vj, only7, code03, jetOnly, dstOk, unguarded, Bool.and_eq_true, Bool.or_eq_true, beq_iff_eq, decide_eq_true_eq, Bool.not_eq_true', beq_eq_false_iff_ne, bne_iff_ne, ne_eq]); (try simp only [mdata, mimm, mbase, vcode, vdst, va, vb]); omega)])

theorem uzero (f : U2) : Statement (.uzero f) :=
  of_micro 6 _ rfl (by obtain ⟨ra, rb⟩ := f; have h_ra := ra.isLt; have h_rb := rb.isLt; simp only [encU2]; omega) (by omega) fun _ w hw hq => by
    have hr : decodeMicroRaw w = need (w / 2^32 % 2^11 == 0) .reserved (need (w % 2^52 == 0) .reserved (.ok (.uzero ⟨f3 w 55, f3 w 52⟩))) := by unfold decodeMicroRaw; rw [hq]; rfl
    rw [hr]
    obtain ⟨ra, rb⟩ := f
    have h_ra := ra.isLt; have h_rb := rb.isLt
    simp only [encU2] at hw
    have e0 : f3 w 55 = ra := Fin.ext (by simp only [f3, Fin.val_ofNat]; omega)
    have e1 : f3 w 52 = rb := Fin.ext (by simp only [f3, Fin.val_ofNat]; omega)
    simp only [need, e0, e1]
    (repeat rw [if_pos (by (try simp only [mflag1, mflag0, mflag1na, mflag0na, vj, only7, code03, jetOnly, dstOk, unguarded, Bool.and_eq_true, Bool.or_eq_true, beq_iff_eq, decide_eq_true_eq, Bool.not_eq_true', beq_eq_false_iff_ne, bne_iff_ne, ne_eq]); (try simp only [mdata, mimm, mbase, vcode, vdst, va, vb]); omega)])

theorem umovi (f : UMoviF) : Statement (.umovi f) :=
  of_micro 7 _ rfl (by obtain ⟨ra, imm⟩ := f; have h_ra := ra.isLt; have h_imm := imm.isLt; simp only [encUMoviF]; omega) (by omega) fun _ w hw hq => by
    have hr : decodeMicroRaw w = need (w / 2^32 % 2^11 == 0) .reserved (need (w / 2^43 % 2^12 == 0) .reserved (.ok (.umovi ⟨f3 w 55, BitVec.ofNat 32 w⟩))) := by unfold decodeMicroRaw; rw [hq]; rfl
    rw [hr]
    obtain ⟨ra, imm⟩ := f
    have h_ra := ra.isLt; have h_imm := imm.isLt
    simp only [encUMoviF] at hw
    have e0 : f3 w 55 = ra := Fin.ext (by simp only [f3, Fin.val_ofNat]; omega)
    have e1 : BitVec.ofNat 32 w = imm := BitVec.eq_of_toNat_eq (by simp only [BitVec.toNat_ofNat]; omega)
    simp only [need, e0, e1]
    (repeat rw [if_pos (by (try simp only [mflag1, mflag0, mflag1na, mflag0na, vj, only7, code03, jetOnly, dstOk, unguarded, Bool.and_eq_true, Bool.or_eq_true, beq_iff_eq, decide_eq_true_eq, Bool.not_eq_true', beq_eq_false_iff_ne, bne_iff_ne, ne_eq]); (try simp only [mdata, mimm, mbase, vcode, vdst, va, vb]); omega)])

theorem submit : Statement .submit := of_none rfl

theorem releaseCommand : Statement .releaseCommand := of_none rfl

theorem nopCommand : Statement .nopCommand := of_none rfl

theorem qcfgWrite : Statement .qcfgWrite := of_none rfl

theorem qtailWrite : Statement .qtailWrite := of_none rfl

theorem ringEntryRead : Statement .ringEntryRead := of_none rfl

theorem firmwareRingEntry : Statement .firmwareRingEntry := of_none rfl

theorem packetMatch : Statement .packetMatch := of_none rfl

theorem networkRelease : Statement .networkRelease := of_none rfl

theorem taskReleaseTime : Statement .taskReleaseTime := of_none rfl

theorem passDispatch : Statement .passDispatch := of_none rfl

theorem dictionaryCopy : Statement .dictionaryCopy := of_none rfl

theorem preemptRequestArrive : Statement .preemptRequestArrive := of_none rfl

theorem deadlineExpiry : Statement .deadlineExpiry := of_none rfl

theorem budgetOverrun : Statement .budgetOverrun := of_none rfl

theorem mirrorMarginExpiry : Statement .mirrorMarginExpiry := of_none rfl

theorem chunkSend : Statement .chunkSend := of_none rfl

theorem tretireWrite : Statement .tretireWrite := of_none rfl

theorem tadjWrite : Statement .tadjWrite := of_none rfl

theorem tsetWrite : Statement .tsetWrite := of_none rfl

theorem dlctlWrite : Statement .dlctlWrite := of_none rfl

theorem taskRangeWrite : Statement .taskRangeWrite := of_none rfl

theorem rownWrite : Statement .rownWrite := of_none rfl

theorem cplaceWrite : Statement .cplaceWrite := of_none rfl

theorem l2srWrite : Statement .l2srWrite := of_none rfl

theorem l2srChangeDone : Statement .l2srChangeDone := of_none rfl

theorem cgplaceWrite : Statement .cgplaceWrite := of_none rfl

theorem registerWrite : Statement .registerWrite := of_none rfl

theorem bundleIssue : Statement .bundleIssue := of_none rfl

theorem stallEnd : Statement .stallEnd := of_none rfl

theorem fetchLineArrive : Statement .fetchLineArrive := of_none rfl

theorem kernelEndRetire : Statement .kernelEndRetire := of_none rfl

theorem completionSignalWrite : Statement .completionSignalWrite := of_none rfl

theorem cqcfgWrite : Statement .cqcfgWrite := of_none rfl

theorem cqCoalesceTimer : Statement .cqCoalesceTimer := of_none rfl

theorem heldOpEnter : Statement .heldOpEnter := of_none rfl

theorem loadComplete : Statement .loadComplete := of_none rfl

theorem storePerform : Statement .storePerform := of_none rfl

theorem lineMerge : Statement .lineMerge := of_none rfl

theorem atomicComplete : Statement .atomicComplete := of_none rfl

theorem migrComplete : Statement .migrComplete := of_none rfl

theorem streamDescriptorArrive : Statement .streamDescriptorArrive := of_none rfl

theorem streamElementArrive : Statement .streamElementArrive := of_none rfl

theorem streamElementStore : Statement .streamElementStore := of_none rfl

theorem copyCommandComplete : Statement .copyCommandComplete := of_none rfl

theorem engineOpComplete : Statement .engineOpComplete := of_none rfl

theorem enCommandComplete : Statement .enCommandComplete := of_none rfl

theorem nsendComplete : Statement .nsendComplete := of_none rfl

theorem messageDelivery : Statement .messageDelivery := of_none rfl

theorem ncollContribution : Statement .ncollContribution := of_none rfl

theorem ncollComplete : Statement .ncollComplete := of_none rfl

theorem connectionAbandon : Statement .connectionAbandon := of_none rfl

theorem mtlbWalk : Statement .mtlbWalk := of_none rfl

theorem pagePullComplete : Statement .pagePullComplete := of_none rfl

theorem pagePullFail : Statement .pagePullFail := of_none rfl

theorem atsTranslationCompletion : Statement .atsTranslationCompletion := of_none rfl

theorem prgResponse : Statement .prgResponse := of_none rfl

theorem atsInvalidationRequest : Statement .atsInvalidationRequest := of_none rfl

theorem atsInvalidationCompletion : Statement .atsInvalidationCompletion := of_none rfl

theorem peerRequest : Statement .peerRequest := of_none rfl

theorem shootdown : Statement .shootdown := of_none rfl

theorem shootdownAck : Statement .shootdownAck := of_none rfl

theorem shootdownFenceTimeout : Statement .shootdownFenceTimeout := of_none rfl

theorem pfenceWrite : Statement .pfenceWrite := of_none rfl

theorem frameAssign : Statement .frameAssign := of_none rfl

theorem frameRelease : Statement .frameRelease := of_none rfl

theorem frameScrub : Statement .frameScrub := of_none rfl

theorem frameQuery : Statement .frameQuery := of_none rfl

theorem scrubComplete : Statement .scrubComplete := of_none rfl

theorem fmwctlWrite : Statement .fmwctlWrite := of_none rfl

theorem fmwDiscardDone : Statement .fmwDiscardDone := of_none rfl

theorem serialiseReceive : Statement .serialiseReceive := of_none rfl

theorem fenceFarDone : Statement .fenceFarDone := of_none rfl

theorem barrierRelease : Statement .barrierRelease := of_none rfl

theorem superstepRelease : Statement .superstepRelease := of_none rfl

theorem stopDrainComplete : Statement .stopDrainComplete := of_none rfl

theorem saveComplete : Statement .saveComplete := of_none rfl

theorem saveDrainTimeout : Statement .saveDrainTimeout := of_none rfl

theorem restoreComplete : Statement .restoreComplete := of_none rfl

theorem tractResume : Statement .tractResume := of_none rfl

theorem tractAbort : Statement .tractAbort := of_none rfl

theorem functionLevelReset : Statement .functionLevelReset := of_none rfl

theorem errorDetected : Statement .errorDetected := of_none rfl

theorem dieLost : Statement .dieLost := of_none rfl

theorem migrationRound : Statement .migrationRound := of_none rfl

theorem migrationStop : Statement .migrationStop := of_none rfl

theorem migrationExport : Statement .migrationExport := of_none rfl

theorem migrationImport : Statement .migrationImport := of_none rfl

theorem migrationResume : Statement .migrationResume := of_none rfl

theorem svcbaseWrite : Statement .svcbaseWrite := of_none rfl

theorem kvpctlWrite : Statement .kvpctlWrite := of_none rfl

theorem powerGood : Statement .powerGood := of_none rfl

theorem unitReady : Statement .unitReady := of_none rfl

theorem configRequest : Statement .configRequest := of_none rfl

theorem vfEnable : Statement .vfEnable := of_none rfl

theorem svncommitWrite : Statement .svncommitWrite := of_none rfl

theorem getVersion : Statement .getVersion := of_none rfl

theorem getCapabilities : Statement .getCapabilities := of_none rfl

theorem negotiateAlgorithms : Statement .negotiateAlgorithms := of_none rfl

theorem getDigests : Statement .getDigests := of_none rfl

theorem getCertificate : Statement .getCertificate := of_none rfl

theorem challenge : Statement .challenge := of_none rfl

theorem getMeasurements : Statement .getMeasurements := of_none rfl

theorem keyExchange : Statement .keyExchange := of_none rfl

theorem pskExchange : Statement .pskExchange := of_none rfl

theorem cpHeartbeat : Statement .cpHeartbeat := of_none rfl

theorem watchdogExpiry : Statement .watchdogExpiry := of_none rfl

theorem temperatureWarn : Statement .temperatureWarn := of_none rfl

theorem dieTrip : Statement .dieTrip := of_none rfl

theorem tripclrWrite : Statement .tripclrWrite := of_none rfl

theorem tempThresholdWrite : Statement .tempThresholdWrite := of_none rfl

theorem peerShootdownReceive : Statement .peerShootdownReceive := of_none rfl

theorem functionLevelResetEnd : Statement .functionLevelResetEnd := of_none rfl

end Sys2Proof.Laws.Encode
end

