-- ==== Sys2Proof/Tests/Slice0.lean ====
section
/-! SUPPORT. Tests: ill-formed terms that the check refuses, words written out from the encoding tables of 05 with what they decode to, single steps on small states, and
for each statement a state that meets its hypotheses. -/

set_option Elab.async false

namespace Sys2Proof.Tests

open Sys2Proof Sys2Proof.Machine

/-! ## Words (05 R86 to R96, 13 R268): every slot form, each field holding a number of its own -/

/-- The word decodes to the instruction. -/
def reads (k : SlotKind) (w : Nat) (i : Instr) : Bool := decide ((decode k w).toOption = some i)

theorem test_decode_scalar_register_rows : [
    reads .scalar 0x017565E400 (.add ⟨⟨3, true⟩, 21, .q 5, .g 9⟩),
    reads .scalar 0x027565E400 (.sub ⟨⟨3, true⟩, 21, .q 5, .g 9⟩),
    reads .scalar 0x037565E400 (.and ⟨⟨3, true⟩, 21, .q 5, .g 9⟩),
    reads .scalar 0x047565E400 (.or ⟨⟨3, true⟩, 21, .q 5, .g 9⟩),
    reads .scalar 0x057565E400 (.xor ⟨⟨3, true⟩, 21, .q 5, .g 9⟩),
    reads .scalar 0x067565E400 (.andn ⟨⟨3, true⟩, 21, .q 5, .g 9⟩),
    reads .scalar 0x077565E400 (.shl ⟨⟨3, true⟩, 21, .q 5, .g 9⟩),
    reads .scalar 0x087565E400 (.shr ⟨⟨3, true⟩, 21, .q 5, .g 9⟩),
    reads .scalar 0x097565E400 (.sar ⟨⟨3, true⟩, 21, .q 5, .g 9⟩),
    reads .scalar 0x0A7565E400 (.rol ⟨⟨3, true⟩, 21, .q 5, .g 9⟩),
    reads .scalar 0x0B7565E400 (.min ⟨⟨3, true⟩, 21, .q 5, .g 9⟩),
    reads .scalar 0x0C7565E400 (.max ⟨⟨3, true⟩, 21, .q 5, .g 9⟩),
    reads .scalar 0x0D7565E400 (.minu ⟨⟨3, true⟩, 21, .q 5, .g 9⟩),
    reads .scalar 0x0E7565E400 (.maxu ⟨⟨3, true⟩, 21, .q 5, .g 9⟩),
    reads .scalar 0x0F7565E400 (.mul ⟨⟨3, true⟩, 21, .q 5, .g 9⟩),
    reads .scalar 0x107565E400 (.mulh ⟨⟨3, true⟩, 21, .q 5, .g 9⟩),
    reads .scalar 0x117565E400 (.mulhu ⟨⟨3, true⟩, 21, .q 5, .g 9⟩),
    reads .scalar 0x127565E400 (.div ⟨⟨3, true⟩, 21, .q 5, .g 9⟩),
    reads .scalar 0x137565E400 (.divu ⟨⟨3, true⟩, 21, .q 5, .g 9⟩),
    reads .scalar 0x147565E400 (.rem ⟨⟨3, true⟩, 21, .q 5, .g 9⟩),
    reads .scalar 0x157565E400 (.remu ⟨⟨3, true⟩, 21, .q 5, .g 9⟩),
    reads .scalar 0x167565E400 (.sel ⟨⟨3, true⟩, 21, .q 5, .g 9⟩)].all id = true := by decide

theorem test_decode_bit_fields_counts_and_moves : [
    reads .scalar 0x187565051E (.bfx ⟨⟨3, true⟩, 21, .q 5, 5, 30⟩),
    reads .scalar 0x197565051E (.bfxu ⟨⟨3, true⟩, 21, .q 5, 5, 30⟩),
    reads .scalar 0x1A7565051E (.bfi ⟨⟨3, true⟩, 21, .q 5, 5, 30⟩),
    reads .scalar 0x1B75650000 (.clz ⟨⟨3, true⟩, 21, .q 5⟩),
    reads .scalar 0x1C75650000 (.ctz ⟨⟨3, true⟩, 21, .q 5⟩),
    reads .scalar 0x1D75650000 (.popc ⟨⟨3, true⟩, 21, .q 5⟩),
    reads .scalar 0x1E75650000 (.brev ⟨⟨3, true⟩, 21, .q 5⟩),
    reads .scalar 0x507540BEEF (.movi ⟨⟨3, true⟩, 21, 0xBEEF⟩),
    reads .scalar 0x517542BEEF (.movk ⟨⟨3, true⟩, 21, 2, 0xBEEF⟩),
    reads .scalar 0x6275400004 (.widf ⟨⟨3, true⟩, 21, 4⟩)].all id = true := by decide

theorem test_decode_compares_and_predicates : [
    reads .scalar 0x207165E400 (.cmpeq ⟨⟨3, true⟩, 5, .q 5, .g 9⟩),
    reads .scalar 0x307165BEEF (.cmpeqi ⟨⟨3, true⟩, 5, .q 5, 0xBEEF⟩),
    reads .scalar 0x217165E400 (.cmpne ⟨⟨3, true⟩, 5, .q 5, .g 9⟩),
    reads .scalar 0x317165BEEF (.cmpnei ⟨⟨3, true⟩, 5, .q 5, 0xBEEF⟩),
    reads .scalar 0x227165E400 (.cmplt ⟨⟨3, true⟩, 5, .q 5, .g 9⟩),
    reads .scalar 0x327165BEEF (.cmplti ⟨⟨3, true⟩, 5, .q 5, 0xBEEF⟩),
    reads .scalar 0x237165E400 (.cmple ⟨⟨3, true⟩, 5, .q 5, .g 9⟩),
    reads .scalar 0x337165BEEF (.cmplei ⟨⟨3, true⟩, 5, .q 5, 0xBEEF⟩),
    reads .scalar 0x247165E400 (.cmpltu ⟨⟨3, true⟩, 5, .q 5, .g 9⟩),
    reads .scalar 0x347165BEEF (.cmpltui ⟨⟨3, true⟩, 5, .q 5, 0xBEEF⟩),
    reads .scalar 0x257165E400 (.cmpleu ⟨⟨3, true⟩, 5, .q 5, .g 9⟩),
    reads .scalar 0x357165BEEF (.cmpleui ⟨⟨3, true⟩, 5, .q 5, 0xBEEF⟩),
    reads .scalar 0x2671460800 (.pand ⟨⟨3, true⟩, 5, 6, 2⟩),
    reads .scalar 0x2771460800 (.por ⟨⟨3, true⟩, 5, 6, 2⟩),
    reads .scalar 0x2871460800 (.pxor ⟨⟨3, true⟩, 5, 6, 2⟩)].all id = true := by decide

theorem test_decode_immediate_rows : [
    reads .scalar 0x417565BEEF (.addi ⟨⟨3, true⟩, 21, .q 5, 0xBEEF⟩),
    reads .scalar 0x427565BEEF (.subi ⟨⟨3, true⟩, 21, .q 5, 0xBEEF⟩),
    reads .scalar 0x437565BEEF (.andi ⟨⟨3, true⟩, 21, .q 5, 0xBEEF⟩),
    reads .scalar 0x447565BEEF (.ori ⟨⟨3, true⟩, 21, .q 5, 0xBEEF⟩),
    reads .scalar 0x457565BEEF (.xori ⟨⟨3, true⟩, 21, .q 5, 0xBEEF⟩),
    reads .scalar 0x4B7565BEEF (.mini ⟨⟨3, true⟩, 21, .q 5, 0xBEEF⟩),
    reads .scalar 0x4C7565BEEF (.maxi ⟨⟨3, true⟩, 21, .q 5, 0xBEEF⟩),
    reads .scalar 0x4F7565BEEF (.muli ⟨⟨3, true⟩, 21, .q 5, 0xBEEF⟩),
    reads .scalar 0x4775650021 (.shli ⟨⟨3, true⟩, 21, .q 5, 33⟩),
    reads .scalar 0x4875650021 (.shri ⟨⟨3, true⟩, 21, .q 5, 33⟩),
    reads .scalar 0x4975650021 (.sari ⟨⟨3, true⟩, 21, .q 5, 33⟩)].all id = true := by decide

theorem test_decode_special_registers : [
    reads .scalar 0x6075400000 (.mfs ⟨⟨3, true⟩, 21, .flg⟩),
    reads .scalar 0x6075400001 (.mfs ⟨⟨3, true⟩, 21, .rnd⟩),
    reads .scalar 0x6075400002 (.mfs ⟨⟨3, true⟩, 21, .jord⟩),
    reads .scalar 0x6075400003 (.mfs ⟨⟨3, true⟩, 21, .jflg⟩),
    reads .scalar 0x6075400004 (.mfs ⟨⟨3, true⟩, 21, .vwb⟩),
    reads .scalar 0x6075400005 (.mfs ⟨⟨3, true⟩, 21, .cmk⟩),
    reads .scalar 0x6075400008 (.mfs ⟨⟨3, true⟩, 21, .wid⟩),
    reads .scalar 0x6075400009 (.mfs ⟨⟨3, true⟩, 21, .bead⟩),
    reads .scalar 0x607540000A (.mfs ⟨⟨3, true⟩, 21, .rodid⟩),
    reads .scalar 0x607540000B (.mfs ⟨⟨3, true⟩, 21, .skew⟩),
    reads .scalar 0x6075400010 (.mfs ⟨⟨3, true⟩, 21, .pword⟩),
    reads .scalar 0x6075400011 (.mfs ⟨⟨3, true⟩, 21, .svm⟩),
    reads .scalar 0x6075400012 (.mfs ⟨⟨3, true⟩, 21, .det⟩),
    reads .scalar 0x6075400014 (.mfs ⟨⟨3, true⟩, 21, .dl⟩),
    reads .scalar 0x6075400015 (.mfs ⟨⟨3, true⟩, 21, .occ⟩),
    reads .scalar 0x6075400016 (.mfs ⟨⟨3, true⟩, 21, .dlen⟩),
    reads .scalar 0x6075400018 (.mfs ⟨⟨3, true⟩, 21, .tick⟩),
    reads .scalar 0x6075400019 (.mfs ⟨⟨3, true⟩, 21, .time⟩),
    reads .scalar 0x607540001A (.mfs ⟨⟨3, true⟩, 21, .slip⟩),
    reads .scalar 0x6075400025 (.mfs ⟨⟨3, true⟩, 21, (.blc 5)⟩),
    reads .scalar 0x6075400030 (.mfs ⟨⟨3, true⟩, 21, .mprec⟩),
    reads .scalar 0x607540004B (.mfs ⟨⟨3, true⟩, 21, (.gang 11)⟩),
    reads .scalar 0x6170250000 (.mts ⟨⟨3, true⟩, .q 5, .flg⟩),
    reads .scalar 0x6170250001 (.mts ⟨⟨3, true⟩, .q 5, .rnd⟩),
    reads .scalar 0x6170250002 (.mts ⟨⟨3, true⟩, .q 5, .jord⟩),
    reads .scalar 0x6170250003 (.mts ⟨⟨3, true⟩, .q 5, .jflg⟩),
    reads .scalar 0x6170250004 (.mts ⟨⟨3, true⟩, .q 5, .vwb⟩),
    reads .scalar 0x6170250005 (.mts ⟨⟨3, true⟩, .q 5, .cmk⟩),
    reads .scalar 0x6170250015 (.mts ⟨⟨3, true⟩, .q 5, .occ⟩),
    reads .scalar 0x6170250016 (.mts ⟨⟨3, true⟩, .q 5, .dlen⟩),
    reads .scalar 0x617025004B (.mts ⟨⟨3, true⟩, .q 5, (.gang 11)⟩)].all id = true := by decide

theorem test_decode_sequencer_control : [
    reads .scalar 0x800000BEEF (.br 0xBEEF),
    reads .scalar 0x817000BEEF (.brany ⟨⟨3, true⟩, 0xBEEF⟩),
    reads .scalar 0x827000BEEF (.brall ⟨⟨3, true⟩, 0xBEEF⟩),
    reads .scalar 0x830039BEEF (.brgz ⟨9, 0xBEEF⟩),
    reads .scalar 0x840039BEEF (.brgnz ⟨9, 0xBEEF⟩),
    reads .scalar 0x850E40BEEF (.call ⟨9, 0xBEEF⟩),
    reads .scalar 0x8600390000 (.ret 9),
    reads .scalar 0x8800650000 (.loop ⟨true, .q 5⟩),
    reads .scalar 0x890040BEEF (.loopi ⟨true, 0xBEEF⟩),
    reads .scalar 0x8A70000000 (.lbrk ⟨3, true⟩),
    reads .scalar 0x8B05400004 (.lidx ⟨21, 4⟩),
    reads .scalar 0x8C01234560 (.wait ⟨1, 2, 3, 4, 5, 6⟩),
    reads .scalar 0x8D00000000 (.schsel),
    reads .scalar 0x8E00000000 (.endK),
    reads .scalar 0x0000000000 (.nop),
    reads .scalar 0x907000BEEF (.trap ⟨⟨3, true⟩, 0xBEEF⟩),
    reads .scalar 0x9170000000 (.brk ⟨3, true⟩),
    reads .scalar 0x927000BEEF (.svc ⟨⟨3, true⟩, 0xBEEF⟩),
    reads .scalar 0x9370250000 (.savem ⟨⟨3, true⟩, .q 5⟩),
    reads .scalar 0x947000000D (.slack ⟨⟨3, true⟩, 13⟩)].all id = true := by decide

theorem test_decode_vector_rows : [
    reads .vector 0x00DD91DBEE (.vadd ⟨6, .i8, false, .v 200, .z 5, .vq 7⟩),
    reads .vector 0x013D91DBEE (.vsub ⟨6, .i32, false, .v 200, .z 5, .vq 7⟩),
    reads .vector 0x019D91DBEE (.vmul ⟨6, .bf16, false, .v 200, .z 5, .vq 7⟩),
    reads .vector 0x022D91DBEE (.vfma ⟨6, .f16, false, .v 200, .z 5, .vq 7⟩),
    reads .vector 0x029D91DBEE (.vfnma ⟨6, .bf16, false, .v 200, .z 5, .vq 7⟩),
    reads .vector 0x036D91DBEE (.vmin ⟨6, .u32, false, .v 200, .z 5, .vq 7⟩),
    reads .vector 0x03CD91DBEE (.vmax ⟨6, .i16, false, .v 200, .z 5, .vq 7⟩),
    reads .vector 0x08BD91DBEE (.vshl ⟨6, .i32, false, .v 200, .z 5, .vq 7⟩),
    reads .vector 0x094D91DBEE (.vshr ⟨6, .i16, false, .v 200, .z 5, .vq 7⟩),
    reads .vector 0x09DD91DBEE (.vsar ⟨6, .i8, false, .v 200, .z 5, .vq 7⟩),
    reads .vector 0x13BD91DBEE (.vclamp ⟨6, .i32, false, .v 200, .z 5, .vq 7⟩),
    reads .vector 0x077D91DBEE (.vsel ⟨6, .b32, false, .v 200, .z 5, .vq 7⟩),
    reads .vector 0x008D90C865 (.vadd ⟨6, .f32, true, .v 200, .v 100, .v 50⟩),
    reads .vector 0x010D90C865 (.vsub ⟨6, .f32, true, .v 200, .v 100, .v 50⟩),
    reads .vector 0x018D90C865 (.vmul ⟨6, .f32, true, .v 200, .v 100, .v 50⟩),
    reads .vector 0x020D90C865 (.vfma ⟨6, .f32, true, .v 200, .v 100, .v 50⟩),
    reads .vector 0x028D90C865 (.vfnma ⟨6, .f32, true, .v 200, .v 100, .v 50⟩),
    reads .vector 0x030D90C865 (.vmin ⟨6, .f32, true, .v 200, .v 100, .v 50⟩),
    reads .vector 0x038D90C865 (.vmax ⟨6, .f32, true, .v 200, .v 100, .v 50⟩),
    reads .vector 0x077D90C865 (.vsel ⟨6, .b32, true, .v 200, .v 100, .v 50⟩),
    reads .vector 0x045DD3EE00 (.vabs ⟨6, .i8, false, .z 1, .vq 7⟩),
    reads .vector 0x04BDD3EE00 (.vneg ⟨6, .i32, false, .z 1, .vq 7⟩),
    reads .vector 0x07FDD3EE00 (.vmov ⟨6, .b32, false, .z 1, .vq 7⟩),
    reads .vector 0x040D90C801 (.vabs ⟨6, .f32, true, .v 200, .v 100⟩),
    reads .vector 0x048D90C801 (.vneg ⟨6, .f32, true, .v 200, .v 100⟩),
    reads .vector 0x07FD90C801 (.vmov ⟨6, .b32, true, .v 200, .v 100⟩),
    reads .vector 0x050C0BDA64 (.vcmpeq ⟨6, .f32, 5, .z 5, .v 50⟩),
    reads .vector 0x05DC0BDA64 (.vcmpne ⟨6, .i8, 5, .z 5, .v 50⟩),
    reads .vector 0x066C0BDA64 (.vcmplt ⟨6, .u32, 5, .z 5, .v 50⟩),
    reads .vector 0x069C0BDA64 (.vcmple ⟨6, .bf16, 5, .z 5, .v 50⟩)].all id = true := by decide

theorem test_decode_vector_bits_and_conversions : [
    reads .vector 0x080D90C864 (.vlogic ⟨6, .and, .v 200, .v 100, .v 50⟩),
    reads .vector 0x081D90C864 (.vlogic ⟨6, .or, .v 200, .v 100, .v 50⟩),
    reads .vector 0x082D90C864 (.vlogic ⟨6, .xor, .v 200, .v 100, .v 50⟩),
    reads .vector 0x083D90C864 (.vlogic ⟨6, .andn, .v 200, .v 100, .v 50⟩),
    reads .vector 0x084D90C800 (.vlogic ⟨6, .not, .v 200, .v 100, .v 0⟩),
    reads .vector 0x0A0D90C800 (.vcvt ⟨6, .f32i32, .v 200, .v 100⟩),
    reads .vector 0x0A1D90C800 (.vcvt ⟨6, .i32f32, .v 200, .v 100⟩),
    reads .vector 0x0A2D90C800 (.vcvt ⟨6, .f32bf16, .v 200, .v 100⟩),
    reads .vector 0x0A3D90C800 (.vcvt ⟨6, .f32f16, .v 200, .v 100⟩),
    reads .vector 0x0A4D90C800 (.vcvt ⟨6, .bf16f32, .v 200, .v 100⟩),
    reads .vector 0x0A5D90C800 (.vcvt ⟨6, .f16f32, .v 200, .v 100⟩),
    reads .vector 0x0A6D90C800 (.vcvt ⟨6, .f32u32, .v 200, .v 100⟩),
    reads .vector 0x0A7D90C800 (.vcvt ⟨6, .u32f32, .v 200, .v 100⟩),
    reads .vector 0x0A8D90C800 (.vcvtn ⟨6, .e4m3, .v 200, .v 100⟩),
    reads .vector 0x0B0D90C800 (.vcvtw ⟨6, .e4m3, .v 200, .v 100⟩),
    reads .vector 0x0A9D90C800 (.vcvtn ⟨6, .e5m2, .v 200, .v 100⟩),
    reads .vector 0x0B1D90C800 (.vcvtw ⟨6, .e5m2, .v 200, .v 100⟩),
    reads .vector 0x0AAD90C800 (.vcvtn ⟨6, .e3m2, .v 200, .v 100⟩),
    reads .vector 0x0B2D90C800 (.vcvtw ⟨6, .e3m2, .v 200, .v 100⟩),
    reads .vector 0x0ABD90C800 (.vcvtn ⟨6, .e2m3, .v 200, .v 100⟩),
    reads .vector 0x0B3D90C800 (.vcvtw ⟨6, .e2m3, .v 200, .v 100⟩),
    reads .vector 0x0ACD90C800 (.vcvtn ⟨6, .e2m1, .v 200, .v 100⟩),
    reads .vector 0x0B4D90C800 (.vcvtw ⟨6, .e2m1, .v 200, .v 100⟩),
    reads .vector 0x0B8D90C864 (.vpack ⟨6, .i32i16, .v 200, .v 100, .v 50⟩),
    reads .vector 0x0B9D90C864 (.vpack ⟨6, .i32i8, .v 200, .v 100, .v 50⟩),
    reads .vector 0x0BAD90C864 (.vpack ⟨6, .i16i8, .v 200, .v 100, .v 50⟩),
    reads .vector 0x0BBD90C864 (.vpack ⟨6, .f32bf16, .v 200, .v 100, .v 50⟩),
    reads .vector 0x0BCD90C864 (.vpack ⟨6, .f32f16, .v 200, .v 100, .v 50⟩),
    reads .vector 0x0C0D90C800 (.vunpkl ⟨6, .i16, .v 200, .v 100⟩),
    reads .vector 0x0C1D90C800 (.vunpkl ⟨6, .i8 false, .v 200, .v 100⟩),
    reads .vector 0x0C1D90C802 (.vunpkl ⟨6, .i8 true, .v 200, .v 100⟩),
    reads .vector 0x0C2D90C800 (.vunpkl ⟨6, .bf16, .v 200, .v 100⟩),
    reads .vector 0x0C3D90C800 (.vunpkl ⟨6, .f16, .v 200, .v 100⟩),
    reads .vector 0x0C8D90C800 (.vunpkh ⟨6, .i16, .v 200, .v 100⟩),
    reads .vector 0x0C9D90C800 (.vunpkh ⟨6, .i8 false, .v 200, .v 100⟩),
    reads .vector 0x0C9D90C802 (.vunpkh ⟨6, .i8 true, .v 200, .v 100⟩),
    reads .vector 0x0CAD90C800 (.vunpkh ⟨6, .bf16, .v 200, .v 100⟩),
    reads .vector 0x0CBD90C800 (.vunpkh ⟨6, .f16, .v 200, .v 100⟩)].all id = true := by decide

theorem test_decode_lane_movement_and_reductions : [
    reads .vector 0x0D7D904A00 (.vbcst ⟨6, .v 200, .q 5⟩),
    reads .vector 0x0DF02AC89A (.vext ⟨21, .v 100, 77⟩),
    reads .vector 0x0E71904A9A (.vins ⟨200, .q 5, 77⟩),
    reads .vector 0x0EFD90C864 (.vperm ⟨6, .v 200, .v 100, .v 50⟩),
    reads .vector 0x0F7D90C864 (.vxcopy ⟨6, .v 200, .v 100, .v 50⟩),
    reads .vector 0x0F8D90C800 (.vred ⟨6, .addf32, .v 200, .v 100⟩),
    reads .vector 0x100D90C800 (.vxred ⟨6, .addf32, .v 200, .v 100⟩),
    reads .vector 0x108D90C800 (.vscan ⟨6, .addf32, .v 200, .v 100⟩),
    reads .vector 0x0F9D90C800 (.vred ⟨6, .maxf32, .v 200, .v 100⟩),
    reads .vector 0x101D90C800 (.vxred ⟨6, .maxf32, .v 200, .v 100⟩),
    reads .vector 0x109D90C800 (.vscan ⟨6, .maxf32, .v 200, .v 100⟩),
    reads .vector 0x0FAD90C800 (.vred ⟨6, .minf32, .v 200, .v 100⟩),
    reads .vector 0x102D90C800 (.vxred ⟨6, .minf32, .v 200, .v 100⟩),
    reads .vector 0x0FBD90C800 (.vred ⟨6, .addi32, .v 200, .v 100⟩),
    reads .vector 0x103D90C800 (.vxred ⟨6, .addi32, .v 200, .v 100⟩),
    reads .vector 0x10BD90C800 (.vscan ⟨6, .addi32, .v 200, .v 100⟩),
    reads .vector 0x0FCD90C800 (.vred ⟨6, .maxi32, .v 200, .v 100⟩),
    reads .vector 0x104D90C800 (.vxred ⟨6, .maxi32, .v 200, .v 100⟩),
    reads .vector 0x10CD90C800 (.vscan ⟨6, .maxi32, .v 200, .v 100⟩),
    reads .vector 0x0FDD90C800 (.vred ⟨6, .mini32, .v 200, .v 100⟩),
    reads .vector 0x105D90C800 (.vxred ⟨6, .mini32, .v 200, .v 100⟩),
    reads .vector 0x113D90C864 (.vhist ⟨6, 200, .v 100, .v 50⟩),
    reads .vector 0x11BD90C000 (.vbmrg ⟨6, .v 200, 96⟩),
    reads .vector 0x120190C9A6 (.vbcx ⟨false, 200, 100, 3, 6, true⟩),
    reads .vector 0x128190C8CA (.vbcxx ⟨false, 200, 100, 5, 7, false⟩),
    reads .vector 0x130D90C864 (.vargmax ⟨6, false, 200, .v 100, .v 50⟩),
    reads .vector 0x123190C9A6 (.vbcx ⟨true, 200, 100, 3, 6, true⟩),
    reads .vector 0x12B190C8CA (.vbcxx ⟨true, 200, 100, 5, 7, false⟩),
    reads .vector 0x133D90C864 (.vargmax ⟨6, true, 200, .v 100, .v 50⟩)].all id = true := by decide

theorem test_decode_jet_rows : [
    reads .vector 0x180D90C865 (.jseed ⟨6, 200, 100, 50⟩),
    reads .vector 0x188D90C801 (.jconst ⟨6, 200, 100⟩),
    reads .vector 0x190D92C80B (.jget ⟨6, 201, 100, 5⟩),
    reads .vector 0x198D90CA0B (.jput ⟨6, 200, 101, 5⟩),
    reads .vector 0x1A0D90C803 (.jder ⟨6, 200, 100, true⟩),
    reads .vector 0x1A8D90C907 (.jshift ⟨6, 200, 100, true, 3⟩),
    reads .vector 0x1B0D90C867 (.jscale ⟨6, 200, 100, 51⟩),
    reads .vector 0x1B8D90C871 (.jdiv ⟨6, 200, 100, 56⟩),
    reads .vector 0x1C0D90C9FB (.jpowi ⟨6, 200, 100, 0xFD⟩),
    reads .vector 0x1C80004A01 (.jflagClear (.q 5)),
    reads .vector 0x1C91920001 (.jflagGet 201)].all id = true := by decide

theorem test_decode_special_function_slot : [
    reads .special 0x07647699 (.rcp ⟨6, .bf16, 2, .rne, false, .v 200, .z 5⟩),
    reads .special 0x07643244 (.rcp ⟨6, .f32, 1, .dyn, true, .v 200, .v 100⟩),
    reads .special 0x0B6476A6 (.rsq ⟨6, .f16, 1, .rtz, false, .v 200, .z 5⟩),
    reads .special 0x0B643244 (.rsq ⟨6, .f32, 1, .dyn, true, .v 200, .v 100⟩),
    reads .special 0x0F647680 (.sqrt ⟨6, .f32, 0, .dyn, false, .v 200, .z 5⟩),
    reads .special 0x0F643244 (.sqrt ⟨6, .f32, 1, .dyn, true, .v 200, .v 100⟩),
    reads .special 0x13647699 (.exp2 ⟨6, .bf16, 2, .rne, false, .v 200, .z 5⟩),
    reads .special 0x13643244 (.exp2 ⟨6, .f32, 1, .dyn, true, .v 200, .v 100⟩),
    reads .special 0x176476A6 (.log2 ⟨6, .f16, 1, .rtz, false, .v 200, .z 5⟩),
    reads .special 0x17643244 (.log2 ⟨6, .f32, 1, .dyn, true, .v 200, .v 100⟩),
    reads .special 0x1B647680 (.exp ⟨6, .f32, 0, .dyn, false, .v 200, .z 5⟩),
    reads .special 0x1B643244 (.exp ⟨6, .f32, 1, .dyn, true, .v 200, .v 100⟩),
    reads .special 0x1F647699 (.log ⟨6, .bf16, 2, .rne, false, .v 200, .z 5⟩),
    reads .special 0x1F643244 (.log ⟨6, .f32, 1, .dyn, true, .v 200, .v 100⟩),
    reads .special 0x236476A6 (.sin ⟨6, .f16, 1, .rtz, false, .v 200, .z 5⟩),
    reads .special 0x23643244 (.sin ⟨6, .f32, 1, .dyn, true, .v 200, .v 100⟩),
    reads .special 0x27647680 (.cos ⟨6, .f32, 0, .dyn, false, .v 200, .z 5⟩),
    reads .special 0x27643244 (.cos ⟨6, .f32, 1, .dyn, true, .v 200, .v 100⟩),
    reads .special 0x2B647699 (.tanh ⟨6, .bf16, 2, .rne, false, .v 200, .z 5⟩),
    reads .special 0x2B643244 (.tanh ⟨6, .f32, 1, .dyn, true, .v 200, .v 100⟩),
    reads .special 0x2F6476A6 (.sigm ⟨6, .f16, 1, .rtz, false, .v 200, .z 5⟩),
    reads .special 0x2F643244 (.sigm ⟨6, .f32, 1, .dyn, true, .v 200, .v 100⟩),
    reads .special 0x33647BA1 (.rcpstep ⟨6, .f16, 0, .rne, false, .v 200, .vq 7⟩),
    reads .special 0x37647B92 (.rsqstep ⟨6, .bf16, 0, .rtz, false, .v 200, .vq 7⟩),
    reads .special 0x43643448 (.jsincos ⟨6, .f32, 2, .dyn, true, .v 200, .v 104⟩),
    reads .special 0x00000000 (.fnop)].all id = true := by decide

theorem test_decode_loads_and_stores : [
    reads .memory 0x0162B2FFFFFF08 (.ld8u ⟨3, 21, .q 5, 0xFFFFFE, false⟩),
    reads .memory 0x0262B2FFFFFF18 (.ld16u ⟨3, 21, .q 5, 0xFFFFFE, true⟩),
    reads .memory 0x0362B2FFFFFF08 (.ld32u ⟨3, 21, .q 5, 0xFFFFFE, false⟩),
    reads .memory 0x0462B2FFFFFF18 (.ld64 ⟨3, 21, .q 5, 0xFFFFFE, true⟩),
    reads .memory 0x0562B2FFFFFF08 (.ld8s ⟨3, 21, .q 5, 0xFFFFFE, false⟩),
    reads .memory 0x0662B2FFFFFF18 (.ld16s ⟨3, 21, .q 5, 0xFFFFFE, true⟩),
    reads .memory 0x0762B2FFFFFF08 (.ld32s ⟨3, 21, .q 5, 0xFFFFFE, false⟩),
    reads .memory 0x086732FFFFFF08 (.st8 ⟨3, .g 9, .q 5, 0xFFFFFE, false⟩),
    reads .memory 0x096732FFFFFF18 (.st16 ⟨3, .g 9, .q 5, 0xFFFFFE, true⟩),
    reads .memory 0x0A6732FFFFFF08 (.st32 ⟨3, .g 9, .q 5, 0xFFFFFE, false⟩),
    reads .memory 0x0B6732FFFFFF18 (.st64 ⟨3, .g 9, .q 5, 0xFFFFFE, true⟩),
    reads .memory 0x107912FFFFFF00 (.vld ⟨3, 200, .q 5, 0xFFFFFE, false⟩),
    reads .memory 0x117912FFFFFF10 (.vst ⟨3, 200, .q 5, 0xFFFFFE, true⟩),
    reads .memory 0x127912FFFFFF00 (.vgath ⟨3, 200, .q 5, 0xFFFFFE, false⟩),
    reads .memory 0x137912FFFFFF10 (.vscat ⟨3, 200, .q 5, 0xFFFFFE, true⟩),
    reads .memory 0x146012FFFFFF08 (.prf ⟨3, .q 5, 0xFFFFFE⟩),
    reads .memory 0x00000000000000 (.mnop)].all id = true := by decide

theorem test_decode_streams_copies_and_caches : [
    reads .memory 0x201DB2FFFFFF00 (.sbind ⟨5, .q 5, 0xFFFFFE⟩),
    reads .memory 0x211DA000000000 (.sunbind 5),
    reads .memory 0x2262A000000288 (.spos ⟨3, 21, 5⟩),
    reads .memory 0x2862B2FFFFFF08 (.copy ⟨3, 21, .q 5, 0xFFFFFE⟩),
    reads .memory 0x2962B2FFFFFF08 (.copyp ⟨3, 21, .q 5, 0xFFFFFE⟩),
    reads .memory 0x2A62B2FFFFFF08 (.fill ⟨3, 21, .q 5, 0xFFFFFE⟩),
    reads .memory 0x306012FFFFFF08 (.cflush ⟨3, .q 5, 0xFFFFFE⟩),
    reads .memory 0x316012FFFFFF08 (.cinv ⟨3, .q 5, 0xFFFFFE⟩),
    reads .memory 0x326012FFFFFF08 (.cclean ⟨3, .q 5, 0xFFFFFE⟩),
    reads .memory 0x346732FFFFFF08 (.migr ⟨3, .g 9, .q 5, 0xFFFFFE⟩)].all id = true := by decide

theorem test_decode_fences_atomics_barriers_and_taint : [
    reads .memory 0x40750000000008 (.fenceX ⟨3, 5, 2⟩),
    reads .memory 0x41600000000008 (.fenceOwn ⟨3⟩),
    reads .memory 0x426012FFFFFF08 (.fenceFar ⟨3, .q 5, 0xFFFFFE⟩),
    reads .memory 0x43600000000048 (.drain ⟨3, 4⟩),
    reads .memory 0x4462B2FFFFFF08 (.ldacq ⟨3, 21, .q 5, 0xFFFFFE⟩),
    reads .memory 0x456732FFFFFF08 (.strel ⟨3, .g 9, .q 5, 0xFFFFFE⟩),
    reads .memory 0x486732FFFFFF08 (.redaddI32 ⟨3, .g 9, .q 5, 0xFFFFFE⟩),
    reads .memory 0x496732FFFFFF08 (.redaddq ⟨3, .g 9, .q 5, 0xFFFFFE⟩),
    reads .memory 0x4A6732FFFFFF08 (.redminI32 ⟨3, .g 9, .q 5, 0xFFFFFE⟩),
    reads .memory 0x4B6732FFFFFF08 (.redmaxI32 ⟨3, .g 9, .q 5, 0xFFFFFE⟩),
    reads .memory 0x4C6732FFFFFF08 (.redand ⟨3, .g 9, .q 5, 0xFFFFFE⟩),
    reads .memory 0x4D6732FFFFFF08 (.redor ⟨3, .g 9, .q 5, 0xFFFFFE⟩),
    reads .memory 0x4E6732FFFFFF08 (.redxor ⟨3, .g 9, .q 5, 0xFFFFFE⟩),
    reads .memory 0x4F6732FFFFFF08 (.redaddF32 ⟨3, .g 9, .q 5, 0xFFFFFE⟩),
    reads .memory 0x506292FFFFFF08 (.atomadd ⟨3, 20, .q 5, 0xFFFFFE⟩),
    reads .memory 0x516292FFFFFF08 (.atomswp ⟨3, 20, .q 5, 0xFFFFFE⟩),
    reads .memory 0x526292FFFFFF08 (.atomcas ⟨3, 20, .q 5, 0xFFFFFE⟩),
    reads .memory 0x6005E000000008 (.sync ⟨47⟩),
    reads .memory 0x6165F280000008 (.barcfg ⟨3, 47, .q 5⟩),
    reads .memory 0x62000000000008 (.sstep),
    reads .memory 0x63672A80000008 (.taintrdScalar ⟨3, .g 9, 21⟩),
    reads .memory 0x63790280000000 (.taintrdVector ⟨3, .v 200, 5⟩),
    reads .memory 0x6462A000000008 (.taintclrScalar ⟨3, 21⟩),
    reads .memory 0x64790000000000 (.taintclrVector ⟨3, 200⟩)].all id = true := by decide

theorem test_decode_engine_network_and_retirement_forms : [
    reads .memory 0x70702000000008 (.mcall ⟨3, 129⟩),
    reads .memory 0x716052FFFFFF08 (.mlat ⟨3, 2, .q 5, 0xFFFFFE⟩),
    reads .memory 0x72620000000008 (.msetp ⟨3, 16⟩),
    reads .memory 0x7360D280000008 (.mparm ⟨3, 6, .q 5⟩),
    reads .memory 0x746012FFFFFF00 (.accz ⟨3, .q 5, 0xFFFFFE⟩),
    reads .memory 0x757912FFFFFF00 (.accrd ⟨3, 200, .q 5, 0xFFFFFE⟩),
    reads .memory 0x767912FFFFFF00 (.accwr ⟨3, 200, .q 5, 0xFFFFFE⟩),
    reads .memory 0x776012FFFFFF00 (.norm ⟨3, .q 5, 0xFFFFFE⟩),
    reads .memory 0xA062B2FFFFFF08 (.nsend ⟨3, 21, .q 5, 0xFFFFFE⟩),
    reads .memory 0xA162B2FFFFFF08 (.nrecv ⟨3, 21, .q 5, 0xFFFFFE⟩),
    reads .memory 0xA262B2FFFFFF08 (.ncoll ⟨3, 21, .q 5, 0xFFFFFE⟩),
    reads .memory 0xC062B2FFFFFF08 (.selacc ⟨3, 21, .q 5, 0xFFFFFE⟩),
    reads .memory 0xC862B2FFFFFF08 (.tithe ⟨3, 21, .q 5, 0xFFFFFE⟩),
    reads .memory 0xC962B2FFFFFF08 (.tmap ⟨3, 21, .q 5, 0xFFFFFE⟩),
    reads .memory 0xCA62B2FFFFFF08 (.tclrd ⟨3, 21, .q 5, 0xFFFFFE⟩),
    reads .memory 0xE062B2FFFFFF08 (.launch ⟨3, 21, .q 5, 0xFFFFFE⟩),
    reads .memory 0xC162A600000008 (.draw ⟨3, 21, 12⟩),
    reads .memory 0xC262A600000008 (.kvalloc ⟨3, 21, 12⟩),
    reads .memory 0xC362A600000008 (.kvfree ⟨3, 21, 12⟩),
    reads .memory 0xC462A000000008 (.kvcount ⟨3, 21⟩),
    reads .memory 0xE162BCBFFFFF88 (.release ⟨3, 21, .g 9, 0x7FFFFF⟩)].all id = true := by decide

theorem test_decode_microwords : [
    reads .micro 0x0000000000000000 (.uend),
    reads .micro 0x07EB180000000000 (.ukstep ⟨7, 6, 5, 4, 3⟩),
    reads .micro 0x0BE00000FFFFFFF0 (.uaddi ⟨7, 6, 0xFFFFFFF0⟩),
    reads .micro 0x0FEA000000000000 (.uadd ⟨7, 6, 5⟩),
    reads .micro 0x13800000000007FF (.uloop ⟨7, 2047⟩),
    reads .micro 0x17E0000000000000 (.unorm ⟨7, 6⟩),
    reads .micro 0x1BE0000000000000 (.uzero ⟨7, 6⟩),
    reads .micro 0x1F80000080000001 (.umovi ⟨7, 0x80000001⟩)].all id = true := by decide


/-! ## Ill-formed terms, one for each check (05 R79, R88 to R96) -/

theorem test_wf_scalar_limits : [
    (Instr.bfx ⟨⟨0, false⟩, 4, .n 5, 60, 4⟩).wf, (Instr.bfxu ⟨⟨0, false⟩, 4, .n 5, 1, 63⟩).wf, (Instr.bfi ⟨⟨0, false⟩, 4, .n 5, 63, 1⟩).wf,
    (Instr.mts ⟨⟨0, false⟩, .n 5, .pword⟩).wf, (Instr.mts ⟨⟨0, false⟩, .n 5, .svm⟩).wf, (Instr.mts ⟨⟨0, false⟩, .n 5, .blc 0⟩).wf].any id = false := by decide

theorem test_wf_vector_types : [
    (Instr.vadd ⟨0, .u32, false, .v 1, .v 2, .v 3⟩).wf, (Instr.vsub ⟨0, .b32, false, .v 1, .v 2, .v 3⟩).wf, (Instr.vmul ⟨0, .u32, false, .v 1, .v 2, .v 3⟩).wf,
    (Instr.vfma ⟨0, .u32, false, .v 1, .v 2, .v 3⟩).wf, (Instr.vfnma ⟨0, .i32, false, .v 1, .v 2, .v 3⟩).wf, (Instr.vmin ⟨0, .b32, false, .v 1, .v 2, .v 3⟩).wf,
    (Instr.vmax ⟨0, .b32, false, .v 1, .v 2, .v 3⟩).wf, (Instr.vabs ⟨0, .u32, false, .v 1, .v 2⟩).wf, (Instr.vneg ⟨0, .b32, false, .v 1, .v 2⟩).wf,
    (Instr.vcmpeq ⟨0, .u32, 1, .v 2, .v 3⟩).wf, (Instr.vcmpne ⟨0, .b32, 1, .v 2, .v 3⟩).wf, (Instr.vcmplt ⟨0, .b32, 1, .v 2, .v 3⟩).wf, (Instr.vcmple ⟨0, .b32, 1, .v 2, .v 3⟩).wf,
    (Instr.vsel ⟨0, .f32, false, .v 1, .v 2, .v 3⟩).wf, (Instr.vmov ⟨0, .f32, false, .v 1, .v 2⟩).wf, (Instr.vshl ⟨0, .f32, false, .v 1, .v 2, .v 3⟩).wf,
    (Instr.vshr ⟨0, .u32, false, .v 1, .v 2, .v 3⟩).wf, (Instr.vsar ⟨0, .bf16, false, .v 1, .v 2, .v 3⟩).wf, (Instr.vclamp ⟨0, .i16, false, .v 1, .v 2, .v 3⟩).wf].any id = false := by decide

theorem test_wf_jet_forms : [
    (Instr.vadd ⟨0, .bf16, true, .v 1, .v 2, .v 3⟩).wf, (Instr.vadd ⟨0, .f32, true, .z 1, .v 2, .v 3⟩).wf, (Instr.vsub ⟨0, .f32, true, .v 1, .vq 2, .v 3⟩).wf,
    (Instr.vmul ⟨0, .f32, true, .v 1, .v 2, .z 3⟩).wf, (Instr.vneg ⟨0, .f32, true, .v 1, .z 2⟩).wf, (Instr.vmov ⟨0, .b32, true, .v 1, .vq 2⟩).wf, (Instr.vsel ⟨0, .b32, true, .v 1, .z 2, .v 3⟩).wf,
    (Instr.vshl ⟨0, .i32, true, .v 1, .v 2, .v 3⟩).wf, (Instr.vclamp ⟨0, .f32, true, .v 1, .v 2, .v 3⟩).wf, (Instr.rcp ⟨0, .bf16, 0, .dyn, true, .v 1, .v 2⟩).wf,
    (Instr.exp ⟨0, .f32, 0, .dyn, true, .z 1, .v 2⟩).wf, (Instr.log ⟨0, .f32, 0, .dyn, true, .v 1, .z 2⟩).wf, (Instr.jsincos ⟨0, .f32, 0, .dyn, false, .v 1, .v 2⟩).wf,
    (Instr.rcpstep ⟨0, .f32, 0, .dyn, true, .v 1, .v 2⟩).wf].any id = false := by decide

theorem test_wf_destinations : [
    (Instr.vadd ⟨0, .f32, false, .vq 1, .v 2, .v 3⟩).wf, (Instr.vfma ⟨0, .f32, false, .z 1, .v 2, .v 3⟩).wf, (Instr.vfnma ⟨0, .f32, false, .vq 1, .v 2, .v 3⟩).wf,
    (Instr.vlogic ⟨0, .and, .vq 1, .v 2, .v 3⟩).wf, (Instr.vcvt ⟨0, .f32i32, .vq 1, .v 2⟩).wf, (Instr.vcvtn ⟨0, .e4m3, .vq 1, .v 2⟩).wf, (Instr.vcvtw ⟨0, .e4m3, .vq 1, .v 2⟩).wf,
    (Instr.vpack ⟨0, .i32i16, .vq 1, .v 2, .v 3⟩).wf, (Instr.vunpkl ⟨0, .bf16, .vq 1, .v 2⟩).wf, (Instr.vunpkh ⟨0, .f16, .vq 1, .v 2⟩).wf, (Instr.vbcst ⟨0, .vq 1, .n 2⟩).wf,
    (Instr.vperm ⟨0, .vq 1, .v 2, .v 3⟩).wf, (Instr.vxcopy ⟨0, .vq 1, .v 2, .v 3⟩).wf, (Instr.vred ⟨0, .addf32, .vq 1, .v 2⟩).wf, (Instr.vxred ⟨0, .maxi32, .vq 1, .v 2⟩).wf,
    (Instr.vscan ⟨0, .addf32, .vq 1, .v 2⟩).wf, (Instr.vbmrg ⟨0, .vq 1, 8⟩).wf, (Instr.rcp ⟨0, .f32, 0, .dyn, false, .vq 1, .v 2⟩).wf, (Instr.rsqstep ⟨0, .f32, 0, .dyn, false, .z 1, .v 2⟩).wf].any id = false := by decide

theorem test_wf_variants_and_groups : [
    (Instr.vlogic ⟨0, .not, .v 1, .v 2, .v 3⟩).wf, (Instr.vscan ⟨0, .minf32, .v 1, .v 2⟩).wf, (Instr.vscan ⟨0, .mini32, .v 1, .v 2⟩).wf, (Instr.vhist ⟨0, 4, .v 2, .v 3⟩).wf,
    (Instr.vbmrg ⟨0, .v 1, 12⟩).wf, (Instr.vbcx ⟨false, 1, 2, 0, 1, false⟩).wf, (Instr.vbcx ⟨false, 2, 3, 0, 1, false⟩).wf, (Instr.vbcx ⟨false, 2, 4, 4, 5, false⟩).wf, (Instr.vbcx ⟨false, 2, 4, 1, 1, false⟩).wf,
    (Instr.vbcxx ⟨false, 2, 4, 3, 5, false⟩).wf, (Instr.vbcxx ⟨false, 2, 4, 7, 7, false⟩).wf, (Instr.vbcxx ⟨false, 2, 4, 5, 5, false⟩).wf, (Instr.vbcxx ⟨false, 231, 4, 4, 5, false⟩).wf,
    (Instr.vargmax ⟨0, false, 3, .v 2, .v 4⟩).wf, (Instr.rcpstep ⟨0, .f32, 1, .dyn, false, .v 1, .v 2⟩).wf].any id = false := by decide

theorem test_wf_memory_pairs : [
    (Instr.vscat ⟨0, 7, .n 4, 0, false⟩).wf, (Instr.atomcas ⟨0, 5, .n 4, 0⟩).wf, (Instr.taintrdVector ⟨0, .z 1, 2⟩).wf, (Instr.msetp ⟨0, 0⟩).wf,
    (Instr.draw ⟨0, 4, 5⟩).wf, (Instr.kvalloc ⟨0, 4, 5⟩).wf, (Instr.kvfree ⟨0, 4, 5⟩).wf].any id = false := by decide

/-! ## Words that the decoder refuses, by name -/

theorem test_decode_refusals :
    (match decode .scalar 0x0101051801 with | .error .reserved => true | _ => false) = true ∧
    (match decode .scalar 0xFF00000000 with | .error .unassigned => true | _ => false) = true ∧
    (match decode .scalar 0x181565051E with | .ok _ => true | .error _ => false) = true ∧
    (match decode .scalar 0x187565053F with | .error _ => true | .ok _ => false) = true ∧
    (match decode .special 0xFFFFFFFF with | .error _ => true | .ok _ => false) = true ∧
    (match decode .memory 0xFFFFFFFFFFFFFFFF with | .error _ => true | .ok _ => false) = true ∧
    (match decode .micro 0xFFFFFFFFFFFFFFFF with | .error _ => true | .ok _ => false) = true := by decide

/-! ## Small states -/

/-- A launch of one bead with 10, 24 and 14 granules (04 R71), running, of partition 3. -/
def task5 : Task :=
  { Task.empty with st := .running, part := 3, launch := 1, hdr := BitVec.ofNat 1024 (0xE60A00000000000000000000000000000000000000000000000000000000000000000000000000000000), copies := [CopyState.fresh] }

def run5 : PassRun := ⟨5, 1, 0, 0, 8, 0, 0, 3⟩

/-- Unit 0 runs a pass of task 5; the first gibibyte of partition 3 on die 0 is mapped at 2^30, and its first frame is the partition's. -/
def base : State :=
  { State.reset with seqs := [(0, { Seq.idle with run := some run5 })], rk := { Reckoner.reset with tasks := [(5, task5)] },
                     xl := { Xlat.reset with mtlb := [⟨0, 3, 0, 2^30, 2^30, true, true⟩], frames := [(16384, .owned 3)] } }

/-- The same with core 0 as given, and with an event. -/
def withCore (c : Core) : State := { base with cores := [(0, c)] }
def event (s : State) (e : EvArg) : State := { s with ev := e }
/-- The same with the sequencer of unit 0 as given. -/
def withSeq (u : Seq) : State := { base with seqs := [(0, u)] }

/-- An operation, and a state in which core 0 holds only it and the event names it. -/
def mkOp (id path : Nat) (k : AKind) (pages : List (Nat × Nat)) : AOp := ⟨id, 6, path, 1, false, k, 0, pages, false, false, false, 0, 0⟩
def holding (o : AOp) : State := event (withCore { Core.blank with ops := [o] }) (.op 0 o.id)

def g0 : Guard := ⟨0, false⟩
def g1 : Guard := ⟨0, true⟩

/-- A core whose n4 holds a number. -/
def n4 (v : Nat) : Core := { Core.blank with n := [(4, ⟨BitVec.ofNat 64 v, false⟩)] }
/-- The first scratchpad address, and one of die 0. -/
def scrBase : Nat := 0xF * 2^60


/-! ## Single steps; what each comes to is worked out by hand from the rule named -/

/-- The scalar that an instruction puts in flight on core 0, with its distance. -/
def scalarOf (i : Instr) (c : Core) : Option (Nat × Nat) :=
  match exec i (withCore c) with
  | .next t => match (coreGet t 0).inflight with
    | [⟨d, _, _, .scalar _ x⟩] => some (d, x.v.toNat)
    | _ => none
  | _ => none

/-- The truth value that an instruction puts in flight. -/
def predOf (i : Instr) (c : Core) : Option Bool :=
  match exec i (withCore c) with
  | .next t => match (coreGet t 0).inflight with
    | [⟨_, _, _, .pred _ x⟩] => some x.v
    | _ => none
  | _ => none

/-- Lane 0 of the vector that an instruction puts in flight. -/
def lane0Of (i : Instr) (c : Core) : Option Nat :=
  match exec i (withCore c) with
  | .next t => (coreGet t 0).inflight.findSome? fun l => match l.kind with
    | .vec _ x _ => some (laneOf x.v 0).toNat
    | _ => none
  | _ => none

/-- n5 and n6, and lane 0 of v2 and v3. -/
def nn (a b : Nat) : Core := { Core.blank with n := [(5, ⟨BitVec.ofNat 64 a, false⟩), (6, ⟨BitVec.ofNat 64 b, false⟩)] }
def vv (a b : Nat) : Core := { Core.blank with win := [(2, ⟨BitVec.ofNat 4096 a, 0⟩), (3, ⟨BitVec.ofNat 4096 b, 0⟩)] }
def minusOne : Nat := 2^64 - 1

/-- 07 R119, R121: arithmetic wraps; a shift takes the low six bits; a right shift keeps the sign. -/
theorem test_add_wraps : scalarOf (.add ⟨g0, 4, .n 5, .n 6⟩) (nn minusOne 1) = some (1, 0) := by decide +kernel
theorem test_shl_takes_six_bits : scalarOf (.shl ⟨g0, 4, .n 5, .n 6⟩) (nn 3 65) = some (1, 6) := by decide +kernel
theorem test_sar_keeps_sign : scalarOf (.sar ⟨g0, 4, .n 5, .n 6⟩) (nn (2^63) 63) = some (1, minusOne) := by decide +kernel
theorem test_mulh_of_minus_one : scalarOf (.mulh ⟨g0, 4, .n 5, .n 6⟩) (nn minusOne minusOne) = some (3, 0) := by decide +kernel

/-- 07 R122: division by zero gives all ones, −2^63 by −1 wraps, a remainder has the dividend's sign. -/
theorem test_div_by_zero : scalarOf (.div ⟨g0, 4, .n 5, .n 6⟩) (nn 7 0) = some (14, minusOne) := by decide +kernel
theorem test_div_wraps : scalarOf (.div ⟨g0, 4, .n 5, .n 6⟩) (nn (2^63) minusOne) = some (14, 2^63) := by decide +kernel
theorem test_rem_sign : scalarOf (.rem ⟨g0, 4, .n 5, .n 6⟩) (nn (2^64 - 7) 2) = some (14, minusOne) := by decide +kernel

/-- 07 R123, R124: a field of one bit that is set is minus one; no leading zero stops a count at 64. -/
theorem test_bfx_signed : scalarOf (.bfx ⟨g0, 4, .n 5, 63, 0⟩) (nn (2^63) 0) = some (1, minusOne) := by decide +kernel
theorem test_clz_of_zero : scalarOf (.clz ⟨g0, 4, .n 5⟩) (nn 0 0) = some (1, 64) := by decide +kernel

/-- 07 R126: an unsigned immediate zero-extends, a signed one sign-extends. -/
theorem test_cmpltui_zero_extends : predOf (.cmpltui ⟨g0, 1, .n 5, 0xFFFF⟩) (nn 0x10000 0) = some false := by decide +kernel
theorem test_cmplti_sign_extends : predOf (.cmplti ⟨g0, 1, .n 5, 0xFFFF⟩) (nn 0 0) = some false := by decide +kernel

/-- A guard that is not met delivers nothing (07 R119). -/
theorem test_guard_not_met : scalarOf (.add ⟨g1, 4, .n 5, .n 6⟩) (nn 1 1) = none := by decide +kernel

/-- 09 R175: 1.0 + 2^-24 is a tie that goes to even; −0 + 0 is +0; an i32 sum wraps. -/
theorem test_vadd_tie_to_even : lane0Of (.vadd ⟨0, .f32, false, .v 1, .v 2, .v 3⟩) (vv 0x3F800000 0x33800000) = some 0x3F800000 := by decide +kernel
theorem test_vadd_signed_zero : lane0Of (.vadd ⟨0, .f32, false, .v 1, .v 2, .v 3⟩) (vv 0x80000000 0) = some 0 := by decide +kernel
theorem test_vsub_wraps : lane0Of (.vsub ⟨0, .i32, false, .v 1, .v 2, .v 3⟩) (vv 0x80000000 1) = some 0x7FFFFFFF := by decide +kernel
theorem test_vmul_rounds : lane0Of (.vmul ⟨0, .f32, false, .v 1, .v 2, .v 3⟩) (vv 0x3F800001 0x3F800001) = some 0x3F800002 := by decide +kernel
/-! ## Witnesses: each statement's hypotheses, met together by a concrete state -/

/-- O1 to O5: guards met and not met, a well-formed field at its limit, an MTS of each kind. -/
theorem witness_scalar :
    (Spec.srRow (.add ⟨g0, 4, .n 5, .n 6⟩)).isSome = true ∧ (Spec.immRow (.shli ⟨g0, 4, .n 5, 63⟩)).isSome = true ∧
    (Spec.bitRow (.bfx ⟨g0, 4, .n 5, 63, 0⟩)).isSome = true ∧ (Instr.bfx ⟨g0, 4, .n 5, 63, 0⟩).wf = true ∧ (Instr.bfi ⟨g0, 4, .n 5, 0, 63⟩).wf = true ∧
    (Spec.predRow (.cmpltui ⟨g0, 4, .n 5, 0xFFFF⟩)).isSome = true ∧
    guardMet (curCore base) g0 = true ∧ guardMet (curCore base) g1 = false ∧ (curCore base).parked = false ∧
    (Instr.mts ⟨g0, .n 5, .gang 15⟩).wf = true ∧ (Instr.mts ⟨g0, .n 5, .vwb⟩).wf = true ∧ (Instr.mts ⟨g0, .n 5, .flg⟩).wf = true ∧ base.cur.bead = 0 := by
  decide

/-- The Rod-wide tests: p0 passes plainly and fails negated, on eight beads. -/
theorem witness_rod_wide : base.cur.bead = 0 ∧ Spec.anyBead base g0 ∧ ¬ Spec.anyBead base g1 ∧ Spec.allBeads base g0 ∧ ¬ Spec.allBeads base g1 := by
  unfold Spec.anyBead Spec.allBeads
  decide

def entry (i n : Nat) : LoopEntry := ⟨BitVec.ofNat 32 i, BitVec.ofNat 32 n, 0, none, false⟩
def looping : Seq := { Seq.idle with run := some run5, loops := [entry 0 1] }

/-- The loop forms: five entries and six, an entry to break out of in a plain and in a loop-end bundle, and none. -/
theorem witness_loops :
    (curSeq (withSeq { looping with loops := List.replicate 5 (entry 0 1) })).loops.length < 6 ∧ 6 ≤ (curSeq (withSeq { looping with loops := List.replicate 6 (entry 0 1) })).loops.length ∧
    (curSeq (withSeq looping)).loops = [entry 0 1] ∧ (withSeq looping).cur.lend = false ∧ Spec.anyBead (withSeq looping) g0 ∧ ¬ Spec.anyBead (withSeq looping) g1 ∧
    ({ withSeq looping with cur := { base.cur with lend := true } }).cur.lend = true ∧ (curSeq base).loops = [] ∧
    Spec.loopsSound looping ∧ Spec.loopsSound { looping with loops := [entry 4294967294 4294967295] } := by
  unfold Spec.anyBead Spec.loopsSound
  decide

/-- SCHSEL with a table and without a store. -/
theorem witness_schedules : (curSeq (withSeq { looping with dict := some ⟨1, [], [(0, 0, 0)]⟩ })).dict = some ⟨1, [], [(0, 0, 0)]⟩ ∧ [((0 : Nat), (0 : Nat), (0 : Nat))] ≠ [] ∧ (curSeq base).dict = none := by
  decide

theorem witness_traps : Spec.MayTrap base base.cur.unit.val run5 where
  unit := by decide
  run := by decide
  launch := by decide
  single := by decide
  fresh := by decide
  free := fun p => by
    show (Tbl.get Seq.idle base.seqs p).stop = none ∧ (Tbl.get Seq.idle base.seqs p).complete = false
    simp only [base, Tbl.get, Tbl.find?]
    split <;> exact ⟨rfl, rfl⟩

theorem witness_breaks : guardMet (curCore base) g0 = true ∧ trapFollows base = false ∧ guardMet (curCore base) g1 = false := by decide

def keptStop : StopState := ⟨.hold, .kept, 0, 0, 0x0401, 0, 0, 0, none, 0, false⟩
def keptSeq : Seq := { Seq.idle with run := some run5, stop := some keptStop }

/-- A pass that a hold keeps in place, and one of another task. -/
theorem witness_returning : (seqOf (withSeq keptSeq) 0).run = some run5 ∧ (seqOf (withSeq keptSeq) 0).stop = some keptStop ∧ keptStop.phase = .kept ∧ keptStop.cause = .hold ∧ run5.task = 5 ∧
    (∀ r, (seqOf (withSeq keptSeq) 0).run = some r → r.task ≠ 6) := by
  refine ⟨by decide, by decide, by decide, by decide, by decide, fun r h => ?_⟩
  have : r = run5 := by
    have h' : some run5 = some r := h
    exact (Option.some.inj h').symm
  subst this; decide

/-- A service ring that is disabled, one with room, one that is full. -/
theorem witness_service : guardMet (curCore base) g0 = true ∧ curPart base = 3 ∧ Spec.svcBase base 3 = 0 ∧ Spec.Unlogged base ∧
    (let s := pfSet base (0xF0400 + 48) 8 0x10000; Spec.svcBase s 3 ≠ 0 ∧ (Spec.svcTail s 3 + 1) % 256 ≠ Spec.svcHead s 3) ∧
    (let s := pfSet (pfSet base (0xF0400 + 48) 8 0x10000) (0xF0409 + 48) 1 255; Spec.svcBase s 3 ≠ 0 ∧ (Spec.svcTail s 3 + 1) % 256 = Spec.svcHead s 3) := by
  unfold Spec.Unlogged
  decide

/-- A core of jet order 7, and one whose series unit is taken. -/
def jets : State := withCore { Core.blank with jord := 7 }
def busyJets : State := withCore { Core.blank with jord := 7, series := 1 }

/-- The lane rows: a row of each kind, lanes that live and lanes that do not. -/
theorem witness_vector :
    (Spec.arithRow 0 (.vadd ⟨0, .f32, false, .v 8, .v 9, .v 10⟩)).isSome = true ∧ (Instr.vadd ⟨0, .f32, false, .v 8, .v 9, .v 10⟩).wf = true ∧
    (Spec.convRow 0 (.vcvt ⟨0, .f32u32, .v 8, .v 9⟩)).isSome = true ∧ (Spec.functionRow base (.rcp ⟨0, .f32, 0, .dyn, false, .v 8, .v 9⟩)).isSome = true ∧
    (Spec.cmpRow (.vcmple ⟨0, .u32, 7, .v 8, .v 9⟩)).isSome = true ∧ (curCore base).parked = false ∧ Spec.lives base 0 127 ∧ ¬ Spec.lives (withCore { Core.blank with cmk := 0x7F }) 0 127 ∧
    Spec.computes (.vscan ⟨0, .addf32, .v 8, .v 9⟩) = true ∧ Spec.computes (.add ⟨g0, 4, .n 5, .n 6⟩) = true ∧ (curCore (withCore { Core.blank with parked := true })).parked = true := by
  unfold Spec.lives
  decide

/-- Sorting: the first and the last stage, on a pair of enabled lanes. -/
theorem witness_sorting : (Instr.vbcx ⟨false, 8, 10, 3, 4, true⟩).wf = true ∧ (Instr.vbcxx ⟨true, 230, 0, 6, 7, false⟩).wf = true ∧ 63 / 2^6 % 2 = 0 ∧ Spec.on base 63 ∧ Spec.on base (63 + 2^6) := by
  unfold Spec.on
  decide

/-- The jet rows: ready at order 7, ready series, a misaligned group, an occupied unit, an index beyond the order. -/
theorem witness_jets :
    (∃ r, Spec.plainJet jets (.vadd ⟨0, .f32, true, .v 224, .v 0, .v 8⟩) = some r ∧ (Instr.vadd ⟨0, .f32, true, .v 224, .v 0, .v 8⟩).wf = true ∧ Spec.jetReady jets r) ∧
    (∃ r, Spec.seriesJet jets (.vmul ⟨0, .f32, true, .v 224, .v 0, .v 8⟩) = some r ∧ (Instr.vmul ⟨0, .f32, true, .v 224, .v 0, .v 8⟩).wf = true ∧ Spec.jetReady jets r) ∧
    (∃ r, Spec.plainJet jets (.vadd ⟨0, .f32, true, .v 223, .v 0, .v 8⟩) = some r ∧ ¬ Spec.jetReady jets r) ∧
    (∃ r, Spec.seriesJet busyJets (.vmul ⟨0, .f32, true, .v 224, .v 0, .v 8⟩) = some r ∧ ¬ Spec.jetReady busyJets r) ∧
    (curCore jets).parked = false ∧ 0 % Spec.alignment (Spec.order base) = 0 ∧ Spec.order base < (1 : Fin 8).val := by
  refine ⟨⟨_, rfl, rfl, ?_⟩, ⟨_, rfl, rfl, ?_⟩, ⟨_, rfl, ?_⟩, ⟨_, rfl, ?_⟩, by decide, by decide, by decide⟩ <;> unfold Spec.jetReady <;> decide

theorem witness_jet_sine : winName (.v 216) % Spec.alignment (Spec.order jets) = 0 ∧ (curCore jets).series = 0 ∧ winName (.v 216) + Spec.alignment (Spec.order jets) + Spec.order jets ≤ 231 := by
  decide

theorem witness_jet_powers : [0x40000000].length = 0 + 1 ∧ Spec.finiteAll [0x40000000] ∧ (v32 ([0x40000000].getD 0 0)).isZero = false := by
  refine ⟨rfl, fun b hb => ?_, by decide⟩
  obtain rfl : b = 0x40000000 := by simpa using hb
  exact ⟨_, _, rfl⟩

/-- Addresses: every owner, and none that is mapped or fenced. -/
theorem witness_addresses : scrBase < 2^64 ∧ (0 : Nat) < 8 ∧ 2^30 / 2^60 < 2 ∧ (8 * 2^60 + 2^48) / 2^60 = 8 ∧ (4 * 2^60) / 2^60 = 4 ∧ hostIdent base 3 = none := by
  decide

/-- Scratchpad loads: a guard met, an address that is refused and one that is not; lanes and no lanes. -/
theorem witness_scratchpad_loads :
    let s := withCore (n4 scrBase)
    let t := withCore { n4 scrBase with m := [(1, ⟨0, 0⟩)] }
    (Spec.loadOf (.ld64 ⟨0, 9, .n 4, 0, false⟩)).isSome = true ∧ Spec.ea s (.n 4) 0 8 / 2^60 = 15 ∧ Spec.met s 0 = true ∧ Spec.met s 1 = false ∧
    Spec.refuses s false (Spec.ea s (.n 4) 0 8) 8 8 = none ∧ Spec.refuses s false (Spec.ea s (.n 4) 1 1) 8 8 = some 0x0207 ∧
    Spec.refuses s false (Spec.ea s (.n 4) 0x60000 8) 8 8 = some 0x0203 ∧ Spec.refuses s false (Spec.ea s (.n 4) 0x5FFFF 8) 8 8 = none ∧
    Spec.ea s (.n 4) 0 512 / 2^60 = 15 ∧ Spec.lanesUp s 0 ≠ [] ∧ Spec.refuses s false (Spec.ea s (.n 4) 0 512) 512 64 = none ∧
    gathTrap ⟨0, 8, .n 4, 0, false⟩ s = none ∧
    Spec.lanesUp t 1 = [] ∧ Spec.ea t (.n 4) 0 512 % 64 = 0 ∧ Spec.legal t (Spec.ea t (.n 4) 0 512) 512 = true ∧ Spec.ea t (.n 4) 0 4 % 4 = 0 ∧ Spec.ea t (.n 4) 0 4 / 2^60 ∈ [0, 1, 4, 8, 15] := by
  decide +kernel

/-- The issue rows: one of each group, met and without a trap. -/
theorem witness_issue :
    (∃ r, Spec.accessRow base (.ld64 ⟨0, 9, .n 4, 0, false⟩) = some r ∧ r.met = true ∧ r.trap = none) ∧
    (∃ r, Spec.accessRow base (.st64 ⟨0, .n 9, .n 4, 0, false⟩) = some r ∧ r.met = true ∧ r.trap = none) ∧
    (∃ r, Spec.accessRow base (.atomcas ⟨1, 8, .n 4, 0⟩) = some r ∧ r.met = false) ∧
    (∃ r, Spec.accessRow base (.st64 ⟨0, .n 9, .n 4, 0x800000, false⟩) = some r ∧ r.met = true ∧ r.trap = some 0x0203) ∧
    (∃ r, Spec.commandRow base (.copy ⟨0, 9, .n 4, 0⟩) = some r ∧ r.met = true ∧ r.trap = none) ∧
    (∃ r, Spec.commandRow base (.migr ⟨0, .n 4, .n 4, 0⟩) = some r ∧ r.met = true ∧ r.trap = none) ∧
    (∃ r, Spec.engineRow base (.mcall ⟨0, 129⟩) = some r ∧ r.met = true ∧ r.trap = none) ∧
    (∃ r, Spec.engineRow base (.mcall ⟨0, 127⟩) = some r ∧ r.met = true ∧ r.trap = some 0x0305) ∧
    (∃ r, Spec.engineRow base (.norm ⟨0, .n 4, 0⟩) = some r ∧ r.met = true ∧ r.trap = none) := by
  refine ⟨⟨_, rfl, ?_⟩, ⟨_, rfl, ?_⟩, ⟨_, rfl, ?_⟩, ⟨_, rfl, ?_⟩, ⟨_, rfl, ?_⟩, ⟨_, rfl, ?_⟩, ⟨_, rfl, ?_⟩, ⟨_, rfl, ?_⟩, ⟨_, rfl, ?_⟩⟩ <;> decide +kernel

theorem witness_issue_vector : (∃ r, Spec.vectorRow base (.vld ⟨0, 8, .n 4, 0, false⟩) = some r ∧ r.met = true ∧ r.trap = none) := ⟨_, rfl, by decide +kernel, by decide +kernel⟩

/-- An operation that enters, one beyond its class's limit, and one behind a held one. -/
theorem witness_entering :
    let k : AKind := .store 64 8 ⟨1, false⟩ false
    (curCore base).held = [] ∧ overLimit (curCore base) k = false ∧ (lookupPages base (partOfCore base (curId base)) (opWrites k) (spanPages (opSpans k))).toOption = some [(0, 2^18)] ∧
    windowTrap base k [(0, 2^18)] = false ∧
    overLimit { Core.blank with ops := List.replicate 16 (mkOp 4 2 (.eng (.accz 0 0 0)) []) } (.eng (.accz 0 0 0)) = true ∧
    (curCore (withCore { Core.blank with held := [mkOp 4 0 k []] })).held ≠ [] := by
  decide +kernel

/-- SYNC, SSTEP and BARCFG on bead 0: a mask that eight beads have, and one that they do not. -/
theorem witness_barriers : base.cur.bead = 0 ∧ Spec.met base 0 = true ∧ Spec.met base 1 = false ∧
    (readS (curCore (withCore (n4 255))) (.n 4)).v.toNat < 2^widthOf (curSeq (withCore (n4 255))) ∧ 2^widthOf (curSeq (withCore (n4 256))) ≤ (readS (curCore (withCore (n4 256))) (.n 4)).v.toNat ∧
    (curSeq (withSeq { looping with point := true })).point = true ∧ (curSeq { withSeq { looping with preempt := some 0 } with cycle := 1 }).preempt = some 0 := by
  decide +kernel

/-! ### The engine, results and steps -/

/-- A running call whose registers hold 0, 8 and a control word of one row and one column. -/
def call0 : Call := ⟨8, 129, 1538, [(1, 8), (5, 0x10000000)], 16, 0, false⟩
def calling : State := withCore { Core.blank with call := some call0 }

/-- Microwords: the call, its routine, a span in storage of one word, the whole storage, one word more. -/
theorem witness_microwords : (curCore calling).call = some call0 ∧ routineAt (curCore calling) call0.routine = some (1538, 5) ∧
    Spec.spanOk calling 0 1 ∧ Spec.spanOk calling 0 229376 ∧ ¬ Spec.spanOk calling 0 229377 ∧ ¬ Spec.spanOk calling 4 1 ∧ ¬ Spec.spanOk calling 0 0 := by
  unfold Spec.spanOk
  decide +kernel

/-- A K-step that runs, and one whose control word is reserved. -/
theorem witness_k_step : kstepBad (curCore calling) (curPword calling) 0 0 0 0 0x10000000 = false ∧ kstepBad (curCore calling) (curPword calling) 0 0 0 0 0 = true ∧
    Spec.rowsApart (fun m => 8 * m) 2 8 := by
  unfold Spec.rowsApart
  decide +kernel

/-- Words that normalise to the left, to the right, to a tie, and beyond the greatest exponent. -/
theorem witness_normalising :
    (accNorm 0x0002000000000001).2 = false ∧ Spec.we (accNorm 0x0002000000000001).1 ≤ Spec.we 0x0002000000000001 ∧
    (accNorm 0x0002008000000003).2 = false ∧ Spec.we 0x0002008000000003 ≤ Spec.we (accNorm 0x0002008000000003).1 ∧
    2 * (Spec.wv (accNorm 0x0002008000000003).1 * 2^(Spec.we (accNorm 0x0002008000000003).1 - Spec.we 0x0002008000000003).toNat - Spec.wv 0x0002008000000003).natAbs
      = 2^(Spec.we (accNorm 0x0002008000000003).1 - Spec.we 0x0002008000000003).toNat ∧
    (accNorm 0x7FFF7FFFFFFFFFFF).2 = true := by
  decide +kernel

/-- Results in flight: none due, one due, a histogram due, two on one register. -/
theorem witness_landing :
    (∀ l ∈ [(⟨2, 0, 0, .control⟩ : Landing)], 2 ≤ l.dist) ∧ ({ Core.blank with inflight := [⟨1, 0, 0, .control⟩] }).inflight = [⟨1, 0, 0, .control⟩] ∧ Spec.landsAlone .control ∧
    (0 : Fin 8).val < (1 : Fin 8).val ∧ (3 : Nat) ≠ 4 ∧ (31 : Fin 32).val ≠ 0 :=
  ⟨by decide, rfl, trivial, by decide, by decide, by decide⟩

/-- Five results due, two of them on n4. -/
def dueCore : Core := { Core.blank with inflight := [⟨1, 1, 2, .scalar 4 ⟨9, false⟩⟩, ⟨1, 0, 1, .scalar 4 ⟨7, false⟩⟩, ⟨1, 1, 3, .pred 3 ⟨true, false⟩⟩,
  ⟨1, 2, 2, .mask 3 ⟨1, 0⟩ (BitVec.allOnes 128)⟩, ⟨1, 3, 2, .vec 5 ⟨1, 0⟩ (BitVec.allOnes 128)⟩] }
theorem witness_results_due :
    Spec.remains (Spec.dueOf dueCore) (Spec.writesN 4) ⟨9, false⟩ ∧ Spec.remains (Spec.dueOf dueCore) (Spec.writesP 3) ⟨true, false⟩ ∧
    Spec.remains (Spec.dueOf dueCore) (Spec.writesM 3 0) (true, false) ∧ Spec.remains (Spec.dueOf dueCore) (Spec.writesV 5 0) (1, false) ∧ Spec.untouched (Spec.dueOf dueCore) (Spec.writesN 6) ∧
    (Spec.dueOf dueCore).Perm (dueCore.inflight.take 2 |>.reverse |>.append (dueCore.inflight.drop 2)) ∧ (dueCore.inflight.take 2 |>.reverse |>.append (dueCore.inflight.drop 2)).Pairwise Spec.before := by
  refine ⟨?_, ?_, ?_, ?_, ?_, ?_, ?_⟩ <;> (try unfold Spec.remains) <;> (try unfold Spec.untouched) <;> (try unfold Spec.before) <;> decide +kernel

theorem witness_results_collide : (∃ a ∈ Spec.dueOf dueCore, ∃ b ∈ Spec.dueOf dueCore, Spec.collide a b) ∧
    (∀ l ∈ Spec.dueOf { dueCore with inflight := dueCore.inflight.take 1 }, Spec.plainResult l) ∧
    (∀ a ∈ Spec.dueOf { dueCore with inflight := dueCore.inflight.take 1 }, ∀ b ∈ Spec.dueOf { dueCore with inflight := dueCore.inflight.take 1 }, ¬ Spec.collide a b) := by
  refine ⟨⟨⟨1, 1, 2, .scalar 4 ⟨9, false⟩⟩, by decide, ⟨1, 0, 1, .scalar 4 ⟨7, false⟩⟩, by decide, by decide, .inl ⟨4, by decide, rfl, rfl⟩⟩, fun l hl => ?_, fun a ha b hb h => ?_⟩
  · obtain rfl := List.mem_singleton.mp hl; trivial
  · obtain rfl := List.mem_singleton.mp ha; obtain rfl := List.mem_singleton.mp hb; exact h.1 rfl

/-- Beads other than bead 0, parked beads, misaligned jets, and orders at their limit. -/
theorem witness_other_beads :
    ({ base with cur := { base.cur with bead := 1 } }).cur.bead ≠ 0 ∧ (curCore (withCore { Core.blank with parked := true })).parked = true ∧
    winName (.v 223) % Spec.alignment (Spec.order jets) ≠ 0 ∧ 231 < winName (.v 224) + Spec.alignment (Spec.order jets) + Spec.order jets ∧ (curCore busyJets).series ≠ 0 := by
  decide +kernel

/-- A slot word that decodes, one that does not, an event, inputs due and not due. -/
theorem witness_steps :
    (decode .scalar 0x0101051800).toOption = some (.add ⟨g0, 4, .n 5, .n 6⟩) ∧ (decode .scalar 0x0100000001).toOption = none ∧ (seqOf base 0).run = some run5 ∧
    base.issue = [] ∧ base.agenda = [] ∧ (∀ e ∈ base.inputs, base.cycle < e.1) ∧ 0 ≤ ({ base with inputs := [(0, .monitor 0 0)] }).cycle ∧
    decodeTableWord 32 0x04058600 = some (.rcp ⟨0, .f32, 0, .dyn, false, .v 11, .v 12⟩) := by
  decide +kernel

/-- A step that answers a next state. -/
theorem witness_a_step : ∃ t, StepsTo { base with issue := [⟨.scalar, 0x0101051800, base.cur⟩] } t := ⟨_, rfl⟩

/-- An encoding, and memory in its canonical form. -/
theorem witness_encoding : (Instr.add ⟨g0, 4, .n 5, .n 6⟩).wf = true ∧ encode (.add ⟨g0, 4, .n 5, .n 6⟩) = some (.scalar, 0x0101051800) ∧ Memory.wf (putBytes base 0 [1, 0, 2]).mem = true := by
  decide +kernel

/-! ### Operations performing -/

def page0 : List (Nat × Nat) := [(0, 2^18)]
def ld0 : AOp := mkOp 4 0 (.load 9 64 8 false false false) page0
def vl0 : AOp := mkOp 4 0 (.vload 8 [(0, 64, false), (127, 68, false)] false) page0
def host0 : AOp := mkOp 4 0 (.load 9 (4 * 2^60) 8 false false false) [(2^50, 4 * 2^48)]
def st0 : AOp := mkOp 4 0 (.store 64 8 ⟨7, false⟩ false) page0

theorem witness_loads :
    Spec.Ready (holding ld0) 0 ld0 ∧ Spec.NoLines (holding ld0) ∧ Spec.near ld0 64 ∧ Spec.Ready (holding vl0) 0 vl0 ∧ ([(0, 64, false), (127, 68, false)].map (·.1 : Nat × Nat × Bool → Nat)).Nodup ∧
    (∀ e ∈ [((0 : Nat), (64 : Nat), false), (127, 68, false)], e.1 < 128 ∧ Spec.near vl0 e.2.1) ∧
    Spec.Ready (holding host0) 0 host0 ∧ 4 * 2^60 % 8 = 0 ∧ (∃ e ∈ host0.pages, e.1 = 4 * 2^60 / 4096) ∧ 2 ≤ 4 * 2^60 / 2^60 % 16 ∧ 4 * 2^60 / 2^60 % 16 ≠ 15 ∧
    Tbl.find? (coreGet (holding host0) 0).l1 (4 * 2^60 / 64) = none := by
  unfold Spec.Ready Spec.NoLines Spec.near Spec.home
  decide +kernel

def stScr : AOp := mkOp 4 0 (.store scrBase 8 ⟨7, false⟩ false) []
def vs0 : AOp := mkOp 4 0 (.vstore [(64, 1, false), (68, 2, false)]) page0
def red0 : AOp := mkOp 4 0 (.red 0 64 ⟨7, false⟩) page0
def redScr : AOp := mkOp 4 0 (.red 0 scrBase ⟨7, false⟩) []
def cac0 : AOp := mkOp 4 7 (.cache 1 64) page0
def atm0 : AOp := mkOp 4 0 (.atomic 2 9 64 1 2) page0
def atmScr : AOp := mkOp 4 0 (.atomic 2 9 scrBase 1 2) []
def atmHost : AOp := mkOp 4 0 (.atomic 0 9 (4 * 2^60) 1 2) [(2^50, 4 * 2^48)]

theorem witness_stores :
    Spec.Ready (holding st0) 0 st0 ∧ Spec.NoLines (holding st0) ∧ Spec.Unlogged (holding st0) ∧ 64 / 2^60 % 16 ≠ 15 ∧ Spec.Ready (holding stScr) 0 stScr ∧ scrBase / 2^60 % 16 = 15 ∧
    Spec.Ready (holding vs0) 0 vs0 ∧ (∀ e ∈ [((64 : Nat), (1 : Lane), false), (68, 2, false)], e.1 / 2^60 % 16 ≠ 15) ∧
    [((64 : Nat), (1 : Lane), false), (68, 2, false)].Pairwise (fun a b => paIn vs0.pages a.1 + 4 ≤ paIn vs0.pages b.1 ∨ paIn vs0.pages b.1 + 4 ≤ paIn vs0.pages a.1) ∧
    Spec.Ready (holding red0) 0 red0 ∧ Spec.Ready (holding redScr) 0 redScr ∧ Spec.Ready (holding cac0) 0 cac0 ∧
    Spec.Ready (holding atm0) 0 atm0 ∧ Spec.home atm0 64 ∧ Spec.Ready (holding atmScr) 0 atmScr ∧
    readyOp (holding atmHost) 0 4 = some atmHost ∧ 4 * 2^60 / 2^60 % 16 = 4 := by
  unfold Spec.Ready Spec.NoLines Spec.home Spec.Unlogged
  decide +kernel

def upd0 : UpdLine := ⟨0, [(0, 7), (15, 8)], 3, 0⟩
theorem witness_merges : let s := event (withCore { Core.blank with upd := [(5, upd0)] }) (.line 0 5)
    Tbl.find? (coreGet s 0).upd 5 = some upd0 ∧ upd0.due ≤ s.cycle ∧ Spec.Unlogged s ∧ (upd0.words.map (·.1)).Nodup ∧ (∀ e ∈ upd0.words, redBytes upd0.opc * e.1 + redBytes upd0.opc ≤ 64) := by
  unfold Spec.Unlogged
  decide +kernel

def mig0 : AOp := mkOp 4 7 (.migr 64 0) []
def migHole : AOp := mkOp 4 7 (.migr (2^31) 0) []
def far0 : AOp := mkOp 4 0 (.far 64) []

/-- Migrations of a page that is resident, and of one that is not; a fence no core has acknowledged, and one that all have. -/
theorem witness_migrations :
    Spec.Ready (holding mig0) 0 mig0 ∧ (match (resolve (holding mig0) (partOfCore (holding mig0) 0) 64 false).2 with | .ok _ => true | _ => false) = true ∧
    Spec.Ready (holding migHole) 0 migHole ∧ (match (resolve (holding migHole) (partOfCore (holding migHole) 0) (2^31) false).2 with | .ok _ => false | _ => true) = true ∧
    farOp (event (holding far0) (.op 1 (208 * 4))) 0 4 = some far0 ∧ far0.acks / 2^1 % 2 = 0 ∧
    farOp (holding { far0 with acks := 2^208 - 1 }) 0 4 = some { far0 with acks := 2^208 - 1 } ∧ farDone (holding { far0 with acks := 2^208 - 1 }) 0 { far0 with acks := 2^208 - 1 } = true := by
  unfold Spec.Ready
  decide +kernel

/-! ### The sequencer -/

/-- The bundle of 05's worked encoding, and a task whose image holds it alone. -/
def bundle0 : BitVec 384 := 0x88000301220000080800000000000000400010008090A0000000000000000000040001010518005001C0FFFE04058600
def coded : Task := { task5 with cmd := BitVec.ofNat 512 (0x1000 * 2^128), img := BitVec.ofNat 512 (1 * 2^64 + 64 * 2^96 + 128 * 2^128 + 8 * 2^160) }
def codedSeq : Seq := { Seq.idle with run := some run5, dict := some ⟨1, [bundle0], []⟩, lines := [(66, 0)] }
def issuing (u : Seq) : State := event { base with seqs := [(0, u)], rk := { Reckoner.reset with tasks := [(5, coded)] } } (.unit 0)

/-- A unit that can broadcast the bundle: no target, one delay bundle to go, two. -/
theorem witness_issuing : Spec.CanCast (Spec.cleared (issuing codedSeq) 0) 0 ∧ Spec.allFree (Spec.cleared (issuing codedSeq) 0) 0 ∧
    fetchAt codedSeq coded 0 = .ok bundle0 1 ∧ callNeeds codedSeq coded bundle0 1 = none ∧ 0 < widthOf codedSeq ∧ bLend bundle0 = false ∧
    ({ codedSeq with target := some (5, 2) }).target = some (5, 2) ∧ Spec.CanCast (Spec.cleared (issuing { codedSeq with target := some (5, 1) }) 0) 0 := by
  refine ⟨⟨?_, ?_, ?_, ?_, ?_⟩, ?_, ?_, ?_, ?_, ?_, ?_, ⟨?_, ?_, ?_, ?_, ?_⟩⟩ <;> (try unfold Spec.allFree) <;> decide +kernel

theorem witness_clear_to_issue : Spec.clearToIssue (Spec.cleared (issuing codedSeq) 0) 0 bundle0 1 := by
  refine ⟨?_, ?_⟩
  · intro p hp m hm
    subst hm
    have hp' : p < 8 := hp
    revert p; decide +kernel
  · intro p hp
    have hp' : p < 8 := hp
    revert p; decide +kernel

/-- A unit that replays, and one whose first bead is frozen. -/
theorem witness_not_issuing :
    (let u : Seq := { codedSeq with replay := 1 }; u.run = some run5 ∧ u.stop = none ∧ u.copying = none ∧ u.restoring = none ∧ 0 < u.replay) ∧
    (let s := { issuing codedSeq with cores := [(0, { Core.blank with limits := some [0, 15, 15, 15, 15, 15], ctrs := [(1, 1)] })] }
     ∃ i ∈ coresOf s 0, clearMet (coreGet s i) = coreGet s i ∧ beadFrozen (coreGet s i) = true) := by
  decide +kernel

def filled : State := putBytes (issuing { codedSeq with dict := none, copying := some 0 }) (2^30 + 0x1040) (leBytes bundle0.toNat 48)

/-- A line that arrives, a copy that ends, a stall's last cycle. -/
theorem witness_fetching :
    (let s := issuing { codedSeq with lineDue := some (66, 0) }
     (seqOf s 0).lineDue = some (66, 0) ∧ (resolve s 3 (64 * 66) false).2 = .ok (2^30 + 64 * 66) ∧ Spec.NoLines (resolve s 3 (64 * 66) false).1) ∧
    (let s := issuing { codedSeq with lineDue := some (2^26, 0) }
     (match (resolve s 3 (64 * 2^26) false).2 with | .fail _ => true | _ => false) = true) ∧
    (seqOf filled 0).copying = some 0 ∧ (seqOf filled 0).stop = none ∧
    (match readImage filled 3 0x1040 48 with
      | (s1, .ok _, l) => (bundlesOf l 1).findIdx? bundleBad == none && bundlesOf l 1 == [bundle0] &&
          (match readTable s1 3 0x1000 (imgField coded.img 28 4) (imgField coded.img 32 2) 64 with
            | (s2, .ok _, l2) => !routinesBad (routineRows l2 (imgField coded.img 32 2)) && (match readRoutines s2 3 0x1000 (routineSpans (routineRows l2 (imgField coded.img 32 2))) with
              | (s3, .ok _, ws) => (ws.find? fun w => microBad w.2.2.1 w.2.1 w.2.2.2) == none && (match readTable s3 3 0x1000 (imgField coded.img 36 4) (imgField coded.img 34 2) 16 with
                | (_, .ok _, _) => true
                | _ => false)
              | _ => false)
            | _ => false)
      | _ => false) = true ∧
    (match readImage { filled with xl := Xlat.reset } 3 0x1040 48 with | (_, .fail _, _) => true | _ => false) = true ∧
    (seqOf (issuing { codedSeq with stall := 1 }) 0).stall = 1 := by
  unfold Spec.NoLines
  decide +kernel

/-- A held operation that enters and one that waits; a barrier whose beads have arrived; a superstep whose release is due. -/
theorem witness_waiting :
    (let o := mkOp 4 0 (.store 64 8 ⟨1, false⟩ false) []; (coreGet (event (withCore { Core.blank with held := [o] }) (.core 0)) 0).held = [o]) ∧
    (let w : SyncWait := ⟨0, 0, List.range 8, 0⟩; let s := { issuing { codedSeq with sync := some w } with cycle := 2 }
     (seqOf s 0).sync = some w ∧ (∀ p < widthOf (seqOf s 0), (barMask (seqOf s 0) w.barrier).getLsbD p = true → p ∈ w.arrived) ∧ w.cycle + 2 ≤ s.cycle ∧ w.last + 2 ≤ s.cycle) ∧
    (let s := issuing { codedSeq with stepWait := some 1, release := some 0 }; (seqOf s 0).stepWait = some 1 ∧ (seqOf s 0).release = some 0 ∧ 0 ≤ s.cycle ∧ (seqOf s 0).stop = none) := by
  decide +kernel

/-! ### Streams, copies and engine queues -/

/-- A stream descriptor of one element at an address, input (0) or output (1). -/
def sdesc (va ctl : Nat) : BitVec 512 := BitVec.ofNat 512 (va + ctl * 2^128 + (1 + 2^32 + 2^64 + 2^96) * 2^192)
def bindOp : AOp := mkOp 4 3 (.bind 1 (64 : Nat) false) page0
def binding : State := event (withCore { Core.blank with ops := [bindOp] }) (.stream 0 1)
/-- Core 0 with stream 1 bound to an element. -/
def bound1 (va ctl : Nat) : Core := setStream Core.blank 1 { streamOf Core.blank 1 with bound := true, desc := some (sdesc va ctl) }
def streaming (va : Nat) : State := event (withCore (bound1 va 0)) (.stream 0 1)

/-- Nothing stands in a command's way: a state without lines, logs or changes, whose windows discard nothing. -/
theorem calm_of (s : State) (h1 : Spec.NoLines s) (h2 : Spec.Unlogged s) (h3 : s.xl.l2change = [])
    (h4 : ∀ i < 128, (bitsAt (pfGet s (fmwOff (i / 64) (i / 16 % 4) (i % 16) + 16) 8) 30 1 == 1) = false) : Spec.calm s := by
  refine ⟨h1, h2, h3, fun pa n => List.any_eq_false.mpr fun i hi => ?_⟩
  simp only [h4 i (List.mem_range.mp hi), Bool.false_and]
  decide

/-- A binding whose descriptor may be read; a stream that asks for an element of memory, for one of the scratchpad, and one that meets no memory. -/
theorem witness_streams_in :
    Spec.bindOf (coreGet binding 0) 1 bindOp 64 ∧ Spec.quiet (coreGet binding 0) 1 ∧ mayPerform binding 0 bindOp = true ∧ Spec.near bindOp 64 ∧ (∃ e ∈ bindOp.pages, e.1 = 64 / 4096) ∧
    (∀ va ∈ [0x1000, scrBase, 2^59], elementDue (streaming va) (coreGet (streaming va) 0) 1 = false ∧ wantsElement (coreGet (streaming va) 0) 1 = true ∧
      streamVa (coreGet (streaming va) 0) (streamOf (coreGet (streaming va) 0) 1) (streamOf (coreGet (streaming va) 0) 1).fetched = va) ∧
    wantsElement (coreGet (holding bindOp) 0) 1 = false ∧
    addrTrap (streaming (2^59)) (taskOfCore (streaming (2^59)) 0).pword (taskOfCore (streaming (2^59)) 0).det (2^59) 512 64 = some 0x0203 ∧
    (∀ va ∈ [0x1000, scrBase], addrTrap (streaming va) (taskOfCore (streaming va) 0).pword (taskOfCore (streaming va) 0).det va 512 64 = none) ∧
    (streaming 0x1000).xl.l2change = [] ∧ Spec.pieces (streaming 0x1000) 0 0x1000 (2^30 + 0x1000) false := by
  refine ⟨⟨⟨false, rfl⟩, [], [], by decide +kernel, (fun _ h => by cases h)⟩, ⟨(fun _ h => by cases h), (fun _ h => by cases h)⟩, ?_⟩
  unfold Spec.near Spec.home Spec.pieces
  decide +kernel

/-- Core 0 whose stream has asked for its element, which is due. -/
def asked1 (va : Nat) : State := { event (withCore (setStream (bound1 va 0) 1 { streamOf (bound1 va 0) 1 with reqs := [(1, 3)] })) (.stream 0 1) with cycle := 1 }
theorem witness_streams_due :
    (∀ va ∈ [0x1000, scrBase], (streamOf (coreGet (asked1 va) 0) 1).reqs = (1, 3) :: [] ∧ 1 ≤ (asked1 va).cycle ∧ streamVa (coreGet (asked1 va) 0) (streamOf (coreGet (asked1 va) 0) 1) 0 = va ∧
      elemBehind (coreGet (asked1 va) 0) false va 3 = false ∧ addrTrap (asked1 va) (taskOfCore (asked1 va) 0).pword false va 512 64 = none ∧ wantsElement (coreGet (asked1 va) 0) 1 = false ∧
      (coreGet (asked1 va) 0).fences = []) ∧
    Spec.calm (asked1 0x1000) ∧ Spec.calm (asked1 scrBase) ∧ Spec.pieces (asked1 0x1000) 0 0x1000 (2^30 + 0x1000) false := by
  refine ⟨?_, calm_of _ ?_ ?_ ?_ ?_, calm_of _ ?_ ?_ ?_ ?_, ?_⟩ <;> (try unfold Spec.NoLines) <;> (try unfold Spec.Unlogged) <;> (try unfold Spec.pieces) <;> decide +kernel

def outE (va due : Nat) : OutElem := ⟨1, 4, va, ⟨7, 0⟩, due, 6⟩
def storing (va due : Nat) : State := { event (withCore { bound1 va 1 with outq := [outE va due] }) (.stream 0 1) with cycle := 1 }

/-- Elements that ask for their place, elements that are stored in memory and in the scratchpad, and one that meets no memory. -/
theorem witness_streams_out :
    (∀ e ∈ [outE 0x1000 0, outE 0x1000 1, outE scrBase 0, outE scrBase 1, outE (2^59) 0], nextOut (coreGet (storing e.va e.due) 0) 1 = some e ∧ fenceHolds (coreGet (storing e.va e.due) 0) 3 e.id = false ∧
      elemBehind (coreGet (storing e.va e.due) 0) true e.va e.id = false ∧ e.due ≤ (storing e.va e.due).cycle) ∧
    addrTrap (storing (2^59) 0) (taskOfCore (storing (2^59) 0) 0).pword (taskOfCore (storing (2^59) 0) 0).det (2^59) 512 64 = some 0x0203 ∧
    (∀ e ∈ [outE 0x1000 0, outE 0x1000 1, outE scrBase 0, outE scrBase 1], addrTrap (storing e.va e.due) (taskOfCore (storing e.va e.due) 0).pword (taskOfCore (storing e.va e.due) 0).det e.va 512 64 = none ∧
      outTrap (storing e.va e.due) 3 e.va 512 (e.x.t ≠ 0) = false) ∧
    (∀ d ∈ [0, 1], Spec.pieces (storing 0x1000 d) 0 0x1000 (2^30 + 0x1000) true) ∧ Spec.calm (storing 0x1000 1) ∧ Spec.calm (storing scrBase 1) := by
  refine ⟨?_, ?_, ?_, ?_, calm_of _ ?_ ?_ ?_ ?_, calm_of _ ?_ ?_ ?_ ?_⟩ <;> (try unfold Spec.NoLines) <;> (try unfold Spec.Unlogged) <;> (try unfold Spec.pieces) <;> decide +kernel

/-- What holds of the state and the value of a command's step that goes on. -/
def got {α : Type} (r : Res α) (f : State → α → Bool) : Bool :=
  match r with
  | .ok s x => f s x
  | _ => false

theorem got_ok {α : Type} {r : Res α} {f : State → α → Bool} (h : got r f = true) : ∃ s x, r = .ok s x ∧ f s x = true := by
  cases r with
  | ok s x => exact ⟨s, x, rfl, h⟩
  | fail => cases h
  | wait => cases h

/-- What `calm_of` asks, and bytes at hand, as Booleans. -/
def isCalm (s : State) : Bool :=
  (s.cores.all fun e => e.2.upd == []) && ((List.range 96).all fun v => bitsAt (pfGet s (0xF3000 + 64 * v) 4) 8 1 == 0) && s.xl.l2change == [] &&
    (List.range 128).all fun i => !(bitsAt (pfGet s (fmwOff (i / 64) (i / 16 % 4) (i % 16) + 16) 8) 30 1 == 1)

theorem calm_of_isCalm {s : State} (h : isCalm s = true) : Spec.calm s := by
  simp only [isCalm, Bool.and_eq_true, List.all_eq_true, beq_iff_eq, List.mem_range] at h
  exact calm_of s h.1.1.1 h.1.1.2 h.1.2 fun i hi => by simpa using h.2 i hi

def isAtHand (s : State) (m : Cmd) (at_ : Nat → Nat) (va n : Nat) (stores : Bool) : Bool :=
  (List.range n).all fun j => decide (addrTrap s m.pword false (va + j) 1 1 = none) && (!stores || !outTrap s m.part (va + j) 1 true) &&
    (decide ((va + j) / 2^60 % 16 = 15) ||
      decide ((va + j) / 2^60 % 16 < 2) && decide (at_ (va + j) / 2^60 < 2) && (decide (n ≤ j + 1) || decide ((va + j + 1) % 4096 = 0) || decide (at_ (va + j + 1) = at_ (va + j) + 1)) &&
        decide (lookup s m.part (va + j) false = .ok (at_ (va + j))) && (!stores || decide (lookup s m.part (va + j) true = .ok (at_ (va + j)))))

theorem atHand_of {s : State} {m : Cmd} {at_ : Nat → Nat} {va n : Nat} {stores : Bool} (h : isAtHand s m at_ va n stores = true) : Spec.atHand s m at_ va n stores := by
  intro b h1 h2
  obtain ⟨j, rfl⟩ : ∃ j, b = va + j := ⟨b - va, by omega⟩
  have h3 := List.all_eq_true.mp h j (List.mem_range.mpr (by omega))
  simp only [Bool.and_eq_true, Bool.or_eq_true, decide_eq_true_eq, Bool.not_eq_true'] at h3
  refine ⟨h3.1.1, fun hs => h3.1.2.resolve_left (by rw [hs]; decide), h3.2.imp id fun h4 => ⟨h4.1.1.1.1, h4.1.1.1.2, fun h5 h6 => ?_, h4.1.2, fun hs => h4.2.resolve_left (by rw [hs]; decide)⟩⟩
  rcases h4.1.1.2 with (h7 | h7) | h7
  · omega
  · exact absurd h7 h6
  · exact h7

/-- The map of the first gibibyte of partition 3. -/
def mapped (va : Nat) : Nat := 2^30 + va

/-- A FILL of two rows of 40 bytes, or a COPY of two from a source: its descriptor stands at the scratchpad's first byte. -/
def copyOp (opc : Nat) : AOp := mkOp 4 1 (.copy opc 9 scrBase) []
def copying (opc src dst : Nat) : State :=
  event (withCore { Core.blank with ops := [copyOp opc], scratch := (scrWrite Core.blank 0 (leBytes (src + dst * 2^64 + 40 * 2^128 + 2 * 2^160 + 128 * 2^224) 64) false).scratch }) (.op 0 4)

/-- A FILL in memory, a COPY from memory to the scratchpad, each with its rows at hand, and a FILL whose descriptor breaks a limit. -/
theorem witness_copies :
    (∀ x ∈ [((2 : Nat), (0 : Nat), (0x1000 : Nat)), (0, 0x1000, scrBase + 2048)], let s := copying x.1 x.2.1 x.2.2; let m := cmdOf s 0 (copyOp x.1)
      Spec.Ready s 0 (copyOp x.1) ∧ (taskOfCore s 0).det = false ∧ ∃ s1 d, readCmd m 0 s scrBase 64 = .ok s1 d ∧ copyBad x.1 d.1 = none ∧ Spec.calm s1 ∧ (Spec.copyChunksOf d.1).length = 2 ∧ Spec.landsInTurn s1 0 (copyOp x.1) ∧
        ∀ e ∈ Spec.copyChunksOf d.1, Spec.atHand s1 m mapped e.1 e.2.2 true ∧ (x.1 = 0 → Spec.atHand s1 m mapped e.2.1 e.2.2 false)) ∧
    got (readCmd (cmdOf (copying 2 1 0) 0 (copyOp 2)) 0 (copying 2 1 0) scrBase 64) (fun _ d => copyBad 2 d.1 == some 0) = true := by
  have h : ∀ x ∈ [((2 : Nat), (0 : Nat), (0x1000 : Nat)), (0, 0x1000, scrBase + 2048)], let s := copying x.1 x.2.1 x.2.2; let m := cmdOf s 0 (copyOp x.1)
      got (readCmd m 0 s scrBase 64) (fun s1 d => copyBad x.1 d.1 == none && isCalm s1 && (Spec.copyChunksOf d.1).length == 2 && ((coreGet s1 0).ops.all fun e => decide (4 ≤ e.id)) &&
        (Spec.copyChunksOf d.1).all fun e => isAtHand s1 m mapped e.1 e.2.2 true && (x.1 == 2 || isAtHand s1 m mapped e.2.1 e.2.2 false)) = true := by decide +kernel
  refine ⟨fun x hx => ⟨?_, ?_, ?_⟩, by decide +kernel⟩
  · revert x; unfold Spec.Ready; decide +kernel
  · revert x; decide +kernel
  · obtain ⟨s1, d, hr, hf⟩ := got_ok (h x hx)
    simp only [Bool.and_eq_true, beq_iff_eq, List.all_eq_true, Bool.or_eq_true] at hf
    refine ⟨s1, d, hr, hf.1.1.1.1, calm_of_isCalm hf.1.1.1.2, hf.1.1.2, fun e he hlt => absurd hlt (Nat.not_lt.mpr (of_decide_eq_true (hf.1.2 e he))), fun e he => ⟨atHand_of (hf.2 e he).1, fun h0 => ?_⟩⟩
    exact atHand_of ((hf.2 e he).2.resolve_left (by rw [h0]; decide))

/-- A COPYP of one tile: window 0 holds 256 elements of 4 bits, at VA 0x8000, for planes of width 2 in blocks of 8. -/
def tiling : State :=
  let s := event (withCore { Core.blank with ops := [copyOp 1], scratch := (scrWrite Core.blank 0 (leBytes (0x8000 + (scrBase + 1024) * 2^64 + 2^160) 64) false).scratch }) (.op 0 4)
  pfSet (pfSet (pfSet s 0xC0000 8 (2^30 + 0x8000)) 0xC0008 8 128) 0xC0010 8 0x80000100

def isTiling (s1 : State) (m : Cmd) (d : List Byte) : Bool :=
  let x := winOf s1 0
  copyBad 1 d == none && decide (x.blk ≤ 256) && bfield d 20 4 == 1 && bfield d 0 8 == 0x8000 && bfield d 8 8 == scrBase + 1024 && Spec.tileSize x.w x.blk == 192 &&
    32 * fmtBits x.fmt == 128 && x.size == 128 && ((List.range 128).all fun j => decide (windowAt s1 (x.base + j) = some 0)) &&
    ((List.range 128).all fun b => decide (lookup s1 m.part (0x8000 + b) false = .ok (x.base + b))) && decide (Spec.bandFactor s1 x 0 = some (1, 0)) &&
    ((List.range (256 / x.blk)).all fun b => (alignBlock x.fmt x.w (Spec.blockValues s1 x 0 b)).isSome) && decide (addrTrap s1 m.pword false (scrBase + 1024) 192 1 = none) &&
    !outTrap s1 m.part (scrBase + 1024) 192 true && isCalm s1

theorem witness_tiles : let m := cmdOf tiling 0 (copyOp 1)
    Spec.Ready tiling 0 (copyOp 1) ∧ (taskOfCore tiling 0).det = false ∧ ∃ s1 d, readCmd m 0 tiling scrBase 64 = .ok s1 d ∧ isTiling s1 m d.1 = true ∧ Spec.calm s1 := by
  have h : got (readCmd (cmdOf tiling 0 (copyOp 1)) 0 tiling scrBase 64) (fun s1 d => isTiling s1 (cmdOf tiling 0 (copyOp 1)) d.1) = true := by decide +kernel
  obtain ⟨s1, d, hr, hf⟩ := got_ok h
  refine ⟨by unfold Spec.Ready; decide +kernel, by decide +kernel, s1, d, hr, hf, ?_⟩
  simp only [isTiling, Bool.and_eq_true] at hf
  exact calm_of_isCalm hf.2

def engOp (e : EngOp) : AOp := mkOp 4 2 (.eng e) []
/-- Core 0 with one engine operation; a store of one routine; a call that runs or has finished. -/
def engine (e : EngOp) (call : Option Call) : State := event (withCore { Core.blank with ops := [engOp e], ulen := [(129, (1538, 5))], call := call }) (.op 0 4)

theorem witness_engine :
    (∀ e ∈ [EngOp.call 129 [] 16, .call 7 [] 16, .accz 1008 1 0, .accwr 0 1 ⟨0, 0⟩, .norm 8 1 0, .accrd 5 0 1 0 0, .mlat 0 0],
      ∀ k ∈ [none, some call0, some { call0 with done := true }], Spec.Ready (engine e k) 0 (engOp e)) ∧
    routineAt (coreGet (engine (.call 129 [] 16) none) 0) 129 = some (1538, 5) ∧ routineAt (coreGet (engine (.call 7 [] 16) none) 0) 7 = none ∧
    (coreGet (engine (.call 129 [] 16) (some call0)) 0).unit < 48 ∧ (coreGet (engine (.call 129 [] 16) (some call0)) 0).bead < 8 ∧
    Spec.accOffset (.norm 8 1 0) = some 8 ∧ mlatBad (coreGet (engine (.mlat 0 0) none) 0) (scrBytes (taskOfCore (engine (.mlat 0 0) none) 0).pword) 0 = some 6 := by
  unfold Spec.Ready
  decide +kernel

/-- A latch load whose descriptor is good: a tile at 64, one column of width 2 in blocks of 8. -/
def latching : State :=
  event (withCore { Core.blank with ops := [engOp (.mlat 0 0)], scratch := (scrWrite Core.blank 0 (leBytes (64 + 2^32 + 2 * 2^48) 64) false).scratch }) (.op 0 4)
theorem witness_latch_load :
    Spec.Ready latching 0 (engOp (.mlat 0 0)) ∧ Spec.scrNum (coreGet latching 0) 0 4 = 64 ∧ Spec.scrNum (coreGet latching 0) 4 2 = 1 ∧ Spec.scrNum (coreGet latching 0) 6 1 = 2 ∧ Spec.scrNum (coreGet latching 0) 7 1 = 0 ∧
    64 + 1 * Spec.tileSize 2 8 ≤ scrBytes (taskOfCore latching 0).pword ∧ ∀ i < 56, Spec.scrNum (coreGet latching 0) (8 + i) 1 = 0 := by
  unfold Spec.Ready
  decide +kernel

/-- EN commands: a draw, a pool's statistics, a selection that completes and one that fails, launches and releases. -/
theorem witness_en :
    (∀ k ∈ [AKind.draw 9 0 0 0 0, .kv 2 9 0 0, .sel 9 scrBase, .sel 9 (2^31), .launch 9 32, .launch 9 scrBase, .release 9 8192 0, .release 9 8191 0],
      Spec.Ready (holding (mkOp 4 5 k [])) 0 (mkOp 4 5 k [])) ∧
    Spec.enNow (holding (mkOp 4 5 (.draw 9 0 0 0 0) [])) 0 (.draw 9 0 0 0 0) ≠ none ∧ Spec.enReads (.sel 9 scrBase) = some 9 ∧
    (∀ k ∈ [AKind.kv 0 9 64 0, .tithe 0 9 scrBase, .sel 9 scrBase], (match enRun (cmdOf (holding (mkOp 4 5 k [])) 0 (mkOp 4 5 k [])) false (holding (mkOp 4 5 k [])) k with | .wait .. => false | _ => true) = true) ∧
    Spec.near (mkOp 4 5 (.launch 9 scrBase) []) scrBase ∧ Spec.NoLines (holding (mkOp 4 5 (.launch 9 scrBase) [])) ∧
    (Spec.readNum (holding (mkOp 4 5 (.launch 9 scrBase) [])) 0 (mkOp 4 5 (.launch 9 scrBase) []) scrBase 64) % 256 ≠ 1 ∧
    (Spec.readNum (event (withCore { Core.blank with ops := [mkOp 4 5 (.launch 9 scrBase) []], scratch := [(0, 1)] }) (.op 0 4)) 0 (mkOp 4 5 (.launch 9 scrBase) []) scrBase 64) % 256 = 1 := by
  unfold Spec.Ready Spec.near Spec.home Spec.NoLines
  decide +kernel

/-- Distinct bytes of distinct ranges, as a Boolean. -/
def isApart (at_ : Nat → Nat) (l : List (Nat × Nat)) : Bool :=
  l.all fun e => l.all fun x => (List.range e.2).all fun i => (List.range x.2).all fun j =>
    decide (placeOf at_ (e.1 + i) ≠ placeOf at_ (x.1 + j)) || (e == x && i == j)
where placeOf (at_ : Nat → Nat) (va : Nat) : Nat := if va / 2^60 % 16 = 15 then 15 * 2^60 + va % 2^60 else at_ va

theorem apart_of {at_ : Nat → Nat} {l : List (Nat × Nat)} (h : isApart at_ l = true) : Spec.apart at_ l := by
  intro e he x hx i hi j hj heq
  have h1 := List.all_eq_true.mp (List.all_eq_true.mp (List.all_eq_true.mp (List.all_eq_true.mp h e he) x hx) i (List.mem_range.mpr hi)) j (List.mem_range.mpr hj)
  simp only [Bool.or_eq_true, decide_eq_true_eq, Bool.and_eq_true, beq_iff_eq] at h1
  exact h1.resolve_left fun hne => hne heq

/-- One range of the scratchpad. -/
theorem apart_local {at_ : Nat → Nat} {k n : Nat} (h : k + n ≤ 2^60) : Spec.apart at_ [(scrBase + k, n)] := by
  intro e he x hx i hi j hj heq
  obtain rfl := List.mem_singleton.mp he
  obtain rfl := List.mem_singleton.mp hx
  refine ⟨rfl, ?_⟩
  have e1 : ∀ x < n, Spec.placeAt at_ (scrBase + k + x) = 15 * 2^60 + (k + x) := by
    intro x hx; unfold Spec.placeAt scrBase; rw [if_pos (by omega)]; omega
  have := (e1 i hi).symm.trans (heq.trans (e1 j hj))
  omega

/-- Core 0 with an EN command whose descriptor stands at the scratchpad's first byte; partition 3's pool has 16 pages at 2^32, all free but those its bitmap at 2^30 + 0x100000 says are not. -/
def enOp (k : AKind) : AOp := mkOp 4 5 k []
def enState (k : AKind) (desc : Nat) : State :=
  event (withCore { Core.blank with ops := [enOp k], scratch := (scrWrite Core.blank 0 (leBytes desc 64) false).scratch }) (.op 0 4)

/-- SELACC over four accumulators into 64 buckets, from afresh. -/
def selDesc : Nat := 4 * 2^32 + 6 * 2^64 + 0x3F800000 * 2^96 + (scrBase + 1024) * 2^128
theorem witness_selacc : let s := enState (.sel 9 scrBase) selDesc; let m := cmdOf s 0 (enOp (.sel 9 scrBase)); let d := Spec.descBytes s 0 mapped scrBase 64
    Spec.Ready s 0 (enOp (.sel 9 scrBase)) ∧ Spec.calm s ∧ scrBase % 64 = 0 ∧ selBad m d = none ∧ bfield d 4 4 = 4 ∧ bfield d 8 1 = 6 ∧ bfield d 9 1 = 0 ∧ bfield d 16 8 = scrBase + 1024 ∧
    Spec.atHand s m mapped scrBase 64 false ∧ Spec.atHand s m mapped (scrBase + 1024) (64 + 8 * 2^6) true ∧ Spec.apart mapped [(scrBase + 1024, 64 + 8 * 2^6)] :=
  ⟨by unfold Spec.Ready; decide +kernel, calm_of_isCalm (by decide +kernel), by decide, by decide +kernel, by decide +kernel, by decide +kernel, by decide +kernel, by decide +kernel,
    atHand_of (by decide +kernel), atHand_of (by decide +kernel), apart_local (by decide)⟩

/-- A sequence record at VA 0x1000: two pages of at most eight, from page 1 on its own, listed in the scratchpad; the pool and its bitmap, of which pages 3 and 5 are free. -/
def pooled (opc n free : Nat) : State :=
  let s := enState (.kv opc 9 0x1000 (BitVec.ofNat 64 n)) 0
  let s1 := pfSet (pfSet (pfSet (pfSet s (0xF5000 + 96) 8 (2^32)) (0xF5008 + 96) 8 (2^63 + 16)) (0xF5010 + 96) 4 free) (0xF5018 + 96) 8 (2^31)
  let s2 := putBytes (putBytes s1 (2^30 + 0x1000) (leBytes (2 * 2^64 + 2^96 + (scrBase + 1024) * 2^128 + 8 * 2^224) 64)) (2^31) [40]
  modCore s2 0 fun c => scrWrite c 1024 (leBytes (2^32 + 65536 + (2^32 + 2 * 65536) * 2^64) 16) false

theorem witness_pool : ∀ x ∈ [((0 : Nat), (2 : Nat), (2 : Nat)), (0, 3, 2), (1, 1, 2)],
    let s := pooled x.1 x.2.1 x.2.2; let o := enOp (.kv x.1 9 0x1000 (BitVec.ofNat 64 x.2.1))
    Spec.Ready s 0 o ∧ partOfCore s 0 = 3 ∧ (BitVec.ofNat 64 x.2.1).toNat % 65536 = x.2.1 ∧ Spec.numAt s 0 mapped 0x1008 4 = 2 ∧ Spec.numAt s 0 mapped 0x100C 4 = 1 ∧
    Spec.numAt s 0 mapped 0x1010 8 = scrBase + 1024 ∧ Spec.numAt s 0 mapped 0x101C 4 = 8 ∧ Spec.poolOn s 3 ∧ Spec.poolFree s 3 = x.2.2 ∧ Spec.poolPages s 3 = 16 ∧ Spec.poolBase s 3 = 2^32 ∧
    (∀ i ∈ [3, 5], Spec.pageFree s 3 i = true) ∧ (∀ j < 16, Spec.pageFree s 3 j = true → j ∈ [3, 5]) ∧
    Spec.offMap s 3 mapped [(0x1000, 64), (scrBase + 1024 + 8, 24)] ∧ Spec.numAt s 0 mapped (scrBase + 1024 + 8) 8 = Spec.poolBase s 3 + 65536 * 2 := by
  unfold Spec.Ready Spec.poolOn Spec.offMap
  decide +kernel

theorem witness_pool_hand : ∀ x ∈ [((0 : Nat), (2 : Nat), (2 : Nat)), (0, 3, 2), (1, 1, 2)],
    let s := pooled x.1 x.2.1 x.2.2; let m := cmdOf s 0 (enOp (.kv x.1 9 0x1000 (BitVec.ofNat 64 x.2.1)))
    Spec.calm s ∧ Spec.atHand s m mapped 0x1000 64 true ∧ Spec.atHand s m mapped (scrBase + 1024 + 8 * 2) (8 * 2) true ∧ Spec.atHand s m mapped (scrBase + 1024 + 8) 8 false ∧
    Spec.apart mapped [(0x1000, 64), (scrBase + 1024 + 8 * 2, 8 * 2)] ∧ Spec.apart mapped [(0x1000, 64)] := by
  intro x hx
  have h : ∀ x ∈ [((0 : Nat), (2 : Nat), (2 : Nat)), (0, 3, 2), (1, 1, 2)], let s := pooled x.1 x.2.1 x.2.2; let m := cmdOf s 0 (enOp (.kv x.1 9 0x1000 (BitVec.ofNat 64 x.2.1)))
      isCalm s = true ∧ isAtHand s m mapped 0x1000 64 true = true ∧ isAtHand s m mapped (scrBase + 1024 + 8 * 2) (8 * 2) true = true ∧ isAtHand s m mapped (scrBase + 1024 + 8) 8 false = true := by decide +kernel
  have h := h x hx
  exact ⟨calm_of_isCalm h.1, atHand_of h.2.1, atHand_of h.2.2.1, atHand_of h.2.2.2, apart_of (by decide +kernel), apart_of (by decide +kernel)⟩

/-- TITHE over two tokens of one group: the first stands masked. -/
def titheDesc : Nat := (scrBase + 1024) + (scrBase + 1088) * 2^64 + (scrBase + 1152) * 2^128 + (scrBase + 1216) * 2^192 + (scrBase + 0x10000) * 2^256 + 2 * 2^320 + 2^384
def tithing (opc : Nat) (desc : Nat) : State :=
  modCore (modCore (enState (.tithe opc 9 scrBase) desc) 0 fun c => scrWrite c 1088 [1] false) 0 fun c => scrWrite c 0x10000 [2] false
def tithed (p : Nat) : Bool := decide (p = 0)
def titheRanges : List (Nat × Nat) := [(scrBase + 1216, 4), (scrBase + 1088, 1), (scrBase + 0x10000, 1), (scrBase + 0x18000, 2)]

theorem witness_tithe : let s := tithing 0 titheDesc; let m := cmdOf s 0 (enOp (.tithe 0 9 scrBase)); let d := Spec.descBytes s 0 mapped scrBase 64
    Spec.Ready s 0 (enOp (.tithe 0 9 scrBase)) ∧ Spec.calm s ∧ titheBad m d = none ∧ bfield d 40 2 = 2 ∧ bfield d 48 1 = 1 ∧
    (List.range 2).filterMap (fun p => if tithed p then some (bfield d 24 8 + 4 * p, 4) else none) ++ (bfield d 8 8, (2 + 7) / 8) :: Spec.mapRows (bfield d 32 8) 2 0 1 = titheRanges ∧
    Spec.atHand s m mapped scrBase 64 false ∧ Spec.atHand s m mapped (scrBase + 1024) (4 * 2) false ∧ bfield d 0 8 = scrBase + 1024 ∧ bfield d 16 8 = scrBase + 1152 ∧
    (∀ e ∈ titheRanges, Spec.atHand s m mapped e.1 e.2 true) ∧ Spec.atHand s m mapped (scrBase + 1152) 4 false ∧ Spec.apart mapped (titheRanges ++ [(scrBase + 1024, 4 * 2), (scrBase + 1152, 4 * 2)]) ∧
    (∀ p, tithed p = (decide (p < 2) && (Spec.byteAt s 0 (Spec.placeAt mapped (bfield d 8 8 + p / 8))).getLsbD (p % 8))) ∧ [0].Nodup ∧ (∀ p ∈ [0], tithed p = true) ∧
    [0].length = (if (List.range 2).countP (tithed ·) = 0 then 0 else Nat.max 1 ((bfield d 42 2 * (List.range 2).countP (tithed ·) + 0x8000) / 65536)) ∧
    (∀ p ∈ [0], ∀ q, tithed q = true → q ∉ [0] → p < q) ∧ (∀ p, tithed p = (tithed p && ([0].contains p || bfield d 50 1 == 1))) := by
  have h : ∀ e ∈ titheRanges, isAtHand (tithing 0 titheDesc) (cmdOf (tithing 0 titheDesc) 0 (enOp (.tithe 0 9 scrBase))) mapped e.1 e.2 true = true := by decide +kernel
  refine ⟨by unfold Spec.Ready; decide +kernel, calm_of_isCalm (by decide +kernel), by decide +kernel, by decide +kernel, by decide +kernel, by decide +kernel, atHand_of (by decide +kernel),
    atHand_of (by decide +kernel), by decide +kernel, by decide +kernel, fun e he => atHand_of (h e he), atHand_of (by decide +kernel), apart_of (by decide +kernel), fun p => ?_, by decide, by decide, by decide +kernel,
    fun p hp q hq hn => ?_, fun p => ?_⟩
  · by_cases hp : p < 2
    · revert p; decide +kernel
    · simp [tithed, hp]; omega
  · simp only [tithed, decide_eq_true_eq] at hq; subst hq; exact absurd (List.mem_singleton.mpr rfl) hn
  · by_cases hp : p = 0
    · subst hp; decide
    · simp [tithed, hp]

/-- TMAP and TCLRD of the same map, of which row 1 is dirty. -/
def tmapDesc (opc : Nat) : Nat := (scrBase + 0x10000) + (if opc = 1 then scrBase + 1024 else 0) * 2^64 + 2 * 2^128 + 2^152
theorem witness_dirty_maps : ∀ opc ∈ [1, 2], let s := tithing opc (tmapDesc opc); let m := cmdOf s 0 (enOp (.tithe opc 9 scrBase)); let d := Spec.descBytes s 0 mapped scrBase 64
    Spec.Ready s 0 (enOp (.tithe opc 9 scrBase)) ∧ Spec.calm s ∧ tmapBad m (opc == 2) d = none ∧
    (List.range 1).flatMap (fun j => ((List.range 2).filter fun p => Spec.dirtyBit s 0 mapped (scrBase + 0x10000) (0 + j) p).map fun p => (0 + j, p)) = [(0, 1)] ∧ Spec.atHand s m mapped scrBase 64 false ∧
    (opc = 1 → Spec.atHand s m mapped (scrBase + 0x10000 + 512 * (0 + 0)) 1 false ∧ Spec.atHand s m mapped (scrBase + 1024) (4 * 1) true ∧ Spec.apart mapped [(scrBase + 1024, 4 * 1), (scrBase + 0x10000, 1)]) ∧
    (∀ e ∈ Spec.mapRows (scrBase + 0x10000) 2 0 1, Spec.atHand s m mapped e.1 e.2 true) ∧ Spec.apart mapped (Spec.mapRows (scrBase + 0x10000) 2 0 1) := by
  intro opc ho
  have h : ∀ opc ∈ [1, 2], let s := tithing opc (tmapDesc opc); let m := cmdOf s 0 (enOp (.tithe opc 9 scrBase))
      isCalm s = true ∧ isAtHand s m mapped scrBase 64 false = true ∧ isAtHand s m mapped (scrBase + 0x10000 + 512 * (0 + 0)) 1 false = true ∧ isAtHand s m mapped (scrBase + 1024) (4 * 1) true = true ∧
      ∀ e ∈ Spec.mapRows (scrBase + 0x10000) 2 0 1, isAtHand s m mapped e.1 e.2 true = true := by decide +kernel
  obtain ⟨h1, h2, h3, h4, h5⟩ := h opc ho
  refine ⟨?_, calm_of_isCalm h1, ?_, ?_, atHand_of h2, fun _ => ⟨atHand_of h3, atHand_of h4, apart_of (by decide +kernel)⟩, fun e he => atHand_of (h5 e he), apart_of (by decide +kernel)⟩ <;>
    revert opc <;> (try unfold Spec.Ready) <;> decide +kernel

/-! ### The network -/

/-- Entry 7 of the network is partition 3's, open; core 0 holds a network command whose descriptor stands at its scratchpad's first byte, and two bytes of a group. -/
def netState (k : AKind) (desc : Nat) : State :=
  event (pfSet (withCore { Core.blank with ops := [mkOp 4 4 k []], scratch := (scrWrite (scrWrite Core.blank 0 (leBytes desc 64) false) 512 [0, 0, 7, 0] false).scratch }) (0xF6000 + 56) 8 (2^63 + 3 * 2^48)) (.op 0 4)
def nsend (n : Nat) : Nat := 7 + n * 2^32 + (scrBase + 256) * 2^64 + 0x55 * 2^128
def ncoll : Nat := 0 + 0 * 2^8 + 2 * 2^16 + 4 * 2^32 + (scrBase + 256) * 2^64 + (scrBase + 320) * 2^128 + (scrBase + 512) * 2^192
def netOp (i : Nat) : AOp := mkOp 4 4 (.net i 9 scrBase) []
def nets (i desc : Nat) : State := pfSet (netState (.net i 9 scrBase) desc) 0xF8000 8 0x3FFFFFF
def netM (i desc : Nat) : Cmd := cmdOf (nets i desc) 0 (netOp i)

/-- NSEND and NRECV with a descriptor that breaks a limit, on an entry that another partition holds, on one that is abandoned, and on one that is open; NCOLL on a group of two. -/
theorem witness_net_start :
    (∀ i ∈ [0, 1, 2], Spec.Starts (nets i (if i = 2 then ncoll else nsend 64)) 0 (netOp i)) ∧
    (∀ i ∈ [0, 1], ∀ n ∈ [0, 64], got (enDesc (netM i (nsend n)) (nets i (nsend n)) scrBase) (fun s1 d =>
      decide (((if i = 0 then nsendBad (netM i (nsend n)) d.1 else nrecvBad (netM i (nsend n)) d.1) = none ↔ n = 64)) && nctxOwned s1 (bfield d.1 0 2) 3 && !nctxOwned { s1 with pf := [] } (bfield d.1 0 2) 3 &&
      !netBehind (nets i (nsend n)) 0 4 [(scrBase, 64)] && !netBehind s1 0 4 [(bfield d.1 8 8, bfield d.1 4 4)] &&
      decide (bfield d.1 0 2 = 7 ∧ s1.net.abandoned = [] ∧ (Tbl.get [] s1.net.posted 7).length < 64) && (decide (n = 0) || got (readCmd (netM i (nsend n)) 0 s1 (bfield d.1 8 8) (bfield d.1 4 4)) fun _ _ => true)) = true) ∧
    got (enDesc (netM 2 ncoll) (nets 2 ncoll) scrBase) (fun s1 d => (ncollBad (netM 2 ncoll) d.1).isNone && !netBehind (nets 2 ncoll) 0 4 [(scrBase, 64)] &&
      !netBehind s1 0 4 [(bfield d.1 24 8, 2 * bfield d.1 2 1), (bfield d.1 8 8, 4 * bfield d.1 4 4)] &&
      got (readCmd (netM 2 ncoll) 0 s1 (bfield d.1 24 8) (2 * bfield d.1 2 1)) (fun s2 g => got (readCmd (netM 2 ncoll) 0 s2 (bfield d.1 8 8) (4 * bfield d.1 4 4)) fun s3 _ =>
        decide ((List.range (bfield d.1 2 1)).map (fun j => bfield g.1 (2 * j) 2) = [0, 7] ∧ (netM 2 ncoll).part = partOfCore s3 0 ∧ nctxOwned s3 7 3 = true ∧ s3.net.abandoned = []))) = true := by
  unfold Spec.Starts Spec.Ready
  decide +kernel

/-- An NSEND whose descriptor an earlier NRECV is to write: it waits. -/
theorem witness_net_behind :
    let s := event (pfSet (withCore { Core.blank with ops := [mkOp 4 4 (.net 0 9 scrBase) [], mkOp 3 4 (.posted 9 (scrBase + 32) 7 64 (scrBase + 256)) []] }) 0xF8000 8 0x3FFFFFF) (.op 0 4)
    Spec.Starts s 0 (netOp 0) ∧ netBehind s 0 4 [(scrBase, 64)] = true := by
  unfold Spec.Starts Spec.Ready
  decide +kernel

/-- A message that has been sent, and waits or not for its acknowledgement; the same in deterministic mode. -/
theorem witness_net_sent :
    liveOp (netState (.sent 9 7 64) 0) 0 4 = some (mkOp 4 4 (.sent 9 7 64) []) ∧ (mkOp 4 4 (.sent 9 7 64) []).acks = 0 ∧ ({ mkOp 4 4 (.sent 9 7 64) [] with acks := 1 }).acks ≠ 0 ∧
    (taskOfCore (netState (.sent 9 7 64) 0) 0).det = false ∧
    (taskOfCore { netState (.sent 9 7 64) 0 with rk := { Reckoner.reset with tasks := [(5, { task5 with hdr := task5.hdr ||| 0x2000000000 })] } } 0).det = true := by
  decide +kernel

def arriving (k : AKind) (posted : List (Nat × Nat)) (n : Nat) : State :=
  { event (netState k 0) (.message 7 0x55 (List.replicate n 1)) with net := { Network.reset with posted := if posted = [] then [] else [(7, posted)] } }
def posted0 : AKind := .posted 9 scrBase 7 64 (scrBase + 256)

/-- A message on a closed entry, one held, and one that goes to a posted buffer; one that finds no room. -/
theorem witness_net_arrival :
    bitsAt (pfGet base (0xF6000 + 8 * 7) 8) 63 1 = 0 ∧ bitsAt (pfGet (arriving posted0 [] 16) (0xF6000 + 8 * 7) 8) 63 1 = 1 ∧ heldBytes (arriving posted0 [] 16) 7 0 + 16 ≤ 262144 ∧
    Tbl.get [] (arriving posted0 [] 16).net.posted 7 = [] ∧ matchEntry (arriving posted0 [] 16) 0 0 = none ∧ bitsAt (pfGet (arriving posted0 [] 16) (0xF6000 + 8 * 7) 8) 56 2 = 0 ∧
    bitsAt (pfGet (arriving posted0 [] 16) (0xF6000 + 8 * 7) 8) 32 16 = 0 ∧ (matchEntry (pfSet base 0x60000 1 1) 0 0).isSome = true ∧
    (∀ n ∈ [16, 80], Nat.min 64 (List.replicate n (1 : Byte)).length = (if n = 16 then 16 else 64)) ∧
    (let s := arriving posted0 [(0, 4)] 16; let o := mkOp 4 4 posted0 []
     Tbl.get [] s.net.held 7 = [] ∧ Tbl.get [] s.net.posted 7 = (0, 4) :: [] ∧ liveOp s 0 4 = some o ∧ o.suspended = false ∧ netBehind s 0 4 (netWrites o.kind) = false ∧ (taskOfCore s 0).det = false ∧
     Spec.inScr s 0 (scrBase + 256) 16 ∧ Spec.inScr s 0 (scrBase + 16) 12 ∧ outTrap s 3 (scrBase + 256) 16 true = false ∧ outTrap s 3 (scrBase + 16) 12 true = false ∧
     (scrBase + 256 + 16 ≤ scrBase + 16 ∨ scrBase + 28 ≤ scrBase + 256)) := by
  unfold Spec.inScr
  decide +kernel

theorem witness_net_overflow (l : List Byte) (h : l.length = 262144) :
    let s := { base with net := { Network.reset with held := [(7, [⟨0, [1]⟩])] } }
    openBuffers s 7 ≤ (Tbl.get [] s.net.held 7).length ∧ 262144 < heldBytes s 7 (openBuffers s 7) + l.length := by
  rw [h]; decide +kernel

def collKind : AKind := .coll 9 (BitVec.ofNat 512 ncoll) [0, 7] 0
def colls (cs : List Contribution) : State := { netState collKind ncoll with net := { Network.reset with contribs := cs } }
def own : Contribution := ⟨65536, 4, 0, 2, 4, 0, [1, 2, 3, 4]⟩
def other (count : Nat) : Contribution := ⟨7, 0, 0, 2, BitVec.ofNat 32 count, 0, [1, 2, 3, 4]⟩

/-- A collective whose other member has not come, has come with the same shape, or differs. -/
theorem witness_collectives :
    (∀ l ∈ [[own], [own, other 4], [own, other 5]], Spec.Ready (colls l) 0 (mkOp 4 4 collKind [])) ∧
    collDiffers (colls [own, other 5]) (leBytes ncoll 64) [0, 7] 0 = some 4 ∧
    collDiffers (colls [own]) (leBytes ncoll 64) [0, 7] 0 = none ∧ collReady (colls [own]) (leBytes ncoll 64) [0, 7] 0 0 = false ∧
    collDiffers (colls [own, other 4]) (leBytes ncoll 64) [0, 7] 0 = none ∧ collReady (colls [own, other 4]) (leBytes ncoll 64) [0, 7] 0 0 = true ∧
    netBehind (colls [own, other 4]) 0 4 (netWrites collKind) = false ∧
    got (cmdWrite (cmdOf (colls [own, other 4]) 0 (mkOp 4 4 collKind [])) 0 false false 2 (colls [own, other 4]) (scrBase + 320) (leBytes (2 + 4 * 2^32 + 6 * 2^64 + 8 * 2^96) 16)) (fun s1 _ => !(taskOfCore s1 0).det) = true := by
  unfold Spec.Ready
  decide +kernel

theorem witness_abandoned : ((netState (.sent 9 7 64) 0).cores.map (·.1)).Nodup ∧ (coreGet (netState (.sent 9 7 64) 0) 0).ops.find? (fun o => usesCtx 7 o.kind) = some (mkOp 4 4 (.sent 9 7 64) []) ∧
    (∀ o ∈ (coreGet (netState (.sent 9 7 64) 0) 1).ops, usesCtx 7 o.kind = false) := by
  decide +kernel

/-! ### Translation -/

/-- Tables of partition 3 on die 0 for a 1 GiB page: a root, one table entry, and a leaf with the given flags. -/
def tables (leaf : Nat) : State :=
  putBytes (putBytes (pfSet (pfSet { State.reset with xl := { Xlat.reset with frames := [(1, .owned 3), (2, .owned 3), (16384, .owned 3), (21044, .owned 3)] } } (0xE0000 + 24) 8 (2^63 + 0x10000)) (0xE0400 + 24) 8 (4 * 2^60 + 2^40))
    0x10000 (leBytes 0x20001 8)) 0x20000 (leBytes (2^30 + leaf) 8)
def walking (leaf : Nat) : State := event (tables leaf) (.page 0 3 0x12345678 true)
def pull0 (back : Nat) : Pull := ⟨0, 3, 0, 65536, 0x20000, 65536, back, 0, 0, 0⟩
def pulling (back : Nat) (leaf : Nat) : State :=
  let s := event (tables leaf) (.page 0 3 0 true)
  pfSet (pfSet { s with xl := { s.xl with pulls := [pull0 back], atc := [⟨5 * 2^21 + 9, 3, 0, 65536, 2^32, true, true⟩] } } (0xE0800 + 24) 8 (2^63 + 5 * 2^21 + 9)) 0x82405 1 0x83

/-- A walk that meets no root, no table, a leaf in its frame and a leaf in transit; a pull that ends. -/
theorem witness_walks :
    Spec.NoneWaits (walking 7) ∧ Spec.NoLines (walking 7) ∧ Spec.Unlogged (walking 7) ∧ Spec.rootOf base 0 3 / 2^63 % 2 = 0 ∧
    Spec.entry0 { walking 7 with mem := [] } 0 3 0x12345678 % 2 = 0 ∧ Spec.rootOf { walking 7 with mem := [] } 0 3 / 2^63 % 2 = 1 ∧
    (∀ f ∈ [7, 0x87], Spec.rootOf (walking f) 0 3 / 2^63 % 2 = 1 ∧ Spec.entry0 (walking f) 0 3 0x12345678 % 4 = 1 ∧ malformed (Spec.entry0 (walking f) 0 3 0x12345678) 0 = false ∧
      frameStruck (walking f) 0 0x20000 = false ∧ frameOwner (walking f) 0 0x20000 = some 3 ∧ Spec.entry0 (walking f) 0 3 0x12345678 / 2^8 % 2^44 * 2^8 = 0x20000 ∧
      Spec.entry1 (walking f) 0 3 0x12345678 % 4 = 3 ∧ malformed (Spec.entry1 (walking f) 0 3 0x12345678) 1 = false ∧
      frameStruck (walking f) 0 (2^30) = false ∧ frameOwner (walking f) 0 (2^30) = some 3 ∧ Spec.entry1 (walking f) 0 3 0x12345678 / 2^8 % 2^44 * 2^8 = 2^30 ∧
      frameStruck (walking f) 0 (2^30 + 0x12345678 % 2^30) = false ∧ frameOwner (walking f) 0 (2^30 + 0x12345678 % 2^30) = some 3 ∧ (walking f).xl.l2change = [] ∧ 0 ∉ (walking f).rk.lost) ∧
    Spec.entry1 (walking 7) 0 3 0x12345678 / 2^6 % 4 = 0 ∧ Spec.entry1 (walking 7) 0 3 0x12345678 / 4 % 2 = 1 ∧ Spec.entry1 (walking 0x87) 0 3 0x12345678 / 2^6 % 4 = 2 ∧
    pfGet (walking 0x87) (0xE0400 + 0x200 * 0 + 8 * 3) 8 ≠ 0 ∧
    fenced (pfSet (walking 0x87) 0xE1100 8 (2^9)) ((8 * 2^60 + 9 * 2^48) / 2^48 % 512) = true ∧ fenced (walking 0x87) ((8 * 2^60 + 9 * 2^48) / 2^48 % 512) = false ∧
    (∀ back ∈ [2 * 2^60, 8 * 2^60 + 9 * 2^48, 4 * 2^60], let s := pulling back 0x47; let x := pull0 back
      pullOf s 0 3 0 = some x ∧ Memory.wf s.mem = true ∧ memVal s x.entry 8 % 2 = 1 ∧ memVal s x.entry 8 / 2^6 % 4 = 1 ∧ x.entry + 8 ≤ x.die * 2^60 + 2^20 ∧ s.xl.l2change = [] ∧ pullOwned s x = true ∧
      pullOwned { s with xl := { s.xl with frames := [] } } x = false ∧ fenced s 9 = false ∧ fenced (pfSet s 0xE1100 8 (2^9)) 9 = true ∧ x.done = 0 ∧ x.size % 4096 = 0 ∧
      s.xl.pulls.find? (fun e => e.die == 0 && e.part == 3 && e.va == 0) = some x ∧ now s < x.since + 100000 ∧ x.since + 100000 ≤ now { s with devTime := 100000 * 2^32 } ∧ s.xl.pulls = [x]) ∧
    (∀ k < 16, lookup (pulling (4 * 2^60) 0x47) 3 (4 * 2^60 + 4096 * k) false = .ok (4 * 2^60 + 2^32 + 4096 * k)) := by
  unfold Spec.NoneWaits Spec.NoLines Spec.Unlogged
  decide +kernel

def req0 (covered pri write : Bool) : AtsReq := ⟨3, 5 * 2^21 + 9, 4096, true, write, pri, if covered then [(0, 8192)] else []⟩
def hosted (r : AtsReq) (e : EvArg) : State :=
  event (pfSet (pfSet { State.reset with xl := { Xlat.reset with reqs := [r] } } (0xE0800 + 24) 8 (2^63 + 5 * 2^21 + 9)) 0x82405 1 0x83) e

/-- Answers to a request that was overtaken, to one that is allowed and to one that is refused; a Page Request's two answers; an invalidation and its end. -/
theorem witness_host_answers :
    (∀ r ∈ [req0 true false false, req0 false false false, req0 false false true], let s := hosted r (.ats 3 ⟨4096, 0, 0, true, false⟩)
      Spec.NoneWaits s ∧ max 4096 (2^0) = 4096 ∧ reqFor s 3 (4096 % 2^60) 4096 false = some r ∧ hostIdent s 3 = some (5 * 2^21 + 9) ∧ (priList s).length < 256) ∧
    (let s := hosted (req0 false true false) (.prg 3 4096 true); Spec.NoneWaits s ∧ reqFor s 3 (4096 % 2^60) 4096 true = some (req0 false true false) ∧ (priList s).length ≤ 256) ∧
    (let o := host0; let s := event { withCore { Core.blank with ops := [o] } with xl := Xlat.reset } (.inval (BitVec.ofNat 28 (5 * 2^21 + 9)) 0 12 7)
     o ∈ (coreGet s 0).ops ∧ partOfCore s 0 = 3 ∧ o.waiting = false ∧ ∃ g ∈ o.pages, g.1 * 4096 / 2^60 % 16 = 4 ∧ g.1 * 4096 % 2^60 < 0 + 4096 ∧ 0 < g.1 * 4096 % 2^60 + 4096) ∧
    (let s := event { base with xl := { Xlat.reset with invals := [(3, 7, [(0, 4)])] } } (.tag 7)
     s.xl.invals.find? (fun e => e.2.1 == 7 && !opsLive s e.2.2) = some (3, 7, [(0, 4)])) := by
  unfold Spec.NoneWaits
  decide +kernel

/-- Chip 9 of the domain, whose partition 2 is the local partition 3. -/
def peers (s : State) : State := pfSet s 0xE0C00 8 (2^63 + 9 + 2 * 2^9 + 3 * 2^16)

/-- Requests of a peer that is fenced, of one that maps to no partition, and of one that is served. -/
theorem witness_peers :
    fenced (pfSet base 0xE1100 8 (2^9)) 9 = true ∧ peerPart base 9 2 = none ∧
    fenced (peers base) 9 = false ∧ peerPart (peers base) 9 2 = some 3 ∧ Spec.NoLines (peers base) ∧ Spec.Unlogged (peers base) ∧ (peers base).xl.l2change = [] ∧ 0x1000 % 4096 + 64 ≤ 4096 ∧
    lookup (peers base) 3 (0 * 2^60 + 0x1000) false = .ok (2^30 + 0x1000) ∧ lookup (peers base) 3 (0 * 2^60 + 0x1000) true = .ok (2^30 + 0x1000) := by
  unfold Spec.NoLines Spec.Unlogged
  decide +kernel

def shoot0 (release : Bool) (ts : List Nat) : Shoot := ⟨1, 0, 65536, 3, ts, 0, release, []⟩
def shooting (release : Bool) (ts : List Nat) : State := { base with xl := { base.xl with shoot := some (shoot0 release ts) } }

/-- Shoot-downs: none in progress and one; a target that is not the last and the last; a chip within its time and past it. -/
theorem witness_shootdowns :
    base.xl.shoot = none ∧ Spec.NoLines base ∧ (0x84000000 : Nat) / 2^31 = 1 ∧ 0x84000000 / 2^24 % 4 ≠ 3 ∧ (0x83000000 : Nat) / 2^24 % 4 = 3 ∧ (shooting false [0]).xl.shoot.isSome = true ∧
    mayAck (shooting false [0, 1]) (shoot0 false [0, 1]) 0 = true ∧ [0, 1].filter (fun e => e ≠ 0) ≠ [] ∧ mayAck (shooting true [2]) (shoot0 true [2]) 2 = true ∧ (shooting true [2]).xl.shootQ = [] ∧
    (1000 + 9) ∈ (shoot0 false [2, 1009]).targets ∧ now (shooting false [2, 1009]) < 0 + 100000 ∧ 100000 ≤ now { shooting false [2, 1009] with devTime := 100000 * 2^32 } ∧
    [2, 1009].filter (fun e => e ≠ 1000 + 9) ≠ [] ∧ (shooting false [2, 1009]).xl.pulls = [] ∧ (64 * (8 * 2^54 + 9 * 2^42)) / 2^60 % 16 = 8 ∧ (64 * (8 * 2^54 + 9 * 2^42)) / 2^48 % 512 = 9 := by
  unfold Spec.NoLines
  decide +kernel

/-! ### Frames, windows, commands -/

/-- Die 0 with a frame command that names one frame from frame 5 on, in a given state. -/
def framed (x : FrameState) (v : Nat) : State :=
  event (pfSet (pfSet { State.reset with xl := { Xlat.reset with frames := if x = .free then [] else [(5, x)] }, plat := { Platform.reset with power := true } } 0xE2000 8 (5 * 2^16)) 0xE2008 4 1) (.dieVal 0 (BitVec.ofNat 64 v))
theorem witness_frames :
    (∀ x ∈ [FrameState.clean, .owned 3, .free], Spec.frameCount (framed x 0x300) 0 = 1 ∧ Spec.firstFrame (framed x 0x300) 0 = 5 ∧ Spec.fsIdle (framed x 0x300) 0 ∧ 0x300 / 2^8 % 2^6 = 3 ∧
      Spec.frameAt (framed x 0x300) 0 5 = x ∧ (framed x 0x300).xl.scrub = []) ∧
    stacksRun (pfSet (framed .clean 0x300) 0xF8000 8 0x780) 0 = true ∧ ¬ Spec.fsIdle (pfSet base 0xE2010 4 0x80000000) 0 ∧
    (let s := event { base with cycle := 9, xl := { Xlat.reset with scrub := [(0, 5, 9)] } } (.dieVal 0 5)
     s.xl.l2change = [] ∧ s.xl.scrub.find? (fun e => e.1 == 0 && e.2.1 == 5 && e.2.2 ≠ 0 && decide (e.2.2 ≤ s.cycle)) = some (0, 5, 9) ∧ ∀ e ∈ s.xl.scrub, e.1 = 0 → e.2.1 = 5 → e = (0, 5, 9)) := by
  unfold Spec.fsIdle
  decide +kernel

/-- A window whose control word is as given. -/
def windowed (ctl : Nat) (v : Word) : State := event (pfSet base (Spec.winAt 0 1 2 + 16) 8 ctl) (.window 0 1 2 v)

/-- Windows that discard, that are enabled, that are disabled; words that enable, disable, and that hold a reserved format. -/
theorem witness_windows :
    Spec.winCtl (windowed 0x40000100 0) 0 1 2 / 2^30 % 2 = 1 ∧ Spec.winCtl (windowed 0x80000100 0) 0 1 2 / 2^30 % 4 = 2 ∧ Spec.winCtl (windowed 0x100 0) 0 1 2 / 2^30 % 4 = 0 ∧
    ((0x80000100 : Word) &&& 0x800FCF7F).toNat / 2^31 % 2 = 1 ∧ fmwMayEnable (windowed 0x100 0x80000100) 0 1 (Spec.winAt 0 1 2) ((0x8000010F : Word) &&& 0x800FCF7F).toNat = false ∧
    (let n := ((0x100 : Word) &&& 0x800FCF7F).toNat; n / 2^31 % 2 = 0 ∧ n % 16 ≤ 9 ∧ n / 16 % 8 ≤ 2 ∧ n / 256 % 16 ≠ 0 ∧ n / 2^14 % 4 ≠ 3) ∧
    ¬ (((0x10F : Word) &&& 0x800FCF7F).toNat % 16 ≤ 9) ∧
    (let s := { windowed 0x40000100 0 with cycle := 9, xl := { Xlat.reset with discard := [(18, 9)] } }
     s.xl.discard.find? (fun e => e.1 == 64 * 0 + 16 * 1 + 2 && decide (e.2 ≤ s.cycle)) = some (18, 9)) := by
  decide +kernel

/-- VF 2 acts for partition 3, whose tasks are 16 to 23; session 1 is the partition's. -/
def vf2 (s : State) : State := pfSet (pfSet (pfSet s 0x82402 1 0x83) (0x10000 + 64 * 3 + 40) 4 (16 + 8 * 2^16)) 0x20040 2 0x301
/-- A launch header of class 2, an image header, and a SUBMIT of task 1 that waits for its release. -/
def launchHeader : Nat := 1 + 128 * 2^32 + 0xE60A * 2^320
def imageHeader : Nat := 0x3639485A + 2^32 + 1 * 2^64 + 64 * 2^96 + 128 * 2^128 + 8 * 2^160
def submit0 (hdr : Nat) : Command := BitVec.ofNat 512 (1 + 2^8 + 2^16 + 2^32 + hdr * 2^64 + 0x3000 * 2^128 + 0x4000 * 2^192 + 1000 * 2^384)
def submitting (c : Command) : State :=
  event (vf2 (putBytes (putBytes base (2^30 + 0x2000) (leBytes launchHeader 128)) (2^30 + 0x3000) (leBytes imageHeader 64))) (.req (.host 2 7) 3 c)

/-- SUBMITs that break a limit, whose signal has no place, whose header breaks a rule, and one that is admitted. -/
theorem witness_submits :
    submitBad (submitting (submit0 0x2001)) (.host 2 7) 3 (submit0 0x2001) = some 8 ∧ signalBad (submit0 0x2001) = false ∧
    (let c := submit0 0x2000 ||| 0x1#512 <<< 192; submitBad (submitting c) (.host 2 7) 3 c = none ∧ signalBad c = true) ∧
    (let c := submit0 0x2040; submitBad (submitting c) (.host 2 7) 3 c = none ∧ (match readHeaders (submitting c) 3 c with | (_, .bad _) => true | _ => false) = true) ∧
    (let c := submit0 0x2000; submitBad (submitting c) (.host 2 7) 3 c = none ∧ signalBad c = false ∧ c.toNat % 256 = 1 ∧ absTask (submitting c) 3 (cmdField c 4 2) = some 17 ∧
      (match readHeaders (submitting c) 3 c with
        | (s1, .ok h i rs ss) => (match admission s1 3 (newTask s1 (.host 2 7) 3 (takenAt (submitting c)) c h i rs ss) (c.toNat / 2^8 % 2 = 1) with | .ok (0, 0) => true | _ => false) &&
            (newTask s1 (.host 2 7) 3 (takenAt (submitting c)) c h i rs ss).eff.isNone
        | _ => false) = true) := by
  decide +kernel

/-- A task of partition 3 of class 1. -/
def class1 (eff : Option Word) : Task := { task5 with hdr := BitVec.ofNat 1024 (launchHeader - 64 * 2^32 + 100 * 2^352), cmd := BitVec.ofNat 512 (1 + 2^16 + 2^32 + 1000 * 2^384), eff := eff, st := .pending }

/-- Admission on each of its conditions: a deadline past, a class that is free, no unit, and one whose utilisation is known. -/
theorem witness_admissions :
    (class1 (some 0)).deadline = some 1000 ∧ 1000 ≤ now { base with devTime := 1000 * 2^32 } ∧ (class1 none).cls = 1 ∧ ({ task5 with hdr := BitVec.ofNat 1024 launchHeader }).cls = 2 ∧
    utilisation base 3 (class1 none) = none := by
  decide +kernel

/-- Tasks that wait for a release and that do not; releases of a host, of a device program and of firmware. -/
def release0 : Command := BitVec.ofNat 512 (2 + 2^16 + 2^32)
def waitingTask : Task := { task5 with cmd := BitVec.ofNat 512 (1 + 2^8), st := .pending }
def releasing (t : Task) (e : EvArg) : State := event (vf2 { base with rk := { Reckoner.reset with tasks := [(17, t)] } }) e

theorem witness_releases :
    releaseBad (releasing waitingTask .none) (.host 2 7) 3 release0 = none ∧ absTask (releasing waitingTask .none) 3 (cmdField release0 4 2) = some 17 ∧ release0.toNat % 256 = 2 ∧
    Spec.AwaitsRelease (taskOf (releasing waitingTask .none) 17) ∧ ¬ Spec.AwaitsRelease (taskOf (releasing task5 .none) 17) ∧
    releaseBad (releasing waitingTask .none) (.host 2 7) 3 (release0 ||| 0x100) = some 1 ∧
    now (releasing waitingTask .none) < Spec.effective (taskOf (releasing waitingTask .none) 17) (max 5 (now (releasing waitingTask .none))) ∧
    (let o := mkOp 4 5 (.asked 9 release0) []; let s := event (withCore { Core.blank with ops := [o] }) (.req (.device 0 4) 3 release0)
     liveOp s 0 4 = some o ∧ absTask s 3 (cmdField release0 4 2) = none) ∧
    (0 : Command).toNat = 0 ∧ (2 : Nat) < (3 : Command).toNat % 256 := by
  unfold Spec.AwaitsRelease
  decide +kernel

/-- A ring that is enabled, with an entry to read; a firmware ring. -/
def ringed : State := bar0Set (bar0Set (vf2 base) 2 0 4 0x80000004) 2 8 4 1
theorem witness_rings :
    bar0Get base 2 0 4 / 2^31 % 2 = 0 ∧ (0x80000004 : BitVec 32).toNat % 16 = 4 ∧ (0x80000004 : BitVec 32).toNat / 2^31 = 1 ∧ bar0Get ringed 2 0 4 / 2^31 % 2 = 1 ∧ (5 : BitVec 32).toNat < 2^(bar0Get ringed 2 0 4 % 16) ∧
    2^(bar0Get ringed 2 0 4 % 16) ≤ (16 : BitVec 32).toNat ∧ ringReady base 2 = false ∧ ringReady ringed 2 = true ∧ takesRequest ringed = true ∧ bar0Get ringed 2 0x10 4 = 0 ∧
    (2 : Fin 4).val ∉ ringed.plat.cpReset ∧ Tbl.get 0 ringed.rk.cpRead 2 = 0 := by
  decide +kernel

/-- Port 1, context 9: match entry 4 of session 1, whose payload goes to a buffer of 64 bytes. -/
def matched (s : State) : State :=
  pfSet (pfSet (pfSet s 0x60080 8 (3 + 9 * 2^16 + 1 * 2^32 + 1 * 2^48)) 0x60088 8 0x5000) 0x60090 4 64
theorem witness_packets :
    base.net.packets = [] ∧ nctxFor base 1 9 = none ∧
    (let s := pfSet base (0xF6000 + 56) 8 (2^63 + 2^56 + 9 * 2^32 + 3 * 2^48); nctxFor s 1 9 = some 7 ∧ matchEntry s 1 9 = none ∧ Tbl.get [] s.net.posted 7 = [] ∧ heldBytes s 7 0 + 16 ≤ 262144 ∧
      ∀ l : List Byte, l.length = 262145 → 262144 < heldBytes s 7 0 + l.length) ∧
    (let s := { matched (vf2 { base with xl := { base.xl with l2change := [(0, 3, 0, 99)] } }) with net := { Network.reset with packets := [(1, 9, 5, [1])] } }
     matchEntry s 1 9 = some 4 ∧ (packetIn { Spec.stampedAt s 1 6 with net := { (Spec.stampedAt s 1 6).net with packets := [(1, 9, BitVec.ofNat 64 (Spec.ingressOf s 1 6), [2])] } } 4 5 [1]).isNone = true) ∧
    matchEntry base 1 9 = none ∧ matchEntry (matched (vf2 base)) 1 9 = some 4 ∧ sessionPart (matched base) (pfGet (matched base) (0x60000 + 32 * 4 + 4) 2) = none ∧
    (let s := matched (vf2 base); sessionPart s (pfGet s (0x60000 + 32 * 4 + 4) 2) = some 3 ∧ pfGet s (0x60000 + 32 * 4 + 8) 8 / 2^60 % 16 < 2 ∧ (List.replicate 16 (1 : Byte)).take (pfGet s (0x60000 + 32 * 4 + 16) 4) = List.replicate 16 1 ∧
      pfGet s (0x60000 + 32 * 4 + 8) 8 % 4096 + 16 ≤ 4096 ∧ lookup s 3 (pfGet s (0x60000 + 32 * 4 + 8) 8) true = .ok (2^30 + 0x5000) ∧ s.xl.l2change = [] ∧ Spec.NoLines s ∧ Spec.Unlogged s) ∧
    (4, (5 : Word)) ∉ base.rk.netQ ∧
    (let s := matched (vf2 { base with rk := { Reckoner.reset with tasks := [(17, waitingTask)], netQ := [(4, 5)] } })
     (4, (5 : Word)) ∈ s.rk.netQ ∧ absTask s 3 (pfGet s (0x60000 + 32 * 4 + 6) 2) = some 17 ∧ Spec.AwaitsRelease (taskOf s 17) ∧ now s < Spec.effective (taskOf s 17) 5) := by
  refine ⟨by decide +kernel, by decide +kernel, ⟨by decide +kernel, by decide +kernel, by decide +kernel, by decide +kernel, fun l h => by omega⟩, by decide +kernel, ?_⟩
  unfold Spec.NoLines Spec.Unlogged Spec.AwaitsRelease
  decide +kernel

/-- Tasks whose time has and has not come: of class 2, of class 1 under DL2 with and without a skip before, of class 0 under DL3. -/
def timed (t : Task) (dl : Nat) : State := event (pfSet { base with rk := { Reckoner.reset with tasks := [(17, t)] } } 0x100F0 4 dl) (.task 17)
theorem witness_release_times :
    now base < (5 : Word).toNat ∧ (0 : Word).toNat ≤ now base ∧ (taskOf (timed (class1 (some 0)) 0) 17).eff = some 0 ∧ (class1 (some 0)).st = .pending ∧ (class1 (some 0)).cls = 1 ∧ (class1 (some 0)).part = 3 ∧
    levelOf (timed (class1 (some 0)) 0) 3 < 2 ∧ 2 ≤ levelOf (timed (class1 (some 0)) 2) 3 ∧ pfGet (timed (class1 (some 0)) 2) (0x20000 + 64 * (class1 (some 0)).session) 1 / 4 % 2 = 0 ∧
    pfGet (pfSet (timed (class1 (some 0)) 2) 0x20040 1 5) (0x20000 + 64 * (class1 (some 0)).session) 1 / 4 % 2 = 1 ∧ (class1 (some 0)).period = 0 ∧
    (let t := { task5 with st := .pending, eff := some 0 }; t.cls = 0 ∧ levelOf (timed t 3) 3 = 3 ∧ (Tbl.get ⟨false, 0⟩ (timed t 3).rk.sess t.session).sent = false ∧ t.period = 0) := by
  decide +kernel

/-! ### Dispatch and time -/

/-- Rod 0 is partition 3's, its beads on the cores of ROWN's map in order; task 5 may be dispatched. -/
def ready5 : Task := { task5 with st := .ready }
def idle0 (t : Task) : State := event (pfSet (pfSet { State.reset with rk := { Reckoner.reset with tasks := [(5, t)] } } 0xF8000 8 0x3FFFFFF) 0x80000 8 (0x4343 + 0o76543210 * 2^24)) (.unit 0)
def saved5 : Saved := ⟨2, 3, none, 0, { Seq.idle with run := some { run5 with k := 0 } }, []⟩

theorem witness_dispatch :
    chooseTask { State.reset with ev := .unit 0 } 0 = none ∧ chooseTask (idle0 ready5) 0 = some 5 ∧ rodOwner (idle0 ready5) (0 / 2) (0 % 2) = some 3 ∧ hasWork (idle0 ready5) 3 5 0 = true ∧
    savedOn (idle0 ready5) 5 0 = none ∧ (∀ z < 8, hdrField ready5.hdr (96 + 4 * z) 4 = 0) ∧ ((List.range ready5.w).map (coreOf (idle0 ready5) 0)).Nodup ∧
    (let s := { idle0 ready5 with rk := { Reckoner.reset with tasks := [(5, { ready5 with st := .suspended })], saved := [(0, saved5)] } }
     chooseTask s 0 = some 5 ∧ savedOn s 5 0 = some (0, saved5) ∧ saved5.seq.run = some { run5 with k := 0 }) := by
  decide +kernel

/-- Pre-emption requests, budgets, deadlines and margins, before and after their time. -/
def budget1 : Task := { task5 with hdr := task5.hdr ||| 0x10000000000000000000000000000000000000000000000000000000000000000000000000000000000000000 }
theorem witness_times :
    (let s := event { base with cycle := 4, rk := { base.rk with asks := [(0, 4)] } } (.unit 0); Tbl.find? s.rk.asks 0 = some 4 ∧ 4 ≤ s.cycle ∧ (seqOf s 0).run.isSome = true ∧ ¬ 5 ≤ s.cycle) ∧
    overBudget base 0 = false ∧
    (let s := event { base with seqs := [(0, { Seq.idle with run := some run5, cycles := 256 })], rk := { Reckoner.reset with tasks := [(5, budget1)] } } (.unit 0)
     (seqOf s 0).run = some run5 ∧ (seqOf s 0).complete = false ∧ (seqOf s 0).stop = none ∧ (runTask s 0).budget = 1 ∧ 256 * 1 ≤ (seqOf s 0).cycles) ∧
    (let k := { task5 with eff := some 0, cmd := 0x3E8#512 <<< 384 }; let s := event { base with rk := { Reckoner.reset with tasks := [(5, k)] } } (.task 5)
     taskOf s 5 = k ∧ k.deadline = some 1000 ∧ now s < 1000 ∧ 1000 ≤ now { s with devTime := 1000 * 2^32 } ∧ taskLive k = true ∧ k.cls = 0 ∧ k.ending = none ∧ k.copies.length ≠ 2 ∧
     (seqOf s 0).run = some run5 ∧ run5.task = 5 ∧ run5.launch = k.launch ∧ (seqOf s 0).stop = none ∧ now s + pfGet s (0x20008 + 64 * k.session) 4 < 1000 ∧
     (let k2 := { k with copies := [CopyState.fresh, CopyState.fresh] }; taskLive k2 = true ∧ k2.copies.length = 2 ∧ k2.margin = false ∧ k2.deadline = some 1000 ∧
        1000 ≤ now s + pfGet (pfSet s 0x20008 4 1000) (0x20008 + 64 * k2.session) 4)) := by
  decide +kernel

/-- A mirrored task with a copy to send; a task that ends, with a period and without; one that runs no pass. -/
def mirrored5 : Task := { task5 with copies := [{ CopyState.fresh with ready := some 1 }, CopyState.fresh] }
def ending5 (period : Nat) : Task := { task5 with ending := some (0, 0, false), cmd := BitVec.ofNat 512 (period * 2^448) }
def taskly (k : Task) : State := event (pfSet { { base with seqs := [] } with rk := { Reckoner.reset with tasks := [(5, k)] } } 0xF8000 8 0x3FFFFFF) (.task 5)
/-- The same with its copies ready in the given cycles, and its margin come or not in cycle 5. -/
def copies5 (a b : Option Nat) (margin : Bool) : Task := { mirrored5 with copies := [{ CopyState.fresh with ready := a }, { CopyState.fresh with ready := b }], margin := margin, marginAt := 5 }
theorem witness_ends :
    sendCopy (taskly task5) task5 = none ∧ sendCopy (taskly mirrored5) mirrored5 = some 0 ∧ mirrored5.cls = 0 ∧ endpointRuns (taskly mirrored5) = true ∧
    (∀ m ∈ [false, true], let k := copies5 (some 9) (some 4) m; taskLive k = true ∧ k.copies.length = 2 ∧ k.ending = none ∧ k.struck = false ∧ sendCopy (taskly k) k = some (if m then 1 else 0)) ∧
    sendCopy (taskly (copies5 none (some 4) true)) (copies5 none (some 4) true) = some 1 ∧ sendCopy (taskly (copies5 none (some 4) false)) (copies5 none (some 4) false) = none ∧
    sendCopy (taskly (copies5 none none true)) (copies5 none none true) = none ∧
    (let s := pfSet (pfSet (taskly mirrored5) 0x20010 8 0x1000) 0x20020 2 16; (match readChunk s 3 mirrored5.session 0 with | (s1, .ok _, _) => decide (taskOf s1 5 = mirrored5) | _ => false) = true) ∧
    (∀ period ∈ [0, 7], (ending5 period).copies = [CopyState.fresh] ∧ taskLive (ending5 period) = true ∧ (ending5 period).ending = some (0, 0, false) ∧ taskRuns (taskly (ending5 period)) 5 = false ∧ (ending5 period).cls ≠ 1 ∧
      (ending5 period).period = period ∧ (ending5 period).retire = false) := by
  decide +kernel

def signal0 (vf : Option Nat) : SigWrite := ⟨none, 3, vf, 5, 0x4000, List.replicate 30 0⟩
def signalling (vf : Option Nat) : State := event { base with rk := { base.rk with sigQ := [signal0 vf] } } (.target 0)

/-- Completions that go to memory, to a queue with room and to a full one. -/
theorem witness_signals :
    signalReady (signalling none) 0 = some (signal0 none) ∧ (signal0 none).bytes.length = 30 ∧ (signal0 none).addr % 4096 + 32 ≤ 4096 ∧ lookup (signalling none) 3 0x4000 true = .ok (2^30 + 0x4000) ∧ (signalling none).xl.l2change = [] ∧
    Spec.NoLines (signalling none) ∧ Spec.Unlogged (signalling none) ∧
    (let s := bar0Set (signalling (some 2)) 2 0x28 4 0x80000004; signalReady s 0 = some (signal0 (some 2)) ∧ bar0Get s 2 0x28 4 / 2^31 % 2 = 1 ∧ cqFull s 2 = false ∧ cqFull (bar0Set s 2 0x38 2 15) 2 = true) := by
  unfold Spec.NoLines Spec.Unlogged
  decide +kernel

/-- TRETIRE on tasks of each state; TADJ at and beyond its limit; TSET with and without tasks; DLCTL's forms. -/
theorem witness_clock_writes :
    (taskOf base 6).st = .free ∧ ({ task5 with st := .pending }).st = .pending ∧ taskLive task5 = true ∧ (0x20C49C : BitVec 32).toInt.natAbs ≤ 0x20C49C ∧ 0x20C49C < (0x20C49D : BitVec 32).toInt.natAbs ∧
    (∀ e ∈ State.reset.rk.tasks, e.2.st = .free) ∧ (∃ e ∈ base.rk.tasks, e.2.st ≠ .free) ∧ (0x80000400 : Nat) / 2^31 % 2 = 1 ∧ 0x80000400 / 2^10 % 4 ≠ 3 ∧ 0x80000C00 / 2^10 % 4 = 3 ∧ Spec.dlctl base 3 % 4 ≠ 3 ∧ base.plat.msixMask = [] := by
  decide +kernel

/-- Beads that retire with another still to come, and the last one of a pass. -/
def retiringPass (done : List Nat) (b0 : Core) : State :=
  event { pfSet base 0x80000 8 (0o76543210 * 2^24) with seqs := [(0, { Seq.idle with run := some { run5 with w := 2 } })], cores := (0, b0) :: done.map fun i => (i, { Core.blank with ending := true, retired := true }) } (.unitBead 0 0)
theorem witness_retirement :
    (let s := retiringPass [] { Core.blank with ending := true }; (seqOf s 0).run = some { run5 with w := 2 } ∧ coreOf s 0 0 = 0 ∧ mayRetire (coreGet s 0) = true ∧ ∃ i ∈ coresOf s 0, i ≠ 0 ∧ (coreGet s i).retired = false) ∧
    (let s := retiringPass [1] { Core.blank with ending := true, retired := true }
     mayRetire (coreGet s 0) = false ∧ passRetired s 0 = true ∧ (seqOf s 0).complete = false ∧ passDone s 0 = true ∧ (run5.copy = 0 ∧ run5.task < 8192) ∧
     passDone (modCore s 1 fun c => { c with ops := [st0] }) 0 = false ∧ passRetired (modCore s 1 fun c => { c with ops := [st0] }) 0 = true ∧ (seqOf s 0).stop = none ∧ (taskOf s 5).launch = run5.launch ∧ (taskOf s 5).copies = [CopyState.fresh] ∧ (taskOf s 5).passes = 1 ∧ (taskOf s 5).hold = none ∧ (taskOf s 5).ending = none) := by
  decide +kernel

/-- A completion queue that is disabled; entries that wait for an interrupt, before and after their time. -/
theorem witness_coalescing :
    bar0Get base 2 0x28 4 / 2^31 % 2 = 0 ∧
    (let s := event { bar0Set base 2 0x41 2 1 with rk := { base.rk with cqPending := [(2, 1)], cqOldest := [] } } (.vf 2)
     bar0Get s 2 0x41 2 ≠ 0 ∧ Tbl.get 0 s.rk.cqPending 2 ≠ 0 ∧ now s < (Tbl.get (0 : Word) s.rk.cqOldest 2).toNat + 1000 * bar0Get s 2 0x41 2 ∧
     (Tbl.get (0 : Word) s.rk.cqOldest 2).toNat + 1000 * bar0Get s 2 0x41 2 ≤ now { s with devTime := 1000 * 2^32 }) := by
  decide +kernel

/-! ### Placement, stops, the platform -/

/-- Words for ROWN that are refused and taken; cores that hold a pass and that do not; set ranges in use, malformed, and free. -/
theorem witness_placement :
    rownBad base 0 ((0 : Word) &&& 0xFFFFFF0F7F7F).toNat = true ∧
    (let s := (List.range 12).foldl (fun s i => pfSet s (0x80000 + 8 * i) 8 (i * 2^16)) State.reset
     rownBad s 1 ((BitVec.ofNat 64 (0x4343 + 2^16 + 0o76543210 * 2^24) : Word) &&& 0xFFFFFF0F7F7F).toNat = false ∧ Spec.ownerField (rown s 1) 0 ≠ Spec.ownerField 0x4343 0) ∧
    (∃ i < 10, 8 < (9 : Word).toNat / 2^(4 * i) % 16) ∧ (∀ i < 10, (8 : Word).toNat / 2^(4 * i) % 16 ≤ 8) ∧ unitOfCore base 0 = some 0 ∧ unitRuns base 0 = true ∧ unitOfCore base 100 = none ∧
    (let s := pfSet base 0x82004 4 0x80000000; pfGet s (0x82000 + 0x100 * 0 + 4 * 1) 4 / 2^31 = 1) ∧ pfGet base (0x82000 + 0x100 * 0 + 4 * 1) 4 / 2^31 = 0 ∧ (0x604 : Nat) / 2^8 % 8 ≤ 6 ∧ 0x604 % 2^6 % 2^6 ≠ 0 ∧ 0x600 % 2^6 % 2^6 = 0 ∧
    (let s := { base with cycle := 3, xl := { base.xl with l2change := [(0, 1, 0x600, 3)] } }; s.xl.l2change.find? (fun e => e.1 == 0 && e.2.1 == 1 && decide (e.2.2.2 ≤ s.cycle)) = some (0, 1, 0x600, 3)) ∧
    isPerm8 0o76543210 = true ∧ isPerm8 0 = false ∧ (0 : Nat) ∉ base.xl.left ∧ rangeBad base 3 16 8 = false ∧ rangeBad base 3 8192 1 = true ∧ (8192 ≠ partField base 3 40 2) := by
  decide +kernel

/-- Registers with a rule, records, offsets without; a page pool that is enabled, one that may be and one that may not. -/
theorem witness_registers :
    Spec.quietRegister 0xF2000 ∧ pfRule 0xF2000 ≠ none ∧ Spec.quietRegister 0x82800 ∧ pfRule 0x82800 ≠ none ∧ recordMask 0x90000 = none ∧ pfRule 0x90000 = none ∧ (8 : Nat) ∣ 0x60080 ∧
    kvEnabled (pfSet base (0xF5008 + 32 * 3) 8 (2^63)) 3 = true ∧ kvEnabled base 3 = false ∧ pfGet base (0xF5000 + 32 * 3) 8 % 2^16 = 0 ∧ pfGet base (0xF5000 + 32 * 3) 8 / 2^60 % 16 ≤ 1 ∧ Spec.Unlogged base := by
  unfold Spec.quietRegister Spec.Unlogged
  decide +kernel

/-- A unit that stops, in each phase, for a cause that saves and one that does not, with save slots or without. -/
def stopping (cause : StopCause) (phase : StopPhase) (depth : Nat) (b0 : Core) : State :=
  let s := event { base with seqs := [(0, { Seq.idle with run := some { run5 with w := 1 }, stop := some ⟨cause, phase, 0, 1, 0x0401, 0, 0, 0, some 0, 0, false⟩ })], cores := [(0, b0)] } (.unit 0)
  if depth = 0 then s else pfSet (pfSet s (0xF1000 + 16 * 3) 8 0x1000000) (0xF1008 + 16 * 3) 4 depth

theorem witness_stops :
    (∀ c ∈ [StopCause.hold, .abort], ∀ d ∈ [0, 1], Spec.idleCores (stopping c .draining d Core.blank) 0 ∧ (coresOf (stopping c .draining d Core.blank) 0).Nodup) ∧ savesPass .hold = true ∧ savesPass .abort = false ∧
    slotFree (stopping .hold .draining 1 Core.blank) 3 0 = some 0 ∧ slotFree (stopping .hold .draining 0 Core.blank) 3 0 = none ∧
    (let b := { Core.blank with ops := [ld0] }; (coresOf (stopping .hold .draining 0 b) 0).Nodup ∧ ∃ i ∈ coresOf (stopping .hold .draining 0 b) 0, ((coreGet (stopping .hold .draining 0 b) i).ops.map (·.id)).Nodup ∧
      ∃ o ∈ (coreGet (stopping .hold .draining 0 b) i).ops, opClass o.kind = 0 ∧ o.suspended = false) ∧
    Spec.Whole (stopping .hold .draining 1 Core.blank) 0 ∧
    (let s := stopping .hold .draining 1 { Core.blank with failure := some (0x0102, 7) }; (seqOf s 0).restoring = none ∧ (coresOf s 0).Nodup ∧ (coresOf s 0)[0]? = some 0 ∧ (coreGet s 0).failure = some (0x0102, 7) ∧
      isHold 0x0102 = false ∧ Spec.LaunchStands s { run5 with w := 1 } ∧ (taskOf s 5).hold = none ∧ (taskOf s 5).copies.length ≠ 2) ∧
    ¬ Spec.LaunchStands (stopping .hold .saving 1 Core.blank) { run5 with w := 1, launch := 2 } ∧ Spec.LaunchStands (stopping .hold .saving 1 Core.blank) { run5 with w := 1 } ∧
    (let s := { stopping .hold .draining 1 Core.blank with seqs := [(0, { Seq.idle with run := some { run5 with w := 1 }, stop := some ⟨.hold, .draining, 0, 0, 0x0401, 0, 0, 0, some 0, 0, false⟩, restoring := some (0, 9) })] }
     (seqOf s 0).restoring = some (0, 9) ∧ Spec.Stopping s 0 { run5 with w := 1 } ⟨.hold, .draining, 0, 0, 0x0401, 0, 0, 0, some 0, 0, false⟩) ∧
    saveDue (stopping .hold .draining 1 Core.blank) 0 = false ∧ saveDue (stopping .hold .saving 1 Core.blank) 0 = true ∧
    (let s := stopping .hold .saving 1 Core.blank; rangesOwned s (slotAddr s 3 0 0) [(0, 4096)] = false ∧
      let t := { s with xl := { s.xl with frames := (List.range 8).map fun i => (256 + i, .owned 62) } }
      rangesOwned t (slotAddr t 3 0 0) [(0, 4096)] = true ∧
      (let st : StopState := ⟨.hold, .saving, 0, 1, 0x0401, 0, 0, 0, some 0, slotBytes 1 [Core.blank.svm] / 128, false⟩
       let u := { t with cycle := 64, seqs := [(0, { Seq.idle with run := some { run5 with w := 1 }, stop := some st })] }
       unitEnds u 0 st = true ∧ (unitsDone u 0 st).getLast? = some (0x1000 + 0 * 0x640000) ∧ (coresOf u 0)[0]? = some (coreOf u 0 0) ∧ rangesOwned u (slotAddr u 3 0 0) [(0, 4096), (0x1000, 4096)] = true ∧
       rangesOwned { u with xl := { u.xl with frames := [] } } (slotAddr u 3 0 0) [(0, 4096), (0x1000, 4096)] = false)) := by
  unfold Spec.idleCores Spec.Whole Spec.LaunchStands Spec.Stopping
  decide +kernel

/-- A restore that is due; held tasks; a function-level reset that is quiet; a lost die. -/
theorem witness_returns :
    (let s := putBytes (pfSet (event { base with seqs := [(0, { Seq.idle with run := some run5, restoring := some (0, 0) })], rk := { base.rk with saved := [(0, saved5)] } } (.unit 0)) (0xF1000 + 16 * 3) 8 0x1000000) 0x1000000 [2, 0, 0, 0, 5, 0]
     (seqOf s 0).run = some run5 ∧ (seqOf s 0).restoring = some (0, 0) ∧ (seqOf s 0).stop = none ∧ (seqOf s 0).copying = none ∧ 0 ≤ s.cycle ∧ Tbl.find? s.rk.saved 0 = some saved5 ∧
     memVal s (slotAddr s 3 0 0) 4 = 2 ∧ memVal s (slotAddr s 3 0 0 + 4) 2 = 5 ∧ ((List.range saved5.cores.length).map (coreOf s 0)).Nodup) ∧
    isHeld base 5 = false ∧
    (let t := { task5 with st := .suspended, hold := some (0x0401, 0, 0, 0) }; let s := { base with seqs := [], rk := { Reckoner.reset with tasks := [(5, t)] } }
     isHeld s 5 = true ∧ (taskOf s 5).hold = some (0x0401, 0, 0, 0) ∧ (taskOf s 5).copies.length ≠ 2) ∧
    (let t := { task5 with vf := some 2 }; taskLive t = true ∧ t.vf = some 2) ∧
    flrQuiet base 2 = false ∧ flrQuiet { base with plat := { base.plat with flr := [2] } } 2 = true ∧ (0 : Nat) ∈ ({ base with rk := { base.rk with lost := [0] } }).rk.lost ∧ (0 : Nat) ∉ base.rk.lost := by
  decide +kernel

/-- Errors with and without a ring, with room and without. -/
theorem witness_errors :
    pfGet base 0xF2000 8 = 0 ∧ (let s := pfSet base 0xF2000 8 0x10000; pfGet s 0xF2000 8 ≠ 0 ∧ (pfGet s 0xF2008 1 + 1) % 256 ≠ pfGet s 0xF2010 1 ∧ (pfGet (pfSet s 0xF2010 1 1) 0xF2008 1 + 1) % 256 = pfGet (pfSet s 0xF2010 1 1) 0xF2010 1 ∧ Spec.Unlogged s) := by
  unfold Spec.Unlogged
  decide +kernel

/-- A VF's migration: refused while one runs or where it has no partition; its operations before and after a stop that has ended. -/
def migrating (x : BitVec 32) (stopped : Bool) : State :=
  let s := event (vf2 { base with seqs := [], xl := { base.xl with frames := [(1, .owned 62)] } }) (.vfVal 2 x)
  { pfSet s (0xF3000 + 64 * 2 + 0x30) 8 0x10000 with rk := { s.rk with parts := if stopped then [(3, ⟨0, 0, 0, 0, true⟩)] else [] } }

theorem witness_migration :
    Spec.MayMigrate (migrating 0 true) 2 3 ∧ (2 : Nat) ∉ (migrating 0 true).plat.flr ∧ pfGet (pfSet (migrating 0 true) (Spec.migAt 2) 4 0x80000000) (Spec.migAt 2) 4 / 2^31 % 2 = 1 ∧ migPart base 2 = none ∧
    slotsServe (Spec.migWritten (migrating 0 true) 2 0) 3 = true ∧ slotsServe base 3 = false ∧
    (let u := Spec.migWritten (migrating 0 false) 2 0; stopDone u 2 3 = false) ∧
    (let u := Spec.migWritten (migrating 0 true) 2 0
     stopDone u 2 3 = true ∧ rangesOwned u (pfGet u (Spec.migAt 2 + 0x30) 8) [(0, 64)] = true ∧ inHyp u 0x10000 = true ∧ memVal u 0x10000 4 ≠ 0x4752494D ∧ Spec.NoLines u ∧ Spec.Unlogged u) ∧
    (let s := putBytes { migrating 0 true with rk := Reckoner.reset } 0x10000 (leBytes (0x4752494D + 2^32 + 3 * 2^48 + 2 * 2^56) 8); let u := Spec.migWritten s 2 0
     inHyp u 0x10000 = true ∧ memVal u 0x10000 4 = 0x4752494D ∧ memVal u 0x10004 2 = 1 ∧ memVal u 0x10006 1 = 3 ∧ memVal u 0x10007 1 = 2 ∧ memVal u (0x10000 + 24) 8 = halvesOf u 3 ∧ partTasks u 3 = [] ∧
     memVal u 0x10010 4 = 0 ∧ memVal u 0x10014 4 = 0) := by
  unfold Spec.MayMigrate Spec.NoLines Spec.Unlogged
  decide +kernel

def powered (started : Nat) : State := { State.reset with plat := { Platform.reset with power := true, started := started, pfReady := true } }

/-- The start of the units, VFs, the mailbox, the watchdog. -/
theorem witness_platform :
    State.reset.plat.power = false ∧ (powered 0).plat.power = true ∧ unitDue (powered 3) = some 3 ∧ unitDue (powered 4) = some 4 ∧ unitDue (powered 0) = some 0 ∧ unitDue State.reset ≠ some 3 ∧
    (∃ k ∈ [1, 2, 3], acceptedSlot (powered 0) k = none) ∧ Tbl.find? (powered 26).plat.vfEnabled 2 = none ∧ Spec.Answers (powered 26) ∧ ¬ Spec.Answers State.reset ∧
    (let s := { powered 26 with cycle := 9, plat := { (powered 26).plat with vfEnabled := [(2, 9)] } }; Tbl.find? s.plat.vfEnabled 2 = some 9 ∧ 9 ≤ s.cycle ∧ (2 : Nat) ∉ s.plat.flr ∧ (2 : Nat) ∉ s.plat.vfReady) ∧
    (let s := { powered 26 with plat := { (powered 26).plat with heartbeat := [(1, 0)] } }; Tbl.find? s.plat.heartbeat 1 = some 0 ∧ s.cycle < 0 + 150000000 ∧ 0 + 150000000 ≤ ({ s with cycle := 150000000 }).cycle) := by
  unfold Spec.Answers
  decide +kernel

/-- Temperatures below, at and above the thresholds; thresholds that keep their order and that do not. -/
def warm : State := pfSet (pfSet State.reset 0xF8300 2 85) 0xF8308 2 105
theorem witness_temperatures :
    (let s := pfSet warm 0xF8108 4 85; Spec.warnAt s ≤ Spec.tempOf s 1 ∧ 1 ∉ s.plat.crossed ∧ Spec.tempOf s 1 < Spec.critAt s) ∧ Spec.tempOf warm 1 < Spec.warnAt warm ∧
    (let s := pfSet warm 0xF8108 4 105; Spec.critAt s ≤ Spec.tempOf s 1 ∧ tripStands s 0 1 = false ∧ tripStands s 1 1 = false) ∧
    Spec.warnAt warm < (BitVec.ofNat 16 86).toInt ∧ (BitVec.ofNat 16 85).toInt ≤ Spec.warnAt warm ∧ (BitVec.ofNat 16 104).toInt < Spec.critAt warm ∧ Spec.critAt warm ≤ (BitVec.ofNat 16 105).toInt := by
  decide +kernel

/-! ### Further forms of the hypotheses -/

/-- SCHSEL on a stored dictionary without schedule rows. -/
theorem witness_no_schedules : base.cur.bead = 0 ∧ ∀ d, (curSeq (withSeq codedSeq)).dict = some d → d.scheds = [] := by
  refine ⟨by decide, fun d h => ?_⟩
  obtain rfl : (⟨1, [bundle0], []⟩ : Store) = d := Option.some.inj h
  rfl

/-- Records that one bead or two have left, with nothing of the unit waiting, under each state of the ring; and with an operation that waits. -/
def recorded (l : List (Nat × Core)) : State := { base with cores := l }
def record0 (n : Byte) : List Byte := List.replicate 32 n
theorem witness_records :
    (∀ s ∈ [recorded [(2, { Core.blank with svc := [record0 1] })], pfSet (recorded [(2, { Core.blank with svc := [record0 1] })]) (0xF0400 + 48) 8 0x10000,
        pfSet (pfSet (recorded [(2, { Core.blank with svc := [record0 1] })]) (0xF0400 + 48) 8 0x10000) (0xF0409 + 48) 1 255],
      (seqOf s 0).run = some run5 ∧ run5.part < 40 ∧ 2 ∈ coresOf s 0 ∧ (coresOf s 0).Nodup ∧ (coreGet s 2).svc = [record0 1] ∧ (record0 1).length = 32 ∧
      (∀ i ∈ coresOf s 0, i ≠ 2 → (coreGet s i).svc = []) ∧ (∀ i ∈ coresOf s 0, (coreGet s i).held = [] ∧ ∀ o ∈ (coreGet s i).ops, o.waiting = false)) ∧
    (let s := pfSet (recorded [(2, { Core.blank with svc := [record0 1] }), (5, { Core.blank with svc := [record0 2] })]) (0xF0400 + 48) 8 0x10000
     (seqOf s 0).run = some run5 ∧ (coresOf s 0)[2]? = some 2 ∧ (coresOf s 0)[5]? = some 5 ∧ (coresOf s 0).Nodup ∧ (coreGet s 2).svc = [record0 1] ∧ (coreGet s 5).svc = [record0 2] ∧
     (∀ i ∈ coresOf s 0, i ≠ 2 → i ≠ 5 → (coreGet s i).svc = []) ∧ (∀ i ∈ coresOf s 0, (coreGet s i).held = [] ∧ ∀ o ∈ (coreGet s i).ops, o.waiting = false) ∧ Spec.Unlogged s ∧
     Spec.svcBase s 3 ≠ 0 ∧ (Spec.svcTail s 3 + 1) % 256 ≠ Spec.svcHead s 3 ∧ (Spec.svcTail s 3 + 2) % 256 ≠ Spec.svcHead s 3) ∧
    (let s := recorded [(3, { Core.blank with ops := [{ st0 with waiting := true }] })]; ∃ i ∈ coresOf s 0, (coreGet s i).held ≠ [] ∨ ∃ o ∈ (coreGet s i).ops, o.waiting = true) := by
  unfold Spec.Unlogged
  decide +kernel

/-- A compare that meets a signalling NaN, and one that meets a quiet NaN where it asks for equality only. -/
theorem witness_compares_badly : Spec.comparesBadly 0 .f32 0x7F800001 0 ∧ ¬ Spec.comparesBadly 0 .f32 0x7FC00000 0 ∧ Spec.comparesBadly 2 .f32 0x7FC00000 0 ∧ ¬ Spec.comparesBadly 0 .u32 0x7F800001 0 ∧
    (∀ f ∈ [(0x7F800001 : Nat), 0x3F800000], Spec.element (withCore (vv f 0)) 32 0 0 (.v 2) = f) ∧ Spec.lives base 0 0 := by
  have hf : ∀ f, tyFmt .f32 = some f → f = fmt32 := fun f h => (Option.some.inj h).symm
  refine ⟨⟨fmt32, rfl, by decide +kernel⟩, ?_, ⟨fmt32, rfl, by decide +kernel⟩, ?_, by decide +kernel, by unfold Spec.lives; decide⟩
  · rintro ⟨f, h, g⟩
    obtain rfl := hf f h
    revert g; decide +kernel
  · rintro ⟨f, h, g⟩
    cases h

/-- Floating-point values of each kind in each type: NaNs, infinities, zeros, and what the sums, products, compares and conversions take apart. -/
theorem witness_floats :
    (∀ f ∈ Spec.floats, let g := Spec.codes f f.frac
      g.top + 2 < 2 * g.sign ∧ g.top + 1 < (g.top + 2) % g.sign ∧ (g.sign + g.top + 1) % g.sign = g.top + 1 ∧ (g.sign + g.top) % g.sign ≤ g.top ∧ 1 ≤ f.frac ∧
      unpack f (g.top + 2) = .nan true ∧ unpack f g.quiet = .nan false ∧ unpack f (g.top + 1) = .inf false ∧ unpack f (g.sign + g.top + 1) = .inf true ∧ (unpack f 0).isZero = true ∧
      Spec.zeroTimesInf (.inf false) (unpack f 0) = true ∧ Spec.zeroTimesInf (.inf false) (unpack f (Spec.one f)) = false ∧ Spec.opposed (.inf false) (.inf false) (.inf true) false = true ∧
      Spec.opposed (.inf false) (.inf false) (.inf false) false = false) ∧
    Spec.sound (.fin true ⟨-3, 2⟩) ∧ Spec.sound (.fin true ⟨0, 1⟩) ∧ Spec.sound (.fin false ⟨0, 1⟩) ∧ Spec.sound (.inf true) ∧ Spec.sound (.nan true) ∧ Spec.isFin (.fin true ⟨0, 1⟩) ∧
    (∀ nf : NarrowFmt, (0x7F : Nat) = 0x7F % 256 ∧ (nf = .e4m3 → 0x7F % (Spec.narrowCodes nf).sign = 0x7F) ∧ (nf = .e5m2 → 0x7C % (Spec.narrowCodes nf).sign = 0x7C ∧ 0x7C < 0x7D % (Spec.narrowCodes nf).sign) ∧
      3 % (Spec.narrowCodes nf).sign ≤ (Spec.narrowCodes nf).top) := by
  refine ⟨by decide +kernel, ⟨by decide, fun _ => by decide⟩, ⟨by decide, fun h => absurd rfl h⟩, ⟨by decide, fun h => absurd rfl h⟩, trivial, trivial, ⟨true, _, rfl⟩, fun nf => ?_⟩
  cases nf <;> decide

/-- Special inputs of the functions, one that no table lists, and the estimates of a refinement step. -/
theorem witness_functions : (Spec.special .rcp fmt32 (.inf true)).isSome = true ∧ (Spec.special .rsq fmtB16 (.fin true ⟨0, 1⟩)).isSome = true ∧ (Spec.special .log2 fmtF16 (.fin false ⟨1, 1⟩)).isSome = true ∧
    (∃ n e, unpack fmt32 0x40400000 = .fin n e ∧ e.n ≠ 0 ∧ n = false) ∧ (1 : Nat) ≤ 7 ∧ 7 ≤ fmt32.frac ∧
    (FVal.inf true).isInf = true ∧ (FVal.fin false ⟨3, 1⟩).isInf = false ∧ (FVal.fin false ⟨3, 1⟩).isZero = false ∧ (FVal.nan false).isNan = true ∧ (⟨3, 1⟩ : Ex).n ≠ 0 := by
  refine ⟨by decide, by decide, by decide, ⟨false, _, rfl, by decide, rfl⟩, by decide, by decide, rfl, rfl, by decide, rfl, by decide⟩

/-- Addresses of each owner that may be had, and of each kind that may not; a lost die, a page that a peer denies. -/
theorem witness_translations : (2^30 / 2^60 < 2 ∧ 2^30 % 2^60 < 2^47) ∧ (0 : Nat) ∈ ({ base with rk := { base.rk with lost := [0] } }).rk.lost ∧ (0 : Nat) ∉ base.rk.lost ∧
    ((8 * 2^60 + 2^48) / 2^60 = 8 ∧ (8 * 2^60 + 2^48) % 2^60 < 2^57 ∧ (8 * 2^60 + 2^48) / 2^48 % 512 ≠ pfGet base 0xE1020 2 % 512) ∧
    (3, (8 * 2^60 + 2^48) / 4096, false) ∈ ({ base with xl := { base.xl with denied := [(3, (8 * 2^60 + 2^48) / 4096, false)] } }).xl.denied ∧ base.xl.denied = [] ∧
    ((4 * 2^60) / 2^60 = 4 ∧ (4 * 2^60) % 2^60 < 2^57 ∧ hostIdent base 3 = none) ∧
    2^47 ≤ (2^60 + 2^47) % 2^60 ∧ 2^57 ≤ (4 * 2^60 + 2^57) % 2^60 ∧ (8 * 2^60) / 2^48 % 512 = pfGet base 0xE1020 2 % 512 ∧ (3 * 2^60) / 2^60 ∉ [0, 1, 4, 8, 15] := by
  decide +kernel

/-- A command behind one of its class that has failed, and one behind none. -/
theorem witness_class_failed : let c := { Core.blank with ops := [mkOp 3 7 (.landAt 9 ⟨0, false⟩ 1 (some (0x0205, 0))) []] }
    classFailed c 1 = true ∧ classFailed c 4 = false ∧ opClass (.copy 0 9 scrBase) = 1 ∧ overLimit c (.copy 0 9 scrBase) = false ∧ c.held = [] ∧
    ∃ e ∈ c.ops, ∃ d x f, e.kind = .landAt d x 1 (some f) := by
  refine ⟨by decide, by decide, by decide, by decide, rfl, _, List.mem_singleton_self _, _, _, _, rfl⟩

def redHost : AOp := mkOp 4 0 (.red 0 (4 * 2^60) ⟨7, false⟩) [(2^50, 4 * 2^48)]
def redPeer : AOp := mkOp 4 0 (.red 0 (8 * 2^60 + 2^48) ⟨7, false⟩) [((8 * 2^60 + 2^48) / 4096, (8 * 2^60 + 2^48) / 4096)]
def redOpen (opc : Nat) : State := event (withCore { Core.blank with ops := [red0], upd := [(2^24 + 1, { upd0 with opc := opc })] }) (.op 0 4)

/-- Reductions of host and peer memory, and into a line that is open for their form, and for another; a store whose sectors are tagged. -/
theorem witness_reductions :
    Spec.Ready (holding redHost) 0 redHost ∧ Spec.Ready (holding redPeer) 0 redPeer ∧ 4 * 2^60 / 2^60 % 16 = 4 ∧ (8 * 2^60 + 2^48) / 2^60 % 16 = 8 ∧ Spec.home st0 64 ∧ (coreGet (holding red0) 0).l1.length < 2048 ∧
    (∀ opc ∈ [0, 3], Spec.Ready (redOpen opc) 0 red0 ∧ Spec.Unlogged (redOpen opc) ∧ (redOpen opc).xl.shoot = none ∧ paIn red0.pages 64 / 64 = 2^24 + 1 ∧
      Tbl.find? (coreGet (redOpen opc) 0).upd (2^24 + 1) = some { upd0 with opc := opc } ∧ (∀ e ∈ upd0.words, redBytes opc * e.1 + redBytes opc ≤ 64)) ∧ (upd0.words.map (·.1)).Nodup ∧
    upd0.opc ≠ 7 := by
  unfold Spec.Ready Spec.home Spec.Unlogged
  decide +kernel

/-- A serialise that meets a store whose bundle waits for a fault. -/
theorem witness_held_by_mate : Spec.heldByMate { Core.blank with ops := [{ mkOp 5 0 (.store 64 8 ⟨7, false⟩ false) page0 with waiting := true }, mkOp 6 0 (.store 128 8 ⟨7, false⟩ false) page0] }
    (mkOp 6 0 (.store 128 8 ⟨7, false⟩ false) page0) = true ∧ Spec.heldByMate Core.blank st0 = false := by
  decide

/-- A bundle whose load is misaligned on bead 3 alone; a bead that fails. -/
def misled : State := { issuing codedSeq with cores := [(3, n4 1)] }
theorem witness_bead_traps :
    let u := Spec.cleared misled 0
    Spec.CanCast u 0 ∧ Spec.allFree u 0 ∧ fetchAt (seqOf u 0) (runTask u 0) (seqOf u 0).pc.toNat = .ok bundle0 1 ∧ callNeeds (seqOf u 0) (runTask u 0) bundle0 1 = none ∧ Spec.noneWaits u 0 bundle0 1 ∧
    Spec.MayTrap u 0 run5 ∧ 3 < widthOf (seqOf u 0) ∧ Spec.trapOf u 0 bundle0 1 3 = some (0x0207, 6) ∧ (∀ i < 3, Spec.trapOf u 0 bundle0 1 i = none) ∧
    (Spec.headAt u 0 3 bundle0 1).isSome = true ∧ (coreGet (Spec.metCores u 0 bundle0 1) (coreOf u 0 3)).parked = false ∧ (coreGet (Spec.metCores u 0 bundle0 1) (coreOf u 0 3)).failure = none ∧
    Spec.failed u 0 bundle0 1 3 ≠ [] ∧ Spec.failed u 0 bundle0 1 2 = [] := by
  refine ⟨⟨?_, ?_, ?_, ?_, ?_⟩, ?_, ?_, ?_, ?_, ⟨?_, ?_, ?_, ?_, ?_, ?_⟩, ?_, ?_, ?_, ?_, ?_, ?_, ?_, ?_⟩
  case refine_9 => intro p hp m hm; subst hm; have hp' : p < 8 := hp; revert p; decide +kernel
  case refine_15 =>
    have h : seqOf (Spec.cleared misled 0) = seqOf misled := by
      have : (Spec.cleared misled 0).seqs = misled.seqs := by decide +kernel
      funext p; simp only [seqOf, this]
    intro p
    rw [h]
    show (Tbl.get Seq.idle misled.seqs p).stop = none ∧ (Tbl.get Seq.idle misled.seqs p).complete = false
    simp only [misled, issuing, event, Tbl.get, Tbl.find?]
    split <;> exact ⟨rfl, rfl⟩
  all_goals (try unfold Spec.allFree); decide +kernel

/-- A message for a buffer whose entry has gone to another partition, and for one whose entry the partition still has; a connection that is abandoned with one command on it. -/
theorem witness_entry_moved :
    (∀ p ∈ [3, 4], let s := pfSet (arriving posted0 [(0, 4)] 16) (0xF6000 + 56) 8 (2^63 + p * 2^48)
      nctxOwned s 7 (partOfCore s 0) = decide (p = 3) ∧ Tbl.get [] s.net.posted 7 = [(0, 4)] ∧ liveOp s 0 4 = some (mkOp 4 4 posted0 []) ∧ netBehind s 0 4 (netWrites posted0) = false) ∧
    (coreGet (netState (.sent 9 7 64) 0) 0).ops.filter (fun o => usesCtx 7 o.kind) = [mkOp 4 4 (.sent 9 7 64) []] := by
  decide +kernel

/-- A pull whose page-table entry a core still has a reduction pending for, beside its own bits; an invalidation under the identity that core 0's access was translated with. -/
def pullMerging : State := { pulling (2 * 2^60) 0x47 with cores := [(0, { Core.blank with upd := [(0x20000 / 64, { upd0 with words := [(15, 8)] })] })] }
theorem witness_pull_merges :
    (let s := pulling (2 * 2^60) 0x47; Spec.NoLines s ∧ s.xl.pulls.find? (fun e => e.die == 0 && e.part == 3 && e.va == 0) = some (pull0 (2 * 2^60))) ∧
    (let s := pullMerging; s.xl.pulls.find? (fun e => e.die == 0 && e.part == 3 && e.va == 0) = some (pull0 (2 * 2^60)) ∧ (2 * 2^60) / 2^60 % 16 ≠ 8 ∧
      memVal (mergeRange s 0x20000 8) 0x20000 8 % 2 = 1 ∧ memVal (mergeRange s 0x20000 8) 0x20000 8 / 2^6 % 4 = 1) ∧
    (let s := event (pfSet (pfSet { withCore { Core.blank with ops := [host0] } with xl := Xlat.reset } (0xE0800 + 24) 8 (2^63 + 5 * 2^21 + 9)) 0x82405 1 0x83) (.inval (BitVec.ofNat 28 (5 * 2^21 + 9)) 0 12 7)
     (0, { Core.blank with ops := [host0] }) ∈ s.cores ∧ host0.waiting = false ∧ hostIdent s (partOfCore s 0) = some (BitVec.ofNat 28 (5 * 2^21 + 9)).toNat ∧
      ∃ g ∈ host0.pages, g.1 * 4096 / 2^60 % 16 = 4 ∧ g.1 * 4096 % 2^60 < 0 + 4096 ∧ 0 < g.1 * 4096 % 2^60 + 4096) := by
  unfold Spec.NoLines
  decide +kernel

/-- Die 0 with a command that names three frames from frame 5 on, of which the third is as given. -/
def framed3 (x y : FrameState) (v : Nat) : State :=
  let s := framed x v
  pfSet { s with xl := { s.xl with frames := if x = .free then (if y = .free then [] else [(7, y)]) else (5, x) :: (6, x) :: if y = .free then [] else [(7, y)] } } 0xE2008 4 3
theorem witness_frames_in_part :
    (∀ x ∈ [FrameState.clean, .owned 3, .free], ∀ y ∈ [x, .queued], let s := framed3 x y 0x300
      Spec.frameCount s 0 = 3 ∧ Spec.firstFrame s 0 = 5 ∧ Spec.fsIdle s 0 ∧ (∀ i < 2, 5 + i < 3145728 ∧ Spec.frameAt s 0 (5 + i) = x) ∧ Spec.frameAt s 0 7 = y ∧ s.xl.shoot = none ∧ s.xl.shootQ = [] ∧ s.xl.scrub = []) ∧
    (∀ o, FrameState.queued ≠ .owned o) ∧ stacksRun (pfSet (framed3 .clean .queued 0x300) 0xF8000 8 0x780) 0 = true ∧ FrameState.owned 3 ≠ .owned 63 ∧
    (let s := { framed3 .free .free 0 with xl := { (framed3 .free .free 0).xl with scrub := [(0, 9, 4)] } }; ∃ e ∈ s.xl.scrub, e.1 = 0 ∧ e.2.2 ≠ 0) := by
  have h : ∀ o, FrameState.queued ≠ .owned o := fun o h => by cases h
  unfold Spec.fsIdle
  exact ⟨by decide +kernel, h, by decide +kernel, by decide +kernel, by decide +kernel⟩

/-- Windows whose size or base breaks a limit. -/
theorem witness_window_sizes :
    (let s := pfSet (windowed 0x100 0x80000104) (Spec.winAt 0 1 2 + 8) 8 0x10000
     ((0x80000104 : Word) &&& 0x800FCF7F).toNat % 16 = 4 ∧ pfGet s (Spec.winAt 0 1 2 + 8) 8 % 196608 ≠ 0 ∧ pfGet s (Spec.winAt 0 1 2 + 8) 8 % 65536 = 0) ∧
    pfGet (pfSet base (Spec.winAt 0 1 2 + 8) 8 0x1000) (Spec.winAt 0 1 2 + 8) 8 % 65536 ≠ 0 ∧ pfGet (pfSet base (Spec.winAt 0 1 2) 8 0x1000) (Spec.winAt 0 1 2) 8 % 65536 ≠ 0 ∧
    Spec.winCtl (windowed 0x104 0) 0 1 2 / 2^30 % 4 = 0 ∧ Spec.winCtl (windowed 0x104 0) 0 1 2 % 16 = 4 ∧ 0x10000 % 196608 ≠ 0 ∧ 0x30000 % 196608 = 0 ∧ Spec.winCtl (windowed 0x80000100 0) 0 1 2 / 2^30 % 4 ≠ 0 := by
  decide +kernel

/-- A launch whose header binds stream 1 at its start, to a descriptor that can be read and to one that is misaligned. -/
def bound5 (off : Nat) : Task := { ready5 with hdr := ready5.hdr ||| BitVec.ofNat 1024 (2^32 + off * 2^(8 * 100)), cmd := BitVec.ofNat 512 (0x2000 * 2^128) }
def binds (off : Nat) : State := { idle0 (bound5 off) with xl := base.xl }
theorem witness_bindings :
    (let s := binds 0x40; let k := bound5 0x40
     chooseTask s 0 = some 5 ∧ savedOn s 5 0 = none ∧ taskOf s 5 = k ∧ ((List.range k.w).map (coreOf s 0)).Nodup ∧ Spec.NoLines s ∧ Spec.bindAt k 1 = 0x2040 ∧
     (∀ z < 8, Spec.bindAt k z ≠ 0 → addrTrap s k.pword k.det (Spec.bindAt k z) 64 64 = none ∧ lookup s k.part (Spec.bindAt k z / 4096 * 4096) false = .ok (2^30 + 0x2000))) ∧
    (let s := binds 0x44; let k := bound5 0x44
     chooseTask s 0 = some 5 ∧ savedOn s 5 0 = none ∧ taskOf s 5 = k ∧ k.copies.length = 1 ∧ Spec.nextPass s 5 0 * k.w < k.total ∧ Spec.bindAt k 1 ≠ 0 ∧
     (addrTrap s k.pword k.det (Spec.bindAt k 1) 64 64).isSome = true ∧ 0 < k.w ∧ ((List.range k.w).map (coreOf s 0)).Nodup) ∧
    (∀ z < 8, Spec.bindAt ready5 z = 0) ∧ Spec.NoLines (idle0 ready5) := by
  unfold Spec.NoLines
  decide +kernel

/-- A mirrored task at its deadline; a copy that is ready before the margin comes, in its cycle, and once device time has reached it. -/
theorem witness_mirrored_ends :
    (let k := { task5 with eff := some 0, cmd := 0x3E8#512 <<< 384, copies := [CopyState.fresh, CopyState.fresh] }; let s := event { base with devTime := 1000 * 2^32, rk := { Reckoner.reset with tasks := [(5, k)] } } (.task 5)
     taskOf s 5 = k ∧ k.deadline = some 1000 ∧ 1000 ≤ now s ∧ taskLive k = true ∧ k.cls = 0 ∧ k.ending = none ∧ k.copies.length = 2 ∧ (seqOf s 0).run = some run5 ∧ run5.task = 5 ∧ run5.launch = k.launch ∧ run5.copy < 2 ∧ (seqOf s 0).stop = none) ∧
    (∀ m ∈ [false, true], let k := copies5 (some 4) none m; k.struck = false ∧ k.margin = m ∧ k.marginAt = 5 ∧ ({ taskly k with cycle := 4 }).cycle = 4 ∧ taskLive k = true ∧ k.copies.length = 2 ∧ k.ending = none ∧ endpointRuns (taskly k) = true) ∧
    Spec.marginOver (taskly (copies5 none (some 4) true)) (copies5 none (some 4) true) ∧ ¬ Spec.marginOver (taskly (copies5 none (some 4) false)) (copies5 none (some 4) false) ∧
    (let k := { copies5 none (some 4) false with eff := some 0, cmd := 0x3E8#512 <<< 384 }; Spec.marginOver { taskly k with devTime := 1000 * 2^32 } k) := by
  unfold Spec.marginOver
  decide +kernel

/-- A change of set ranges that ends while a write of the device waits for it, and beside one that goes on; a window's size that is taken and one that is not. -/
theorem witness_waiting_writes :
    (let s := { base with cycle := 3, xl := { base.xl with l2change := [(0, 40, 0x600, 3), (0, 1, 0x600, 9)], devWrites := [(0x10000, [1, 2], true)] } }
     s.xl.l2change.find? (fun e => e.1 == 0 && e.2.1 == 40 && decide (e.2.2.2 ≤ s.cycle)) = some (0, 40, 0x600, 3) ∧ s.xl.devWrites = [(0x10000, [1, 2], true)] ∧ Spec.Unlogged s ∧ 0x10000 / 2^60 % 16 < 2 ∧
     ∀ e ∈ s.xl.l2change, e ≠ (0, 40, 0x600, 3) → e.1 ≠ 0x10000 / 2^60 % 16 ∨ e.2.1 ≠ 40) ∧ base.xl.devWrites = [] := by
  unfold Spec.Unlogged
  decide +kernel

/-- The die of a save slot and of the error ring whose set ranges are being changed for the device; stops, restores, resets and errors that nothing holds up; the operation that a drain waits for. -/
def changing (s : State) : State := { s with xl := { s.xl with l2change := [(0, 40, 0x600, 99)] } }
theorem witness_held_up :
    (let s := changing (stopping .hold .saving 1 Core.blank); slotHeld s 3 0 0 = true ∧ (seqOf s 0).run = some { run5 with w := 1 } ∧ ∃ e ∈ s.xl.l2change, e.1 < 2 ∧ e.2.1 = 40) ∧
    (stopping .hold .saving 1 Core.blank).xl.l2change = [] ∧ (stopping .abort .draining 0 Core.blank).xl.l2change = [] ∧ (∀ i ∈ coresOf (stopping .abort .draining 0 Core.blank) 0, (coreGet (stopping .abort .draining 0 Core.blank) i).inflight = []) ∧
    (let s := changing (pfSet base 0xF2000 8 0x10000)
     pfGet s 0xF2000 8 ≠ 0 ∧ (pfGet s 0xF2008 1 + 1) % 256 ≠ pfGet s 0xF2010 1 ∧ (0x10000 + 32 * pfGet s 0xF2008 1) / 2^60 % 16 < 2 ∧ l2Changing s ((0x10000 + 32 * pfGet s 0xF2008 1) / 2^60 % 16) 40 = true ∧ (0, 4) ∉ s.plat.msixMask) ∧
    (∀ d x k e, ld0.kind ≠ .landAt d x k e) := by
  refine ⟨by decide +kernel, by decide +kernel, by decide +kernel, by decide +kernel, by decide +kernel, fun d x k e h => by cases h⟩

/-- The writes that only the PF makes; an endpoint that is not ready, and one in recovery. -/
theorem witness_pf_alone : (decodePfWrite 0xF8008 4 0x103).instr = .svncommitWrite ∧ (decodePfWrite 0xF8310 4 1).instr = .tripclrWrite ∧
    State.reset.plat.pfReady = false ∧ ({ powered 26 with plat := { (powered 26).plat with recovery := true } }).plat.recovery = true := by
  decide +kernel

end Sys2Proof.Tests
end

/-! # Memory and register windows

Byte memory, the Reckoner block and the VFs' BAR0 are tables of bytes, each with the byte that an unlisted address reads as. What writing
bytes at ascending addresses does is proved once, for a table with a default at each address; the three windows are instances of it. -/

section

namespace Sys2Proof.Machine

open Sys2Proof

/-! ## Writing bytes into a table -/

/-- The byte at an address of a table of bytes that has a default at each address. -/
def Tbl.byteAt (d : Nat → Byte) (t : Memory) (a : Nat) : Byte := Tbl.get (d a) t a

/-- Write bytes at ascending addresses of a table of bytes. -/
def Tbl.putBytes (d : Nat → Byte) (t : Memory) (a : Nat) : List Byte → Memory
  | [] => t
  | b :: r => Tbl.putBytes d (Tbl.set (d a) t a b) (a + 1) r

theorem Tbl.byteAt_set (d : Nat → Byte) (t : Memory) (a b : Nat) (x : Byte) :
    Tbl.byteAt d (Tbl.set (d a) t a x) b = if a = b then x else Tbl.byteAt d t b := by
  unfold Tbl.byteAt
  split
  case isTrue h => subst h; exact Tbl.get_set_self _ _ _ _
  case isFalse h => unfold Tbl.get; rw [Tbl.find?_set, if_neg h]

theorem Tbl.byteAt_putBytes_outside (d : Nat → Byte) (t : Memory) (a b : Nat) (l : List Byte) (h : b < a ∨ a + l.length ≤ b) :
    Tbl.byteAt d (Tbl.putBytes d t a l) b = Tbl.byteAt d t b := by
  induction l generalizing t a with
  | nil => rfl
  | cons x r ih =>
    rw [List.length_cons] at h
    rw [Tbl.putBytes, ih _ _ (by omega), Tbl.byteAt_set, if_neg (by omega)]

@[simp] theorem length_leBytes (v n : Nat) : (leBytes v n).length = n := by
  induction n generalizing v with
  | zero => rfl
  | succ n ih => rw [leBytes, List.length_cons, ih]

/-- Reading back the little-endian bytes of a value gives the value, cut to the bytes written. -/
theorem Tbl.leVal_putBytes (d : Nat → Byte) (t : Memory) (a v n : Nat) :
    leVal (Tbl.byteAt d (Tbl.putBytes d t a (leBytes v n))) a n = v % 256^n := by
  induction n generalizing t a v with
  | zero => rw [leVal, Nat.pow_zero, Nat.mod_one]
  | succ n ih =>
    have first : Tbl.byteAt d (Tbl.putBytes d t a (leBytes v (n + 1))) a = BitVec.ofNat 8 v := by
      rw [leBytes, Tbl.putBytes, Tbl.byteAt_putBytes_outside _ _ _ _ _ (.inl (Nat.lt_succ_self a)), Tbl.byteAt_set, if_pos rfl]
    calc leVal (Tbl.byteAt d (Tbl.putBytes d t a (leBytes v (n + 1)))) a (n + 1)
        = (BitVec.ofNat 8 v).toNat + 256 * (v / 256 % 256^n) := by rw [leVal, first, leBytes, Tbl.putBytes, ih]
      _ = v % 256^(n + 1) := by rw [Nat.pow_succ', Nat.mod_mul (a := 256), BitVec.toNat_ofNat]

/-! ## The three windows are such tables -/

theorem mem_putBytes (s : State) (a : Nat) (l : List Byte) : (putBytes s a l).mem = Tbl.putBytes (fun _ => 0) s.mem a l := by
  induction l generalizing s a with
  | nil => rfl
  | cons x r ih => exact ih _ _

theorem pf_pfPutBytes (s : State) (a : Nat) (l : List Byte) : (pfPutBytes s a l).pf = Tbl.putBytes pfDefault s.pf a l := by
  induction l generalizing s a with
  | nil => rfl
  | cons x r ih => exact ih _ _

theorem bar0_bar0PutBytes (s : State) (a : Nat) (l : List Byte) : (bar0PutBytes s a l).bar0 = Tbl.putBytes bar0Default s.bar0 a l := by
  induction l generalizing s a with
  | nil => rfl
  | cons x r ih => exact ih _ _

theorem memByte_eq_byteAt (s : State) : memByte s = Tbl.byteAt (fun _ => 0) s.mem := rfl
theorem pfByte_eq_byteAt (s : State) : pfByte s = Tbl.byteAt pfDefault s.pf := rfl
theorem bar0Get_eq_leVal (s : State) (v off n : Nat) : bar0Get s v off n = leVal (Tbl.byteAt bar0Default s.bar0) (256 * v + off) n := rfl

theorem memVal_putBytes_leBytes (s : State) (a v n : Nat) : memVal (putBytes s a (leBytes v n)) a n = v % 256^n := by
  rw [memVal, memByte_eq_byteAt, mem_putBytes, Tbl.leVal_putBytes]

theorem pfGet_pfSet (s : State) (off v n : Nat) : pfGet (pfSet s off n v) off n = v % 256^n := by
  rw [pfGet, pfByte_eq_byteAt, pfSet, pf_pfPutBytes, Tbl.leVal_putBytes]

theorem pfByte_pfSet_outside (s : State) (off v n b : Nat) (h : b < off ∨ off + n ≤ b) : pfByte (pfSet s off n v) b = pfByte s b := by
  rw [pfByte_eq_byteAt, pfByte_eq_byteAt, pfSet, pf_pfPutBytes, Tbl.byteAt_putBytes_outside _ _ _ _ _ (by rwa [length_leBytes])]

theorem bar0Get_bar0Set (s : State) (v off n x : Nat) : bar0Get (bar0Set s v off n x) v off n = x % 256^n := by
  rw [bar0Get_eq_leVal, bar0Set, bar0_bar0PutBytes, Tbl.leVal_putBytes]

/-! ## A table in canonical form is determined by what it reads -/

variable {α : Type}

theorem Tbl.find?_eq_none_of_lt (t : Tbl α) (b k : Nat) (hs : Tbl.sortedFrom b t = true) (hk : k < b) : Tbl.find? t k = none := by
  induction t generalizing b with
  | nil => rfl
  | cons e r ih =>
    obtain ⟨a, v⟩ := e
    simp only [Tbl.sortedFrom, Bool.and_eq_true, decide_eq_true_eq] at hs
    rw [Tbl.find?, if_neg (by omega), ih (a + 1) hs.2 (by omega)]

theorem Tbl.get_cons_self (d : α) (k : Nat) (v : α) (r : Tbl α) : Tbl.get d ((k, v) :: r) k = v := by
  simp [Tbl.get, Tbl.find?]

theorem Tbl.get_cons_ne (d : α) (k a : Nat) (v : α) (r : Tbl α) (h : k ≠ a) : Tbl.get d ((k, v) :: r) a = Tbl.get d r a := by
  simp [Tbl.get, Tbl.find?, h]

theorem Tbl.get_eq_default_of_lt (d : α) (t : Tbl α) (b k : Nat) (hs : Tbl.sortedFrom b t = true) (hk : k < b) : Tbl.get d t k = d := by
  rw [Tbl.get, Tbl.find?_eq_none_of_lt t b k hs hk]; rfl

/-- A table that lists a key first and not with the default reads differently from one whose keys all lie beyond it. -/
theorem Tbl.not_same_reads_of_lt [DecidableEq α] (d : α) (k b : Nat) (v : α) (r u : Tbl α) (hv : v ≠ d) (hu : Tbl.sortedFrom b u = true) (hk : k < b)
    (h : Tbl.get d ((k, v) :: r) k = Tbl.get d u k) : False := by
  rw [Tbl.get_cons_self, Tbl.get_eq_default_of_lt d u b k hu hk] at h
  exact hv h

theorem Tbl.eq_of_sorted_of_get_eq [DecidableEq α] (d : α) (t u : Tbl α) (b : Nat) (ht : Tbl.sortedFrom b t = true) (hu : Tbl.sortedFrom b u = true)
    (dt : ∀ e ∈ t, e.2 ≠ d) (du : ∀ e ∈ u, e.2 ≠ d) (h : ∀ a, Tbl.get d t a = Tbl.get d u a) : t = u := by
  induction t generalizing u b with
  | nil =>
    cases u with
    | nil => rfl
    | cons e r => exact absurd ((Tbl.get_cons_self d e.1 e.2 r).symm.trans (h e.1).symm) (du e List.mem_cons_self)
  | cons e r ih =>
    obtain ⟨k, v⟩ := e
    have hv : v ≠ d := dt _ List.mem_cons_self
    cases u with
    | nil => exact absurd ((Tbl.get_cons_self d k v r).symm.trans (h k)) hv
    | cons e' r' =>
      obtain ⟨k', v'⟩ := e'
      have hv' : v' ≠ d := du _ List.mem_cons_self
      simp only [Tbl.sortedFrom, Bool.and_eq_true, decide_eq_true_eq] at ht hu
      obtain ⟨hb, hr⟩ := ht
      obtain ⟨hb', hr'⟩ := hu
      have above : Tbl.sortedFrom k' ((k', v') :: r') = true := by simp [Tbl.sortedFrom, hr']
      have above' : Tbl.sortedFrom k ((k, v) :: r) = true := by simp [Tbl.sortedFrom, hr]
      rcases Nat.lt_trichotomy k k' with hlt | rfl | hlt
      · exact (Tbl.not_same_reads_of_lt d k k' v r _ hv above hlt (h k)).elim
      · have hvv : v = v' := by simpa only [Tbl.get_cons_self] using h k
        have tails : ∀ a, Tbl.get d r a = Tbl.get d r' a := fun a => by
          by_cases ha : k = a
          · rw [Tbl.get_eq_default_of_lt d r (k + 1) a hr (by omega), Tbl.get_eq_default_of_lt d r' (k + 1) a hr' (by omega)]
          · simpa only [Tbl.get_cons_ne d k a _ _ ha] using h a
        rw [hvv, ih r' (k + 1) hr hr' (fun e he => dt e (List.mem_cons_of_mem _ he)) (fun e he => du e (List.mem_cons_of_mem _ he)) tails]
      · exact (Tbl.not_same_reads_of_lt d k' k v' r' _ hv' above' hlt (h k').symm).elim

theorem mem_eq_of_canonical {s t : State} (hs : MemoryCanonical s) (ht : MemoryCanonical t) (h : ∀ a, memByte s a = memByte t a) : s.mem = t.mem := by
  simp only [MemoryCanonical, Memory.wf, Tbl.wf, Bool.and_eq_true, List.all_eq_true, decide_eq_true_eq] at hs ht
  exact Tbl.eq_of_sorted_of_get_eq 0 s.mem t.mem 0 hs.1 ht.1 hs.2 ht.2 h

end Sys2Proof.Machine

namespace Sys2Proof

open Sys2Proof.Machine

/-- Settles O43: each window is a table of bytes that reads back what is written, and a canonical table is determined by what it reads. -/
theorem memoryHoldsWhatIsWritten : Obligations.MemoryHoldsWhatIsWritten := by
  unfold Obligations.MemoryHoldsWhatIsWritten
  refine ⟨fun s a v n => ⟨memVal_putBytes_leBytes s a v n, fun b hb => ?_, putBytes_canonical s a _⟩,
    fun s off v n => ⟨pfGet_pfSet s off v n, fun b => pfByte_pfSet_outside s off v n b, pfSet_mem s off n v⟩,
    fun s v off n x => bar0Get_bar0Set s v off n x, fun s t => mem_eq_of_canonical⟩
  exact memByte_putBytes_ne s a b _ (by rwa [length_leBytes])

end Sys2Proof

end

/-! # The relation `Keeps` under the steps of a command and the answers of an instruction

Laws/Keeps.lean has the relation on states. A command hands on its states inside a `Res`, a translation inside a pair, an instruction
inside an `Out`: here is what it means that such a result keeps, and how results are put together and taken apart. -/

section

namespace Sys2Proof

open Sys2Proof.Machine

variable {s0 s t : State} {α β : Type}

/-! ## Record updates, with the fields inferred -/

theorem Keeps.set {devTime_ devRem_ : Nat} {secTaint_ : Tbl Bool} {secTag_ : Tbl (Nat × Nat × Nat)} {pf_ bar0_ bar2_ cpRing_ : Memory} {seqs_ : Tbl Seq} {cores_ : Tbl Core}
    {rk_ : Reckoner} {xl_ : Xlat} {net_ : Network} {plat_ : Platform} {issue_ : List Pending} {agenda_ : List Event} {cur_ : Ctx} {ev_ : EvArg} {inputs_ : List (Nat × Input)}
    (h : Keeps s0 s) :
    Keeps s0 ⟨s.cycle, devTime_, devRem_, s.mem, secTaint_, secTag_, pf_, bar0_, bar2_, cpRing_, seqs_, cores_, rk_, xl_, net_, plat_, issue_, agenda_, cur_, ev_, inputs_,
      s.out, s.freeCtr⟩ :=
  h.same rfl rfl rfl rfl

theorem Keeps.setDraw {devTime_ devRem_ : Nat} {secTaint_ : Tbl Bool} {secTag_ : Tbl (Nat × Nat × Nat)} {pf_ bar0_ bar2_ cpRing_ : Memory} {seqs_ : Tbl Seq} {cores_ : Tbl Core}
    {rk_ : Reckoner} {xl_ : Xlat} {net_ : Network} {plat_ : Platform} {issue_ : List Pending} {agenda_ : List Event} {cur_ : Ctx} {ev_ : EvArg} {inputs_ : List (Nat × Input)}
    (h : Keeps s0 s) :
    Keeps s0 ⟨s.cycle, devTime_, devRem_, s.mem, secTaint_, secTag_, pf_, bar0_, bar2_, cpRing_, seqs_, cores_, rk_, xl_, net_, plat_, issue_, agenda_, cur_, ev_, inputs_,
      s.out, s.freeCtr + 1⟩ :=
  h.draw rfl rfl rfl rfl

theorem Keeps.setFilter {p : Host.Cell → Bool} {devTime_ devRem_ : Nat} {secTaint_ : Tbl Bool} {secTag_ : Tbl (Nat × Nat × Nat)} {pf_ bar0_ bar2_ cpRing_ : Memory}
    {seqs_ : Tbl Seq} {cores_ : Tbl Core} {rk_ : Reckoner} {xl_ : Xlat} {net_ : Network} {plat_ : Platform} {issue_ : List Pending} {agenda_ : List Event} {cur_ : Ctx}
    {ev_ : EvArg} {inputs_ : List (Nat × Input)} (h : Keeps s0 s) :
    Keeps s0 ⟨s.cycle, devTime_, devRem_, s.mem.filter p, secTaint_, secTag_, pf_, bar0_, bar2_, cpRing_, seqs_, cores_, rk_, xl_, net_, plat_, issue_, agenda_, cur_, ev_,
      inputs_, s.out, s.freeCtr⟩ :=
  h.filter p rfl rfl rfl rfl

/-! ## Choices, folds and results -/

theorem Keeps.ite {c : Prop} [Decidable c] (hs : Keeps s0 s) (ht : Keeps s0 t) : Keeps s0 (if c then s else t) := by
  split
  · exact hs
  · exact ht

theorem Keeps.ite_fst {c : Prop} [Decidable c] {p q : State × α} (hp : Keeps s0 p.1) (hq : Keeps s0 q.1) : Keeps s0 (if c then p else q).1 := by
  split
  · exact hp
  · exact hq

theorem Keeps.getD {o : Option State} (ho : ∀ u, o = some u → Keeps s0 u) (h : Keeps s0 s) : Keeps s0 (o.getD s) := by
  cases o with
  | none => exact h
  | some u => exact ho u rfl

theorem Keeps.foldl_fst {f : State × α → β → State × α} (hf : ∀ p x, Keeps s0 p.1 → Keeps s0 (f p x).1) {l : List β} {p : State × α} (h : Keeps s0 p.1) :
    Keeps s0 (l.foldl f p).1 := by
  induction l generalizing p with
  | nil => exact h
  | cons x r ih => exact ih (hf p x h)

/-- The state that a result begins with, named by a match on the result. -/
theorem Keeps.of_fst {p : State × α} {x : α} (h : Keeps s0 p.1) (e : p = (s, x)) : Keeps s0 s := by
  subst e; exact h

/-- The same of a state that stands last. -/
theorem Keeps.of_snd_snd {p : α × β × State} {x : α} {y : β} (h : Keeps s0 p.2.2) (e : p = (x, y, s)) : Keeps s0 s := by
  subst e; exact h

end Sys2Proof

namespace Sys2Proof.Machine

open Sys2Proof

variable {s0 s t : State} {α β : Type}

/-- The state that a step of a command hands on, if any, is one that `Keeps` leads to. -/
inductive Res.Keeps (s0 : State) : Res α → Prop
  | ok {s : State} {x : α} (h : Sys2Proof.Keeps s0 s) : Res.Keeps s0 (.ok s x)
  | fail {s : State} {code detail n : Nat} (h : Sys2Proof.Keeps s0 s) : Res.Keeps s0 (.fail s code detail n)
  | wait {va : Nat} {store : Bool} : Res.Keeps s0 (.wait va store)

theorem Res.Keeps.of_ok {r : Res α} {x : α} (h : Res.Keeps s0 r) (e : r = .ok s x) : Sys2Proof.Keeps s0 s := by
  subst e
  cases h with
  | ok h => exact h

theorem Res.Keeps.of_fail {r : Res α} {code detail n : Nat} (h : Res.Keeps s0 r) (e : r = .fail s code detail n) : Sys2Proof.Keeps s0 s := by
  subst e
  cases h with
  | fail h => exact h

theorem Res.Keeps.bind {r : Res α} {f : State → α → Res β} (h : Res.Keeps s0 r) (hf : ∀ s x, Sys2Proof.Keeps s0 s → Res.Keeps s0 (f s x)) :
    Res.Keeps s0 (r.bind f) := by
  cases h with
  | ok h => exact hf _ _ h
  | fail h => exact .fail h
  | wait => exact .wait

theorem Res.Keeps.ite {c : Prop} [Decidable c] {r q : Res α} (hr : Res.Keeps s0 r) (hq : Res.Keeps s0 q) : Res.Keeps s0 (if c then r else q) := by
  split
  · exact hr
  · exact hq

theorem Res.Keeps.foldl {f : Res α → β → Res α} (hf : ∀ r x, Res.Keeps s0 r → Res.Keeps s0 (f r x)) {l : List β} {r : Res α} (h : Res.Keeps s0 r) :
    Res.Keeps s0 (l.foldl f r) := by
  induction l generalizing r with
  | nil => exact h
  | cons x l ih => exact ih (hf r x h)

/-- The next state that an instruction answers, if any, is one that `Keeps` leads to. -/
def OutKeeps (s0 : State) (o : Out) : Prop := ∀ t, o = .next t → Keeps s0 t

theorem OutKeeps.next (h : Keeps s0 s) : OutKeeps s0 (.next s) := fun _ e => by
  cases e; exact h

theorem modCores_keeps {l : List β} {i : State → β → Nat} {f : State → β → Core → Core} (h : Keeps s0 s) :
    Keeps s0 (l.foldl (fun s x => modCore s (i s x) (f s x)) s) :=
  .foldl _ _ _ (fun _ _ h => modCore_keeps _ _ h) h

end Sys2Proof.Machine

end

/-! # `Keeps` under Machine/Ops.lean: shared operations -/

section

namespace Sys2Proof.Machine

open Sys2Proof

variable {s0 s t : State}

theorem setMsixMask_keeps (fn vec : Nat) (on : Bool) (h : Keeps s0 s) : Keeps s0 (setMsixMask s fn vec on) :=
  .ite (raiseMsix_keeps _ _ (.set (.set h))) (.set h)

theorem postServices_keeps (q : Nat) (h : Keeps s0 s) : Keeps s0 (postServices s q) :=
  .ite h (.ite h (.foldl _ _ _ (fun _ _ h => modCore_keeps _ _ (.foldl _ _ _ (fun _ _ h => postService_keeps _ _ h) h)) h))

end Sys2Proof.Machine

end

/-! # `Keeps` under Machine/Complete.lean: loads, stores, atomics and streams perform, and commands read and write -/

section

namespace Sys2Proof.Machine

open Sys2Proof

variable {s0 s t : State}

theorem onOp_keeps {f : Nat → AOp → State} (hf : ∀ c o, Keeps s0 (f c o)) (h : Keeps s0 s) : Keeps s0 (onOp s f) := by
  unfold onOp
  split
  · split
    · exact hf _ _
    · exact h
  · exact h

theorem ownerRead_keeps (cid : Nat) (pages : List (Nat × Nat)) (va n : Nat) (h : Keeps s0 s) : Keeps s0 (ownerRead s cid pages va n).2.2 := by
  unfold ownerRead
  dsimp only
  split
  · exact h
  · exact readPieces_keeps _ h

theorem opRead_keeps (cid : Nat) (pages : List (Nat × Nat)) (va n : Nat) (na : Bool) (h : Keeps s0 s) : Keeps s0 (opRead s cid pages va n na).2.2 := by
  unfold opRead
  dsimp only
  split
  · exact h
  · exact loadBytes_keeps _ _ _ _ _ h

theorem finishLoad_keeps (cid : Nat) (o : AOp) (dst : Fin 32) (va n : Nat) (signed acq na : Bool) (h : Keeps s0 s) :
    Keeps s0 (finishLoad s cid o dst va n signed acq na) := by
  unfold finishLoad
  exact modCore_keeps _ _ (opRead_keeps _ _ _ _ _ (.ite (modCore_keeps _ _ h) h))

theorem finishVload_keeps (cid : Nat) (o : AOp) (reg : Nat) (lanes : List (Nat × Nat × Bool)) (na : Bool) (h : Keeps s0 s) :
    Keeps s0 (finishVload s cid o reg lanes na) := by
  unfold finishVload
  exact modCore_keeps _ _ (.foldl_fst (fun _ _ h => opRead_keeps _ _ _ _ _ h) h)

theorem execLoadComplete_keeps (h : Keeps s0 s) : OutKeeps s0 (execLoadComplete s) := by
  refine .next (onOp_keeps (fun c o => ?_) h)
  split
  · exact finishLoad_keeps _ _ _ _ _ _ _ _ h
  · exact finishVload_keeps _ _ _ _ _ h
  · exact h

theorem opWrite_keeps (cid : Nat) (pages : List (Nat × Nat)) (va : Nat) (bs : List Byte) (t race : Bool) (h : Keeps s0 s) :
    Keeps s0 (opWrite s cid pages va bs t race) :=
  .ite (modCore_keeps _ _ h) (storeBytes_keeps _ _ _ _ _ _ _ h)

theorem performRed_keeps (cid : Nat) (o : AOp) (opc va : Nat) (x : TWord) (h : Keeps s0 s) : Keeps s0 (performRed s cid o opc va x) := by
  unfold performRed
  dsimp only
  split
  · split
    · refine mergeLineOf_keeps _ _ (modCore_keeps _ _ (drawLatency_keeps ?_))
      split
      · exact .ite h (mergeLineOf_keeps _ _ h)
      · exact l1Room_keeps _ h
    · refine modCore_keeps _ _ (drawLatency_keeps ?_)
      split
      · exact .ite h (mergeLineOf_keeps _ _ h)
      · exact l1Room_keeps _ h
  · exact .ite (modCore_keeps _ _ (ownerRead_keeps _ _ _ _ h)) (storeBytes_keeps _ _ _ _ _ _ _ (ownerRead_keeps _ _ _ _ h))

theorem performCache_keeps (cid : Nat) (o : AOp) (opc va : Nat) (h : Keeps s0 s) : Keeps s0 (performCache s cid o opc va) :=
  .ite (mergeLineOf_keeps _ _ h) (modCore_keeps _ _ (mergeLineOf_keeps _ _ h))

theorem performLanes_keeps (cid : Nat) (pages : List (Nat × Nat)) (lanes : List (Nat × Lane × Bool)) (h : Keeps s0 s) : Keeps s0 (performLanes s cid pages lanes) :=
  .foldl _ _ _ (fun _ _ h => opWrite_keeps _ _ _ _ _ _ h) (.foldl _ _ _ (fun _ _ h => opWrite_keeps _ _ _ _ _ _ h) h)

theorem execStorePerform_keeps (h : Keeps s0 s) : OutKeeps s0 (execStorePerform s) := by
  refine .next (onOp_keeps (fun c o => ?_) h)
  dsimp only
  split
  · exact modCore_keeps _ _ (opWrite_keeps _ _ _ _ _ _ h)
  · exact modCore_keeps _ _ (performLanes_keeps _ _ _ h)
  · exact modCore_keeps _ _ (performRed_keeps _ _ _ _ _ h)
  · exact modCore_keeps _ _ (performCache_keeps _ _ _ _ h)
  · exact h

theorem execLineMerge_keeps (h : Keeps s0 s) : OutKeeps s0 (execLineMerge s) := by
  refine .next ?_
  split
  · split
    · exact .ite (mergeLineOf_keeps _ _ h) h
    · exact h
  · exact h

theorem performAtomic_keeps (cid : Nat) (o : AOp) (opc : Nat) (dst : Fin 32) (va : Nat) (x y : Word) (h : Keeps s0 s) :
    Keeps s0 (performAtomic s cid o opc dst va x y) := by
  unfold performAtomic
  dsimp only
  refine modCore_keeps _ _ ?_
  split
  · exact ownerRead_keeps _ _ _ _ h
  · exact .ite (performBytes_keeps _ _ (ownerRead_keeps _ _ _ _ h)) (opWrite_keeps _ _ _ _ _ _ (ownerRead_keeps _ _ _ _ h))

theorem execAtomicComplete_keeps (h : Keeps s0 s) : OutKeeps s0 (execAtomicComplete s) := by
  refine .next ?_
  split
  · split
    · split
      · exact .ite (faultTrap_keeps _ _ _ _ h) h
      · exact .ite (faultTrap_keeps _ _ _ _ h) h
      · exact h
    · exact h
  · refine onOp_keeps (fun c o => ?_) h
    split
    · exact performAtomic_keeps _ _ _ _ _ _ _ h
    · exact h

theorem execMigrComplete_keeps (h : Keeps s0 s) : OutKeeps s0 (execMigrComplete s) := by
  refine .next (onOp_keeps (fun c o => ?_) h)
  dsimp only
  split
  · split <;> rename_i e <;> exact modCore_keeps _ _ ((resolve_keeps _ _ _ h).of_fst e)
  · exact h

theorem cmdRead_keeps (m : Cmd) (n0 fuel va n : Nat) (h : Keeps s0 s) : Res.Keeps s0 (cmdRead m n0 fuel s va n) := by
  induction fuel generalizing s va n with
  | zero => exact .ok h
  | succ fuel ih =>
    unfold cmdRead
    dsimp only
    split
    · exact .ok h
    split
    · exact .fail h
    split
    · exact .bind (ih _ _ h) (fun _ _ h => .ok h)
    split
    · rename_i e
      exact .ite .wait (.bind (ih _ _ (readPieces_keeps _ ((resolvePiece_keeps _ _ _ _ h).of_fst e))) (fun _ _ h => .ok h))
    · rename_i e
      exact .fail ((resolvePiece_keeps _ _ _ _ h).of_fst e)
    · exact .wait

theorem cmdWrite_keeps (m : Cmd) (n0 : Nat) (t race : Bool) (fuel va : Nat) (bs : List Byte) (h : Keeps s0 s) :
    Res.Keeps s0 (cmdWrite m n0 t race fuel s va bs) := by
  induction fuel generalizing s va bs with
  | zero => exact .ok h
  | succ fuel ih =>
    unfold cmdWrite
    dsimp only
    split
    · exact .ok h
    split
    · exact .fail h
    split
    · exact .fail h
    split
    · exact ih _ _ (modCore_keeps _ _ h)
    split
    · rename_i e
      exact ih _ _ (storeBytes_keeps _ _ _ _ _ _ _ ((resolvePiece_keeps _ _ _ _ h).of_fst e))
    · rename_i e
      exact .fail ((resolvePiece_keeps _ _ _ _ h).of_fst e)
    · exact .wait

theorem readCmd_keeps (m : Cmd) (n0 : Nat) (va n : Nat) (h : Keeps s0 s) : Res.Keeps s0 (readCmd m n0 s va n) := cmdRead_keeps _ _ _ _ _ h

theorem writeCmd_keeps (m : Cmd) (n0 : Nat) (t : Bool) (va : Nat) (bs : List Byte) (h : Keeps s0 s) : Res.Keeps s0 (writeCmd m n0 t s va bs) :=
  cmdWrite_keeps _ _ _ _ _ _ _ h

theorem finishCmd_keeps (cid : Nat) (o : AOp) (dst : Fin 32) (x : TWord) (h : Keeps s0 s) : Keeps s0 (finishCmd s cid o dst x) :=
  modCore_keeps _ _ h

theorem failCmd_keeps (cid : Nat) (o : AOp) (dst : Fin 32) (code detail n : Nat) (h : Keeps s0 s) : Keeps s0 (failCmd s cid o dst code detail n) :=
  modCore_keeps _ _ (finishCmd_keeps _ _ _ _ h)

theorem landLater_keeps (cid : Nat) (o : AOp) (dst : Fin 32) (x : TWord) (fail : Option (Nat × Nat)) (h : Keeps s0 s) : Keeps s0 (landLater s cid o dst x fail) :=
  modCore_keeps _ _ h

theorem retryCmd_keeps (cid : Nat) (o : AOp) (va : Nat) (store : Bool) (h : Keeps s0 s) : Keeps s0 (retryCmd s cid o va store) :=
  modCore_keeps _ _ (resolve_keeps _ _ _ h)

theorem beginDet_keeps (cid : Nat) (o : AOp) (n : Nat) (h : Keeps s0 s) : Keeps s0 (beginDet s cid o n) := modCore_keeps _ _ h

theorem copyRows_keeps (m : Cmd) (d : List Byte) (fill t : Bool) (fuel r i n : Nat) (h : Keeps s0 s) :
    Res.Keeps s0 (copyRows m d fill t fuel s r i n) := by
  induction fuel generalizing s r i n with
  | zero => exact .ok h
  | succ fuel ih =>
    unfold copyRows
    exact .ite (.ok h) (.bind (.ite (.ok h) (readCmd_keeps _ _ _ _ h)) (fun _ _ h => .bind (writeCmd_keeps _ _ _ _ _ h) (fun _ _ h => .ite (ih _ _ _ h) (ih _ _ _ h))))

theorem decodeTile_keeps (x : Win) (e : Nat) (h : Keeps s0 s) : Keeps s0 (decodeTile s x e).2.2 := by
  unfold decodeTile
  dsimp only
  split
  · split
    · split <;> exact readPieces_keeps _ (readPieces_keeps _ h)
    split <;> exact readPieces_keeps _ (readPieces_keeps _ (readPieces_keeps _ h))
  split
  · split <;> exact readPieces_keeps _ h
  split <;> exact readPieces_keeps _ (readPieces_keeps _ h)

theorem windowElem_keeps (m : Cmd) (va : Nat) (h : Keeps s0 s) : Res.Keeps s0 (windowElem m s va) := by
  unfold windowElem
  dsimp only
  split
  · exact .fail h
  split
  · rename_i e
    exact .fail ((resolve_keeps _ _ _ h).of_fst e)
  · exact .wait
  · rename_i e
    have h1 := (resolve_keeps _ _ _ h).of_fst e
    split
    · exact .wait
    split
    · exact .fail h1
    · exact .ite (.ok h1) (.fail h1)

theorem tilesMapped_keeps (m : Cmd) (i e0 src nb k t : Nat) (h : Keeps s0 s) : Res.Keeps s0 (tilesMapped m i e0 src nb k s t) := by
  induction k generalizing s t with
  | zero => exact .ok h
  | succ k ih =>
    unfold tilesMapped
    exact .bind (windowElem_keeps _ _ h) (fun _ _ h => .bind (windowElem_keeps _ _ h) (fun _ _ h => .ite .wait (.ite (ih _ h) (.fail h))))

theorem copyTiles_keeps (m : Cmd) (x : Win) (e0 dst : Nat) (t0 : Bool) (k t n : Nat) (h : Keeps s0 s) :
    Res.Keeps s0 (copyTiles m x e0 dst t0 k s t n) := by
  induction k generalizing s t n with
  | zero => exact .ok h
  | succ k ih =>
    unfold copyTiles
    split
    · rename_i e
      exact .fail ((decodeTile_keeps _ _ h).of_snd_snd e)
    · rename_i e
      exact .bind (writeCmd_keeps _ _ _ _ _ ((decodeTile_keeps _ _ h).of_snd_snd e)) (fun _ _ h => ih _ _ h)

theorem copyPlanes_keeps (m : Cmd) (d : List Byte) (t : Bool) (h : Keeps s0 s) : Res.Keeps s0 (copyPlanes m d t s) :=
  .bind (windowElem_keeps _ _ h) (fun _ _ h => .ite (.fail h) (.bind (tilesMapped_keeps _ _ _ _ _ _ _ h) (fun _ _ h => copyTiles_keeps _ _ _ _ _ _ _ _ h)))

theorem destChunks_keeps (m : Cmd) (opc : Nat) (d : List Byte) (h : Keeps s0 s) : Res.Keeps s0 (destChunks m opc d s) := by
  unfold destChunks
  split
  · split
    · rename_i e
      exact .ok ((windowElem_keeps _ _ h).of_ok e)
    · rename_i e
      exact .ok ((windowElem_keeps _ _ h).of_fail e)
    · exact .wait
  · exact .ok h

theorem copyFails_keeps (cid : Nat) (o : AOp) (dst : Fin 32) (late : Bool) (code detail n : Nat) (h : Keeps s0 s) :
    Keeps s0 (copyFails s cid o dst late code detail n) :=
  .ite (landLater_keeps _ _ _ _ _ h) (failCmd_keeps _ _ _ _ _ _ h)

theorem execCopyCommandComplete_keeps (h : Keeps s0 s) : OutKeeps s0 (execCopyCommandComplete s) := by
  refine .next (onOp_keeps (fun c o => ?_) h)
  dsimp only
  split
  · split
    · exact retryCmd_keeps _ _ _ _ h
    · rename_i e
      exact copyFails_keeps _ _ _ _ _ _ _ ((readCmd_keeps _ _ _ _ h).of_fail e)
    · rename_i e
      have h1 := (readCmd_keeps _ _ _ _ h).of_ok e
      split
      · exact copyFails_keeps _ _ _ _ _ _ _ h1
      split
      · split
        · rename_i e1
          exact beginDet_keeps _ _ _ ((destChunks_keeps _ _ _ h1).of_ok e1)
        · rename_i e1
          exact beginDet_keeps _ _ _ ((destChunks_keeps _ _ _ h1).of_fail e1)
        · exact retryCmd_keeps _ _ _ _ h
      split
      · exact retryCmd_keeps _ _ _ _ h
      · rename_i e1
        exact copyFails_keeps _ _ _ _ _ _ _ ((Res.Keeps.ite (copyPlanes_keeps _ _ _ h1) (copyRows_keeps _ _ _ _ _ _ _ _ h1)).of_fail e1)
      · rename_i e1
        have h2 := (Res.Keeps.ite (copyPlanes_keeps _ _ _ h1) (copyRows_keeps _ _ _ _ _ _ _ _ h1)).of_ok e1
        exact .ite (landLater_keeps _ _ _ _ _ h2) (finishCmd_keeps _ _ _ _ h2)
  · exact h

theorem execStreamDescriptorArrive_keeps (h : Keeps s0 s) : OutKeeps s0 (execStreamDescriptorArrive s) := by
  refine .next ?_
  dsimp only
  split
  · split
    · exact h
    split
    · exact .ite h (modCore_keeps _ _ (opRead_keeps _ _ _ _ _ h))
    · exact h
  · exact h

theorem stopStream_keeps (cid z code : Nat) (h : Keeps s0 s) : Keeps s0 (stopStream s cid z code) := modCore_keeps _ _ h

/-- The sixteen reads of one element of an input stream. -/
theorem elementReads_keeps (m : Cmd) (va : Nat) (l : List Nat) (h : Keeps s0 s) :
    Res.Keeps s0 (l.foldl (fun (a : Res (List (List Byte × Bool))) i => a.bind fun s l => (readCmd m 0 s (va + 32 * i) 32).bind fun s x => .ok s (l ++ [x]))
      (.ok s [])) :=
  .foldl (fun _ _ h => h.bind fun _ _ h => (readCmd_keeps _ _ _ _ h).bind fun _ _ h => .ok h) (.ok h)

theorem arriveElements_keeps (cid z n : Nat) (h : Keeps s0 s) : Keeps s0 (arriveElements cid z n s) := by
  induction n generalizing s with
  | zero => exact h
  | succ n ih =>
    -- The equation lemma of `arriveElements` does not elaborate: the branch is taken by definitional unfolding.
    refine Keeps.ite h ?_
    have hr := elementReads_keeps ⟨cid, partOfCore s cid, 0, (taskOfCore s cid).pword⟩
      (streamVa (coreGet s cid) (streamOf (coreGet s cid) z) (streamOf (coreGet s cid) z).fetched) (List.range 16) h
    generalize List.foldl _ _ (List.range 16) = r at hr ⊢
    cases hr with
    | ok h => exact ih (modCore_keeps _ _ h)
    | fail h => exact stopStream_keeps _ _ _ h
    | wait => exact resolve_keeps _ _ _ h

theorem askElement_keeps (cid z : Nat) (h : Keeps s0 s) : Keeps s0 (askElement s cid z) := by
  unfold askElement
  dsimp only
  split
  · exact h
  split
  · exact modCore_keeps _ _ h
  split
  · rename_i e
    exact (Keeps.ite_fst h (resolveRange_keeps _ _ _ _ _ h)).of_fst e
  · rename_i e
    exact modCore_keeps _ _ ((Keeps.ite_fst h (resolveRange_keeps _ _ _ _ _ h)).of_fst e)
  · rename_i e
    exact modCore_keeps _ _ (opDue_keeps _ _ _ ((Keeps.ite_fst h (resolveRange_keeps _ _ _ _ _ h)).of_fst e))

theorem execStreamElementArrive_keeps (h : Keeps s0 s) : OutKeeps s0 (execStreamElementArrive s) := by
  refine .next ?_
  split
  · exact askElement_keeps _ _ (arriveElements_keeps _ _ _ h)
  · exact h

theorem execStreamElementStore_keeps (h : Keeps s0 s) : OutKeeps s0 (execStreamElementStore s) := by
  refine .next ?_
  dsimp only
  split
  · split
    · exact h
    split
    · exact h
    split
    · split
      · exact modCore_keeps _ _ h
      split
      · rename_i e
        exact (Keeps.ite_fst h (resolveRange_keeps _ _ _ _ _ h)).of_fst e
      · rename_i e
        exact modCore_keeps _ _ ((Keeps.ite_fst h (resolveRange_keeps _ _ _ _ _ h)).of_fst e)
      · rename_i e
        exact modCore_keeps _ _ (opDue_keeps _ _ _ ((Keeps.ite_fst h (resolveRange_keeps _ _ _ _ _ h)).of_fst e))
    split
    · exact h
    split
    · exact modCore_keeps _ _ h
    split
    · exact resolve_keeps _ _ _ h
    · rename_i e
      exact modCore_keeps _ _ ((Res.Keeps.foldl (fun _ _ h => .bind h (fun _ _ h => writeCmd_keeps _ _ _ _ _ h)) (.ok h)).of_fail e)
    · rename_i e
      exact modCore_keeps _ _ ((Res.Keeps.foldl (fun _ _ h => .bind h (fun _ _ h => writeCmd_keeps _ _ _ _ _ h)) (.ok h)).of_ok e)
  · exact h

end Sys2Proof.Machine

end

/-! # `Keeps` under Machine/EngineRun.lean: the engine queue and the EN commands -/

section

namespace Sys2Proof.Machine

open Sys2Proof

variable {s0 s t : State}

theorem stepCall_keeps (cid : Nat) (o : AOp) (routine : Nat) (regs : Tbl Word) (budget : Nat) (h : Keeps s0 s) : Keeps s0 (stepCall s cid o routine regs budget) := by
  unfold stepCall
  dsimp only
  split
  · split <;> exact modCore_keeps _ _ h
  · exact .ite (modCore_keeps _ _ h) (.set h)

theorem execEngineOpComplete_keeps (h : Keeps s0 s) : OutKeeps s0 (execEngineOpComplete s) := by
  refine .next (onOp_keeps (fun c o => ?_) h)
  split
  · exact stepCall_keeps _ _ _ _ _ h
  · exact modCore_keeps _ _ h
  · exact h

theorem enDesc_keeps (m : Cmd) (va : Nat) (h : Keeps s0 s) : Res.Keeps s0 (enDesc m s va) := by
  unfold enDesc
  split
  · exact .fail h
  · exact readCmd_keeps _ _ _ _ h

theorem selRun_keeps (m : Cmd) (va : Nat) (t : Bool) (h : Keeps s0 s) : Res.Keeps s0 (selRun m s va t) := by
  unfold selRun
  refine .bind (enDesc_keeps _ _ h) (fun s x h => ?_)
  dsimp only
  split
  · exact .fail h
  · exact .bind (.ite (.ok h) (.bind (readCmd_keeps _ _ _ _ h) (fun _ _ h => .ite (.fail h) (.ok h))))
      (fun _ _ h => .bind (cmdWrite_keeps _ _ _ _ _ _ _ h) (fun _ _ h => .ok h))

theorem setKvFree_keeps (p n : Nat) (h : Keeps s0 s) : Keeps s0 (setKvFree s p n) := pfSet_keeps _ _ _ h

theorem kvMark_keeps (p i : Nat) (free : Bool) (h : Keeps s0 s) : Keeps s0 (kvMark s p i free) := performBytes_keeps _ _ h

theorem kvGive_keeps (p va : Nat) (h : Keeps s0 s) : Keeps s0 (kvGive s p va) := by
  unfold kvGive
  split
  · exact kvMark_keeps _ _ _ h
  · exact h

theorem kvTake_keeps (p : Nat) (h : Keeps s0 s) : Keeps s0 (kvTake s p).2 := by
  unfold kvTake
  split
  · exact kvMark_keeps _ _ _ h
  · exact h

theorem kvEntries_keeps (m : Cmd) (list_ a n : Nat) (h : Keeps s0 s) : Res.Keeps s0 (kvEntries m s list_ a n) :=
  .bind (readCmd_keeps _ _ _ _ h) (fun _ _ h => .ok h)

theorem kvRecord_keeps (m : Cmd) (va : Nat) (r : List Byte) (pages base code dlen : Nat) (t : Bool) (h : Keeps s0 s) :
    Res.Keeps s0 (kvRecord m s va r pages base code dlen t) :=
  cmdWrite_keeps _ _ _ _ _ _ _ h

/-- Taking pages from the pool, one after another. -/
theorem kvTakes_keeps (p : Nat) (l : List Nat) (a : List Nat) (h : Keeps s0 s) :
    Keeps s0 (l.foldl (fun (a : List Nat × State) _ => let y := kvTake a.2 p; (a.1 ++ [y.1], y.2)) (a, s)).2 := by
  induction l generalizing s a with
  | nil => exact h
  | cons x r ih => exact ih _ (kvTake_keeps p h)

theorem kvAlloc_keeps (m : Cmd) (va n : Nat) (t0 : Bool) (h : Keeps s0 s) : Res.Keeps s0 (kvAlloc m s va n t0) := by
  unfold kvAlloc
  dsimp only
  split
  · exact .fail h
  refine .bind (readCmd_keeps _ _ _ _ h) (fun s q h => ?_)
  split
  · exact .fail h
  split
  · exact .fail h
  split
  · exact .bind (kvEntries_keeps _ _ _ _ h) (fun s x h =>
      .bind (kvRecord_keeps _ _ _ _ _ _ _ _ (setKvFree_keeps _ _ (.foldl _ _ _ (fun _ _ h => kvGive_keeps _ _ h) h))) (fun _ _ h => .ok h))
  · have hx := kvTakes_keeps m.part (List.range n) [] h
    exact .bind (cmdWrite_keeps _ _ _ _ _ _ _ hx) (fun _ _ h => .bind (kvRecord_keeps _ _ _ _ _ _ _ _ (setKvFree_keeps _ _ h)) (fun _ _ h => .ok h))

theorem kvFreeRun_keeps (m : Cmd) (va n : Nat) (t0 : Bool) (h : Keeps s0 s) : Res.Keeps s0 (kvFreeRun m s va n t0) := by
  unfold kvFreeRun
  dsimp only
  split
  · exact .fail h
  · refine .bind (readCmd_keeps _ _ _ _ h) (fun s x h => ?_)
    split
    · exact .fail h
    split
    · exact .fail h
    split
    · exact .fail h
    · exact .bind (kvEntries_keeps _ _ _ _ h) (fun _ _ h => .ite (.fail h)
        (.bind (kvRecord_keeps _ _ _ _ _ _ _ _ (setKvFree_keeps _ _ (.foldl _ _ _ (fun _ _ h => kvGive_keeps _ _ h) h))) (fun _ _ h => .ok h)))

theorem titheGroup_keeps (m : Cmd) (map_ n g refresh : Nat) (masked chosen : Nat → Bool) (t : Bool) (h : Keeps s0 s) :
    Res.Keeps s0 (titheGroup m map_ n g refresh masked chosen t s) :=
  .bind (readCmd_keeps _ _ _ _ h) (fun _ _ h => .bind (readCmd_keeps _ _ _ _ h)
    (fun _ _ h => .bind (cmdWrite_keeps _ _ _ _ _ _ _ h) (fun _ _ h => cmdWrite_keeps _ _ _ _ _ _ _ h)))

theorem titheRun_keeps (m : Cmd) (va : Nat) (t : Bool) (h : Keeps s0 s) : Res.Keeps s0 (titheRun m s va t) := by
  unfold titheRun
  refine .bind (enDesc_keeps _ _ h) (fun s x h => ?_)
  dsimp only
  split
  · exact .fail h
  · exact .bind (readCmd_keeps _ _ _ _ h) (fun _ _ h => .bind (readCmd_keeps _ _ _ _ h)
      (fun _ _ h => .bind (.foldl (fun _ _ h => .bind h (fun _ _ h => .bind (readCmd_keeps _ _ _ _ h) (fun _ _ h => cmdWrite_keeps _ _ _ _ _ _ _ h)))
        (.foldl (fun _ _ h => .bind h (fun _ _ h => titheGroup_keeps _ _ _ _ _ _ _ _ h)) (.ok h)))
          (fun _ _ h => .bind (cmdWrite_keeps _ _ _ _ _ _ _ h) (fun _ _ h => .ok h))))

theorem tmapGroup_keeps (m : Cmd) (clear : Bool) (map_ list_ n g i : Nat) (t : Bool) (h : Keeps s0 s) : Res.Keeps s0 (tmapGroup m clear map_ list_ n g i t s) :=
  .bind (readCmd_keeps _ _ _ _ h) (fun _ _ h => .ite (.ok h)
    (.ite (.bind (.foldl (fun _ _ h => .bind h (fun _ _ h => cmdWrite_keeps _ _ _ _ _ _ _ h)) (.ok h))
      (fun _ _ h => .bind (cmdWrite_keeps _ _ _ _ _ _ _ h) (fun _ _ h => .ok h))) (.bind (cmdWrite_keeps _ _ _ _ _ _ _ h) (fun _ _ h => .ok h))))

theorem tmapRun_keeps (m : Cmd) (clear : Bool) (va : Nat) (t : Bool) (h : Keeps s0 s) : Res.Keeps s0 (tmapRun m clear s va t) := by
  unfold tmapRun
  refine .bind (enDesc_keeps _ _ h) (fun s x h => ?_)
  dsimp only
  split
  · exact .fail h
  · exact .bind (.foldl (fun _ _ h => .bind h (fun _ _ h => tmapGroup_keeps _ _ _ _ _ _ _ _ h)) (.ok h)) (fun _ _ h => .ok h)

theorem enRun_keeps (m : Cmd) (t : Bool) (k : AKind) (h : Keeps s0 s) : Res.Keeps s0 (enRun m t s k) := by
  unfold enRun
  split
  · exact selRun_keeps _ _ _ h
  · exact .ok h
  · exact kvAlloc_keeps _ _ _ _ h
  · exact kvFreeRun_keeps _ _ _ _ h
  · exact .ok h
  · exact titheRun_keeps _ _ _ h
  · exact tmapRun_keeps _ _ _ _ h
  · exact .ok h

theorem Res.counted_keeps {r : Res Nat} (n : Nat) (h : Res.Keeps s0 r) : Res.Keeps s0 (r.counted n) := by
  cases h with
  | ok h => exact .ok h
  | fail h => exact .ok h
  | wait => exact .wait

theorem selUnits_keeps (m : Cmd) (va : Nat) (h : Keeps s0 s) : Res.Keeps s0 (selUnits m s va) := by
  unfold selUnits
  exact Res.counted_keeps _ (.bind (enDesc_keeps _ _ h)
    (fun _ _ h => .ite (.ok h) (.ite (.ok h) (Res.counted_keeps _ (.bind (readCmd_keeps _ _ _ _ h) (fun _ _ h => .ok h))))))

theorem kvUnits_keeps (m : Cmd) (free : Bool) (va n : Nat) (h : Keeps s0 s) : Res.Keeps s0 (kvUnits m s free va n) :=
  .ite (.ok h) (Res.counted_keeps _ (.bind (readCmd_keeps _ _ _ _ h)
    (fun _ _ h => .ite (.ok h) (.ite (.ite (.ok h) (Res.counted_keeps _ (.bind (kvEntries_keeps _ _ _ _ h) (fun _ _ h => .ok h))))
      (.ite (.ok h) (.ite (.ok h) (.ok h)))))))

theorem titheUnits_keeps (m : Cmd) (va : Nat) (h : Keeps s0 s) : Res.Keeps s0 (titheUnits m s va) :=
  Res.counted_keeps _ (.bind (enDesc_keeps _ _ h)
    (fun _ _ h => .ite (.ok h) (Res.counted_keeps _ (.bind (readCmd_keeps _ _ _ _ h) (fun _ _ h => .bind (readCmd_keeps _ _ _ _ h) (fun _ _ h => .ok h))))))

theorem tmapUnits_keeps (m : Cmd) (clear : Bool) (va : Nat) (h : Keeps s0 s) : Res.Keeps s0 (tmapUnits m clear s va) :=
  Res.counted_keeps _ (.bind (enDesc_keeps _ _ h)
    (fun _ _ h => .ite (.ok h) (Res.counted_keeps _
      (.bind (.foldl (fun _ _ h => .bind h (fun _ _ h => .bind (readCmd_keeps _ _ _ _ h) (fun _ _ h => .ok h))) (.ok h)) (fun _ _ h => .ok h)))))

theorem enUnits_keeps (m : Cmd) (k : AKind) (h : Keeps s0 s) : Res.Keeps s0 (enUnits m s k) := by
  unfold enUnits
  split
  · exact selUnits_keeps _ _ h
  · exact kvUnits_keeps _ _ _ _ h
  · exact kvUnits_keeps _ _ _ _ h
  · exact titheUnits_keeps _ _ h
  · exact tmapUnits_keeps _ _ _ h
  · exact .ok h

theorem presentOp_keeps (cid : Nat) (o : AOp) (dst : Fin 32) (cmd : Command) (h : Keeps s0 s) : Keeps s0 (presentOp s cid o dst cmd) :=
  .set (modCore_keeps _ _ h)

theorem execEnCommandComplete_keeps (h : Keeps s0 s) : OutKeeps s0 (execEnCommandComplete s) := by
  refine .next (onOp_keeps (fun c o => ?_) h)
  dsimp only
  split
  · exact h
  · exact .ite (finishCmd_keeps _ _ _ _ h) (.ite (finishCmd_keeps _ _ _ _ (opRead_keeps _ _ _ _ _ h)) (presentOp_keeps _ _ _ _ (opRead_keeps _ _ _ _ _ h)))
  · exact .ite (finishCmd_keeps _ _ _ _ h) (presentOp_keeps _ _ _ _ h)
  split
  · split
    · split
      · rename_i e
        exact beginDet_keeps _ _ _ ((enUnits_keeps _ _ h).of_ok e)
      · rename_i e
        exact beginDet_keeps _ _ _ ((enUnits_keeps _ _ h).of_fail e)
      · exact retryCmd_keeps _ _ _ _ h
    split
    · exact retryCmd_keeps _ _ _ _ h
    · rename_i e
      exact failCmd_keeps _ _ _ _ _ _ ((enRun_keeps _ _ _ h).of_fail e)
    · rename_i e
      exact finishCmd_keeps _ _ _ _ ((enRun_keeps _ _ _ h).of_ok e)
  · exact h

end Sys2Proof.Machine

end

/-! # `Keeps` under Machine/Translate.lean: translation, frames and windows -/

section

namespace Sys2Proof.Machine

open Sys2Proof

variable {s0 s t : State}

theorem retryOp_keeps (cid : Nat) (o : AOp) (h : Keeps s0 s) : Keeps s0 (retryOp s cid o) := by
  unfold retryOp
  dsimp only
  split
  · exact h
  split
  · exact .ite (faultTrap_keeps _ _ _ _ h) (translated_keeps _ _ (modCore_keeps _ _ (opDue_keeps _ _ _ h)))
  · exact h
  · exact faultTrap_keeps _ _ _ _ h

theorem retryCore_keeps (cid : Nat) (h : Keeps s0 s) : Keeps s0 (retryCore s cid) := .foldl _ _ _ (fun _ _ h => retryOp_keeps _ _ h) h

theorem retryAll_keeps (h : Keeps s0 s) : Keeps s0 (retryAll s) := .foldl _ _ _ (fun _ _ h => retryCore_keeps _ h) h

theorem failWaiting_keeps (p owner va size code : Nat) (storesOnly : Bool) (h : Keeps s0 s) : Keeps s0 (failWaiting s p owner va size code storesOnly) := by
  unfold failWaiting
  refine .foldl _ _ _ (fun s x h => ?_) h
  split
  · exact faultTrap_keeps _ _ _ _ h
  · exact h

theorem execMtlbWalk_keeps (h : Keeps s0 s) : OutKeeps s0 (execMtlbWalk s) := by
  refine .next ?_
  split
  · split
    · rename_i e
      exact retryAll_keeps ((doWalk_keeps _ _ _ _ h).of_fst e)
    · rename_i e
      exact failWaiting_keeps _ _ _ _ _ _ ((doWalk_keeps _ _ _ _ h).of_fst e)
    · rename_i e
      exact (doWalk_keeps _ _ _ _ h).of_fst e
  · exact h

theorem copyRange_keeps (dst src n : Nat) (h : Keeps s0 s) : Keeps s0 (copyRange s dst src n) :=
  .foldl _ _ _ (fun _ _ h => putByte_keeps _ _ h) (.setFilter h)

theorem clearSectors_keeps (a n : Nat) (h : Keeps s0 s) : Keeps s0 (clearSectors s a n) := .set h

theorem setRs_keeps (x : Pull) (rs : Nat) (h : Keeps s0 s) : Keeps s0 (setRs s x rs) :=
  .ite (performBytes_keeps _ _ (readPhys_keeps _ _ h)) (readPhys_keeps _ _ h)

theorem dropPull_keeps (x : Pull) (h : Keeps s0 s) : Keeps s0 (dropPull s x) := .set h

theorem failPull_keeps (x : Pull) (h : Keeps s0 s) : Keeps s0 (failPull s x) := dropPull_keeps _ (setRs_keeps _ _ h)

theorem pullHost_keeps (x : Pull) (n o : Nat) (h : Keeps s0 s) : Keeps s0 (pullHost x n o s).1 := by
  induction n generalizing s o with
  | zero => exact h
  | succ n ih =>
    unfold pullHost
    split
    · rename_i e
      exact ih _ (copyRange_keeps _ _ _ ((resolve_keeps _ _ _ h).of_fst e))
    · rename_i e
      exact (resolve_keeps _ _ _ h).of_fst e

theorem endPull_keeps (x : Pull) (h : Keeps s0 s) : Keeps s0 (endPull s x) :=
  dropPull_keeps _ (setRs_keeps _ _ (clearSectors_keeps _ _ (.foldl _ _ _ (fun _ _ h => logDirty_keeps _ h) h)))

theorem execPagePullComplete_keeps (h : Keeps s0 s) : OutKeeps s0 (execPagePullComplete s) := by
  refine .next ?_
  dsimp only
  split
  · split
    · exact h
    split
    · exact h
    split
    · exact dropPull_keeps _ h
    split
    · exact failPull_keeps _ h
    split
    · split
      · rename_i e
        exact endPull_keeps _ ((pullHost_keeps _ _ _ h).of_fst e)
      · rename_i e
        exact failPull_keeps _ ((pullHost_keeps _ _ _ h).of_fst e)
      · rename_i e
        exact .set ((pullHost_keeps _ _ _ h).of_fst e)
    · exact endPull_keeps _ (copyRange_keeps _ _ _ h)
  · exact h

theorem dropChipLines_keeps (chip : Nat) (h : Keeps s0 s) : Keeps s0 (dropChipLines s chip) := .set h

theorem fenceChip_keeps (chip : Nat) (h : Keeps s0 s) : Keeps s0 (fenceChip s chip) :=
  .foldl _ _ _ (fun _ _ h => failPull_keeps _ h) (dropChipLines_keeps _ (pfOr_keeps _ _ _ h))

theorem again_keeps (e : Event) (h : Keeps s0 s) : Keeps s0 (again s e) := .set h

theorem execPagePullFail_keeps (h : Keeps s0 s) : OutKeeps s0 (execPagePullFail s) := by
  refine .next ?_
  split
  · split
    · exact h
    · exact .ite (.ite (again_keeps _ h) (fenceChip_keeps _ h)) (failPull_keeps _ h)
  · exact h

theorem dropReq_keeps (r : AtsReq) (h : Keeps s0 s) : Keeps s0 (dropReq s r) := .set h

theorem sendReq_keeps (r : AtsReq) (h : Keeps s0 s) : Keeps s0 (sendReq s r) := send_keeps _ (.set h)

theorem toPri_keeps (r : AtsReq) (h : Keeps s0 s) : Keeps s0 (toPri s r) :=
  .ite (send_keeps _ (.set (dropReq_keeps _ h))) (.set (dropReq_keeps _ h))

theorem leavePri_keeps (r : AtsReq) (h : Keeps s0 s) : Keeps s0 (leavePri s r) := by
  unfold leavePri
  dsimp only
  split
  · exact send_keeps _ (dropReq_keeps _ h)
  · exact dropReq_keeps _ h

theorem fillAtc_keeps (e : AtcEntry) (h : Keeps s0 s) : Keeps s0 (fillAtc s e) := .set h

theorem execAtsTranslationCompletion_keeps (h : Keeps s0 s) : OutKeeps s0 (execAtsTranslationCompletion s) := by
  refine .next ?_
  dsimp only
  split
  · split
    · exact h
    · exact .ite (sendReq_keeps _ (dropReq_keeps _ h)) (.ite (retryAll_keeps (fillAtc_keeps _ (dropReq_keeps _ h))) (toPri_keeps _ h))
  · exact h

theorem execPrgResponse_keeps (h : Keeps s0 s) : OutKeeps s0 (execPrgResponse s) := by
  refine .next ?_
  dsimp only
  split
  · split
    · exact h
    · exact .ite (sendReq_keeps _ (leavePri_keeps _ h)) (failWaiting_keeps _ _ _ _ _ _ (.set (leavePri_keeps _ h)))
  · exact h

theorem execAtsInvalidationRequest_keeps (h : Keeps s0 s) : OutKeeps s0 (execAtsInvalidationRequest s) := by
  refine .next ?_
  dsimp only
  split
  · exact .set h
  · exact h

theorem execAtsInvalidationCompletion_keeps (h : Keeps s0 s) : OutKeeps s0 (execAtsInvalidationCompletion s) := by
  refine .next ?_
  dsimp only
  split
  · split
    · exact h
    · exact send_keeps _ (.set h)
  · exact h

/-- A peer's bytes, written piece by piece. -/
theorem peerWrites_keeps (l : List (Nat × Nat)) (bs : List Byte) (h : Keeps s0 s) :
    Keeps s0 (l.foldl (fun (a : State × List Byte) e =>
      let n := Nat.min e.2 a.2.length
      (tagSectors (writePhys a.1 e.1 (a.2.take n)) none e.1 n false, a.2.drop n)) (s, bs)).1 := by
  induction l generalizing s bs with
  | nil => exact h
  | cons e r ih => exact ih _ (tagSectors_keeps _ _ _ _ (writePhys_keeps _ _ h))

theorem execPeerRequest_keeps (h : Keeps s0 s) : OutKeeps s0 (execPeerRequest s) := by
  refine .next ?_
  split
  · dsimp only
    split
    · exact send_keeps _ h
    split
    · exact send_keeps _ h
    split
    · rename_i e
      exact send_keeps _ ((resolveRange_keeps _ _ _ _ _ h).of_fst e)
    · rename_i e
      exact again_keeps _ ((resolveRange_keeps _ _ _ _ _ h).of_fst e)
    · rename_i e
      have h1 := (resolveRange_keeps _ _ _ _ _ h).of_fst e
      split
      · exact send_keeps _ (readPieces_keeps _ h1)
      · exact send_keeps _ (peerWrites_keeps _ _ h1)
  · exact h

theorem shootUpd_keeps (x : Shoot) (h : Keeps s0 s) : Keeps s0 (shootUpd s x) :=
  .foldl _ _ _ (fun _ _ h => .foldl _ _ _ (fun _ _ h => .ite h (.ite (modCore_keeps _ _ h) (mergeLineOf_keeps _ _ h))) h) h

theorem startShoot_keeps (x : Shoot) (h : Keeps s0 s) : Keeps s0 (startShoot s x) :=
  .foldl _ _ _ (fun _ _ h => send_keeps _ h) (pfOr_keeps _ _ _ (.set (shootUpd_keeps _ h)))

theorem queueShoot_keeps (x : Shoot) (h : Keeps s0 s) : Keeps s0 (queueShoot s x) := .ite (startShoot_keeps _ h) (.set h)

theorem execShootdown_keeps (h : Keeps s0 s) : OutKeeps s0 (execShootdown s) := by
  refine .next ?_
  dsimp only
  split
  · exact .ite (pfSet_keeps _ _ _ h) (.ite (pfOr_keeps _ _ _ h) (queueShoot_keeps _ (pfSet_keeps _ _ _ h)))
  · exact h

theorem kickScrub_keeps (d : Nat) (h : Keeps s0 s) : Keeps s0 (kickScrub s d) := by
  unfold kickScrub
  dsimp only
  split
  · exact h
  split
  · exact h
  · exact .set (setFrame_keeps _ _ _ (drawDevice_keeps h))

theorem queueScrub_keeps (d frame : Nat) (h : Keeps s0 s) : Keeps s0 (queueScrub s d frame) := kickScrub_keeps _ (.set (setFrame_keeps _ _ _ h))

theorem endShoot_keeps (x : Shoot) (h : Keeps s0 s) : Keeps s0 (endShoot s x) := by
  unfold endShoot
  dsimp only
  split
  · exact .ite (queueScrub_keeps _ _ (pfSet_keeps _ _ _ (.set h))) (pfSet_keeps _ _ _ (.set h))
  · exact startShoot_keeps _ (.set (.ite (queueScrub_keeps _ _ (pfSet_keeps _ _ _ (.set h))) (pfSet_keeps _ _ _ (.set h))))

theorem countTarget_keeps (x : Shoot) (t : Nat) (h : Keeps s0 s) : Keeps s0 (countTarget s x t) := .ite (endShoot_keeps _ h) (.set h)

theorem execShootdownAck_keeps (h : Keeps s0 s) : OutKeeps s0 (execShootdownAck s) := by
  refine .next ?_
  split
  · exact .ite (countTarget_keeps _ _ h) h
  · exact h

theorem execShootdownFenceTimeout_keeps (h : Keeps s0 s) : OutKeeps s0 (execShootdownFenceTimeout s) := by
  refine .next ?_
  split
  · exact .ite (countTarget_keeps _ _ (pfOr_keeps _ _ _ (fenceChip_keeps _ h))) h
  · exact h

theorem execPfenceWrite_keeps (h : Keeps s0 s) : OutKeeps s0 (execPfenceWrite s) := by
  refine .next ?_
  dsimp only
  split
  · exact pfSet_keeps _ _ _ h
  · exact h

theorem execPeerShootdownReceive_keeps (h : Keeps s0 s) : OutKeeps s0 (execPeerShootdownReceive s) := by
  refine .next ?_
  dsimp only
  split
  · exact send_keeps _ (.set h)
  · exact h

theorem fsReport_keeps (d done : Nat) (refused : Bool) (st : Option Nat) (h : Keeps s0 s) : Keeps s0 (fsReport s d done refused st) :=
  pfSet_keeps _ _ _ h

theorem overFrames_keeps (d : Nat) {take : State → Nat → Option State} (ht : ∀ s f t, Keeps s0 s → take s f = some t → Keeps s0 t) (n f done : Nat)
    (h : Keeps s0 s) : Keeps s0 (overFrames d take n f done s).1 := by
  induction n generalizing s f done with
  | zero => exact h
  | succ n ih =>
    unfold overFrames
    split
    · exact h
    · split
      · rename_i e
        exact ih _ _ (ht _ _ _ h e)
      · exact h

theorem frameCommand_keeps (op : Instr) (waits : Bool) {take : Nat → Nat → State → Nat → Option State}
    (ht : ∀ d part s f t, Keeps s0 s → take d part s f = some t → Keeps s0 t) (h : Keeps s0 s) : Keeps s0 (frameCommand s op waits take) := by
  unfold frameCommand
  dsimp only
  split
  · split
    · exact pfOr_keeps _ _ _ h
    · split
      · exact again_keeps _ (pfSet_keeps _ _ _ (pfSet_keeps _ _ _ h))
      · exact fsReport_keeps _ _ _ _ (overFrames_keeps _ (ht _ _) _ _ _ (pfSet_keeps _ _ _ h))
  · exact h

theorem execFrameAssign_keeps (h : Keeps s0 s) : OutKeeps s0 (execFrameAssign s) := by
  refine .next (frameCommand_keeps _ _ (fun d part s f t h e => ?_) h)
  split at e
  · cases e
    exact setFrame_keeps _ _ _ h
  · cases e

theorem execFrameRelease_keeps (h : Keeps s0 s) : OutKeeps s0 (execFrameRelease s) := by
  refine .next (frameCommand_keeps _ _ (fun d part s f t h e => ?_) h)
  split at e
  · split at e
    · cases e
    · cases e
      exact queueShoot_keeps _ (setFrame_keeps _ _ _ h)
  · cases e

theorem execFrameScrub_keeps (h : Keeps s0 s) : OutKeeps s0 (execFrameScrub s) := by
  refine .next (frameCommand_keeps _ _ (fun d part s f t h e => ?_) h)
  split at e
  · cases e
    exact queueScrub_keeps _ _ h
  · cases e

theorem execFrameQuery_keeps (h : Keeps s0 s) : OutKeeps s0 (execFrameQuery s) := by
  refine .next ?_
  dsimp only
  split
  · exact .ite (pfOr_keeps _ _ _ h) (.ite (fsReport_keeps _ _ _ _ (pfSet_keeps _ _ _ h)) (fsReport_keeps _ _ _ _ (pfSet_keeps _ _ _ h)))
  · exact h

theorem execScrubComplete_keeps (h : Keeps s0 s) : OutKeeps s0 (execScrubComplete s) := by
  refine .next ?_
  dsimp only
  split
  · split
    · exact h
    split
    · exact h
    · exact kickScrub_keeps _ (setFrame_keeps _ _ _ (clearSectors_keeps _ _ (.setFilter h)))
  · exact h

theorem fmwRefuse_keeps (h : Keeps s0 s) : Keeps s0 (fmwRefuse s) := pfOr_keeps _ _ _ h

theorem execFmwctlWrite_keeps (h : Keeps s0 s) : OutKeeps s0 (execFmwctlWrite s) := by
  refine .next ?_
  dsimp only
  split
  · exact .ite (fmwRefuse_keeps h) (.ite (.ite (fmwRefuse_keeps h) (.set (drawDevice_keeps (pfSet_keeps _ _ _ h))))
      (.ite (.ite (pfSet_keeps _ _ _ h) (fmwRefuse_keeps h)) (.ite (fmwRefuse_keeps h) (pfSet_keeps _ _ _ h))))
  · exact h

theorem execFmwDiscardDone_keeps (h : Keeps s0 s) : OutKeeps s0 (execFmwDiscardDone s) := by
  refine .next ?_
  dsimp only
  split
  · split
    · exact h
    · exact pfSet_keeps _ _ _ (.set h)
  · exact h

end Sys2Proof.Machine

end

/-! # `Keeps` under Machine/Place.lean: registers as they are written -/

section

namespace Sys2Proof.Machine

open Sys2Proof

variable {s0 s t : State}

theorem writeRecord_keeps (off : Nat) (l : List Byte) (h : Keeps s0 s) : Keeps s0 (writeRecord s off l) := by
  induction l generalizing s off with
  | nil => exact h
  | cons b r ih => exact ih _ (pfPutBytes_keeps _ _ h)

theorem storeReg_keeps (off size : Nat) (rw w1c val : Nat) (h : Keeps s0 s) : Keeps s0 (storeReg s off size rw w1c val) := pfSet_keeps _ _ _ h

theorem afterWrite_keeps (s1 : State) (off size : Nat) (h : Keeps s0 s) : Keeps s0 (afterWrite s1 s off size) := by
  unfold afterWrite
  exact .ite (.ite (.set h) h) (.ite (setPartField_keeps _ _ _ _ (.set h)) (.ite (.set h) h))

theorem refusePlace_keeps (h : Keeps s0 s) : Keeps s0 (refusePlace s) := pfOr_keeps _ _ _ h

theorem ignoreWrite_keeps (off size : Nat) (h : Keeps s0 s) : Keeps s0 (ignoreWrite s off size) := .ite (refusePlace_keeps h) h

theorem plainWrite_keeps (off size val : Nat) (h : Keeps s0 s) : Keeps s0 (plainWrite s off size val) := by
  unfold plainWrite
  split
  · exact .ite (afterWrite_keeps _ _ _ (writeRecord_keeps _ _ h)) (ignoreWrite_keeps _ _ h)
  split
  · exact ignoreWrite_keeps _ _ h
  · exact .ite (ignoreWrite_keeps _ _ h) (.ite (.ite h (.ite (fmwRefuse_keeps h) (pfSet_keeps _ _ _ h)))
      (.ite h (.ite (storeReg_keeps _ _ _ _ _ (pfOr_keeps _ _ _ h)) (.ite (pfOr_keeps _ _ _ h) (afterWrite_keeps _ _ _ (storeReg_keeps _ _ _ _ _ h))))))

theorem plainVfWrite_keeps (v off size val : Nat) (h : Keeps s0 s) : Keeps s0 (plainVfWrite s v off size val) :=
  .ite (bar0Set_keeps _ _ _ _ h) (.ite (.ite h (bar0Set_keeps _ _ _ _ h)) (.ite (.ite (bar0Set_keeps _ _ _ _ h) h) (.ite (bar0Set_keeps _ _ _ _ h) h)))

theorem execRegisterWrite_keeps (h : Keeps s0 s) : OutKeeps s0 (execRegisterWrite s) := by
  refine .next ?_
  split
  · split
    · exact plainWrite_keeps _ _ _ h
    · exact plainWrite_keeps _ _ _ h
    · exact plainVfWrite_keeps _ _ _ _ h
    · exact .ite (bar2PutBytes_keeps _ _ h) h
    · exact .ite (cpRingPutBytes_keeps _ _ h) h
  · exact h

theorem execTadjWrite_keeps (h : Keeps s0 s) : OutKeeps s0 (execTadjWrite s) := by
  refine .next ?_
  split
  · exact .ite (pfSet_keeps _ _ _ h) (pfOr_keeps _ _ _ h)
  · exact h

theorem execTsetWrite_keeps (h : Keeps s0 s) : OutKeeps s0 (execTsetWrite s) := by
  refine .next ?_
  dsimp only
  split
  · exact .ite (.set (pfSet_keeps _ _ _ h)) (pfOr_keeps _ _ _ h)
  · exact h

theorem execSvcbaseWrite_keeps (h : Keeps s0 s) : OutKeeps s0 (execSvcbaseWrite s) := by
  refine .next ?_
  split
  · exact pfSet_keeps _ _ _ (pfSet_keeps _ _ _ h)
  · exact h

theorem kvFillMap_keeps (p n : Nat) (h : Keeps s0 s) : Keeps s0 (kvFillMap s p n) := performBytes_keeps _ _ h

theorem execKvpctlWrite_keeps (h : Keeps s0 s) : OutKeeps s0 (execKvpctlWrite s) := by
  refine .next ?_
  dsimp only
  split
  · exact .ite (.ite h (pfSet_keeps _ _ _ h)) (.ite h (.ite (setKvFree_keeps _ _ (kvFillMap_keeps _ _ (storeReg_keeps _ _ _ _ _ h))) (storeReg_keeps _ _ _ _ _ h)))
  · exact h

theorem execQcfgWrite_keeps (h : Keeps s0 s) : OutKeeps s0 (execQcfgWrite s) := by
  refine .next ?_
  dsimp only
  split
  · exact .ite (bar0Set_keeps _ _ _ _ (bar0Set_keeps _ _ _ _ (bar0Set_keeps _ _ _ _ h))) (bar0Set_keeps _ _ _ _ h)
  · exact h

theorem execQtailWrite_keeps (h : Keeps s0 s) : OutKeeps s0 (execQtailWrite s) := by
  refine .next ?_
  dsimp only
  split
  · exact .ite (bar0Set_keeps _ _ _ _ h) (bar0Set_keeps _ _ _ _ h)
  · exact h

theorem execCqcfgWrite_keeps (h : Keeps s0 s) : OutKeeps s0 (execCqcfgWrite s) := by
  refine .next ?_
  dsimp only
  split
  · exact .ite (bar0Set_keeps _ _ _ _ (bar0Set_keeps _ _ _ _ (bar0Set_keeps _ _ _ _ h))) (bar0Set_keeps _ _ _ _ h)
  · exact h

theorem zeroHalf_keeps (q : Nat) (h : Keeps s0 s) : Keeps s0 (zeroHalf s q) := .set (modCores_keeps h)

theorem execRownWrite_keeps (h : Keeps s0 s) : OutKeeps s0 (execRownWrite s) := by
  refine .next ?_
  dsimp only
  split
  · exact .ite (refusePlace_keeps h) (.ite (zeroHalf_keeps _ (.ite (zeroHalf_keeps _ (pfSet_keeps _ _ _ h)) (pfSet_keeps _ _ _ h)))
      (.ite (zeroHalf_keeps _ (pfSet_keeps _ _ _ h)) (pfSet_keeps _ _ _ h)))
  · exact h

theorem execCplaceWrite_keeps (h : Keeps s0 s) : OutKeeps s0 (execCplaceWrite s) := by
  refine .next ?_
  dsimp only
  split
  · exact .ite (refusePlace_keeps h) (modCore_keeps _ _ (.ite (pfSet_keeps _ _ _ h) (.set (pfSet_keeps _ _ _ h))))
  · exact h

theorem execL2srWrite_keeps (h : Keeps s0 s) : OutKeeps s0 (execL2srWrite s) := by
  refine .next ?_
  dsimp only
  split
  · exact .ite (refusePlace_keeps h) (.set (drawDevice_keeps (pfOr_keeps _ _ _ h)))
  · exact h

theorem execL2srChangeDone_keeps (h : Keeps s0 s) : OutKeeps s0 (execL2srChangeDone s) := by
  refine .next ?_
  dsimp only
  split
  · split
    · exact h
    · exact releaseWrites_keeps (pfSet_keeps _ _ _ (.set h))
  · exact h

theorem execCgplaceWrite_keeps (h : Keeps s0 s) : OutKeeps s0 (execCgplaceWrite s) := by
  refine .next ?_
  split
  · exact .ite (pfSet_keeps _ _ _ h) (refusePlace_keeps h)
  · exact h

theorem execTaskRangeWrite_keeps (h : Keeps s0 s) : OutKeeps s0 (execTaskRangeWrite s) := by
  refine .next ?_
  split
  · exact .ite (refusePlace_keeps h)
      (setPartField_keeps _ _ _ _ (setPartField_keeps _ _ _ _ (afterWrite_keeps _ _ _ (writeRecord_keeps _ _ h))))
  · exact h

end Sys2Proof.Machine

end

/-! # `Keeps` under Machine/Sequencer.lean: the sequencer -/

section

namespace Sys2Proof.Machine

open Sys2Proof

variable {s0 s t : State}

theorem askLine_keeps (q line : Nat) (h : Keeps s0 s) : Keeps s0 (askLine s q line) := .ite h (modSeq_keeps _ _ (drawLatency_keeps h))

theorem execFetchLineArrive_keeps (h : Keeps s0 s) : OutKeeps s0 (execFetchLineArrive s) := by
  refine .next ?_
  dsimp only
  split
  · split
    · split
      · exact h
      split
      · rename_i e
        exact (resolvePiece_keeps _ _ _ _ h).of_fst e
      · rename_i e
        exact modSeq_keeps _ _ ((resolvePiece_keeps _ _ _ _ h).of_fst e)
      · rename_i e
        exact modSeq_keeps _ _ (readPhys_keeps _ _ ((resolvePiece_keeps _ _ _ _ h).of_fst e))
    · exact h
  · exact h

theorem readImage_keeps (p va n : Nat) (h : Keeps s0 s) : Keeps s0 (readImage s p va n).1 := by
  unfold readImage
  dsimp only
  split
  · exact readPieces_keeps _ (resolveRange_keeps _ _ _ _ _ h)
  · exact resolveRange_keeps _ _ _ _ _ h

theorem readTable_keeps (p base off n max_ : Nat) (h : Keeps s0 s) : Keeps s0 (readTable s p base off n max_).1 :=
  .ite_fst h (readImage_keeps _ _ _ h)

theorem readRoutines_keeps (p base : Nat) (l : List (Nat × Nat × Nat)) (h : Keeps s0 s) : Keeps s0 (readRoutines s p base l).1 := by
  induction l generalizing s with
  | nil => exact h
  | cons x r ih =>
    obtain ⟨off, start, len⟩ := x
    unfold readRoutines
    dsimp only
    split
    · rename_i e
      exact ih ((readImage_keeps _ _ _ h).of_fst e)
    · rename_i e
      exact (readImage_keeps _ _ _ h).of_fst e

theorem copyRead_keeps {r : State × Xr × List Byte} {f : State → List Byte → State × Copied} (hr : Keeps s0 r.1)
    (hf : ∀ s l, Keeps s0 s → Keeps s0 (f s l).1) : Keeps s0 (copyRead r f).1 := by
  obtain ⟨s, x, l⟩ := r
  cases x with
  | ok pa => exact hf s l hr
  | wait => exact hr
  | fail code => exact hr

theorem copyImage_keeps (t : Task) (p : Nat) (h : Keeps s0 s) : Keeps s0 (copyImage s t p).1 := by
  unfold copyImage
  refine copyRead_keeps (readImage_keeps _ _ _ h) (fun s l h => ?_)
  dsimp only
  split
  · exact h
  · refine copyRead_keeps (readTable_keeps _ _ _ _ _ h) (fun s l h => ?_)
    split
    · exact h
    split
    · rename_i e
      exact (readRoutines_keeps _ _ _ h).of_fst e
    · rename_i e
      exact (readRoutines_keeps _ _ _ h).of_fst e
    · rename_i e
      have h1 := (readRoutines_keeps _ _ _ h).of_fst e
      split
      · exact h1
      · exact copyRead_keeps (readTable_keeps _ _ _ _ _ h1) (fun _ _ h => h)

theorem execDictionaryCopy_keeps (h : Keeps s0 s) : OutKeeps s0 (execDictionaryCopy s) := by
  refine .next ?_
  dsimp only
  split
  · split
    · split
      · exact h
      split
      · rename_i e
        exact (copyImage_keeps _ _ h).of_fst e
      · rename_i e
        exact takeTrap_keeps _ _ _ _ _ ((copyImage_keeps _ _ h).of_fst e)
      · rename_i e
        exact modSeq_keeps _ _ (modCores_keeps (.foldl _ _ _ (fun _ _ h => modSeq_keeps _ _ h) ((copyImage_keeps _ _ h).of_fst e)))
    · exact h
  · exact h

theorem issueHead_keeps (q : Nat) (hd : Head) (h : Keeps s0 s) : Keeps s0 (issueHead s q hd) := by
  unfold issueHead
  exact .set (modCore_keeps _ _ h)

theorem beginDrain_keeps (q : Nat) (h : Keeps s0 s) : Keeps s0 (beginDrain s q) := modSeq_keeps _ _ h

theorem stopAfter_keeps (q : Nat) (h : Keeps s0 s) : Keeps s0 (stopAfter s q) := by
  unfold stopAfter
  dsimp only
  split
  · exact .ite (beginDrain_keeps _ h) h
  · exact .ite (modSeq_keeps _ _ h) h

theorem issueCast_keeps (q : Nat) (cast : Cast) (h : Keeps s0 s) : Keeps s0 (issueCast s q cast) := by
  unfold issueCast
  dsimp only
  split
  · exact askLine_keeps _ _ h
  · exact .ite h (.ite (.ite (stopAfter_keeps _ (modCores_keeps (modCores_keeps h))) (modCores_keeps h))
      (stopAfter_keeps _ (.foldl _ _ _ (fun _ _ h => takeTrap_keeps _ _ _ _ _ h)
        (setSeq_keeps _ _ (.foldl _ _ _ (fun _ _ h => .ite (issueHead_keeps _ _ h) h) (modCores_keeps h))))))

theorem execBundleIssue_keeps (h : Keeps s0 s) : OutKeeps s0 (execBundleIssue s) := by
  refine .next ?_
  dsimp only
  split
  · split
    · exact h
    split
    · exact h
    split
    · exact stopAfter_keeps _ h
    split
    · exact modSeq_keeps _ _ (modCores_keeps h)
    split
    · exact modCores_keeps h
    split
    · exact askLine_keeps _ _ (modCores_keeps h)
    · exact issueCast_keeps _ _ (modCores_keeps h)
  · exact h

theorem execStallEnd_keeps (h : Keeps s0 s) : OutKeeps s0 (execStallEnd s) := by
  refine .next ?_
  split
  · exact .ite (modSeq_keeps _ _ h) h
  · exact h

theorem execHeldOpEnter_keeps (h : Keeps s0 s) : OutKeeps s0 (execHeldOpEnter s) := by
  refine .next ?_
  split
  · split
    · exact h
    · exact .ite h (enterOp_keeps _ _ (modCore_keeps _ _ h))
  · exact h

theorem padQueues_keeps (q : Nat) (h : Keeps s0 s) : Keeps s0 (padQueues s q) := modCores_keeps h

theorem noteArrivals_keeps (q : Nat) (h : Keeps s0 s) : Keeps s0 (noteArrivals s q) := by
  unfold noteArrivals
  dsimp only
  split
  · exact h
  · exact .ite h (modSeq_keeps _ _ h)

theorem execBarrierRelease_keeps (h : Keeps s0 s) : OutKeeps s0 (execBarrierRelease s) := by
  refine .next ?_
  split
  · exact .ite (padQueues_keeps _ (modSeq_keeps _ _ h)) h
  · exact h

theorem noteStep_keeps (u : Seq) (h : Keeps s0 s) : Keeps s0 (noteStep s u) := by
  unfold noteStep
  dsimp only
  split
  · exact .ite (.set (.foldl _ _ _ (fun _ _ h => .ite (modSeq_keeps _ _ h) h) h)) h
  · exact h

theorem noteBoundary_keeps (q : Nat) (h : Keeps s0 s) : Keeps s0 (noteBoundary s q) := noteStep_keeps _ h

theorem noteSaved_keeps (h : Keeps s0 s) : Keeps s0 (noteSaved s) := .foldl _ _ _ (fun _ _ h => noteStep_keeps _ h) h

theorem execSuperstepRelease_keeps (h : Keeps s0 s) : OutKeeps s0 (execSuperstepRelease s) := by
  refine .next ?_
  dsimp only
  split
  · split
    · exact .ite (padQueues_keeps _ (modCores_keeps (modSeq_keeps _ _ h))) h
    · exact h
  · exact h

theorem execSerialiseReceive_keeps (h : Keeps s0 s) : OutKeeps s0 (execSerialiseReceive s) := by
  refine .next ?_
  dsimp only
  split
  · split
    · exact h
    · exact .ite h (.ite (modCore_keeps _ _ h) (modCore_keeps _ _ (modCore_keeps _ _ h)))
  · exact h

theorem execFenceFarDone_keeps (h : Keeps s0 s) : OutKeeps s0 (execFenceFarDone s) := by
  refine .next ?_
  dsimp only
  split
  · split
    · exact h
    · exact .ite (modCore_keeps _ _ (.set h)) h
  · exact h

end Sys2Proof.Machine

end

/-! # `Keeps` under Machine/Schedule.lean: the schedule -/

section

namespace Sys2Proof.Machine

open Sys2Proof

variable {s0 s t : State}

theorem errorRecord_keeps (kind die lasting unit blast addr : Nat) (h : Keeps s0 s) : Keeps s0 (errorRecord s kind die lasting unit blast addr) := by
  unfold errorRecord
  exact .ite (raiseMsix_keeps _ _ h) (.ite (raiseMsix_keeps _ _ (pfOr_keeps _ _ _ h)) (deviceWrite_keeps _ _ _ (pfSet_keeps _ _ _ h)))

theorem setPartDyn_keeps (p : Nat) (d : PartDyn) (h : Keeps s0 s) : Keeps s0 (setPartDyn s p d) := .set h

theorem clearToggles_keeps (p : Nat) (h : Keeps s0 s) : Keeps s0 (clearToggles s p) := .foldl _ _ _ (fun _ _ h => .ite (pfSet_keeps _ _ _ h) h) h

theorem changeLevel_keeps (p lv : Nat) (h : Keeps s0 s) : Keeps s0 (changeLevel s p lv) :=
  have set {w : Nat} {d : PartDyn} := setPartDyn_keeps p d (setPartField_keeps p 48 4 w h)
  .ite (clearToggles_keeps _ set) (.ite (raiseMsix_keeps _ _ (setPartField_keeps _ _ _ _ set)) set)

theorem noteLevel_keeps (t : Task) (code : Nat) (h : Keeps s0 s) : Keeps s0 (noteLevel s t code) :=
  .ite h (.ite (.ite (changeLevel_keeps _ _ h) h) (.ite (.ite (changeLevel_keeps _ _ h) (.ite (changeLevel_keeps _ _ h) (setPartDyn_keeps _ _ h))) h))

theorem execDlctlWrite_keeps (h : Keeps s0 s) : OutKeeps s0 (execDlctlWrite s) := by
  refine .next ?_
  dsimp only
  split
  · exact .ite (changeLevel_keeps _ _ (setPartField_keeps _ _ _ _ h)) (setPartField_keeps _ _ _ _ h)
  · exact h

theorem giveUp_keeps (t : Task) (h : Keeps s0 s) : Keeps s0 (giveUp s t) :=
  .ite (setPartField_keeps _ _ _ _ h) (setPartField_keeps _ _ _ _ (setPartField_keeps _ _ _ _ h))

theorem detach_keeps (ti : Nat) (h : Keeps s0 s) : Keeps s0 (detach s ti) :=
  .ite (.foldl _ _ _ (fun _ _ h => modSeq_keeps _ _ h) (setTask_keeps _ _ h)) h

theorem issueEnd_keeps (ti code0 detail : Nat) (mirror : Bool) (slip : Nat) (h : Keeps s0 s) : Keeps s0 (issueEnd s ti code0 detail mirror slip) :=
  .ite (setTask_keeps _ _ (giveUp_keeps _ (.set (detach_keeps _ (noteLevel_keeps _ _ h))))) (setTask_keeps _ _ (.set (detach_keeps _ (noteLevel_keeps _ _ h))))

theorem writePieces_keeps (l : List (Nat × Nat)) (bs : List Byte) (h : Keeps s0 s) : Keeps s0 (writePieces s l bs) := by
  induction l generalizing s bs with
  | nil => exact h
  | cons x r ih => exact ih _ (tagSectors_keeps _ _ _ _ (writePhys_keeps _ _ h))

theorem raiseCq_keeps (v : Nat) (h : Keeps s0 s) : Keeps s0 (raiseCq s v) := raiseMsix_keeps _ _ (.set h)

theorem cqAppend_keeps (v task : Nat) (bytes : List Byte) (h : Keeps s0 s) : Keeps s0 (cqAppend s v task bytes) :=
  .ite (raiseCq_keeps _ (.set (bar0Set_keeps _ _ _ _ (bar0Set_keeps _ _ _ _ (putBytes_keeps _ _ h)))))
    (.set (bar0Set_keeps _ _ _ _ (bar0Set_keeps _ _ _ _ (putBytes_keeps _ _ h))))

theorem putSignal_keeps (w : SigWrite) (h : Keeps s0 s) : Keeps s0 (putSignal s w).1 := by
  unfold putSignal
  have hr := resolveRange_keeps w.part true 4 w.addr 32 h
  generalize resolveRange s w.part true 4 w.addr 32 = r at hr ⊢
  obtain ⟨s1, x, l⟩ := r
  cases x with
  | ok pa => exact writePieces_keeps _ _ hr
  | wait => exact hr
  | fail code =>
    dsimp only
    exact errorRecord_keeps _ _ _ _ _ _ hr

theorem performSignal_keeps (i : Nat) (h : Keeps s0 s) : Keeps s0 (performSignal s i) := by
  unfold performSignal
  dsimp only
  split
  · exact h
  split
  · exact .ite (.ite (.set (putSignal_keeps _ h)) (putSignal_keeps _ h))
      (.ite (.ite (.set (putSignal_keeps _ (bar0Set_keeps _ _ _ _ h))) (putSignal_keeps _ (bar0Set_keeps _ _ _ _ h))) (.set (cqAppend_keeps _ _ _ h)))
  · exact .ite (.set (putSignal_keeps _ h)) (putSignal_keeps _ h)

theorem endMirrored_keeps (ti code detail : Nat) (h : Keeps s0 s) : Keeps s0 (endMirrored s ti code detail) :=
  issueEnd_keeps _ _ _ _ _ (abortLaunch_keeps _ _ _ _ _ _ _ (abortLaunch_keeps _ _ _ _ _ _ _ h))

theorem execCompletionSignalWrite_keeps (h : Keeps s0 s) : OutKeeps s0 (execCompletionSignalWrite s) := by
  refine .next ?_
  dsimp only
  split
  · split
    · exact endMirrored_keeps _ _ _ h
    split
    · split
      · exact issueEnd_keeps _ _ _ _ _ h
      · exact h
    · exact h
  · exact performSignal_keeps _ h
  · exact h

theorem execCqCoalesceTimer_keeps (h : Keeps s0 s) : OutKeeps s0 (execCqCoalesceTimer s) := by
  refine .next ?_
  split
  · split
    · exact .ite (raiseCq_keeps _ h) h
    · exact h
  · exact h

theorem execTretireWrite_keeps (h : Keeps s0 s) : OutKeeps s0 (execTretireWrite s) := by
  refine .next ?_
  dsimp only
  split
  · split
    · exact h
    · exact setTask_keeps _ _ (giveUp_keeps _ h)
    · exact setTask_keeps _ _ h
  · exact h

theorem readChunk_keeps (p x die : Nat) (h : Keeps s0 s) : Keeps s0 (readChunk s p x die).1 := readImage_keeps _ _ _ h

theorem sendChunk_keeps (x die : Nat) (bytes : List Byte) (h : Keeps s0 s) : Keeps s0 (sendChunk s x die bytes) :=
  send_keeps _ (.set (pfSet_keeps _ _ _ h))

theorem releaseNow_keeps (ti : Nat) (h : Keeps s0 s) : Keeps s0 (releaseNow s ti) := by
  unfold releaseNow
  dsimp only
  split
  · exact .ite (issueEnd_keeps _ _ _ _ _ (pfSet_keeps _ _ _ h)) (setTask_keeps _ _ (.set (pfSet_keeps _ _ _ h)))
  split
  · split
    · split
      · exact h
      split
      · rename_i e
        exact (readChunk_keeps _ _ _ h).of_fst e
      · rename_i e
        exact issueEnd_keeps _ _ _ _ _ ((readChunk_keeps _ _ _ h).of_fst e)
      · rename_i e
        exact issueEnd_keeps _ _ _ _ _ (sendChunk_keeps _ _ _ ((readChunk_keeps _ _ _ h).of_fst e))
    · exact issueEnd_keeps _ _ _ _ _ h
  · exact setTask_keeps _ _ (.set h)

theorem execTaskReleaseTime_keeps (h : Keeps s0 s) : OutKeeps s0 (execTaskReleaseTime s) := by
  refine .next ?_
  split
  · exact .ite (releaseNow_keeps _ h) h
  · exact h

theorem takeRelease_keeps (ti time : Nat) (h : Keeps s0 s) (e : takeRelease s ti time = some t) : Keeps s0 t := by
  unfold takeRelease at e
  dsimp only at e
  split at e
  · cases e
    exact .ite (releaseNow_keeps _ (setTask_keeps _ _ h)) (setTask_keeps _ _ h)
  · cases e

theorem bindStart_keeps (t : Task) (cid z : Nat) (h : Keeps s0 s) : Keeps s0 (bindStart t s cid z) := by
  unfold bindStart
  dsimp only
  split
  · exact h
  split
  · exact faultTrap_keeps _ _ _ _ (modCore_keeps _ _ h)
  · exact enterOp_keeps _ _ (modCore_keeps _ _ h)

theorem beginCopy_keeps (q w launch : Nat) (t : Task) (h : Keeps s0 s) : Keeps s0 (beginCopy s q w launch t) :=
  .ite h (modSeq_keeps _ _ (.foldl _ _ _ (fun _ _ h => modSeq_keeps _ _ h) h))

theorem startPass_keeps (ti q : Nat) (h : Keeps s0 s) : Keeps s0 (startPass s ti q) :=
  .foldl _ _ _ (fun _ _ h => .ite h (.foldl _ _ _ (fun _ _ h => bindStart_keeps _ _ _ h) h))
    (beginCopy_keeps _ _ _ _ (modCores_keeps (modSeq_keeps _ _ (setTask_keeps _ _ h))))

theorem beginRestore_keeps (ti q key : Nat) (x : Saved) (h : Keeps s0 s) : Keeps s0 (beginRestore s ti q key x) := by
  unfold beginRestore
  dsimp only
  split
  · exact h
  · exact beginCopy_keeps _ _ _ _ (modCores_keeps (setTask_keeps _ _ (modSeq_keeps _ _ h)))

theorem execPassDispatch_keeps (h : Keeps s0 s) : OutKeeps s0 (execPassDispatch s) := by
  refine .next ?_
  split
  · split
    · exact h
    split
    · exact beginRestore_keeps _ _ _ _ h
    · exact startPass_keeps _ _ h
  · exact h

theorem askPreempt_keeps (p : Nat) (h : Keeps s0 s) : Keeps s0 (askPreempt s p) := by
  unfold askPreempt
  dsimp only
  split
  · exact h
  · refine .foldl _ _ _ (fun s x h => ?_) h
    split
    · exact .set (.foldl _ _ _ (fun _ _ h => .set h) h)
    · exact .foldl _ _ _ (fun _ _ h => .set h) h

theorem execPreemptRequestArrive_keeps (h : Keeps s0 s) : OutKeeps s0 (execPreemptRequestArrive s) := by
  refine .next ?_
  dsimp only
  split
  · split
    · exact .ite h (modSeq_keeps _ _ (.set h))
    · exact h
  · exact h

theorem freeUnit_keeps (q : Nat) (h : Keeps s0 s) : Keeps s0 (freeUnit s q) := by
  have freed {x : Seq} {l : List Nat} {asks : Tbl Nat} :
      Keeps s0 (setSeq (let s1 := l.foldl (fun s i => modCore s i restCore) s; { s1 with rk := { s1.rk with asks := asks } }) q x) :=
    setSeq_keeps _ _ (.set (modCores_keeps h))
  unfold freeUnit
  dsimp only
  split
  · exact .ite (setTask_keeps _ _ freed) freed
  · exact freed

theorem mergeUnit_keeps (q : Nat) (h : Keeps s0 s) : Keeps s0 (mergeUnit s q) :=
  .foldl _ _ _ (fun _ _ h => .foldl _ _ _ (fun _ _ h => mergeLineOf_keeps _ _ h) h) h

theorem restate_keeps (ti : Nat) (h : Keeps s0 s) : Keeps s0 (restate s ti) := .ite (setTask_keeps _ _ h) h

theorem progress_keeps (a n : Nat) (h : Keeps s0 s) : Keeps s0 (progress s a n) := by
  unfold progress
  dsimp only
  split
  · exact h
  split
  · exact h
  · exact zeroHalf_keeps _ (zeroHalf_keeps _ (pfSet_keeps _ _ _ h))

theorem addSlip_keeps (q : Nat) (h : Keeps s0 s) : Keeps s0 (addSlip s q) := by
  unfold addSlip
  split
  · exact .ite h (modTask_keeps _ _ h)
  · exact h

theorem finishPass_keeps (q : Nat) (h : Keeps s0 s) : Keeps s0 (finishPass s q) := by
  unfold finishPass
  dsimp only
  split
  · exact h
  split
  · exact addSlip_keeps _ (modSeq_keeps _ _ h)
  · have ended {ti : Nat} {t : Task} {f : Seq → Seq} := restate_keeps ti (setTask_keeps ti t (addSlip_keeps q (modSeq_keeps q f h)))
    exact .ite (progress_keeps _ _ (setPartField_keeps _ _ _ _ ended)) ended

theorem leavePass_keeps (q : Nat) (h : Keeps s0 s) : Keeps s0 (leavePass s q) := by
  unfold leavePass
  dsimp only
  split
  · exact h
  · exact .ite (modTask_keeps _ _ (freeUnit_keeps _ (mergeUnit_keeps _ h))) (freeUnit_keeps _ (mergeUnit_keeps _ h))

theorem execKernelEndRetire_keeps (h : Keeps s0 s) : OutKeeps s0 (execKernelEndRetire s) := by
  refine .next ?_
  dsimp only
  split
  · exact .ite h (.ite (leavePass_keeps _ (.ite (finishPass_keeps _ (.ite (modCore_keeps _ _ h) h)) (.ite (modCore_keeps _ _ h) h)))
      (.ite (finishPass_keeps _ (.ite (modCore_keeps _ _ h) h)) (.ite (modCore_keeps _ _ h) h)))
  · exact h

theorem execDeadlineExpiry_keeps (h : Keeps s0 s) : OutKeeps s0 (execDeadlineExpiry s) := by
  refine .next ?_
  dsimp only
  split
  · exact .ite (.ite (endMirrored_keeps _ _ _ h) (abortLaunch_keeps _ _ _ _ _ _ _ h)) h
  · exact h

theorem execBudgetOverrun_keeps (h : Keeps s0 s) : OutKeeps s0 (execBudgetOverrun s) := by
  refine .next ?_
  split
  · exact .ite (takeTrap_keeps _ _ _ _ _ h) h
  · exact h

theorem execChunkSend_keeps (h : Keeps s0 s) : OutKeeps s0 (execChunkSend s) := by
  refine .next ?_
  dsimp only
  split
  · split
    · exact h
    split
    · rename_i e
      exact (readChunk_keeps _ _ _ h).of_fst e
    · rename_i e
      exact modTask_keeps _ _ ((readChunk_keeps _ _ _ h).of_fst e)
    · rename_i e
      exact issueEnd_keeps _ _ _ _ _ (abortLaunch_keeps _ _ _ _ _ _ _ (sendChunk_keeps _ _ _ ((readChunk_keeps _ _ _ h).of_fst e)))
  · exact h

theorem execMirrorMarginExpiry_keeps (h : Keeps s0 s) : OutKeeps s0 (execMirrorMarginExpiry s) := by
  refine .next ?_
  dsimp only
  split
  · exact .ite (setTask_keeps _ _ h) h
  · exact h

end Sys2Proof.Machine

end

/-! # `Keeps` under Machine/Admit.lean: admission -/

section

namespace Sys2Proof.Machine

open Sys2Proof

variable {s0 s t : State}

theorem qstatOr_keeps (v bits : Nat) (h : Keeps s0 s) : Keeps s0 (qstatOr s v bits) := bar0Set_keeps _ _ _ _ h

theorem answer_keeps (src : ReqSrc) (cmd : Command) (r : Verdict) (h : Keeps s0 s) : Keeps s0 (answer s src cmd r) := by
  unfold answer
  dsimp only
  split
  · split
    · split
      · exact finishCmd_keeps _ _ _ _ h
      · exact h
    · exact h
  · exact cpRingPutBytes_keeps _ _ h
  split
  · exact h
  · exact h
  · exact qstatOr_keeps _ _ h
  · exact bar0Set_keeps _ _ _ _ (qstatOr_keeps _ _ h)

theorem decided_keeps (h : Keeps s0 s) : Keeps s0 (decided s) := .set h

theorem postpone_keeps (e : Event) (taken : Nat) (h : Keeps s0 s) : Keeps s0 (postpone s e taken) := .set h

theorem readHeaders_keeps (p : Nat) (c : Command) (h : Keeps s0 s) : Keeps s0 (readHeaders s p c).1 := by
  have images {a b m n : Nat} := readImage_keeps p a m (readImage_keeps p b n h)
  unfold readHeaders
  dsimp only
  split
  · exact images
  split
  · split
    · exact readTable_keeps _ _ _ _ _ (readTable_keeps _ _ _ _ _ images)
    split <;> exact readTable_keeps _ _ _ _ _ (readTable_keeps _ _ _ _ _ images)
  split
  · exact readTable_keeps _ _ _ _ _ (readTable_keeps _ _ _ _ _ images)
  split <;> exact readTable_keeps _ _ _ _ _ (readTable_keeps _ _ _ _ _ images)

theorem charge_keeps (p cls u d : Nat) (h : Keeps s0 s) : Keeps s0 (charge s p cls u d) :=
  .ite (setPartField_keeps _ _ _ _ h) (setPartField_keeps _ _ _ _ (setPartField_keeps _ _ _ _ h))

theorem refuseSignal_keeps (p : Nat) (c : Command) (code detail : Nat) (h : Keeps s0 s) : Keeps s0 (refuseSignal s p c code detail) := .set h

theorem refuseSubmit_keeps (src : ReqSrc) (p : Nat) (c : Command) (code detail : Nat) (h : Keeps s0 s) : Keeps s0 (refuseSubmit s src p c code detail) :=
  .ite (decided_keeps (answer_keeps _ _ _ h)) (decided_keeps (answer_keeps _ _ _ (refuseSignal_keeps _ _ _ _ h)))

theorem decideSubmit_keeps (e : Event) (src : ReqSrc) (p : Nat) (c : Command) (h : Keeps s0 s) : Keeps s0 (decideSubmit s e src p c) := by
  unfold decideSubmit
  dsimp only
  split
  · exact refuseSubmit_keeps _ _ _ _ _ h
  split
  · exact refuseSubmit_keeps _ _ _ _ _ h
  split
  · rename_i e1
    exact postpone_keeps _ _ ((readHeaders_keeps _ _ h).of_fst e1)
  · rename_i e1
    exact refuseSubmit_keeps _ _ _ _ _ ((readHeaders_keeps _ _ h).of_fst e1)
  · rename_i e1
    have h1 := (readHeaders_keeps _ _ h).of_fst e1
    split
    · exact refuseSubmit_keeps _ _ _ _ _ h1
    · exact decided_keeps (answer_keeps _ _ _ (.ite (releaseNow_keeps _ (setTask_keeps _ _ (charge_keeps _ _ _ _ h1))) (setTask_keeps _ _ (charge_keeps _ _ _ _ h1))))

theorem dequeue_keeps (src : ReqSrc) (h : Keeps s0 s) : Keeps s0 (dequeue s src) := by
  unfold dequeue
  split
  · exact .set h
  · exact h

theorem execSubmit_keeps (h : Keeps s0 s) : OutKeeps s0 (execSubmit s) := by
  refine .next ?_
  split
  · exact .ite (decideSubmit_keeps _ _ _ _ (dequeue_keeps _ h)) h
  · exact h

theorem execReleaseCommand_keeps (h : Keeps s0 s) : OutKeeps s0 (execReleaseCommand s) := by
  refine .next ?_
  dsimp only
  split
  · split
    · exact h
    split
    · exact decided_keeps (answer_keeps _ _ _ (dequeue_keeps _ h))
    split
    · rename_i e
      exact decided_keeps (answer_keeps _ _ _ (takeRelease_keeps _ _ (dequeue_keeps _ h) e))
    · exact decided_keeps (answer_keeps _ _ _ (dequeue_keeps _ h))
  · exact h

theorem execNopCommand_keeps (h : Keeps s0 s) : OutKeeps s0 (execNopCommand s) := by
  refine .next ?_
  dsimp only
  split
  · split
    · exact h
    split
    · exact decided_keeps (answer_keeps _ _ _ h)
    split <;> exact decided_keeps (answer_keeps _ _ _ h)
  · exact h

theorem execRingEntryRead_keeps (h : Keeps s0 s) : OutKeeps s0 (execRingEntryRead s) := by
  refine .next ?_
  dsimp only
  split
  · exact .ite h (.set (bar0Set_keeps _ _ _ _ h))
  · exact h

theorem execFirmwareRingEntry_keeps (h : Keeps s0 s) : OutKeeps s0 (execFirmwareRingEntry s) := by
  refine .next ?_
  dsimp only
  split
  · exact .ite (again_keeps _ h) (.set h)
  · exact h

theorem countMiss_keeps (i : Nat) (h : Keeps s0 s) : Keeps s0 (countMiss s i) := pfSet_keeps _ _ _ h

theorem execNetworkRelease_keeps (h : Keeps s0 s) : OutKeeps s0 (execNetworkRelease s) := by
  refine .next ?_
  split
  · refine .ite h (decided_keeps (.getD (fun t e => ?_) (countMiss_keeps _ (.set h))))
    split at e
    · cases e
    split at e
    · cases e
    · exact takeRelease_keeps _ _ (.set h) e
  · exact h

end Sys2Proof.Machine

end

/-! # `Keeps` under Machine/Network.lean: the network -/

section

namespace Sys2Proof.Machine

open Sys2Proof

variable {s0 s t : State}

theorem setKind_keeps (cid id : Nat) (f : AOp → AOp) (h : Keeps s0 s) : Keeps s0 (setKind s cid id f) := modCore_keeps _ _ h

theorem netForget_keeps (cid : Nat) (h : Keeps s0 s) : Keeps s0 (netForget s cid) := .set h

theorem netFinish_keeps (cid : Nat) (o : AOp) (dst : Fin 32) (x : TWord) (h : Keeps s0 s) : Keeps s0 (netFinish s cid o dst x) :=
  netForget_keeps _ (.ite (landLater_keeps _ _ _ _ _ h) (finishCmd_keeps _ _ _ _ h))

theorem netFail_keeps (cid : Nat) (o : AOp) (dst : Fin 32) (code detail : Nat) (h : Keeps s0 s) : Keeps s0 (netFail s cid o dst code detail) :=
  netForget_keeps _ (.ite (landLater_keeps _ _ _ _ _ h) (failCmd_keeps _ _ _ _ _ _ h))

theorem onStart_keeps {f : Nat → AOp → State} (hf : ∀ c o, Keeps s0 (f c o)) (h : Keeps s0 s) : Keeps s0 (onStart s f) :=
  onOp_keeps (fun c o => .ite (hf c o) h) h

theorem withCtx_keeps {k : State} (cid : Nat) (o : AOp) (dst : Fin 32) (ctx : Nat) (h : Keeps s0 s) (hk : Keeps s0 k) :
    Keeps s0 (withCtx s cid o dst ctx k) :=
  .ite (netFinish_keeps _ _ _ _ h) (.ite (netFail_keeps _ _ _ _ _ h) hk)

theorem pushSent_keeps (ctx cid id : Nat) (h : Keeps s0 s) : Keeps s0 (pushSent s ctx cid id) := .set h

theorem descOr_keeps (m : Cmd) (bad : Cmd → List Byte → Option (Nat × Nat)) (va : Nat) (h : Keeps s0 s) : Res.Keeps s0 (descOr m bad s va) := by
  unfold descOr
  refine .bind (enDesc_keeps _ _ h) (fun s x h => ?_)
  split
  · exact .fail h
  · exact .ok h

theorem nsendStart_keeps (cid : Nat) (o : AOp) (dst : Fin 32) (va : Nat) (h : Keeps s0 s) : Keeps s0 (nsendStart s cid o dst va) := by
  unfold nsendStart
  dsimp only
  split
  · exact h
  split
  · exact retryCmd_keeps _ _ _ _ h
  · rename_i e
    exact netFail_keeps _ _ _ _ _ ((descOr_keeps _ _ _ h).of_fail e)
  · rename_i e
    have h1 := (descOr_keeps _ _ _ h).of_ok e
    split
    · exact h1
    split
    · exact retryCmd_keeps _ _ _ _ h1
    · rename_i e1
      exact netFail_keeps _ _ _ _ _ ((readCmd_keeps _ _ _ _ h1).of_fail e1)
    · rename_i e1
      have h2 := (readCmd_keeps _ _ _ _ h1).of_ok e1
      exact withCtx_keeps _ _ _ _ h2 (pushSent_keeps _ _ _ (setKind_keeps _ _ _ (send_keeps _ h2)))

theorem execNsendComplete_keeps (h : Keeps s0 s) : OutKeeps s0 (execNsendComplete s) := by
  refine .next ?_
  split
  · split
    · exact h
    split
    · exact .ite (netFinish_keeps _ _ _ _ h) h
    · exact onStart_keeps (fun _ _ => nsendStart_keeps _ _ _ _ h) h
    · exact h
  · exact h

theorem nrecvStart_keeps (cid : Nat) (o : AOp) (dst : Fin 32) (va : Nat) (h : Keeps s0 s) : Keeps s0 (nrecvStart s cid o dst va) := by
  unfold nrecvStart
  dsimp only
  split
  · exact h
  split
  · exact retryCmd_keeps _ _ _ _ h
  · rename_i e
    exact netFail_keeps _ _ _ _ _ ((descOr_keeps _ _ _ h).of_fail e)
  · rename_i e
    have h1 := (descOr_keeps _ _ _ h).of_ok e
    exact withCtx_keeps _ _ _ _ h1 (.ite (netFail_keeps _ _ _ _ _ h1) (setKind_keeps _ _ _ (.set h1)))

theorem deliver_keeps (i : Nat) (h : Keeps s0 s) : Keeps s0 (deliver s i) := by
  unfold deliver
  dsimp only
  split
  · split
    · exact h
    split
    · split
      · exact h
      split
      · exact netFinish_keeps _ _ _ _ h
      split
      · exact resolve_keeps _ _ _ h
      · rename_i e
        exact .set (netFail_keeps _ _ _ _ _ ((Res.Keeps.bind (cmdWrite_keeps _ _ _ _ _ _ _ h) (fun _ _ h => cmdWrite_keeps _ _ _ _ _ _ _ h)).of_fail e))
      · rename_i e
        exact .set (netFinish_keeps _ _ _ _ ((Res.Keeps.bind (cmdWrite_keeps _ _ _ _ _ _ _ h) (fun _ _ h => cmdWrite_keeps _ _ _ _ _ _ _ h)).of_ok e))
    · exact h
  · exact h

theorem arrive_keeps (i : Nat) (tag : Word) (payload : List Byte) (h : Keeps s0 s) : Keeps s0 (arrive s i tag payload) :=
  .ite h (deliver_keeps _ (.set h))

theorem execMessageDelivery_keeps (h : Keeps s0 s) : OutKeeps s0 (execMessageDelivery s) := by
  refine .next ?_
  split
  · split
    · split
      · exact onStart_keeps (fun _ _ => nrecvStart_keeps _ _ _ _ h) h
      · exact h
    · exact h
  · exact .ite h (arrive_keeps _ _ _ h)
  · exact deliver_keeps _ h
  · exact h

theorem packetIn_keeps (i : Nat) (stamp : Word) (payload : List Byte) (h : Keeps s0 s) (e : packetIn s i stamp payload = some t) : Keeps s0 t := by
  have miss : ∀ s, Keeps s0 s → Keeps s0 (countMiss (pfSet s (0x60000 + 32 * i + 24) 8 stamp.toNat) i) :=
    fun _ h => countMiss_keeps _ (pfSet_keeps _ _ _ h)
  unfold packetIn at e
  dsimp only at e
  split at e
  · cases e
    exact miss s h
  · split at e
    · cases e
      exact miss s h
    · split at e
      · cases e
      · rename_i e1
        cases e
        exact miss _ ((resolveRange_keeps _ _ _ _ _ h).of_fst e1)
      · rename_i e1
        cases e
        exact .set (pfSet_keeps _ _ _ (writePieces_keeps _ _ ((resolveRange_keeps _ _ _ _ _ h).of_fst e1)))

theorem packetAsks_keeps (i : Nat) (payload : List Byte) (h : Keeps s0 s) : Keeps s0 (packetAsks s i payload) := by
  unfold packetAsks
  split
  · exact resolveRange_keeps _ _ _ _ _ h
  · exact h

theorem packetOn_keeps (port ctx : Nat) (payload : List Byte) (h : Keeps s0 s) : Keeps s0 (packetOn s port ctx payload) := by
  unfold packetOn
  split
  · exact arrive_keeps _ _ _ (.setDraw h)
  · exact h

theorem drainPackets_keeps (n : Nat) (h : Keeps s0 s) : Keeps s0 (drainPackets n s) := by
  induction n generalizing s with
  | zero => exact h
  | succ n ih =>
    -- The equation lemma of `drainPackets` does not elaborate: the definition is unfolded by reduction.
    conv => arg 2; whnf
    split
    · exact h
    dsimp only
    split
    · exact ih (packetOn_keeps _ _ _ (.set h))
    split
    · rename_i e
      exact ih (packetIn_keeps _ _ _ (.set h) e)
    · exact packetAsks_keeps _ _ h

theorem execPacketMatch_keeps (h : Keeps s0 s) : OutKeeps s0 (execPacketMatch s) := by
  refine .next ?_
  dsimp only
  split
  · exact drainPackets_keeps _ (.set h)
  · exact drainPackets_keeps _ h
  · exact h

theorem nextColl_keeps (key : Nat) (h : Keeps s0 s) : Keeps s0 (nextColl s key).2 := .set h

theorem ncollStart_keeps (cid : Nat) (o : AOp) (dst : Fin 32) (va : Nat) (h : Keeps s0 s) : Keeps s0 (ncollStart s cid o dst va) := by
  unfold ncollStart
  dsimp only
  split
  · exact h
  split
  · exact retryCmd_keeps _ _ _ _ h
  · rename_i e
    exact netFail_keeps _ _ _ _ _ ((descOr_keeps _ _ _ h).of_fail e)
  · rename_i e
    have h1 := (descOr_keeps _ _ _ h).of_ok e
    split
    · exact h1
    split
    · exact retryCmd_keeps _ _ _ _ h1
    · rename_i e1
      exact netFail_keeps _ _ _ _ _ ((Res.Keeps.bind (readCmd_keeps _ _ _ _ h1) (fun _ _ h => .bind (readCmd_keeps _ _ _ _ h) (fun _ _ h => .ok h))).of_fail e1)
    · rename_i e1
      have h2 := (Res.Keeps.bind (readCmd_keeps _ _ _ _ h1) (fun _ _ h => .bind (readCmd_keeps _ _ _ _ h) (fun _ _ h => .ok h))).of_ok e1
      split
      · exact netFinish_keeps _ _ _ _ h2
      split
      · exact netFail_keeps _ _ _ _ _ h2
      · exact setKind_keeps _ _ _ (.foldl _ _ _ (fun _ _ h => pushSent_keeps _ _ _ (send_keeps _ h)) (.set (nextColl_keeps _ h2)))

theorem execNcollContribution_keeps (h : Keeps s0 s) : OutKeeps s0 (execNcollContribution s) := by
  refine .next ?_
  dsimp only
  split
  · split
    · split
      · exact onStart_keeps (fun _ _ => ncollStart_keeps _ _ _ _ h) h
      · exact h
    · exact h
  · exact .ite h (.set h)
  · exact h

theorem execNcollComplete_keeps (h : Keeps s0 s) : OutKeeps s0 (execNcollComplete s) := by
  refine .next (onOp_keeps (fun c o => ?_) h)
  dsimp only
  split
  · split
    · exact .set (netFail_keeps _ _ _ _ _ h)
    split
    · exact h
    split
    · exact retryCmd_keeps _ _ _ _ h
    · rename_i e
      exact .set (netFail_keeps _ _ _ _ _ ((cmdWrite_keeps _ _ _ _ _ _ _ h).of_fail e))
    · rename_i e
      exact .set (netFinish_keeps _ _ _ _ ((cmdWrite_keeps _ _ _ _ _ _ _ h).of_ok e))
  · exact h

theorem abandonCore_keeps (i cid : Nat) (h : Keeps s0 s) : Keeps s0 (abandonCore s i cid) := .foldl _ _ _ (fun _ _ h => netFail_keeps _ _ _ _ _ h) h

theorem execConnectionAbandon_keeps (h : Keeps s0 s) : OutKeeps s0 (execConnectionAbandon s) := by
  refine .next ?_
  dsimp only
  split
  · exact .set (.foldl _ _ _ (fun _ _ h => abandonCore_keeps _ _ h) h)
  · exact h

theorem takeAck_keeps (i n : Nat) (h : Keeps s0 s) : Keeps s0 (takeAck s i n) := by
  unfold takeAck
  dsimp only
  split
  · exact h
  · exact setKind_keeps _ _ _ (.set h)

end Sys2Proof.Machine

end

/-! # `Keeps` under Machine/Interrupt.lean: stops, saves, errors and migration -/

section

namespace Sys2Proof.Machine

open Sys2Proof

variable {s0 s t : State}

theorem putTaints_keeps (a n : Nat) (f : Nat → Bool) (h : Keeps s0 s) : Keeps s0 (putTaints s a n f) := .set h

theorem putFun_keeps (a : Nat) (f : Nat → Byte) (n : Nat) (h : Keeps s0 s) : Keeps s0 (putFun s a f n) := by
  induction n generalizing s with
  | zero => exact h
  | succ n ih => exact ih (putByte_keeps _ _ h)

theorem beginSave_keeps (q j : Nat) (h : Keeps s0 s) : Keeps s0 (beginSave s q j) := by
  unfold beginSave
  dsimp only
  split
  · exact modSeq_keeps _ _ (.ite (putFun_keeps _ _ _ (putBytes_keeps _ _ h)) h)
  · exact h

theorem putUnit_keeps (q a pw off : Nat) (h : Keeps s0 s) : Keeps s0 (putUnit s q a pw off) :=
  .ite (putFun_keeps _ _ _ h) (.ite (putFun_keeps _ _ _ h) (putTaints_keeps _ _ _ (putFun_keeps _ _ _ h)))

theorem failSave_keeps (q reason : Nat) (h : Keeps s0 s) : Keeps s0 (failSave s q reason) := by
  unfold failSave
  dsimp only
  split
  · refine takeTrap_keeps _ _ _ _ _ (modSeq_keeps _ _ ?_)
    split
    · exact .ite (deviceWrite_keeps _ _ _ (deviceWrite_keeps _ _ _ h)) h
    · exact h
  · exact h

theorem saveStep_keeps (q : Nat) (h : Keeps s0 s) : Keeps s0 (saveStep s q) := by
  unfold saveStep
  dsimp only
  split
  · split
    · exact modSeq_keeps _ _ h
    split
    · split
      · exact .ite (.ite h (failSave_keeps _ _ h)) (.ite (putByte_keeps _ _ (putBytes_keeps _ _ (putUnit_keeps _ _ _ _ h))) (putUnit_keeps _ _ _ _ h))
      · exact h
    · exact h
  · exact h

theorem rekeyNet_keeps (old new : Nat) (h : Keeps s0 s) : Keeps s0 (rekeyNet s old new) := .set h

theorem keepInPlace_keeps (q : Nat) (h : Keeps s0 s) : Keeps s0 (keepInPlace s q) := modSeq_keeps _ _ h

theorem holdDone_keeps (r : PassRun) (h : Keeps s0 s) : Keeps s0 (holdDone s r) := .ite (raiseMsix_keeps _ _ h) h

theorem zeroSlot_keeps (a : Nat) (written : List (Nat × Nat)) (h : Keeps s0 s) : Keeps s0 (zeroSlot s a written) := .setFilter h

theorem discardPass_keeps (q : Nat) (h : Keeps s0 s) : Keeps s0 (discardPass s q) := by
  unfold discardPass
  dsimp only
  split
  · refine restate_keeps _ (.foldl _ _ _ (fun _ _ h => netForget_keeps _ h) (freeUnit_keeps _ (mergeUnit_keeps _ ?_)))
    split
    · split
      · exact .ite (zeroSlot_keeps _ _ h) (.ite (markSlot_keeps _ _ _ _ h) h)
      · exact h
    · refine addSlip_keeps _ ?_
      split
      · exact .ite (zeroSlot_keeps _ _ h) (.ite (markSlot_keeps _ _ _ _ h) h)
      · exact h
  · exact h

theorem cancelRestore_keeps (q j : Nat) (h : Keeps s0 s) : Keeps s0 (cancelRestore s q j) := by
  unfold cancelRestore
  dsimp only
  split
  · exact holdDone_keeps _ (restate_keeps _ (freeUnit_keeps _ (.set (.ite (deviceWrite_keeps _ _ _ (deviceWrite_keeps _ _ _ h)) h))))
  · exact h

/-- The operations of a unit's cores leave with the stop. -/
theorem drainCores_keeps {l : List Nat} {f : Core → Core} (h : Keeps s0 s) : Keeps s0 (l.foldl (fun s i => netForget (modCore s i f) i) s) :=
  .foldl _ _ _ (fun _ _ h => netForget_keeps _ (modCore_keeps _ _ h)) h

theorem execStopDrainComplete_keeps (h : Keeps s0 s) : OutKeeps s0 (execStopDrainComplete s) := by
  refine .next ?_
  dsimp only
  split
  · split
    · split
      · exact h
      · exact .ite h (discardPass_keeps _ h)
      · split
        · split
          · exact .ite h (beginSave_keeps _ _ h)
          · exact h
        · exact .ite h (discardPass_keeps _ h)
      split
      · exact cancelRestore_keeps _ _ h
      split
      · exact takeTrap_keeps _ _ _ _ _ (drainCores_keeps h)
      split
      · exact drainCores_keeps h
      split
      · exact discardPass_keeps _ (drainCores_keeps h)
      split
      · exact .ite (drainCores_keeps h) (beginSave_keeps _ _ (mergeUnit_keeps _ (drainCores_keeps h)))
      · exact holdDone_keeps _ (restate_keeps _ (keepInPlace_keeps _ (mergeUnit_keeps _ (drainCores_keeps h))))
    · exact h
  · exact h

theorem execSaveComplete_keeps (h : Keeps s0 s) : OutKeeps s0 (execSaveComplete s) := by
  refine .next ?_
  dsimp only
  split
  · split
    · exact .ite h (.ite (failSave_keeps _ _ h)
        (.ite (restate_keeps _ (freeUnit_keeps _ (.foldl _ _ _ (fun _ _ h => netForget_keeps _ h) (addSlip_keeps _ (putBytes_keeps _ _ (putBytes_keeps _ _ h))))))
          (holdDone_keeps _ (restate_keeps _ (freeUnit_keeps _ (.foldl _ _ _ (fun _ _ h => rekeyNet_keeps _ _ h) (.set (putBytes_keeps _ _ h))))))))
    · exact h
  · exact h

theorem execSaveDrainTimeout_keeps (h : Keeps s0 s) : OutKeeps s0 (execSaveDrainTimeout s) := by
  refine .next ?_
  split
  · exact .ite (failSave_keeps _ _ h) h
  · exact h

theorem execRestoreComplete_keeps (h : Keeps s0 s) : OutKeeps s0 (execRestoreComplete s) := by
  refine .next ?_
  dsimp only
  split
  · split
    · split
      · exact h
      split
      · exact takeTrap_keeps _ _ _ _ _ (modSeq_keeps _ _ h)
      · exact .ite (takeTrap_keeps _ _ _ _ _ (modSeq_keeps _ _ (.set h)))
          (.set (markSlot_keeps _ _ _ _ (modSeq_keeps _ _ (.foldl _ _ _ (fun _ _ h => rekeyNet_keeps _ _ (modCore_keeps _ _ h)) h))))
    · exact h
  · exact h

theorem execTractResume_keeps (h : Keeps s0 s) : OutKeeps s0 (execTractResume s) := by
  refine .next ?_
  split
  · exact .ite (restate_keeps _ (clearHold_keeps _ h)) h
  · exact h

theorem execTractAbort_keeps (h : Keeps s0 s) : OutKeeps s0 (execTractAbort s) := by
  refine .next ?_
  dsimp only
  split
  · exact .ite (.ite (modTask_keeps _ _ (.foldl _ _ _ (fun _ _ h => .ite (abortLaunch_keeps _ _ _ _ _ _ _ h) h) h)) (abortLaunch_keeps _ _ _ _ _ _ _ h)) h
  · exact h

theorem endVfTask_keeps (v : Nat) (ti : Nat) (h : Keeps s0 s) : Keeps s0 (endVfTask v s ti) :=
  .ite (issueEnd_keeps _ _ _ _ _ (setTask_keeps _ _ h))
    (modTask_keeps _ _ (.foldl _ _ _ (fun _ _ h => .ite (addSavedSlip_keeps _ h) h) (stopLaunch_keeps _ _ _ _ _ _ _ _ _ _ h)))

theorem execFunctionLevelReset_keeps (h : Keeps s0 s) : OutKeeps s0 (execFunctionLevelReset s) := by
  refine .next ?_
  dsimp only
  split
  · exact .foldl _ _ _ (fun _ _ h => endVfTask_keeps _ _ h) (.set (bar0Set_keeps _ _ _ _ (bar0Set_keeps _ _ _ _ (bar0Set_keeps _ _ _ _ (bar0Set_keeps _ _ _ _ h)))))
  · exact h

theorem execFunctionLevelResetEnd_keeps (h : Keeps s0 s) : OutKeeps s0 (execFunctionLevelResetEnd s) := by
  refine .next ?_
  dsimp only
  split
  · exact .ite h (.set (.foldl _ _ _ (fun _ _ h => .ite (dropNames_keeps _ (zeroSlot_keeps _ _ h)) h) h))
  · exact h

theorem trapPasses_keeps (f : Nat → PassRun → Bool) (code detail : Nat) (h : Keeps s0 s) : Keeps s0 (trapPasses s f code detail) := by
  unfold trapPasses
  refine .foldl _ _ _ (fun s x h => ?_) h
  split
  · exact .ite (takeTrap_keeps _ _ _ _ _ h) h
  · exact h

theorem strikeDie_keeps (d : Nat) (parts : Nat → Bool) (h : Keeps s0 s) : Keeps s0 (strikeDie s d parts) :=
  .foldl _ _ _ (fun _ _ h => .ite (modTask_keeps _ _ h) h) h

theorem abortTask_keeps (ti code detail : Nat) (h : Keeps s0 s) : Keeps s0 (abortTask s ti code detail) :=
  .ite (.ite (endMirrored_keeps _ _ _ h) (abortLaunch_keeps _ _ _ _ _ _ _ h)) h

theorem abortCopy_keeps (ti i code detail : Nat) (h : Keeps s0 s) : Keeps s0 (abortCopy s ti i code detail) :=
  .ite h (abortLaunch_keeps _ _ _ _ _ _ _ (modTask_keeps _ _ h))

theorem abortSaved_keeps (r : PassRun) (code detail : Nat) (h : Keeps s0 s) : Keeps s0 (abortSaved s r code detail) :=
  .ite (.ite (abortCopy_keeps _ _ _ _ h) h) (abortTask_keeps _ _ _ h)

theorem deliverError_keeps (e : ErrorInfo) (blast : List Nat) (h : Keeps s0 s) : Keeps s0 (deliverError s e blast) := by
  unfold deliverError
  dsimp only
  split
  · exact trapPasses_keeps _ _ _ h
  split
  · exact trapPasses_keeps _ _ _ h
  split
  · exact trapPasses_keeps _ _ _ h
  split
  · exact abortTask_keeps _ _ _ h
  split
  · refine .foldl _ _ _ (fun s x h => ?_) h
    split
    · split
      · exact abortTask_keeps _ _ _ h
      · exact h
    · exact h
  split
  · split
    · split
      · exact abortSaved_keeps _ _ _ h
      · exact h
    split
    · exact .ite (failSave_keeps _ _ h) h
    · exact h
  · exact h

theorem loseDie_keeps (d : Nat) (h : Keeps s0 s) : Keeps s0 (loseDie s d) :=
  .foldl _ _ _ (fun _ _ h => .ite (.foldl _ _ _ (fun _ _ h => netForget_keeps _ h) (freeUnit_keeps _ (modCores_keeps (.ite h (addSlip_keeps _ h))))) h)
    (.foldl _ _ _ (fun _ _ h => .ite (.ite (abortCopy_keeps _ _ _ _ h) (.ite (abortLaunch_keeps _ _ _ _ _ _ _ h) h)) h) (strikeDie_keeps _ _ (.set h)))

theorem execDieLost_keeps (h : Keeps s0 s) : OutKeeps s0 (execDieLost s) := by
  refine .next ?_
  split
  · exact .ite h (loseDie_keeps _ h)
  · exact h

theorem addRetired_keeps (x : Nat × Nat) (h : Keeps s0 s) : Keeps s0 (addRetired s x) := .set h

theorem retireUnit_keeps (e : ErrorInfo) (h : Keeps s0 s) : Keeps s0 (retireUnit s e) := by
  unfold retireUnit
  dsimp only
  split
  · exact addRetired_keeps _ h
  · exact addRetired_keeps _ h
  · exact .set (setFrame_keeps _ _ _ (addRetired_keeps _ h))
  · exact .set (setFrame_keeps _ _ _ (addRetired_keeps _ h))
  · exact .ite (loseDie_keeps _ (addRetired_keeps _ h)) (addRetired_keeps _ h)
  · exact h

theorem execErrorDetected_keeps (h : Keeps s0 s) : OutKeeps s0 (execErrorDetected s) := by
  refine .next ?_
  dsimp only
  split
  · exact .ite (retireUnit_keeps _ (deliverError_keeps _ _ (strikeDie_keeps _ _ (errorRecord_keeps _ _ _ _ _ _ h)))) (errorRecord_keeps _ _ _ _ _ _ h)
  · exact h

theorem migRefuse_keeps (v : Nat) (h : Keeps s0 s) : Keeps s0 (migRefuse s v) := pfOr_keeps _ _ _ h

theorem onMig_keeps (i : Instr) {f : State → Nat → Nat → State} (hf : ∀ s v p, Keeps s0 s → Keeps s0 (f s v p)) (h : Keeps s0 s) :
    Keeps s0 (onMig s i f) := by
  unfold onMig
  dsimp only
  split
  · split
    · exact again_keeps _ h
    split
    · exact migRefuse_keeps _ (storeReg_keeps _ _ _ _ _ h)
    split
    · exact migRefuse_keeps _ (storeReg_keeps _ _ _ _ _ h)
    · exact hf _ _ _ (storeReg_keeps _ _ _ _ _ h)
  · exact h

theorem execMigrationRound_keeps (h : Keeps s0 s) : OutKeeps s0 (execMigrationRound s) :=
  .next (onMig_keeps _ (fun _ _ _ h => pfSet_keeps _ _ _ h) h)

theorem execMigrationStop_keeps (h : Keeps s0 s) : OutKeeps s0 (execMigrationStop s) := by
  refine .next (onMig_keeps _ (fun s v p h => ?_) h)
  dsimp only
  split
  · exact migRefuse_keeps _ h
  · refine .set (pfOr_keeps _ _ _ (setPartDyn_keeps _ _ (.foldl _ _ _ (fun s x h => ?_) h)))
    split
    · exact .ite h (.ite (modSeq_keeps _ _ h) (requestStop_keeps _ _ _ _ _ _ _ _ h))
    · exact .ite (requestStop_keeps _ _ _ _ _ _ _ _ h) h
    · exact h

theorem noteMigStop_keeps (v : Nat) (h : Keeps s0 s) : Keeps s0 (noteMigStop s v) := by
  unfold noteMigStop
  dsimp only
  split
  · exact .ite h (.set (pfSet_keeps _ _ _ h))
  · exact h

theorem execMigrationExport_keeps (h : Keeps s0 s) : OutKeeps s0 (execMigrationExport s) :=
  .next (onMig_keeps _ (fun _ _ _ h => .ite (migRefuse_keeps _ h) (.ite (again_keeps _ h) (writePhys_keeps _ _ h))) h)

theorem adoptSlots_keeps (p ti : Nat) (h : Keeps s0 s) : Keeps s0 (adoptSlots s p ti) :=
  .foldl _ _ _ (fun _ _ h => .foldl _ _ _ (fun _ _ h => .ite (.set h) h) h) h

theorem importTask_keeps (v p : Nat) (b x : List Byte) (h : Keeps s0 s) (e : importTask s v p b x = some t) : Keeps s0 t := by
  -- The kernel would evaluate the match on the headers that are read: the definition is written out and the read generalised before anything is reduced.
  have hr : ∀ c, Keeps s0 (readHeaders s p c).1 := fun c => readHeaders_keeps p c h
  obtain ⟨f, hf⟩ : ∃ f, f = importTask := ⟨_, rfl⟩
  rw [← hf] at e
  delta importTask at hf
  rw [hf] at e
  dsimp -zeta only at e
  obtain ⟨g, hg⟩ : ∃ g, g = readHeaders s p := ⟨_, rfl⟩
  rw [← hg] at e hr
  dsimp only at e
  split at e
  · cases e
  · rename_i e1
    cases e
    exact (hr _).of_fst e1
  · rename_i e1
    have h1 := (hr _).of_fst e1
    cases e
    exact adoptSlots_keeps _ _ (setTask_keeps _ _ (.ite (.set h1) h1))

theorem importTasks_keeps (v p a x n : Nat) (h : Keeps s0 s) (e : importTasks s v p a x n = some t) : Keeps s0 t := by
  induction n generalizing t with
  | zero =>
    cases e
    exact h
  | succ n ih =>
    unfold importTasks at e
    split at e
    · cases e
    · rename_i e1
      exact importTask_keeps _ _ _ _ (ih e1) e

theorem importRing_keeps (v a : Nat) (h : Keeps s0 s) : Keeps s0 (importRing s v a) := .foldl _ _ _ (fun _ _ h => bar2PutBytes_keeps _ _ h) h

theorem execMigrationImport_keeps (h : Keeps s0 s) : OutKeeps s0 (execMigrationImport s) := by
  refine .next (onMig_keeps _ (fun s v p h => ?_) h)
  dsimp only
  split
  · exact again_keeps _ h
  split
  · exact migRefuse_keeps _ h
  split
  · exact again_keeps _ h
  · rename_i e
    exact importRing_keeps _ _ (importTasks_keeps _ _ _ _ _
      (setPartDyn_keeps _ _ (.foldl _ _ _ (fun _ _ h => pfPutBytes_keeps _ _ h)
        (pfPutBytes_keeps _ _ (bar0Set_keeps _ _ _ _ (bar0Set_keeps _ _ _ _ (bar0Set_keeps _ _ _ _ (bar0Set_keeps _ _ _ _ h))))))) e)

theorem execMigrationResume_keeps (h : Keeps s0 s) : OutKeeps s0 (execMigrationResume s) :=
  .next (onMig_keeps _ (fun _ _ _ h => .ite (setPartDyn_keeps _ _ h) (migRefuse_keeps _ h)) h)

end Sys2Proof.Machine

end

/-! # `Keeps` under Machine/Platform.lean: the platform -/

section

namespace Sys2Proof.Machine

open Sys2Proof

variable {s0 s t : State}

theorem verifyImages_keeps (h : Keeps s0 s) : Keeps s0 (verifyImages s) := by
  unfold verifyImages
  refine .foldl _ _ _ (fun s x h => ?_) h
  dsimp only
  split
  · exact .set h
  · exact .ite (pfOr_keeps _ _ _ (.set h)) (.set h)

theorem execPowerGood_keeps (h : Keeps s0 s) : OutKeeps s0 (execPowerGood s) := .next (.ite h (.set (drawDevice_keeps h)))

theorem unitStep_keeps (i : Nat) (h : Keeps s0 s) : Keeps s0 (unitStep s i) := .ite (.set h) (.ite (.set h) (.ite (.set h) h))

theorem execUnitReady_keeps (h : Keeps s0 s) : OutKeeps s0 (execUnitReady s) := by
  refine .next ?_
  dsimp only
  split
  · exact .ite h (.ite (.set (.ite (verifyImages_keeps h) h)) (.set (drawDevice_keeps (pfOr_keeps _ _ _ (unitStep_keeps _ (.ite (verifyImages_keeps h) h))))))
  · exact h

theorem execConfigRequest_keeps (h : Keeps s0 s) : OutKeeps s0 (execConfigRequest s) := by
  refine .next ?_
  split
  · exact send_keeps _ h
  · exact h

theorem execVfEnable_keeps (h : Keeps s0 s) : OutKeeps s0 (execVfEnable s) := by
  refine .next ?_
  dsimp only
  split
  · split
    · exact .ite h (.setDraw h)
    · exact .ite (.set h) h
  · exact h

theorem commitKind_keeps (k : Nat) (h : Keeps s0 s) : Keeps s0 (commitKind s k) := by
  unfold commitKind
  dsimp only
  split
  · exact .set h
  · exact pfOr_keeps _ _ _ h

theorem execSvncommitWrite_keeps (h : Keeps s0 s) : OutKeeps s0 (execSvncommitWrite s) := by
  refine .next ?_
  split
  · exact .foldl _ _ _ (fun _ _ h => .ite (commitKind_keeps _ h) h) h
  · exact h

theorem spdmReply_keeps (f : List Byte → List Byte) (h : Keeps s0 s) : Keeps s0 (spdmReply s f) := by
  unfold spdmReply
  split
  · exact .ite (send_keeps _ h) h
  · exact h

theorem execGetVersion_keeps (h : Keeps s0 s) : OutKeeps s0 (execGetVersion s) := .next (spdmReply_keeps _ h)

theorem execGetCapabilities_keeps (h : Keeps s0 s) : OutKeeps s0 (execGetCapabilities s) := .next (spdmReply_keeps _ h)

theorem execNegotiateAlgorithms_keeps (h : Keeps s0 s) : OutKeeps s0 (execNegotiateAlgorithms s) := .next (spdmReply_keeps _ h)

theorem execGetDigests_keeps (h : Keeps s0 s) : OutKeeps s0 (execGetDigests s) := .next (spdmReply_keeps _ h)

theorem execGetCertificate_keeps (h : Keeps s0 s) : OutKeeps s0 (execGetCertificate s) := .next (spdmReply_keeps _ h)

theorem execChallenge_keeps (h : Keeps s0 s) : OutKeeps s0 (execChallenge s) := .next (spdmReply_keeps _ h)

theorem execGetMeasurements_keeps (h : Keeps s0 s) : OutKeeps s0 (execGetMeasurements s) := .next (spdmReply_keeps _ h)

theorem unsupported_keeps (h : Keeps s0 s) : Keeps s0 (unsupported s) := by
  unfold unsupported
  split
  · exact .ite (send_keeps _ h) h
  · exact h

theorem execKeyExchange_keeps (h : Keeps s0 s) : OutKeeps s0 (execKeyExchange s) := .next (unsupported_keeps h)

theorem execPskExchange_keeps (h : Keeps s0 s) : OutKeeps s0 (execPskExchange s) := .next (unsupported_keeps h)

theorem execCpHeartbeat_keeps (h : Keeps s0 s) : OutKeeps s0 (execCpHeartbeat s) := by
  refine .next ?_
  dsimp only
  split
  · exact .set h
  · exact h

theorem execWatchdogExpiry_keeps (h : Keeps s0 s) : OutKeeps s0 (execWatchdogExpiry s) := by
  refine .next ?_
  dsimp only
  split
  · exact .ite h (raiseMsix_keeps _ _ (.set (pfSet_keeps _ _ _ h)))
  · exact h

theorem execTemperatureWarn_keeps (h : Keeps s0 s) : OutKeeps s0 (execTemperatureWarn s) := by
  refine .next ?_
  dsimp only
  split
  · exact .ite (raiseMsix_keeps _ _ (.set h)) h
  · exact h

theorem execDieTrip_keeps (h : Keeps s0 s) : OutKeeps s0 (execDieTrip s) := by
  refine .next ?_
  dsimp only
  split
  · exact .ite h (trapPasses_keeps _ _ _ (strikeDie_keeps _ _ (.set h)))
  · exact h

theorem clearTrips_keeps (h : Keeps s0 s) : Keeps s0 (clearTrips s) := .set h

theorem execTripclrWrite_keeps (h : Keeps s0 s) : OutKeeps s0 (execTripclrWrite s) := by
  refine .next ?_
  dsimp only
  split
  · exact clearTrips_keeps (.set h)
  · exact h

theorem settleMonitors_keeps (h : Keeps s0 s) : Keeps s0 (settleMonitors s) := clearTrips_keeps (.set h)

theorem execTempThresholdWrite_keeps (h : Keeps s0 s) : OutKeeps s0 (execTempThresholdWrite s) := by
  refine .next ?_
  dsimp only
  split
  · exact .ite (.ite (settleMonitors_keeps (pfSet_keeps _ _ _ h)) h) (.ite (settleMonitors_keeps (pfSet_keeps _ _ _ h)) h)
  · exact h

theorem senseMonitor_keeps (i : Nat) (v : BitVec 32) (h : Keeps s0 s) : Keeps s0 (senseMonitor s i v) :=
  settleMonitors_keeps (.set (pfSet_keeps _ _ _ h))

end Sys2Proof.Machine

end

/-! # `Keeps` under Machine/Cycle.lean: inputs and the cycle -/

section

namespace Sys2Proof.Machine

open Sys2Proof

variable {s0 s t : State}

theorem takeWord_keeps (w : Pending) (rest : List Pending) (h : Keeps s0 s) : Keeps s0 (takeWord s w rest) := .set h

theorem takeEvent_keeps (e : Event) (rest : List Event) (h : Keeps s0 s) : Keeps s0 (takeEvent s e rest) := .set h

theorem undecoded_keeps (h : Keeps s0 s) : OutKeeps s0 (undecoded s) := by
  unfold undecoded
  split
  · exact .next (trapHere_keeps _ _ h)
  · intro t e
    cases e

theorem denyOp_keeps (cid id : Nat) (h : Keeps s0 s) : Keeps s0 (denyOp s cid id) := by
  unfold denyOp
  split
  · exact h
  split
  · exact .ite (failCmd_keeps _ _ _ _ _ _ h) h
  · exact .ite (faultTrap_keeps _ _ _ _ h) h

theorem denyStream_keeps (cid z : Nat) (h : Keeps s0 s) : Keeps s0 (denyStream s cid z) := by
  unfold denyStream
  dsimp only
  split
  · exact stopStream_keeps _ _ _ h
  split
  · exact .ite (modCore_keeps _ _ h) h
  · exact h

theorem denyPage_keeps (p v : Nat) (st on : Bool) (h : Keeps s0 s) : Keeps s0 (denyPage s p v st on) := .set h

theorem takeInput_keeps (i : Input) (h : Keeps s0 s) : Keeps s0 (takeInput s i) := by
  unfold takeInput
  split
  · exact .ite (.set h) (.ite (again_keeps _ h) h)
  · split
    · exact .set h
    · exact h
  · exact send_keeps _ h
  · exact putBytes_keeps _ _ h
  · exact takeAck_keeps _ _ h
  · exact senseMonitor_keeps _ _ h
  · exact denyOp_keeps _ _ h
  · exact denyStream_keeps _ _ h
  · exact denyPage_keeps _ _ _ _ h
  · exact setMsixMask_keeps _ _ _ h

theorem dropInput_keeps (e : Event) (h : Keeps s0 s) : Keeps s0 (dropInput s e) := by
  unfold dropInput
  split
  · exact .set h
  · exact h

theorem requestEvents_keeps (h : Keeps s0 s) : Keeps s0 (requestEvents s).2 := by
  unfold requestEvents
  split
  · exact h
  split
  · exact h
  split
  · exact h
  split
  · exact h
  split
  · exact dropInput_keeps _ h
  · split <;> exact h

theorem plan_keeps (h : Keeps s0 s) : Keeps s0 (plan s) := .set (requestEvents_keeps h)

theorem retryWaiting_keeps (h : Keeps s0 s) : Keeps s0 (retryWaiting s) :=
  .ite h (.foldl _ _ _ (fun _ _ h => .foldl _ _ _ (fun _ _ h => .ite (askPages_keeps _ _ _ h) h) h) (retryAll_keeps h))

theorem tickTime_keeps (h : Keeps s0 s) : Keeps s0 (tickTime s) := .ite h (.set h)

theorem endUnit_keeps (q : Nat) (h : Keeps s0 s) : Keeps s0 (endUnit s q) := by
  have settled := noteBoundary_keeps q (noteArrivals_keeps q (postServices_keeps q h))
  unfold endUnit
  dsimp only
  split
  · exact h
  split
  · refine modSeq_keeps _ _ ?_
    split
    · exact .ite (beginDrain_keeps _ settled) settled
    · exact settled
  split
  · exact .ite (beginDrain_keeps _ settled) settled
  · exact settled

theorem endReckoner_keeps (h : Keeps s0 s) : Keeps s0 (endReckoner s) :=
  .set (.foldl _ _ _ (fun _ _ h => noteMigStop_keeps _ h) (noteSaved_keeps (.ite h (.foldl _ _ _ (fun _ _ h => .ite h (askPreempt_keeps _ h)) h))))

/-- What `Keeps` says of a step in which the clock may advance. -/
structure Holds (s t : State) : Prop where
  canonical : MemoryCanonical s → MemoryCanonical t
  out : s.out <+: t.out
  freeCtr : s.freeCtr ≤ t.freeCtr

theorem Holds.of_keeps (h : Keeps s t) : Holds s t := ⟨h.canonical, h.out, h.freeCtr⟩

theorem Holds.trans {u : State} (h : Holds s t) (g : Holds t u) : Holds s u :=
  ⟨g.canonical ∘ h.canonical, h.out.trans g.out, Nat.le_trans h.freeCtr g.freeCtr⟩

theorem holds_setCycle (s : State) (n : Nat) : Holds s { s with cycle := n } := ⟨id, (Keeps.refl s).out, Nat.le_refl _⟩

theorem nextCycle_holds (s : State) : Holds s (nextCycle s) := by
  have settled : Keeps s (retryWaiting (endReckoner ((List.range 48).foldl endUnit s))) :=
    retryWaiting_keeps (endReckoner_keeps (.foldl _ _ _ (fun _ q h => endUnit_keeps q h) (.refl s)))
  unfold nextCycle
  generalize retryWaiting (endReckoner ((List.range 48).foldl endUnit s)) = s1 at settled
  have saved : Keeps { s1 with cycle := s1.cycle + 1 } ((List.range 48).foldl saveStep { s1 with cycle := s1.cycle + 1 }) :=
    .foldl _ _ _ (fun _ q h => saveStep_keeps q h) (.refl _)
  exact (Holds.of_keeps settled).trans ((holds_setCycle s1 _).trans (.of_keeps (plan_keeps (tickTime_keeps (.ite (.set saved) saved)))))

theorem onward_holds (s : State) : Holds s (onward s) := by
  unfold onward
  split
  · exact .of_keeps (takeInput_keeps _ (.set (.refl s)))
  · exact nextCycle_holds s

end Sys2Proof.Machine

end

/-! # Every step keeps memory canonical (O44) -/

section

namespace Sys2Proof.Machine

open Sys2Proof

variable {s t : State}

/-- The slot forms and microwords by their lemmas under Laws/, the device events by the sections above. -/
theorem exec_keeps (i : Instr) (s : State) : OutKeeps s (exec i s) :=
  match i with
  | .nop => fun _ => execNop_keeps
  | .add f => fun _ => execAdd_keeps f
  | .sub f => fun _ => execSub_keeps f
  | .and f => fun _ => execAnd_keeps f
  | .or f => fun _ => execOr_keeps f
  | .xor f => fun _ => execXor_keeps f
  | .andn f => fun _ => execAndn_keeps f
  | .shl f => fun _ => execShl_keeps f
  | .shr f => fun _ => execShr_keeps f
  | .sar f => fun _ => execSar_keeps f
  | .rol f => fun _ => execRol_keeps f
  | .min f => fun _ => execMin_keeps f
  | .max f => fun _ => execMax_keeps f
  | .minu f => fun _ => execMinu_keeps f
  | .maxu f => fun _ => execMaxu_keeps f
  | .mul f => fun _ => execMul_keeps f
  | .mulh f => fun _ => execMulh_keeps f
  | .mulhu f => fun _ => execMulhu_keeps f
  | .div f => fun _ => execDiv_keeps f
  | .divu f => fun _ => execDivu_keeps f
  | .rem f => fun _ => execRem_keeps f
  | .remu f => fun _ => execRemu_keeps f
  | .sel f => fun _ => execSel_keeps f
  | .bfx f => fun _ => execBfx_keeps f
  | .bfxu f => fun _ => execBfxu_keeps f
  | .bfi f => fun _ => execBfi_keeps f
  | .clz f => fun _ => execClz_keeps f
  | .ctz f => fun _ => execCtz_keeps f
  | .popc f => fun _ => execPopc_keeps f
  | .brev f => fun _ => execBrev_keeps f
  | .cmpeq f => fun _ => execCmpeq_keeps f
  | .cmpne f => fun _ => execCmpne_keeps f
  | .cmplt f => fun _ => execCmplt_keeps f
  | .cmple f => fun _ => execCmple_keeps f
  | .cmpltu f => fun _ => execCmpltu_keeps f
  | .cmpleu f => fun _ => execCmpleu_keeps f
  | .cmpeqi f => fun _ => execCmpeqi_keeps f
  | .cmpnei f => fun _ => execCmpnei_keeps f
  | .cmplti f => fun _ => execCmplti_keeps f
  | .cmplei f => fun _ => execCmplei_keeps f
  | .cmpltui f => fun _ => execCmpltui_keeps f
  | .cmpleui f => fun _ => execCmpleui_keeps f
  | .pand f => fun _ => execPand_keeps f
  | .por f => fun _ => execPor_keeps f
  | .pxor f => fun _ => execPxor_keeps f
  | .addi f => fun _ => execAddi_keeps f
  | .subi f => fun _ => execSubi_keeps f
  | .andi f => fun _ => execAndi_keeps f
  | .ori f => fun _ => execOri_keeps f
  | .xori f => fun _ => execXori_keeps f
  | .shli f => fun _ => execShli_keeps f
  | .shri f => fun _ => execShri_keeps f
  | .sari f => fun _ => execSari_keeps f
  | .mini f => fun _ => execMini_keeps f
  | .maxi f => fun _ => execMaxi_keeps f
  | .muli f => fun _ => execMuli_keeps f
  | .movi f => fun _ => execMovi_keeps f
  | .movk f => fun _ => execMovk_keeps f
  | .mfs f => fun _ => execMfs_keeps f
  | .mts f => fun _ => execMts_keeps f
  | .widf f => fun _ => execWidf_keeps f
  | .br imm => fun _ => execBr_keeps imm
  | .brany f => fun _ => execBrany_keeps f
  | .brall f => fun _ => execBrall_keeps f
  | .brgz f => fun _ => execBrgz_keeps f
  | .brgnz f => fun _ => execBrgnz_keeps f
  | .call f => fun _ => execCall_keeps f
  | .ret g => fun _ => execRet_keeps g
  | .loop f => fun _ => execLoop_keeps f
  | .loopi f => fun _ => execLoopi_keeps f
  | .lbrk t => fun _ => execLbrk_keeps t
  | .lidx f => fun _ => execLidx_keeps f
  | .wait f => fun _ => execWait_keeps f
  | .schsel => fun _ => execSchsel_keeps
  | .endK => fun _ => execEndK_keeps
  | .trap f => fun _ => execTrap_keeps f
  | .brk g => fun _ => execBrk_keeps g
  | .svc f => fun _ => execSvc_keeps f
  | .savem f => fun _ => execSavem_keeps f
  | .slack f => fun _ => execSlack_keeps f
  | .vadd f => fun _ => execVadd_keeps f
  | .vsub f => fun _ => execVsub_keeps f
  | .vmul f => fun _ => execVmul_keeps f
  | .vfma f => fun _ => execVfma_keeps f
  | .vfnma f => fun _ => execVfnma_keeps f
  | .vmin f => fun _ => execVmin_keeps f
  | .vmax f => fun _ => execVmax_keeps f
  | .vabs f => fun _ => execVabs_keeps f
  | .vneg f => fun _ => execVneg_keeps f
  | .vcmpeq f => fun _ => execVcmpeq_keeps f
  | .vcmpne f => fun _ => execVcmpne_keeps f
  | .vcmplt f => fun _ => execVcmplt_keeps f
  | .vcmple f => fun _ => execVcmple_keeps f
  | .vsel f => fun _ => execVsel_keeps f
  | .vmov f => fun _ => execVmov_keeps f
  | .vlogic f => fun _ => execVlogic_keeps f
  | .vshl f => fun _ => execVshl_keeps f
  | .vshr f => fun _ => execVshr_keeps f
  | .vsar f => fun _ => execVsar_keeps f
  | .vcvt f => fun _ => execVcvt_keeps f
  | .vcvtn f => fun _ => execVcvtn_keeps f
  | .vcvtw f => fun _ => execVcvtw_keeps f
  | .vpack f => fun _ => execVpack_keeps f
  | .vunpkl f => fun _ => execVunpkl_keeps f
  | .vunpkh f => fun _ => execVunpkh_keeps f
  | .vbcst f => fun _ => execVbcst_keeps f
  | .vext f => fun _ => execVext_keeps f
  | .vins f => fun _ => execVins_keeps f
  | .vperm f => fun _ => execVperm_keeps f
  | .vxcopy f => fun _ => execVxcopy_keeps f
  | .vred f => fun _ => execVred_keeps f
  | .vxred f => fun _ => execVxred_keeps f
  | .vscan f => fun _ => execVscan_keeps f
  | .vhist f => fun _ => execVhist_keeps f
  | .vbmrg f => fun _ => execVbmrg_keeps f
  | .vbcx f => fun _ => execVbcx_keeps f
  | .vbcxx f => fun _ => execVbcxx_keeps f
  | .vargmax f => fun _ => execVargmax_keeps f
  | .vclamp f => fun _ => execVclamp_keeps f
  | .jseed f => fun _ => execJseed_keeps f
  | .jconst f => fun _ => execJconst_keeps f
  | .jget f => fun _ => execJget_keeps f
  | .jput f => fun _ => execJput_keeps f
  | .jder f => fun _ => execJder_keeps f
  | .jshift f => fun _ => execJshift_keeps f
  | .jscale f => fun _ => execJscale_keeps f
  | .jdiv f => fun _ => execJdiv_keeps f
  | .jpowi f => fun _ => execJpowi_keeps f
  | .jflagClear a => fun _ => execJflagClear_keeps a
  | .jflagGet d => fun _ => execJflagGet_keeps d
  | .fnop => fun _ => execFnop_keeps
  | .rcp f => fun _ => execRcp_keeps f
  | .rsq f => fun _ => execRsq_keeps f
  | .sqrt f => fun _ => execSqrt_keeps f
  | .exp2 f => fun _ => execExp2_keeps f
  | .log2 f => fun _ => execLog2_keeps f
  | .exp f => fun _ => execExp_keeps f
  | .log f => fun _ => execLog_keeps f
  | .sin f => fun _ => execSin_keeps f
  | .cos f => fun _ => execCos_keeps f
  | .tanh f => fun _ => execTanh_keeps f
  | .sigm f => fun _ => execSigm_keeps f
  | .rcpstep f => fun _ => execRcpstep_keeps f
  | .rsqstep f => fun _ => execRsqstep_keeps f
  | .jsincos f => fun _ => execJsincos_keeps f
  | .mnop => fun _ => execMnop_keeps
  | .ld8u f => fun _ => execLd8u_keeps f
  | .ld16u f => fun _ => execLd16u_keeps f
  | .ld32u f => fun _ => execLd32u_keeps f
  | .ld64 f => fun _ => execLd64_keeps f
  | .ld8s f => fun _ => execLd8s_keeps f
  | .ld16s f => fun _ => execLd16s_keeps f
  | .ld32s f => fun _ => execLd32s_keeps f
  | .st8 f => fun _ => execSt8_keeps f
  | .st16 f => fun _ => execSt16_keeps f
  | .st32 f => fun _ => execSt32_keeps f
  | .st64 f => fun _ => execSt64_keeps f
  | .vld f => fun _ => execVld_keeps f
  | .vst f => fun _ => execVst_keeps f
  | .vgath f => fun _ => execVgath_keeps f
  | .vscat f => fun _ => execVscat_keeps f
  | .prf f => fun _ => execPrf_keeps f
  | .sbind f => fun _ => execSbind_keeps f
  | .sunbind z => fun _ => execSunbind_keeps z
  | .spos f => fun _ => execSpos_keeps f
  | .copy f => fun _ => execCopy_keeps f
  | .copyp f => fun _ => execCopyp_keeps f
  | .fill f => fun _ => execFill_keeps f
  | .cflush f => fun _ => execCflush_keeps f
  | .cinv f => fun _ => execCinv_keeps f
  | .cclean f => fun _ => execCclean_keeps f
  | .migr f => fun _ => execMigr_keeps f
  | .fenceX f => fun _ => execFenceX_keeps f
  | .fenceOwn f => fun _ => execFenceOwn_keeps f
  | .fenceFar f => fun _ => execFenceFar_keeps f
  | .drain f => fun _ => execDrain_keeps f
  | .ldacq f => fun _ => execLdacq_keeps f
  | .strel f => fun _ => execStrel_keeps f
  | .redaddI32 f => fun _ => execRedaddI32_keeps f
  | .redaddq f => fun _ => execRedaddq_keeps f
  | .redminI32 f => fun _ => execRedminI32_keeps f
  | .redmaxI32 f => fun _ => execRedmaxI32_keeps f
  | .redand f => fun _ => execRedand_keeps f
  | .redor f => fun _ => execRedor_keeps f
  | .redxor f => fun _ => execRedxor_keeps f
  | .redaddF32 f => fun _ => execRedaddF32_keeps f
  | .atomadd f => fun _ => execAtomadd_keeps f
  | .atomswp f => fun _ => execAtomswp_keeps f
  | .atomcas f => fun _ => execAtomcas_keeps f
  | .sync f => fun _ => execSync_keeps f
  | .barcfg f => fun _ => execBarcfg_keeps f
  | .sstep => fun _ => execSstep_keeps
  | .taintrdScalar f => fun _ => execTaintrdScalar_keeps f
  | .taintrdVector f => fun _ => execTaintrdVector_keeps f
  | .taintclrScalar f => fun _ => execTaintclrScalar_keeps f
  | .taintclrVector f => fun _ => execTaintclrVector_keeps f
  | .mcall f => fun _ => execMcall_keeps f
  | .mlat f => fun _ => execMlat_keeps f
  | .msetp f => fun _ => execMsetp_keeps f
  | .mparm f => fun _ => execMparm_keeps f
  | .accz f => fun _ => execAccz_keeps f
  | .accrd f => fun _ => execAccrd_keeps f
  | .accwr f => fun _ => execAccwr_keeps f
  | .norm f => fun _ => execNorm_keeps f
  | .nsend f => fun _ => execNsend_keeps f
  | .nrecv f => fun _ => execNrecv_keeps f
  | .ncoll f => fun _ => execNcoll_keeps f
  | .selacc f => fun _ => execSelacc_keeps f
  | .draw f => fun _ => execDraw_keeps f
  | .kvalloc f => fun _ => execKvalloc_keeps f
  | .kvfree f => fun _ => execKvfree_keeps f
  | .kvcount f => fun _ => execKvcount_keeps f
  | .tithe f => fun _ => execTithe_keeps f
  | .tmap f => fun _ => execTmap_keeps f
  | .tclrd f => fun _ => execTclrd_keeps f
  | .launch f => fun _ => execLaunch_keeps f
  | .release f => fun _ => execRelease_keeps f
  | .uend => fun _ => execUend_keeps
  | .ukstep f => fun _ => execUkstep_keeps f
  | .uaddi f => fun _ => execUaddi_keeps f
  | .uadd f => fun _ => execUadd_keeps f
  | .uloop f => fun _ => execUloop_keeps f
  | .unorm f => fun _ => execUnorm_keeps f
  | .uzero f => fun _ => execUzero_keeps f
  | .umovi f => fun _ => execUmovi_keeps f
  | .submit => execSubmit_keeps (.refl s)
  | .releaseCommand => execReleaseCommand_keeps (.refl s)
  | .nopCommand => execNopCommand_keeps (.refl s)
  | .qcfgWrite => execQcfgWrite_keeps (.refl s)
  | .qtailWrite => execQtailWrite_keeps (.refl s)
  | .ringEntryRead => execRingEntryRead_keeps (.refl s)
  | .firmwareRingEntry => execFirmwareRingEntry_keeps (.refl s)
  | .packetMatch => execPacketMatch_keeps (.refl s)
  | .networkRelease => execNetworkRelease_keeps (.refl s)
  | .taskReleaseTime => execTaskReleaseTime_keeps (.refl s)
  | .passDispatch => execPassDispatch_keeps (.refl s)
  | .dictionaryCopy => execDictionaryCopy_keeps (.refl s)
  | .preemptRequestArrive => execPreemptRequestArrive_keeps (.refl s)
  | .deadlineExpiry => execDeadlineExpiry_keeps (.refl s)
  | .budgetOverrun => execBudgetOverrun_keeps (.refl s)
  | .mirrorMarginExpiry => execMirrorMarginExpiry_keeps (.refl s)
  | .chunkSend => execChunkSend_keeps (.refl s)
  | .tretireWrite => execTretireWrite_keeps (.refl s)
  | .tadjWrite => execTadjWrite_keeps (.refl s)
  | .tsetWrite => execTsetWrite_keeps (.refl s)
  | .dlctlWrite => execDlctlWrite_keeps (.refl s)
  | .taskRangeWrite => execTaskRangeWrite_keeps (.refl s)
  | .rownWrite => execRownWrite_keeps (.refl s)
  | .cplaceWrite => execCplaceWrite_keeps (.refl s)
  | .l2srWrite => execL2srWrite_keeps (.refl s)
  | .l2srChangeDone => execL2srChangeDone_keeps (.refl s)
  | .cgplaceWrite => execCgplaceWrite_keeps (.refl s)
  | .registerWrite => execRegisterWrite_keeps (.refl s)
  | .bundleIssue => execBundleIssue_keeps (.refl s)
  | .stallEnd => execStallEnd_keeps (.refl s)
  | .fetchLineArrive => execFetchLineArrive_keeps (.refl s)
  | .kernelEndRetire => execKernelEndRetire_keeps (.refl s)
  | .completionSignalWrite => execCompletionSignalWrite_keeps (.refl s)
  | .cqcfgWrite => execCqcfgWrite_keeps (.refl s)
  | .cqCoalesceTimer => execCqCoalesceTimer_keeps (.refl s)
  | .heldOpEnter => execHeldOpEnter_keeps (.refl s)
  | .loadComplete => execLoadComplete_keeps (.refl s)
  | .storePerform => execStorePerform_keeps (.refl s)
  | .lineMerge => execLineMerge_keeps (.refl s)
  | .atomicComplete => execAtomicComplete_keeps (.refl s)
  | .migrComplete => execMigrComplete_keeps (.refl s)
  | .streamDescriptorArrive => execStreamDescriptorArrive_keeps (.refl s)
  | .streamElementArrive => execStreamElementArrive_keeps (.refl s)
  | .streamElementStore => execStreamElementStore_keeps (.refl s)
  | .copyCommandComplete => execCopyCommandComplete_keeps (.refl s)
  | .engineOpComplete => execEngineOpComplete_keeps (.refl s)
  | .enCommandComplete => execEnCommandComplete_keeps (.refl s)
  | .nsendComplete => execNsendComplete_keeps (.refl s)
  | .messageDelivery => execMessageDelivery_keeps (.refl s)
  | .ncollContribution => execNcollContribution_keeps (.refl s)
  | .ncollComplete => execNcollComplete_keeps (.refl s)
  | .connectionAbandon => execConnectionAbandon_keeps (.refl s)
  | .mtlbWalk => execMtlbWalk_keeps (.refl s)
  | .pagePullComplete => execPagePullComplete_keeps (.refl s)
  | .pagePullFail => execPagePullFail_keeps (.refl s)
  | .atsTranslationCompletion => execAtsTranslationCompletion_keeps (.refl s)
  | .prgResponse => execPrgResponse_keeps (.refl s)
  | .atsInvalidationRequest => execAtsInvalidationRequest_keeps (.refl s)
  | .atsInvalidationCompletion => execAtsInvalidationCompletion_keeps (.refl s)
  | .peerRequest => execPeerRequest_keeps (.refl s)
  | .shootdown => execShootdown_keeps (.refl s)
  | .shootdownAck => execShootdownAck_keeps (.refl s)
  | .shootdownFenceTimeout => execShootdownFenceTimeout_keeps (.refl s)
  | .pfenceWrite => execPfenceWrite_keeps (.refl s)
  | .frameAssign => execFrameAssign_keeps (.refl s)
  | .frameRelease => execFrameRelease_keeps (.refl s)
  | .frameScrub => execFrameScrub_keeps (.refl s)
  | .frameQuery => execFrameQuery_keeps (.refl s)
  | .scrubComplete => execScrubComplete_keeps (.refl s)
  | .fmwctlWrite => execFmwctlWrite_keeps (.refl s)
  | .fmwDiscardDone => execFmwDiscardDone_keeps (.refl s)
  | .serialiseReceive => execSerialiseReceive_keeps (.refl s)
  | .fenceFarDone => execFenceFarDone_keeps (.refl s)
  | .barrierRelease => execBarrierRelease_keeps (.refl s)
  | .superstepRelease => execSuperstepRelease_keeps (.refl s)
  | .stopDrainComplete => execStopDrainComplete_keeps (.refl s)
  | .saveComplete => execSaveComplete_keeps (.refl s)
  | .saveDrainTimeout => execSaveDrainTimeout_keeps (.refl s)
  | .restoreComplete => execRestoreComplete_keeps (.refl s)
  | .tractResume => execTractResume_keeps (.refl s)
  | .tractAbort => execTractAbort_keeps (.refl s)
  | .functionLevelReset => execFunctionLevelReset_keeps (.refl s)
  | .errorDetected => execErrorDetected_keeps (.refl s)
  | .dieLost => execDieLost_keeps (.refl s)
  | .migrationRound => execMigrationRound_keeps (.refl s)
  | .migrationStop => execMigrationStop_keeps (.refl s)
  | .migrationExport => execMigrationExport_keeps (.refl s)
  | .migrationImport => execMigrationImport_keeps (.refl s)
  | .migrationResume => execMigrationResume_keeps (.refl s)
  | .svcbaseWrite => execSvcbaseWrite_keeps (.refl s)
  | .kvpctlWrite => execKvpctlWrite_keeps (.refl s)
  | .powerGood => execPowerGood_keeps (.refl s)
  | .unitReady => execUnitReady_keeps (.refl s)
  | .configRequest => execConfigRequest_keeps (.refl s)
  | .vfEnable => execVfEnable_keeps (.refl s)
  | .svncommitWrite => execSvncommitWrite_keeps (.refl s)
  | .getVersion => execGetVersion_keeps (.refl s)
  | .getCapabilities => execGetCapabilities_keeps (.refl s)
  | .negotiateAlgorithms => execNegotiateAlgorithms_keeps (.refl s)
  | .getDigests => execGetDigests_keeps (.refl s)
  | .getCertificate => execGetCertificate_keeps (.refl s)
  | .challenge => execChallenge_keeps (.refl s)
  | .getMeasurements => execGetMeasurements_keeps (.refl s)
  | .keyExchange => execKeyExchange_keeps (.refl s)
  | .pskExchange => execPskExchange_keeps (.refl s)
  | .cpHeartbeat => execCpHeartbeat_keeps (.refl s)
  | .watchdogExpiry => execWatchdogExpiry_keeps (.refl s)
  | .temperatureWarn => execTemperatureWarn_keeps (.refl s)
  | .dieTrip => execDieTrip_keeps (.refl s)
  | .tripclrWrite => execTripclrWrite_keeps (.refl s)
  | .tempThresholdWrite => execTempThresholdWrite_keeps (.refl s)
  | .peerShootdownReceive => execPeerShootdownReceive_keeps (.refl s)
  | .functionLevelResetEnd => execFunctionLevelResetEnd_keeps (.refl s)

theorem step_holds (e : StepsTo s t) : Holds s t := by
  unfold StepsTo step at e
  split at e
  · rename_i w rest _
    have h := takeWord_keeps w rest (.refl s)
    split at e
    · exact .of_keeps (h.trans (exec_keeps _ _ _ e))
    · exact .of_keeps (undecoded_keeps h _ e)
  · split at e
    · rename_i v rest _
      have h := takeEvent_keeps v rest (.refl s)
      exact .of_keeps (h.trans (exec_keeps _ _ _ e))
    · cases e
      exact onward_holds s

/-- Settles O44: every instruction and every device event keeps (`exec_keeps`), by the lemmas about the operations that they are put together from; the clock
advances in `onward` alone. -/
theorem everyStepKeepsMemoryCanonical : Obligations.EveryStepKeepsMemoryCanonical := by
  unfold Obligations.EveryStepKeepsMemoryCanonical
  intro s t hs e
  obtain ⟨canonical, out, freeCtr⟩ := step_holds e
  exact ⟨canonical hs, out, freeCtr⟩

end Sys2Proof.Machine

end

/-! # Computing forms change nothing else (O17)

A computing form either leaves the state or puts results in flight on its own bead. Each shared form of the scalar, vector and special-function slots has one lemma that says so; the rows follow from them. -/

section

namespace Sys2Proof.Machine

open Sys2Proof

/-- What a computing form may do: put results in flight on its own bead, and nothing where that bead is parked (02 R19, 07 R119). -/
structure InFlightUnlessParked (s t : State) : Prop where
  frame : Spec.OnlyInFlight s t
  parked : (curCore s).parked = true → t = s

theorem InFlightUnlessParked.refl (s : State) : InFlightUnlessParked s s := ⟨.refl s, fun _ => rfl⟩

theorem InFlightUnlessParked.of_running {s t : State} (h : Spec.OnlyInFlight s t) : InFlightUnlessParked s (if (curCore s).parked = true then s else t) := by
  split
  case isTrue => exact .refl s
  case isFalse hp => exact ⟨h, fun h' => absurd h' hp⟩

theorem InFlightUnlessParked.of_guard {s t : State} (g : Guard) (h : Spec.OnlyInFlight s t) :
    InFlightUnlessParked s (if guardMet (curCore s) g = true then t else s) := by
  split
  case isTrue hg => exact ⟨h, fun hp => by rw [guardMet_parked _ _ hp] at hg; cases hg⟩
  case isFalse => exact .refl s

/-! ## Scalar slots -/

theorem writeN_inFlight (s : State) (g : Guard) (lat : Nat) (dst : Fin 32) (x : TWord) : InFlightUnlessParked s (writeN s g lat dst x) :=
  .of_guard g ((Spec.OnlyInFlight.refl s).emit _ _)

theorem writeP_inFlight (s : State) (g : Guard) (dst : Fin 8) (x : TBit) : InFlightUnlessParked s (writeP s g dst x) :=
  .of_guard g ((Spec.OnlyInFlight.refl s).emit _ _)

/-- SEL has no guard of its own. -/
theorem execSel_inFlight (f : SR) (s : State) : ∃ t, execSel f s = .next t ∧ InFlightUnlessParked s t :=
  ⟨_, rfl, .of_running ((Spec.OnlyInFlight.refl s).emit _ _)⟩

/-- MFS of a bank-loss counter also puts the clearing of that counter in flight (07 R128). -/
theorem execMfs_inFlight (f : SMfs) (s : State) : ∃ t, execMfs f s = .next t ∧ InFlightUnlessParked s t := by
  refine ⟨_, rfl, .of_guard f.g ?_⟩
  have h := (writeN_inFlight s f.g 1 f.dst (readSpecial s f.reg)).frame
  split
  · exact h.emit _ _
  · exact h

/-! ## Vector slots -/

theorem runLanes_inFlight (s : State) (m : Fin 8) (dst : VOp) (lat : Nat) (srcs : List TVec) (f : List Nat → Nat × Flags) :
    InFlightUnlessParked s (runLanes s m dst lat srcs f) :=
  .of_running ((Spec.OnlyInFlight.refl s).emitVec _ _ _ _ _ _)

theorem runCross_inFlight (s : State) (m : Fin 8) (dst : VOp) (lat : Nat) (read : Bool) (f : Nat → Nat × Flags) :
    InFlightUnlessParked s (runCross s m dst lat read f) :=
  .of_running ((Spec.OnlyInFlight.refl s).emitVec _ _ _ _ _ _)

theorem runVCmp_inFlight (op : Fin 4) (f : VCmp) (s : State) : InFlightUnlessParked s (runVCmp op f s) := by
  refine .of_running ?_
  split
  · exact (Spec.OnlyInFlight.refl s).emit _ _
  · exact ((Spec.OnlyInFlight.refl s).emit _ _).emit _ _

theorem runBcx_inFlight (lat : Nat) (f : VBcxF) (s : State) : InFlightUnlessParked s (runBcx lat f s) :=
  .of_running (((Spec.OnlyInFlight.refl s).emitVec _ _ _ _ _ _).emit _ _)

theorem execVargmax_inFlight (f : VArgF) (s : State) : ∃ t, execVargmax f s = .next t ∧ InFlightUnlessParked s t := by
  refine ⟨_, rfl, .of_running ?_⟩
  have h := fun k₁ k₂ => ((Spec.OnlyInFlight.refl s).emit 5 k₁).emit 5 k₂
  dsimp only
  split
  · exact (h _ _).emit _ _
  · exact h _ _

/-! ## Rows with a J bit, without it -/

theorem runVB_inFlight (f : VB) (s : State) (lat jlat : Nat) (prod : Bool) (ff : RMode → Fmt → List Nat → FRes) (fi : Nat → List Nat → Nat)
    (jf : RMode → Nat → List Nat → List Nat → List FRes) (hj : f.j = false) : InFlightUnlessParked s (runVB f s lat jlat prod ff fi jf) := by
  simp only [runVB, hj]
  exact runLanes_inFlight _ _ _ _ _ _

theorem runFma_inFlight (f : VB) (sub : Bool) (s : State) (hj : f.j = false) : InFlightUnlessParked s (runFma f sub s) := by
  simp only [runFma, hj]
  exact runLanes_inFlight _ _ _ _ _ _

theorem runVU_inFlight (f : VU) (s : State) (ff : Fmt → List Nat → FRes) (fi : Nat → List Nat → Nat) (jf : List Nat → List FRes) (hj : f.j = false) :
    InFlightUnlessParked s (runVU f s ff fi jf) := by
  simp only [runVU, hj]
  exact runLanes_inFlight _ _ _ _ _ _

theorem execVsel_inFlight (f : VB) (s : State) (hj : f.j = false) : ∃ t, execVsel f s = .next t ∧ InFlightUnlessParked s t := by
  refine ⟨_, rfl, ?_⟩
  simp only [hj]
  exact .of_running ((Spec.OnlyInFlight.refl s).emitVec _ _ _ _ _ _)

theorem runFn_inFlight (fn : Fn) (l0 : Nat) (f : FForm) (s : State) (hj : f.j = false) : InFlightUnlessParked s (runFn fn l0 f s) := by
  simp only [runFn, hj]
  exact runLanes_inFlight _ _ _ _ _ _

/-! ## The rows -/

/-- Every computing form answers a next state that differs at most in what is in flight on its own bead. -/
theorem exec_computing_inFlight (s : State) (i : Instr) (h : Spec.computes i = true) : ∃ t, exec i s = .next t ∧ InFlightUnlessParked s t := by
  cases i
  case add f | sub f | and f | or f | xor f | andn f | shl f | shr f | sar f | rol f | min f | max f | minu f | maxu f | mul f | mulh f | mulhu f
      | div f | divu f | rem f | remu f | addi f | subi f | andi f | ori f | xori f | shli f | shri f | sari f | mini f | maxi f | muli f | movi f | movk f
      | bfx f | bfxu f | bfi f | clz f | ctz f | popc f | brev f | widf f =>
    exact ⟨_, rfl, writeN_inFlight _ _ _ _ _⟩
  case cmpeq f | cmpne f | cmplt f | cmple f | cmpltu f | cmpleu f | cmpeqi f | cmpnei f | cmplti f | cmplei f | cmpltui f | cmpleui f | pand f | por f | pxor f =>
    exact ⟨_, rfl, writeP_inFlight _ _ _ _⟩
  case sel f => exact execSel_inFlight f s
  case mfs f => exact execMfs_inFlight f s
  case vadd f | vsub f | vmul f | vmin f | vmax f => exact ⟨_, rfl, runVB_inFlight f s _ _ _ _ _ _ (by simpa [Spec.computes] using h)⟩
  case vfma f | vfnma f => exact ⟨_, rfl, runFma_inFlight f _ s (by simpa [Spec.computes] using h)⟩
  case vabs f | vneg f | vmov f => exact ⟨_, rfl, runVU_inFlight f s _ _ _ (by simpa [Spec.computes] using h)⟩
  case vsel f => exact execVsel_inFlight f s (by simpa [Spec.computes] using h)
  case vcmpeq f | vcmpne f | vcmplt f | vcmple f => exact ⟨_, rfl, runVCmp_inFlight _ f s⟩
  case vlogic f | vshl f | vshr f | vsar f | vcvt f | vcvtn f | vcvtw f | vpack f | vunpkl f | vunpkh f | vclamp f | rcpstep f | rsqstep f =>
    exact ⟨_, rfl, runLanes_inFlight _ _ _ _ _ _⟩
  case vbcst f | vperm f | vxcopy f | vred f | vxred f | vscan f => exact ⟨_, rfl, runCross_inFlight _ _ _ _ _ _⟩
  case vext f | vhist f => exact ⟨_, rfl, .of_running ((Spec.OnlyInFlight.refl s).emit _ _)⟩
  case vins f | vbmrg f => exact ⟨_, rfl, .of_running ((Spec.OnlyInFlight.refl s).emitVec _ _ _ _ _ _)⟩
  case vbcx f | vbcxx f => exact ⟨_, rfl, runBcx_inFlight _ f s⟩
  case vargmax f => exact execVargmax_inFlight f s
  case rcp f | rsq f | sqrt f | exp2 f | log2 f | exp f | log f | sin f | cos f | tanh f | sigm f =>
    exact ⟨_, rfl, runFn_inFlight _ _ f s (by simpa [Spec.computes] using h)⟩
  all_goals exact absurd h Bool.false_ne_true

/-- Settles O17: each row is one of the shared forms above, and none of them does more than put results in flight on a bead that is not parked. -/
theorem computingFormsChangeNothingElse : Obligations.ComputingFormsChangeNothingElse := by
  unfold Obligations.ComputingFormsChangeNothingElse
  intro s i hi
  obtain ⟨t, ht, h⟩ := exec_computing_inFlight s i hi
  exact ⟨t, ht, h.frame, h.parked⟩

end Sys2Proof.Machine

end

/-! # Folds over cores and sequencers, and reads where no update-only line stands

An event acts on the cores of a unit one after the other. What each step keeps the fold keeps; what the step of one core establishes stands at the end if every step keeps it. -/

section

namespace Sys2Proof.Machine

open Sys2Proof

/-- What one element of a fold establishes, and every element keeps, holds at its end. -/
theorem foldl_establishes {β : Type} (P : State → Prop) (f : State → β → State) (x : β) (hx : ∀ s, P (f s x)) (hk : ∀ s y, P s → P (f s y))
    (l : List β) (s : State) (h : x ∈ l) : P (l.foldl f s) := by
  induction l generalizing s with
  | nil => cases h
  | cons y r ih =>
    cases h with
    | head => exact foldl_keeps P f r hk _ (hx s)
    | tail _ h => exact ih _ h

/-! ## States that differ in their cores alone -/

/-- Two states differ at most in their cores. -/
def CoresOnly (s t : State) : Prop := ∃ c, t = { s with cores := c }

theorem CoresOnly.refl (s : State) : CoresOnly s s := ⟨s.cores, rfl⟩

theorem CoresOnly.modCore {s t : State} (h : CoresOnly s t) (c : Nat) (f : Core → Core) : CoresOnly s (modCore t c f) := by
  obtain ⟨x, rfl⟩ := h
  exact ⟨_, rfl⟩

theorem CoresOnly.trans {s t u : State} (h : CoresOnly s t) (g : CoresOnly t u) : CoresOnly s u := by
  obtain ⟨x, rfl⟩ := h
  obtain ⟨y, rfl⟩ := g
  exact ⟨y, rfl⟩

theorem CoresOnly.foldl {β : Type} {s t : State} (f : State → β → State) (l : List β) (hf : ∀ t x, CoresOnly s t → CoresOnly s (f t x)) (h : CoresOnly s t) :
    CoresOnly s (l.foldl f t) := foldl_keeps _ f l hf t h

theorem CoresOnly.mem {s t : State} (h : CoresOnly s t) : t.mem = s.mem := by obtain ⟨_, rfl⟩ := h; rfl
theorem CoresOnly.seqOf {s t : State} (h : CoresOnly s t) (q : Nat) : seqOf t q = seqOf s q := by obtain ⟨_, rfl⟩ := h; rfl
theorem CoresOnly.coreOf {s t : State} (h : CoresOnly s t) (q p : Nat) : coreOf t q p = coreOf s q p := by obtain ⟨_, rfl⟩ := h; rfl

/-! ## Reads where no core holds an update-only line (14 R295) -/

theorem mergeLine_of_noLines {s : State} (h : Spec.NoLines s) (line : Nat) : mergeLine s line = s := by
  have hall : (s.cores.all fun e => (Tbl.find? e.2.upd line).isNone) = true :=
    List.all_eq_true.2 fun e he => by rw [h e he]; rfl
  simp [mergeLine, hall]

theorem mergeRange_of_noLines {s : State} (h : Spec.NoLines s) (pa n : Nat) : mergeRange s pa n = s := by
  unfold mergeRange
  split
  · exact foldl_keeps (· = s) _ _ (fun t i ht => by rw [ht]; exact mergeLine_of_noLines h _) s rfl
  · rfl

theorem readPhys_of_noLines {s : State} (h : Spec.NoLines s) (pa n : Nat) : readPhys s pa n = (memVal s pa n, s) := by
  simp [readPhys, mergeRange_of_noLines h]

theorem mergeHeld_of_noLines {s : State} (h : Spec.NoLines s) (pa n : Nat) : mergeHeld s pa n = false := by
  have hany : (s.cores.any fun e => e.2.upd.any fun u => decide (pa / 64 ≤ u.1) && decide (64 * u.1 < pa + n)) = false :=
    List.any_eq_false.2 fun e he => by rw [h e he]; simp
  simp [mergeHeld, hany]

theorem resolvePiece_ok_of_noLines {s s1 : State} {p va n pa : Nat} {store : Bool} (h : resolve s p va store = (s1, .ok pa)) (hn : Spec.NoLines s1) :
    resolvePiece s p va n store = (s1, .ok pa) := by
  simp [resolvePiece, h, mergeHeld_of_noLines hn]

theorem resolvePiece_fail {s s1 : State} {p va n code : Nat} {store : Bool} (h : resolve s p va store = (s1, .fail code)) :
    resolvePiece s p va n store = (s1, .fail code) := by
  simp [resolvePiece, h]

end Sys2Proof.Machine

end

/-! # The sequencer's events (O49) -/

section

namespace Sys2Proof.Machine

open Sys2Proof

/-! ## Fetch (05 R77) -/

theorem fetchLineArrive_ok {s s1 : State} {q : RodUnit} {r : PassRun} {line due pa : Nat} (he : s.ev = .unit q) (hr : (seqOf s q.val).run = some r)
    (hl : (seqOf s q.val).lineDue = some (line, due)) (hd : due ≤ s.cycle) (hx : resolve s r.part (64 * line) false = (s1, .ok pa)) (hn : Spec.NoLines s1) :
    exec .fetchLineArrive s = .next (modSeq s1 q.val fun u =>
      { u with lineDue := none, lines := Tbl.insert (Tbl.erase u.lines line) line (BitVec.ofNat 512 (memVal s1 pa 64)) }) := by
  change execFetchLineArrive s = _
  simp [execFetchLineArrive, he, hr, hl, Nat.not_lt.2 hd, resolvePiece_ok_of_noLines hx hn, readPhys_of_noLines hn]

theorem fetchLineArrive_fail {s s1 : State} {q : RodUnit} {r : PassRun} {line due code : Nat} (he : s.ev = .unit q) (hr : (seqOf s q.val).run = some r)
    (hl : (seqOf s q.val).lineDue = some (line, due)) (hd : due ≤ s.cycle) (hx : resolve s r.part (64 * line) false = (s1, .fail code)) :
    exec .fetchLineArrive s = .next (modSeq s1 q.val fun u => { u with lineDue := none, lineBad := Tbl.insert (Tbl.erase u.lineBad line) line code }) := by
  change execFetchLineArrive s = _
  simp [execFetchLineArrive, he, hr, hl, Nat.not_lt.2 hd, resolvePiece_fail hx]

/-! ## The dictionary copy (01 R11, R12) -/

/-- The dictionary stores of a pass take the bundles and the schedules. -/
def fillDicts (s : State) (q : Nat) (r : PassRun) (bs : List (BitVec 384)) (scheds : List (Nat × Nat × Nat)) : State :=
  (storeUnits q r.w).foldl (fun s i => modSeq s i fun u => { u with dict := some ⟨r.launch, bs, scheds⟩ }) s

/-- The microprogram stores of a pass's beads take the routines. -/
def fillRoutines (s : State) (q : Nat) (r : PassRun) (ws : List (Nat × Nat × Nat × Nat)) (spans : List (Nat × Nat × Nat)) : State :=
  (List.range r.w).foldl (fun s p => modCore s (coreOf s q p) fun c =>
    { c with ulaunch := r.launch,
             ustore := ws.foldl (fun m w => Tbl.set 0 m w.1 (BitVec.ofNat 64 w.2.2.2)) [],
             ulen := spans.zipIdx.map fun e => (e.2, e.1.2.1, e.1.2.2) }) s

/-- What a copy leaves in the stores of its pass. -/
def fillStores (s : State) (q : Nat) (r : PassRun) (bs : List (BitVec 384)) (ws : List (Nat × Nat × Nat × Nat)) (spans : List (Nat × Nat × Nat))
    (scheds : List (Nat × Nat × Nat)) : State :=
  modSeq (fillRoutines (fillDicts s q r bs scheds) q r ws spans) q fun u => { u with copying := none }

/-- What a copy that is due does with what it has read. -/
theorem dictionaryCopy_due {s : State} {q : RodUnit} {r : PassRun} {due : Nat} (he : s.ev = .unit q) (hr : (seqOf s q.val).run = some r)
    (hc : (seqOf s q.val).copying = some due) (hd : due ≤ s.cycle) (hs : (seqOf s q.val).stop = none) :
    exec .dictionaryCopy s = .next (match copyImage s (runTask s q.val) r.part with
      | (s1, .wait) => s1
      | (s1, .trap code detail) => takeTrap s1 q.val 0 0xFFFFFF code detail
      | (s1, .ok bs ws spans scheds) => fillStores s1 q.val r bs ws spans scheds) := by
  change execDictionaryCopy s = _
  simp only [execDictionaryCopy, he, hr, hc, hs, Nat.not_lt.2 hd, Option.isSome_none, Bool.false_eq_true, or_false, if_false]
  rfl

theorem copyImage_dictionaryFault {s s1 : State} {t : Task} {p code : Nat} {l : List Byte}
    (h1 : readImage s p (cmdField t.cmd 16 8 + imgField t.img 12 4) (48 * imgField t.img 8 4) = (s1, .fail code, l)) :
    copyImage s t p = (s1, .trap code 9) := by
  simp only [copyImage, h1, copyRead]

theorem copyImage_bundleBad {s s1 : State} {t : Task} {p pa i : Nat} {l : List Byte}
    (h1 : readImage s p (cmdField t.cmd 16 8 + imgField t.img 12 4) (48 * imgField t.img 8 4) = (s1, .ok pa, l))
    (hb : (bundlesOf l (imgField t.img 8 4)).findIdx? bundleBad = some i) : copyImage s t p = (s1, .trap 0x0302 i) := by
  simp only [copyImage, h1, copyRead, hb]

section

variable {s s1 s2 s3 : State} {t : Task} {p pa1 pa2 pa3 : Nat} {l1 l2 : List Byte} {rows : List (Nat × Nat × Nat)} {ws : List (Nat × Nat × Nat × Nat)}
  (h1 : readImage s p (cmdField t.cmd 16 8 + imgField t.img 12 4) (48 * imgField t.img 8 4) = (s1, .ok pa1, l1))
  (hb : (bundlesOf l1 (imgField t.img 8 4)).findIdx? bundleBad = none)
  (h2 : readTable s1 p (cmdField t.cmd 16 8) (imgField t.img 28 4) (imgField t.img 32 2) 64 = (s2, .ok pa2, l2))
  (hr : rows = routineRows l2 (imgField t.img 32 2)) (hg : routinesBad rows = false)
  (h3 : readRoutines s2 p (cmdField t.cmd 16 8) (routineSpans rows) = (s3, .ok pa3, ws))

include h1 hb h2 hr hg h3

theorem copyImage_microBad {w : Nat × Nat × Nat × Nat} (hw : (ws.find? fun w => microBad w.2.2.1 w.2.1 w.2.2.2) = some w) :
    copyImage s t p = (s3, .trap 0x0305 w.1) := by
  subst hr
  simp only [copyImage, h1, copyRead, hb, h2, hg, h3, hw, Bool.false_eq_true, if_false]

theorem copyImage_ok {s4 : State} {pa4 : Nat} {l4 : List Byte} (hw : (ws.find? fun w => microBad w.2.2.1 w.2.1 w.2.2.2) = none)
    (h4 : readTable s3 p (cmdField t.cmd 16 8) (imgField t.img 36 4) (imgField t.img 34 2) 16 = (s4, .ok pa4, l4)) :
    copyImage s t p = (s4, .ok (bundlesOf l1 (imgField t.img 8 4)) ws (routineSpans rows)
      ((scheduleRows l4 (imgField t.img 34 2)).map fun x => (x.1, x.2.1, x.2.2.1))) := by
  subst hr
  simp only [copyImage, h1, copyRead, hb, h2, hg, h3, hw, h4, Bool.false_eq_true, if_false]

end

section

variable (s : State) (q : Nat) (r : PassRun) (bs : List (BitVec 384)) (ws : List (Nat × Nat × Nat × Nat)) (spans : List (Nat × Nat × Nat)) (scheds : List (Nat × Nat × Nat))

theorem fillDicts_mem : (fillDicts s q r bs scheds).mem = s.mem :=
  foldl_keeps (fun t => t.mem = s.mem) (fun s i => modSeq s i fun u => { u with dict := some ⟨r.launch, bs, scheds⟩ }) _ (fun _ _ h => h) s rfl

theorem fillDicts_dict {i : Nat} (hi : i ∈ storeUnits q r.w) : (seqOf (fillDicts s q r bs scheds) i).dict = some ⟨r.launch, bs, scheds⟩ := by
  refine foldl_establishes (fun t => (seqOf t i).dict = some ⟨r.launch, bs, scheds⟩) _ i (fun t => ?_) (fun t j h => ?_) _ s hi
  · rw [seqOf_modSeq, if_pos rfl]
  · rw [seqOf_modSeq]
    split
    · rfl
    · exact h

theorem fillRoutines_coresOnly : CoresOnly s (fillRoutines s q r ws spans) := .foldl _ _ (fun _ _ h => h.modCore _ _) (.refl s)

theorem fillRoutines_core {p : Nat} (hp : p < r.w) :
    (coreGet (fillRoutines s q r ws spans) (coreOf (fillRoutines s q r ws spans) q p)).ulaunch = r.launch ∧
      (coreGet (fillRoutines s q r ws spans) (coreOf (fillRoutines s q r ws spans) q p)).ulen = spans.zipIdx.map fun e => (e.2, e.1.2.1, e.1.2.2) := by
  refine foldl_establishes (fun t => (coreGet t (coreOf t q p)).ulaunch = r.launch ∧ (coreGet t (coreOf t q p)).ulen = spans.zipIdx.map fun e => (e.2, e.1.2.1, e.1.2.2))
    _ p (fun t => ?_) (fun t j h => ?_) _ s (List.mem_range.2 hp)
  · rw [((CoresOnly.refl t).modCore _ _).coreOf, coreGet_modCore, if_pos rfl]
    exact ⟨rfl, rfl⟩
  · rw [((CoresOnly.refl t).modCore _ _).coreOf, coreGet_modCore]
    split
    · exact ⟨rfl, rfl⟩
    · exact h

theorem fillStores_mem : (fillStores s q r bs ws spans scheds).mem = s.mem :=
  (fillRoutines_coresOnly _ _ _ _ _).mem.trans (fillDicts_mem _ _ _ _ _)

theorem fillStores_copying : (seqOf (fillStores s q r bs ws spans scheds) q).copying = none := by
  rw [fillStores, seqOf_modSeq, if_pos rfl]

theorem fillStores_dict {i : Nat} (hi : i ∈ storeUnits q r.w) : (seqOf (fillStores s q r bs ws spans scheds) i).dict = some ⟨r.launch, bs, scheds⟩ := by
  have h : (seqOf (fillStores s q r bs ws spans scheds) i).dict = (seqOf (fillRoutines (fillDicts s q r bs scheds) q r ws spans) i).dict := by
    rw [fillStores, seqOf_modSeq]
    split
    case isTrue hq => rw [hq]
    case isFalse => rfl
  rw [h, (fillRoutines_coresOnly _ _ _ _ _).seqOf]
  exact fillDicts_dict s q r bs scheds hi

theorem fillStores_core {p : Nat} (hp : p < r.w) :
    (coreGet (fillStores s q r bs ws spans scheds) (coreOf (fillStores s q r bs ws spans scheds) q p)).ulaunch = r.launch ∧
      (coreGet (fillStores s q r bs ws spans scheds) (coreOf (fillStores s q r bs ws spans scheds) q p)).ulen = spans.zipIdx.map fun e => (e.2, e.1.2.1, e.1.2.2) :=
  fillRoutines_core (fillDicts s q r bs scheds) q r ws spans hp

end

/-! ## Barriers and supersteps (15 R302 to R304) -/

theorem padQueues_coresOnly (s : State) (q : Nat) : CoresOnly s (padQueues s q) :=
  .foldl _ _ (fun _ _ h => h.modCore _ _) (.refl s)

/-- Filling the queues up adds to each core's queue and leaves the rest of the core. -/
theorem coreGet_padQueues (s : State) (q i : Nat) : ∃ l, coreGet (padQueues s q) i = { coreGet s i with bq := (coreGet s i).bq ++ l } := by
  refine foldl_keeps (fun t => ∃ l, coreGet t i = { coreGet s i with bq := (coreGet s i).bq ++ l }) _ _ (fun t e h => ?_) s ⟨[], by simp⟩
  obtain ⟨l, hl⟩ := h
  dsimp only
  rw [coreGet_modCore]
  split
  case isTrue he => subst he; exact ⟨l ++ _, by rw [hl, List.append_assoc]⟩
  case isFalse => exact ⟨l, hl⟩

theorem syncDone_of_arrived {s : State} {q : Nat} {w : SyncWait} (hw : (seqOf s q).sync = some w)
    (ha : ∀ p < widthOf (seqOf s q), (barMask (seqOf s q) w.barrier).getLsbD p = true → p ∈ w.arrived) (hc : w.cycle + 2 ≤ s.cycle) (hl : w.last + 2 ≤ s.cycle) :
    syncDone s q = true := by
  have hm : ∀ p ∈ syncMembers (seqOf s q) w, w.arrived.contains p = true := fun p hp => by
    obtain ⟨hr, hb⟩ := List.mem_filter.1 hp
    exact List.contains_iff_mem.2 (ha p (List.mem_range.1 hr) hb)
  simp only [syncDone, hw, List.all_eq_true.2 hm, Bool.true_and, decide_eq_true_eq]
  exact Nat.add_le_of_le_sub (Nat.le_trans (Nat.le_add_left 2 _) hc) (Nat.max_le.2 ⟨Nat.le_sub_of_add_le hc, Nat.le_sub_of_add_le hl⟩)

/-! ### The statuses that a boundary lands (15 R307) -/

theorem removeOp_ops (c : Core) (o : AOp) : (removeOp c o).ops = c.ops.filter fun x => x.id ≠ o.id := rfl

theorem setN_ops (c : Core) (r : Nat) (x : TWord) : (c.setN r x).ops = c.ops := by unfold Core.setN; split <;> rfl

theorem setN_l1 (c : Core) (r : Nat) (x : TWord) : (c.setN r x).l1 = c.l1 := by unfold Core.setN; split <;> rfl

theorem removeOp_l1 (c : Core) (o : AOp) : (removeOp c o).l1 = c.l1 := by unfold removeOp Core.decCtr; split <;> rfl

theorem removeOp_ops_subset (c : Core) (o : AOp) : (removeOp c o).ops ⊆ c.ops := fun _ hx => (List.mem_filter.1 hx).1

theorem foldl_removeOp (l : List AOp) (c : Core) : (l.foldl removeOp c).ops ⊆ c.ops ∧ (l.foldl removeOp c).l1 = c.l1 := by
  induction l generalizing c with
  | nil => exact ⟨fun _ h => h, rfl⟩
  | cons o r ih =>
    obtain ⟨hops, hl1⟩ := ih (removeOp c o)
    exact ⟨fun _ h => removeOp_ops_subset c o (hops h), hl1.trans (removeOp_l1 c o)⟩

theorem dropBehind_ops_subset (c : Core) (cl id code detail : Nat) : (dropBehind c cl id code detail).ops ⊆ c.ops := (foldl_removeOp _ _).1

theorem dropBehind_l1 (c : Core) (cl id code detail : Nat) : (dropBehind c cl id code detail).l1 = c.l1 := (foldl_removeOp _ _).2

theorem landOp_l1 (c : Core) (o : AOp) : (landOp c o).l1 = c.l1 := by
  unfold landOp
  split
  · dsimp only
    split
    · rw [dropBehind_l1, removeOp_l1, setN_l1]
    · rw [removeOp_l1, setN_l1]
  · rfl

/-- An operation whose status waits for a boundary (15 R307). -/
def AwaitsBoundary (k : AKind) : Prop := ∃ d x cl f, k = .landAt d x cl f

/-- Landing a status leaves no operation of its number. -/
theorem landOp_ops {c : Core} {o x : AOp} (h : x ∈ (landOp c o).ops) : x ∈ c.ops ∧ (AwaitsBoundary o.kind → x.id ≠ o.id) := by
  unfold landOp at h
  split at h
  case h_1 dst v cl fail hk =>
    have hx : x ∈ (removeOp (c.setN dst.val v) o).ops := by
      dsimp only at h
      split at h
      · exact dropBehind_ops_subset _ _ _ _ _ h
      · exact h
    rw [removeOp_ops, setN_ops, List.mem_filter] at hx
    exact ⟨hx.1, fun _ => by simpa using hx.2⟩
  case h_2 hk =>
    exact ⟨h, fun ⟨d, x, cl, f, hw⟩ => absurd hw (hk d x cl f)⟩

theorem foldl_landOp_l1 (l : List AOp) (c : Core) : (l.foldl landOp c).l1 = c.l1 := by
  induction l generalizing c with
  | nil => rfl
  | cons o r ih => exact (ih _).trans (landOp_l1 c o)

theorem foldl_landOp_ops {l : List AOp} {c : Core} {x : AOp} (h : x ∈ (l.foldl landOp c).ops) : x ∈ c.ops ∧ (AwaitsBoundary x.kind → x ∉ l) := by
  induction l generalizing c with
  | nil => exact ⟨h, fun _ => List.not_mem_nil⟩
  | cons o r ih =>
    obtain ⟨hx, hr⟩ := ih h
    obtain ⟨hc, ho⟩ := landOp_ops hx
    refine ⟨hc, fun hw hm => ?_⟩
    rcases List.mem_cons.1 hm with rfl | hm
    · exact ho hw rfl
    · exact hr hw hm

/-- What a superstep release leaves on a core (15 R307, 14 R289): no copy of a host or peer line, and no status that waits for the boundary. -/
def BoundaryLanded (c : Core) : Prop := c.l1 = [] ∧ ∀ o ∈ c.ops, ¬ AwaitsBoundary o.kind

theorem stepCore_landed (c : Core) : BoundaryLanded (stepCore c) :=
  ⟨foldl_landOp_l1 _ _, fun o ho => by
    obtain ⟨hc, hl⟩ := foldl_landOp_ops ho
    exact fun hw => hl hw hc⟩

theorem foldl_stepCore_landed (s : State) {l : List Nat} {i : Nat} (hi : i ∈ l) : BoundaryLanded (coreGet (l.foldl (fun s i => modCore s i stepCore) s) i) := by
  refine foldl_establishes (fun t => BoundaryLanded (coreGet t i)) _ i (fun t => ?_) (fun t j h => ?_) l s hi
  · rw [coreGet_modCore, if_pos rfl]
    exact stepCore_landed _
  · rw [coreGet_modCore]
    split
    · exact stepCore_landed _
    · exact h

theorem padQueues_stepCore_landed (s : State) (q : Nat) {l : List Nat} {i : Nat} (hi : i ∈ l) :
    BoundaryLanded (coreGet (padQueues (l.foldl (fun s i => modCore s i stepCore) s) q) i) := by
  obtain ⟨b, hb⟩ := coreGet_padQueues (l.foldl (fun s i => modCore s i stepCore) s) q i
  rw [hb]
  exact foldl_stepCore_landed s hi

theorem padQueues_stepCore_coresOnly (s : State) (q : Nat) (l : List Nat) : CoresOnly s (padQueues (l.foldl (fun s i => modCore s i stepCore) s) q) :=
  (CoresOnly.foldl _ l (fun _ _ h => h.modCore _ _) (.refl s)).trans (padQueues_coresOnly _ q)

/-- Clearing a unit's boundary moves none of its cores. -/
theorem coresOf_modSeq_of_run (s : State) (q : Nat) (f : Seq → Seq) (h : (f (seqOf s q)).run = (seqOf s q).run) : coresOf (modSeq s q f) q = coresOf s q := by
  have hw : widthOf (seqOf (modSeq s q f) q) = widthOf (seqOf s q) := by rw [seqOf_modSeq, if_pos rfl, widthOf, h, widthOf]
  rw [coresOf, hw]
  rfl

/-- The release of a boundary that is due, on a pass that is not stopped. -/
theorem superstepRelease_due {s : State} {q : RodUnit} {j due : Nat} (he : s.ev = .unit q) (hj : (seqOf s q.val).stepWait = some j)
    (hr : (seqOf s q.val).release = some due) (hd : due ≤ s.cycle) (hs : (seqOf s q.val).stop = none) :
    exec .superstepRelease s = .next (padQueues ((coresOf s q.val).foldl (fun s i => modCore s i stepCore)
      (modSeq s q.val fun u => { u with steps := j, stepWait := none, release := none })) q.val) := by
  change execSuperstepRelease s = _
  simp only [execSuperstepRelease, he, hj, hr, hd, hs, Option.isNone_none, and_self, if_true]
  rw [coresOf_modSeq_of_run]
  rfl

/-- Settles O49, event by event. -/
theorem sequencerEvents : Obligations.SequencerEvents := by
  unfold Obligations.SequencerEvents
  refine ⟨?fetch, ?copy, ?fault, ?stall, ?held, ?barrier, ?superstep⟩
  case fetch =>
    intro s q r line due he hr hl hd
    exact ⟨fun s1 pa hx hn => fetchLineArrive_ok he hr hl hd hx hn, fun s1 code hx => fetchLineArrive_fail he hr hl hd hx⟩
  case copy =>
    intro s q r due s1 pa base n img l he hr hc hd hs himg hbase hn h1
    subst hbase hn himg
    refine ⟨fun i hb => ?_, fun hb s2 pa2 l2 rows h2 hrows hg s3 pa3 ws h3 => ⟨fun w hw => ?_, fun hw s4 pa4 l4 h4 => ?_⟩⟩
    · rw [dictionaryCopy_due he hr hc hd hs, copyImage_bundleBad h1 hb]
    · rw [dictionaryCopy_due he hr hc hd hs, copyImage_microBad h1 hb h2 hrows hg h3 hw]
    · rw [dictionaryCopy_due he hr hc hd hs, copyImage_ok h1 hb h2 hrows hg h3 hw h4]
      exact ⟨_, rfl, fillStores_mem .., fillStores_copying .., fun i hi => fillStores_dict _ _ _ _ _ _ _ hi, fun p hp => fillStores_core _ _ _ _ _ _ _ hp⟩
  case fault =>
    intro s q r due s1 code l he hr hc hd hs h1
    rw [dictionaryCopy_due he hr hc hd hs, copyImage_dictionaryFault h1]
  case stall =>
    intro s q he h1
    change execStallEnd s = _
    simp [execStallEnd, he, h1]
  case held =>
    intro s c o rest he hh
    change execHeldOpEnter s = _
    simp [execHeldOpEnter, he, hh]
  case barrier =>
    intro s q w he hw ha hc hl
    change ∃ t, execBarrierRelease s = .next t ∧ _
    simp only [execBarrierRelease, he, syncDone_of_arrived hw ha hc hl, if_true]
    refine ⟨_, rfl, ?_, (padQueues_coresOnly _ _).mem, fun i => coreGet_padQueues _ _ i⟩
    rw [(padQueues_coresOnly _ _).seqOf, seqOf_modSeq, if_pos rfl]
  case superstep =>
    intro s q j due he hj hrel hd hs
    rw [superstepRelease_due he hj hrel hd hs]
    have hcores := padQueues_stepCore_coresOnly (modSeq s q.val fun u => { u with steps := j, stepWait := none, release := none }) q.val (coresOf s q.val)
    refine ⟨_, rfl, ?_, hcores.mem, fun i hi => ?_⟩
    · rw [hcores.seqOf, seqOf_modSeq, if_pos rfl]
    · obtain ⟨hl1, hops⟩ := padQueues_stepCore_landed _ q.val hi
      exact ⟨hl1, fun o ho d x cl f hk => hops o ho ⟨d, x, cl, f, hk⟩⟩

end Sys2Proof.Machine

end

/-! # Dispatch and time (O55)

The clause about the pass that completes says that its unit is free once nothing of it is left to perform, for every state whose task has the right launch and copies. It does not ask that the
task's partition is one of the 40. A class 2 pass counts in its partition's record (03 R62), and the record of partition 7168 would lie at 0x80000, where ROWN is: its be_progress would be the
bytes 4 to 7 of ROWN[4], which hold the bead map of logical Rod 4 from the top bit of bead 2's field on (04 R64). On such a state the count moves bead 2 of Rod-unit 8 to another physical core, and the unit, which
waits for that core to retire, stays taken. -/

section

namespace Sys2Proof.Machine

open Sys2Proof

/-- A class 2 task of one copy whose partition number is none of the 40. -/
def strayTask : Task := { Task.empty with part := 7168, hdr := 0x80 <<< 32, copies := [CopyState.fresh] }

/-- Its first pass, on the four beads of Rod-unit 8. -/
def strayPass : PassRun := { task := 0, launch := 0, copy := 0, k := 0, w := 4, skew := 0, level := 0, part := 7168 }

/-- A bead that has retired its kernel end and has nothing left to perform. -/
def retiredCore : Core := { Core.blank with retired := true }

/-- All four beads of the pass have retired, and KERNEL_END_RETIRE names the first. -/
def strayState : State :=
  { State.reset with
    ev := .unitBead 8 0, seqs := [(8, { Seq.idle with run := some strayPass })], cores := [(32, retiredCore), (33, retiredCore), (34, retiredCore), (35, retiredCore)],
    rk := { State.reset.rk with tasks := [(0, strayTask)] } }

/-- Nothing is left to perform, on any of the four cores. -/
theorem strayState_done : mayRetire (coreGet strayState (coreOf strayState 8 0)) = false ∧ passRetired strayState 8 = true ∧ passDone strayState 8 = true := by
  decide +kernel

/-- The event counts the pass, which moves bead 2 from core 34 to core 38; that core has not retired, so the pass stays on its unit. -/
theorem strayState_stays {t : State} (h : exec .kernelEndRetire strayState = .next t) :
    coresOf strayState 8 = [32, 33, 34, 35] ∧ coresOf t 8 = [32, 33, 38, 35] ∧ (seqOf t 8).run = some strayPass := by
  obtain rfl := Host.Outcome.next.inj (h : execKernelEndRetire strayState = .next t)
  decide +kernel

/-- Refutes O55: a complete class 2 pass of a task whose partition is not below 40 moves a bead of its own unit as it counts, and the unit is not freed although nothing is left to perform. -/
theorem not_dispatchAndTime : ¬ Obligations.DispatchAndTime := by
  unfold Obligations.DispatchAndTime
  rintro ⟨-, -, -, -, -, -, hend, -⟩
  obtain ⟨hrest, hretired, hdone⟩ := strayState_done
  obtain ⟨-, hlast⟩ := hend strayState 8 0 strayPass _ rfl rfl (by decide) rfl
  obtain ⟨t, ht, hfree, -⟩ := hlast CopyState.fresh strayState (if_neg (Bool.eq_false_iff.1 hrest)).symm hretired rfl rfl (by decide) rfl rfl rfl
  obtain ⟨-, -, hrun⟩ := strayState_stays ht
  have hnone : (seqOf t 8).run = none := hfree hdone
  rw [hrun] at hnone
  cases hnone

end Sys2Proof.Machine

end

/-! # Reset state (O59)

At reset every window lists nothing, so each register reads as the bytes its window gives to an unlisted offset. -/

section

namespace Sys2Proof.Machine

open Sys2Proof

/-! ## Registers from their bytes -/

/-- Bytes that are the base-256 digits of a number read as that number, cut to the bytes read. -/
theorem leVal_of_digits (f : Nat → Byte) (a x n : Nat) (h : ∀ i < n, f (a + i) = BitVec.ofNat 8 (x / 256^i)) : leVal f a n = x % 256^n := by
  induction n generalizing a x with
  | zero => rw [leVal, Nat.pow_zero, Nat.mod_one]
  | succ n ih =>
    have low : f a = BitVec.ofNat 8 x := by simpa using h 0 n.succ_pos
    have high : leVal f (a + 1) n = x / 256 % 256^n := ih (a + 1) (x / 256) fun i hi => by
      rw [Nat.div_div_eq_div_mul, ← Nat.pow_succ', ← h (i + 1) (by omega), Nat.add_right_comm, Nat.add_assoc]
    rw [leVal, low, high, Nat.pow_succ', Nat.mod_mul, BitVec.toNat_ofNat]

theorem pfGet_reset {off n x : Nat} (hx : x < 256^n) (h : ∀ i < n, pfDefault (off + i) = BitVec.ofNat 8 (x / 256^i)) : pfGet State.reset off n = x := by
  rw [← Nat.mod_eq_of_lt hx]
  exact leVal_of_digits (pfByte State.reset) off x n h

theorem bar0Default_add (v off : Nat) (h : off < 256) : bar0Default (256 * v + off) = bar0Default off := by
  unfold bar0Default
  rw [Nat.mul_add_mod, Nat.mod_eq_of_lt h]

/-- The registers of every VF reset as those of VF 0. -/
theorem bar0Get_reset {v off n x : Nat} (hx : x < 256^n) (hn : off + n ≤ 256) (h : ∀ i < n, bar0Default (off + i) = BitVec.ofNat 8 (x / 256^i)) :
    bar0Get State.reset v off n = x := by
  rw [← Nat.mod_eq_of_lt hx]
  refine leVal_of_digits _ _ x n fun i hi => ?_
  rw [← h i hi, ← bar0Default_add v (off + i) (by omega), ← Nat.add_assoc]
  rfl

/-! ## The place block (04 R64 to R70) -/

theorem pfDefault_rown {n i : Nat} (hn : n < 24) (hi : i < 8) :
    pfDefault (0x80000 + 8 * n + i) = BitVec.ofNat 8 ((0xFAC688 * 2^24 + n % 12 * 2^16) / 256^i) := by
  unfold pfDefault
  rw [if_pos (by omega), show (0x80000 + 8 * n + i - 0x80000) / 8 = n by omega, show (0x80000 + 8 * n + i) % 8 = i by omega]

theorem pfDefault_cplace {c i : Nat} (hc : c < 208) (hi : i < 8) : pfDefault (0x81000 + 8 * c + i) = BitVec.ofNat 8 (0x8888888888 / 256^i) := by
  unfold pfDefault
  rw [if_neg (by omega), if_pos (by omega), show (0x81000 + 8 * c + i) % 8 = i by omega]

theorem pfDefault_l2sr {d t i : Nat} (hd : d < 2) (ht : t < 41) (hi : i < 4) : pfDefault (0x82000 + 256 * d + 4 * t + i) = BitVec.ofNat 8 (0x600 / 256^i) := by
  unfold pfDefault
  rw [if_neg (by omega), if_neg (by omega), if_pos (by omega), show (0x82000 + 256 * d + 4 * t + i) % 4 = i by omega]

theorem pfDefault_cgplace {d i : Nat} (hd : d < 2) (hi : i < 8) : pfDefault (0x82200 + 8 * d + i) = BitVec.ofNat 8 (0xFAC688 / 256^i) := by
  unfold pfDefault
  rw [if_neg (by omega), if_neg (by omega), if_neg (by omega), if_pos (by omega), show (0x82200 + 8 * d + i) % 8 = i by omega]

theorem rown_reset {n : Nat} (hn : n < 24) : rown State.reset n = 0xFAC688 * 2^24 + n % 12 * 2^16 :=
  pfGet_reset (by omega) fun _ hi => pfDefault_rown hn hi

/-- Neither half of a Rod has a valid owner: the valid bits are bits 6 and 14, below the physical Rod. -/
theorem rodOwner_reset {n h : Nat} (hn : n < 24) (hh : h < 2) : rodOwner State.reset n h = none := by
  rw [rodOwner, rown_reset hn]
  refine if_neg ?_
  obtain rfl | rfl : h = 0 ∨ h = 1 := by omega
  · simp only [bitsAt]
    omega
  · simp only [bitsAt]
    omega

/-- The eight 3-bit fields of 0xFAC688 (octal 76543210) hold their own numbers. -/
theorem identityMap_field : ∀ b < 8, bitsAt 0xFAC688 (3 * b) 3 = b := by decide

/-- Bead `b` of Rod `n` stands on core `b` of the physical Rod that holds `n`'s place on its die. -/
theorem coreAt_reset {n b : Nat} (hn : n < 24) (hb : b < 8) : coreAt State.reset n b = 104 * (n / 12) + 8 * (n % 12) + b := by
  have rod : bitsAt (0xFAC688 * 2^24 + n % 12 * 2^16) 16 4 = n % 12 := by
    simp only [bitsAt]
    omega
  have bead : bitsAt (0xFAC688 * 2^24 + n % 12 * 2^16) (24 + 3 * b) 3 = b :=
    calc bitsAt (0xFAC688 * 2^24 + n % 12 * 2^16) (24 + 3 * b) 3
        = bitsAt ((0xFAC688 * 2^24 + n % 12 * 2^16) / 2^24) (3 * b) 3 := by rw [bitsAt, bitsAt, Nat.pow_add, Nat.div_div_eq_div_mul]
      _ = bitsAt 0xFAC688 (3 * b) 3 := by rw [show (0xFAC688 * 2^24 + n % 12 * 2^16) / 2^24 = 0xFAC688 by omega]
      _ = b := identityMap_field b hb
  rw [coreAt, rown_reset hn, rod, bead]

/-! ## Single registers and the partition word -/

/-- FSCNT of each die (12 R255). -/
theorem frameCount_reset : ∀ d < 2, pfGet State.reset (0xE2008 + 64 * d) 1 = 1 := by decide

/-- TWARN: 95 °C in eighths of a degree (18 R367). -/
theorem warningTemperature_reset : pfGet State.reset 0xF8300 2 = 760 := by decide

/-- TCRIT: 105 °C in eighths of a degree (18 R367). -/
theorem criticalTemperature_reset : pfGet State.reset 0xF8308 2 = 840 := by decide

/-- No pass runs at reset, so the partition word is that of an empty task. -/
theorem curPword_reset : curPword State.reset = 0xE706 := by
  have noPass : runTask State.reset State.reset.cur.unit = Task.empty := rfl
  rw [curPword, noPass]
  decide +kernel

theorem getN_blank (r : Nat) : (Core.blank.getN r).v = 0 := by
  unfold Core.getN
  split
  · rfl
  · rfl

end Sys2Proof.Machine

namespace Sys2Proof

open Sys2Proof.Machine

/-- Settles O59: each register of the place block and of BAR0 reads as the base-256 digits of its reset value; the tables list nothing, so tasks, sequencers, frames,
memory and cores read as their defaults. -/
theorem resetState : Obligations.ResetState := by
  unfold Obligations.ResetState
  refine ⟨fun n hn => ⟨rown_reset hn, rodOwner_reset hn (by decide), rodOwner_reset hn (by decide), fun b hb => coreAt_reset hn hb⟩,
    fun c hc => pfGet_reset (by decide) fun i hi => pfDefault_cplace hc hi,
    fun d hd => ⟨fun t ht => pfGet_reset (by decide) fun i hi => pfDefault_l2sr hd ht hi, pfGet_reset (by decide) fun i hi => pfDefault_cgplace hd hi, frameCount_reset d hd⟩,
    fun v _ => ⟨bar0Get_reset (by decide) (by decide) (by decide), bar0Get_reset (by decide) (by decide) (by decide), bar0Get_reset (by decide) (by decide) (by decide)⟩,
    warningTemperature_reset, criticalTemperature_reset, rfl, curPword_reset, rfl, rfl, rfl, fun t => rfl, fun q => rfl, fun d pa => rfl, reset_canonical, fun a => rfl,
    fun c => ⟨rfl, rfl, getN_blank⟩⟩

end Sys2Proof

end
